-- ==== Sys2Proof/Word.lean ====
section
/-! DEFINITION. The word types of the block and the plainest arithmetic on them. -/

namespace Sys2Proof

/-- A byte of a packet, a receipt, a page image or a staging line. -/
abbrev Byte := BitVec 8

/-- A 32-bit register or a 32-bit data word. -/
abbrev W32 := BitVec 32

/-- A 64-bit register, a 64-bit data word or a host address. -/
abbrev W64 := BitVec 64

/-- The value of a Bool as a bit. -/
def bit (b : Bool) : Nat := if b then 1 else 0

/-- `ceilDiv a b` = a / b rounded up (b = 0 gives 0). -/
def ceilDiv (a b : Nat) : Nat := (a + b - 1) / b

/-- Saturating at `m`. -/
def sat (m n : Nat) : Nat := min n m

end Sys2Proof
end

