-- ==== Sys2Proof/Syntax.lean ====
section
/-! DEFINITION. The commands of the block: one constructor of `Instr` per row of spec/opcode_table.json, with the
operands that the command carries from outside the block. Operands are plain data; a bounded operand has a bounded
type, and Sys2Proof.WellFormed states what the types leave open. -/

namespace Sys2Proof

/-- A LUN of the unit: channel, chip enable and LUN number (R15, R153). -/
structure LunSel where
  ch : Fin 48
  ce : Fin 16
  lun : Fin 8
  deriving DecidableEq, Repr

/-- What an H_TGT access carries beside its address and data: the host ring attribute and the requester's RID (R375). -/
structure Acc where
  ring : BitVec 2
  rid : Byte
  deriving DecidableEq, Repr

/-- A whole H_TGT access (R375): a read, a write or, with `fetch`, an instruction fetch. -/
structure HostAccess where
  acc : Acc
  addr : BitVec 24
  size64 : Bool
  write : Bool
  fetch : Bool
  data : W64
  deriving DecidableEq, Repr

/-- A 64-byte command packet, by the fields of R53. `row` is bytes 8–15 and `b0`–`b3` are bytes 32–63, all
little-endian (R9). -/
structure Packet where
  opcode : Byte
  flags : Byte
  tag : BitVec 16
  unit : Byte
  channel : Byte
  ceLun : Byte
  planes : Byte
  row : W64
  launchTick : W64
  deadline : W32
  strength : Byte
  qmask : Byte
  ladder : Byte
  b0 : W64
  b1 : W64
  b2 : W64
  b3 : W64
  deriving DecidableEq, Repr

/-- What a decode engine reports at the end of a job (R106, R112, R119): whether the syndrome is zero, the iterations
run, and the bit positions at which its output differs from the hard decisions fed to it.
(DESIGN CHOICE, log entry 16.) -/
structure DecodeResult where
  ok : Bool
  iters : Nat
  fix : List Nat
  deriving DecidableEq, Repr

/-- The header of a ring frame (R243) and what its lane delivered with it: the lane it is on and the sending lane that it
names (R241), LEN, the data blocks between start and check block, the CRC-32 of its check block, and the type of a
control block within it other than R240's three, if there was one. -/
structure FrameHdr where
  src : BitVec 4
  dst : BitVec 4
  bcast : Bool
  retry : Bool
  seq : Byte
  hops : Byte
  lane : Fin 2
  named : Fin 2
  len : Byte
  blocks : Nat
  crc : W32
  ctl : Option Byte := none
  deriving DecidableEq, Repr

/-- The payload of a PRESENCE frame (R243, R253, R261): the master's address, the exchange number, whether the frame
carries an exchange, whether the ring-wide budget starts with it (R226), the present map, and per unit the coins given up and the demand. -/
structure Presence where
  master : BitVec 4
  exch : BitVec 16
  hasExch : Bool
  start : Bool := false
  present : BitVec 16
  slots : List (BitVec 16 × BitVec 16)
  deriving DecidableEq, Repr

/-- Why a lane goes down (R241): its block lock is lost, its high bit-error-rate monitor is true, or it has delivered no
valid frame for 4 µs. -/
inductive LaneCause where
  | noLock | highBer | noFrame
  deriving DecidableEq, Repr

/-- A lane goes down, and why (R241). -/
structure LaneFall where
  lane : Fin 2
  cause : LaneCause
  deriving DecidableEq, Repr

/-- What went wrong with a fetch: its response was an error, or a beat of it carried poison (R290). -/
structure FetchFlaw where
  err : Bool := false
  poison : Bool := false
  deriving DecidableEq, Repr

/-- Why a front end stops (R26): it loses power, enters reset or is fenced. -/
inductive StopCause where
  | power | reset | fence
  deriving DecidableEq, Repr

/-- The clock sources that become READY (R415). -/
inductive ClockSel where
  | corePll | fallback | phy (g : Fin 12)
  deriving DecidableEq, Repr

/-- The four trim registers of a channel (R453). -/
inductive TrimReg where
  | dqRd | dqWr | dqs | drv
  deriving DecidableEq, Repr

/-- A trim register: group, channel of the group, register. -/
structure TrimSel where
  g : Fin 12
  c : Fin 4
  reg : TrimReg
  deriving DecidableEq, Repr

/-- The new trims of one channel, as a training step or a calibration run finds them (R160, R449), each as its register
holds it. -/
structure Trims where
  dqRd : W64
  dqWr : W64
  dqs : W64
  drv : W64
  deriving DecidableEq, Repr

/-- What the dies answer at the end of a bring-up step (R158, R163): the channel of the group it ended on, whether it
passed, the READ ID bytes, the parameter page, the feature bytes read back, and the trims training leaves. -/
structure BringResult where
  c : Fin 4
  ok : Bool
  ident : W64
  ppage : List Byte
  p1 : Byte
  p2 : Byte
  trims : Trims
  deriving DecidableEq, Repr

/-- What the boot channel brings of a block of the twin (R330, R331): the first 32 bytes of its header page, unless a quarter of
it is uncorrectable; the bytes of its image; and whether a page of that is uncorrectable. -/
structure BootBlock where
  header : Option (List Byte)
  image : List Byte
  unc : Bool
  deriving DecidableEq, Repr

/-- What a load of the start-up sequence meets (R332): whether the bring-up of CE0 passed, and what it brings of the blocks. -/
structure BootLoadResult where
  up : Bool
  block0 : BootBlock
  block1 : BootBlock
  deriving DecidableEq, Repr

/-- What a BIST step finds (R471, R479, R480): the fields of BIST_SLICE for a logic step; for the memory step, whether a
step that HK2 runs found failures and what they are, as the words of the result registers. -/
structure BistResult where
  result : BitVec 2
  chainValid : Bool
  chain : BitVec 6
  bitPos : BitVec 16
  elapsed : BitVec 16
  banks : List W32
  other : W64
  rows : List W64
  deriving DecidableEq, Repr

/-- The commands of the block, in the order of spec/opcode_table.json. -/
inductive Instr where
  /-- R44. -/
  | sqTailDoorbell (a : Acc) (k : Fin 256) (v : W32)
  /-- R45. -/
  | rqHeadWrite (a : Acc) (k : Fin 256) (v : W32)
  /-- R50. -/
  | ringEnable (a : Acc) (k : Fin 256) (v : W32)
  /-- R50. -/
  | ringDisable (a : Acc) (k : Fin 256) (v : W32)
  /-- R49. -/
  | ringCfgWrite (a : Acc) (k : Fin 256) (v : W32)
  /-- R51. -/
  | fetchErrClear (a : Acc) (k : Fin 256) (v : W32)
  /-- R51. -/
  | rcptErrClear (a : Acc) (k : Fin 256) (v : W32)
  /-- R51. -/
  | packetFetchError (k : Fin 256)
  /-- R42. -/
  | routingResume (k : Fin 256)
  /-- R30. -/
  | read (k : Fin 256) (p : Packet)
  /-- R181. -/
  | readMulti (k : Fin 256) (p : Packet)
  /-- R59. -/
  | readRaw (k : Fin 256) (p : Packet)
  /-- R32. -/
  | program (k : Fin 256) (p : Packet)
  /-- R181. -/
  | programMulti (k : Fin 256) (p : Packet)
  /-- R57. -/
  | erase (k : Fin 256) (p : Packet)
  /-- R181. -/
  | eraseMulti (k : Fin 256) (p : Packet)
  /-- R60. -/
  | copy (k : Fin 256) (p : Packet)
  /-- R62. -/
  | status (k : Fin 256) (p : Packet)
  /-- R57. -/
  | setFeature (k : Fin 256) (p : Packet)
  /-- R57. -/
  | getFeature (k : Fin 256) (p : Packet)
  /-- R62. -/
  | resetLun (k : Fin 256) (p : Packet)
  /-- R355. -/
  | sequence (k : Fin 256) (p : Packet)
  /-- R216. -/
  | ledgerSetBudget (k : Fin 256) (p : Packet)
  /-- R216. -/
  | ledgerSetCost (k : Fin 256) (p : Packet)
  /-- R223. -/
  | ledgerSetQuiet (k : Fin 256) (p : Packet)
  /-- R236. -/
  | timeMark (k : Fin 256) (p : Packet)
  /-- R74. -/
  | fence (k : Fin 256) (p : Packet)
  /-- R321. -/
  | scrubStart (k : Fin 256) (p : Packet)
  /-- R321. -/
  | scrubStop (k : Fin 256) (p : Packet)
  /-- R321. -/
  | scrubClearPool (k : Fin 256) (p : Packet)
  /-- R455. -/
  | calibrateRun (k : Fin 256) (p : Packet)
  /-- R455. -/
  | calibrateRunForced (k : Fin 256) (p : Packet)
  /-- R455. -/
  | calibrateRebase (k : Fin 256) (p : Packet)
  /-- R455. -/
  | calibrateApply (k : Fin 256) (p : Packet)
  /-- R325. -/
  | relocPoolAdd (k : Fin 256) (p : Packet)
  /-- R337. -/
  | bootSwap (k : Fin 256) (p : Packet)
  /-- R204. -/
  | channelCtlNone (k : Fin 256) (p : Packet)
  /-- R204. -/
  | channelCtlEnable (k : Fin 256) (p : Packet)
  /-- R204. -/
  | channelCtlDisable (k : Fin 256) (p : Packet)
  /-- R204. -/
  | fenceGroup (k : Fin 256) (p : Packet)
  /-- R204. -/
  | unfenceGroup (k : Fin 256) (p : Packet)
  /-- R205. -/
  | unhaltLun (k : Fin 256) (p : Packet)
  /-- R204. -/
  | flushLun (k : Fin 256) (p : Packet)
  /-- R57. -/
  | nop (k : Fin 256) (p : Packet)
  /-- R172. -/
  | itemBecomesCandidate (id : Nat)
  /-- R232. -/
  | itemArm (id : Nat)
  /-- R232. -/
  | launchGateOpen (ch : Fin 48)
  /-- R173. -/
  | itemLaunch (l : LunSel)
  /-- R236. -/
  | tickEffect (id : Nat)
  /-- R212. -/
  | ledgerGrant
  /-- R313. -/
  | slotGrant
  /-- R150. -/
  | pollDue (l : LunSel)
  /-- R150. -/
  | rbNRise (ch : Fin 48) (line : Fin 4)
  /-- R149. -/
  | pollComplete (ch : Fin 48) (st : Byte)
  /-- R152. -/
  | dieTimeoutExpiry (l : LunSel)
  /-- R178. -/
  | busTenureEnd (ch : Fin 48) (data : List Byte)
  /-- R30. -/
  | transferEnd (ch : Fin 48) (data : List Byte)
  /-- R184. -/
  | suspendIssue (l : LunSel)
  /-- R186. -/
  | resumeIssue (l : LunSel)
  /-- R110. -/
  | decodeHoldExpiry (l : LunSel)
  /-- R132. -/
  | decodeJobClaim (e : Fin 40)
  /-- R106. -/
  | localDecodeEnd (e : Fin 40) (r : DecodeResult)
  /-- R112. -/
  | globalDecodeEnd (e : Fin 40) (r : DecodeResult)
  /-- R119. -/
  | softDecodeEnd (e : Fin 40) (r : DecodeResult)
  /-- R118. -/
  | ladderStepBegin (id : Nat)
  /-- R194. -/
  | marginReadLaunch (id : Nat)
  /-- R136. -/
  | decodeEngineFault (e : Fin 40)
  /-- R135. -/
  | engineDrainEnd (e : Fin 40)
  /-- R300. -/
  | hostInCommit (ch : Fin 48)
  /-- R95. -/
  | parityPassEnd (id : Nat)
  /-- R302. -/
  | hostOutThreshold (ch : Fin 48)
  /-- R277. -/
  | dmaMoveComplete (d : Fin 32)
  /-- R280. -/
  | ringDescFetchReturn (d : Fin 32) (desc : List Byte) (err poison : Bool)
  /-- R289. -/
  | descListFetchReturn (d : Fin 32) (es : List (List Byte)) (flaw : FetchFlaw)
  /-- R367. -/
  | hiReadDataBeat (id : BitVec 10) (data : List Byte) (poison : BitVec 16) (err : BitVec 2) (last : Bool)
  /-- R368. -/
  | hiWriteResponse (id : BitVec 10) (err : BitVec 2)
  /-- R364. -/
  | hiCreditReturn (rd wr : BitVec 2)
  /-- R293. -/
  | dmaChannelDrainEnd (d : Fin 32)
  /-- R202. -/
  | channelDrainEnd (ch : Fin 48)
  /-- R218. -/
  | ledgerCutRise
  /-- R217. -/
  | ledgerCutFall
  /-- R220. -/
  | cutHoldExpiry
  /-- R217. -/
  | forceAltWrite (a : Acc) (v : W32)
  /-- R224. -/
  | quietWindowStart (j : Fin 8)
  /-- R224. -/
  | quietWindowEnd (j : Fin 8)
  /-- R227. -/
  | ledgerExchangeTick
  /-- R82. -/
  | pwrWarnRise
  /-- R84. -/
  | pwrWarnFall
  /-- R246. -/
  | enumFrame (h : FrameHdr) (addr : Byte) (nonce : BitVec 16) (count : Byte)
  /-- R253. -/
  | presenceFrame (h : FrameHdr) (p : Presence)
  /-- R261. -/
  | allotFrame (h : FrameHdr) (exch : BitVec 16) (allot : List (BitVec 16))
  /-- R257. -/
  | timeReqFrame (h : FrameHdr)
  /-- R257. -/
  | timeRspFrame (h : FrameHdr) (t2 : BitVec 80) (t3 : BitVec 40) (offset : W64) (dist : Byte)
  /-- R260. -/
  | stepFrame (h : FrameHdr) (step : W64)
  /-- R263. -/
  | bcastFrame (h : FrameHdr) (p : Packet)
  /-- R263. -/
  | bcastTickApply (i : Nat)
  /-- R264. -/
  | fwdPktFrame (h : FrameHdr) (p : Packet) (handle : W32) (level : BitVec 2)
  /-- R264. -/
  | intakeToTeller
  /-- R264. -/
  | fwdAckFrame (h : FrameHdr) (handle : W32)
  /-- R265. -/
  | fwdRcptFrame (h : FrameHdr) (handle : W32) (rcpt : List Byte)
  /-- R265. -/
  | rcptAckFrame (h : FrameHdr) (handle : W32)
  /-- R265. -/
  | fwdRetransmitExpiry (handle : W32)
  /-- R253. -/
  | presenceSendTick
  /-- R257. -/
  | timeExchangeTick
  /-- R255. -/
  | masterLost
  /-- R251. -/
  | laneDown (fall : LaneFall)
  /-- R241. -/
  | laneUp (lane : Fin 2)
  /-- R252. -/
  | healHoldExpiry
  /-- R23. -/
  | handoverRequest (a : Acc) (v : W32)
  /-- R23. -/
  | handoverInvert
  /-- R25. -/
  | frontEndUp (half : Fin 2)
  /-- R26. -/
  | frontEndStop (half : Fin 2) (cause : StopCause)
  /-- R231. -/
  | tbSetWrite (a : Acc) (v : W64)
  /-- R93. -/
  | randKeyWrite (a : Acc) (v : W32)
  /-- R226. -/
  | ringStartWrite (a : Acc) (v : W64)
  /-- R246. -/
  | reenumWrite (a : Acc) (v : W32)
  /-- R246. -/
  | ringPortEnable (a : Acc) (v : W32)
  /-- R157. -/
  | initWrite (a : Acc) (g : Fin 12) (v : W64)
  /-- R158. -/
  | bringupStepEnd (g : Fin 12) (r : BringResult)
  /-- R167. -/
  | inertWrite (a : Acc) (g : Fin 12) (v : W64)
  /-- R202. -/
  | chEnableWrite (a : Acc) (ch : Fin 48) (v : W32)
  /-- R203. -/
  | chDisableWrite (a : Acc) (ch : Fin 48) (v : W32)
  /-- R202. -/
  | cgFenceWrite (a : Acc) (g : Fin 12) (v : W32)
  /-- R135. -/
  | deCtlWrite (a : Acc) (e : Fin 40) (v : W32)
  /-- R135. -/
  | poolFenceWrite (a : Acc) (v : W32)
  /-- R293. -/
  | dcEnableWrite (a : Acc) (d : Fin 32) (v : W32)
  /-- R294. -/
  | dcDisableWrite (a : Acc) (d : Fin 32) (v : W32)
  /-- R280. -/
  | dcKickWrite (a : Acc) (d : Fin 32) (v : W32)
  /-- R304. -/
  | fifoFlushWrite (a : Acc) (ch : Fin 48) (v : W32)
  /-- R305. -/
  | fifoDbgEnableWrite (a : Acc) (ch : Fin 48) (v : W32)
  /-- R305. -/
  | fifoDbgPop (a : Acc) (ch : Fin 48) (f : Fin 4) (size64 : Bool)
  /-- R460. -/
  | icClaimRead (a : Acc) (t : Fin 8)
  /-- R461. -/
  | icCompleteWrite (a : Acc) (t : Fin 8) (v : W32)
  /-- R458. -/
  | icForceWrite (a : Acc) (s : Fin 512) (v : W32)
  /-- R462. -/
  | icSenseWrite (a : Acc) (s : Fin 512) (v : W32)
  /-- R458. -/
  | interruptInputChange (s : Fin 512) (level : Bool)
  /-- R47. -/
  | coalTimeExpiry (k : Fin 256)
  /-- R467. -/
  | snapNowWrite (a : Acc) (v : W32)
  /-- R466. -/
  | tallyCountWrite (a : Acc) (i : Fin 64) (v : W64)
  /-- R317. -/
  | smBankFenceWrite (a : Acc) (b : Fin 16) (v : W32)
  /-- R317. -/
  | smRetireWrite (a : Acc) (b : Fin 16) (v : W32)
  /-- R317. -/
  | itemSlotsWrite (a : Acc) (b : Fin 16) (v : W32)
  /-- R318. -/
  | smRemapWrite (a : Acc) (b : Fin 16) (e : Fin 8) (v : W32)
  /-- R320. -/
  | smFlipArm (a : Acc) (v : W32)
  /-- R102. -/
  | chFlipArm (a : Acc) (ch : Fin 48) (v : W32)
  /-- R339. -/
  | winEnRelease (a : Acc) (v : W32)
  /-- R339. -/
  | bootReloadWrite (a : Acc) (v : W32)
  /-- R334. -/
  | bootWindowRead (a : Acc) (offset : BitVec 21) (size64 : Bool)
  /-- R334. -/
  | bootWindowFetch (a : Acc) (offset : BitVec 21) (size64 : Bool)
  /-- R332. -/
  | bootLoadStart
  /-- R332. -/
  | bootLoadEnd (r : BootLoadResult)
  /-- R433. -/
  | modeTargetReady (a : Acc) (v : W32)
  /-- R433. -/
  | modeTargetActive (a : Acc) (v : W32)
  /-- R433. -/
  | modeTargetStandby (a : Acc) (v : W32)
  /-- R438. -/
  | modeTargetOff (a : Acc) (v : W32)
  /-- R470. -/
  | modeTargetTest (a : Acc) (v : W32)
  /-- R434. -/
  | pwrReqWrite (a : Acc) (v : W32)
  /-- R417. -/
  | ckSrcWrite (a : Acc) (v : W32)
  /-- R417. -/
  | clockSwitchDone
  /-- R418. -/
  | ckPllWrite (a : Acc) (v : W32)
  /-- R415. -/
  | clockSourceReady (src : ClockSel)
  /-- R436. -/
  | corePllLockTimeout
  /-- R422. -/
  | coreClockTrip
  /-- R423. -/
  | phyPllTrip (g : Fin 12)
  /-- R429. -/
  | poresetAssert
  /-- R436. -/
  | poresetRelease
  /-- R429. -/
  | sysresetAssert
  /-- R436. -/
  | sysresetRelease
  /-- R436. -/
  | supplyOkRise (j : Fin 17)
  /-- R439. -/
  | supplyOkFall (j : Fin 17)
  /-- R168. -/
  | vddqLoss (g : Fin 12)
  /-- R426. -/
  | pswAckRise (i : Fin 20)
  /-- R404. -/
  | pswAckUnplannedFall (i : Fin 20)
  /-- R404. -/
  | pswHandshakeTimeout (i : Fin 20)
  /-- R410. -/
  | strapChange
  /-- R356. -/
  | patchRamClearEnd (j : Fin 15)
  /-- R357. -/
  | mcWriteEnWrite (a : Acc) (j : Fin 15) (v : W64)
  /-- R358. -/
  | mcPatchEnWrite (a : Acc) (j : Fin 15) (v : W64)
  /-- R354. -/
  | mcRestartWrite (a : Acc) (j : Fin 15) (s : Fin 4) (v : W64)
  /-- R351. -/
  | machineCheck (j : Fin 15) (s : Fin 4) (cause : Fin 16) (par : Byte)
  /-- R348. -/
  | microTrapEntry (j : Fin 15) (s : Fin 4)
  /-- R350. -/
  | trapReturn (j : Fin 15) (s : Fin 4)
  /-- R355. -/
  | routineEnd (ch : Fin 48)
  /-- R355. -/
  | routineTimeout (ch : Fin 48)
  /-- R484. -/
  | svcFeFenceWrite (a : Acc) (v : W32)
  /-- R453. -/
  | trimWrite (a : Acc) (t : TrimSel) (v : W64)
  /-- R444. -/
  | tempUpdate (g : Fin 12) (t : BitVec 12)
  /-- R445. -/
  | calRetryExpiry (g : Fin 12)
  /-- R448. -/
  | calForcingTimeout (g : Fin 12)
  /-- R448. -/
  | calBoundary (g : Fin 12)
  /-- R449. -/
  | calRunEnd (g : Fin 12) (r : List Trims)
  /-- R322. -/
  | patrolReadLaunch
  /-- R324. -/
  | relocationStart (id : Nat)
  /-- R327. -/
  | relocReceiptWrite
  /-- R319. -/
  | sramScrubVisit
  /-- R471. -/
  | bistStepEnd (r : BistResult)
  /-- R474. -/
  | bistBudgetExpiry
  /-- R482. -/
  | wsBypass
  /-- R482. -/
  | wsExtest
  /-- R482. -/
  | scanSlice (slice : BitVec 5)
  /-- R482. -/
  | resultRead
  /-- R482. -/
  | lcRead
  /-- R379. -/
  | halfRead (a : Acc) (addr : BitVec 24)
  /-- R7. -/
  | readClearAccess (a : Acc) (addr : BitVec 24) (size64 : Bool)
  /-- R7. -/
  | registerWrite (a : Acc) (addr : BitVec 24) (size64 : Bool) (v : W64)
  /-- R376. -/
  | errorResponse (q : HostAccess)
  /-- R483. -/
  | scanShift (scanEn : Bool) (scanIn : W64)
  deriving DecidableEq, Repr

end Sys2Proof
end

