-- ==== Sys2Proof/Config.lean ====
section
/-! DEFINITION. What an implementation of the block fixes and the spec does not give: the level of the pins that the
integrator ties, and the free values (uninterpreted constants; no proof can see what they are). -/

namespace Sys2Proof.Config

/-- The strap pins at the release of PORESET_N (R409): RING_HEAD in bit 0, BOOT_SEL in bits 4:1, LC_STATE in bits
8:5. The argument is how often the levels at the strap inputs have changed. (DESIGN CHOICE, log entry 12.) -/
opaque straps : Nat → BitVec 9

/-- The level of the TEST_MODE pin (R411). -/
opaque testMode : Bool

/-- A fresh undefined bit: the argument is a counter that the step reads and advances. -/
opaque freeBit : Nat → Bool

/-- A fresh undefined 64-bit word. (DESIGN CHOICE, log entry 2.) -/
opaque freeWord : Nat → W64

/-- A fresh undefined byte. -/
opaque freeByte : Nat → Byte

/-- Byte `i` of the local parity that the encoder computes over the 4,112 user and metadata bytes of a quarter at a strength
(R85, R95): the mother code's schedule tables are not in the spec. (DESIGN CHOICE, log entry 17.) -/
opaque localByte : Nat → List Byte → Nat → Byte

/-- Byte `i` of the global parity over the four quarters of a page with their local parities, at a strength (R85, R95). -/
opaque globalByte : Nat → List Byte → Nat → Byte

/-- Command bytes that the spec takes from the standards without naming them (R145, R177, R181–R183), by their use. -/
opaque stdCmd : Nat → Byte

/-- Row cycle `i` of an address that names only a LUN, as a status poll, a suspend or a resume sends it (R145, R154,
R177): where the LUN's bits lie in a row is the die's. -/
opaque lunRow : Nat → Nat → Byte

/-- The ring pair that an origin's item handle stands for (R264, R267): the arguments are the origin and the handle. How
handles are made is not in the spec. -/
opaque ringOfHandle : Nat → Nat → Nat

/-- Data bits of the microword at an address of a store's ROM (R341): the spec gives no ROM contents. The arguments are
the store and the address. (DESIGN CHOICE, log entry 18.) -/
opaque romWord : Nat → Nat → BitVec 136

end Sys2Proof.Config
end

