-- ==== Sys2Proof/Machine/RegTable.lean ====
section
/-! DEFINITION. The register map of the 16 MiB H_TGT window: every register of R487 with its address, instances,
width (R488) and fields (R7), as the register tables of the chapters of spec/ give them. -/

namespace Sys2Proof.Machine

/-- The registers of the window (R487), one constructor per entry of spec/17_register_index.md; each word of a
multi-word entry (LADDER_STEP, LG_QUIET, MC_PATCH) is a register of its own. -/
inductive RegName where
  | epmId | ownerCtl | serviceMap | serviceBanks | epmGeom | sqBase | rqBase | ringCfg
  | irqCoal | sqTail | sqHead | rqTail | rqHead | ringStatus | randKey | chRemap
  | chFlip | chFlipCtl | ladderStepW0 | ladderStepW1 | ladderLoaded | track | margin | classCfg0
  | classCfg1 | decCtl | decStatus | deCtl | chTiming0 | chTiming1 | chPoll | chTimeout
  | chRbMap | chBusCtl | chClass | chBringFeat | chId | chPpage | cgPhy | chBusStatus
  | chLunState | chSched | chCtl | cgFence | lgClassSet | lgCost | lgBudget | lgCtl
  | lgStatus | lgCharged | lgQuietW0 | lgQuietW1 | lgRingCtl | lgRingStatus | tbNow | tbFrac
  | tbSet | tbInc | tbCtl | tbStatus | xrCtl | xrStatus | xrAddr | xrAsym
  | xrHop | xrFwd | dcCtl | dcRingBase | dcRingCfg | dcKick | dcHead | dcStatus
  | dcLate | dcOutstanding | chFifoCtl | chFifoStat | chFifoDbg | smBankCtl | smRemap | smEccStatus
  | smEccLog | smScrub | smFlip | smFlipCtl | psCfg | psStatus | psCursor | psClass
  | psPool | bootCtl | bootStatus | bootXo | mcEng | mcFrame | mcRoutine | mcCtl
  | mcRomId | mcMatch | mcPatchW0 | mcPatchW1 | mcPatchW2 | hpAttr | hpCredit | hpIniErr
  | hpTgtErr | portStatus | ckCoreCtl | ckStatus | modeCtl | pwrReq | pwrStatus | calAlert
  | calGrpCtl | calGrpStatus | calLimits | calRejInfo | calDqRd | calDqWr | calDqs | calDrv
  | icSrc | icPend | icClaim | icComplete | icTgtStatus | icTgtCfg | tallyCfg | tallyVal
  | tallySnapCtl | tallySnapTick | tallySnap | lcStatus | bistCtl | bistStatus | bistSlice | bistMemBank
  | bistMemOther | bistMemRow | svcFeCtl
  deriving DecidableEq, Repr

/-- The field types of R7. -/
inductive Access where
  | rw | ro | w1c | w1s | wo | rc
  deriving DecidableEq, Repr

/-- One field of a register table: lowest bit, length, type and reset value. -/
structure FieldRow where
  lo : Nat
  len : Nat
  acc : Access
  reset : Nat
  deriving DecidableEq, Repr

/-- One register: the address of its first instance, the (count, stride) of each index, its width and its fields. -/
structure RegRow where
  base : Nat
  dims : List (Nat × Nat)
  wide : Bool
  fields : List FieldRow
  deriving DecidableEq, Repr

/-- A named field: a register and the place of the field in it. -/
structure Fld where
  reg : RegName
  lo : Nat
  len : Nat
  deriving DecidableEq, Repr

/-- One instance of a register: its name and up to three indices, outermost first (unused indices are 0). -/
structure Reg where
  name : RegName
  i : Nat := 0
  j : Nat := 0
  k : Nat := 0
  deriving DecidableEq, Repr

/-- EPM_ID (R3). -/
def rowEpmId : RegRow := ⟨0x00000000, [], false, [
      ⟨24, 8, .ro, 0xe4⟩, ⟨16, 8, .ro, 0x30⟩, ⟨8, 8, .ro, 0x3⟩, ⟨0, 8, .ro, 0x1⟩]⟩
/-- OWNER_CTL (R21). -/
def rowOwnerCtl : RegRow := ⟨0x00000010, [], false, [
      ⟨0, 1, .rw, 0⟩, ⟨1, 1, .w1s, 0⟩, ⟨8, 1, .ro, 0⟩, ⟨9, 1, .ro, 0⟩, ⟨10, 1, .ro, 0⟩, ⟨16, 1, .w1c, 0⟩,
      ⟨17, 1, .w1c, 0⟩, ⟨18, 1, .w1c, 0⟩, ⟨19, 1, .ro, 0⟩]⟩
/-- SERVICE_MAP (R36). -/
def rowServiceMap : RegRow := ⟨0x00000018, [], false, [
      ⟨0, 12, .ro, 0⟩, ⟨12, 2, .ro, 0⟩, ⟨14, 2, .ro, 0⟩, ⟨16, 1, .ro, 0⟩]⟩
/-- SERVICE_BANKS (R36). -/
def rowServiceBanks : RegRow := ⟨0x0000001c, [], false, [⟨0, 16, .ro, 0⟩]⟩
/-- EPM_GEOM (R36). -/
def rowEpmGeom : RegRow := ⟨0x00000004, [], false, [
      ⟨0, 8, .ro, 0x30⟩, ⟨8, 4, .ro, 0x4⟩, ⟨12, 3, .ro, 0x3⟩, ⟨16, 6, .ro, 0x28⟩, ⟨24, 4, .ro, 0x4⟩,
      ⟨28, 4, .ro, 0x4⟩]⟩
/-- SQ_BASE (R499). -/
def rowSqBase : RegRow := ⟨0x00100000, [(256, 0x1000)], true, [⟨12, 52, .rw, 0⟩]⟩
/-- RQ_BASE (R48). -/
def rowRqBase : RegRow := ⟨0x00100008, [(256, 0x1000)], true, [⟨12, 52, .rw, 0⟩]⟩
/-- RING_CFG (R40). -/
def rowRingCfg : RegRow := ⟨0x00100010, [(256, 0x1000)], false, [
      ⟨0, 1, .rw, 0⟩, ⟨4, 2, .rw, 0⟩, ⟨6, 2, .rw, 0⟩, ⟨8, 5, .rw, 0x4⟩, ⟨16, 5, .rw, 0x4⟩, ⟨24, 1, .rw, 0⟩,
      ⟨25, 1, .rw, 0⟩, ⟨26, 1, .rw, 0⟩]⟩
/-- IRQ_COAL (R47). -/
def rowIrqCoal : RegRow := ⟨0x00100014, [(256, 0x1000)], false, [⟨0, 16, .rw, 0⟩, ⟨16, 16, .rw, 0⟩]⟩
/-- SQ_TAIL (R43). -/
def rowSqTail : RegRow := ⟨0x00100018, [(256, 0x1000)], false, [⟨0, 16, .rw, 0⟩]⟩
/-- SQ_HEAD (R41). -/
def rowSqHead : RegRow := ⟨0x0010001c, [(256, 0x1000)], false, [⟨0, 16, .ro, 0⟩, ⟨16, 16, .ro, 0⟩]⟩
/-- RQ_TAIL (R45). -/
def rowRqTail : RegRow := ⟨0x00100020, [(256, 0x1000)], false, [⟨0, 16, .ro, 0⟩, ⟨16, 1, .ro, 0x1⟩]⟩
/-- RQ_HEAD (R42). -/
def rowRqHead : RegRow := ⟨0x00100024, [(256, 0x1000)], false, [⟨0, 16, .rw, 0⟩]⟩
/-- RING_STATUS (R499). -/
def rowRingStatus : RegRow := ⟨0x00100028, [(256, 0x1000)], false, [
      ⟨0, 1, .ro, 0⟩, ⟨1, 1, .w1c, 0⟩, ⟨2, 1, .w1c, 0⟩, ⟨3, 1, .w1c, 0⟩, ⟨4, 1, .w1c, 0⟩, ⟨5, 1, .w1c, 0⟩]⟩
/-- RAND_KEY (R91). -/
def rowRandKey : RegRow := ⟨0x00000040, [], false, [⟨0, 32, .rw, 0⟩]⟩
/-- CH_REMAP (R139). -/
def rowChRemap : RegRow := ⟨0x00300800, [(48, 0x4000), (16, 0x8)], true, [
      ⟨0, 15, .rw, 0⟩, ⟨16, 16, .rw, 0⟩, ⟨32, 4, .rw, 0⟩, ⟨36, 3, .rw, 0⟩, ⟨39, 1, .rw, 0⟩, ⟨40, 1, .rw, 0⟩]⟩
/-- CH_FLIP (R139). -/
def rowChFlip : RegRow := ⟨0x00300880, [(48, 0x4000)], true, [⟨0, 64, .rw, 0⟩]⟩
/-- CH_FLIP_CTL (R139). -/
def rowChFlipCtl : RegRow := ⟨0x00300888, [(48, 0x4000)], false, [
      ⟨0, 15, .rw, 0⟩, ⟨16, 1, .w1s, 0⟩, ⟨17, 1, .w1c, 0⟩]⟩
/-- LADDER_STEP_W0 (R122). -/
def rowLadderStepW0 : RegRow := ⟨0x00401000, [(16, 0x200), (24, 0x10)], true, [
      ⟨0, 8, .rw, 0⟩, ⟨8, 8, .rw, 0⟩, ⟨16, 8, .rw, 0⟩, ⟨24, 8, .rw, 0⟩, ⟨32, 2, .rw, 0⟩, ⟨40, 8, .rw, 0⟩,
      ⟨48, 8, .rw, 0⟩, ⟨56, 8, .rw, 0⟩]⟩
/-- LADDER_STEP_W1 (R122). -/
def rowLadderStepW1 : RegRow := ⟨0x00401008, [(16, 0x200), (24, 0x10)], true, [⟨0, 1, .rw, 0⟩]⟩
/-- LADDER_LOADED (R117). -/
def rowLadderLoaded : RegRow := ⟨0x00400010, [], false, [⟨0, 16, .rw, 0⟩]⟩
/-- TRACK (R137). -/
def rowTrack : RegRow := ⟨0x00404000, [(16, 0x800), (256, 0x8)], true, [
      ⟨0, 8, .rw, 0⟩, ⟨8, 8, .rw, 0⟩, ⟨16, 8, .rw, 0⟩, ⟨24, 8, .rw, 0⟩, ⟨32, 1, .rw, 0⟩]⟩
/-- MARGIN (R137). -/
def rowMargin : RegRow := ⟨0x0040c000, [(16, 0x800), (256, 0x8)], true, [
      ⟨0, 8, .rw, 0⟩, ⟨8, 8, .rw, 0⟩, ⟨16, 8, .rw, 0⟩, ⟨24, 8, .rw, 0⟩, ⟨32, 1, .rw, 0⟩]⟩
/-- CLASS_CFG0 (R137). -/
def rowClassCfg0 : RegRow := ⟨0x00400100, [(16, 0x20)], true, [
      ⟨0, 3, .rw, 0⟩, ⟨4, 3, .rw, 0⟩, ⟨8, 4, .rw, 0⟩, ⟨16, 8, .rw, 0x20⟩, ⟨24, 5, .rw, 0x4⟩, ⟨32, 8, .rw, 0x89⟩,
      ⟨40, 1, .rw, 0⟩, ⟨41, 1, .rw, 0⟩, ⟨42, 1, .rw, 0⟩, ⟨48, 6, .rw, 0⟩, ⟨56, 8, .rw, 0x40⟩]⟩
/-- CLASS_CFG1 (R137). -/
def rowClassCfg1 : RegRow := ⟨0x00400108, [(16, 0x20)], true, [
      ⟨0, 8, .rw, 0x14⟩, ⟨8, 8, .rw, 0x1e⟩, ⟨16, 8, .rw, 0x28⟩, ⟨24, 8, .rw, 0x8⟩]⟩
/-- DEC_CTL (R137). -/
def rowDecCtl : RegRow := ⟨0x00400000, [], false, [⟨0, 1, .rw, 0⟩, ⟨1, 1, .rw, 0⟩, ⟨4, 1, .rw, 0⟩, ⟨8, 4, .rw, 0x4⟩]⟩
/-- DEC_STATUS (R137). -/
def rowDecStatus : RegRow := ⟨0x00400008, [], false, [⟨0, 6, .ro, 0⟩, ⟨8, 6, .ro, 0⟩, ⟨16, 15, .ro, 0⟩]⟩
/-- DE_CTL (R135). -/
def rowDeCtl : RegRow := ⟨0x00400800, [(40, 0x8)], false, [
      ⟨0, 1, .rw, 0⟩, ⟨1, 1, .rw, 0⟩, ⟨4, 3, .ro, 0x2⟩, ⟨7, 1, .ro, 0⟩, ⟨8, 1, .ro, 0⟩, ⟨9, 1, .w1c, 0⟩,
      ⟨16, 6, .ro, 0⟩]⟩
/-- CH_TIMING0 (R146). -/
def rowChTiming0 : RegRow := ⟨0x00300060, [(48, 0x4000)], true, [
      ⟨0, 10, .rw, 0x64⟩, ⟨16, 10, .rw, 0x1f4⟩, ⟨32, 10, .rw, 0x190⟩, ⟨48, 10, .rw, 0xc8⟩]⟩
/-- CH_TIMING1 (R146). -/
def rowChTiming1 : RegRow := ⟨0x00300068, [(48, 0x4000)], true, [
      ⟨0, 10, .rw, 0xc8⟩, ⟨16, 10, .rw, 0x64⟩, ⟨32, 10, .rw, 0x64⟩, ⟨48, 10, .rw, 0xc8⟩]⟩
/-- CH_POLL (R150). -/
def rowChPoll : RegRow := ⟨0x00300070, [(48, 0x4000)], true, [
      ⟨0, 12, .rw, 0x3e8⟩, ⟨12, 4, .rw, 0x8⟩, ⟨16, 12, .rw, 0⟩, ⟨32, 12, .rw, 0⟩, ⟨48, 12, .rw, 0⟩]⟩
/-- CH_TIMEOUT (R152). -/
def rowChTimeout : RegRow := ⟨0x00300078, [(48, 0x4000)], true, [
      ⟨0, 16, .rw, 0x3e8⟩, ⟨16, 16, .rw, 0x2710⟩, ⟨32, 16, .rw, 0x7530⟩, ⟨48, 16, .rw, 0x1388⟩]⟩
/-- CH_RB_MAP (R150). -/
def rowChRbMap : RegRow := ⟨0x00300080, [(48, 0x4000)], true, [⟨0, 48, .rw, 0⟩]⟩
/-- CH_BUS_CTL (R169). -/
def rowChBusCtl : RegRow := ⟨0x00300048, [(48, 0x4000)], false, [
      ⟨0, 16, .rw, 0⟩, ⟨16, 1, .rw, 0⟩, ⟨18, 2, .rw, 0⟩, ⟨20, 3, .rw, 0x3⟩]⟩
/-- CH_CLASS (R156). -/
def rowChClass : RegRow := ⟨0x00300100, [(48, 0x4000), (16, 0x4)], false, [⟨0, 32, .rw, 0⟩]⟩
/-- CH_BRING_FEAT (R158). -/
def rowChBringFeat : RegRow := ⟨0x00300090, [(48, 0x4000), (4, 0x8)], true, [
      ⟨0, 8, .rw, 0⟩, ⟨8, 8, .rw, 0⟩, ⟨16, 8, .rw, 0⟩, ⟨24, 8, .rw, 0⟩, ⟨32, 8, .rw, 0⟩, ⟨40, 1, .rw, 0⟩,
      ⟨41, 1, .rw, 0⟩, ⟨42, 1, .rw, 0⟩]⟩
/-- CH_ID (R158). -/
def rowChId : RegRow := ⟨0x00300200, [(48, 0x4000), (16, 0x8)], true, [⟨0, 64, .ro, 0⟩]⟩
/-- CH_PPAGE (R158). -/
def rowChPpage : RegRow := ⟨0x00301000, [(48, 0x4000), (16, 0x100), (32, 0x8)], true, [⟨0, 64, .ro, 0⟩]⟩
/-- CG_PHY (R143). -/
def rowCgPhy : RegRow := ⟨0x00300040, [(48, 0x4000)], true, [
      ⟨0, 3, .rw, 0⟩, ⟨3, 1, .rw, 0⟩, ⟨8, 6, .rw, 0⟩, ⟨16, 6, .rw, 0⟩, ⟨24, 8, .rw, 0⟩, ⟨32, 8, .rw, 0x1⟩,
      ⟨40, 8, .rw, 0⟩, ⟨48, 1, .w1s, 0⟩, ⟨49, 1, .rw, 0⟩, ⟨50, 1, .ro, 0⟩, ⟨51, 1, .ro, 0⟩, ⟨52, 1, .w1c, 0⟩,
      ⟨53, 1, .rw, 0x1⟩, ⟨56, 3, .ro, 0⟩]⟩
/-- CH_BUS_STATUS (R148). -/
def rowChBusStatus : RegRow := ⟨0x00300050, [(48, 0x4000)], true, [
      ⟨0, 3, .ro, 0⟩, ⟨4, 4, .ro, 0⟩, ⟨8, 4, .ro, 0⟩, ⟨16, 16, .ro, 0⟩, ⟨32, 1, .w1c, 0⟩, ⟨33, 1, .w1c, 0⟩,
      ⟨34, 1, .w1c, 0⟩]⟩
/-- CH_LUN_STATE (R176). -/
def rowChLunState : RegRow := ⟨0x00300400, [(48, 0x4000), (128, 0x8)], true, [
      ⟨0, 4, .ro, 0⟩, ⟨4, 2, .ro, 0⟩, ⟨6, 1, .ro, 0⟩, ⟨7, 1, .ro, 0⟩, ⟨8, 8, .ro, 0⟩, ⟨16, 13, .ro, 0⟩,
      ⟨31, 1, .rw, 0⟩, ⟨32, 16, .ro, 0⟩, ⟨48, 8, .ro, 0⟩]⟩
/-- CH_SCHED (R189). -/
def rowChSched : RegRow := ⟨0x00300010, [(48, 0x4000)], false, [
      ⟨0, 1, .rw, 0⟩, ⟨1, 1, .rw, 0⟩, ⟨2, 1, .rw, 0⟩, ⟨3, 1, .rw, 0⟩, ⟨8, 8, .rw, 0⟩, ⟨16, 8, .rw, 0⟩,
      ⟨24, 6, .rw, 0⟩]⟩
/-- CH_CTL (R201). -/
def rowChCtl : RegRow := ⟨0x00300000, [(48, 0x4000)], false, [
      ⟨0, 1, .rw, 0⟩, ⟨4, 3, .ro, 0x2⟩, ⟨7, 1, .ro, 0⟩, ⟨8, 1, .ro, 0⟩, ⟨16, 13, .ro, 0⟩]⟩
/-- CG_FENCE (R204). -/
def rowCgFence : RegRow := ⟨0x00300008, [(48, 0x4000)], false, [⟨0, 1, .rw, 0⟩]⟩
/-- LG_CLASS_SET (R208). -/
def rowLgClassSet : RegRow := ⟨0x00040020, [], false, [⟨0, 32, .rw, 0⟩]⟩
/-- LG_COST (R216). -/
def rowLgCost : RegRow := ⟨0x00040100, [(32, 0x4)], false, [⟨0, 16, .rw, 0⟩]⟩
/-- LG_BUDGET (R214). -/
def rowLgBudget : RegRow := ⟨0x00040000, [], true, [
      ⟨0, 16, .rw, 0⟩, ⟨16, 16, .rw, 0⟩, ⟨32, 16, .rw, 0⟩, ⟨48, 16, .rw, 0⟩]⟩
/-- LG_CTL (R497). -/
def rowLgCtl : RegRow := ⟨0x00040008, [], false, [⟨0, 1, .rw, 0x1⟩, ⟨1, 1, .rw, 0⟩, ⟨2, 1, .rw, 0⟩, ⟨8, 8, .rw, 0⟩]⟩
/-- LG_STATUS (R497). -/
def rowLgStatus : RegRow := ⟨0x00040010, [], false, [
      ⟨0, 1, .ro, 0⟩, ⟨1, 1, .ro, 0⟩, ⟨2, 1, .ro, 0⟩, ⟨3, 1, .ro, 0⟩, ⟨8, 1, .w1c, 0⟩, ⟨9, 1, .w1c, 0⟩,
      ⟨10, 1, .w1c, 0⟩, ⟨11, 1, .w1c, 0⟩]⟩
/-- LG_CHARGED (R497). -/
def rowLgCharged : RegRow := ⟨0x00040018, [], true, [
      ⟨0, 16, .ro, 0⟩, ⟨16, 16, .ro, 0⟩, ⟨32, 16, .ro, 0⟩, ⟨48, 16, .ro, 0⟩]⟩
/-- LG_QUIET_W0 (R497). -/
def rowLgQuietW0 : RegRow := ⟨0x00040200, [(8, 0x10)], true, [⟨0, 64, .ro, 0⟩]⟩
/-- LG_QUIET_W1 (R497). -/
def rowLgQuietW1 : RegRow := ⟨0x00040208, [(8, 0x10)], true, [⟨0, 32, .ro, 0⟩, ⟨32, 1, .ro, 0⟩]⟩
/-- LG_RING_CTL (R497). -/
def rowLgRingCtl : RegRow := ⟨0x00040030, [], true, [
      ⟨0, 16, .rw, 0⟩, ⟨16, 16, .rw, 0⟩, ⟨32, 1, .rw, 0⟩, ⟨33, 1, .w1s, 0⟩]⟩
/-- LG_RING_STATUS (R497). -/
def rowLgRingStatus : RegRow := ⟨0x00040038, [], true, [
      ⟨0, 16, .ro, 0⟩, ⟨16, 16, .ro, 0⟩, ⟨32, 16, .ro, 0⟩, ⟨48, 1, .ro, 0⟩]⟩
/-- TB_NOW (R501). -/
def rowTbNow : RegRow := ⟨0x00050000, [], true, [⟨0, 64, .ro, 0⟩]⟩
/-- TB_FRAC (R501). -/
def rowTbFrac : RegRow := ⟨0x00050008, [], false, [⟨0, 16, .ro, 0⟩]⟩
/-- TB_SET (R231). -/
def rowTbSet : RegRow := ⟨0x00050010, [], true, [⟨0, 64, .wo, 0⟩]⟩
/-- TB_INC (R229). -/
def rowTbInc : RegRow := ⟨0x00050018, [], false, [⟨0, 32, .rw, 0x280000⟩]⟩
/-- TB_CTL (R501). -/
def rowTbCtl : RegRow := ⟨0x00050020, [], false, [⟨0, 16, .rw, 0x2⟩, ⟨16, 16, .rw, 0x3e8⟩]⟩
/-- TB_STATUS (R501). -/
def rowTbStatus : RegRow := ⟨0x00050028, [], true, [
      ⟨0, 1, .ro, 0⟩, ⟨1, 1, .ro, 0⟩, ⟨2, 1, .ro, 0⟩, ⟨3, 1, .w1c, 0⟩, ⟨4, 1, .ro, 0⟩, ⟨32, 32, .ro, 0⟩]⟩
/-- XR_CTL (R246). -/
def rowXrCtl : RegRow := ⟨0x00060000, [], false, [⟨0, 1, .rw, 0⟩, ⟨1, 1, .w1s, 0⟩, ⟨8, 8, .rw, 0x64⟩]⟩
/-- XR_STATUS (R270). -/
def rowXrStatus : RegRow := ⟨0x00060008, [], true, [
      ⟨0, 3, .ro, 0⟩, ⟨3, 1, .ro, 0⟩, ⟨4, 1, .ro, 0⟩, ⟨5, 1, .ro, 0⟩, ⟨6, 1, .ro, 0⟩, ⟨8, 4, .ro, 0⟩,
      ⟨12, 4, .ro, 0⟩, ⟨16, 16, .ro, 0⟩, ⟨32, 1, .w1c, 0⟩, ⟨33, 1, .w1c, 0⟩, ⟨34, 1, .w1c, 0⟩, ⟨35, 1, .w1c, 0⟩,
      ⟨36, 1, .w1c, 0⟩, ⟨37, 1, .w1c, 0⟩, ⟨38, 1, .w1c, 0⟩]⟩
/-- XR_ADDR (R249). -/
def rowXrAddr : RegRow := ⟨0x00060010, [], false, [⟨0, 4, .ro, 0⟩, ⟨4, 1, .ro, 0⟩]⟩
/-- XR_ASYM (R257). -/
def rowXrAsym : RegRow := ⟨0x00060018, [], false, [⟨0, 16, .rw, 0⟩, ⟨16, 16, .rw, 0⟩]⟩
/-- XR_HOP (R270). -/
def rowXrHop : RegRow := ⟨0x00060020, [], true, [⟨0, 32, .ro, 0⟩, ⟨32, 32, .ro, 0⟩]⟩
/-- XR_FWD (R270). -/
def rowXrFwd : RegRow := ⟨0x00060028, [], true, [⟨0, 15, .ro, 0⟩, ⟨16, 11, .ro, 0⟩, ⟨32, 16, .ro, 0⟩]⟩
/-- DC_CTL (R307). -/
def rowDcCtl : RegRow := ⟨0x00200000, [(32, 0x1000)], false, [
      ⟨0, 1, .rw, 0⟩, ⟨1, 2, .rw, 0⟩, ⟨4, 2, .rw, 0⟩, ⟨8, 3, .ro, 0x2⟩, ⟨11, 1, .ro, 0⟩, ⟨12, 3, .rw, 0⟩,
      ⟨16, 1, .rw, 0⟩, ⟨17, 1, .rw, 0⟩, ⟨18, 1, .rw, 0⟩, ⟨19, 1, .rw, 0⟩, ⟨24, 4, .rw, 0x8⟩]⟩
/-- DC_RING_BASE (R295). -/
def rowDcRingBase : RegRow := ⟨0x00200008, [(32, 0x1000)], true, [⟨12, 52, .rw, 0⟩]⟩
/-- DC_RING_CFG (R295). -/
def rowDcRingCfg : RegRow := ⟨0x00200010, [(32, 0x1000)], false, [⟨0, 5, .rw, 0x4⟩, ⟨8, 2, .rw, 0⟩, ⟨16, 8, .rw, 0⟩]⟩
/-- DC_KICK (R280). -/
def rowDcKick : RegRow := ⟨0x00200018, [(32, 0x1000)], false, [⟨0, 1, .wo, 0⟩]⟩
/-- DC_HEAD (R280). -/
def rowDcHead : RegRow := ⟨0x00200020, [(32, 0x1000)], false, [⟨0, 16, .ro, 0⟩, ⟨16, 16, .ro, 0⟩]⟩
/-- DC_STATUS (R285). -/
def rowDcStatus : RegRow := ⟨0x00200028, [(32, 0x1000)], false, [
      ⟨0, 1, .w1c, 0⟩, ⟨1, 1, .w1c, 0⟩, ⟨2, 1, .w1c, 0⟩, ⟨3, 1, .w1c, 0⟩, ⟨4, 1, .w1c, 0⟩, ⟨5, 1, .w1c, 0⟩,
      ⟨6, 1, .w1c, 0⟩, ⟨7, 1, .ro, 0⟩, ⟨8, 1, .ro, 0⟩, ⟨16, 11, .ro, 0⟩]⟩
/-- DC_LATE (R277). -/
def rowDcLate : RegRow := ⟨0x00200030, [(32, 0x1000)], true, [⟨0, 16, .ro, 0⟩, ⟨16, 8, .ro, 0⟩, ⟨24, 1, .ro, 0⟩]⟩
/-- DC_OUTSTANDING (R277). -/
def rowDcOutstanding : RegRow := ⟨0x00200038, [(32, 0x1000)], false, [⟨0, 12, .ro, 0⟩]⟩
/-- CH_FIFO_CTL (R307). -/
def rowChFifoCtl : RegRow := ⟨0x00300900, [(48, 0x4000)], false, [
      ⟨0, 6, .rw, 0x4⟩, ⟨8, 4, .w1s, 0⟩, ⟨12, 4, .rw, 0⟩, ⟨16, 1, .w1c, 0⟩]⟩
/-- CH_FIFO_STAT (R307). -/
def rowChFifoStat : RegRow := ⟨0x00300908, [(48, 0x4000), (4, 0x8)], true, [
      ⟨0, 10, .ro, 0⟩, ⟨16, 10, .ro, 0⟩, ⟨32, 10, .ro, 0⟩, ⟨48, 1, .ro, 0x1⟩, ⟨49, 1, .ro, 0⟩, ⟨50, 1, .w1c, 0⟩,
      ⟨51, 1, .w1c, 0⟩, ⟨52, 1, .w1c, 0⟩]⟩
/-- CH_FIFO_DBG (R305). -/
def rowChFifoDbg : RegRow := ⟨0x00300940, [(48, 0x4000), (4, 0x8)], true, [⟨0, 64, .ro, 0⟩]⟩
/-- SM_BANK_CTL (R498). -/
def rowSmBankCtl : RegRow := ⟨0x00070000, [(16, 0x8)], false, [
      ⟨0, 1, .rw, 0⟩, ⟨1, 1, .rw, 0⟩, ⟨2, 1, .ro, 0x1⟩, ⟨4, 7, .rw, 0x66⟩, ⟨11, 1, .w1c, 0⟩, ⟨12, 1, .ro, 0⟩,
      ⟨16, 7, .ro, 0⟩]⟩
/-- SM_REMAP (R498). -/
def rowSmRemap : RegRow := ⟨0x00070100, [(16, 0x40), (8, 0x8)], false, [
      ⟨0, 9, .rw, 0⟩, ⟨10, 3, .rw, 0⟩, ⟨16, 1, .rw, 0⟩]⟩
/-- SM_ECC_STATUS (R498). -/
def rowSmEccStatus : RegRow := ⟨0x00070800, [], true, [
      ⟨0, 16, .rc, 0⟩, ⟨16, 16, .rc, 0⟩, ⟨32, 1, .w1c, 0⟩, ⟨33, 1, .w1c, 0⟩]⟩
/-- SM_ECC_LOG (R315). -/
def rowSmEccLog : RegRow := ⟨0x00070808, [], false, [
      ⟨0, 4, .ro, 0⟩, ⟨4, 15, .ro, 0⟩, ⟨19, 3, .ro, 0⟩, ⟨22, 7, .ro, 0⟩, ⟨29, 1, .ro, 0⟩, ⟨30, 1, .ro, 0⟩,
      ⟨31, 1, .w1c, 0⟩]⟩
/-- SM_SCRUB (R498). -/
def rowSmScrub : RegRow := ⟨0x00070810, [], false, [⟨0, 8, .rw, 0⟩, ⟨8, 1, .ro, 0⟩, ⟨16, 16, .ro, 0⟩]⟩
/-- SM_FLIP (R498). -/
def rowSmFlip : RegRow := ⟨0x00070820, [], true, [⟨0, 64, .rw, 0⟩]⟩
/-- SM_FLIP_CTL (R498). -/
def rowSmFlipCtl : RegRow := ⟨0x00070828, [], false, [
      ⟨0, 8, .rw, 0⟩, ⟨8, 4, .rw, 0⟩, ⟨12, 1, .w1s, 0⟩, ⟨13, 1, .w1c, 0⟩]⟩
/-- PS_CFG (R498). -/
def rowPsCfg : RegRow := ⟨0x00071000, [], true, [⟨0, 48, .rw, 0⟩, ⟨48, 4, .rw, 0x1⟩]⟩
/-- PS_STATUS (R498). -/
def rowPsStatus : RegRow := ⟨0x00071008, [], true, [
      ⟨0, 2, .ro, 0⟩, ⟨2, 1, .w1c, 0⟩, ⟨8, 7, .ro, 0⟩, ⟨16, 8, .ro, 0⟩, ⟨32, 32, .ro, 0⟩]⟩
/-- PS_CURSOR (R498). -/
def rowPsCursor : RegRow := ⟨0x00071010, [], true, [⟨0, 32, .ro, 0⟩, ⟨32, 16, .ro, 0⟩]⟩
/-- PS_CLASS (R498). -/
def rowPsClass : RegRow := ⟨0x00071100, [(16, 0x8)], true, [⟨0, 5, .rw, 0⟩, ⟨8, 6, .rw, 0⟩, ⟨16, 1, .rw, 0⟩]⟩
/-- PS_POOL (R498). -/
def rowPsPool : RegRow := ⟨0x00071200, [(48, 0x8)], false, [⟨0, 7, .ro, 0⟩, ⟨7, 1, .w1c, 0⟩]⟩
/-- BOOT_CTL (R334). -/
def rowBootCtl : RegRow := ⟨0x00080000, [], false, [⟨0, 1, .rw, 0⟩, ⟨1, 1, .rw, 0⟩, ⟨2, 1, .w1s, 0⟩, ⟨3, 1, .w1c, 0⟩]⟩
/-- BOOT_STATUS (R333). -/
def rowBootStatus : RegRow := ⟨0x00080008, [], true, [
      ⟨0, 3, .ro, 0⟩, ⟨3, 1, .ro, 0⟩, ⟨4, 1, .ro, 0⟩, ⟨5, 1, .w1c, 0⟩, ⟨6, 1, .w1c, 0⟩, ⟨8, 4, .ro, 0⟩,
      ⟨16, 4, .ro, 0xf⟩, ⟨20, 4, .ro, 0xf⟩, ⟨32, 32, .ro, 0⟩]⟩
/-- BOOT_XO (R334). -/
def rowBootXo : RegRow := ⟨0x00080100, [(8, 0x8)], false, [⟨0, 9, .rw, 0⟩, ⟨16, 9, .rw, 0⟩, ⟨31, 1, .rw, 0⟩]⟩
/-- MC_ENG (R341). -/
def rowMcEng : RegRow := ⟨0x00508200, [(15, 0x10000), (4, 0x10)], true, [
      ⟨0, 2, .ro, 0⟩, ⟨4, 4, .ro, 0⟩, ⟨8, 1, .w1s, 0⟩, ⟨9, 1, .ro, 0⟩, ⟨10, 1, .w1c, 0⟩, ⟨16, 14, .ro, 0⟩,
      ⟨32, 8, .ro, 0⟩]⟩
/-- MC_FRAME (R349). -/
def rowMcFrame : RegRow := ⟨0x00508400, [(15, 0x10000), (4, 0x40), (16, 0x4)], false, [⟨0, 32, .ro, 0⟩]⟩
/-- MC_ROUTINE (R357). -/
def rowMcRoutine : RegRow := ⟨0x00508800, [(15, 0x10000), (64, 0x8)], false, [⟨0, 10, .rw, 0⟩, ⟨16, 1, .rw, 0⟩]⟩
/-- MC_CTL (R360). -/
def rowMcCtl : RegRow := ⟨0x00508100, [(15, 0x10000)], true, [
      ⟨0, 1, .rw, 0⟩, ⟨1, 1, .rw, 0⟩, ⟨2, 1, .w1c, 0⟩, ⟨3, 1, .ro, 0x1⟩, ⟨32, 32, .rw, 0⟩]⟩
/-- MC_ROM_ID (R358). -/
def rowMcRomId : RegRow := ⟨0x00508108, [(15, 0x10000)], false, [
      ⟨24, 8, .ro, 0⟩, ⟨16, 8, .ro, 0x3⟩, ⟨8, 8, .ro, 0x1⟩, ⟨0, 8, .ro, 0⟩]⟩
/-- MC_MATCH (R357). -/
def rowMcMatch : RegRow := ⟨0x00508000, [(15, 0x10000), (32, 0x8)], false, [
      ⟨0, 13, .rw, 0⟩, ⟨16, 10, .rw, 0⟩, ⟨31, 1, .rw, 0⟩]⟩
/-- MC_PATCH_W0 (R357). -/
def rowMcPatchW0 : RegRow := ⟨0x00500000, [(15, 0x10000), (1024, 0x20)], true, [⟨0, 64, .rw, 0⟩]⟩
/-- MC_PATCH_W1 (R357). -/
def rowMcPatchW1 : RegRow := ⟨0x00500008, [(15, 0x10000), (1024, 0x20)], true, [⟨0, 64, .rw, 0⟩]⟩
/-- MC_PATCH_W2 (R357). -/
def rowMcPatchW2 : RegRow := ⟨0x00500010, [(15, 0x10000), (1024, 0x20)], true, [⟨0, 8, .rw, 0⟩, ⟨8, 8, .rw, 0⟩]⟩
/-- HP_ATTR (R385). -/
def rowHpAttr : RegRow := ⟨0x00000080, [], false, [⟨0, 8, .rw, 0⟩, ⟨8, 8, .rw, 0⟩, ⟨16, 8, .rw, 0⟩, ⟨24, 8, .rw, 0⟩]⟩
/-- HP_CREDIT (R385). -/
def rowHpCredit : RegRow := ⟨0x00000088, [], true, [
      ⟨0, 8, .ro, 0⟩, ⟨8, 8, .ro, 0⟩, ⟨16, 10, .ro, 0⟩, ⟨32, 12, .ro, 0⟩]⟩
/-- HP_INI_ERR (R368). -/
def rowHpIniErr : RegRow := ⟨0x00000090, [], false, [
      ⟨0, 10, .ro, 0⟩, ⟨10, 2, .ro, 0⟩, ⟨12, 1, .ro, 0⟩, ⟨15, 1, .w1c, 0⟩, ⟨16, 16, .rc, 0⟩]⟩
/-- HP_TGT_ERR (R385). -/
def rowHpTgtErr : RegRow := ⟨0x00000098, [], true, [
      ⟨0, 24, .ro, 0⟩, ⟨24, 2, .ro, 0⟩, ⟨26, 1, .ro, 0⟩, ⟨27, 1, .ro, 0⟩, ⟨28, 2, .ro, 0⟩, ⟨30, 1, .ro, 0⟩,
      ⟨31, 1, .w1c, 0⟩, ⟨32, 8, .ro, 0⟩, ⟨40, 16, .rc, 0⟩]⟩
/-- PORT_STATUS (R402). -/
def rowPortStatus : RegRow := ⟨0x00000020, [], false, [
      ⟨0, 1, .ro, 0⟩, ⟨1, 1, .ro, 0⟩, ⟨2, 1, .ro, 0⟩, ⟨3, 1, .w1c, 0⟩, ⟨4, 1, .w1c, 0⟩, ⟨5, 1, .w1c, 0⟩,
      ⟨8, 1, .ro, 0⟩, ⟨9, 4, .ro, 0⟩, ⟨13, 4, .ro, 0⟩]⟩
/-- CK_CORE_CTL (R441). -/
def rowCkCoreCtl : RegRow := ⟨0x00010100, [], false, [
      ⟨0, 2, .rw, 0x1⟩, ⟨8, 5, .rw, 0x10⟩, ⟨13, 1, .rw, 0x1⟩, ⟨15, 1, .rw, 0⟩, ⟨16, 1, .ro, 0⟩, ⟨17, 1, .ro, 0⟩,
      ⟨18, 1, .w1c, 0⟩, ⟨19, 1, .w1c, 0⟩, ⟨20, 1, .ro, 0⟩, ⟨21, 1, .w1c, 0⟩, ⟨22, 1, .ro, 0⟩]⟩
/-- CK_STATUS (R441). -/
def rowCkStatus : RegRow := ⟨0x00010108, [], true, [⟨0, 12, .w1c, 0⟩, ⟨16, 12, .ro, 0⟩, ⟨32, 16, .ro, 0⟩]⟩
/-- MODE_CTL (R429). -/
def rowModeCtl : RegRow := ⟨0x00010000, [], false, [
      ⟨0, 3, .rw, 0x2⟩, ⟨3, 1, .rw, 0⟩, ⟨8, 1, .ro, 0⟩, ⟨9, 1, .w1c, 0⟩, ⟨10, 1, .ro, 0⟩, ⟨11, 1, .ro, 0⟩,
      ⟨12, 4, .ro, 0⟩, ⟨16, 3, .ro, 0⟩]⟩
/-- PWR_REQ (R433). -/
def rowPwrReq : RegRow := ⟨0x00010008, [], false, [
      ⟨0, 2, .ro, 0x3⟩, ⟨2, 2, .rw, 0x3⟩, ⟨4, 2, .rw, 0⟩, ⟨6, 2, .ro, 0x3⟩, ⟨8, 12, .rw, 0⟩]⟩
/-- PWR_STATUS (R437). -/
def rowPwrStatus : RegRow := ⟨0x00010010, [], true, [
      ⟨0, 20, .ro, 0⟩, ⟨20, 1, .w1c, 0⟩, ⟨21, 1, .w1c, 0⟩, ⟨23, 1, .ro, 0⟩, ⟨24, 1, .w1c, 0x1⟩, ⟨25, 1, .w1c, 0⟩,
      ⟨32, 17, .ro, 0⟩]⟩
/-- CAL_ALERT (R456). -/
def rowCalAlert : RegRow := ⟨0x000a0000, [], false, [⟨0, 8, .rw, 0x69⟩]⟩
/-- CAL_GRP_CTL (R456). -/
def rowCalGrpCtl : RegRow := ⟨0x000a1000, [(12, 0x400)], false, [
      ⟨0, 1, .rw, 0x1⟩, ⟨8, 6, .rw, 0x6⟩, ⟨16, 8, .rw, 0xa⟩]⟩
/-- CAL_GRP_STATUS (R456). -/
def rowCalGrpStatus : RegRow := ⟨0x000a1008, [(12, 0x400)], true, [
      ⟨0, 12, .ro, 0⟩, ⟨16, 12, .ro, 0⟩, ⟨28, 3, .ro, 0⟩, ⟨32, 16, .ro, 0⟩, ⟨48, 4, .ro, 0⟩, ⟨52, 1, .w1c, 0⟩,
      ⟨53, 1, .w1c, 0⟩, ⟨54, 1, .ro, 0⟩, ⟨55, 1, .w1c, 0⟩, ⟨56, 4, .ro, 0⟩]⟩
/-- CAL_LIMITS (R451). -/
def rowCalLimits : RegRow := ⟨0x000a1010, [(12, 0x400)], false, [
      ⟨0, 8, .rw, 0x10⟩, ⟨8, 4, .rw, 0x4⟩, ⟨12, 4, .rw, 0x4⟩, ⟨16, 8, .rw, 0x6⟩]⟩
/-- CAL_REJ_INFO (R451). -/
def rowCalRejInfo : RegRow := ⟨0x000a1018, [(12, 0x400)], false, [
      ⟨0, 2, .ro, 0⟩, ⟨4, 4, .ro, 0⟩, ⟨8, 8, .ro, 0⟩, ⟨16, 8, .ro, 0⟩]⟩
/-- CAL_DQ_RD (R454). -/
def rowCalDqRd : RegRow := ⟨0x000a1100, [(12, 0x400), (4, 0x40)], true, [⟨0, 64, .rw, 0x4040404040404040⟩]⟩
/-- CAL_DQ_WR (R454). -/
def rowCalDqWr : RegRow := ⟨0x000a1108, [(12, 0x400), (4, 0x40)], true, [⟨0, 64, .rw, 0x4040404040404040⟩]⟩
/-- CAL_DQS (R454). -/
def rowCalDqs : RegRow := ⟨0x000a1110, [(12, 0x400), (4, 0x40)], false, [⟨0, 8, .rw, 0x40⟩, ⟨8, 8, .rw, 0x40⟩]⟩
/-- CAL_DRV (R454). -/
def rowCalDrv : RegRow := ⟨0x000a1118, [(12, 0x400), (4, 0x40)], false, [
      ⟨0, 6, .rw, 0x20⟩, ⟨8, 6, .rw, 0x20⟩, ⟨16, 6, .rw, 0⟩, ⟨24, 7, .rw, 0x28⟩]⟩
/-- IC_SRC (R463). -/
def rowIcSrc : RegRow := ⟨0x00020000, [(512, 0x4)], false, [
      ⟨0, 2, .rw, 0⟩, ⟨8, 8, .rw, 0⟩, ⟨16, 1, .ro, 0⟩, ⟨17, 1, .ro, 0⟩, ⟨18, 1, .ro, 0⟩, ⟨19, 1, .w1s, 0⟩]⟩
/-- IC_PEND (R459). -/
def rowIcPend : RegRow := ⟨0x00020800, [(16, 0x4)], false, [⟨0, 32, .ro, 0⟩]⟩
/-- IC_CLAIM (R460). -/
def rowIcClaim : RegRow := ⟨0x00021000, [(8, 0x20)], false, [⟨0, 10, .rc, 0x3ff⟩]⟩
/-- IC_COMPLETE (R461). -/
def rowIcComplete : RegRow := ⟨0x00021004, [(8, 0x20)], false, [⟨0, 10, .wo, 0⟩]⟩
/-- IC_TGT_STATUS (R459). -/
def rowIcTgtStatus : RegRow := ⟨0x00021008, [(8, 0x20)], false, [
      ⟨0, 10, .ro, 0x3ff⟩, ⟨16, 1, .ro, 0⟩, ⟨17, 1, .w1c, 0⟩]⟩
/-- IC_TGT_CFG (R459). -/
def rowIcTgtCfg : RegRow := ⟨0x0002100c, [(8, 0x20)], false, [⟨0, 2, .rw, 0⟩]⟩
/-- TALLY_CFG (R468). -/
def rowTallyCfg : RegRow := ⟨0x00030000, [(64, 0x10)], false, [
      ⟨0, 10, .rw, 0⟩, ⟨10, 1, .rw, 0⟩, ⟨11, 1, .rw, 0⟩, ⟨12, 1, .rw, 0⟩, ⟨13, 1, .rw, 0⟩, ⟨14, 1, .w1c, 0⟩,
      ⟨16, 8, .rw, 0⟩, ⟨24, 1, .rw, 0⟩]⟩
/-- TALLY_VAL (R468). -/
def rowTallyVal : RegRow := ⟨0x00030008, [(64, 0x10)], true, [⟨0, 48, .rw, 0⟩]⟩
/-- TALLY_SNAP_CTL (R468). -/
def rowTallySnapCtl : RegRow := ⟨0x00030400, [], false, [⟨0, 1, .w1s, 0⟩, ⟨1, 1, .w1c, 0⟩]⟩
/-- TALLY_SNAP_TICK (R468). -/
def rowTallySnapTick : RegRow := ⟨0x00030408, [], true, [⟨0, 64, .ro, 0⟩]⟩
/-- TALLY_SNAP (R467). -/
def rowTallySnap : RegRow := ⟨0x00030800, [(64, 0x8)], true, [⟨0, 48, .ro, 0⟩]⟩
/-- LC_STATUS (R470). -/
def rowLcStatus : RegRow := ⟨0x00090000, [], false, [
      ⟨0, 4, .ro, 0⟩, ⟨4, 2, .ro, 0⟩, ⟨8, 1, .ro, 0⟩, ⟨9, 1, .ro, 0⟩, ⟨10, 1, .ro, 0⟩, ⟨11, 1, .ro, 0⟩]⟩
/-- BIST_CTL (R470). -/
def rowBistCtl : RegRow := ⟨0x00090010, [], true, [
      ⟨0, 20, .rw, 0⟩, ⟨20, 1, .rw, 0⟩, ⟨21, 1, .rw, 0⟩, ⟨32, 16, .rw, 0x7d0⟩]⟩
/-- BIST_STATUS (R478). -/
def rowBistStatus : RegRow := ⟨0x00090018, [], false, [
      ⟨0, 2, .ro, 0⟩, ⟨2, 5, .ro, 0⟩, ⟨8, 1, .ro, 0⟩, ⟨9, 1, .ro, 0⟩, ⟨10, 1, .w1c, 0⟩, ⟨11, 1, .w1c, 0⟩,
      ⟨16, 16, .ro, 0⟩]⟩
/-- BIST_SLICE (R478). -/
def rowBistSlice : RegRow := ⟨0x00090100, [(20, 0x8)], true, [
      ⟨0, 2, .ro, 0⟩, ⟨2, 1, .ro, 0⟩, ⟨4, 6, .ro, 0⟩, ⟨16, 16, .ro, 0⟩, ⟨32, 16, .ro, 0⟩]⟩
/-- BIST_MEM_BANK (R478). -/
def rowBistMemBank : RegRow := ⟨0x00090200, [(16, 0x8)], false, [
      ⟨0, 4, .ro, 0⟩, ⟨4, 1, .ro, 0⟩, ⟨5, 1, .ro, 0⟩, ⟨8, 8, .ro, 0⟩]⟩
/-- BIST_MEM_OTHER (R478). -/
def rowBistMemOther : RegRow := ⟨0x00090280, [], true, [
      ⟨0, 15, .ro, 0⟩, ⟨15, 2, .ro, 0⟩, ⟨17, 1, .ro, 0⟩, ⟨18, 2, .ro, 0⟩, ⟨20, 1, .ro, 0⟩, ⟨21, 1, .ro, 0⟩]⟩
/-- BIST_MEM_ROW (R478). -/
def rowBistMemRow : RegRow := ⟨0x00090400, [(16, 0x40), (8, 0x8)], true, [
      ⟨0, 9, .ro, 0⟩, ⟨10, 3, .ro, 0⟩, ⟨16, 1, .ro, 0⟩, ⟨32, 10, .ro, 0⟩]⟩
/-- SVC_FE_CTL (R483). -/
def rowSvcFeCtl : RegRow := ⟨0x00090008, [], false, [⟨0, 1, .rw, 0⟩, ⟨1, 1, .rw, 0⟩, ⟨2, 1, .w1c, 0⟩]⟩

/-- The register tables of spec/, row by row. -/
def RegName.row : RegName → RegRow
  | .epmId => rowEpmId
  | .ownerCtl => rowOwnerCtl
  | .serviceMap => rowServiceMap
  | .serviceBanks => rowServiceBanks
  | .epmGeom => rowEpmGeom
  | .sqBase => rowSqBase
  | .rqBase => rowRqBase
  | .ringCfg => rowRingCfg
  | .irqCoal => rowIrqCoal
  | .sqTail => rowSqTail
  | .sqHead => rowSqHead
  | .rqTail => rowRqTail
  | .rqHead => rowRqHead
  | .ringStatus => rowRingStatus
  | .randKey => rowRandKey
  | .chRemap => rowChRemap
  | .chFlip => rowChFlip
  | .chFlipCtl => rowChFlipCtl
  | .ladderStepW0 => rowLadderStepW0
  | .ladderStepW1 => rowLadderStepW1
  | .ladderLoaded => rowLadderLoaded
  | .track => rowTrack
  | .margin => rowMargin
  | .classCfg0 => rowClassCfg0
  | .classCfg1 => rowClassCfg1
  | .decCtl => rowDecCtl
  | .decStatus => rowDecStatus
  | .deCtl => rowDeCtl
  | .chTiming0 => rowChTiming0
  | .chTiming1 => rowChTiming1
  | .chPoll => rowChPoll
  | .chTimeout => rowChTimeout
  | .chRbMap => rowChRbMap
  | .chBusCtl => rowChBusCtl
  | .chClass => rowChClass
  | .chBringFeat => rowChBringFeat
  | .chId => rowChId
  | .chPpage => rowChPpage
  | .cgPhy => rowCgPhy
  | .chBusStatus => rowChBusStatus
  | .chLunState => rowChLunState
  | .chSched => rowChSched
  | .chCtl => rowChCtl
  | .cgFence => rowCgFence
  | .lgClassSet => rowLgClassSet
  | .lgCost => rowLgCost
  | .lgBudget => rowLgBudget
  | .lgCtl => rowLgCtl
  | .lgStatus => rowLgStatus
  | .lgCharged => rowLgCharged
  | .lgQuietW0 => rowLgQuietW0
  | .lgQuietW1 => rowLgQuietW1
  | .lgRingCtl => rowLgRingCtl
  | .lgRingStatus => rowLgRingStatus
  | .tbNow => rowTbNow
  | .tbFrac => rowTbFrac
  | .tbSet => rowTbSet
  | .tbInc => rowTbInc
  | .tbCtl => rowTbCtl
  | .tbStatus => rowTbStatus
  | .xrCtl => rowXrCtl
  | .xrStatus => rowXrStatus
  | .xrAddr => rowXrAddr
  | .xrAsym => rowXrAsym
  | .xrHop => rowXrHop
  | .xrFwd => rowXrFwd
  | .dcCtl => rowDcCtl
  | .dcRingBase => rowDcRingBase
  | .dcRingCfg => rowDcRingCfg
  | .dcKick => rowDcKick
  | .dcHead => rowDcHead
  | .dcStatus => rowDcStatus
  | .dcLate => rowDcLate
  | .dcOutstanding => rowDcOutstanding
  | .chFifoCtl => rowChFifoCtl
  | .chFifoStat => rowChFifoStat
  | .chFifoDbg => rowChFifoDbg
  | .smBankCtl => rowSmBankCtl
  | .smRemap => rowSmRemap
  | .smEccStatus => rowSmEccStatus
  | .smEccLog => rowSmEccLog
  | .smScrub => rowSmScrub
  | .smFlip => rowSmFlip
  | .smFlipCtl => rowSmFlipCtl
  | .psCfg => rowPsCfg
  | .psStatus => rowPsStatus
  | .psCursor => rowPsCursor
  | .psClass => rowPsClass
  | .psPool => rowPsPool
  | .bootCtl => rowBootCtl
  | .bootStatus => rowBootStatus
  | .bootXo => rowBootXo
  | .mcEng => rowMcEng
  | .mcFrame => rowMcFrame
  | .mcRoutine => rowMcRoutine
  | .mcCtl => rowMcCtl
  | .mcRomId => rowMcRomId
  | .mcMatch => rowMcMatch
  | .mcPatchW0 => rowMcPatchW0
  | .mcPatchW1 => rowMcPatchW1
  | .mcPatchW2 => rowMcPatchW2
  | .hpAttr => rowHpAttr
  | .hpCredit => rowHpCredit
  | .hpIniErr => rowHpIniErr
  | .hpTgtErr => rowHpTgtErr
  | .portStatus => rowPortStatus
  | .ckCoreCtl => rowCkCoreCtl
  | .ckStatus => rowCkStatus
  | .modeCtl => rowModeCtl
  | .pwrReq => rowPwrReq
  | .pwrStatus => rowPwrStatus
  | .calAlert => rowCalAlert
  | .calGrpCtl => rowCalGrpCtl
  | .calGrpStatus => rowCalGrpStatus
  | .calLimits => rowCalLimits
  | .calRejInfo => rowCalRejInfo
  | .calDqRd => rowCalDqRd
  | .calDqWr => rowCalDqWr
  | .calDqs => rowCalDqs
  | .calDrv => rowCalDrv
  | .icSrc => rowIcSrc
  | .icPend => rowIcPend
  | .icClaim => rowIcClaim
  | .icComplete => rowIcComplete
  | .icTgtStatus => rowIcTgtStatus
  | .icTgtCfg => rowIcTgtCfg
  | .tallyCfg => rowTallyCfg
  | .tallyVal => rowTallyVal
  | .tallySnapCtl => rowTallySnapCtl
  | .tallySnapTick => rowTallySnapTick
  | .tallySnap => rowTallySnap
  | .lcStatus => rowLcStatus
  | .bistCtl => rowBistCtl
  | .bistStatus => rowBistStatus
  | .bistSlice => rowBistSlice
  | .bistMemBank => rowBistMemBank
  | .bistMemOther => rowBistMemOther
  | .bistMemRow => rowBistMemRow
  | .svcFeCtl => rowSvcFeCtl

/-- Register names, part 1 of the list below. -/
def regNames1 : List RegName :=
  [.epmId, .ownerCtl, .serviceMap, .serviceBanks, .epmGeom, .sqBase, .rqBase, .ringCfg, .irqCoal, .sqTail, .sqHead,
   .rqTail, .rqHead, .ringStatus, .randKey, .chRemap, .chFlip, .chFlipCtl, .ladderStepW0, .ladderStepW1,
   .ladderLoaded, .track, .margin, .classCfg0]

/-- Register names, part 2 of the list below. -/
def regNames2 : List RegName :=
  [.classCfg1, .decCtl, .decStatus, .deCtl, .chTiming0, .chTiming1, .chPoll, .chTimeout, .chRbMap, .chBusCtl,
   .chClass, .chBringFeat, .chId, .chPpage, .cgPhy, .chBusStatus, .chLunState, .chSched, .chCtl, .cgFence,
   .lgClassSet, .lgCost, .lgBudget, .lgCtl]

/-- Register names, part 3 of the list below. -/
def regNames3 : List RegName :=
  [.lgStatus, .lgCharged, .lgQuietW0, .lgQuietW1, .lgRingCtl, .lgRingStatus, .tbNow, .tbFrac, .tbSet, .tbInc,
   .tbCtl, .tbStatus, .xrCtl, .xrStatus, .xrAddr, .xrAsym, .xrHop, .xrFwd, .dcCtl, .dcRingBase, .dcRingCfg,
   .dcKick, .dcHead, .dcStatus]

/-- Register names, part 4 of the list below. -/
def regNames4 : List RegName :=
  [.dcLate, .dcOutstanding, .chFifoCtl, .chFifoStat, .chFifoDbg, .smBankCtl, .smRemap, .smEccStatus, .smEccLog,
   .smScrub, .smFlip, .smFlipCtl, .psCfg, .psStatus, .psCursor, .psClass, .psPool, .bootCtl, .bootStatus, .bootXo,
   .mcEng, .mcFrame, .mcRoutine, .mcCtl]

/-- Register names, part 5 of the list below. -/
def regNames5 : List RegName :=
  [.mcRomId, .mcMatch, .mcPatchW0, .mcPatchW1, .mcPatchW2, .hpAttr, .hpCredit, .hpIniErr, .hpTgtErr, .portStatus,
   .ckCoreCtl, .ckStatus, .modeCtl, .pwrReq, .pwrStatus, .calAlert, .calGrpCtl, .calGrpStatus, .calLimits,
   .calRejInfo, .calDqRd, .calDqWr, .calDqs, .calDrv]

/-- Register names, part 6 of the list below. -/
def regNames6 : List RegName :=
  [.icSrc, .icPend, .icClaim, .icComplete, .icTgtStatus, .icTgtCfg, .tallyCfg, .tallyVal, .tallySnapCtl,
   .tallySnapTick, .tallySnap, .lcStatus, .bistCtl, .bistStatus, .bistSlice, .bistMemBank, .bistMemOther,
   .bistMemRow, .svcFeCtl]

/-- Every register name, in the order of the chapters. -/
def allRegNames : List RegName :=
  regNames1 ++ regNames2 ++ regNames3 ++ regNames4 ++ regNames5 ++ regNames6

/-! Named fields, `F.<register><Field>`. -/

namespace F
abbrev epmIdFamily : Fld := ⟨.epmId, 24, 8⟩
abbrev epmIdMember : Fld := ⟨.epmId, 16, 8⟩
abbrev epmIdRelMajor : Fld := ⟨.epmId, 8, 8⟩
abbrev epmIdRelMinor : Fld := ⟨.epmId, 0, 8⟩
abbrev ownerCtlOwnerPref : Fld := ⟨.ownerCtl, 0, 1⟩
abbrev ownerCtlHandover : Fld := ⟨.ownerCtl, 1, 1⟩
abbrev ownerCtlOwner : Fld := ⟨.ownerCtl, 8, 1⟩
abbrev ownerCtlFeAUp : Fld := ⟨.ownerCtl, 9, 1⟩
abbrev ownerCtlFeBUp : Fld := ⟨.ownerCtl, 10, 1⟩
abbrev ownerCtlOwnerConflict : Fld := ⟨.ownerCtl, 16, 1⟩
abbrev ownerCtlOwnerLost : Fld := ⟨.ownerCtl, 17, 1⟩
abbrev ownerCtlHandoverRefused : Fld := ⟨.ownerCtl, 18, 1⟩
abbrev ownerCtlYieldedHalf : Fld := ⟨.ownerCtl, 19, 1⟩
abbrev serviceMapCgFenced : Fld := ⟨.serviceMap, 0, 12⟩
abbrev serviceMapFeFenced : Fld := ⟨.serviceMap, 12, 2⟩
abbrev serviceMapPoolFenced : Fld := ⟨.serviceMap, 14, 2⟩
abbrev serviceMapDeFencedAny : Fld := ⟨.serviceMap, 16, 1⟩
abbrev serviceBanksBankFenced : Fld := ⟨.serviceBanks, 0, 16⟩
abbrev epmGeomChannels : Fld := ⟨.epmGeom, 0, 8⟩
abbrev epmGeomCeLog2 : Fld := ⟨.epmGeom, 8, 4⟩
abbrev epmGeomLunLog2Max : Fld := ⟨.epmGeom, 12, 3⟩
abbrev epmGeomDecodeEngines : Fld := ⟨.epmGeom, 16, 6⟩
abbrev epmGeomBanksLog2 : Fld := ⟨.epmGeom, 24, 4⟩
abbrev epmGeomTellers : Fld := ⟨.epmGeom, 28, 4⟩
abbrev sqBaseBase : Fld := ⟨.sqBase, 12, 52⟩
abbrev rqBaseBase : Fld := ⟨.rqBase, 12, 52⟩
abbrev ringCfgEnable : Fld := ⟨.ringCfg, 0, 1⟩
abbrev ringCfgTeller : Fld := ⟨.ringCfg, 4, 2⟩
abbrev ringCfgRingLevel : Fld := ⟨.ringCfg, 6, 2⟩
abbrev ringCfgSqLog2 : Fld := ⟨.ringCfg, 8, 5⟩
abbrev ringCfgRqLog2 : Fld := ⟨.ringCfg, 16, 5⟩
abbrev ringCfgIrqFlagged : Fld := ⟨.ringCfg, 24, 1⟩
abbrev ringCfgIrqError : Fld := ⟨.ringCfg, 25, 1⟩
abbrev ringCfgIrqEvery : Fld := ⟨.ringCfg, 26, 1⟩
abbrev irqCoalCoalCount : Fld := ⟨.irqCoal, 0, 16⟩
abbrev irqCoalCoalTime : Fld := ⟨.irqCoal, 16, 16⟩
abbrev sqTailTail : Fld := ⟨.sqTail, 0, 16⟩
abbrev sqHeadHead : Fld := ⟨.sqHead, 0, 16⟩
abbrev sqHeadInFlight : Fld := ⟨.sqHead, 16, 16⟩
abbrev rqTailTail : Fld := ⟨.rqTail, 0, 16⟩
abbrev rqTailPhase : Fld := ⟨.rqTail, 16, 1⟩
abbrev rqHeadHead : Fld := ⟨.rqHead, 0, 16⟩
abbrev ringStatusFetching : Fld := ⟨.ringStatus, 0, 1⟩
abbrev ringStatusDbErr : Fld := ⟨.ringStatus, 1, 1⟩
abbrev ringStatusIrqPend : Fld := ⟨.ringStatus, 2, 1⟩
abbrev ringStatusFetchErr : Fld := ⟨.ringStatus, 3, 1⟩
abbrev ringStatusRcptErr : Fld := ⟨.ringStatus, 4, 1⟩
abbrev ringStatusCfgErr : Fld := ⟨.ringStatus, 5, 1⟩
abbrev randKeyKey : Fld := ⟨.randKey, 0, 32⟩
abbrev chRemapImageCol : Fld := ⟨.chRemap, 0, 15⟩
abbrev chRemapDieCol : Fld := ⟨.chRemap, 16, 16⟩
abbrev chRemapCe : Fld := ⟨.chRemap, 32, 4⟩
abbrev chRemapLun : Fld := ⟨.chRemap, 36, 3⟩
abbrev chRemapAll : Fld := ⟨.chRemap, 39, 1⟩
abbrev chRemapValid : Fld := ⟨.chRemap, 40, 1⟩
abbrev chFlipMask : Fld := ⟨.chFlip, 0, 64⟩
abbrev chFlipCtlFlipCol : Fld := ⟨.chFlipCtl, 0, 15⟩
abbrev chFlipCtlArm : Fld := ⟨.chFlipCtl, 16, 1⟩
abbrev chFlipCtlDone : Fld := ⟨.chFlipCtl, 17, 1⟩
abbrev ladderStepW0P1 : Fld := ⟨.ladderStepW0, 0, 8⟩
abbrev ladderStepW0P2 : Fld := ⟨.ladderStepW0, 8, 8⟩
abbrev ladderStepW0P3 : Fld := ⟨.ladderStepW0, 16, 8⟩
abbrev ladderStepW0P4 : Fld := ⟨.ladderStepW0, 24, 8⟩
abbrev ladderStepW0Soft : Fld := ⟨.ladderStepW0, 32, 2⟩
abbrev ladderStepW0O1 : Fld := ⟨.ladderStepW0, 40, 8⟩
abbrev ladderStepW0O2 : Fld := ⟨.ladderStepW0, 48, 8⟩
abbrev ladderStepW0O3 : Fld := ⟨.ladderStepW0, 56, 8⟩
abbrev ladderStepW1Last : Fld := ⟨.ladderStepW1, 0, 1⟩
abbrev ladderLoadedLoaded : Fld := ⟨.ladderLoaded, 0, 16⟩
abbrev trackP1 : Fld := ⟨.track, 0, 8⟩
abbrev trackP2 : Fld := ⟨.track, 8, 8⟩
abbrev trackP3 : Fld := ⟨.track, 16, 8⟩
abbrev trackP4 : Fld := ⟨.track, 24, 8⟩
abbrev trackValid : Fld := ⟨.track, 32, 1⟩
abbrev marginP1 : Fld := ⟨.margin, 0, 8⟩
abbrev marginP2 : Fld := ⟨.margin, 8, 8⟩
abbrev marginP3 : Fld := ⟨.margin, 16, 8⟩
abbrev marginP4 : Fld := ⟨.margin, 24, 8⟩
abbrev marginValid : Fld := ⟨.margin, 32, 1⟩
abbrev classCfg0DefStrength : Fld := ⟨.classCfg0, 0, 3⟩
abbrev classCfg0MaxStrength : Fld := ⟨.classCfg0, 4, 3⟩
abbrev classCfg0DefLadder : Fld := ⟨.classCfg0, 8, 4⟩
abbrev classCfg0GradeThresh : Fld := ⟨.classCfg0, 16, 8⟩
abbrev classCfg0DeepStep : Fld := ⟨.classCfg0, 24, 5⟩
abbrev classCfg0RetryFa : Fld := ⟨.classCfg0, 32, 8⟩
abbrev classCfg0TrackLoaded : Fld := ⟨.classCfg0, 40, 1⟩
abbrev classCfg0MarginLoaded : Fld := ⟨.classCfg0, 41, 1⟩
abbrev classCfg0RetryInSuspend : Fld := ⟨.classCfg0, 42, 1⟩
abbrev classCfg0TrackLsb : Fld := ⟨.classCfg0, 48, 6⟩
abbrev classCfg0ErasedThresh : Fld := ⟨.classCfg0, 56, 8⟩
abbrev classCfg1IterLocal : Fld := ⟨.classCfg1, 0, 8⟩
abbrev classCfg1IterGlobal : Fld := ⟨.classCfg1, 8, 8⟩
abbrev classCfg1IterSoft : Fld := ⟨.classCfg1, 16, 8⟩
abbrev classCfg1HoldUs : Fld := ⟨.classCfg1, 24, 8⟩
abbrev decCtlPoolAFence : Fld := ⟨.decCtl, 0, 1⟩
abbrev decCtlPoolBFence : Fld := ⟨.decCtl, 1, 1⟩
abbrev decCtlCrossDis : Fld := ⟨.decCtl, 4, 1⟩
abbrev decCtlScrubMax : Fld := ⟨.decCtl, 8, 4⟩
abbrev decStatusIdleA : Fld := ⟨.decStatus, 0, 6⟩
abbrev decStatusIdleB : Fld := ⟨.decStatus, 8, 6⟩
abbrev decStatusWaiting : Fld := ⟨.decStatus, 16, 15⟩
abbrev deCtlEnable : Fld := ⟨.deCtl, 0, 1⟩
abbrev deCtlFence : Fld := ⟨.deCtl, 1, 1⟩
abbrev deCtlState : Fld := ⟨.deCtl, 4, 3⟩
abbrev deCtlPending : Fld := ⟨.deCtl, 7, 1⟩
abbrev deCtlBusy : Fld := ⟨.deCtl, 8, 1⟩
abbrev deCtlFault : Fld := ⟨.deCtl, 9, 1⟩
abbrev deCtlChannel : Fld := ⟨.deCtl, 16, 6⟩
abbrev chTiming0TCa : Fld := ⟨.chTiming0, 0, 10⟩
abbrev chTiming0TCcs : Fld := ⟨.chTiming0, 16, 10⟩
abbrev chTiming0TAdl : Fld := ⟨.chTiming0, 32, 10⟩
abbrev chTiming0TWhr : Fld := ⟨.chTiming0, 48, 10⟩
abbrev chTiming1TRhw : Fld := ⟨.chTiming1, 0, 10⟩
abbrev chTiming1TPre : Fld := ⟨.chTiming1, 16, 10⟩
abbrev chTiming1TWpre : Fld := ⟨.chTiming1, 32, 10⟩
abbrev chTiming1TWb : Fld := ⟨.chTiming1, 48, 10⟩
abbrev chPollPollIntNs : Fld := ⟨.chPoll, 0, 12⟩
abbrev chPollRbPollMul : Fld := ⟨.chPoll, 12, 4⟩
abbrev chPollFirstReadUs : Fld := ⟨.chPoll, 16, 12⟩
abbrev chPollFirstProgUs : Fld := ⟨.chPoll, 32, 12⟩
abbrev chPollFirstEraseUs : Fld := ⟨.chPoll, 48, 12⟩
abbrev chTimeoutToReadUs : Fld := ⟨.chTimeout, 0, 16⟩
abbrev chTimeoutToProgUs : Fld := ⟨.chTimeout, 16, 16⟩
abbrev chTimeoutToEraseUs : Fld := ⟨.chTimeout, 32, 16⟩
abbrev chTimeoutToOtherUs : Fld := ⟨.chTimeout, 48, 16⟩
abbrev chBusCtlCePresent : Fld := ⟨.chBusCtl, 0, 16⟩
abbrev chBusCtlWpRelease : Fld := ⟨.chBusCtl, 16, 1⟩
abbrev chBusCtlLunLog2 : Fld := ⟨.chBusCtl, 18, 2⟩
abbrev chBusCtlRowCycles : Fld := ⟨.chBusCtl, 20, 3⟩
abbrev chBringFeatFa : Fld := ⟨.chBringFeat, 0, 8⟩
abbrev chBringFeatP1 : Fld := ⟨.chBringFeat, 8, 8⟩
abbrev chBringFeatP2 : Fld := ⟨.chBringFeat, 16, 8⟩
abbrev chBringFeatP3 : Fld := ⟨.chBringFeat, 24, 8⟩
abbrev chBringFeatP4 : Fld := ⟨.chBringFeat, 32, 8⟩
abbrev chBringFeatValid : Fld := ⟨.chBringFeat, 40, 1⟩
abbrev chBringFeatAfter : Fld := ⟨.chBringFeat, 41, 1⟩
abbrev chBringFeatLunForm : Fld := ⟨.chBringFeat, 42, 1⟩
abbrev chIdId : Fld := ⟨.chId, 0, 64⟩
abbrev chPpageBytes : Fld := ⟨.chPpage, 0, 64⟩
abbrev cgPhyMode : Fld := ⟨.cgPhy, 0, 3⟩
abbrev cgPhyXrReq : Fld := ⟨.cgPhy, 3, 1⟩
abbrev cgPhyBaseRate : Fld := ⟨.cgPhy, 8, 6⟩
abbrev cgPhyXrRate : Fld := ⟨.cgPhy, 16, 6⟩
abbrev cgPhyTmP1 : Fld := ⟨.cgPhy, 24, 8⟩
abbrev cgPhyTmFa : Fld := ⟨.cgPhy, 32, 8⟩
abbrev cgPhyXrDescOfs : Fld := ⟨.cgPhy, 40, 8⟩
abbrev cgPhyInit : Fld := ⟨.cgPhy, 48, 1⟩
abbrev cgPhyStopAtId : Fld := ⟨.cgPhy, 49, 1⟩
abbrev cgPhyPllReady : Fld := ⟨.cgPhy, 50, 1⟩
abbrev cgPhyXrActive : Fld := ⟨.cgPhy, 51, 1⟩
abbrev cgPhyInitRefused : Fld := ⟨.cgPhy, 52, 1⟩
abbrev cgPhyInert : Fld := ⟨.cgPhy, 53, 1⟩
abbrev cgPhyXrRefused : Fld := ⟨.cgPhy, 56, 3⟩
abbrev chBusStatusBusState : Fld := ⟨.chBusStatus, 0, 3⟩
abbrev chBusStatusFailStep : Fld := ⟨.chBusStatus, 4, 4⟩
abbrev chBusStatusFailCe : Fld := ⟨.chBusStatus, 8, 4⟩
abbrev chBusStatusCeFailed : Fld := ⟨.chBusStatus, 16, 16⟩
abbrev chBusStatusEnRefused : Fld := ⟨.chBusStatus, 32, 1⟩
abbrev chBusStatusCfgIgnored : Fld := ⟨.chBusStatus, 33, 1⟩
abbrev chBusStatusVddqLost : Fld := ⟨.chBusStatus, 34, 1⟩
abbrev chLunStateAct : Fld := ⟨.chLunState, 0, 4⟩
abbrev chLunStateSuspended : Fld := ⟨.chLunState, 4, 2⟩
abbrev chLunStateHalted : Fld := ⟨.chLunState, 6, 1⟩
abbrev chLunStateResetDue : Fld := ⟨.chLunState, 7, 1⟩
abbrev chLunStateSuspCount : Fld := ⟨.chLunState, 8, 8⟩
abbrev chLunStateQueued : Fld := ⟨.chLunState, 16, 13⟩
abbrev chLunStateNosusp : Fld := ⟨.chLunState, 31, 1⟩
abbrev chLunStateTag : Fld := ⟨.chLunState, 32, 16⟩
abbrev chLunStatePair : Fld := ⟨.chLunState, 48, 8⟩
abbrev chSchedSuspProg : Fld := ⟨.chSched, 0, 1⟩
abbrev chSchedSuspErase : Fld := ⟨.chSched, 1, 1⟩
abbrev chSchedCacheRead : Fld := ⟨.chSched, 2, 1⟩
abbrev chSchedCacheProg : Fld := ⟨.chSched, 3, 1⟩
abbrev chSchedSuspLeadUs : Fld := ⟨.chSched, 8, 8⟩
abbrev chSchedRunMinUs : Fld := ⟨.chSched, 16, 8⟩
abbrev chSchedPlaneLsb : Fld := ⟨.chSched, 24, 6⟩
abbrev chCtlEnable : Fld := ⟨.chCtl, 0, 1⟩
abbrev chCtlState : Fld := ⟨.chCtl, 4, 3⟩
abbrev chCtlPending : Fld := ⟨.chCtl, 7, 1⟩
abbrev chCtlGroupFenced : Fld := ⟨.chCtl, 8, 1⟩
abbrev chCtlQueued : Fld := ⟨.chCtl, 16, 13⟩
abbrev cgFenceFence : Fld := ⟨.cgFence, 0, 1⟩
abbrev lgCostCoins : Fld := ⟨.lgCost, 0, 16⟩
abbrev lgBudgetVccNormal : Fld := ⟨.lgBudget, 0, 16⟩
abbrev lgBudgetVccAlt : Fld := ⟨.lgBudget, 16, 16⟩
abbrev lgBudgetVccqNormal : Fld := ⟨.lgBudget, 32, 16⟩
abbrev lgBudgetVccqAlt : Fld := ⟨.lgBudget, 48, 16⟩
abbrev lgCtlCutEn : Fld := ⟨.lgCtl, 0, 1⟩
abbrev lgCtlForceAlt : Fld := ⟨.lgCtl, 1, 1⟩
abbrev lgCtlQuietSuspend : Fld := ⟨.lgCtl, 2, 1⟩
abbrev lgCtlCutHoldUs : Fld := ⟨.lgCtl, 8, 8⟩
abbrev lgStatusCutIn : Fld := ⟨.lgStatus, 0, 1⟩
abbrev lgStatusAltActive : Fld := ⟨.lgStatus, 1, 1⟩
abbrev lgStatusQuietActive : Fld := ⟨.lgStatus, 2, 1⟩
abbrev lgStatusShedding : Fld := ⟨.lgStatus, 3, 1⟩
abbrev lgStatusCutSeen : Fld := ⟨.lgStatus, 8, 1⟩
abbrev lgStatusQuietFull : Fld := ⟨.lgStatus, 9, 1⟩
abbrev lgStatusRingStale : Fld := ⟨.lgStatus, 10, 1⟩
abbrev lgStatusRingRefused : Fld := ⟨.lgStatus, 11, 1⟩
abbrev lgChargedVccCharged : Fld := ⟨.lgCharged, 0, 16⟩
abbrev lgChargedVccAside : Fld := ⟨.lgCharged, 16, 16⟩
abbrev lgChargedVccqCharged : Fld := ⟨.lgCharged, 32, 16⟩
abbrev lgChargedVccWaiting : Fld := ⟨.lgCharged, 48, 16⟩
abbrev lgQuietW0Start : Fld := ⟨.lgQuietW0, 0, 64⟩
abbrev lgQuietW1Length : Fld := ⟨.lgQuietW1, 0, 32⟩
abbrev lgQuietW1Valid : Fld := ⟨.lgQuietW1, 32, 1⟩
abbrev lgRingCtlRingBudget : Fld := ⟨.lgRingCtl, 0, 16⟩
abbrev lgRingCtlFloor : Fld := ⟨.lgRingCtl, 16, 16⟩
abbrev lgRingCtlRingEn : Fld := ⟨.lgRingCtl, 32, 1⟩
abbrev lgRingCtlRingStart : Fld := ⟨.lgRingCtl, 33, 1⟩
abbrev lgRingStatusHolding : Fld := ⟨.lgRingStatus, 0, 16⟩
abbrev lgRingStatusPool : Fld := ⟨.lgRingStatus, 16, 16⟩
abbrev lgRingStatusExchange : Fld := ⟨.lgRingStatus, 32, 16⟩
abbrev lgRingStatusLedgerMaster : Fld := ⟨.lgRingStatus, 48, 1⟩
abbrev tbNowTicks : Fld := ⟨.tbNow, 0, 64⟩
abbrev tbFracFrac : Fld := ⟨.tbFrac, 0, 16⟩
abbrev tbSetTicks : Fld := ⟨.tbSet, 0, 64⟩
abbrev tbIncInc : Fld := ⟨.tbInc, 0, 32⟩
abbrev tbCtlLateTol : Fld := ⟨.tbCtl, 0, 16⟩
abbrev tbCtlTickArm : Fld := ⟨.tbCtl, 16, 16⟩
abbrev tbStatusMaster : Fld := ⟨.tbStatus, 0, 1⟩
abbrev tbStatusSynced : Fld := ⟨.tbStatus, 1, 1⟩
abbrev tbStatusSlewing : Fld := ⟨.tbStatus, 2, 1⟩
abbrev tbStatusSetRefused : Fld := ⟨.tbStatus, 3, 1⟩
abbrev tbStatusFineValid : Fld := ⟨.tbStatus, 4, 1⟩
abbrev tbStatusOffset : Fld := ⟨.tbStatus, 32, 32⟩
abbrev xrCtlEnable : Fld := ⟨.xrCtl, 0, 1⟩
abbrev xrCtlReenum : Fld := ⟨.xrCtl, 1, 1⟩
abbrev xrCtlHealHoldUs : Fld := ⟨.xrCtl, 8, 8⟩
abbrev xrStatusState : Fld := ⟨.xrStatus, 0, 3⟩
abbrev xrStatusHead : Fld := ⟨.xrStatus, 3, 1⟩
abbrev xrStatusIn0Up : Fld := ⟨.xrStatus, 4, 1⟩
abbrev xrStatusIn1Up : Fld := ⟨.xrStatus, 5, 1⟩
abbrev xrStatusWrapped : Fld := ⟨.xrStatus, 6, 1⟩
abbrev xrStatusMasterAddr : Fld := ⟨.xrStatus, 8, 4⟩
abbrev xrStatusUnitsM1 : Fld := ⟨.xrStatus, 12, 4⟩
abbrev xrStatusPresent : Fld := ⟨.xrStatus, 16, 16⟩
abbrev xrStatusBreakSeen : Fld := ⟨.xrStatus, 32, 1⟩
abbrev xrStatusHealSeen : Fld := ⟨.xrStatus, 33, 1⟩
abbrev xrStatusAddrChanged : Fld := ⟨.xrStatus, 34, 1⟩
abbrev xrStatusHeadConflict : Fld := ⟨.xrStatus, 35, 1⟩
abbrev xrStatusOversize : Fld := ⟨.xrStatus, 36, 1⟩
abbrev xrStatusYielded : Fld := ⟨.xrStatus, 37, 1⟩
abbrev xrStatusCrcSeen : Fld := ⟨.xrStatus, 38, 1⟩
abbrev xrAddrAddr : Fld := ⟨.xrAddr, 0, 4⟩
abbrev xrAddrAddrValid : Fld := ⟨.xrAddr, 4, 1⟩
abbrev xrAsymUpAsym : Fld := ⟨.xrAsym, 0, 16⟩
abbrev xrAsymDownAsym : Fld := ⟨.xrAsym, 16, 16⟩
abbrev xrHopUpDelay : Fld := ⟨.xrHop, 0, 32⟩
abbrev xrHopDownDelay : Fld := ⟨.xrHop, 32, 32⟩
abbrev xrFwdOutstanding : Fld := ⟨.xrFwd, 0, 15⟩
abbrev xrFwdIntake : Fld := ⟨.xrFwd, 16, 11⟩
abbrev xrFwdRcptPending : Fld := ⟨.xrFwd, 32, 16⟩
abbrev dcCtlEnable : Fld := ⟨.dcCtl, 0, 1⟩
abbrev dcCtlMode : Fld := ⟨.dcCtl, 1, 2⟩
abbrev dcCtlPrio : Fld := ⟨.dcCtl, 4, 2⟩
abbrev dcCtlState : Fld := ⟨.dcCtl, 8, 3⟩
abbrev dcCtlPending : Fld := ⟨.dcCtl, 11, 1⟩
abbrev dcCtlServes : Fld := ⟨.dcCtl, 12, 3⟩
abbrev dcCtlIrqHalfEn : Fld := ⟨.dcCtl, 16, 1⟩
abbrev dcCtlIrqFullEn : Fld := ⟨.dcCtl, 17, 1⟩
abbrev dcCtlIrqDescEn : Fld := ⟨.dcCtl, 18, 1⟩
abbrev dcCtlIrqErrEn : Fld := ⟨.dcCtl, 19, 1⟩
abbrev dcCtlMaxBurst : Fld := ⟨.dcCtl, 24, 4⟩
abbrev dcRingBaseBase : Fld := ⟨.dcRingBase, 12, 52⟩
abbrev dcRingCfgLog2 : Fld := ⟨.dcRingCfg, 0, 5⟩
abbrev dcRingCfgRingAttr : Fld := ⟨.dcRingCfg, 8, 2⟩
abbrev dcRingCfgAttr : Fld := ⟨.dcRingCfg, 16, 8⟩
abbrev dcKickKick : Fld := ⟨.dcKick, 0, 1⟩
abbrev dcHeadHead : Fld := ⟨.dcHead, 0, 16⟩
abbrev dcHeadDoneCount : Fld := ⟨.dcHead, 16, 16⟩
abbrev dcStatusHalf : Fld := ⟨.dcStatus, 0, 1⟩
abbrev dcStatusFull : Fld := ⟨.dcStatus, 1, 1⟩
abbrev dcStatusDescDone : Fld := ⟨.dcStatus, 2, 1⟩
abbrev dcStatusMisalignedSeen : Fld := ⟨.dcStatus, 3, 1⟩
abbrev dcStatusBusErrSeen : Fld := ⟨.dcStatus, 4, 1⟩
abbrev dcStatusLateErr : Fld := ⟨.dcStatus, 5, 1⟩
abbrev dcStatusCfgErr : Fld := ⟨.dcStatus, 6, 1⟩
abbrev dcStatusIdleOwn : Fld := ⟨.dcStatus, 7, 1⟩
abbrev dcStatusBusy : Fld := ⟨.dcStatus, 8, 1⟩
abbrev dcStatusQueued : Fld := ⟨.dcStatus, 16, 11⟩
abbrev dcLateWhich : Fld := ⟨.dcLate, 0, 16⟩
abbrev dcLatePair : Fld := ⟨.dcLate, 16, 8⟩
abbrev dcLateKind : Fld := ⟨.dcLate, 24, 1⟩
abbrev dcOutstandingWrites : Fld := ⟨.dcOutstanding, 0, 12⟩
abbrev chFifoCtlOutThresh : Fld := ⟨.chFifoCtl, 0, 6⟩
abbrev chFifoCtlFlush : Fld := ⟨.chFifoCtl, 8, 4⟩
abbrev chFifoCtlDbgEn : Fld := ⟨.chFifoCtl, 12, 4⟩
abbrev chFifoCtlRefused : Fld := ⟨.chFifoCtl, 16, 1⟩
abbrev chFifoStatProdPtr : Fld := ⟨.chFifoStat, 0, 10⟩
abbrev chFifoStatConsPtr : Fld := ⟨.chFifoStat, 16, 10⟩
abbrev chFifoStatWrPtr : Fld := ⟨.chFifoStat, 32, 10⟩
abbrev chFifoStatEmpty : Fld := ⟨.chFifoStat, 48, 1⟩
abbrev chFifoStatFull : Fld := ⟨.chFifoStat, 49, 1⟩
abbrev chFifoStatUnderrun : Fld := ⟨.chFifoStat, 50, 1⟩
abbrev chFifoStatRewound : Fld := ⟨.chFifoStat, 51, 1⟩
abbrev chFifoStatDiscarded : Fld := ⟨.chFifoStat, 52, 1⟩
abbrev chFifoDbgData : Fld := ⟨.chFifoDbg, 0, 64⟩
abbrev smBankCtlFence : Fld := ⟨.smBankCtl, 0, 1⟩
abbrev smBankCtlRetire : Fld := ⟨.smBankCtl, 1, 1⟩
abbrev smBankCtlDrained : Fld := ⟨.smBankCtl, 2, 1⟩
abbrev smBankCtlItemSlots : Fld := ⟨.smBankCtl, 4, 7⟩
abbrev smBankCtlCfgErr : Fld := ⟨.smBankCtl, 11, 1⟩
abbrev smBankCtlShadow : Fld := ⟨.smBankCtl, 12, 1⟩
abbrev smBankCtlSlotsUsed : Fld := ⟨.smBankCtl, 16, 7⟩
abbrev smRemapRow : Fld := ⟨.smRemap, 0, 9⟩
abbrev smRemapSpare : Fld := ⟨.smRemap, 10, 3⟩
abbrev smRemapValid : Fld := ⟨.smRemap, 16, 1⟩
abbrev smEccStatusCorrected : Fld := ⟨.smEccStatus, 0, 16⟩
abbrev smEccStatusUncorrectable : Fld := ⟨.smEccStatus, 16, 16⟩
abbrev smEccStatusCeSeen : Fld := ⟨.smEccStatus, 32, 1⟩
abbrev smEccStatusUeSeen : Fld := ⟨.smEccStatus, 33, 1⟩
abbrev smEccLogBank : Fld := ⟨.smEccLog, 0, 4⟩
abbrev smEccLogLine : Fld := ⟨.smEccLog, 4, 15⟩
abbrev smEccLogWord : Fld := ⟨.smEccLog, 19, 3⟩
abbrev smEccLogErrBit : Fld := ⟨.smEccLog, 22, 7⟩
abbrev smEccLogUe : Fld := ⟨.smEccLog, 29, 1⟩
abbrev smEccLogScrub : Fld := ⟨.smEccLog, 30, 1⟩
abbrev smEccLogValid : Fld := ⟨.smEccLog, 31, 1⟩
abbrev smScrubLinesPerUs : Fld := ⟨.smScrub, 0, 8⟩
abbrev smScrubActive : Fld := ⟨.smScrub, 8, 1⟩
abbrev smScrubPasses : Fld := ⟨.smScrub, 16, 16⟩
abbrev smFlipDataMask : Fld := ⟨.smFlip, 0, 64⟩
abbrev smFlipCtlCheckMask : Fld := ⟨.smFlipCtl, 0, 8⟩
abbrev smFlipCtlBank : Fld := ⟨.smFlipCtl, 8, 4⟩
abbrev smFlipCtlArm : Fld := ⟨.smFlipCtl, 12, 1⟩
abbrev smFlipCtlDone : Fld := ⟨.smFlipCtl, 13, 1⟩
abbrev psCfgChMask : Fld := ⟨.psCfg, 0, 48⟩
abbrev psCfgPerChMax : Fld := ⟨.psCfg, 48, 4⟩
abbrev psStatusRun : Fld := ⟨.psStatus, 0, 2⟩
abbrev psStatusPoolDrop : Fld := ⟨.psStatus, 2, 1⟩
abbrev psStatusBacklog : Fld := ⟨.psStatus, 8, 7⟩
abbrev psStatusPair : Fld := ⟨.psStatus, 16, 8⟩
abbrev psStatusPages : Fld := ⟨.psStatus, 32, 32⟩
abbrev psCursorIndex : Fld := ⟨.psCursor, 0, 32⟩
abbrev psCursorPasses : Fld := ⟨.psCursor, 32, 16⟩
abbrev psClassRowsLog2 : Fld := ⟨.psClass, 0, 5⟩
abbrev psClassLunShift : Fld := ⟨.psClass, 8, 6⟩
abbrev psClassInclude : Fld := ⟨.psClass, 16, 1⟩
abbrev psPoolEntries : Fld := ⟨.psPool, 0, 7⟩
abbrev psPoolEmptySeen : Fld := ⟨.psPool, 7, 1⟩
abbrev bootCtlWinEn : Fld := ⟨.bootCtl, 0, 1⟩
abbrev bootCtlFixedFetch : Fld := ⟨.bootCtl, 1, 1⟩
abbrev bootCtlReload : Fld := ⟨.bootCtl, 2, 1⟩
abbrev bootCtlRefused : Fld := ⟨.bootCtl, 3, 1⟩
abbrev bootStatusState : Fld := ⟨.bootStatus, 0, 3⟩
abbrev bootStatusSwapBusy : Fld := ⟨.bootStatus, 3, 1⟩
abbrev bootStatusLoadedBlock : Fld := ⟨.bootStatus, 4, 1⟩
abbrev bootStatusFixedMiss : Fld := ⟨.bootStatus, 5, 1⟩
abbrev bootStatusBootFailed : Fld := ⟨.bootStatus, 6, 1⟩
abbrev bootStatusBootSel : Fld := ⟨.bootStatus, 8, 4⟩
abbrev bootStatusHdr0 : Fld := ⟨.bootStatus, 16, 4⟩
abbrev bootStatusHdr1 : Fld := ⟨.bootStatus, 20, 4⟩
abbrev bootStatusGeneration : Fld := ⟨.bootStatus, 32, 32⟩
abbrev bootXoFirst : Fld := ⟨.bootXo, 0, 9⟩
abbrev bootXoLast : Fld := ⟨.bootXo, 16, 9⟩
abbrev bootXoValid : Fld := ⟨.bootXo, 31, 1⟩
abbrev mcEngState : Fld := ⟨.mcEng, 0, 2⟩
abbrev mcEngCause : Fld := ⟨.mcEng, 4, 4⟩
abbrev mcEngRestart : Fld := ⟨.mcEng, 8, 1⟩
abbrev mcEngTrapMasked : Fld := ⟨.mcEng, 9, 1⟩
abbrev mcEngRestartRefused : Fld := ⟨.mcEng, 10, 1⟩
abbrev mcEngUpc : Fld := ⟨.mcEng, 16, 14⟩
abbrev mcEngParGroups : Fld := ⟨.mcEng, 32, 8⟩
abbrev mcFrameWord : Fld := ⟨.mcFrame, 0, 32⟩
abbrev mcRoutineEntry : Fld := ⟨.mcRoutine, 0, 10⟩
abbrev mcRoutineValid : Fld := ⟨.mcRoutine, 16, 1⟩
abbrev mcCtlWriteEn : Fld := ⟨.mcCtl, 0, 1⟩
abbrev mcCtlPatchEn : Fld := ⟨.mcCtl, 1, 1⟩
abbrev mcCtlRefused : Fld := ⟨.mcCtl, 2, 1⟩
abbrev mcCtlClearing : Fld := ⟨.mcCtl, 3, 1⟩
abbrev mcCtlCheck : Fld := ⟨.mcCtl, 32, 32⟩
abbrev mcRomIdKind : Fld := ⟨.mcRomId, 24, 8⟩
abbrev mcRomIdRelMajor : Fld := ⟨.mcRomId, 16, 8⟩
abbrev mcRomIdRelMinor : Fld := ⟨.mcRomId, 8, 8⟩
abbrev mcRomIdRomRev : Fld := ⟨.mcRomId, 0, 8⟩
abbrev mcMatchRomAddr : Fld := ⟨.mcMatch, 0, 13⟩
abbrev mcMatchPatchAddr : Fld := ⟨.mcMatch, 16, 10⟩
abbrev mcMatchValid : Fld := ⟨.mcMatch, 31, 1⟩
abbrev mcPatchW0DataLo : Fld := ⟨.mcPatchW0, 0, 64⟩
abbrev mcPatchW1DataMid : Fld := ⟨.mcPatchW1, 0, 64⟩
abbrev mcPatchW2DataHi : Fld := ⟨.mcPatchW2, 0, 8⟩
abbrev mcPatchW2Parity : Fld := ⟨.mcPatchW2, 8, 8⟩
abbrev hpAttrFetchAttr : Fld := ⟨.hpAttr, 0, 8⟩
abbrev hpAttrWbAttr : Fld := ⟨.hpAttr, 8, 8⟩
abbrev hpAttrRdAttr : Fld := ⟨.hpAttr, 16, 8⟩
abbrev hpAttrWrAttr : Fld := ⟨.hpAttr, 24, 8⟩
abbrev hpCreditRdCredits : Fld := ⟨.hpCredit, 0, 8⟩
abbrev hpCreditWrCredits : Fld := ⟨.hpCredit, 8, 8⟩
abbrev hpCreditRdOut : Fld := ⟨.hpCredit, 16, 10⟩
abbrev hpCreditWrOut : Fld := ⟨.hpCredit, 32, 12⟩
abbrev hpIniErrId : Fld := ⟨.hpIniErr, 0, 10⟩
abbrev hpIniErrCode : Fld := ⟨.hpIniErr, 10, 2⟩
abbrev hpIniErrKind : Fld := ⟨.hpIniErr, 12, 1⟩
abbrev hpIniErrValid : Fld := ⟨.hpIniErr, 15, 1⟩
abbrev hpIniErrCount : Fld := ⟨.hpIniErr, 16, 16⟩
abbrev hpTgtErrAddr : Fld := ⟨.hpTgtErr, 0, 24⟩
abbrev hpTgtErrCode : Fld := ⟨.hpTgtErr, 24, 2⟩
abbrev hpTgtErrWrite : Fld := ⟨.hpTgtErr, 26, 1⟩
abbrev hpTgtErrFetch : Fld := ⟨.hpTgtErr, 27, 1⟩
abbrev hpTgtErrRing : Fld := ⟨.hpTgtErr, 28, 2⟩
abbrev hpTgtErrSize64 : Fld := ⟨.hpTgtErr, 30, 1⟩
abbrev hpTgtErrValid : Fld := ⟨.hpTgtErr, 31, 1⟩
abbrev hpTgtErrRid : Fld := ⟨.hpTgtErr, 32, 8⟩
abbrev hpTgtErrCount : Fld := ⟨.hpTgtErr, 40, 16⟩
abbrev portStatusOwnerFault : Fld := ⟨.portStatus, 0, 1⟩
abbrev portStatusMcheckFault : Fld := ⟨.portStatus, 1, 1⟩
abbrev portStatusClkFaultAny : Fld := ⟨.portStatus, 2, 1⟩
abbrev portStatusPswFault : Fld := ⟨.portStatus, 3, 1⟩
abbrev portStatusSupplyDrop : Fld := ⟨.portStatus, 4, 1⟩
abbrev portStatusStrapChanged : Fld := ⟨.portStatus, 5, 1⟩
abbrev portStatusRingHeadS : Fld := ⟨.portStatus, 8, 1⟩
abbrev portStatusBootSelS : Fld := ⟨.portStatus, 9, 4⟩
abbrev portStatusLcStateS : Fld := ⟨.portStatus, 13, 4⟩
abbrev ckCoreCtlSrc : Fld := ⟨.ckCoreCtl, 0, 2⟩
abbrev ckCoreCtlMult : Fld := ⟨.ckCoreCtl, 8, 5⟩
abbrev ckCoreCtlPllEn : Fld := ⟨.ckCoreCtl, 13, 1⟩
abbrev ckCoreCtlGateDis : Fld := ⟨.ckCoreCtl, 15, 1⟩
abbrev ckCoreCtlCorePllReady : Fld := ⟨.ckCoreCtl, 16, 1⟩
abbrev ckCoreCtlFallbackReady : Fld := ⟨.ckCoreCtl, 17, 1⟩
abbrev ckCoreCtlSwRefused : Fld := ⟨.ckCoreCtl, 18, 1⟩
abbrev ckCoreCtlClkFault : Fld := ⟨.ckCoreCtl, 19, 1⟩
abbrev ckCoreCtlSwitching : Fld := ⟨.ckCoreCtl, 20, 1⟩
abbrev ckCoreCtlPllNolock : Fld := ⟨.ckCoreCtl, 21, 1⟩
abbrev ckCoreCtlParked : Fld := ⟨.ckCoreCtl, 22, 1⟩
abbrev ckStatusPhyFault : Fld := ⟨.ckStatus, 0, 12⟩
abbrev ckStatusPhyPllReady : Fld := ⟨.ckStatus, 16, 12⟩
abbrev ckStatusCoreMhz : Fld := ⟨.ckStatus, 32, 16⟩
abbrev modeCtlTarget : Fld := ⟨.modeCtl, 0, 3⟩
abbrev modeCtlBistOnShutdown : Fld := ⟨.modeCtl, 3, 1⟩
abbrev modeCtlBusy : Fld := ⟨.modeCtl, 8, 1⟩
abbrev modeCtlRefused : Fld := ⟨.modeCtl, 9, 1⟩
abbrev modeCtlSupplyWait : Fld := ⟨.modeCtl, 10, 1⟩
abbrev modeCtlWarnWait : Fld := ⟨.modeCtl, 11, 1⟩
abbrev modeCtlReason : Fld := ⟨.modeCtl, 12, 4⟩
abbrev modeCtlMode : Fld := ⟨.modeCtl, 16, 3⟩
abbrev pwrReqFixed : Fld := ⟨.pwrReq, 0, 2⟩
abbrev pwrReqFe : Fld := ⟨.pwrReq, 2, 2⟩
abbrev pwrReqPools : Fld := ⟨.pwrReq, 4, 2⟩
abbrev pwrReqSm : Fld := ⟨.pwrReq, 6, 2⟩
abbrev pwrReqGroups : Fld := ⟨.pwrReq, 8, 12⟩
abbrev pwrStatusPowered : Fld := ⟨.pwrStatus, 0, 20⟩
abbrev pwrStatusPwrRefused : Fld := ⟨.pwrStatus, 20, 1⟩
abbrev pwrStatusBrownout : Fld := ⟨.pwrStatus, 21, 1⟩
abbrev pwrStatusRetained : Fld := ⟨.pwrStatus, 23, 1⟩
abbrev pwrStatusPorSeen : Fld := ⟨.pwrStatus, 24, 1⟩
abbrev pwrStatusSysSeen : Fld := ⟨.pwrStatus, 25, 1⟩
abbrev pwrStatusSupplyS : Fld := ⟨.pwrStatus, 32, 17⟩
abbrev calAlertAlertC : Fld := ⟨.calAlert, 0, 8⟩
abbrev calGrpCtlAutoEn : Fld := ⟨.calGrpCtl, 0, 1⟩
abbrev calGrpCtlCalDelta : Fld := ⟨.calGrpCtl, 8, 6⟩
abbrev calGrpCtlRetryMs : Fld := ⟨.calGrpCtl, 16, 8⟩
abbrev calGrpStatusTemp : Fld := ⟨.calGrpStatus, 0, 12⟩
abbrev calGrpStatusRefTemp : Fld := ⟨.calGrpStatus, 16, 12⟩
abbrev calGrpStatusState : Fld := ⟨.calGrpStatus, 28, 3⟩
abbrev calGrpStatusRuns : Fld := ⟨.calGrpStatus, 32, 16⟩
abbrev calGrpStatusRejectMask : Fld := ⟨.calGrpStatus, 48, 4⟩
abbrev calGrpStatusCalReject : Fld := ⟨.calGrpStatus, 52, 1⟩
abbrev calGrpStatusCalAbort : Fld := ⟨.calGrpStatus, 53, 1⟩
abbrev calGrpStatusOverAlert : Fld := ⟨.calGrpStatus, 54, 1⟩
abbrev calGrpStatusCalIgnored : Fld := ⟨.calGrpStatus, 55, 1⟩
abbrev calGrpStatusStaged : Fld := ⟨.calGrpStatus, 56, 4⟩
abbrev calLimitsDelayLim : Fld := ⟨.calLimits, 0, 8⟩
abbrev calLimitsDrvLim : Fld := ⟨.calLimits, 8, 4⟩
abbrev calLimitsOdtLim : Fld := ⟨.calLimits, 12, 4⟩
abbrev calLimitsVrefLim : Fld := ⟨.calLimits, 16, 8⟩
abbrev calRejInfoChannel : Fld := ⟨.calRejInfo, 0, 2⟩
abbrev calRejInfoField : Fld := ⟨.calRejInfo, 4, 4⟩
abbrev calRejInfoOld : Fld := ⟨.calRejInfo, 8, 8⟩
abbrev calRejInfoNew : Fld := ⟨.calRejInfo, 16, 8⟩
abbrev calDqsDqsRd : Fld := ⟨.calDqs, 0, 8⟩
abbrev calDqsDqsWr : Fld := ⟨.calDqs, 8, 8⟩
abbrev calDrvPu : Fld := ⟨.calDrv, 0, 6⟩
abbrev calDrvPd : Fld := ⟨.calDrv, 8, 6⟩
abbrev calDrvOdt : Fld := ⟨.calDrv, 16, 6⟩
abbrev calDrvVref : Fld := ⟨.calDrv, 24, 7⟩
abbrev icSrcSense : Fld := ⟨.icSrc, 0, 2⟩
abbrev icSrcTargets : Fld := ⟨.icSrc, 8, 8⟩
abbrev icSrcPending : Fld := ⟨.icSrc, 16, 1⟩
abbrev icSrcInService : Fld := ⟨.icSrc, 17, 1⟩
abbrev icSrcInput : Fld := ⟨.icSrc, 18, 1⟩
abbrev icSrcForce : Fld := ⟨.icSrc, 19, 1⟩
abbrev icPendPend : Fld := ⟨.icPend, 0, 32⟩
abbrev icClaimSource : Fld := ⟨.icClaim, 0, 10⟩
abbrev icCompleteSource : Fld := ⟨.icComplete, 0, 10⟩
abbrev icTgtStatusInService : Fld := ⟨.icTgtStatus, 0, 10⟩
abbrev icTgtStatusIrq : Fld := ⟨.icTgtStatus, 16, 1⟩
abbrev icTgtStatusCompleteErr : Fld := ⟨.icTgtStatus, 17, 1⟩
abbrev icTgtCfgLevel : Fld := ⟨.icTgtCfg, 0, 2⟩
abbrev tallyCfgSource : Fld := ⟨.tallyCfg, 0, 10⟩
abbrev tallyCfgWeight : Fld := ⟨.tallyCfg, 10, 1⟩
abbrev tallyCfgFreeze : Fld := ⟨.tallyCfg, 11, 1⟩
abbrev tallyCfgOvfIrq : Fld := ⟨.tallyCfg, 12, 1⟩
abbrev tallyCfgEnable : Fld := ⟨.tallyCfg, 13, 1⟩
abbrev tallyCfgOvf : Fld := ⟨.tallyCfg, 14, 1⟩
abbrev tallyCfgQual : Fld := ⟨.tallyCfg, 16, 8⟩
abbrev tallyCfgQualEn : Fld := ⟨.tallyCfg, 24, 1⟩
abbrev tallyValCount : Fld := ⟨.tallyVal, 0, 48⟩
abbrev tallySnapCtlSnapNow : Fld := ⟨.tallySnapCtl, 0, 1⟩
abbrev tallySnapCtlSnapDone : Fld := ⟨.tallySnapCtl, 1, 1⟩
abbrev tallySnapTickTick : Fld := ⟨.tallySnapTick, 0, 64⟩
abbrev tallySnapCount : Fld := ⟨.tallySnap, 0, 48⟩
abbrev lcStatusLcRaw : Fld := ⟨.lcStatus, 0, 4⟩
abbrev lcStatusLc : Fld := ⟨.lcStatus, 4, 2⟩
abbrev lcStatusTestOk : Fld := ⟨.lcStatus, 8, 1⟩
abbrev lcStatusSdLogic : Fld := ⟨.lcStatus, 9, 1⟩
abbrev lcStatusSdMem : Fld := ⟨.lcStatus, 10, 1⟩
abbrev lcStatusScanOk : Fld := ⟨.lcStatus, 11, 1⟩
abbrev bistCtlLogicMask : Fld := ⟨.bistCtl, 0, 20⟩
abbrev bistCtlMemEn : Fld := ⟨.bistCtl, 20, 1⟩
abbrev bistCtlDiag : Fld := ⟨.bistCtl, 21, 1⟩
abbrev bistCtlSliceBudget : Fld := ⟨.bistCtl, 32, 16⟩
abbrev bistStatusState : Fld := ⟨.bistStatus, 0, 2⟩
abbrev bistStatusStep : Fld := ⟨.bistStatus, 2, 5⟩
abbrev bistStatusResultsValid : Fld := ⟨.bistStatus, 8, 1⟩
abbrev bistStatusFromShutdown : Fld := ⟨.bistStatus, 9, 1⟩
abbrev bistStatusBistDone : Fld := ⟨.bistStatus, 10, 1⟩
abbrev bistStatusAborted : Fld := ⟨.bistStatus, 11, 1⟩
abbrev bistStatusGen : Fld := ⟨.bistStatus, 16, 16⟩
abbrev bistSliceResult : Fld := ⟨.bistSlice, 0, 2⟩
abbrev bistSliceChainValid : Fld := ⟨.bistSlice, 2, 1⟩
abbrev bistSliceChain : Fld := ⟨.bistSlice, 4, 6⟩
abbrev bistSliceBit : Fld := ⟨.bistSlice, 16, 16⟩
abbrev bistSliceElapsedUs : Fld := ⟨.bistSlice, 32, 16⟩
abbrev bistMemBankFailRows : Fld := ⟨.bistMemBank, 0, 4⟩
abbrev bistMemBankUnrepairable : Fld := ⟨.bistMemBank, 4, 1⟩
abbrev bistMemBankTested : Fld := ⟨.bistMemBank, 5, 1⟩
abbrev bistMemBankSpareBad : Fld := ⟨.bistMemBank, 8, 8⟩
abbrev bistMemOtherStoreFail : Fld := ⟨.bistMemOther, 0, 15⟩
abbrev bistMemOtherFifoFail : Fld := ⟨.bistMemOther, 15, 2⟩
abbrev bistMemOtherHoldFail : Fld := ⟨.bistMemOther, 17, 1⟩
abbrev bistMemOtherPoolFail : Fld := ⟨.bistMemOther, 18, 2⟩
abbrev bistMemOtherTableFail : Fld := ⟨.bistMemOther, 20, 1⟩
abbrev bistMemOtherIntakeFail : Fld := ⟨.bistMemOther, 21, 1⟩
abbrev bistMemRowRow : Fld := ⟨.bistMemRow, 0, 9⟩
abbrev bistMemRowSpare : Fld := ⟨.bistMemRow, 10, 3⟩
abbrev bistMemRowValid : Fld := ⟨.bistMemRow, 16, 1⟩
abbrev bistMemRowBit : Fld := ⟨.bistMemRow, 32, 10⟩
abbrev svcFeCtlFeAFence : Fld := ⟨.svcFeCtl, 0, 1⟩
abbrev svcFeCtlFeBFence : Fld := ⟨.svcFeCtl, 1, 1⟩
abbrev svcFeCtlRefused : Fld := ⟨.svcFeCtl, 2, 1⟩
/-- SET_c of LG_CLASS_SET (R209). -/
abbrev lgClassSetC (c : Nat) : Fld := ⟨.lgClassSet, 2 * c, 2⟩
/-- CLASS_l of CH_CLASS (R155). -/
abbrev chClassL (l : Nat) : Fld := ⟨.chClass, 4 * l, 4⟩
/-- LINE_k of CH_RB_MAP (R152). -/
abbrev chRbMapLine (k : Nat) : Fld := ⟨.chRbMap, 3 * k, 2⟩
/-- USE_k of CH_RB_MAP (R152). -/
abbrev chRbMapUse (k : Nat) : Fld := ⟨.chRbMap, 3 * k + 2, 1⟩
end F

/-- Registers in the order of their declaration, part 1 (R487). -/
def RegName.part1 : List RegName :=
  [.epmId, .ownerCtl, .serviceMap, .serviceBanks, .epmGeom, .sqBase, .rqBase, .ringCfg, .irqCoal, .sqTail, .sqHead, .rqTail, .rqHead, .ringStatus, .randKey, .chRemap, .chFlip, .chFlipCtl, .ladderStepW0, .ladderStepW1, .ladderLoaded, .track, .margin, .classCfg0]

/-- Registers in the order of their declaration, part 2 (R487). -/
def RegName.part2 : List RegName :=
  [.classCfg1, .decCtl, .decStatus, .deCtl, .chTiming0, .chTiming1, .chPoll, .chTimeout, .chRbMap, .chBusCtl, .chClass, .chBringFeat, .chId, .chPpage, .cgPhy, .chBusStatus, .chLunState, .chSched, .chCtl, .cgFence, .lgClassSet, .lgCost, .lgBudget, .lgCtl]

/-- Registers in the order of their declaration, part 3 (R487). -/
def RegName.part3 : List RegName :=
  [.lgStatus, .lgCharged, .lgQuietW0, .lgQuietW1, .lgRingCtl, .lgRingStatus, .tbNow, .tbFrac, .tbSet, .tbInc, .tbCtl, .tbStatus, .xrCtl, .xrStatus, .xrAddr, .xrAsym, .xrHop, .xrFwd, .dcCtl, .dcRingBase, .dcRingCfg, .dcKick, .dcHead, .dcStatus]

/-- Registers in the order of their declaration, part 4 (R487). -/
def RegName.part4 : List RegName :=
  [.dcLate, .dcOutstanding, .chFifoCtl, .chFifoStat, .chFifoDbg, .smBankCtl, .smRemap, .smEccStatus, .smEccLog, .smScrub, .smFlip, .smFlipCtl, .psCfg, .psStatus, .psCursor, .psClass, .psPool, .bootCtl, .bootStatus, .bootXo, .mcEng, .mcFrame, .mcRoutine, .mcCtl]

/-- Registers in the order of their declaration, part 5 (R487). -/
def RegName.part5 : List RegName :=
  [.mcRomId, .mcMatch, .mcPatchW0, .mcPatchW1, .mcPatchW2, .hpAttr, .hpCredit, .hpIniErr, .hpTgtErr, .portStatus, .ckCoreCtl, .ckStatus, .modeCtl, .pwrReq, .pwrStatus, .calAlert, .calGrpCtl, .calGrpStatus, .calLimits, .calRejInfo, .calDqRd, .calDqWr, .calDqs, .calDrv]

/-- Registers in the order of their declaration, part 6 (R487). -/
def RegName.part6 : List RegName :=
  [.icSrc, .icPend, .icClaim, .icComplete, .icTgtStatus, .icTgtCfg, .tallyCfg, .tallyVal, .tallySnapCtl, .tallySnapTick, .tallySnap, .lcStatus, .bistCtl, .bistStatus, .bistSlice, .bistMemBank, .bistMemOther, .bistMemRow, .svcFeCtl]

/-- Every register, in the order of its declaration (R487). -/
def RegName.all : List RegName :=
  RegName.part1 ++ RegName.part2 ++ RegName.part3 ++ RegName.part4 ++ RegName.part5 ++ RegName.part6

end Sys2Proof.Machine
end

