-- ==== Sys2Proof/Machine/Bits.lean ====
section
/-! DEFINITION. Bit fields of registers and packets, little-endian bytes (R9), and signed bytes. -/

namespace Sys2Proof.Machine

/-- The `len` bits of `w` from bit `lo` up, as a number. -/
def fget (w : W64) (lo len : Nat) : Nat := (w >>> lo).toNat % 2 ^ len

/-- The mask of `len` bits from bit `lo` up. -/
def fmask (lo len : Nat) : W64 := BitVec.ofNat 64 (2 ^ len - 1) <<< lo

/-- `w` with the `len` bits from bit `lo` up replaced by the low bits of `v`. -/
def fset (w : W64) (lo len v : Nat) : W64 :=
  (w &&& ~~~(fmask lo len)) ||| ((BitVec.ofNat 64 v <<< lo) &&& fmask lo len)

/-- Bit `i` of a number. -/
def bitOf (n i : Nat) : Bool := (n >>> i) % 2 = 1

/-- The bits `lo` to `lo + len - 1` of a number. -/
def bitsOf (n lo len : Nat) : Nat := (n >>> lo) % 2 ^ len

/-- The `n` least significant bytes of a number, least significant first (R9). -/
def leBytes : Nat → Nat → List Byte
  | 0, _ => []
  | n + 1, v => BitVec.ofNat 8 v :: leBytes n (v / 256)

/-- The number that bytes spell, least significant byte first (R9). -/
def leNat : List Byte → Nat
  | [] => 0
  | b :: r => b.toNat + 256 * leNat r

/-- Byte `i` of a number, byte 0 the least significant. -/
def byteOf (v i : Nat) : Byte := BitVec.ofNat 8 (v >>> (8 * i))

/-- A byte as a signed number. -/
def sbyte (b : Byte) : Int := b.toInt

/-- A signed number saturated to a signed byte, −128 to +127 (R120). -/
def satByte (x : Int) : Byte := BitVec.ofInt 8 (max (-128) (min 127 x))

/-- Gray code of a pointer (R298). -/
def gray (p : BitVec 10) : BitVec 10 := p ^^^ (p >>> 1)

/-- The number of 1 bits among the low `n` bits of `v`. -/
def popCount : Nat → Nat → Nat
  | 0, _ => 0
  | n + 1, v => v % 2 + popCount n (v / 2)

/-- The number of 0 bits of a byte string (R108). -/
def zeroBits : List Byte → Nat
  | [] => 0
  | b :: r => (8 - popCount 8 b.toNat) + zeroBits r

/-- `n` copies of a byte, after the bytes given, up to a length. -/
def padTo (n : Nat) (b : List Byte) : List Byte := b ++ List.replicate (n - b.length) 0

/-- The slice of `len` bytes from position `i`. -/
def slice (b : List Byte) (i len : Nat) : List Byte := (b.drop i).take len

/-- Inverts the bits of a byte string whose positions (8·byte + bit) the list holds. -/
def flipBits (b : List Byte) (ps : List Nat) : List Byte :=
  ps.foldl (fun acc p => acc.set (p / 8) ((acc.getD (p / 8) 0) ^^^ (1#8 <<< (p % 8)))) b

end Sys2Proof.Machine
end

