-- ==== Sys2Proof/Machine/Tab.lean ====
section
/-! DEFINITION. Tables of plain data by key, and byte memory in one canonical form. -/

namespace Sys2Proof.Machine

/-- A table: at most one entry per key; a key without an entry holds the table's default. -/
abbrev Tab (κ α : Type) := List (κ × α)

/-- The entry of key `k`, or the default `d`. (DEDUCED, log entry 90.) -/
def Tab.get {κ α : Type} [DecidableEq κ] (t : Tab κ α) (k : κ) (d : α) : α :=
  match t with
  | [] => d
  | (k', a) :: r => if k' = k then a else Tab.get r k d

/-- The table with the entry of key `k` made `a`. -/
def Tab.set {κ α : Type} [DecidableEq κ] (t : Tab κ α) (k : κ) (a : α) : Tab κ α :=
  match t with
  | [] => [(k, a)]
  | (k', a') :: r => if k' = k then (k, a) :: r else (k', a') :: Tab.set r k a

/-- The table without the entries whose key satisfies `p`. -/
def Tab.drop {κ α : Type} (t : Tab κ α) (p : κ → Bool) : Tab κ α := t.filter (fun e => !p e.1)

/-- Inserts an element into a sorted list, after the elements that it does not precede. -/
def insertBy {α : Type} (lt : α → α → Bool) (a : α) : List α → List α
  | [] => [a]
  | b :: r => if lt a b then a :: b :: r else b :: insertBy lt a r

/-- A list sorted by `lt`; equal elements keep their order. -/
def sortBy {α : Type} (lt : α → α → Bool) (l : List α) : List α := l.foldl (fun acc a => insertBy lt a acc) []

/-- Byte memory: (address, byte) pairs, addresses strictly rising, no byte 0. An address that is not listed reads
0. -/
abbrev Memory := List Host.Cell

/-- The byte at an address. (DESIGN CHOICE, log entry 5.) -/
def Memory.read (m : Memory) (a : Nat) : Byte :=
  match m with
  | [] => 0
  | (a', b) :: r => if a' = a then b else Memory.read r a

/-- The memory with the byte at `a` made `b`, in canonical form. -/
def Memory.write (m : Memory) (a : Nat) (b : Byte) : Memory :=
  match m with
  | [] => if b = 0 then [] else [(a, b)]
  | (a', b') :: r =>
    if a < a' then (if b = 0 then (a', b') :: r else (a, b) :: (a', b') :: r)
    else if a = a' then (if b = 0 then r else (a, b) :: r)
    else (a', b') :: Memory.write r a b

/-- Every address listed is above `a`. -/
def Memory.above (m : Memory) (a : Nat) : Bool := m.all (fun c => a < c.1)

/-- The canonical form: addresses strictly rising, no byte equal to what an unlisted address reads as. -/
def Memory.wf : Memory → Bool
  | [] => true
  | (a, b) :: r => b ≠ 0 && Memory.above r a && Memory.wf r

/-- Writes bytes at consecutive addresses from `a`. -/
def Memory.writeList (m : Memory) (a : Nat) : List Byte → Memory
  | [] => m
  | b :: r => Memory.writeList (m.write a b) (a + 1) r

/-- Reads `n` bytes from `a`. -/
def Memory.readList (m : Memory) (a : Nat) : Nat → List Byte
  | 0 => []
  | n + 1 => m.read a :: Memory.readList m (a + 1) n

end Sys2Proof.Machine
end

