-- ==== Sys2Proof/Machine/State.lean ====
section
/-! DEFINITION. The state of the block as plain data: every register of the window, and every queue, buffer, item,
tenure, job and flag that the chapters of spec/ give the block beside its registers; and the state at reset.

Times are counted in units of 2⁻¹⁶ ns, the unit of the time base's fraction (R229). -/

namespace Sys2Proof.Machine

/-! ### Items (R41, R53, R66) -/

/-- A LUN, as a key of the tables below. -/
structure Lun where
  ch : Nat
  ce : Nat
  lun : Nat
  deriving DecidableEq, Repr

/-- The status codes of R69. -/
inductive Status where
  | ok | okLate | verifyFail | dieFail | uncorrectable | dmaFault | notIssuedPowerfail | interruptedPowerfail
  | abortedFence | channelFenced | dieTimeout | misaligned | forwardFail | mcheck
  deriving DecidableEq, Repr

/-- Where an item comes from: a ring pair of this unit, another unit (R264) with the handle of its frame, the patrol
scrub (R323), which makes no item in the sense of R41 but runs as one, or HK0's work on the boot twin for a BOOT_SWAP
(R337), one read, erase or program at a time. -/
inductive Origin where
  | host (k : Nat)
  | fwd (src : Nat) (handle : Nat)
  | patrol
  | boot
  deriving DecidableEq, Repr

/-- Which sense of an item is in hand: the first, a re-sense after a hold expiry (R111), the hard sense (j = 0) or
soft sense j of ladder step n (R118), or a margin read (R194). -/
inductive SenseKind where
  | first | again | ladder (n j : Nat) | margin
  deriving DecidableEq, Repr

/-- How far a quarter has come (R106–R112): not moved, in its slot, failed its local decode, final by a pass, erased
(R108), or uncorrectable. -/
inductive QState where
  | absent | moved | failed | passed | erased | unc
  deriving DecidableEq, Repr

/-- A quarter of a page being read: its state, grade (R127), corrected bits (R107), and whether its DMA entry has
delivered it, and delivered it poisoned. -/
structure Quarter where
  st : QState := .absent
  grade : Nat := 0
  corr : Nat := 0
  delivered : Bool := false
  poisoned : Bool := false
  /-- Its DMA entry has been made (R131). -/
  entered : Bool := false
  deriving DecidableEq, Repr

/-- One plane's page of an item: the plane, its row (R180), its slot (R313), its four quarters, and whether its global
slices are in the slot. -/
structure Page where
  plane : Nat := 0
  row : Nat := 0
  slot : Option Nat := none
  q : List Quarter := []
  glob : Bool := false
  /-- De-randomized columns that a ladder step has fetched: first column and bytes (R118). -/
  seg : List (Nat × List Byte) := []
  /-- The bytes of the parity area as its writers left them, once it has been written (R309, R312). -/
  par : List Byte := []
  deriving DecidableEq, Repr

/-- Where an item stands.
`waitStore`: held by its teller while the sequencer's store is full (R171). `queued`: in a LUN queue. `launch`: its
launch tenure is asked for or on the bus. `sense`, `program`, `erase`: in that array phase, suspended or not. `other`:
a feature, reset, status or routine operation is on its LUN. `needXfer`: sensed, its data-out not yet begun. `xfer`:
data-out on the bus. `decode`: its quarters wait for decoding. `needSense`: waits for its LUN at the head of the queue
for a further sense. `deliver`: its quarters wait for DMA. `timed`: uses no LUN queue and waits for its tick (R236).
`group`: carried out by HK1, HK0 or a group (R204). `fence`: a FENCE that waits (R74). `forwarded`: carried out by
another unit (R77). `waitHk`: waits for HK0 or HK1, which is stopped (R351). `hold`: its receipt is composed (R43). -/
inductive Stage where
  | waitStore | queued | launch | sense | needXfer | xfer | decode | needSense | program | erase | other | deliver
  | timed | group | fence | forwarded | waitHk | hold
  deriving DecidableEq, Repr

/-- An item in flight (R41) or a patrol read (R323). -/
structure Item where
  id : Nat
  origin : Origin
  pkt : Packet
  /-- Host ring level carried with the item. -/
  level : Nat
  teller : Nat
  lun : Lun
  /-- Launch reference in ticks (R56). -/
  launchRef : Nat
  strength : Nat
  ladder : Option Nat
  cls : Nat
  /-- Class of a COPY's destination LUN, as read at the check (R156). -/
  dstCls : Nat := 0
  costSet : Nat
  /-- Cost set of a COPY's destination LUN, as read at the check (R208). -/
  dstSet : Nat := 0
  stage : Stage
  sense : SenseKind := .first
  pages : List Page := []
  /-- Slots of the soft senses of the ladder step in hand (R313). -/
  softSlots : List Nat := []
  /-- A program's data is committed and its parity pass has ended (R172). -/
  dataReady : Bool := false
  /-- Quarters of a program committed so far, over all planes. -/
  committed : Nat := 0
  launched : Bool := false
  /-- Set aside by arming (R232). -/
  armed : Bool := false
  /-- The launch gate has opened for it, and its launch tenure has not begun (R232, R235). -/
  gateOpen : Bool := false
  /-- A COPY in its destination part (R60); a relocation in its program part (R324). -/
  second : Bool := false
  /-- Escalation is wanted (R112) or its transfer has ended. -/
  escWant : Bool := false
  escDone : Bool := false
  /-- Its first transfer has begun, and has ended. -/
  xferBegun : Bool := false
  xferDone : Bool := false
  /-- Its decode hold expired (R111). -/
  holdExpired : Bool := false
  /-- Statuses that apply (R70). -/
  marks : List Status := []
  check : Nat := 0
  dieStatus : Byte := 0
  suspends : Nat := 0
  iters : Nat := 0
  decoded : Bool := false
  softStep : Nat := 0
  softUsed : Nat := 0
  /-- Grade and corrected bits of each quarter of a COPY's source, kept through its margin read (R66, R71). -/
  srcGrade : Nat := 0
  srcCorr : List Nat := []
  /-- Tick at which its first command cycle began (R66, R233). -/
  launchTickAt : Option Nat := none
  /-- Ledger wait so far, in time units (R175, R215). -/
  ledgerWait : Nat := 0
  result : W32 := 0
  deliveryUnknown : Bool := false
  /-- Tick at which an item without LUN queue took effect, if not the tick of its end (R236). -/
  doneTick : Option Nat := none
  /-- Its channel was lost while its data was in a bank (R500). -/
  lost : Bool := false
  /-- DMA channel that holds its entries (R286). -/
  dma : Option Nat := none
  /-- The ladder step entry in hand, as read when the step began: word 0, and LAST (R123). -/
  stepW0 : W64 := 0
  stepLast : Bool := false
  /-- The read levels of its first sense (R111). -/
  levels : Option W32 := none
  /-- Bytes of its transfer received before an interruption, after which it continues (R177). -/
  xferGot : Option Nat := none
  deriving DecidableEq, Repr

/-! ### LUNs and buses (R171–R187) -/

/-- The activity codes of CH_LUN_STATE (R176), in code order. -/
inductive Act where
  | idle | launch | sense | transfer | hold | program | erase | suspending | resuming | other
  deriving DecidableEq, Repr

/-- One LUN's scheduling state beside its NOSUSP bit. -/
structure LunSt where
  act : Act := .idle
  /-- SUSPENDED: 0 none, 1 a program, 2 an erase (R176). -/
  susp : Nat := 0
  halted : Bool := false
  resetDue : Bool := false
  suspCount : Nat := 0
  /-- Items that wait, in order of arrival (R172). -/
  queue : List Nat := []
  /-- Launched items that wait for the LUN at the head of its queue (R111, R118, R194). -/
  head : List Nat := []
  /-- The item that uses the LUN. -/
  cur : Option Nat := none
  /-- The item whose program or erase is running, suspending or suspended. -/
  array : Option Nat := none
  /-- The next item of a cache chain (R182, R183): sensing or programming behind the current item. -/
  chain : Option Nat := none
  /-- Offsets last written to the LUN, if known (R124). -/
  offs : Option W32 := none
  /-- The offsets whose write is on the LUN (R124). -/
  offsWant : Option W32 := none
  /-- When the phase began or was last resumed, and the running time before its last suspend (R152, R184). -/
  phaseStart : Nat := 0
  ranBefore : Nat := 0
  /-- Order stamp of the last start or resume (R219). -/
  startOrd : Nat := 0
  /-- The ledger or power-fail ordered the suspend; the ledger's bars the resume (R220). -/
  ledgerSusp : Bool := false
  /-- The suspend on the LUN is one that the ledger or power-fail ordered (R420). -/
  suspOrd : Bool := false
  /-- A suspend that the ledger or power-fail has ordered and the bus has not begun (R218, R198). -/
  suspWant : Bool := false
  /-- A reset of R200 is on the LUN. -/
  resetRun : Bool := false
  /-- When the hold began, the end of the last transfer (R110); none before the first transfer. -/
  holdStart : Option Nat := none
  /-- Coins that the suspended phase held before its suspend, and when the suspend tenure ended (R184, R210). -/
  suspCoins : Nat := 0
  /-- Those of them that its confirmed next page of a cache chain held. -/
  suspChain : Nat := 0
  suspAt : Nat := 0
  /-- Cache program (R183): the next page is confirmed; the cache register is free; the page offered after it. -/
  chainConf : Bool := false
  chainRdy : Bool := false
  chainNext : Option Nat := none
  /-- Cache read (R182): the offset write for the next page is on the die and has not shown RDY. -/
  chainOffs : Bool := false
  /-- The page in the die's page register, sensed by cache read, needs the cache read end before its data-out (false), or the
  die has shown RDY after it (true); no cache read follows (R182). -/
  readEnd : Option Bool := none
  /-- When the next status poll is due. -/
  pollAt : Option Nat := none
  deriving DecidableEq, Repr

/-- The kinds of bus tenure (R176–R178). -/
inductive TenKind where
  | launch | dataOut | poll | suspend | resume | feature | getData | reset | routine | cacheEnd
  deriving DecidableEq, Repr

/-- A bus tenure, asked for or on the bus: kind, LUN, item, class of R178, and whether its confirm cycle is sent. -/
structure Tenure where
  kind : TenKind
  lun : Lun
  item : Option Nat := none
  cls : Nat
  confirmed : Bool := false
  /-- For a data-out: it was interrupted and continues (R177). -/
  resumed : Bool := false
  /-- A launch through the open gate: nothing comes before it (R232, R235). -/
  gated : Bool := false
  /-- A write of these read-level offsets to the LUN; of an item's sense, those that it needs as the write begins (R121,
  R124). -/
  offs : Option W32 := none
  deriving DecidableEq, Repr

/-- Pins that R167 drives and releases together: CE_N and WP_N; WE_N, RE, CLE and ALE; DQ and DQS with them. -/
inductive PinSet where
  | selects | strobes | data
  deriving DecidableEq, Repr

/-- What a channel does on its pins, in the order done (R145–R147, R167): pins driven to their idle levels, pins
released, a wait in ns, a chip enable selected (none: every CE_N high), a command cycle, an address cycle, data input from
a column on, data output of a number of bytes, and status polls repeated until RDY = 1. -/
inductive BusCyc where
  | drive (p : PinSet)
  | release (p : PinSet)
  | wait (ns : Nat)
  | select (ce : Option Nat)
  | cmd (b : Byte)
  | addr (b : Byte)
  | input (col : Nat) (b : List Byte)
  | output (n : Nat)
  | pollRdy
  deriving DecidableEq, Repr

/-- A channel's bus: the tenure on it, the tenures asked for (oldest first), the launch gate (R232), the SEQUENCE routine
in progress, the chip enable whose CE_N is low (R147), and the bus cycles of the tenure that began last (R145). -/
structure ChanSt where
  bus : Option Tenure := none
  want : List Tenure := []
  gate : Option Nat := none
  /-- The SEQUENCE item whose routine runs (R355). -/
  routine : Option Nat := none
  ce : Option Nat := none
  /-- The chip enable whose CE_N rose last, and when (R147). -/
  ceUp : Option (Nat × Nat) := none
  sent : List BusCyc := []
  /-- The item whose page image waits in FLASH_OUT (R301). -/
  out : Option Nat := none
  /-- WP_RELEASE as it was before a write that waits for the bus cycle in progress (R155). -/
  wpHeld : Option Bool := none
  deriving DecidableEq, Repr

/-! ### The ledger (R206–R228) -/

/-- What holds coins: an arming set-aside (R232), a program's launch set-aside (R210), a grant whose tenure has not
begun, or a charge. -/
inductive CoinSort where
  | aside | launchAside | granted | charged
  deriving DecidableEq, Repr

/-- Coins that a LUN's work holds on one ledger: `q` tells the VCCQ ledger from the VCC ledger. -/
structure Coin where
  lun : Lun
  item : Option Nat
  sort : CoinSort
  q : Bool
  n : Nat
  deriving DecidableEq, Repr

/-- What a request to the ledger is for (R210), or an arming set-aside (R232). -/
inductive AskKind where
  | launch | sense | resume | transfer | aside
  deriving DecidableEq, Repr

/-- A request to the ledger (R212): LUN, item, purpose, class, the class of the tenure it is for (R178), its cost on each
ledger it concerns, and, while it is presented, when it was first presented. -/
structure Ask where
  lun : Lun
  item : Nat
  kind : AskKind
  cls : Nat
  tenCls : Nat
  vcc : Option Nat
  vccq : Option Nat
  since : Option Nat := none
  /-- A round has passed in which it was presented and not granted (R215). -/
  waited : Bool := false
  /-- Its wait up to the last hold of its group, and when it began to count again after it (R450). -/
  banked : Nat := 0
  runFrom : Option Nat := none
  deriving DecidableEq, Repr

/-- The ledger beside its registers. -/
structure Ledger where
  asks : List Ask := []
  coins : List Coin := []
  /-- End of CUT_HOLD_US, while it counts (R217). -/
  holdEnd : Option Nat := none
  /-- Order stamp of the last phase that started or resumed (R219). -/
  ord : Nat := 0
  /-- Number of the last exchange that the unit saw (R261). -/
  exch : Nat := 0
  /-- The thousand of ticks at which the master may begin its next exchange (R227). -/
  exchAt : Nat := 0
  /-- The ring-wide budget runs (R226), and this unit takes part in it with a holding. -/
  ringRun : Bool := false
  ringIn : Bool := false
  /-- The whole pool to report as given up at the next exchange, after a yield (R262). -/
  yieldPool : Nat := 0
  deriving DecidableEq, Repr

/-! ### Decode pools (R132) -/

inductive JobKind where
  | loc (q : Nat) | glob | soft
  deriving DecidableEq, Repr

/-- A decode job: kind, item, index of the page in the item, class of R132, pool, channel and LUN class (R468). -/
structure Job where
  kind : JobKind
  item : Nat
  page : Nat
  cls : Nat
  poolB : Bool
  ch : Nat := 0
  lunCls : Nat := 0
  deriving DecidableEq, Repr

/-! ### DMA, FIFOs and H_INI -/

/-- A DMA entry of an item (R286): page and quarter, or the whole image of a READ_RAW (`q = 4`). -/
structure Entry where
  item : Nat
  page : Nat
  q : Nat
  deriving DecidableEq, Repr

/-- One entry of a descriptor list as read (R289). -/
structure ListEnt where
  addr : Nat
  len : Nat
  fixed : Bool
  last : Bool
  deriving DecidableEq, Repr

/-- The ring-mode descriptor in progress (R279): its bytes, the source data that has arrived and is not taken yet (by offset,
with one poison flag per line), the offset taken next, the bytes moved to the destination (MOVED), RESULT, once decided,
and whether it has ended and only its writeback waits (R281). -/
structure DescRun where
  bytes : List Byte
  got : List (Nat × List Byte × List Bool) := []
  next : Nat := 0
  moved : Nat := 0
  poison : Bool := false
  result : Option Nat := none
  /-- Its move has begun. -/
  begun : Bool := false
  ended : Bool := false
  deriving DecidableEq, Repr

/-- What an H_INI request serves (R371). Data requests carry their byte offset in the packet or move; item data writes
carry the TAG and pair that DC_LATE may record. `ringLate`: the data write of a descriptor that has ended. `dropped`: the
front end that issued it has stopped. `lost`: its registers were reset as well. `fetchDropped`: the fetch of a pair that is no longer served. -/
inductive HiUse where
  | packetFetch (k : Nat)
  | fetchDropped (k : Nat)
  | listFetch (d item : Nat)
  | descFetch (d : Nat)
  | progData (d item page q off : Nat)
  | ringRead (d idx off : Nat)
  | receipt (k slot item : Nat)
  | readData (d item page q tag pair : Nat)
  | descBack (d idx : Nat)
  | ringWrite (d idx : Nat)
  | ringLate (d idx : Nat)
  | dropped
  | lost
  deriving DecidableEq, Repr

/-- An H_INI request (R363, R365): waiting for a credit or outstanding. `data` is a write's bytes or the bytes a read
has returned so far; `poison` holds one flag per 64-byte line of them; `beats` counts the beats returned, `err` tells that
one of them carried an error, and `done` that the last has arrived. -/
structure HiReq where
  write : Bool
  /-- Half · 32 + source of R369. -/
  src : Nat
  id : Nat := 0
  addr : Nat
  len : Nat
  ring : Nat
  attr : Nat
  use : HiUse
  data : List Byte := []
  poison : List Bool := []
  beats : Nat := 0
  err : Bool := false
  done : Bool := false
  /-- 1 teller class; 2 DMA data (R274). -/
  cls : Nat := 2
  deriving DecidableEq, Repr

/-- A DMA channel beside its registers. -/
structure DmaSt where
  queue : List Entry := []
  cur : Option Entry := none
  /-- The HOST_OUT packet of the entry in progress has reached its threshold (R302). -/
  going : Bool := false
  /-- A write of the entry in progress failed (R292). -/
  failed : Bool := false
  /-- A fault of the descriptor list at which the move of the entry in progress stops (R290). -/
  stop : Option Status := none
  /-- The requests of the move in progress that are not through the burst buffer, and the beats of the first that the pump
  has put there (R273, R274). -/
  move : List HiReq := []
  filled : Nat := 0
  /-- Program data that has arrived and waits in the burst buffer for HOST_IN: by offset, with one poison flag per line
  (R275). -/
  inBuf : List (Nat × List Byte × List Bool) := []
  /-- The descriptor list as fetched so far: its item, its entries, how many were read, and its end seen (R289). -/
  listOf : Option Nat := none
  list : List ListEnt := []
  listRead : Nat := 0
  listEnd : Bool := false
  desc : Option DescRun := none
  /-- DC_KICK arrived while a fetch was outstanding (R280). -/
  kicked : Bool := false
  deriving DecidableEq, Repr

/-- A line of a staging FIFO (R297). -/
structure FifoLine where
  data : List Byte := []
  poison : Bool := false
  last : Bool := false
  /-- Of a read-class packet closed before its end (R303). -/
  disc : Bool := false
  deriving DecidableEq, Repr

/-- A packet that a detached consumer has not taken (R305): in HOST_IN its DMA channel, item, page and quarter, and its bytes
with one poison flag per line; in FLASH_IN the item and the bytes of its transfer. -/
structure Parked where
  dma : Nat
  item : Nat
  page : Nat
  q : Nat
  data : List Byte
  poison : List Bool
  deriving DecidableEq, Repr

/-- The packet that the producer of HOST_OUT has begun and the DMA channel has not (R302): its DMA channel, entry, first line
and the lines written so far. -/
structure OutPkt where
  dma : Nat
  item : Nat
  page : Nat
  q : Nat
  start : BitVec 10
  made : Nat
  deriving DecidableEq, Repr

/-- A staging FIFO (R298): write, commit and consumer pointers, its 512 lines, the word the debug port pops next and
the value it popped last (R305), and whether a line was popped since the consumer was detached. -/
structure Fifo where
  wr : BitVec 10 := 0
  commit : BitVec 10 := 0
  cons : BitVec 10 := 0
  lines : Tab Nat FifoLine := []
  word : Nat := 0
  popped : W64 := 0
  touched : Bool := false
  parked : List Parked := []
  /-- The DMA channel that holds the host end of HOST_IN (R275), and the packet in HOST_OUT. -/
  holder : Option Nat := none
  pkt : Option OutPkt := none
  deriving DecidableEq, Repr

/-- H_INI: credits, requests that wait for one, and requests outstanding, oldest first; per half and priority the channel
that its pump served last (at 4, of all), and the half whose request was taken last (R274). -/
structure HiSt where
  rdCred : Nat := 0
  wrCred : Nat := 0
  waiting : List HiReq := []
  reads : List HiReq := []
  writes : List HiReq := []
  turn : Tab (Nat × Nat) Nat := []
  lastHalf : Nat := 1
  deriving DecidableEq, Repr

/-! ### Ring pairs and receipts -/

/-- A ring pair beside its registers. -/
structure RingSt where
  /-- A packet fetched and not yet routed (R41, R72). -/
  wait : Option Packet := none
  /-- The item whose FENCE_AFTER holds the next packet (R73). -/
  fenceAfter : Option Nat := none
  /-- Receipts written and not yet returned through RQ_HEAD (R42). -/
  unret : Nat := 0
  /-- Slots past RQ_TAIL whose receipt write was answered OKAY (R51). -/
  okSlots : List Nat := []
  /-- Receipts written since IRQ_PEND was last cleared, and when the first of them was written (R47). -/
  written : Nat := 0
  firstAt : Option Nat := none
  deriving DecidableEq, Repr

/-- A receipt in the hold (R43): pair, item, its 32 bytes (bit 7 of byte 28 is filled when it is written), whether
RCPT_IRQ was set, the slot it is written to, and whether it is a relocation receipt. -/
structure HeldRcpt where
  pair : Nat
  item : Nat
  bytes : List Byte
  rcptIrq : Bool
  slot : Option Nat := none
  reloc : Bool := false
  deriving DecidableEq, Repr

/-- A FENCE in effect (R74): its item, scope, pair, teller, and the items it waits for. -/
structure FenceRun where
  item : Nat
  scope : Nat
  pair : Nat
  teller : Nat
  waits : List Nat
  deriving DecidableEq, Repr

/-! ### Staging memory (R308–R313) -/

/-- What a 64-byte line carries beside its data: INIT, the poison tag, and per word the bits in which its stored data
and its stored check bits differ from a good word (R309, R315). -/
structure LineMeta where
  init : Bool := false
  poison : Bool := false
  /-- (word, data flips, check flips); words not listed are good. -/
  flips : List (Nat × W64 × Byte) := []
  deriving DecidableEq, Repr

/-- A request for slots that waits (R313): item, how many, and whether they are soft slots. -/
structure SlotAsk where
  item : Nat
  count : Nat
  soft : Bool
  deriving DecidableEq, Repr

/-- Staging memory. Bytes: bank b, row r at b·2²¹ + r·4096, and spare row e of bank b at 2²⁵ + b·2¹⁵ + e·4096; lines by
that address over 64. -/
structure Staging where
  mem : Memory := []
  lines : Tab Nat LineMeta := []
  /-- Slots held: slot number (bank · 102 + index) and item. -/
  held : List (Nat × Nat) := []
  asks : List SlotAsk := []
  /-- The next line that the SRAM scrubber visits (R319). -/
  scrubAt : Nat := 0
  deriving DecidableEq, Repr

/-! ### Patrol scrub and boot twin (R321–R339) -/

/-- An entry of a spare pool (R325). -/
structure PoolEnt where
  row : Nat
  ceLun : Byte
  deriving DecidableEq, Repr

/-- A relocation under way (R324), or a page that could not be relocated: the patrol item, the entry taken, the strength
of the new page, and what the patrol read found: LUN, row, grade and largest corrected-bit count. -/
structure Reloc where
  item : Nat
  ent : Option PoolEnt := none
  strength : Nat := 0
  oldLun : Lun
  oldRow : Nat
  grade : Nat
  corrMax : Nat
  newValid : Bool := false
  deriving DecidableEq, Repr

/-- A relocation receipt to be composed once fewer than 64 are held (R327): its item as it ended, and POOL_EMPTY. -/
structure RelocWait where
  it : Item
  reloc : Reloc
  empty : Bool
  deriving DecidableEq, Repr

/-- The patrol scrub beside its registers: the settings of the START in force (R321), its tag, the pools, the place of
the next target within INDEX, the patrol reads and relocations under way, and the relocation receipts held (R327). -/
structure Patrol where
  pair : Nat := 0
  relocGrade : Nat := 0
  thresh : Nat := 0
  rate : Nat := 1
  tag : BitVec 16 := 0
  /-- When the next patrol read may launch (R322). -/
  nextAt : Nat := 0
  pools : Tab Nat (List PoolEnt) := []
  target : Nat := 0
  relocs : List Reloc := []
  receipts : List HeldRcpt := []
  waiting : List RelocWait := []
  deriving DecidableEq, Repr

/-- Where a BOOT_SWAP stands (R337): reading the header of a block, erasing the target, programming the header or an
image page, reading them back, or reloading. -/
inductive SwapStep where
  | header (b : Nat) | erase | progHeader | progImage (p : Nat) | readHeader | readImage (p : Nat) | reload
  deriving DecidableEq, Repr

/-- A BOOT_SWAP in progress: its item, operand and step, the valid generation found in block 0, the target block and
new generation, IMAGE_CRC, and the running CRC of the image pages read back. -/
structure Swap where
  id : Nat
  src : Nat
  len : Nat
  strength : Nat
  reload : Bool
  step : SwapStep := .header 0
  gen0 : Option Nat := none
  target : Nat := 0
  gen : Nat := 0
  crc : Nat := 0
  run : Nat := 0
  deriving DecidableEq, Repr

/-- The fields of a valid header of the boot twin (R330). -/
structure BootHdr where
  gen : Nat
  len : Nat
  strength : Nat
  crc : Nat
  deriving DecidableEq, Repr

/-- What a load of the shadow reads next (R332): a header, a page of a block's image, or nothing more. -/
inductive LoadStep where
  | header (b : Nat) | image (b p : Nat) | done
  deriving DecidableEq, Repr

/-- A load of the shadow (R332): its step, the item that carries it out, the valid headers and header codes of the two blocks,
the blocks whose images are still to be tried, the running CRC, and the block that is loaded. -/
structure Load where
  step : LoadStep := .header 0
  item : Option Nat := none
  hdr0 : Option BootHdr := none
  hdr1 : Option BootHdr := none
  code0 : Nat := 15
  code1 : Nat := 15
  left : List Nat := []
  run : Nat := 0
  block : Option Nat := none
  deriving DecidableEq, Repr

/-- A BOOT_SWAP in progress (R337) and the load in progress: `load` is what a reload has read, and `reload` tells a load of R339 or of step 7 of R337 from
one at start-up (R332). -/
structure Boot where
  swap : Option Swap := none
  reload : Bool := false
  load : Option Load := none
  /-- When HK0 powered the boot group up for the load of the start-up sequence, and when VDDQ_CGk was first present after
  that (R436). -/
  upAt : Option Nat := none
  vddqAt : Option Nat := none
  /-- Window accesses held while the shadow loads (R333), with the places of their responses. -/
  heldAcc : List (HostAccess × Nat) := []
  deriving DecidableEq, Repr

/-! ### Engine microcode (R341–R350) -/

/-- The micro-state of an engine (R341, R344, R349) beside MC_ENG and MC_FRAME. (DESIGN CHOICE, log entry 93.) -/
structure Micro where
  upc : BitVec 14 := 0
  lc : List (BitVec 16) := [0, 0, 0, 0]
  flags : Byte := 0
  zero : Bool := false
  carry : Bool := false
  neg : Bool := false
  s : List W32 := [0, 0, 0, 0, 0, 0, 0, 0]
  stack : List (BitVec 14) := []
  masked : Bool := false
  /-- Causes of R347 that pend. -/
  pend : List Nat := []
  /-- A trap handler runs. -/
  handler : Bool := false
  timer : Nat := 0
  /-- A WAIT word repeats. -/
  waiting : Bool := false
  portIn : W32 := 0
  portOut : W32 := 0
  /-- Cycles after which MASK lapses (R348). -/
  maskFor : Nat := 0
  /-- The cause of the trap taken last (DISPATCH 0x02, R344). -/
  cause : Nat := 0
  /-- The address of the word that stopped the engine (R351). -/
  stopAt : BitVec 14 := 0
  /-- What PORT_OP WRITE last put into each port, and the port that STROBE started last (R344). -/
  ports : Tab Nat W32 := []
  strobe : Option Nat := none
  deriving DecidableEq, Repr

/-! ### The Xaram ring (R240–R270) -/

/-- The content of a ring frame (R243); frames with a sequence number carry their destination, SEQ and RETRY. -/
inductive TxFrame where
  | enum (addr nonce count : Nat)
  | presence (p : Presence)
  | allot (exch : Nat) (allot : List Nat)
  | timeReq (hop : Nat)
  | timeRsp (hop t2 t3 : Nat) (offset : Int) (dist : Nat)
  | step (d : Int)
  | bcast (p : Packet)
  | fwdPkt (dst seq : Nat) (retry : Bool) (p : Packet) (handle level : Nat)
  | fwdAck (dst handle : Nat)
  | fwdRcpt (dst seq : Nat) (retry : Bool) (handle : Nat) (r : List Byte)
  | rcptAck (dst handle : Nat)
  deriving DecidableEq, Repr

/-- The three precedences of R244: the time exchange of a hop, frames passing through, frames that the unit originates. -/
inductive TxClass where
  | time | pass | own
  deriving DecidableEq, Repr

/-- A frame that waits for its outgoing lane (R244), and since when. -/
structure TxWait where
  lane : Nat
  cls : TxClass
  hdr : FrameHdr
  body : TxFrame
  since : Nat
  deriving DecidableEq, Repr

/-- A frame put on an outgoing lane (R240, R243): its header with CRC-32, its content, when its start block left, and the
state of the lane's scrambler at that block. -/
structure TxOut where
  lane : Nat
  hdr : FrameHdr
  body : TxFrame
  at_ : Nat
  scr : W64
  deriving DecidableEq, Repr

/-- An incoming lane (R240, R241): block lock, the high bit-error-rate monitor, when it last delivered a valid frame, and
its block errors. -/
structure RxLane where
  lock : Bool := false
  hiBer : Bool := false
  lastFrame : Option Nat := none
  blockErrs : Nat := 0
  deriving DecidableEq, Repr

/-- An outgoing lane (R244): when its last frame has left, the frames passed in a row while one of its own waited, and the
state of its scrambler when that frame had left, if one has left since its output was last idle (R240). -/
structure TxLane where
  freeAt : Nat := 0
  passed : Nat := 0
  scr : Option W64 := none
  deriving DecidableEq, Repr

/-- An item that this unit forwarded (R264): item, destination, whether it is sent, its sequence number, whether it is
acknowledged, and when it was last sent. -/
structure FwdOut where
  item : Nat
  dst : Nat
  sent : Bool := false
  seq : Nat := 0
  acked : Bool := false
  at_ : Nat := 0
  deriving DecidableEq, Repr

/-- A receipt that this unit returns to an origin (R265), until it is acknowledged. -/
structure RcptOut where
  handle : Nat
  dst : Nat
  seq : Nat
  bytes : List Byte
  at_ : Nat
  deriving DecidableEq, Repr

/-- A packet in the intake (R264). -/
structure IntakeEnt where
  src : Nat
  handle : Nat
  level : Nat
  pkt : Packet
  deriving DecidableEq, Repr

/-- The Xaram ring port beside its registers. -/
structure RingPort where
  nonce : Nat := 0
  enumRun : Bool := false
  /-- Present maps of the last four PRESENCE frames, newest first (R253), and when the last came. -/
  maps : List Nat := []
  lastPres : Nat := 0
  claim : Bool := false
  joining : Bool := false
  credits : Tab Nat Nat := []
  seqTx : Tab Nat Nat := []
  seqRx : Tab Nat Nat := []
  intake : List IntakeEnt := []
  fwd : List FwdOut := []
  rcpts : List RcptOut := []
  /-- Ring-wide items received that wait for their tick (R263). -/
  bcasts : List Packet := []
  /-- t1 of the TIME_REQ outstanding on each hop: 0 up, 1 down (R257). -/
  t1 : Tab Nat Nat := []
  /-- Distance to the master that each neighbour reported (R257). -/
  dist : Tab Nat Nat := []
  /-- Offset from the master and correction of the increment, in units of 2⁻¹⁶ ns (R229, R257). -/
  offset : Int := 0
  corr : Int := 0
  /-- Step that a STEP frame announced and the next exchange applies (R260). -/
  step : Option Int := none
  /-- It follows a master that it knew as present and that may be of another part of the ring: the first offset measured tells
  (R259). -/
  judge : Bool := false
  /-- The incoming and the outgoing lanes (R240, R241, R244), and the frames that wait for an outgoing lane. -/
  rx : Tab Nat RxLane := []
  tx : Tab Nat TxLane := []
  txq : List TxWait := []
  /-- When each lane that went down came up again, and the lanes whose loss the unit wraps for (R251, R252). -/
  upAt : Tab Nat Nat := []
  lost : List Nat := []
  /-- When a PRESENCE frame last came on lane 1 (R251). -/
  foldSeen : Option Nat := none
  /-- The address that the enumeration in progress gives the unit (R246, R248). -/
  enumAddr : Option Nat := none
  /-- Hops that the ENUM frame had come from the head: the first PRESENCE frame after the enumeration comes as many (R248). -/
  enumHops : Nat := 0
  /-- The start of the ring-wide budget goes out with the next PRESENCE frame (R226). -/
  startDue : Bool := false
  /-- Exchange in which this unit takes part and for which it has seen no ALLOT frame (R261). -/
  exchWait : Option Nat := none
  deriving DecidableEq, Repr

/-! ### H_TGT (R374–R381) and the half link (R23–R28) -/

/-- Where an access's response goes: next in order; at a place kept for it while it was held; or it is given already, as
for a held write (R24). -/
inductive RspSlot where
  | fresh | kept (i : Nat) | given
  deriving DecidableEq, Repr

/-- A response on H_TGT (R376): error code, data, poison, and whether it answers a write. -/
structure TgtRsp where
  err : Nat
  data : W64
  poison : Bool
  write : Bool
  deriving DecidableEq, Repr

/-- A shared-state request held at the half link (R23, R24): an access with the place of its response, a shared-state
packet that a teller routed (R19) or the intake passed on (R270), or a ring-wide packet received (R263). -/
inductive HeldReq where
  | access (q : HostAccess) (sl : RspSlot)
  | item (id : Nat)
  | packet (p : Packet)
  deriving DecidableEq, Repr

/-- The host side of the block: the H_TGT responses, in the order in which their requests were accepted (none: the request
is held, and the responses after it wait with it, R375), the split-read shadow of each
requester with the address it was read at (R379), and the requests held at the half link (R23).
(DESIGN CHOICE, log entry 15.) -/
structure HostPort where
  rsp : List (Option TgtRsp) := []
  shadow : Tab Nat (Nat × W32) := []
  held : List HeldReq := []
  /-- A handover is in progress past its cycle 2 (R23). -/
  handover : Bool := false
  /-- The front end that stopped during it, if it has not become up again. -/
  ownerStopped : Bool := false
  /-- A front end that became up during a handover away from its half and claims (R25). -/
  claims : Bool := false
  /-- When a front end last became up and owned because neither was (R26). -/
  firstUp : Option Nat := none
  deriving DecidableEq, Repr

/-! ### Modes, power, clocks and pins (R414–R440) -/

/-- The stored modes of R34. SERVICE is not stored: it is ACTIVE with a fence bit set (R38). -/
inductive Mode where
  | off | standby | ready | active | test
  deriving DecidableEq, Repr

/-- Where a transition or the start-up sequence stands (R433, R436, R438): waiting at step 1 for PSW_ACK[0], at step 2, waiting for the fallback
oscillator at step 3, powering up domains (start-up step 4, a transition to ACTIVE, a transition to READY), waiting for
the core PLL at step 5, waiting for engines to finish before READY, running BIST before OFF, or entering TEST. -/
inductive Phase where
  | step1 | step2 | step3 | step4 | step5 | toActive | toReadyDrain | toReadyUp | offBist | toTest
  deriving DecidableEq, Repr

/-- Modes, power switches, clocks and the input pins as synchronised. -/
structure Power where
  mode : Mode := .off
  phase : Option Phase := none
  /-- PORESET_N and SYSRESET_N are asserted (low); PD_AON is in retention (R438). -/
  poreset : Bool := true
  sysreset : Bool := false
  retention : Bool := false
  pswEn : BitVec 20 := 1
  pswAck : BitVec 20 := 1
  /-- When each PSW_EN last changed (R404). -/
  pswAt : Tab Nat Nat := []
  /-- Domains that have reached the last row of R426, by PSW bit. -/
  up : BitVec 20 := 0
  /-- Domains still to be powered up, in order; the first may be waiting for its acknowledgement (R426). -/
  queue : List Nat := []
  supply : BitVec 17 := 1
  /-- Straps as sampled (R409): RING_HEAD in bit 0, BOOT_SEL in [4:1], LC_STATE in [8:5]. -/
  straps : BitVec 9 := 0
  /-- How often the levels at the strap inputs have changed (R410): the model's own count. -/
  strapGen : Nat := 0
  /-- The filtered PWR_WARN and the synchronised LEDGER_CUT. -/
  warn : Bool := false
  cutPin : Bool := false
  fallbackRun : Bool := false
  /-- Source being switched from while SWITCHING is 1 (R417), and when start-up step 3 began (R436). -/
  switchFrom : Option Nat := none
  step3At : Nat := 0
  /-- HK0 holds the boot group powered for a boot load (R437). -/
  bootGroup : Bool := false
  /-- PD_HK drives TEMP_ALERT_N low (R408, R446). -/
  alertLow : Bool := false
  deriving DecidableEq, Repr

/-- A group bring-up in progress (R158): the step, per channel of the group the chip enables still to take the step, the
channels taking part, and those that failed the retraining. -/
structure Bringup where
  step : Nat
  part : List Nat
  /-- Per channel taking part: chip enables still to end the step. -/
  left : List (Nat × List Nat)
  /-- The bring-up waits at a step boundary (R161). -/
  paused : Bool := false
  /-- Channels on which a chip enable failed the retraining at XR_RATE (R163). -/
  xrFail : List Nat := []
  deriving DecidableEq, Repr

/-- A channel group beside its registers: a bring-up in progress, whether the last one ended at STOP_AT_ID (R159), and
the calibration state of R445–R453. -/
structure Group where
  bringup : Option Bringup := none
  stopped : Bool := false
  /-- The rate code at which the group runs (R143): a change of the register takes effect at a bring-up. -/
  rate : Nat := 0
  /-- Its PHY PLL runs (R416). -/
  pll : Bool := false
  /-- Channels that were disabled or fenced since the pending run's trigger (R452). -/
  calOut : List Nat := []
  /-- A run is pending (R445): it waits for a boundary or for a bring-up to end. -/
  calPending : Bool := false
  trigAt : Nat := 0
  retryUntil : Option Nat := none
  calItems : List Nat := []
  applyItems : List Nat := []
  staged : Tab (Nat × Nat) W64 := []
  /-- When the group's buses became free of tenures other than polls (R448). -/
  freeSince : Nat := 0
  /-- The end of the hold in which staged trims settle after their boundary (R453). -/
  settleUntil : Option Nat := none
  deriving DecidableEq, Repr

/-- BIST and the test wrapper beside their registers (R471–R483): the steps of the plan still to end, the first of them
in hand, and when it began; the wrapper instruction, its data register, the next word of RESULT_READ, the slice whose
chains are connected, and SCAN_OUT. -/
structure TestSt where
  plan : List Nat := []
  stepAt : Nat := 0
  wir : Nat := 0
  wdr : W64 := 0
  readIdx : Nat := 0
  slice : Option Nat := none
  scanOut : W64 := 0
  deriving DecidableEq, Repr

/-! ### The state -/

/-- The state of the block. (DESIGN CHOICE, log entry 6.) -/
structure State where
  /-- Commands that wait, first in, first out. -/
  pending : List Instr := []
  /-- Registers that differ from, or were written since, their reset value, by instance. Fields that mirror other
  state are computed when read (Sys2Proof.Machine.readReg). -/
  regs : Tab Reg W64 := []
  /-- The time base and the fine time base, in units of 2⁻¹⁶ ns (R229, R230). -/
  tb : Nat := 0
  fine : Nat := 0
  /-- The time that has passed, in the same units: what durations are counted on. -/
  clk : Nat := 0
  /-- A value written to TB_SET, until the next AON edge takes it (R231). -/
  tbNext : Option Nat := none
  /-- The model's own counter behind its free values. -/
  freeCtr : Nat := 0
  nextId : Nat := 0
  items : List Item := []
  rings : Tab Nat RingSt := []
  hold : List HeldRcpt := []
  fences : List FenceRun := []
  /-- Pair that each teller served last (R72). -/
  served : Tab Nat Nat := []
  luns : Tab Lun LunSt := []
  chans : Tab Nat ChanSt := []
  ledger : Ledger := {}
  jobs : List Job := []
  /-- The job that each decode engine runs. -/
  engines : Tab Nat Job := []
  dma : Tab Nat DmaSt := []
  /-- Entries that wait because every eligible DMA channel is full (R286). -/
  entryWait : List Entry := []
  fifos : Tab (Nat × Nat) Fifo := []
  hi : HiSt := {}
  /-- Next request sequence number of each H_INI source (R369). -/
  hiSeq : Tab Nat Nat := []
  staging : Staging := {}
  patrol : Patrol := {}
  boot : Boot := {}
  micro : Tab (Nat × Nat) Micro := []
  ring : RingPort := {}
  /-- Frames that the unit has put on its outgoing lanes so far, in the order in which they left each lane. -/
  ringTx : List TxOut := []
  host : HostPort := {}
  power : Power := {}
  groups : Tab Nat Group := []
  test : TestSt := {}
  deriving DecidableEq, Repr

/-- Why a command faults. (DESIGN CHOICE, log entry 7.) -/
inductive Fault where
  /-- The command's operands do not form a command of the table (Sys2Proof.WellFormed): a list of another length, a
  packet whose opcode, target or action is another row's, a register value without the bit that makes the row. Raised
  by every meaning whose command can be ill formed. Safe: the block never receives such a command. -/
  | illFormed
  deriving DecidableEq, Repr

/-- Why a command is refused. -/
inductive Refusal where
  /-- Raised by Sys2Proof.Machine.exec for a command that has no meaning yet. Safe. -/
  | notModelled (mnemonic : String)
  deriving DecidableEq, Repr

/-- The block while PORESET_N is asserted (R11, R429): mode OFF, every register at its reset value, every queue empty,
no domain powered but PD_AON's switch, no supply reported, the time base at 0. (DESIGN CHOICE, log entry 10.) -/
def State.reset : State := {}

end Sys2Proof.Machine
end

