-- ==== Sys2Proof/Machine/Ops.lean ====
section
/-! DEFINITION. The named operations over the state: registers and their fields, power domains, items, LUNs, channels,
ring pairs, time, and the free values. -/

namespace Sys2Proof.Machine

/-! ### Registers (R7, R11) -/

/-- The value that the fields of a register take at reset, by the register tables. -/
def RegRow.resetWord (r : RegRow) : W64 := r.fields.foldl (fun w f => fset w f.lo f.len f.reset) 0

/-- Reset coins of LG_COST, by phase (R211). -/
def lgCostReset (i : Nat) : Nat :=
  match i % 8 with
  | 0 => 6 | 1 => 2 | 2 => 10 | 3 => 4 | 4 => 8 | 5 => 3 | 6 => 4 | _ => 5

/-- MC_ROM_ID of a store, by its kind (R341, R358). -/
def romId (j : Nat) : Nat := if j < 12 then 0x51030100 else if j < 14 then 0x52030100 else 0x53030100

/-- The value of a register at reset: its table's; per phase for LG_COST (R211) and per store for MC_ROM_ID. -/
def resetVal (r : Reg) : W64 :=
  match r.name with
  | .lgCost => BitVec.ofNat 64 (lgCostReset r.i)
  | .mcRomId => BitVec.ofNat 64 (romId r.i)
  | n => n.row.resetWord

/-- The stored value of a register. -/
def getR (s : State) (n : RegName) (i j k : Nat := 0) : W64 := Tab.get s.regs ⟨n, i, j, k⟩ (resetVal ⟨n, i, j, k⟩)

/-- The state with a register's stored value made `v`. -/
def setR (s : State) (n : RegName) (i j k : Nat) (v : W64) : State :=
  { s with regs := Tab.set s.regs ⟨n, i, j, k⟩ v }

/-- A field of a register, as a number. -/
def rd (s : State) (f : Fld) (i j k : Nat := 0) : Nat := fget (getR s f.reg i j k) f.lo f.len

/-- A one-bit field of a register. -/
def rdB (s : State) (f : Fld) (i j k : Nat := 0) : Bool := rd s f i j k = 1

/-- The state with a field of a register made `v`. -/
def wr (s : State) (f : Fld) (i j k : Nat) (v : Nat) : State :=
  setR s f.reg i j k (fset (getR s f.reg i j k) f.lo f.len v)

/-- `wr` for a register with no index, and with one. -/
def wr0 (s : State) (f : Fld) (v : Nat) : State := wr s f 0 0 0 v
def wr1 (s : State) (f : Fld) (i v : Nat) : State := wr s f i 0 0 v

/-- Sets a flag of a register. -/
def flag0 (s : State) (f : Fld) : State := wr0 s f 1
def flag1 (s : State) (f : Fld) (i : Nat) : State := wr1 s f i 1

/-- Adds to a counter field, saturating at the field's largest value. -/
def addSat (s : State) (f : Fld) (i n : Nat) : State := wr1 s f i (sat (2 ^ f.len - 1) (rd s f i + n))

/-- The stored value of a signed field. -/
def rdInt (s : State) (f : Fld) (i j k : Nat := 0) : Int := (BitVec.ofNat f.len (rd s f i j k)).toInt

/-! ### Power domains (R12, R404, R426) -/

/-- Domain numbers, by PSW_EN bit (R403). -/
abbrev dAon : Nat := 0
abbrev dHk : Nat := 1
abbrev dFe (half : Nat) : Nat := 2 + half
abbrev dDp (pool : Nat) : Nat := 4 + pool
abbrev dSm (half : Nat) : Nat := 6 + half
abbrev dCg (g : Nat) : Nat := 8 + g

/-- A domain is powered and out of reset: it has reached the last row of R426. -/
def domUp (s : State) (d : Nat) : Bool := s.power.up.getLsbD d

/-- The domain that holds a register (R12 and the register tables' chapters). (DEDUCED, log entry 27.) -/
def regDomain (r : Reg) : Nat :=
  match r.name with
  | .epmId | .epmGeom | .ownerCtl | .serviceMap | .serviceBanks | .portStatus | .randKey | .hpTgtErr | .modeCtl
  | .pwrReq | .pwrStatus | .ckCoreCtl | .ckStatus | .lgBudget | .lgCtl | .lgClassSet | .lgCost | .lgRingCtl
  | .tbNow | .tbSet | .tbInc | .tbCtl | .xrAddr | .lcStatus | .svcFeCtl | .bistCtl | .bistStatus | .bistSlice
  | .bistMemBank | .bistMemOther | .bistMemRow => dAon
  | .deCtl => dDp (r.i / 20)
  | .dcCtl | .dcRingBase | .dcRingCfg | .dcKick | .dcHead | .dcStatus | .dcLate | .dcOutstanding => dFe (r.i / 16)
  | .smBankCtl | .smRemap => dSm (r.i / 8)
  | .chFifoCtl | .chFifoStat | .chFifoDbg => dSm (r.i / 24)
  | .bootCtl | .bootStatus | .bootXo => dSm 1
  | .chRemap | .chFlip | .chFlipCtl | .chTiming0 | .chTiming1 | .chPoll | .chTimeout | .chRbMap | .chBusCtl
  | .chClass | .chBringFeat | .chId | .chPpage | .chBusStatus | .chLunState | .chSched | .chCtl | .cgPhy | .cgFence =>
    dCg (r.i / 4)
  | .calGrpCtl | .calGrpStatus | .calLimits | .calRejInfo | .calDqRd | .calDqWr | .calDqs | .calDrv => dCg r.i
  | .mcEng | .mcFrame | .mcRoutine | .mcCtl | .mcRomId | .mcMatch | .mcPatchW0 | .mcPatchW1 | .mcPatchW2 =>
    if r.i < 12 then dCg r.i else if r.i = 12 then dFe 0 else if r.i = 13 then dFe 1 else dHk
  | _ => dHk

/-- Every register of a domain at its reset value. -/
def resetRegs (s : State) (d : Nat) : State :=
  { s with regs := Tab.drop s.regs (fun r => regDomain r = d) }

/-! ### Halves -/

/-- The half of a channel, of a group, of a teller and of a DMA channel (R12). -/
def halfOfCh (ch : Nat) : Nat := ch / 24
def halfOfTeller (t : Nat) : Nat := t / 2
def halfOfDma (d : Nat) : Nat := d / 16
def groupOf (ch : Nat) : Nat := ch / 4

/-- FE_A_UP, FE_B_UP (R21). -/
def feUp (s : State) (half : Nat) : Bool := rdB s (if half = 0 then F.ownerCtlFeAUp else F.ownerCtlFeBUp)
/-- The front end is fenced (R484). -/
def feFenced (s : State) (half : Nat) : Bool := rdB s (if half = 0 then F.svcFeCtlFeAFence else F.svcFeCtlFeBFence)
/-- The owner half (R21). -/
def owner (s : State) : Nat := rd s F.ownerCtlOwner

/-! ### Items (R41) -/

/-- The item with a number. -/
def findItem (s : State) (id : Nat) : Option Item := s.items.find? (fun it => it.id = id)

/-- Changes the item with a number. -/
def updItem (s : State) (id : Nat) (f : Item → Item) : State :=
  { s with items := s.items.map (fun it => if it.id = id then f it else it) }

/-- Removes an item. -/
def dropItem (s : State) (id : Nat) : State := { s with items := s.items.filter (fun it => it.id ≠ id) }

/-- Adds a status that applies to an item (R70). -/
def mark (s : State) (id : Nat) (st : Status) : State :=
  updItem s id (fun it => if st ∈ it.marks then it else { it with marks := it.marks ++ [st] })

/-! ### LUNs, channels, ring pairs, DMA channels, groups -/

def lunOf (l : LunSel) : Lun := ⟨l.ch.val, l.ce.val, l.lun.val⟩

def getLun (s : State) (l : Lun) : LunSt := Tab.get s.luns l {}
def updLun (s : State) (l : Lun) (f : LunSt → LunSt) : State := { s with luns := Tab.set s.luns l (f (getLun s l)) }

def getCh (s : State) (ch : Nat) : ChanSt := Tab.get s.chans ch {}
def updCh (s : State) (ch : Nat) (f : ChanSt → ChanSt) : State := { s with chans := Tab.set s.chans ch (f (getCh s ch)) }

def getRing (s : State) (k : Nat) : RingSt := Tab.get s.rings k {}
def updRing (s : State) (k : Nat) (f : RingSt → RingSt) : State := { s with rings := Tab.set s.rings k (f (getRing s k)) }

def getDma (s : State) (d : Nat) : DmaSt := Tab.get s.dma d {}
def updDma (s : State) (d : Nat) (f : DmaSt → DmaSt) : State := { s with dma := Tab.set s.dma d (f (getDma s d)) }

def getGroup (s : State) (g : Nat) : Group := Tab.get s.groups g {}
def updGroup (s : State) (g : Nat) (f : Group → Group) : State := { s with groups := Tab.set s.groups g (f (getGroup s g)) }

def getFifo (s : State) (ch f : Nat) : Fifo := Tab.get s.fifos (ch, f) {}
def updFifo (s : State) (ch f : Nat) (g : Fifo → Fifo) : State :=
  { s with fifos := Tab.set s.fifos (ch, f) (g (getFifo s ch f)) }

def getMicro (s : State) (j e : Nat) : Micro := Tab.get s.micro (j, e) {}
def updMicro (s : State) (j e : Nat) (g : Micro → Micro) : State :=
  { s with micro := Tab.set s.micro (j, e) (g (getMicro s j e)) }

/-- The LUN index of R176 within its channel: CE · 2^LUN_LOG2 + LUN. -/
def lunIndex (s : State) (l : Lun) : Nat := l.ce * 2 ^ rd s F.chBusCtlLunLog2 l.ch + l.lun

/-! ### Time (R229, R230) -/

/-- Units of the time base in a nanosecond and in a microsecond. -/
abbrev nsU : Nat := 65536
abbrev usU : Nat := 1000 * 65536

/-- The fine time base, in ticks (ns). -/
def fineTick (s : State) : Nat := s.fine / nsU % 2 ^ 64

/-- What one AON cycle adds to the time base (R229): TB_INC on the time master and on a unit alone, else TB_INC and the
correction. -/
def tbStep (s : State) : Nat :=
  let own := rdB s F.tbStatusMaster || rd s F.xrStatusState ≠ 3
  ((rd s F.tbIncInc : Int) + (if own then 0 else s.ring.corr)).toNat

/-- The AON edge that comes next. -/
def nextEdge (s : State) : Nat := s.tb + tbStep s

/-- The state once the fine time base has reached time `t`. -/
def atFine (s : State) (t : Nat) : State := { s with fine := max s.fine t, clk := s.clk + (t - s.fine) }

/-- The state once the elapsed time has reached `t`. -/
def atClk (s : State) (t : Nat) : State := { s with fine := s.fine + (t - s.clk), clk := max s.clk t }

/-- The elapsed time reaches `t` before the next AON edge, or has reached it. -/
def dueClk (s : State) (t : Nat) : Bool := t ≤ s.clk + (nextEdge s - s.fine)

/-- The state after the fine time base has reached time `t`, if it can before the next AON edge: none if not.
(DESIGN CHOICE, log entry 9.) -/
def reach (s : State) (t : Nat) : Option State := if t ≤ nextEdge s then some (atFine s t) else none

/-- The state after the elapsed time has reached `t`, if it can before the next AON edge: a duration, which a step of the
time base does not change (R501 speaks of ticks). (DESIGN CHOICE, log entry 117.) -/
def lapse (s : State) (t : Nat) : Option State :=
  if dueClk s t then some (atClk s t) else none

/-- One AON edge: the time base advances, or takes the value written to TB_SET (R231), and the fine time base stands at
it (R229, R230). -/
def aonTick (s : State) : State :=
  let t := s.tbNext.getD (nextEdge s) % 2 ^ 80
  { s with tb := t, fine := t, clk := s.clk + (nextEdge s - s.fine), tbNext := none }

/-! ### Free values -/

/-- A fresh free word, bit and byte. -/
def freeWord (s : State) : W64 × State := (Config.freeWord s.freeCtr, { s with freeCtr := s.freeCtr + 1 })
def freeBit (s : State) : Bool × State := (Config.freeBit s.freeCtr, { s with freeCtr := s.freeCtr + 1 })
def freeByte (s : State) : Byte × State := (Config.freeByte s.freeCtr, { s with freeCtr := s.freeCtr + 1 })

/-- `n` fresh free bytes. -/
def freeBytes (s : State) : Nat → List Byte × State
  | 0 => ([], s)
  | n + 1 => let (r, s1) := freeBytes s n; let (b, s2) := freeByte s1; (r ++ [b], s2)

/-! ### The core clock (R414) -/

/-- The core clock's frequency in MHz: MULT · 100 for the core PLL, 25 for the AON clock; the fallback oscillator runs
within 640–960 MHz, and where is free. (DEDUCED, log entry 55.) -/
def coreMhz (s : State) : Nat × State :=
  match rd s F.ckCoreCtlSrc with
  | 0 => (100 * max 4 (min 16 (rd s F.ckCoreCtlMult)), s)
  | 1 => let (w, s1) := freeWord s; (640 + w.toNat % 321, s1)
  | _ => (25, s)

/-- The core cycles of a time, rounded up (R215). -/
def coreCycles (s : State) (dt : Nat) : Nat × State :=
  let (f, s1) := coreMhz s
  (ceilDiv (dt * f) (1000 * nsU), s1)

/-! ### Modes (R34–R38) -/

/-- Items may be carried out: the mode is ACTIVE or SERVICE. -/
def isActive (s : State) : Bool := s.power.mode = .active

/-- The power-fail stop of R81 holds: PWR_WARN, as filtered (R406), is high. -/
def warn (s : State) : Bool := s.power.warn

/-- The core clock is the AON clock (R420). -/
def parked (s : State) : Bool := rdB s F.ckCoreCtlParked

/-- Applies a step for every number below `n`, in rising order. -/
def forNat (n : Nat) (f : State → Nat → State) (s : State) : State := (List.range n).foldl f s

end Sys2Proof.Machine
end

