-- ==== Sys2Proof/Machine/Flags.lean ====
section
/-! DEFINITION. Interrupt sources and their sensing (R457–R463), tallies (R464–R468), and the flags that mirror other
state: FAULT (R402), SERVICE_MAP and SERVICE_BANKS (R37), MODE (R38). -/

namespace Sys2Proof.Machine

/-! ### Fences and modes (R35–R38) -/

/-- A channel group is fenced (R202). -/
def cgFenced (s : State) (g : Nat) : Bool := rdB s F.cgFenceFence (4 * g)

/-- A decode pool is fenced (R135). -/
def poolFenced (s : State) (p : Nat) : Bool := rdB s (if p = 0 then F.decCtlPoolAFence else F.decCtlPoolBFence)

/-- The bits of a number given by a test of each bit place below `n`. -/
def bitsWhere (n : Nat) (p : Nat → Bool) : Nat := (List.range n).foldl (fun a i => a + (if p i then 2 ^ i else 0)) 0

/-- SERVICE_MAP (R37): the fence fields of powered domains. -/
def serviceMap (s : State) : Nat :=
  bitsWhere 12 (fun g => domUp s (dCg g) && cgFenced s g)
  + 2 ^ 12 * bitsWhere 2 (fun h => feFenced s h)
  + 2 ^ 14 * bitsWhere 2 (fun p => domUp s dHk && poolFenced s p)
  + 2 ^ 16 * bit ((List.range 40).any (fun e => domUp s (dDp (e / 20)) && rdB s F.deCtlFence e))

/-- SERVICE_BANKS (R37). -/
def serviceBanks (s : State) : Nat := bitsWhere 16 (fun b => domUp s (dSm (b / 8)) && rdB s F.smBankCtlFence b)

/-- MODE[2:0] (R34, R38): 0b100, SERVICE, while the unit is in ACTIVE service and a fence bit is set. -/
def modeCode (s : State) : Nat :=
  match s.power.mode with
  | .off => 0
  | .standby => 1
  | .ready => 2
  | .active => if serviceMap s ≠ 0 ∨ serviceBanks s ≠ 0 then 4 else 3
  | .test => 5

/-- Engines of a store (R341). -/
def storeEngines (j : Nat) : Nat := if j = 12 ∨ j = 13 then 2 else 4

/-- STATE of MC_ENG is MCHECK (R351). -/
def isMcheck (s : State) (j e : Nat) : Bool := rd s F.mcEngState j e = 2

/-- The causes of FAULT (R27, R402), by field of PORT_STATUS. -/
def ownerFault (s : State) : Bool := rdB s F.ownerCtlOwnerConflict || rdB s F.ownerCtlOwnerLost
def mcheckFault (s : State) : Bool :=
  (List.range 15).any (fun j => (List.range (storeEngines j)).any (fun e => isMcheck s j e))
def clkFaultAny (s : State) : Bool := rdB s F.ckCoreCtlClkFault || rd s F.ckStatusPhyFault ≠ 0

/-- FAULT (R402). -/
def faultPin (s : State) : Bool :=
  ownerFault s || mcheckFault s || clkFaultAny s || rdB s F.portStatusPswFault || rdB s F.portStatusSupplyDrop
  || rdB s F.portStatusStrapChanged

/-! ### Interrupt sources (R457) -/

/-- The interrupt output of a DMA channel (R285): a flag whose enable is set. -/
def dmaIrq (s : State) (d : Nat) : Bool :=
  (rdB s F.dcStatusHalf d && rdB s F.dcCtlIrqHalfEn d) || (rdB s F.dcStatusFull d && rdB s F.dcCtlIrqFullEn d)
  || (rdB s F.dcStatusDescDone d && rdB s F.dcCtlIrqDescEn d)
  || ((rdB s F.dcStatusMisalignedSeen d || rdB s F.dcStatusBusErrSeen d || rdB s F.dcStatusLateErr d)
      && rdB s F.dcCtlIrqErrEn d)

/-- The level that drives an interrupt source (R457). -/
def irqDrive (s : State) (n : Nat) : Bool :=
  if n ≤ 21 then
    match n with
    | 0 => rdB s F.ownerCtlOwnerConflict
    | 1 => rdB s F.ownerCtlOwnerLost
    | 2 => rdB s F.ckCoreCtlClkFault
    | 3 => rd s F.ckStatusPhyFault ≠ 0
    | 4 => rdB s F.portStatusPswFault || rdB s F.portStatusSupplyDrop
    | 5 => rdB s F.portStatusStrapChanged
    | 6 => rdB s F.smEccStatusUeSeen
    | 7 => rdB s F.bootStatusBootFailed
    | 8 => rdB s F.lgStatusCutSeen
    | 9 => rdB s F.lgStatusQuietFull
    | 10 => rdB s F.lgStatusRingStale || rdB s F.lgStatusRingRefused
    | 11 => rdB s F.hpIniErrValid
    | 12 => rdB s F.hpTgtErrValid
    | 13 => rdB s F.xrStatusBreakSeen
    | 14 => rdB s F.xrStatusHealSeen
    | 15 => rdB s F.xrStatusHeadConflict
    | 16 => rdB s F.xrStatusOversize
    | 17 => rdB s F.xrStatusYielded
    | 18 => (List.range 48).any (fun c => rdB s F.psPoolEmptySeen c)
    | 19 => (List.range 64).any (fun i => rdB s F.tallyCfgOvf i && rdB s F.tallyCfgOvfIrq i)
    | 20 => rdB s F.tallySnapCtlSnapDone
    | _ => rdB s F.bistStatusBistDone
  else if n < 32 then false
  else if n < 80 then isMcheck s ((n - 32) / 4) ((n - 32) % 4)
  else if n < 84 then isMcheck s (12 + (n - 80) / 2) ((n - 80) % 2)
  else if n < 88 then isMcheck s 14 (n - 84)
  else if n < 128 then rdB s F.deCtlFault (n - 88)
  else if n < 164 then
    let g := (n - 128) / 3
    match (n - 128) % 3 with
    | 0 => rdB s F.calGrpStatusCalReject g
    | 1 => rdB s F.calGrpStatusCalAbort g
    | _ => rdB s F.calGrpStatusOverAlert g
  else if n < 192 then false
  else if n < 224 then dmaIrq s (n - 192)
  else if n < 480 then rdB s F.ringStatusIrqPend (n - 224)
  else false

/-! ### Sensing, claims and completions (R458–R462) -/

/-- The controller samples level `v` on source `n` (R458). (DESIGN CHOICE, log entry 85.) -/
def irqSample (s : State) (n : Nat) (v : Bool) : State :=
  let old := rdB s F.icSrcInput n
  let s1 := wr1 s F.icSrcInput n (bit v)
  match rd s F.icSrcSense n with
  | 0 => wr1 s1 F.icSrcPending n (bit (v && !rdB s F.icSrcInService n))
  | 1 => if !old && v then flag1 s1 F.icSrcPending n else s1
  | 2 => if old && !v then flag1 s1 F.icSrcPending n else s1
  | _ => if old ≠ v then flag1 s1 F.icSrcPending n else s1

/-- Target `t` has no source in service (R459). -/
def irqFree (s : State) (t : Nat) : Bool := rd s F.icTgtStatusInService t = 0x3ff

/-- The sources whose registers differ from reset; every other source is masked and not pending. -/
def irqListed (s : State) : List Nat := s.regs.filterMap (fun e => if e.1.name = .icSrc then some e.1.i else none)

/-- Source `n` is pending for target `t` (R459). -/
def irqPendFor (s : State) (t n : Nat) : Bool :=
  rdB s F.icSrcPending n && bitOf (rd s F.icSrcTargets n) t && irqFree s t

/-- The lowest-numbered source pending for target `t`, or 0x3FF (R460). -/
def irqLowest (s : State) (t : Nat) : Nat :=
  (irqListed s).foldl (fun m n => if irqPendFor s t n then min m n else m) 0x3ff

/-- IRQ_OUT[t] (R459); low while PD_HK is not up (R388). -/
def irqOut (s : State) (t : Nat) : Bool := domUp s dHk && irqLowest s t ≠ 0x3ff

/-- Target `t` claims (R460): the source, and the state with it in service. -/
def irqClaim (s : State) (t : Nat) : Nat × State :=
  let n := irqLowest s t
  if n = 0x3ff then (n, s)
  else (n, wr1 (wr1 (wr1 s F.icSrcPending n 0) F.icSrcInService n 1) F.icTgtStatusInService t n)

/-- Target `t` completes source `n` (R461). -/
def irqComplete (s : State) (t n : Nat) : State :=
  if rd s F.icTgtStatusInService t = n ∧ n ≠ 0x3ff then
    let s1 := wr1 (wr1 s F.icSrcInService n 0) F.icTgtStatusInService t 0x3ff
    if rd s F.icSrcSense n = 0 then wr1 s1 F.icSrcPending n (rd s F.icSrcInput n) else s1
  else flag1 s F.icTgtStatusCompleteErr t

/-- A write of IC_SRC (R458, R462): SENSE and TARGETS take their new values; PENDING of an edge source clears; FORCE
sets PENDING of an edge source. (DEDUCED, log entry 86.) -/
def irqSrcWrite (s : State) (n : Nat) (v : W64) : State :=
  let s1 := wr1 (wr1 s F.icSrcSense n (fget v 0 2)) F.icSrcTargets n (fget v 8 8)
  if fget v 0 2 = 0 then wr1 s1 F.icSrcPending n (bit (rdB s F.icSrcInput n && !rdB s F.icSrcInService n))
  else wr1 s1 F.icSrcPending n (fget v 19 1)

/-! ### Tallies (R464–R467) -/

/-- The tallies whose TALLY_CFG differs from reset; every other tally is disabled. -/
def tallyListed (s : State) : List Nat := s.regs.filterMap (fun e => if e.1.name = .tallyCfg then some e.1.i else none)

/-- Tally `i` counts an event of source `src` with qualifier value `q` (compared in QUAL's low bits) (R464). -/
def tallyHits (s : State) (i src : Nat) (q : Option (Nat × Nat)) : Bool :=
  rdB s F.tallyCfgEnable i && rd s F.tallyCfgSource i = src && src ≠ 0 &&
  (!rdB s F.tallyCfgQualEn i || match q with
    | none => true
    | some (v, n) => rd s F.tallyCfgQual i % 2 ^ n = v)

/-- Adds `n` to tally `i` (R466). -/
def tallyAdd (s : State) (i n : Nat) : State :=
  let c := rd s F.tallyValCount i + n
  if c < 2 ^ 48 then wr1 s F.tallyValCount i c
  else flag1 (wr1 s F.tallyValCount i (if rdB s F.tallyCfgFreeze i then 2 ^ 48 - 1 else c % 2 ^ 48)) F.tallyCfgOvf i

/-- An event of source `src`, with its qualifier and its weight if it has them (R464, R465). -/
def tallyQ (s : State) (src : Nat) (q : Option (Nat × Nat)) (w : Option Nat) : State :=
  (tallyListed s).foldl (fun s i =>
    if tallyHits s i src q then tallyAdd s i (if rdB s F.tallyCfgWeight i then w.getD 1 else 1) else s) s

/-- An event without qualifier or weight. -/
def tally (s : State) (src : Nat) : State := tallyQ s src none none
/-- An event qualified by LUN class. -/
def tallyC (s : State) (src cls : Nat) : State := tallyQ s src (some (cls, 4)) none
/-- An event qualified by LUN class, with a weight. -/
def tallyCW (s : State) (src cls w : Nat) : State := tallyQ s src (some (cls, 4)) (some w)
/-- An event with a weight. -/
def tallyW (s : State) (src w : Nat) : State := tallyQ s src none (some w)

/-- `n` events without qualifier or weight. -/
def tallyN (s : State) (src n : Nat) : State :=
  (tallyListed s).foldl (fun s i => if tallyHits s i src none then tallyAdd s i n else s) s

/-- A snapshot (R467). -/
def tallySnapshot (s : State) : State :=
  let s1 := forNat 64 (fun s i => wr1 s F.tallySnapCount i (rd s F.tallyValCount i)) s
  flag0 (wr0 s1 F.tallySnapTickTick (fineTick s)) F.tallySnapCtlSnapDone

end Sys2Proof.Machine
end

