-- ==== Sys2Proof/Machine/Micro.lean ====
section
/-! DEFINITION. The microcode machine (R341–R350): fetch and redirection, the checks of a word, the meaning of its
fields, trap causes and trap frames. -/

namespace Sys2Proof.Machine

/-! ### Fetch (R342, R343) -/

/-- What a fetch gives: the 136 data bits of a word, or a machine check with its cause and failing parity groups. -/
inductive Fetched where
  | word (w : Nat)
  | fault (cause par : Nat)
  deriving DecidableEq, Repr

/-- The data bits of patch word `w` of store `j`. -/
def patchData (s : State) (j w : Nat) : Nat :=
  (getR s .mcPatchW0 j w).toNat + 2 ^ 64 * (getR s .mcPatchW1 j w).toNat + 2 ^ 128 * rd s F.mcPatchW2DataHi j w

/-- The parity groups of a word that fail (R343): group p covers data bits 17p to 17p + 16 and parity bit p, and holds
an odd number of ones. -/
def parityFails (data par : Nat) : Nat :=
  bitsWhere 8 (fun p => (popCount 17 (data / 2 ^ (17 * p)) + (par / 2 ^ p) % 2) % 2 = 0)

/-- The match register that redirects ROM address `a` (R342): the lowest-numbered valid one. -/
def matchFor (s : State) (j a : Nat) : Option Nat :=
  (List.range 32).find? (fun m => rdB s F.mcMatchValid j m && rd s F.mcMatchRomAddr j m = a)

/-- The address that is fetched for micro-address `a` (R342). -/
def redirect (s : State) (j a : Nat) : Nat :=
  if a < 0x2000 ∧ rdB s F.mcCtlPatchEn j then
    match matchFor s j a with
    | some m => 0x2000 + rd s F.mcMatchPatchAddr j m
    | none => a
  else a

/-- The fetch of micro-address `a` from store `j` (R342, R345). -/
def microFetch (s : State) (j a : Nat) : Fetched :=
  let b := redirect s j a
  if b < 0x2000 then .word (Config.romWord j b).toNat
  else if b < 0x2400 ∧ rdB s F.mcCtlPatchEn j then
    let w := patchData s j (b - 0x2000)
    let p := parityFails w (rd s F.mcPatchW2Parity j (b - 0x2000))
    if p = 0 then .word w else .fault 2 p
  else .fault 5 0

/-! ### The fields of a word (R344) -/

/-- Field `i` of a word. -/
def mfield (w i : Nat) : Nat := bitsOf w (8 * i) 8

/-- The target micro-address of a word. -/
def mtarget (w : Nat) : Nat := mfield w 0 + 256 * (mfield w 1 % 64)

/-- An ALU source encoding. -/
def aluSrcOk (a : Nat) : Bool := a ≤ 4 || (0x10 ≤ a && a ≤ 0x1b)

/-- Every field holds an encoding that R344 lists and the engine kind has (R345, cause 0x3); `seqr` for a sequencer. -/
def wordLegal (seqr : Bool) (w : Nat) : Bool :=
  let lp := mfield w 9
  mfield w 1 < 64
  && (mfield w 2 ≤ 9 || (mfield w 2 = 0x0a && seqr))
  && (mfield w 3 ≤ 0x10 || (0x20 ≤ mfield w 3 && mfield w 3 ≤ 0x3f))
  && mfield w 4 ≤ 9
  && aluSrcOk (mfield w 5) && aluSrcOk (mfield w 6)
  && (mfield w 7 = 0 || mfield w 7 = 2 || (0x10 ≤ mfield w 7 && mfield w 7 ≤ 0x1b))
  && (lp = 0 || (0x10 ≤ lp && lp ≤ 0x13) || (0x20 ≤ lp && lp ≤ 0x23))
  && (mfield w 10 = 0 || (8 ≤ mfield w 10 && mfield w 10 < 32))
  && mfield w 12 ≤ 4 && mfield w 13 ≤ 2 && mfield w 14 ≤ 3 && mfield w 16 ≤ 0x0f
  && !(lp ≠ 0 && 0x18 ≤ mfield w 7 && lp % 4 = mfield w 7 - 0x18)

/-- Scratch register and loop counter `i` of a micro-state. -/
def Micro.sreg (m : Micro) (i : Nat) : W32 := m.s.getD i 0
def Micro.lreg (m : Micro) (i : Nat) : BitVec 16 := m.lc.getD i 0

/-- The value of an ALU source; `t` is the fine time base. -/
def aluSrc (m : Micro) (t imm a : Nat) : W32 :=
  match a with
  | 0 => 0
  | 1 => BitVec.ofNat 32 imm
  | 2 => m.portIn
  | 3 => BitVec.ofNat 32 t
  | 4 => BitVec.ofNat 32 (t / 2 ^ 32)
  | a => if a < 0x18 then m.sreg (a - 0x10) else (m.lreg (a - 0x18)).setWidth 32

/-- The result of an ALU operation, and its carry where R344 states one. -/
def aluOp (op : Nat) (a b : W32) : W32 × Option Bool :=
  match op with
  | 1 => (a + b, some (2 ^ 32 ≤ a.toNat + b.toNat))
  | 2 | 9 => (a - b, none)
  | 3 => (a &&& b, none)
  | 4 => (a ||| b, none)
  | 5 => (a ^^^ b, none)
  | 6 => (a <<< (b.toNat % 32), none)
  | 7 => (a >>> (b.toNat % 32), none)
  | 8 => (a, none)
  | _ => (0, none)

/-- A micro-state with an ALU result written. -/
def aluDst (m : Micro) (d : Nat) (v : W32) : Micro :=
  if d = 0 then m
  else if d = 2 then { m with portOut := v }
  else if d < 0x18 then { m with s := m.s.set (d - 0x10) v }
  else { m with lc := m.lc.set (d - 0x18) (v.setWidth 16) }

/-- The ALU fields of a word. A CARRY that R344 does not state is the free bit `fc`. -/
def microAlu (m : Micro) (t w : Nat) (fc : Bool) : Micro :=
  let op := mfield w 4
  if op = 0 then m
  else
    let (r, c) := aluOp op (aluSrc m t (mfield w 8) (mfield w 5)) (aluSrc m t (mfield w 8) (mfield w 6))
    let m1 := if op = 8 then m else { m with zero := r = 0, neg := r.getLsbD 31, carry := c.getD fc }
    if op = 9 then m1 else aluDst m1 (mfield w 7) r

/-- The LOOP field. -/
def microLoop (m : Micro) (w : Nat) : Micro :=
  let lp := mfield w 9
  if lp = 0 then m
  else if lp < 0x20 then { m with lc := m.lc.set (lp - 0x10) (let v := m.lreg (lp - 0x10); if v = 0 then 0 else v - 1) }
  else { m with lc := m.lc.set (lp - 0x20) (BitVec.ofNat 16 (mfield w 8)) }

/-- The COND of a word; status bits of ports are the free bit `fb`. -/
def microCond (m : Micro) (w : Nat) (fb : Bool) : Bool :=
  match mfield w 3 with
  | 0 => true
  | 1 => m.zero
  | 2 => m.carry
  | 3 => m.neg
  | c => if c < 8 then m.lreg (c - 4) = 0 else if c < 0x10 then m.flags.getLsbD (c - 8)
         else if c = 0x10 then m.timer = 0 else fb

/-- The FLAG field. -/
def microFlag (m : Micro) (w : Nat) (c : Bool) : Micro :=
  let f := mfield w 10
  let b : Byte := 1#8 <<< (f % 8)
  match f / 8 with
  | 1 => { m with flags := m.flags ||| b }
  | 2 => { m with flags := m.flags &&& ~~~b }
  | 3 => { m with flags := if c then m.flags ||| b else m.flags &&& ~~~b }
  | _ => m

/-- What a word does with the flow of control. -/
inductive Flow where
  | next | tret | routineEnd | fault (cause : Nat)
  deriving DecidableEq, Repr

/-- Traps are unmasked. -/
def Micro.unmask (m : Micro) : Micro := { m with masked := false, maskFor := 0 }

/-- The port fields of a word: a port that is read or popped gives the free word `fp`, since what each does belongs to the ROM
release (R346); what is written to one stays with it. -/
def microPort (m : Micro) (w : Nat) (fp : W32) : Micro :=
  match mfield w 12 with
  | 2 => { m with ports := Tab.set m.ports (mfield w 11) m.portOut }
  | 3 => { m with strobe := some (mfield w 11) }
  | 0 => m
  | _ => { m with portIn := fp }

/-- The effects of a word's fields other than SEQ (R344): a WAIT word that repeats has them again, but loads the timer once. With the free bits `fc`, `fb` and the free word `fp` that the
port in use returns. -/
def microFields (m : Micro) (t w : Nat) (fc fb : Bool) (fp : W32) : Micro :=
  let c := microCond m w fb
  let m1 := microFlag (microLoop (microAlu m t w fc) w) w c
  let m2 := microPort m1 w fp
  let m3 := if mfield w 13 = 1 then { m2 with masked := true, maskFor := 8 } else if mfield w 13 = 2 then m2.unmask else m2
  if mfield w 15 = 0 ∨ m.waiting then m3 else { m3 with timer := 16 * mfield w 15 }

/-- A cycle passes: the wait timer counts down, and a MASK of an earlier word lapses after 8 of them (R348). -/
def Micro.cycle (m : Micro) (w : Nat) : Micro :=
  let m1 := { m with timer := m.timer - 1 }
  if mfield w 13 = 1 then m1
  else if m.maskFor ≤ 1 then m1.unmask
  else { m1 with maskFor := m.maskFor - 1 }

/-- The micro-state after a legal word, and what it does with the flow (R344, R345 cause 0x4). `disp` gives the value
that DISPATCH selects. COND is taken before the word's own effects. (DEDUCED, log entry 19.) -/
def microWord (m : Micro) (t w : Nat) (disp : Nat → Nat) (fc fb : Bool) (fp : W32) : Micro × Flow :=
  let c := microCond m w fb
  let m1 := microFields m t w fc fb fp
  let m2 := m1.cycle w
  let goto (m : Micro) (a : Nat) : Micro × Flow := ({ m with upc := BitVec.ofNat 14 a, waiting := false }, .next)
  let pc1 := m.upc.toNat + 1
  match mfield w 2 with
  | 0 => goto m2 pc1
  | 1 => goto m2 (mtarget w)
  | 2 => goto m2 (if c then mtarget w else pc1)
  | 3 => goto m2 (if c then pc1 else mtarget w)
  | 4 => if m.stack.length = 4 then (m, .fault 4)
         else goto { m2 with stack := BitVec.ofNat 14 pc1 :: m.stack } (mtarget w)
  | 5 => match m.stack with
         | [] => (m, .fault 4)
         | a :: r => goto { m2 with stack := r } a.toNat
  | 6 => goto m2 (mtarget w + 4 * (disp (mfield w 14) % 64))
  | 7 => if c ∨ m1.timer = 0 then goto m2 pc1
         else ({ m2 with waiting := true }, .next)
  | 8 => goto m2 (mtarget w)
  | 9 => (m2, .tret)
  | _ => (m2, .routineEnd)

/-! ### Trap frames (R349, R350) -/

/-- The trap frame of a micro-state (R349). -/
def frameWords (m : Micro) : List Nat :=
  [m.upc.toNat + 2 ^ 16 * bit m.masked + 2 ^ 17 * m.stack.length,
   m.flags.toNat + 2 ^ 8 * bit m.zero + 2 ^ 9 * bit m.carry + 2 ^ 10 * bit m.neg]
  ++ (List.range 4).map (fun i => (m.lreg i).toNat) ++ (List.range 8).map (fun i => (m.sreg i).toNat)
  ++ [((m.stack.reverse.getD 0 0).toNat + 2 ^ 16 * (m.stack.reverse.getD 1 0).toNat),
      ((m.stack.reverse.getD 2 0).toNat + 2 ^ 16 * (m.stack.reverse.getD 3 0).toNat)]

/-- Saves a frame into MC_FRAME. -/
def saveFrame (s : State) (j e : Nat) (m : Micro) : State :=
  (frameWords m).zipIdx.foldl (fun s wi => wr s F.mcFrameWord j e wi.2 wi.1) s

/-- The micro-state that a saved frame describes; what a frame does not hold stays (R350). -/
def restoreFrame (s : State) (j e : Nat) (m : Micro) : Micro :=
  let fw := fun i => rd s F.mcFrameWord j e i
  let depth := bitsOf (fw 0) 17 3
  let rets := [BitVec.ofNat 14 (fw 14), BitVec.ofNat 14 (fw 14 / 2 ^ 16), BitVec.ofNat 14 (fw 15),
               BitVec.ofNat 14 (fw 15 / 2 ^ 16)]
  { m with
    upc := BitVec.ofNat 14 (fw 0), masked := bitOf (fw 0) 16, stack := (rets.take depth).reverse,
    flags := BitVec.ofNat 8 (fw 1), zero := bitOf (fw 1) 8, carry := bitOf (fw 1) 9, neg := bitOf (fw 1) 10,
    lc := (List.range 4).map (fun i => BitVec.ofNat 16 (fw (2 + i))),
    s := (List.range 8).map (fun i => BitVec.ofNat 32 (fw (6 + i))), waiting := false }

/-! ### A routine of the SEQUENCE opcode (R355) -/

/-- A routine as it runs: micro-state, counter of free values, event lines pulsed (R344). -/
structure RoutineRun where
  m : Micro
  ctr : Nat
  evts : List Nat := []
  deriving DecidableEq, Repr

/-- How a bounded run of a routine comes out: at ROUTINE_END, at a machine check, or neither within the bound. -/
inductive RoutineOut where
  | ended (r : RoutineRun)
  | fault (cause par : Nat) (r : RoutineRun)
  | going (r : RoutineRun)
  deriving DecidableEq, Repr

/-- Runs at most so many words of a routine on engine `e` of store `j`. HALT goes on at its target, since the engine has the
routine's item as its work; TRET restores the frame saved last. (DEDUCED, log entry 19.) -/
def runRoutine (s : State) (j e : Nat) (disp : Nat → Nat) : Nat → RoutineRun → RoutineOut
  | 0, r => .going r
  | n + 1, r =>
    match microFetch s j r.m.upc.toNat with
    | .fault c p => .fault c p r
    | .word w =>
      if !wordLegal true w then .fault 3 0 r
      else
        let (m, fl) := microWord r.m (fineTick s) w disp (Config.freeBit r.ctr) (Config.freeBit (r.ctr + 1))
          ((Config.freeWord r.ctr).setWidth 32)
        let ev := if mfield w 16 = 0 then r.evts else r.evts ++ [mfield w 16]
        match fl with
        | .fault c => .fault c 0 r
        | .routineEnd => .ended ⟨m, r.ctr + 2, ev⟩
        | .next => runRoutine s j e disp n ⟨m, r.ctr + 2, ev⟩
        | .tret => runRoutine s j e disp n ⟨restoreFrame s j e m, r.ctr + 2, ev⟩

/-! ### Traps (R347–R350) -/

/-- STATE of MC_ENG is RUNNING. -/
def engRunning (s : State) (j e : Nat) : Bool := rd s F.mcEngState j e = 1

/-- Raises trap cause `c` on an engine (R347): one pending trap per cause; an engine that is not running takes none. -/
def raiseTrap (s : State) (j e c : Nat) : State :=
  if engRunning s j e then updMicro s j e (fun m => if c ∈ m.pend then m else { m with pend := m.pend ++ [c] }) else s

/-- Raises a cause on the sequencer of a channel, and on a teller. -/
def raiseSeq (s : State) (ch c : Nat) : State := raiseTrap s (ch / 4) (ch % 4) c
def raiseTeller (s : State) (t c : Nat) : State := raiseTrap s (12 + t / 2) (t % 2) c

/-- The lowest pending cause: the highest priority (R347). -/
def firstCause (l : List Nat) : Option Nat := l.foldl (fun o c => match o with | none => some c | some d => some (min c d)) none

/-- The vector of a cause (R347). -/
def trapVector (c : Nat) : Nat := 0x40 + 8 * c

/-- The micro-state that ROM code has left since it was last seen: the spec gives no ROM, so its values are free. A MASK
has lapsed by the time that a later command finds the engine (R348). (DEDUCED, log entry 19.) -/
def microByRom (s : State) (j e : Nat) : State :=
  let n := s.freeCtr
  let w := fun i => (Config.freeWord (n + i)).toNat
  updMicro { s with freeCtr := n + 20 } j e (fun m =>
    { m with
      upc := BitVec.ofNat 14 (w 0), stack := (List.range (w 1 % 5)).map (fun i => BitVec.ofNat 14 (w (2 + i))),
      flags := BitVec.ofNat 8 (w 6), zero := Config.freeBit n, carry := Config.freeBit (n + 1),
      neg := Config.freeBit (n + 2), lc := (List.range 4).map (fun i => BitVec.ofNat 16 (w (7 + i))),
      s := (List.range 8).map (fun i => BitVec.ofNat 32 (w (11 + i))), waiting := false }.unmask)

/-- The power-up state of a store's engines (R341, R351): HELD, stacks empty, traps unmasked. -/
def resetMicro (s : State) (j : Nat) : State := { s with micro := Tab.drop s.micro (fun k => k.1 = j) }

end Sys2Proof.Machine
end

