-- ==== Sys2Proof/Machine/Operands.lean ====
section
/-! DEFINITION. The operands of commands: packets (R53–R60), the page image and its columns (R85–R91, R99–R105), the
checks of a packet (R63), and the layout of a receipt (R66). -/

namespace Sys2Proof

open Sys2Proof.Machine

/-! ### Packets (R53, R54, R57) -/

/-- A packet of 64 bytes from its bytes (R53). -/
def packetOfBytes (b : List Byte) : Packet :=
  let n := fun i len => leNat (slice b i len)
  { opcode := b.getD 0 0, flags := b.getD 1 0, tag := BitVec.ofNat 16 (n 2 2), unit := b.getD 4 0, channel := b.getD 5 0,
    ceLun := b.getD 6 0, planes := b.getD 7 0, row := BitVec.ofNat 64 (n 8 8), launchTick := BitVec.ofNat 64 (n 16 8),
    deadline := BitVec.ofNat 32 (n 24 4), strength := b.getD 28 0, qmask := b.getD 29 0, ladder := b.getD 30 0,
    b0 := BitVec.ofNat 64 (n 32 8), b1 := BitVec.ofNat 64 (n 40 8), b2 := BitVec.ofNat 64 (n 48 8),
    b3 := BitVec.ofNat 64 (n 56 8) }

/-- The 64 bytes of a packet (R53); the reserved byte is 0. -/
def packetBytes (p : Packet) : List Byte :=
  [p.opcode, p.flags] ++ leBytes 2 p.tag.toNat ++ [p.unit, p.channel, p.ceLun, p.planes] ++ leBytes 8 p.row.toNat
  ++ leBytes 8 p.launchTick.toNat ++ leBytes 4 p.deadline.toNat ++ [p.strength, p.qmask, p.ladder, 0]
  ++ leBytes 8 p.b0.toNat ++ leBytes 8 p.b1.toNat ++ leBytes 8 p.b2.toNat ++ leBytes 8 p.b3.toNat

/-- The flags of R54. -/
def Packet.bounded (p : Packet) : Bool := p.flags.getLsbD 0
def Packet.cutThrough (p : Packet) : Bool := p.flags.getLsbD 1
def Packet.marginVerify (p : Packet) : Bool := p.flags.getLsbD 2
def Packet.forward (p : Packet) : Bool := p.flags.getLsbD 3
def Packet.rcptIrq (p : Packet) : Bool := p.flags.getLsbD 4
def Packet.fenceBefore (p : Packet) : Bool := p.flags.getLsbD 5
def Packet.fenceAfter (p : Packet) : Bool := p.flags.getLsbD 6
def Packet.descList (p : Packet) : Bool := p.flags.getLsbD 7

/-- Byte `i` of a packet's operand, bytes 8–15. -/
def Packet.opByte (p : Packet) (i : Nat) : Nat := (byteOf p.row.toNat (i - 8)).toNat

def Packet.op (p : Packet) : Nat := p.opcode.toNat
def Packet.ce (p : Packet) : Nat := p.ceLun.toNat % 16
def Packet.lunNo (p : Packet) : Nat := p.ceLun.toNat / 16 % 8

/-- The LUN that a packet names. -/
def Packet.lun (p : Packet) : Machine.Lun := ⟨p.channel.toNat, p.ce, p.lunNo⟩

/-- The destination LUN of a COPY, byte 40 (R60). -/
def Packet.dstLun (p : Packet) : Machine.Lun := ⟨p.channel.toNat, p.b1.toNat % 16, p.b1.toNat / 16 % 8⟩

/-- The row of a flash opcode: bytes 8–12 (R53, R91). -/
def Packet.rowv (p : Packet) : Nat := p.row.toNat % 2 ^ 40

/-- The destination row of a COPY: bytes 32–36. -/
def Packet.dstRow (p : Packet) : Nat := p.b0.toNat % 2 ^ 40

def opRead (n : Nat) : Bool := n = 1 || n = 2
/-- The opcode is a read of a page image (R57): READ, READ_MULTI, READ_RAW. -/
def opSense (n : Nat) : Bool := 1 ≤ n && n ≤ 3
def opProgram (n : Nat) : Bool := n = 4 || n = 5
def opErase (n : Nat) : Bool := n = 6 || n = 7
def opMulti (n : Nat) : Bool := n = 2 || n = 5 || n = 7
/-- The opcode moves an item's data over H_INI. -/
def opMoves (n : Nat) : Bool := 1 ≤ n && n ≤ 5
/-- Opcodes 0x01 to 0x0D: CHANNEL and CE_LUN name a LUN, and the item occupies a LUN queue (R57). -/
def opQueue (n : Nat) : Bool := 1 ≤ n && n ≤ 0x0d
/-- The opcode is in the table of R57. -/
def opKnown (n : Nat) : Bool := opQueue n || (0x10 ≤ n && n ≤ 0x18)

/-- The Level column of R57. -/
def opLevel (n : Nat) : Nat :=
  match n with
  | 0x03 | 0x0b => 1
  | 0x0a | 0x0c | 0x0d | 0x10 | 0x11 | 0x13 | 0x14 | 0x15 | 0x16 | 0x17 => 0
  | _ => 3

/-- An action of CHANNEL_CTL that joins a LUN queue (R204). -/
def lunAction (p : Packet) : Bool := p.op = 0x17 && (p.opByte 8 = 5 || p.opByte 8 = 6)

/-- The packet's item occupies a LUN queue (R57, R204). -/
def Packet.usesQueue (p : Packet) : Bool := opQueue p.op || lunAction p

/-- The planes of a packet, in ascending order: PLANES for a multi-plane opcode, else one page at its own row. -/
def Packet.planeList (p : Packet) : List Nat :=
  if opMulti p.op then (List.range 4).filter (fun i => p.planes.getLsbD i) else [0]

/-- The buffer of quarter `i` (R53). -/
def Packet.buffer (p : Packet) (i : Nat) : W64 := match i with | 0 => p.b0 | 1 => p.b1 | 2 => p.b2 | _ => p.b3

end Sys2Proof

namespace Sys2Proof.Machine

/-- The row addressed for plane `pl` (R180). -/
def planeRow (s : State) (p : Packet) (pl : Nat) : Nat :=
  if opMulti p.op then
    let lsb := rd s F.chSchedPlaneLsb p.channel.toNat
    p.rowv - (bitsOf p.rowv lsb 2) * 2 ^ lsb + pl * 2 ^ lsb
  else p.rowv

/-! ### The page image (R85, R89) -/

/-- Local parity, global parity, quarter segment, global slice and page image, in bytes, at strength `st`. -/
def localParity (st : Nat) : Nat := 160 + 16 * st
def globalParity (st : Nat) : Nat := 512 + 64 * st
def segLen (st : Nat) : Nat := 4112 + localParity st
def sliceLen (st : Nat) : Nat := 128 + 16 * st
def imageLen (st : Nat) : Nat := 16448 + 1152 + 128 * st

/-- The first column of quarter segment `i` and of global slice `i`. -/
def segCol (st i : Nat) : Nat := i * (segLen st + sliceLen st)
def sliceCol (st i : Nat) : Nat := segCol st i + segLen st

/-! ### Randomizer (R90, R91) -/

/-- The seed of a page image (R91). -/
def seed (key row : Nat) : Nat :=
  let v := key ^^^ (row % 2 ^ 32) ^^^ (row / 2 ^ 32 % 2 ^ 8 * 2 ^ 24)
  if v = 0 then 0xffffffff else v

/-- One step of the generator: the bit put out and the next state (R90). -/
def lfsrStep (st : Nat) : Bool × Nat :=
  let fb := bitOf st 31 ^^ bitOf st 21 ^^ bitOf st 1 ^^ bitOf st 0
  (bitOf st 31, (2 * st + bit fb) % 2 ^ 32)

/-- Steps `i` to 7 of one stream byte: the byte's bits from `i` up, and the state after (R90). -/
def lfsrBits : Nat → Nat → Nat × Nat
  | 0, st => (0, st)
  | n + 1, st => let (o, st1) := lfsrStep st; let (k, st2) := lfsrBits n st1; (bit o + 2 * k, st2)

/-- The first `n` stream bytes from a state of the generator. -/
def lfsrStream : Nat → Nat → List Byte
  | 0, _ => []
  | n + 1, st => let (k, st1) := lfsrBits 8 st; BitVec.ofNat 8 k :: lfsrStream n st1

/-- The state of the generator moved ahead by `n` bytes. -/
def lfsrAhead : Nat → Nat → Nat
  | 0, st => st
  | n + 1, st => lfsrAhead n (lfsrBits 8 st).2

/-- The stream bytes of columns `c` to `c + n - 1` of an image with that key and row. -/
def stream (key row c n : Nat) : List Byte := lfsrStream n (lfsrAhead c (seed key row))

/-- Byte strings XORed place by place. -/
def xorBytes : List Byte → List Byte → List Byte
  | a :: r, b :: q => (a ^^^ b) :: xorBytes r q
  | _, _ => []

/-! ### Transfer ranges (R99, R100, R103–R105) -/

/-- A range of columns: first column and length. -/
abbrev Range := Nat × Nat

/-- Merges a list of ranges in rising order into maximal runs (R105). -/
def mergeRanges : List Range → List Range
  | [] => []
  | (a, n) :: r =>
    match mergeRanges r with
    | [] => [(a, n)]
    | (b, m) :: q => if a + n = b then (a, n + m) :: q else (a, n) :: (b, m) :: q

/-- Columns not yet held of a page, as parts in column order: segments of the quarters that `seg` wants and slices if
`glob`. -/
def imageParts (st : Nat) (seg : Nat → Bool) (glob : Bool) : List Range :=
  (List.range 4).foldl (fun a i =>
    a ++ (if seg i then [(segCol st i, segLen st)] else []) ++ (if glob then [(sliceCol st i, sliceLen st)] else [])) []

/-- The valid remap entries of a LUN whose IMAGE_COL lies in an image, lowest index first, one per IMAGE_COL:
(IMAGE_COL, DIE_COL) (R99). -/
def remapEntries (s : State) (l : Lun) (st : Nat) : List (Nat × Nat) :=
  (List.range 16).foldl (fun a i =>
    let c := rd s F.chRemapImageCol l.ch i
    if rdB s F.chRemapValid l.ch i
        && (rdB s F.chRemapAll l.ch i || (rd s F.chRemapCe l.ch i = l.ce && rd s F.chRemapLun l.ch i = l.lun))
        && c < imageLen st && !(a.any (fun e => e.1 = c))
    then a ++ [(c, rd s F.chRemapDieCol l.ch i)] else a) []

/-- A column lies in a list of ranges. -/
def inRanges (rs : List Range) (c : Nat) : Bool := rs.any (fun r => r.1 ≤ c && c < r.1 + r.2)

/-- The extra range that remapped columns need (R100), if any. -/
def remapRange (es : List (Nat × Nat)) (rs : List Range) : List Range :=
  match (es.filter (fun e => inRanges rs e.1)).map (fun e => e.2) with
  | [] => []
  | d :: r => let lo := r.foldl min d; let hi := r.foldl max d; [(lo, hi - lo + 1)]

/-- The bytes of a list of ranges, and with each range's 64-byte margin (R103). -/
def rangeBytes (rs : List Range) : Nat := rs.foldl (fun a r => a + r.2) 0
def busBytes (rs : List Range) : Nat := rs.foldl (fun a r => a + r.2 + 64) 0

/-- The byte of column `c` in the data of ranges laid end to end. -/
def colByte : List Range → List Byte → Nat → Option Byte
  | [], _, _ => none
  | (a, n) :: r, b, c => if a ≤ c ∧ c < a + n then b[c - a]? else colByte r (b.drop n) c

/-- The bytes of columns `c` to `c + n - 1` from the data of ranges laid end to end, with remapped columns taken from
their spare column (R99). (DESIGN CHOICE, log entry 110.) -/
def gather (es : List (Nat × Nat)) (rs : List Range) (b : List Byte) (c n : Nat) : List Byte :=
  (List.range n).map (fun i =>
    match es.find? (fun e => e.1 = c + i) with
    | some e => (colByte rs b e.2).getD 0
    | none => (colByte rs b (c + i)).getD 0)

/-! ### LUN classes (R87, R117, R126, R156) -/

/-- The class of a LUN (R155, R156). -/
def lunClass (s : State) (l : Lun) : Nat := rd s (F.chClassL l.lun) l.ch l.ce

/-- The strength of an item (R87). -/
def strengthOf (s : State) (cls : Nat) (p : Packet) : Nat :=
  if p.strength = 0xff then rd s F.classCfg0DefStrength cls else p.strength.toNat

/-- The ladder of an item (R117, R126): READ and READ_MULTI use LADDER, COPY and the patrol the class's default. -/
def ladderOf (s : State) (cls : Nat) (p : Packet) : Option Nat :=
  let d := rd s F.classCfg0DefLadder cls
  let dl := if bitOf (rd s F.ladderLoadedLoaded) d then some d else none
  if opRead p.op then (if p.ladder = 0xff then dl else some (p.ladder.toNat % 16))
  else if p.op = 8 then dl else none

/-! ### Checks (R63) -/

/-- A LUN lies within the population of its channel (R153). (DESIGN CHOICE, log entry 107.) -/
def inPopulation (s : State) (l : Lun) : Bool :=
  bitOf (rd s F.chBusCtlCePresent l.ch) l.ce && !bitOf (rd s F.chBusStatusCeFailed l.ch) l.ce
    && l.lun < 2 ^ rd s F.chBusCtlLunLog2 l.ch

/-- A SEQUENCE routine is loaded (R355). -/
def routineLoaded (s : State) (ch r : Nat) : Bool :=
  r < 64 && rdB s F.mcRoutineValid (ch / 4) r && rdB s F.mcCtlPatchEn (ch / 4)

/-- A host address is not a multiple of 64. -/
def odd64 (a : W64) : Bool := a.toNat % 64 ≠ 0

/-- Check `n` of R63 refuses the packet at a unit whose address is `here`, at ring level `lvl`.
(DESIGN CHOICE, log entry 106.) -/
def checkFails (s : State) (here lvl : Nat) (p : Packet) (n : Nat) : Bool :=
  let op := p.op
  let cls := lunClass s p.lun
  let usesCh := opQueue op || op = 0x14 || op = 0x17
  match n with
  | 0x01 => !opKnown op
  | 0x02 => opLevel op < lvl
  | 0x03 => 15 < p.unit.toNat || (!p.forward && p.unit.toNat ≠ here)
  | 0x04 => usesCh && 47 < p.channel.toNat
  | 0x05 => p.usesQueue && !(op = 0x17 && !domUp s (dCg (p.channel.toNat / 4))) && (!inPopulation s p.lun || (op = 8 && !inPopulation s p.dstLun))
  | 0x06 => opMulti op && (p.planes.toNat % 16 = 0 || p.planes.toNat / 16 ≠ 0)
  | 0x07 => (opRead op && p.qmask.toNat % 16 = 0) || (opProgram op && p.qmask.toNat % 16 ≠ 15)
  | 0x08 => (opSense op || opProgram op || op = 8)
      && ((7 < p.strength.toNat && p.strength ≠ 0xff)
          || rd s F.classCfg0MaxStrength cls < strengthOf s cls p)
  | 0x09 => opRead op && p.ladder ≠ 0xff
      && (15 < p.ladder.toNat || !bitOf (rd s F.ladderLoadedLoaded) p.ladder.toNat)
  | 0x0a => p.bounded && (!opSense op || p.deadline = 0)
  | 0x0b => p.marginVerify
      && (!(opProgram op || op = 8)
          || !rdB s F.classCfg0MarginLoaded (if op = 8 then lunClass s p.dstLun else cls))
  | 0x0c => !p.descList && (op = 2 || op = 5 || op = 3)
  | 0x0d => opMoves op
      && (if p.descList then odd64 p.b0
          else (List.range 4).any (fun i => p.qmask.getLsbD i && odd64 (p.buffer i)))
  | 0x0e => op = 0x0d && !routineLoaded s p.channel.toNat p.strength.toNat
  | _ => false

/-- The first check that a packet fails (R63). -/
def firstCheck (s : State) (here lvl : Nat) (p : Packet) : Option Nat :=
  (List.range' 1 14).find? (checkFails s here lvl p)

/-! ### Receipts (R66, R69, R70) -/

/-- The code of a status (R69). -/
def Status.code : Status → Nat
  | .ok => 0 | .okLate => 1 | .verifyFail => 2 | .dieFail => 3 | .uncorrectable => 4 | .dmaFault => 5
  | .notIssuedPowerfail => 6 | .interruptedPowerfail => 7 | .abortedFence => 8 | .channelFenced => 9
  | .dieTimeout => 10 | .misaligned => 11 | .forwardFail => 12 | .mcheck => 13

/-- The order of R70, first first. -/
def statusOrder : List Status :=
  [.misaligned, .channelFenced, .abortedFence, .forwardFail, .notIssuedPowerfail, .mcheck, .interruptedPowerfail,
   .dieTimeout, .dmaFault, .dieFail, .uncorrectable, .verifyFail, .okLate, .ok]

/-- The status that a receipt carries, of those that apply (R70). -/
def statusOf (ms : List Status) : Status := (statusOrder.find? (fun st => st ∈ ms)).getD .ok

/-- The fields of a receipt (R66). -/
structure Receipt where
  tag : BitVec 16
  status : Nat := 0
  grade : Nat := 0
  gradeValid : Bool := false
  /-- Bytes 4–7. -/
  word : W32 := 0
  iters : Nat := 0
  soft : Nat := 0
  poison : Nat := 0
  dieStatus : Byte := 0
  suspends : Nat := 0
  ledgerWait : Nat := 0
  tick : Nat := 0
  launchLo : Nat := 0
  rflags : Nat := 0
  execUnit : Nat := 0
  opcode : Byte := 0
  check : Nat := 0
  deriving DecidableEq, Repr

/-- The 32 bytes of a receipt (R66). -/
def Receipt.bytes (r : Receipt) : List Byte :=
  leBytes 2 r.tag.toNat ++ [BitVec.ofNat 8 r.status, BitVec.ofNat 8 (r.grade % 8 + 8 * bit r.gradeValid)]
  ++ leBytes 4 r.word.toNat ++ leBytes 2 (sat 65535 r.iters)
  ++ [BitVec.ofNat 8 r.soft, BitVec.ofNat 8 r.poison, r.dieStatus, BitVec.ofNat 8 (sat 255 r.suspends)]
  ++ leBytes 2 (sat 65535 r.ledgerWait) ++ leBytes 8 r.tick ++ leBytes 4 r.launchLo
  ++ [BitVec.ofNat 8 r.rflags, BitVec.ofNat 8 r.execUnit, r.opcode, BitVec.ofNat 8 r.check]

end Sys2Proof.Machine
end

