-- ==== Sys2Proof/Machine/Ini.lean ====
section
/-! DEFINITION. The host initiator port H_INI (R363–R373): requests, credits, IDs, order of issue, and responses. -/

namespace Sys2Proof.Machine

/-- H_INI source of a DMA channel and of a teller: half · 32 + source (R369). -/
def srcOfDma (d : Nat) : Nat := 32 * (d / 16) + d % 16
def srcOfTeller (t : Nat) : Nat := 32 * (t / 2) + 16 + t % 2

/-- HI_REQ_LEN and HI_REQ_SIZE of a request of `len` bytes at `addr` (R365). -/
def reqLen (addr len : Nat) : Nat := (addr % 128 + len - 1) / 128
def reqSize (addr len : Nat) : Nat := (addr % 128 + len - 1) % 128 / 32

/-- H_INI works: PD_HK is up, and the front end of a half is powered and not fenced (R16, R296, R390). -/
def hiUp (s : State) (half : Nat) : Bool := domUp s dHk && domUp s (dFe half) && !feFenced s half

/-- The ID that the next request of a source takes (R369). (DEDUCED, log entry 54.) -/
def hiNextId (s : State) (src : Nat) : Nat := src * 16 + Tab.get s.hiSeq src 0

/-- A waiting request may be presented (R364, R369): its half is up, a credit of its kind is held, and no outstanding
read has its ID. -/
def hiCan (s : State) (r : HiReq) : Bool :=
  hiUp s (r.src / 32)
  && (if r.write then 0 < s.hi.wrCred else 0 < s.hi.rdCred && !(s.hi.reads.any (fun q => q.id = hiNextId s r.src && !q.done)))

/-! ### The burst buffers and the data pump (R273–R275) -/

/-- Beats of a request, and data requests. -/
def HiReq.beatCount (r : HiReq) : Nat := reqLen r.addr r.len + 1
def HiReq.isData (r : HiReq) : Bool := r.cls = 2

/-- Data that has arrived and stays in a channel's burst buffer: of a descriptor's reads, and program data that waits for
HOST_IN (R275). -/
def DmaSt.arrived (x : DmaSt) : List (Nat × List Byte × List Bool) :=
  x.inBuf ++ (match x.desc with | some r => r.got | none => [])

/-- Beats of a channel's 2 KiB burst buffer in use: the pump's, those of writes that wait, the space of reads that wait or are
outstanding, and what has arrived and is still held (R273, R364). -/
def bufUsed (s : State) (d : Nat) : Nat :=
  (getDma s d).filled + (((getDma s d).arrived).map (fun g => ceilDiv g.2.1.length 128)).sum
  + (((s.hi.waiting ++ s.hi.reads).filter (fun r => r.isData && r.src = srcOfDma d)).map HiReq.beatCount).sum

/-- MAX_BURST of a DMA channel; 0 is treated as 1. -/
def maxBurst (s : State) (d : Nat) : Nat := max 1 (rd s F.dcCtlMaxBurst d)

/-- What a request serves, `n` bytes further. -/
def HiUse.shift (n : Nat) : HiUse → HiUse
  | .progData d i p q o => .progData d i p q (o + n)
  | .ringRead d i o => .ringRead d i (o + n)
  | u => u

/-- A request as bursts of at most `mb` beats: the first, and the rest if there is one (R273). -/
def HiReq.burst (mb : Nat) (r : HiReq) : List HiReq :=
  let n := (r.addr / 128 + mb) * 128 - r.addr
  if r.len ≤ n then [r]
  else [{ r with len := n, data := r.data.take n, poison := r.poison.take (n / 64) },
        { r with addr := r.addr + n, len := r.len - n, data := r.data.drop n, poison := r.poison.drop (n / 64), use := r.use.shift n }]

/-- The requests of a channel's move, the next burst first; MAX_BURST acts as the burst begins (R273, R295). -/
def burstHead (s : State) (d : Nat) : List HiReq :=
  match (getDma s d).move with
  | r :: q => (if (getDma s d).filled = 0 then r.burst (maxBurst s d) else [r]) ++ q
  | [] => []

/-- The pump can serve a channel: a beat of a write is ready and has buffer space, or a read fits the free space. -/
def canPump (s : State) (d : Nat) : Bool :=
  match burstHead s d with
  | r :: _ => bufUsed s d + (if r.write then 1 else r.beatCount) ≤ 16
  | [] => false

/-- An entry moves program data of a flash channel (`out` false), or read data of one. -/
def entryOn (s : State) (e : Entry) (ch : Nat) (out : Bool) : Bool :=
  (findItem s e.item).any (fun i => i.lun.ch = ch && opProgram i.pkt.op = !out)

/-- The channel holds the host end of HOST_OUT of a flash channel: from the first beat of its packet to the last (R275). -/
def holdsOut (s : State) (d ch : Nat) : Bool :=
  (getDma s d).going && !(getDma s d).move.isEmpty && (getDma s d).cur.any (fun e => entryOn s e ch true)

/-- Channel `w` waits for the FIFO whose host end channel `d` holds (R275). -/
def waitsFifo (s : State) (w d : Nat) : Bool :=
  (getDma s d).cur.any (fun e => (findItem s e.item).any (fun i =>
    if opProgram i.pkt.op then
      (getFifo s i.lun.ch 0).holder = some d && !(getDma s w).inBuf.isEmpty && (getDma s w).cur.any (fun q => entryOn s q i.lun.ch false)
    else holdsOut s d i.lun.ch && !(getDma s w).going && (getDma s w).cur.any (fun q => entryOn s q i.lun.ch true)))

/-- The priority at which a channel moves: its PRIO, or that of a channel that waits for its FIFO if larger (R275). -/
def dmaPrio (s : State) (d : Nat) : Nat :=
  (s.dma.filter (fun x => x.1 ≠ d && waitsFifo s x.1 d)).foldl (fun m x => max m (rd s F.dcCtlPrio x.1)) (rd s F.dcCtlPrio d)

/-- The channels of a half that its pump can serve, in ascending order. -/
def pumpable (s : State) (h : Nat) : List Nat :=
  sortBy (fun a b => a < b) ((s.dma.map (fun x => x.1)).filter (fun d => d / 16 = h && canPump s d))

/-- The highest priority among channels. -/
def topPrio (s : State) (ds : List Nat) : Nat := ds.foldl (fun m d => max m (dmaPrio s d)) 0

/-- The channel that a half's pump serves next (R274): of the highest priority; between equals, the one in the middle of a
burst, then the next in ascending order after the one of that priority served last. -/
def pumpPick (s : State) (h : Nat) : Option Nat :=
  let ds := pumpable s h
  let top := topPrio s ds
  let es := ds.filter (fun d => dmaPrio s d = top)
  let last := Tab.get s.hi.turn (h, top) 0
  if es.contains last && (getDma s last).filled ≠ 0 then some last
  else (es.find? (fun d => last < d)).or es.head?

/-- The pump serves a channel: one beat of a write, which waits for the port once its last beat is in the buffer; or a read
takes its buffer space and waits for the port. (DESIGN CHOICE, log entry 104.) -/
def pumpBeat (s : State) (h d : Nat) : State :=
  match burstHead s d with
  | [] => s
  | r :: q =>
    let last := Tab.get s.hi.turn (h, 4) 0
    let s0 := if last ≠ d ∧ (getDma s last).filled ≠ 0 ∧ canPump s last then tally s 0x4c else s
    let s1 := { s0 with hi := { s0.hi with turn := Tab.set (Tab.set s0.hi.turn (h, dmaPrio s d) d) (h, 4) d } }
    if r.write ∧ (getDma s d).filled + 1 < r.beatCount then updDma s1 d (fun x => { x with move := r :: q, filled := x.filled + 1 })
    else
      let s2 := updDma s1 d (fun x => { x with move := q, filled := 0 })
      { s2 with hi := { s2.hi with waiting := s2.hi.waiting ++ [r] } }

/-- A half's pump moves what it can, at most `n` beats or reads. -/
def pumpHalf (h : Nat) : Nat → State → State
  | 0, s => s
  | n + 1, s =>
    match pumpPick s h with
    | some d => pumpHalf h n (pumpBeat s h d)
    | none => s

/-- Both pumps move what they can: a half's burst buffers hold 16 · 16 beats. While the core clock is the AON clock they move
nothing (R420). -/
def pumpAll (s : State) : State :=
  if parked s then s else [0, 1].foldl (fun s h => if hiUp s h then pumpHalf h 256 s else s) s

/-- A channel's move is formed into requests, behind those it has. -/
def pumpSend (s : State) (d : Nat) (rs : List HiReq) : State := updDma s d (fun x => { x with move := x.move ++ rs })

/-! ### Ring-mode descriptors at their boundaries (R280, R281, R285) -/

def dcState (s : State) (d : Nat) : Nat := rd s F.dcCtlState d
def dcMode (s : State) (d : Nat) : Nat := rd s F.dcCtlMode d
def dcHead (s : State) (d : Nat) : Nat := rd s F.dcHeadHead d
def ringLog2 (s : State) (d : Nat) : Nat := rd s F.dcRingCfgLog2 d
/-- The host address of a descriptor. -/
def descAddr (s : State) (d i : Nat) : Nat := rd s F.dcRingBaseBase d * 4096 + 32 * i

/-- A ring-mode request (R371). -/
def ringReq (s : State) (d : Nat) (write : Bool) (addr len : Nat) (use : HiUse) (cls : Nat) : HiReq :=
  { write := write, src := srcOfDma d, addr := addr % 2 ^ 64, len := len, ring := rd s F.dcRingCfgRingAttr d,
    attr := rd s F.dcRingCfgAttr d, use := use, cls := cls }

/-- A descriptor fetch of the channel waits or is outstanding. -/
def descFetching (s : State) (d : Nat) : Bool :=
  s.hi.waiting.any (fun r => r.use = .descFetch d) || s.hi.reads.any (fun r => r.use = .descFetch d)

/-- The channel may fetch the descriptor at DC_HEAD (R280). -/
def mayFetchDesc (s : State) (d : Nat) : Bool :=
  dcState s d = 3 && dcMode s d = 2 && (getDma s d).desc.isNone && !descFetching s d && !rdB s F.dcStatusIdleOwn d && !parked s

/-- The fetch joins the requests that wait. -/
def fetchDesc (s : State) (d : Nat) : State :=
  if mayFetchDesc s d then
    { s with hi := { s.hi with waiting := s.hi.waiting ++ [ringReq s d false (descAddr s d (dcHead s d)) 32 (.descFetch d) 1] } }
  else s

def descSrc (b : List Byte) : Nat := leNat (slice b 0 8)
def descDst (b : List Byte) : Nat := leNat (slice b 8 8)
def descLen (b : List Byte) : Nat := leNat (slice b 16 3)
def descCtl (b : List Byte) (i : Nat) : Bool := (b.getD 20 0).getLsbD i

/-- The writeback of a descriptor is issued (R281): DC_HEAD and DONE_COUNT advance, the flags of R285 follow, and the channel
goes on with the next slot. -/
def descAdvance (s : State) (d : Nat) : State :=
  match (getDma s d).desc with
  | none => s
  | some r =>
    let i := dcHead s d
    let n := 2 ^ ringLog2 s d
    let s1 := updDma s d (fun x => { x with desc := none })
    let s2 := wr1 (wr1 s1 F.dcHeadHead d ((i + 1) % n)) F.dcHeadDoneCount d ((rd s F.dcHeadDoneCount d + 1) % 65536)
    let s3 := if i + 1 = n / 2 then flag1 s2 F.dcStatusHalf d else s2
    let s4 := if i + 1 = n then flag1 s3 F.dcStatusFull d else s3
    let s5 := if descCtl r.bytes 4 then flag1 s4 F.dcStatusDescDone d else s4
    let s6 := if descCtl r.bytes 3 then s5 else tallyW s5 (if d < 16 then 0x48 else 0x4a) r.moved
    fetchDesc (if descCtl r.bytes 2 then s6 else tallyW s6 (if d < 16 then 0x49 else 0x4b) r.moved) d

/-! ### The port (R274, R364) -/

/-- What the issue of a request changes beside the port: MOVED counts a descriptor's data write (R279), and a writeback
advances the ring (R281). -/
def issued (s : State) (r : HiReq) : State :=
  match r.use with
  | .ringWrite d _ => updDma s d (fun x => { x with desc := x.desc.map (fun y => { y with moved := y.moved + r.len }) })
  | .descBack d _ => descAdvance s d
  | _ => s

/-- The class of a waiting request within its half (R274): teller requests first, then data by priority. -/
def reqRank (s : State) (r : HiReq) : Nat := if r.isData then 2 + (3 - dmaPrio s (r.src / 32 * 16 + r.src % 16)) else 1

/-- The head request of a half: the lowest rank, then the oldest (R274). -/
def hiHead (s : State) (h : Nat) : Option (HiReq × Nat) :=
  (s.hi.waiting.zipIdx.filter (fun p => p.1.src / 32 = h && hiCan s p.1)).foldl
    (fun o p => match o with
      | none => some p
      | some q => if reqRank s p.1 < reqRank s q.1 then some p else some q) none

/-- The waiting request that the port takes next (R274): of the two halves' head requests the one of the higher class, and
between equals that of the half not served last. -/
def hiPick (s : State) : Option Nat :=
  match hiHead s 0, hiHead s 1 with
  | some a, some b =>
    some (if a.1.cls < b.1.cls then a.2 else if b.1.cls < a.1.cls then b.2 else if s.hi.lastHalf = 0 then b.2 else a.2)
  | some a, none => some a.2
  | none, o => o.map (fun p => p.2)

/-- The attribute byte that a request carries as it is issued (R371): HP_ATTR as it then stands, or the channel's ATTR. -/
def attrNow (s : State) (r : HiReq) : Nat :=
  match r.use with
  | .packetFetch _ | .listFetch _ _ => rd s F.hpAttrFetchAttr
  | .receipt _ _ _ => rd s F.hpAttrWbAttr
  | .progData _ _ _ _ _ => rd s F.hpAttrRdAttr
  | .readData _ _ _ _ _ _ => rd s F.hpAttrWrAttr
  | _ => r.attr

/-- Takes the request at place `i` of the waiting list onto the port: it spends its credit and becomes outstanding. -/
def hiTake (s : State) (i : Nat) : State :=
  match s.hi.waiting[i]? with
  | none => s
  | some r =>
    let r1 := { r with id := hiNextId s r.src, attr := attrNow s r }
    let hi := { s.hi with waiting := s.hi.waiting.eraseIdx i, lastHalf := r.src / 32 }
    let hi1 := if r.write then { hi with wrCred := hi.wrCred - 1, writes := hi.writes ++ [r1] }
               else { hi with rdCred := hi.rdCred - 1, reads := hi.reads ++ [r1] }
    issued { s with hi := hi1, hiSeq := Tab.set s.hiSeq r.src ((Tab.get s.hiSeq r.src 0 + 1) % 16) } r

/-- Issues requests, at most `n`, while one may be presented. -/
def hiIssue (s : State) : Nat → State
  | 0 => s
  | n + 1 =>
    match hiPick s with
    | none => s
    | some i => hiIssue (pumpAll (hiTake s i)) n

/-- Issues every request that credits allow; each takes a credit. -/
def hiPump (s : State) : State := hiIssue (pumpAll s) (s.hi.rdCred + s.hi.wrCred)

/-- Adds requests to those that wait, and issues what credits allow. -/
def hiSend (s : State) (rs : List HiReq) : State :=
  hiPump { s with hi := { s.hi with waiting := s.hi.waiting ++ rs } }

/-- Fetches the descriptor at DC_HEAD if the channel may (R280). -/
def ringKick (s : State) (d : Nat) : State := hiPump (fetchDesc s d)

/-- The requests of a channel's move without those that satisfy `p`. -/
def DmaSt.dropMove (x : DmaSt) (p : HiReq → Bool) : DmaSt :=
  { x with move := x.move.filter (fun r => !p r), filled := if x.move.head?.any p then 0 else x.filled }

/-- Drops the requests that satisfy `p` and are not issued. -/
def hiForget (s : State) (p : HiReq → Bool) : State :=
  { s with hi := { s.hi with waiting := s.hi.waiting.filter (fun r => !p r) },
           dma := s.dma.map (fun x => (x.1, x.2.dropMove p)) }

/-- Drops the requests that satisfy `p`, such as those of a front end that has stopped: those not issued are gone, and
the answers of those outstanding are taken and not used. -/
def hiDrop (s : State) (p : HiReq → Bool) : State :=
  let off := fun r : HiReq => if p r then { r with use := .dropped } else r
  let s1 := hiForget s p
  { s1 with hi := { s1.hi with reads := s1.hi.reads.map off, writes := s1.hi.writes.map off } }

/-- Logs an error on H_INI (R368, R385). -/
def hiLogErr (s : State) (id code kind : Nat) : State :=
  let s1 := if rdB s F.hpIniErrValid then s
    else wr0 (wr0 (wr0 (flag0 s F.hpIniErrValid) F.hpIniErrId id) F.hpIniErrCode code) F.hpIniErrKind kind
  addSat s1 F.hpIniErrCount 0 1

/-- Removes an outstanding read, and issues what its ID and buffer allowed. -/
def readDone (s : State) (r : HiReq) : State := hiPump { s with hi := { s.hi with reads := s.hi.reads.erase r } }

/-- A beat of a read had an error, or a line of it was poisoned. -/
def HiReq.spoilt (r : HiReq) : Bool := r.err || r.poison.any (fun b => b)

/-- Logs an error of a fetch whose beats carried no code: which of the three codes it was is free (R368).
(DESIGN CHOICE, log entry 53.) -/
def fetchErr (s : State) (r : HiReq) (err : Bool) : State :=
  if err && !r.err then let (w, s1) := freeWord s; hiLogErr s1 r.id (1 + w.toNat % 3) 0 else s

/-- The pieces of a move of `len` bytes at `addr`: no piece crosses 4 KiB or carries more than `mb` beats (R273). -/
def splitMove (mb : Nat) : Nat → Nat → Nat → List (Nat × Nat)
  | 0, _, _ => []
  | n + 1, addr, len =>
    if len = 0 then []
    else
      let hi := min (min (addr + len) ((addr / 4096 + 1) * 4096)) ((addr / 128 + mb) * 128)
      (addr, hi - addr) :: splitMove mb n hi (len - (hi - addr))

/-- The pieces with fixed addressing: one line each, to the same address (R273). -/
def splitFixed (addr len : Nat) : List (Nat × Nat) := (List.range (ceilDiv len 64)).map (fun _ => (addr, 64))

/-- The pieces of a move, of at most `mb` beats each: 32 leaves them to 4 KiB, for the pump to cut (R295). -/
def movePieces (mb addr len : Nat) (fixed : Bool) : List (Nat × Nat) :=
  if fixed then splitFixed addr len else splitMove mb (len / 64 + 1) addr len

end Sys2Proof.Machine
end

