-- ==== Sys2Proof/Machine/RingWire.lean ====
section
/-! DEFINITION. Frames of the Xaram ring as their lanes carry them: CRC-32, header and payload octets, 64b/66b blocks and the
scrambler (R240, R243), the lane each frame takes (R245, R251), and the order in which a lane sends what waits for it
(R244). -/

namespace Sys2Proof.Machine

/-! ### CRC-32 of IEEE 802.3 (R330, R243) -/

/-- One bit of the reflected CRC-32. -/
def crcBit (c : W32) : W32 := if c.getLsbD 0 then (c >>> 1) ^^^ 0xedb88320#32 else c >>> 1

/-- The running CRC after a byte. -/
def crcByte (c : W32) (b : Byte) : W32 :=
  let x := c ^^^ b.setWidth 32
  crcBit (crcBit (crcBit (crcBit (crcBit (crcBit (crcBit (crcBit x)))))))

/-- The running CRC after bytes; it begins at all ones. -/
def crcRun (c : W32) (b : List Byte) : W32 := b.foldl crcByte c
def crcStart : W32 := 0xffffffff#32
/-- The CRC-32 of bytes. -/
def crc32 (b : List Byte) : Nat := (~~~(crcRun crcStart b)).toNat

/-! ### Header and payload octets (R243) -/

/-- The TYPE of a frame. -/
def TxFrame.type : TxFrame → Nat
  | .enum _ _ _ => 1 | .presence _ => 2 | .allot _ _ => 3 | .timeReq _ => 4 | .timeRsp _ _ _ _ _ => 5 | .step _ => 6
  | .bcast _ => 7 | .fwdPkt _ _ _ _ _ _ => 8 | .fwdAck _ _ => 9 | .fwdRcpt _ _ _ _ _ => 10 | .rcptAck _ _ => 11

/-- LEN of a frame: its data blocks. -/
def TxFrame.len : TxFrame → Nat
  | .enum _ _ _ | .step _ | .fwdAck _ _ | .rcptAck _ _ => 1
  | .presence _ | .fwdPkt _ _ _ _ _ _ => 9
  | .allot _ _ | .fwdRcpt _ _ _ _ _ => 5
  | .timeReq _ => 0 | .timeRsp _ _ _ _ _ => 3 | .bcast _ => 8

/-- The content of a frame, in the order in which the table lists it, each value with its least significant octet first. -/
def TxFrame.content : TxFrame → List Byte
  | .enum a n c => leBytes 1 a ++ leBytes 2 n ++ leBytes 1 c
  | .presence p => leBytes 1 (p.master.toNat + 16 * bit p.hasExch + 32 * bit p.start) ++ leBytes 2 p.exch.toNat
      ++ leBytes 5 p.present.toNat ++ p.slots.flatMap (fun x => leBytes 2 x.1.toNat ++ leBytes 2 x.2.toNat)
  | .allot n as => leBytes 2 n ++ as.flatMap (leBytes 2)
  | .timeReq _ => []
  | .timeRsp _ t2 t3 o d => leBytes 10 t2 ++ leBytes 5 t3 ++ leBytes 8 ((o % 2 ^ 64 : Int).toNat) ++ leBytes 1 d
  | .step d => leBytes 8 ((d % 2 ^ 64 : Int).toNat)
  | .bcast p => packetBytes p
  | .fwdPkt _ _ _ p h l => packetBytes p ++ leBytes 4 h ++ leBytes 1 l
  | .fwdAck _ h => leBytes 4 h ++ leBytes 1 1
  | .fwdRcpt _ _ _ h r => leBytes 4 h ++ r
  | .rcptAck _ h => leBytes 4 h

/-- The payload octets of a frame: its content and zeros up to LEN blocks. (DEDUCED, log entry 97.) -/
def TxFrame.payload (f : TxFrame) : List Byte := padTo (8 * f.len) f.content

/-- The seven header octets. -/
def headerOctets (h : FrameHdr) (f : TxFrame) : List Byte :=
  [f.type, h.src.toNat + 16 * h.dst.toNat, bit h.bcast + 2 * bit h.retry, h.seq.toNat, h.hops.toNat, h.len.toNat, 0].map
    (BitVec.ofNat 8)

/-- The CRC-32 of a frame, over its header octets and its payload. -/
def frameCrc (h : FrameHdr) (f : TxFrame) : W32 := BitVec.ofNat 32 (crc32 (headerOctets h f ++ f.payload))

/-- The check block is right, and LEN is that of the blocks received. -/
def frameOk (h : FrameHdr) (f : TxFrame) : Bool := h.len.toNat = h.blocks && h.blocks = f.len && h.crc = frameCrc h f

/-- The header with LEN and CRC-32 as the unit sends the frame on a lane. -/
def sealFrame (h : FrameHdr) (f : TxFrame) (lane : Nat) : FrameHdr :=
  let l : Fin 2 := if lane = 0 then 0 else 1
  let h1 := { h with lane := l, named := l, len := BitVec.ofNat 8 f.len, blocks := f.len, ctl := none }
  { h1 with crc := frameCrc h1 f }

/-! ### Blocks on the wire (R240) -/

/-- A 66-bit block before scrambling: a control block or a data block, and its eight octets. -/
structure Block where
  control : Bool
  octets : List Byte
  deriving DecidableEq, Repr

/-- The three control block types. -/
def idleBlock : Block := ⟨true, 0x1e#8 :: List.replicate 7 0⟩
def startBlock (h : List Byte) : Block := ⟨true, 0x78#8 :: h⟩
def termBlock : Block := ⟨true, 0x87#8 :: List.replicate 7 0⟩

/-- Octets in data blocks. -/
def dataBlocks : Nat → List Byte → List Block
  | 0, _ => []
  | n + 1, b => ⟨false, b.take 8⟩ :: dataBlocks n (b.drop 8)

/-- The blocks of a frame: start, payload, check block, terminate, and the idle block after it. -/
def frameBlocks (h : FrameHdr) (f : TxFrame) : List Block :=
  startBlock (headerOctets h f) :: dataBlocks f.len f.payload
    ++ [⟨false, leBytes 4 h.crc.toNat ++ List.replicate 4 0⟩, termBlock, idleBlock]

/-- The scrambler x^58 + x^39 + 1: one bit, with its last 58 output bits, newest lowest. -/
def scrambleBit (st : W64) (b : Bool) : Bool × W64 :=
  let o := b ^^ st.getLsbD 38 ^^ st.getLsbD 57
  (o, (st <<< 1) ||| (if o then 1#64 else 0#64))

/-- Scrambles bits in the order in which they are sent. -/
def scramble : W64 → List Bool → List Bool × W64
  | st, [] => ([], st)
  | st, b :: bs => let (o, s1) := scrambleBit st b; let (os, s2) := scramble s1 bs; (o :: os, s2)

/-- The descrambler: it takes its state from the bits received. -/
def descramble : W64 → List Bool → List Bool
  | _, [] => []
  | st, o :: os =>
    (o ^^ st.getLsbD 38 ^^ st.getLsbD 57) :: descramble ((st <<< 1) ||| (if o then 1#64 else 0#64)) os

/-- The bits of octets, least significant first. -/
def octetBits (b : List Byte) : List Bool := b.flatMap (fun x => (List.range 8).map x.getLsbD)

/-- Blocks as sent, and the scrambler's state after them: the sync header, 01 before a data block and 10 before a control
block, is not scrambled. -/
def wireBlocks : W64 → List Block → List Bool × W64
  | st, [] => ([], st)
  | st, b :: bs =>
    let (o, s1) := scramble st (octetBits b.octets)
    let (r, s2) := wireBlocks s1 bs
    ([b.control, !b.control] ++ o ++ r, s2)

/-- The scrambler's state after `n` idle blocks: it runs on between frames. -/
def idleBlocks : Nat → W64 → W64
  | 0, st => st
  | n + 1, st => idleBlocks n (scramble st (octetBits idleBlock.octets)).2

/-- The bits that a frame puts on its lane. -/
def TxOut.wire (t : TxOut) : List Bool := (wireBlocks t.scr (frameBlocks t.hdr t.body)).1

/-- A frame's bits as a receiver has them, sync headers left out: its descrambler takes its state from the bits received. -/
def received (st : W64) (b : List Byte) : List Bool := descramble st (scramble st (octetBits b)).1

/-- The time of `n` blocks on a lane, 2.56 ns each, in units of the time base. -/
def blockTime (n : Nat) : Nat := ceilDiv (n * 16777216) 100

/-- The time that a frame occupies its lane: its blocks and an idle block. -/
def frameTime (f : TxFrame) : Nat := blockTime (f.len + 4)

/-! ### The lane of a frame (R245, R251) -/

/-- The unit's own ring address; 0 for a unit that never joined a ring (R249). -/
def hereAddr (s : State) : Nat := if rdB s F.xrAddrAddrValid then rd s F.xrAddrAddr else 0

/-- Unit `k` is in the present map (R253). -/
def xrPresent (s : State) (k : Nat) : Bool := bitOf (rd s F.xrStatusPresent) k

/-- The lane on which a frame to unit `dst` leaves before any wrap (R245): N is one more than the highest address in the
present map. -/
def fwdLane (s : State) (dst : Nat) : Nat :=
  let n := ((List.range 16).filter (xrPresent s)).foldl (fun m k => max m (k + 1)) 1
  let d := (dst + n - hereAddr s % n) % n
  if d ≤ n - d then 0 else 1

/-- The lane of a frame that this unit originates (R245). -/
def bodyLane (s : State) : TxFrame → Nat
  | .timeReq hop | .timeRsp hop _ _ _ _ => if hop = 0 then 1 else 0
  | .fwdPkt d _ _ _ _ _ | .fwdAck d _ | .fwdRcpt d _ _ _ _ | .rcptAck d _ => fwdLane s d
  | _ => 0

/-- The unit wraps for the loss of an incoming lane (R251), until it unwraps (R252). -/
def laneLost (s : State) (lane : Nat) : Bool := rdB s F.xrStatusWrapped && s.ring.lost.contains lane

/-- The lane after the folding of a wrapped unit (R251): it lost its downstream hop with lane 1, its upstream hop with
lane 0. -/
def foldLane (s : State) (lane : Nat) : Nat :=
  if lane = 0 then (if laneLost s 1 then 1 else 0) else (if laneLost s 0 then 0 else 1)

/-- A frame of the time exchange of a hop (R257). -/
def TxFrame.perHop : TxFrame → Bool
  | .timeReq _ | .timeRsp _ _ _ _ _ => true
  | _ => false

/-- A frame that every unit takes: BCAST of its header. -/
def TxFrame.wide : TxFrame → Bool
  | .enum _ _ _ | .presence _ | .allot _ _ | .step _ | .bcast _ => true
  | _ => false

/-- The header of a frame that this unit originates: the head sends ENUM frames under address 0 (R246).
(DEDUCED, log entry 97.) -/
def ownHdr (s : State) (f : TxFrame) : FrameHdr :=
  let (dst, seq, retry) := match f with
    | .fwdPkt d n r _ _ _ | .fwdRcpt d n r _ _ => (d, n, r)
    | .fwdAck d _ | .rcptAck d _ => (d, 0, false)
    | _ => (0, 0, false)
  { src := BitVec.ofNat 4 (match f with | .enum _ _ _ => 0 | _ => hereAddr s), dst := BitVec.ofNat 4 dst, bcast := f.wide,
    retry := retry, seq := BitVec.ofNat 8 seq, hops := 0, lane := 0, named := 0, len := 0, blocks := 0, crc := 0 }

/-! ### The outgoing lanes (R244, R250) -/

/-- The port drives its outputs: it is enabled, PD_HK works, VDD_RING is there, and the unit is in READY or ACTIVE (R246,
R250, R394). -/
def portDrives (s : State) : Bool :=
  domUp s dHk && s.power.supply.getLsbD 4 && rd s F.xrStatusState ≠ 0 && (s.power.mode = .ready || s.power.mode = .active)

def updPort (s : State) (f : RingPort → RingPort) : State := { s with ring := f s.ring }
def getTx (s : State) (lane : Nat) : TxLane := Tab.get s.ring.tx lane {}

/-- The frame that a lane sends next (R244): of the time exchange; else one that passes, unless eight have passed in a row
while one of its own waits; else its own, each in order of arrival. (DEDUCED, log entry 98.) -/
def pickTx (s : State) (lane : Nat) : Option TxWait :=
  let first := fun c => s.ring.txq.find? (fun w => w.lane = lane && w.cls = c)
  match first .time, first .pass, first .own with
  | some w, _, _ => some w
  | none, some w, none => some w
  | none, some w, some o => some (if 8 ≤ (getTx s lane).passed then o else w)
  | none, none, o => o

/-- The frames passed in a row after `w` is sent. -/
def passedNext (s : State) (w : TxWait) : Nat :=
  match w.cls with
  | .time => (getTx s w.lane).passed
  | .pass => if s.ring.txq.any (fun x => x.lane = w.lane && x.cls = .own) then (getTx s w.lane).passed + 1 else 0
  | .own => 0

/-- The state of a lane's scrambler at a start block that leaves at `t`: it has run on through the idle blocks since the
last frame; at the first frame after electrical idle it is free. -/
def scrAt (s : State) (lane t : Nat) : W64 × State :=
  let x := getTx s lane
  match x.scr with
  | some st => (idleBlocks (100 * (t - x.freeAt) / 16777216) st, s)
  | none => freeWord s

/-- The time base at a moment not after now. -/
def fineAt (s : State) (t : Nat) : Nat := s.fine - (s.clk - t)

/-- What is taken as the start block of a frame of the time exchange crosses the serdes at `t` (R257): t3 of an answer, and t1
of a request. -/
def stamped (s : State) (t : Nat) (f : TxFrame) : TxFrame × State :=
  match f with
  | .timeReq hop => (f, updPort s (fun r => { r with t1 := Tab.set r.t1 hop (fineAt s t) }))
  | .timeRsp hop t2 _ o d => (.timeRsp hop t2 (fineAt s t % 2 ^ 40) o d, s)
  | _ => (f, s)

/-- A waiting frame is put on its lane. -/
def sendTx (s : State) (w : TxWait) : State :=
  let t := max (getTx s w.lane).freeAt w.since
  let (body, s0) := stamped s t w.body
  let (scr, s1) := scrAt s0 w.lane t
  let hdr := sealFrame w.hdr body w.lane
  { updPort s1 (fun r => { r with
      txq := r.txq.erase w,
      tx := Tab.set r.tx w.lane { freeAt := t + frameTime w.body, passed := passedNext s w,
                                  scr := some (wireBlocks scr (frameBlocks hdr body)).2 } }) with
    ringTx := s.ringTx ++ [{ lane := w.lane, hdr := hdr, body := body, at_ := t, scr := scr }] }

/-- The outputs are in electrical idle from now on: what waited for them is not sent (R250). -/
def ringOff (s : State) : State := updPort s (fun r => { r with tx := [], txq := [] })

/-- A lane sends what waits for it, as far as the time has come. -/
def drainLane (lane : Nat) : Nat → State → State
  | 0, s => s
  | n + 1, s =>
    if (getTx s lane).freeAt ≤ s.clk then
      match pickTx s lane with
      | some w => drainLane lane n (sendTx s w)
      | none => s
    else s

/-- Both lanes send what waits for them, while the port drives them. -/
def ringDrain (s : State) : State :=
  let n := s.ring.txq.length
  if portDrives s then drainLane 1 n (drainLane 0 n s) else s

/-- A frame joins those that wait for a lane; nothing is sent while the outputs are idle (R250). -/
def ringPut (s : State) (lane : Nat) (c : TxClass) (h : FrameHdr) (f : TxFrame) : State :=
  if portDrives s then
    let s1 := ringDrain s
    ringDrain (updPort s1 (fun r => { r with txq := r.txq ++ [⟨lane, c, h, f, s1.clk⟩] }))
  else s

/-- Puts a frame that this unit originates on the ring (R243, R245); none while the core clock is parked (R420). A frame of
the time exchange keeps the lane of its hop, so that the lane can heal (R241, R252). (DEDUCED, log entry 99.) -/
def ringSend (s : State) (f : TxFrame) : State :=
  if parked s then s
  else
    let l := bodyLane s f
    ringPut s (if f.perHop then l else foldLane s l) (if f.perHop then .time else .own) (ownHdr s f) f

end Sys2Proof.Machine
end

