-- ==== Sys2Proof/Machine/Receipt.lean ====
section
/-! DEFINITION. How an item ends: the receipt is composed, waits in the hold, is written to its receipt ring and leaves
the hold when its write response arrives in order (R41–R51, R66–R70). -/

namespace Sys2Proof.Machine

/-! ### Ring pairs -/

def tellerOf (s : State) (k : Nat) : Nat := rd s F.ringCfgTeller k
def ringLevel (s : State) (k : Nat) : Nat := rd s F.ringCfgRingLevel k
def sqSize (s : State) (k : Nat) : Nat := 2 ^ rd s F.ringCfgSqLog2 k
def rqSize (s : State) (k : Nat) : Nat := 2 ^ rd s F.ringCfgRqLog2 k

/-- The item of pair `k`. -/
def ofPair (k : Nat) (it : Item) : Bool := it.origin = .host k

/-- IN_FLIGHT of a pair: items whose receipt has not been written (SQ_HEAD). -/
def inFlight (s : State) (k : Nat) : Nat :=
  (s.items.filter (ofPair k)).length + (s.hold.filter (fun h => h.pair = k && !h.reloc)).length

/-- Items in flight over the rings bound to teller `t` (R43). -/
def tellerLoad (s : State) (t : Nat) : Nat :=
  (s.items.filter (fun it => match it.origin with | .host k => tellerOf s k = t | _ => false)).length
  + (s.hold.filter (fun h => !h.reloc && tellerOf s h.pair = t)).length

/-- Relocation receipts of a pair that are written and not yet answered (R327). -/
def relocWriting (s : State) (k : Nat) : Nat := (s.hold.filter (fun h => h.pair = k && h.reloc)).length

/-- Free receipt slots of a pair (R42); a relocation receipt being written takes its slot (R327). -/
def freeSlots (s : State) (k : Nat) : Nat := rqSize s k - (getRing s k).unret - inFlight s k - relocWriting s k

/-- A teller works: its front end is up and its engine runs (R16, R351, R352). -/
def tellerUp (s : State) (t : Nat) : Bool := feUp s (t / 2) && engRunning s (12 + t / 2) (t % 2)

/-! ### The receipt of an item (R66, R128) -/

/-- Quarters of a page that count in the receipt: those in QMASK; all four for COPY, patrol reads and margin reads. -/
def Item.wants (it : Item) (q : Nat) : Bool :=
  it.pkt.op = 8 || opProgram it.pkt.op || it.origin = .patrol || it.origin = .boot || it.pkt.qmask.getLsbD q

/-- The quarters of an item's pages that carry decode results: (quarter index, quarter). -/
def Item.results (it : Item) : List (Nat × Quarter) :=
  it.pages.flatMap (fun pg => (pg.q.zipIdx.filter (fun e => it.wants e.2)).map (fun e => (e.2, e.1)))

/-- The worst grade (R61, R71). -/
def Item.grade (it : Item) : Nat := it.results.foldl (fun g e => max g e.2.grade) it.srcGrade

/-- CORR_Qq: the largest over the planes (R61, R128). -/
def Item.corr (it : Item) (q : Nat) : Nat := it.results.foldl (fun c e => if e.1 = q then max c e.2.corr else c) (it.srcCorr.getD q 0)

/-- POISON: the quarters delivered poisoned, the OR over the planes (R61, R66, R128). -/
def Item.poison (it : Item) : Nat := bitsWhere 4 (fun q => it.results.any (fun e => e.1 = q && e.2.poisoned && e.2.delivered))

/-- The decode fields apply: a decode ran, or a quarter was found erased or became final without one (R128). -/
def Item.graded (it : Item) : Bool :=
  it.decoded || it.results.any (fun e => match e.2.st with | .failed | .passed | .erased | .unc => true | _ => false)

/-- Bytes 4–7 of the receipt (R66). -/
def Item.word (it : Item) : W32 :=
  if it.pkt.op = 0x0b ∨ it.pkt.op = 0x0d then it.result
  else if it.graded then
    BitVec.ofNat 32 (sat 255 (it.corr 0) + 2 ^ 8 * sat 255 (it.corr 1) + 2 ^ 16 * sat 255 (it.corr 2) + 2 ^ 24 * sat 255 (it.corr 3))
  else 0

/-- The deadline of an item is missed at a tick (R56). -/
def Item.missed (it : Item) (tick : Nat) : Bool :=
  it.pkt.deadline ≠ 0 && it.launchRef + it.pkt.deadline.toNat < tick && !(it.pkt.op = 0x10 && it.pkt.opByte 8 = 5)

/-- Where a receipt says the item ran: the unit named in the packet for an item that ended FORWARD_FAIL, else here
(R77). -/
def execUnit (s : State) (it : Item) (st : Status) : Nat := if st = .forwardFail then it.pkt.unit.toNat else hereAddr s

/-- The receipt of an item that ends with the statuses it carries (R66–R71, R77). (DEDUCED, log entry 21.) -/
def receiptOf (s : State) (it : Item) : Receipt :=
  let st := statusOf it.marks
  let tick := it.doneTick.getD (fineTick s)
  { tag := it.pkt.tag, status := st.code, grade := if it.graded then it.grade else 0, gradeValid := it.graded,
    word := it.word, iters := it.iters, soft := it.softStep + 32 * it.softUsed, poison := it.poison,
    dieStatus := it.dieStatus, suspends := it.suspends, ledgerWait := ceilDiv it.ledgerWait usU, tick := tick,
    launchLo := (it.launchTickAt.getD 0) % 2 ^ 32,
    rflags := bit (st = .forwardFail) + 2 * bit it.deliveryUnknown + 8 * bit (it.missed tick),
    execUnit := execUnit s it st, opcode := it.pkt.opcode, check := if st = .misaligned then it.check else 0 }

/-! ### The hold (R43, R45, R51) -/

/-- A receipt with PHASE in bit 7 of byte 28. -/
def withPhase (b : List Byte) (ph : Bool) : List Byte :=
  b.set 28 ((b.getD 28 0 &&& 0x7f#8) ||| (if ph then 0x80#8 else 0))

/-- Receipts of a pair in the hold that have a slot. -/
def placed (s : State) (k : Nat) : Nat := (s.hold.filter (fun h => h.pair = k && h.slot.isSome)).length

/-- The slot at `n` places after RQ_TAIL, and the PHASE of its pass (R45). -/
def slotAt (s : State) (k n : Nat) : Nat × Bool :=
  let t := rd s F.rqTailTail k + n
  if t < rqSize s k then (t, rdB s F.rqTailPhase k) else (t % rqSize s k, !rdB s F.rqTailPhase k)

/-- The H_INI request that writes a receipt to a slot (R67, R371). -/
def receiptReq (s : State) (h : HeldRcpt) (slot : Nat) (ph : Bool) : HiReq :=
  { write := true, src := srcOfTeller (tellerOf s h.pair), addr := rd s F.rqBaseBase h.pair * 4096 + 32 * slot, len := 32,
    ring := ringLevel s h.pair, attr := rd s F.hpAttrWbAttr, use := .receipt h.pair slot h.item,
    data := withPhase h.bytes ph, poison := [false], cls := 1 }

/-- The teller may write receipts of a pair. -/
def mayWrite (s : State) (k : Nat) : Bool := tellerUp s (tellerOf s k) && !rdB s F.ringStatusRcptErr k

/-- Gives one receipt of the hold its slot and issues its write. -/
def writeOne (s : State) (h : HeldRcpt) : State :=
  let (slot, ph) := slotAt s h.pair (placed s h.pair)
  let s1 := { s with hold := s.hold.map (fun x => if x = h then { x with slot := some slot } else x) }
  hiSend s1 [receiptReq s h slot ph]

/-- Writes every receipt of a pair that waits in the hold without a slot, in the order in which the items ended
(R68). -/
def writeReceipts (s : State) (k : Nat) : State :=
  if mayWrite s k then
    (s.hold.filter (fun h => h.pair = k && h.slot.isNone && !h.reloc)).foldl writeOne s
  else s

/-- Writes again every receipt of a pair that has a slot, each into its same slot (R51). -/
def rewriteReceipts (s : State) (k : Nat) : State :=
  if mayWrite s k then
    let tail := rd s F.rqTailTail k
    let hs := s.hold.filter (fun h => h.pair = k && h.slot.isSome)
    hiSend s (hs.map (fun h =>
      let sl := h.slot.getD 0
      receiptReq s h sl (if tail ≤ sl then rdB s F.rqTailPhase k else !rdB s F.rqTailPhase k)))
  else s

/-- The write of a receipt's slot waits or is outstanding on H_INI. -/
def rcptOut (s : State) (h : HeldRcpt) (sl : Nat) : Bool :=
  (s.hi.waiting ++ s.hi.writes).any (fun r => r.use = .receipt h.pair sl h.item)

/-- Writes again the receipts of a pair whose write was lost with its front end (R16, R43). -/
def rewriteLost (s : State) (k : Nat) : State :=
  if mayWrite s k then
    let tail := rd s F.rqTailTail k
    hiSend s ((s.hold.filter (fun h => h.pair = k)).filterMap (fun h =>
      match h.slot with
      | some sl =>
        if sl ∈ (getRing s k).okSlots ∨ rcptOut s h sl then none
        else some (receiptReq s h sl (if tail ≤ sl then rdB s F.rqTailPhase k else !rdB s F.rqTailPhase k))
      | none => none))
  else s

/-- The receipts of a pair that still wait for a credit are withdrawn (R51). -/
def withdrawReceipts (s : State) (k : Nat) : State :=
  { s with hi := { s.hi with waiting := s.hi.waiting.filter (fun r => match r.use with | .receipt j _ _ => j ≠ k | _ => true) } }

/-- The teller newly bound to a pair writes its receipts (R49): those whose write still waits go out as its own. -/
def rebindReceipts (s : State) (k : Nat) : State :=
  writeReceipts (rewriteLost { s with hi := { s.hi with waiting := s.hi.waiting.map (fun r =>
    match r.use with
    | .receipt j _ _ => if j = k then { r with src := srcOfTeller (tellerOf s k) } else r
    | _ => r) } } k) k

/-- Every pair with a receipt in the hold. -/
def heldPairs (s : State) : List Nat := (s.hold.map (fun h => h.pair)).eraseDups

/-- Writes what every pair bound to teller `t` has in the hold, as when the teller comes back. -/
def tellerResume (s : State) (t : Nat) : State :=
  (heldPairs s).foldl (fun s k => if tellerOf s k = t then writeReceipts (rewriteLost s k) k else s) s

/-- Places a composed receipt in the hold, and writes it if its teller may. -/
def holdPut (s : State) (h : HeldRcpt) : State := writeReceipts { s with hold := s.hold ++ [h] } h.pair

/-! ### Frames to the ring -/

/-- The next sequence number of frames to a destination. -/
def nextSeq (s : State) (dst : Nat) : Nat × State :=
  let n := Tab.get s.ring.seqTx dst 0
  (n, { s with ring := { s.ring with seqTx := Tab.set s.ring.seqTx dst ((n + 1) % 256) } })

/-- Returns a receipt to the unit that an item came from, and keeps it until RCPT_ACK (R265); the receipt for a unit
that is not present is discarded and counted (R78, R266). -/
def sendFwdRcpt (s : State) (dst handle : Nat) (b : List Byte) : State :=
  if xrPresent s dst then
    let (n, s1) := nextSeq s dst
    ringSend { s1 with ring := { s1.ring with rcpts := s1.ring.rcpts ++ [⟨handle, dst, n, b, s.clk⟩] } }
      (.fwdRcpt dst n false handle b)
  else tally s 0x45

/-! ### Ending an item -/

/-- Coins that an item holds and has not used: set-asides and grants whose tenure has not begun. -/
def unusedCoin (id : Nat) (c : Coin) : Bool := c.item = some id && c.sort ≠ .charged

/-- Takes an item out of every queue: LUN queues, tenures asked for, gates, requests, slots, decode jobs and entries not
begun. -/
def cleanup (s : State) (id : Nat) : State :=
  { s with
    luns := s.luns.map (fun e => (e.1, { e.2 with
      queue := e.2.queue.filter (fun i => i ≠ id), head := e.2.head.filter (fun i => i ≠ id),
      chain := if e.2.chain = some id then none else e.2.chain })),
    chans := s.chans.map (fun e => (e.1, { e.2 with
      want := e.2.want.filter (fun t => t.item ≠ some id), gate := if e.2.gate = some id then none else e.2.gate })),
    ledger := { s.ledger with asks := s.ledger.asks.filter (fun a => a.item ≠ id),
                              coins := s.ledger.coins.filter (fun c => !unusedCoin id c) },
    jobs := s.jobs.filter (fun j => j.item ≠ id),
    staging := { s.staging with held := s.staging.held.filter (fun h => h.2 ≠ id),
                                asks := s.staging.asks.filter (fun a => a.item ≠ id) },
    dma := s.dma.map (fun e => (e.1, { e.2 with queue := e.2.queue.filter (fun x => x.item ≠ id) })) }

/-- Counts the end of an item (R468). -/
def tallyEnd (s : State) (it : Item) (st : Status) : State :=
  let s1 := tallyC s (0x10 + st.code) it.cls
  let s2 := if st = .okLate ∧ it.pkt.usesQueue then tallyC s1 (0x140 + it.lun.ch) it.cls else s1
  if (st = .dieFail ∨ st = .dieTimeout) ∧ it.pkt.usesQueue then tallyC s2 (0x240 + it.lun.ch) it.cls else s2

/-! ### Relocation receipts (R324, R326) -/

/-- CE_LUN of a LUN (R53). -/
def ceLunOf (l : Lun) : Nat := l.ce + 16 * l.lun

/-- The statuses that a relocation receipt may carry (R324). -/
def relocStatus (ms : List Status) : Status :=
  statusOf (ms.filter (fun st => st = .dieFail || st = .dieTimeout || st = .interruptedPowerfail || st = .mcheck
    || st = .verifyFail || st = .uncorrectable))

/-- The 32 bytes of a relocation receipt (R326). -/
def relocBytes (s : State) (it : Item) (r : Reloc) (empty : Bool) : List Byte :=
  leBytes 2 s.patrol.tag.toNat ++ [BitVec.ofNat 8 (relocStatus it.marks).code, BitVec.ofNat 8 (r.grade % 8 + 8 * bit it.graded)]
  ++ [BitVec.ofNat 8 it.lun.ch, BitVec.ofNat 8 (ceLunOf r.oldLun), (r.ent.map (fun e => e.ceLun)).getD 0,
      BitVec.ofNat 8 (bit r.newValid + 2 * bit empty)]
  ++ leBytes 5 r.oldRow ++ leBytes 5 ((r.ent.map (fun e => e.row)).getD 0)
  ++ [BitVec.ofNat 8 (r.strength % 8), BitVec.ofNat 8 (sat 255 r.corrMax)]
  ++ leBytes 4 (it.launchTickAt.getD 0) ++ leBytes 4 (fineTick s) ++ [4, BitVec.ofNat 8 (hereAddr s), 0x13, 0]

/-- HK0 composes a relocation receipt and holds it (R324, R327). -/
def relocCompose (s : State) (it : Item) (r : Reloc) (empty : Bool) : State :=
  { s with patrol := { s.patrol with
      relocs := s.patrol.relocs.filter (fun x => x.item ≠ it.id),
      receipts := s.patrol.receipts ++ [{ pair := s.patrol.pair, item := it.id, bytes := relocBytes s it r empty,
                                          rcptIrq := false, reloc := true }] } }

/-- HK0 composes a relocation receipt, or, while it holds 64, keeps it to be composed (R327). -/
def relocWrite (s : State) (it : Item) (r : Reloc) (empty : Bool) : State :=
  if s.patrol.receipts.length < 64 then relocCompose s it r empty
  else
    { s with patrol := { s.patrol with
        relocs := s.patrol.relocs.filter (fun x => x.item ≠ it.id), waiting := s.patrol.waiting ++ [⟨it, r, empty⟩] } }

/-- A receipt that waited is composed once fewer than 64 are held. -/
def relocNext (s : State) : State :=
  match s.patrol.waiting with
  | w :: q =>
    if s.patrol.receipts.length < 64 then relocCompose { s with patrol := { s.patrol with waiting := q } } w.it w.reloc w.empty
    else s
  | [] => s

/-- The largest corrected-bit count of an item's quarters (R326). -/
def corrMax (it : Item) : Nat := it.results.foldl (fun m e => max m e.2.corr) 0

/-- What a patrol read found, for its relocation. -/
def relocOf (it : Item) : Reloc :=
  { item := it.id, oldLun := it.lun, oldRow := (it.pages.headD {}).row, grade := it.grade, corrMax := corrMax it }

/-- A patrol read has failed: not one that power-fail or its channel made it abandon (R322, R323). -/
def readFailed (it : Item) : Bool := it.marks.any (fun m => m = .dieTimeout || m = .dieFail || m = .mcheck || m = .uncorrectable)

/-- A patrol read or relocation ends: a relocation leaves a receipt, and so does a read that failed (R323, R324). -/
def patrolEnd (s : State) (it : Item) : State :=
  match s.patrol.relocs.find? (fun r => r.item = it.id) with
  | some r => relocWrite s it r false
  | none => if readFailed it then relocWrite s it (relocOf it) false else s

/-- Ends an item (R41): its receipt is composed from the statuses that apply, and goes to the hold of its pair, or back
to the unit it came from. A patrol read makes no receipt unless it relocates (R323), HK0's work on the boot twin makes
none. -/
def endCore (s : State) (id : Nat) : State :=
  match findItem s id with
  | none => s
  | some it =>
    let r := receiptOf s it
    let s1 := dropItem (cleanup s id) id
    match it.origin with
    | .host k =>
      holdPut (tallyEnd s1 it (statusOf it.marks))
        { pair := k, item := id, bytes := r.bytes, rcptIrq := it.pkt.rcptIrq }
    | .fwd src h =>
      let s2 := sendFwdRcpt (tally (tallyEnd s1 it (statusOf it.marks)) 8) src h r.bytes
      { s2 with fences := s2.fences.map (fun f => { f with waits := f.waits.filter (fun i => i ≠ id) }) }
    | .patrol => patrolEnd s1 it
    | .boot => s1

/-- Ends every FENCE that waits for no item any more (R74). -/
def endFences (s : State) : State :=
  let done := s.fences.filter (fun f => f.waits.isEmpty)
  done.foldl (fun s f => endCore s f.item) { s with fences := s.fences.filter (fun f => !f.waits.isEmpty) }

/-- What HK0's last work on the boot twin adds to the receipt of its BOOT_SWAP: die status, suspends, ledger wait and
the first launch (R57, R66). -/
def swapGather (s : State) (w : Swap) (it : Item) : State :=
  updItem s w.id (fun i => { i with
    dieStatus := if it.pkt.op = 1 then i.dieStatus else it.dieStatus, suspends := i.suspends + it.suspends,
    ledgerWait := i.ledgerWait + it.ledgerWait, launchTickAt := i.launchTickAt.or it.launchTickAt })

/-- The status that a BOOT_SWAP takes from the work that ended it (R337): power-fail before its step 3 leaves the flash
unaffected, later it interrupts. -/
def swapStatus (w : Swap) (st : Status) : Status :=
  match st with
  | .notIssuedPowerfail =>
    match w.step with | .header _ | .erase => .notIssuedPowerfail | _ => .interruptedPowerfail
  | .interruptedPowerfail =>
    match w.step with | .header _ => .notIssuedPowerfail | _ => .interruptedPowerfail
  | x => x

/-- A BOOT_SWAP ends with the statuses of the work that ended it (R337). -/
def swapEnd (s : State) (ms : List Status) : State :=
  match s.boot.swap with
  | none => s
  | some w =>
    let s1 := ms.foldl (fun s st => mark s w.id (swapStatus w st)) { s with boot := { s.boot with swap := none } }
    endFences (endCore s1 w.id)

/-- A read of a reload of the shadow has ended without its data: the load pauses under PWR_WARN (R332), and else has failed. -/
def loadReadEnds (s : State) (l : Load) (ms : List Status) : State :=
  let paused := ms.any (fun m => m = .notIssuedPowerfail || m = .interruptedPowerfail)
  { s with boot := { s.boot with load := some { l with item := none, step := if paused then l.step else .done } } }

/-- The read of a reload that an item carries out. -/
def loadOf (s : State) (id : Nat) : Option Load := s.boot.load.filter (fun l => l.item = some id)

/-- Ends an item (R41), and what its end brings about at once: the end of a FENCE that waited for it, of a BOOT_SWAP that
it carried out. -/
def endItem (s : State) (id : Nat) : State :=
  match findItem s id with
  | none => s
  | some it =>
    match it.origin, loadOf s id, s.boot.swap with
    | .boot, some l, _ => loadReadEnds (endCore s id) l it.marks
    | .boot, none, some w => swapEnd (swapGather (endCore s id) w it) it.marks
    | .fwd _ _, _, _ => endFences (endCore s id)
    | _, _, _ => endCore s id

/-- Ends an item with a further status. -/
def endWith (s : State) (id : Nat) (st : Status) : State := endItem (mark s id st) id

/-- Ends every item of a list with a further status. -/
def endAll (s : State) (ids : List Nat) (st : Status) : State := ids.foldl (fun s id => endWith s id st) s

/-! ### Receipts that have been written (R45, R47, R51) -/

/-- The count condition of R47 is tested: at every receipt, and when IRQ_COAL or RING_CFG changes. -/
def coalCount (s : State) (k : Nat) : State :=
  let cnt := rd s F.irqCoalCoalCount k
  if rdB s F.ringCfgIrqEvery k ∧ cnt ≠ 0 ∧ cnt ≤ (getRing s k).written then flag1 s F.ringStatusIrqPend k else s

/-- IRQ_PEND by a receipt just written (R47). -/
def receiptIrq (s : State) (k : Nat) (h : HeldRcpt) : State :=
  let r := getRing s k
  let n := r.written + 1
  let s1 := updRing s k (fun r => { r with written := n, firstAt := some (r.firstAt.getD s.clk) })
  let code := (h.bytes.getD 2 0).toNat
  let now := (rdB s F.ringCfgIrqFlagged k && h.rcptIrq) || (rdB s F.ringCfgIrqError k && 1 < code)
    || (rdB s F.ringCfgIrqEvery k && rd s F.irqCoalCoalCount k = 0 && rd s F.irqCoalCoalTime k = 0)
  coalCount (if now then flag1 s1 F.ringStatusIrqPend k else s1) k

/-- The receipt of an item is written: flags and fences that waited for it go on (R73, R74). -/
def rcptWritten (s : State) (k : Nat) (h : HeldRcpt) : State :=
  let s1 := receiptIrq s k h
  let s2 := updRing s1 k (fun r => { r with fenceAfter := if r.fenceAfter = some h.item then none else r.fenceAfter })
  endFences { s2 with fences := s2.fences.map (fun f => { f with waits := f.waits.filter (fun i => i ≠ h.item) }) }

/-- Advances RQ_TAIL over one slot whose receipt was answered OKAY (R51). -/
def tailStep (s : State) (k : Nat) (h : HeldRcpt) : State :=
  let t := rd s F.rqTailTail k
  let s1 := { s with hold := s.hold.filter (fun x => !(x.pair = k && x.slot = some t)) }
  let s2 := updRing s1 k (fun r => { r with okSlots := r.okSlots.filter (fun i => i ≠ t), unret := r.unret + 1 })
  let s3 := if t + 1 < rqSize s k then wr1 s2 F.rqTailTail k (t + 1)
            else wr1 (wr1 s2 F.rqTailTail k 0) F.rqTailPhase k (bit (!rdB s F.rqTailPhase k))
  rcptWritten s3 k h

/-- Advances RQ_TAIL over at most `n` slots answered OKAY. -/
def tailAdvance (s : State) (k : Nat) : Nat → State
  | 0 => s
  | n + 1 =>
    let t := rd s F.rqTailTail k
    match s.hold.find? (fun h => h.pair = k && h.slot = some t) with
    | some h => if t ∈ (getRing s k).okSlots then tailAdvance (tailStep s k h) k n else s
    | none => s

/-- The write response of a receipt (R51). An error halts the pair: writes not issued yet are not issued. -/
def receiptAck (s : State) (k slot item err : Nat) : State :=
  if err ≠ 0 then withdrawReceipts (flag1 s F.ringStatusRcptErr k) k
  else if s.hold.any (fun h => h.pair = k && h.slot = some slot && h.item = item) then
    let s1 := updRing s k (fun r => { r with okSlots := if slot ∈ r.okSlots then r.okSlots else r.okSlots ++ [slot] })
    tailAdvance s1 k s1.hold.length
  else s

end Sys2Proof.Machine
end

