-- ==== Sys2Proof/Machine/Staging.lean ====
section
/-! DEFINITION. Staging memory (R308–R320): lines with SECDED and poison, row remap, the flip mask, slots and their
grants, and the SRAM scrubber's visit. -/

namespace Sys2Proof.Machine

/-! ### Lines (R308, R309, R318) -/

/-- The bank and the line of a staging byte address. -/
def bankOf (a : Nat) : Nat := a / 2 ^ 21
def lineOf (a : Nat) : Nat := a % 2 ^ 21 / 64

/-- The remap entry in force for a row of a bank (R318): the lowest-numbered valid entry naming the row, unless a lower
one names the same SPARE. -/
def remapFor (s : State) (b row : Nat) : Option Nat :=
  let v := fun e => rdB s F.smRemapValid b e
  (List.range 8).find? (fun e => v e && rd s F.smRemapRow b e = row
    && !((List.range e).any (fun e' => v e' && rd s F.smRemapSpare b e' = rd s F.smRemapSpare b e)))

/-- Where line `ln` of bank `b` is stored, as a line number of the store (R318). -/
def storedLine (s : State) (b ln : Nat) : Nat :=
  match remapFor s b (ln / 64) with
  | some e => (2 ^ 25 + b * 2 ^ 15 + rd s F.smRemapSpare b e * 4096) / 64 + ln % 64
  | none => (b * 2 ^ 21) / 64 + ln

/-- What a line of the store carries beside its data. -/
def lineMeta (s : State) (n : Nat) : LineMeta := Tab.get s.staging.lines n {}

def setMeta (s : State) (n : Nat) (m : LineMeta) : State :=
  { s with staging := { s.staging with lines := Tab.set s.staging.lines n m } }

/-- The stored bytes of a line of the store. -/
def lineBytes (s : State) (n : Nat) : List Byte := s.staging.mem.readList (64 * n) 64

/-- Logs a word error (R315): an uncorrectable error replaces a logged corrected one. -/
def eccLog (s : State) (b ln w bit_ : Nat) (ue scrub : Bool) : State :=
  if rdB s F.smEccLogValid && (rdB s F.smEccLogUe || !ue) then s
  else setR s .smEccLog 0 0 0 (BitVec.ofNat 64
    (b + 2 ^ 4 * ln + 2 ^ 19 * w + 2 ^ 22 * bit_ + 2 ^ 29 * bit ue + 2 ^ 30 * bit scrub + 2 ^ 31))

/-- Counts, flags and logs a corrected word error, and an uncorrectable one (R315). -/
def eccCorrected (s : State) (b ln w bit_ : Nat) (scrub : Bool) : State :=
  tally (eccLog (flag0 (addSat s F.smEccStatusCorrected 0 1) F.smEccStatusCeSeen) b ln w bit_ false scrub) 0x58
def eccUncorrectable (s : State) (b ln w : Nat) (scrub : Bool) : State :=
  tally (eccLog (flag0 (addSat s F.smEccStatusUncorrectable 0 1) F.smEccStatusUeSeen) b ln w 0x7f true scrub) 0x59

/-- The lowest set bit of a mask of `n` bits. -/
def lowBit (n m : Nat) : Nat := ((List.range n).find? (fun i => bitOf m i)).getD 0

/-- A line read: its bytes as returned, and whether it counts as poisoned for the consumer (R315, R316). -/
structure LineRead where
  data : List Byte
  poison : Bool
  st : State

/-- The effect of one word's errors on a line read. A word with more than two wrong bits is outside what R315 states:
whether it reads as corrected or uncorrectable, and the word returned, are free. (DEDUCED, log entry 20.) -/
def readWord (b ln : Nat) (scrub : Bool) (r : LineRead) (f : Nat × W64 × Byte) : LineRead :=
  let (w, d, c) := f
  let n := popCount 64 d.toNat + popCount 8 c.toNat
  if n = 0 then r
  else if n = 1 then
    let pos := if d = 0 then 64 + lowBit 8 c.toNat else lowBit 64 d.toNat
    let fixed := if d = 0 then r.data else flipBits r.data [64 * w + lowBit 64 d.toNat]
    { r with data := fixed, st := eccCorrected r.st b ln w pos scrub }
  else if n = 2 then { r with poison := true, st := eccUncorrectable r.st b ln w scrub }
  else
    let (u, s1) := freeBit r.st
    let (x, s2) := freeWord s1
    let data := r.data.take (8 * w) ++ leBytes 8 x.toNat ++ r.data.drop (8 * w + 8)
    if u then { data := data, poison := true, st := eccUncorrectable s2 b ln w scrub }
    else let (y, s3) := freeWord s2
         { data := data, poison := r.poison, st := eccCorrected s3 b ln w (y.toNat % 72) scrub }

/-- Reads a line (R309, R310, R315). A line whose INIT is 0 reads free bytes and may report a false error. -/
def readLine (s : State) (b ln : Nat) (scrub : Bool := false) : LineRead :=
  let n := storedLine s b ln
  let m := lineMeta s n
  if m.init then
    m.flips.foldl (readWord b ln scrub) { data := lineBytes s n, poison := m.poison, st := s }
  else
    let (bs, s1) := freeBytes s 64
    let (ce, s2) := freeBit s1
    let (ue, s3) := freeBit s2
    let (x, s4) := freeWord s3
    let s5 := if ce then eccCorrected s4 b ln (x.toNat % 8) (x.toNat / 8 % 72) scrub else s4
    let s6 := if ue then eccUncorrectable s5 b ln (x.toNat % 8) scrub else s5
    { data := bs, poison := ue, st := s6 }

/-- The armed flip of R320 applies to a line written in bank `b`: flips of word 0, and the state with the flip spent. -/
def takeFlip (s : State) (b : Nat) : List (Nat × W64 × Byte) × State :=
  if rdB s F.smFlipCtlArm && rd s F.smFlipCtlBank = b then
    ([(0, getR s .smFlip, BitVec.ofNat 8 (rd s F.smFlipCtlCheckMask))],
     flag0 (wr0 (wr0 (setR s .smFlip 0 0 0 0) F.smFlipCtlCheckMask 0) F.smFlipCtlArm 0) F.smFlipCtlDone)
  else ([], s)

/-- Writes a whole line (R309): data, fresh check bits, INIT, and the poison tag. An armed flip alters word 0. -/
def writeLine (s : State) (b ln : Nat) (data : List Byte) (poison : Bool) : State :=
  let (fl, s1) := takeFlip s b
  let n := storedLine s1 b ln
  let d := padTo 64 (data.take 64)
  let stored := fl.foldl (fun d f => flipBits d ((List.range 64).filter (fun i => bitOf f.2.1.toNat i))) d
  setMeta { s1 with staging := { s1.staging with mem := s1.staging.mem.writeList (64 * n) stored } } n
    { init := true, poison := poison, flips := fl }

/-- Clears INIT of the 64 lines where a row of a bank is stored (R318). -/
def clearRow (s : State) (b row : Nat) : State :=
  forNat 64 (fun s i => setMeta s (storedLine s b (64 * row + i)) {}) s

/-- Reads `n` lines of bank `b` from line `ln`: bytes, one poison flag per line, and the state after. -/
def readLines (s : State) (b ln : Nat) : Nat → List Byte × List Bool × State
  | 0 => ([], [], s)
  | n + 1 =>
    let (bs, ps, s1) := readLines s b ln n
    let r := readLine s1 b (ln + n)
    (bs ++ r.data, ps ++ [r.poison], r.st)

/-- Reads lines as far as they are initialised: of any other, zero bytes stand. -/
def readWritten (s : State) (b ln : Nat) : Nat → List Byte × State
  | 0 => ([], s)
  | n + 1 =>
    let (bs, s1) := readWritten s b ln n
    if (lineMeta s1 (storedLine s1 b (ln + n))).init then
      let r := readLine s1 b (ln + n)
      (bs ++ r.data, r.st)
    else (bs ++ List.replicate 64 0, s1)

/-- Writes consecutive lines; lines without a flag are not poisoned. -/
def writeLines (s : State) (b ln : Nat) (data : List Byte) (ps : List Bool) : State :=
  forNat (ceilDiv data.length 64) (fun s i => writeLine s b (ln + i) (slice data (64 * i) 64) (ps.getD i false)) s

/-! ### Slots (R311–R314) -/

/-- First line of a slot; a slot is numbered bank · 102 + index. -/
def slotBank (sl : Nat) : Nat := sl / 102
def slotLine (sl : Nat) : Nat := 320 * (sl % 102)

def slotRead (s : State) (sl off n : Nat) : List Byte × List Bool × State := readLines s (slotBank sl) (slotLine sl + off) n
def slotWrite (s : State) (sl off : Nat) (data : List Byte) (ps : List Bool := []) : State :=
  writeLines s (slotBank sl) (slotLine sl + off) data ps

/-- Slots of a bank's item area; values above 102 act as 102. -/
def itemSlots (s : State) (b : Nat) : Nat := min 102 (rd s F.smBankCtlItemSlots b)

/-- Held slots of a bank. -/
def slotsUsed (s : State) (b : Nat) : Nat := (s.staging.held.filter (fun h => slotBank h.1 = b)).length
def drained (s : State) (b : Nat) : Bool := slotsUsed s b = 0

/-- A bank may take slots (R313): powered, not fenced, not retired, not holding the shadow. -/
def bankEligible (s : State) (b : Nat) : Bool :=
  domUp s (dSm (b / 8)) && !rdB s F.smBankCtlFence b && !rdB s F.smBankCtlRetire b && !rdB s F.smBankCtlShadow b

def freeIn (s : State) (b : Nat) : Nat := itemSlots s b - slotsUsed s b

/-- The bank of half `h` with the most free slots of those that can meet `n`, lowest first among equals (R313). -/
def bankIn (s : State) (h n : Nat) : Option Nat :=
  (List.range' (8 * h) 8).foldl (fun o b =>
    if bankEligible s b && n ≤ freeIn s b then
      match o with
      | none => some b
      | some c => if freeIn s c < freeIn s b then some b else o
    else o) none

/-- The bank that meets a request for `n` slots of an item of half `h`: of that half, or else of the other (R313). -/
def bankFor (s : State) (h n : Nat) : Option Nat := (bankIn s h n).or (bankIn s (1 - h) n)

/-- The lowest `n` free slots of a bank. -/
def freeSlotsOf (s : State) (b n : Nat) : List Nat :=
  (((List.range (itemSlots s b)).map (fun i => 102 * b + i)).filter (fun sl => !(s.staging.held.any (fun h => h.1 = sl)))).take n

/-- Gives an item its page slots, or its soft slots. -/
def giveSlots (it : Item) (soft : Bool) (sls : List Nat) : Item :=
  if soft then { it with softSlots := sls }
  else { it with pages := it.pages.zipIdx.map (fun e => { e.1 with slot := sls[e.2]?, par := [] }) }

/-- Asks for slots for an item, unless it asks already (R313). -/
def askSlots (s : State) (id n : Nat) (soft : Bool) : State :=
  if s.staging.asks.any (fun a => a.item = id) then s
  else { s with staging := { s.staging with asks := s.staging.asks ++ [⟨id, n, soft⟩] } }

/-- Every page of the item has its slot. -/
def hasSlots (it : Item) : Bool := it.pages.all (fun p => p.slot.isSome)

/-- Frees a slot. -/
def freeSlot (s : State) (sl : Nat) : State :=
  { s with staging := { s.staging with held := s.staging.held.filter (fun h => h.1 ≠ sl) } }

/-- Frees the soft slots of an item (R314). -/
def freeSoft (s : State) (id : Nat) : State :=
  match findItem s id with
  | none => s
  | some it => updItem (it.softSlots.foldl freeSlot s) id (fun i => { i with softSlots := [] })

/-! ### Scrubber (R319) -/

/-- The scrubber may walk: HK0 runs, and LINES_PER_US is not 0. -/
def scrubOn (s : State) : Bool := domUp s dHk && rd s F.smScrubLinesPerUs ≠ 0 && engRunning s 14 0

/-- A line is skipped: INIT 0, a retired bank, or a bank without power. -/
def scrubSkips (s : State) (b ln : Nat) : Bool :=
  !domUp s (dSm (b / 8)) || rdB s F.smBankCtlRetire b || !(lineMeta s (storedLine s b ln)).init

/-- The weight of a word's errors. -/
def flipWeight (f : Nat × W64 × Byte) : Nat := popCount 64 f.2.1.toNat + popCount 8 f.2.2.toNat

/-- A flip joins those of its line. -/
def joinFlip (fs : List (Nat × W64 × Byte)) (f : Nat × W64 × Byte) : List (Nat × W64 × Byte) :=
  match fs.find? (fun g => g.1 = f.1) with
  | some g => (f.1, g.2.1 ^^^ f.2.1, g.2.2 ^^^ f.2.2) :: fs.filter (fun g => g.1 ≠ f.1)
  | none => f :: fs

/-- The data bits that flips invert, as places in their line. -/
def flippedBits (fs : List (Nat × W64 × Byte)) : List Nat :=
  fs.flatMap (fun f => ((List.range 64).filter (fun i => bitOf f.2.1.toNat i)).map (fun i => 64 * f.1 + i))

/-- The scrubber's read and write-back of one line: single-bit errors are written back corrected, with an armed flip of the bank
(R320), and an uncorrectable error sets the poison tag and leaves the data as stored. -/
def scrubLine (s : State) (b ln : Nat) : State :=
  let n := storedLine s b ln
  let m := lineMeta s n
  let s1 := (readLine s b ln true).st
  let ue := m.flips.any (fun f => flipWeight f = 2)
  let one := m.flips.filter (fun f => flipWeight f = 1)
  let (fl, s2) := if one.isEmpty then ([], s1) else takeFlip s1 b
  let data := flipBits (flipBits (lineBytes s2 n) (flippedBits one)) (flippedBits fl)
  let s3 := { s2 with staging := { s2.staging with mem := s2.staging.mem.writeList (64 * n) data } }
  tally (setMeta s3 n { m with
    poison := m.poison || ue, flips := fl.foldl joinFlip (m.flips.filter (fun f => flipWeight f ≠ 1)) }) 0x5a

/-- One visit of the scrubber: the line it stands at, and the step to the next (R319). -/
def scrubVisit (s : State) : State :=
  let at_ := s.staging.scrubAt
  let b := at_ / 32768
  let ln := at_ % 32768
  let s1 := if scrubSkips s b ln then s else scrubLine s b ln
  let nx := (at_ + 1) % (16 * 32768)
  let s2 := { s1 with staging := { s1.staging with scrubAt := nx } }
  if nx = 0 then wr0 s2 F.smScrubPasses ((rd s F.smScrubPasses + 1) % 65536) else s2

end Sys2Proof.Machine
end

