-- ==== Sys2Proof/Machine/Answer.lean ====
section
/-! DEFINITION. H_TGT responses (R375, R376, R385), and the boot window (R333–R336). -/

namespace Sys2Proof.Machine

/-! ### Responses -/

/-- HT_RSP_ERR: OKAY, PROT_ERR, ACCESS_ERR, FETCH_ERR (R376). -/
abbrev rOkay : Nat := 0
abbrev rProt : Nat := 1
abbrev rAccess : Nat := 2
abbrev rFetch : Nat := 3

/-- Logs an access answered with an error (R385). -/
def tgtLogErr (s : State) (q : HostAccess) (code : Nat) : State :=
  let s1 := if rdB s F.hpTgtErrValid then s
    else [(F.hpTgtErrAddr, q.addr.toNat), (F.hpTgtErrCode, code), (F.hpTgtErrWrite, bit q.write),
          (F.hpTgtErrFetch, bit q.fetch), (F.hpTgtErrRing, q.acc.ring.toNat), (F.hpTgtErrSize64, bit q.size64),
          (F.hpTgtErrRid, q.acc.rid.toNat)].foldl (fun s e => wr0 s e.1 e.2) (flag0 s F.hpTgtErrValid)
  addSat s1 F.hpTgtErrCount 0 1

/-- Puts a response in its place. -/
def putRsp (s : State) (sl : RspSlot) (r : TgtRsp) : State :=
  match sl with
  | .fresh => { s with host := { s.host with rsp := s.host.rsp ++ [some r] } }
  | .kept i => { s with host := { s.host with rsp := s.host.rsp.set i (some r) } }
  | .given => s

/-- Answers an access with an error code, or with data. An error has data 0, and is logged. -/
def answer (s : State) (q : HostAccess) (sl : RspSlot) (err : Nat) (data : W64 := 0) (poison : Bool := false) : State :=
  let s1 := if err = rOkay ∨ sl = .given then s else tgtLogErr s q err
  putRsp s1 sl { err := err, data := if err = rOkay then data else 0, poison := poison, write := q.write }

/-- Keeps the next place for the response of an access that is held (R375). -/
def holdRsp (s : State) : Nat × State :=
  (s.host.rsp.length, { s with host := { s.host with rsp := s.host.rsp ++ [none] } })

/-- Responses that have not left: one that is held, and all after it (R375). -/
def rspWaiting (s : State) : Nat := (s.host.rsp.dropWhile (fun r => r.isSome)).length

/-- The part of an 8-byte group that an access reads: all of it, or the half that it addresses (R376). -/
def laneData (q : HostAccess) (w : W64) : W64 :=
  if q.size64 then w else if q.addr.getLsbD 2 then w &&& 0xffffffff00000000#64 else w &&& 0xffffffff#64

/-! ### The boot window (R333–R336) -/

/-- An address of the boot window. -/
def inWindow (a : BitVec 24) : Bool := 0x800000 ≤ a.toNat && a.toNat < 0xa00000

/-- A page of the window is execute-only (R335). -/
def execOnly (s : State) (p : Nat) : Bool :=
  (List.range 8).any (fun i => rdB s F.bootXoValid i && rd s F.bootXoFirst i ≤ p && p ≤ rd s F.bootXoLast i)

/-- The fixed latency of a fetch is promised (R336, R384); H_CLK is at most 1,600 MHz. (DEDUCED, log entry 51.) -/
def fixedHolds (s : State) (mhz : Nat) : Bool :=
  800 ≤ mhz && !parked s && rd s F.bootStatusState = 2 && rspWaiting s = 0

/-- An access is answered out of its turn: it was held. -/
def RspSlot.late : RspSlot → Bool
  | .kept _ => true
  | _ => false

/-- A fetch under FIXED_FETCH (R336): one that was held, or meets a core clock parked on the AON clock, misses; any other whose
latency is not promised may miss. (DEDUCED, log entry 51.) -/
def fixedFetch (s : State) (late : Bool) : State :=
  if rdB s F.bootCtlFixedFetch then
    let (f, s1) := coreMhz s
    if late ∨ parked s then flag0 s1 F.bootStatusFixedMiss
    else if fixedHolds s1 f then s1
    else
      let (b, s2) := freeBit s1
      if b then flag0 s2 F.bootStatusFixedMiss else s2
  else s

/-- The window's answer to an access (R334). -/
def windowAnswer (s : State) (q : HostAccess) (sl : RspSlot) : State :=
  let x := q.addr.toNat - 0x800000
  if q.write ∨ ¬ rdB s F.bootCtlWinEn then answer s q sl rAccess
  else if ¬ q.fetch ∧ execOnly s (x / 4096) then answer s q sl rProt
  else
    let r := readLine (if q.fetch then fixedFetch s sl.late else s) 15 (x / 64)
    let w := BitVec.ofNat 64 (leNat (slice r.data (x % 64 / 8 * 8) 8))
    if q.fetch ∧ r.poison then answer r.st q sl rFetch
    else answer r.st q sl rOkay (laneData q w) r.poison

/-- The shadow is being loaded. -/
def loading (s : State) : Bool := rd s F.bootStatusState = 1

/-- A window access waits for the end of a load, with the place of its response. -/
def windowHold (s : State) (q : HostAccess) (i : Nat) : State :=
  { s with boot := { s.boot with heldAcc := s.boot.heldAcc ++ [(q, i)] } }

/-- An access to the boot window that has reached its serving front end: held while the shadow loads (R333). -/
def windowAccess (s : State) (q : HostAccess) : State :=
  if loading s then let (i, s1) := holdRsp s; windowHold s1 q i else windowAnswer s q .fresh

/-- The window accesses held during a load are answered when it ends (R333). -/
def windowRelease (s : State) : State :=
  s.boot.heldAcc.foldl (fun s e => windowAnswer s e.1 (.kept e.2)) { s with boot := { s.boot with heldAcc := [] } }

/-- The window accesses held when the window's domain goes, or its serving front end, are answered with an error. -/
def windowFail (s : State) : State :=
  s.boot.heldAcc.foldl (fun s e => answer s e.1 (.kept e.2) rAccess) { s with boot := { s.boot with heldAcc := [] } }

end Sys2Proof.Machine
end

