-- ==== Sys2Proof/Machine/LunQueue.lean ====
section
/-! DEFINITION. LUN queues, the offered item, the conditions under which a LUN is free, the costs of phases, and the
lengths of bus tenures (R146, R171–R185, R208, R209). -/

namespace Sys2Proof.Machine

/-! ### Kinds of phase -/

/-- The array phase that an item's next launch starts. -/
inductive PhaseKind where
  | sense | program | erase | none
  deriving DecidableEq, Repr

/-- A COPY and a relocation sense first and program second (R60, R324); a margin read senses (R194). -/
def Item.phase (it : Item) : PhaseKind :=
  if it.sense = .margin then .sense
  else if it.second then .program
  else if opSense it.pkt.op ∨ it.pkt.op = 8 then .sense
  else if opProgram it.pkt.op then .program
  else if opErase it.pkt.op then .erase
  else .none

def Item.isPatrol (it : Item) : Bool := it.origin = .patrol

/-- HK0's own work, whose coins are class 5 (R323, R337). -/
def Item.isHk (it : Item) : Bool := it.origin = .patrol || it.origin = .boot

/-- Reads that may run inside a suspend, and STATUS (R185). -/
def Item.inside (it : Item) : Bool := (it.pkt.bounded && opSense it.pkt.op) || it.pkt.op = 9

/-- The LUNs of a channel that the state lists, in order of chip enable, then LUN. -/
def lunsOf (s : State) (ch : Nat) : List Lun :=
  sortBy (fun a b => a.ce < b.ce || (a.ce = b.ce && a.lun < b.lun)) ((s.luns.map (fun e => e.1)).filter (fun l => l.ch = ch))

/-- Items by number. -/
def itemsOf (s : State) (ids : List Nat) : List Item := ids.filterMap (findItem s)

/-- The items waiting in the queues of a channel. -/
def chQueued (s : State) (ch : Nat) : Nat := (lunsOf s ch).foldl (fun n l => n + (getLun s l).queue.length) 0

/-! ### Candidates and the offered item (R172, R185, R80, R323) -/

/-- How long before its launch tick an item becomes a candidate, in ns (R172). -/
def tickLead (s : State) (it : Item) : Nat :=
  if it.pkt.bounded then max 8000 (1000 * rd s F.chSchedSuspLeadUs it.lun.ch) else 8000

/-- The submission ring that an item came through: a pair of this unit, or the pair of another unit that the handle of its
frame stands for (R172, R264, R267); none for HK0's own work. (DESIGN CHOICE, log entry 116.) -/
def Origin.ringOf : Origin → Option (Option Nat × Nat)
  | .host k => some (none, k)
  | .fwd src h => some (some src, Config.ringOfHandle src h)
  | _ => none

/-- The candidate condition of an item whose queue holds `before` ahead of it (R172). -/
def candidate (s : State) (before : List Item) (it : Item) : Bool :=
  !(before.any (fun e => e.origin.ringOf.isSome && e.origin.ringOf = it.origin.ringOf))
  && (!(it.phase = .program) || it.dataReady)
  && (it.pkt.launchTick = 0 || it.pkt.launchTick.toNat ≤ fineTick s + tickLead s it)

/-- The candidates of a queue, oldest first. -/
def candidatesIn (s : State) : List Item → List Item → List Item
  | _, [] => []
  | before, it :: r => (if candidate s before it then [it] else []) ++ candidatesIn s (before ++ [it]) r

def candidates (s : State) (l : Lun) : List Item := candidatesIn s [] (itemsOf s (getLun s l).queue)

/-- The item that R80 lets through a halted queue. -/
def passesHalt (it : Item) : Bool := it.pkt.op = 0x0c || lunAction it.pkt

/-- The offered item of a LUN (R80, R172, R185, R323). -/
def offered (s : State) (l : Lun) : Option Item :=
  let st := getLun s l
  if st.halted then (itemsOf s st.queue).find? passesHalt
  else
    let cs := candidates s l
    if st.susp ≠ 0 then (cs.find? (fun i => i.pkt.bounded && opSense i.pkt.op)).or (cs.find? (fun i => i.pkt.op = 9))
    else (cs.find? (fun i => i.pkt.bounded)).or ((cs.find? (fun i => !i.isPatrol)).or cs.head?)

/-- The write that restores a LUN's read levels at the end of a ladder waits for the bus (R121). -/
def restoring (s : State) (l : Lun) : Bool :=
  (getCh s l.ch).want.any (fun t => t.kind = .feature && t.item.isNone && t.lun = l)

/-- A launched item waits for the LUN at the head of its queue, and not for a resume (R111, R118, R122, R185, R194): no
other item launches. -/
def headBlocks (s : State) (l : Lun) : Bool :=
  let st := getLun s l
  match st.head.head?.bind (findItem s) with
  | some h => st.susp = 0 || h.inside
  | none => false

/-- The LUN is free for an item (R174, R80, R110). A halted LUN is free for the item that R80 names, ahead of every other
and of a reset that is due. -/
def lunFree (s : State) (l : Lun) (it : Item) : Bool :=
  let st := getLun s l
  st.act = .idle && !restoring s l && !st.resetRun
  && (if st.halted then passesHalt it else !st.resetDue && !headBlocks s l && (st.susp = 0 || it.inside))

/-- Cache read (R182): the current item is a single-plane READ whose sense has ended, and the next is a READ without
BOUNDED. -/
def cacheReadFree (s : State) (l : Lun) (it : Item) : Bool :=
  let st := getLun s l
  rdB s F.chSchedCacheRead l.ch && it.pkt.op = 1 && !it.pkt.bounded && !it.isHk
  && (st.chain.isNone || (st.chain = some it.id && !it.launched && !st.chainOffs)) && st.head.isEmpty
  && (st.act = .hold || st.act = .transfer) && st.readEnd.isNone && st.susp = 0 && !st.halted && !st.resetDue
  && (match st.cur.bind (findItem s) with
      | some c => c.pkt.op = 1 && !c.isHk && (c.stage = .needXfer || c.stage = .xfer || c.stage = .decode)
      | none => false)

/-- Cache program (R183): the item is the next page of the chain, and the die's cache register is free. -/
def cacheProgFree (s : State) (l : Lun) (it : Item) : Bool :=
  let st := getLun s l
  st.act = .program && st.chain = some it.id && st.chainRdy && !st.chainConf

/-- The LUN lets the offered item launch now. -/
def launchFree (s : State) (l : Lun) (it : Item) : Bool := lunFree s l it || cacheReadFree s l it || cacheProgFree s l it

/-- LAUNCH_TICK is 0 or reached (R173). -/
def tickReached (s : State) (it : Item) : Bool := it.pkt.launchTick = 0 || it.pkt.launchTick.toNat ≤ fineTick s

/-- The head item of a LUN has a ladder to run that R122 keeps out of a suspend: the suspended operation resumes and
completes first. -/
def ladderHeld (s : State) (l : Lun) : Bool :=
  match (getLun s l).head.head?.bind (findItem s) with
  | some it => it.inside && (match it.sense with | .ladder _ _ => !rdB s F.classCfg0RetryInSuspend it.cls | _ => false)
  | none => false

/-- The head item of a LUN may not run its ladder inside the suspend (R122). -/
def ladderWaits (s : State) (l : Lun) : Bool := (getLun s l).susp ≠ 0 && ladderHeld s l

/-! ### Costs (R208, R209) -/

def cost (s : State) (set k : Nat) : Nat := rd s F.lgCostCoins (8 * set + k)

/-- The VCC cost of an array phase of `n` planes. -/
def phaseCost (s : State) (set : Nat) (ph : PhaseKind) (n : Nat) : Nat :=
  match ph with
  | .sense => cost s set 0 + (n - 1) * cost s set 1
  | .program => cost s set 2 + (n - 1) * cost s set 3
  | .erase => cost s set 4 + (n - 1) * cost s set 5
  | .none => 0

/-- The cost set of a LUN class (R211). -/
def costSetOf (s : State) (cls : Nat) : Nat := rd s (F.lgClassSetC cls)

/-- The cost set that an item's requests use now (R208): as read at its check, for the LUN that it works on; for HK0's own
work, which is no item, SET_c as it reads at the request. -/
def setOf (s : State) (it : Item) : Nat :=
  if it.isHk then costSetOf s (if it.second then it.dstCls else it.cls) else if it.second then it.dstSet else it.costSet

def itemCost (s : State) (it : Item) : Nat := phaseCost s (setOf s it) it.phase (max 1 it.pages.length)

/-- The VCCQ cost of a data tenure on a channel. -/
def xferCost (s : State) (set ch : Nat) : Nat := cost s set (if rdB s F.cgPhyXrActive (ch / 4 * 4) then 7 else 6)

/-! ### Bus time (R146, R148, R177) -/

/-- The group's rate code, in units of 100 MT/s. -/
def rateCode (s : State) (ch : Nat) : Nat := (getGroup s (ch / 4)).rate

/-- A byte of the parameter page of a chip enable (R158, R162). -/
def ppageByte (s : State) (ch k i : Nat) : Nat := (byteOf (rd s F.chPpageBytes ch k (i / 8)) (i % 8)).toNat

/-- Bytes of a page of the die, spare bytes with them, by its parameter page. (PRESUMED, log entry 126.) -/
def diePage (s : State) (ch k : Nat) : Nat :=
  leNat ((List.range' 80 4).map (fun i => BitVec.ofNat 8 (ppageByte s ch k i)))
    + leNat ((List.range' 84 2).map (fun i => BitVec.ofNat 8 (ppageByte s ch k i)))

/-- `b` data transfers at the group's rate, in ns rounded up. -/
def uiNs (s : State) (ch b : Nat) : Nat := ceilDiv (10 * b) (max 1 (rateCode s ch))
def tca (s : State) (ch : Nat) : Nat := max 1 (rd s F.chTiming0TCa ch)
/-- ROW_CYCLES; values other than 3 to 5 act as 3. -/
def rowCycles (s : State) (ch : Nat) : Nat :=
  let r := rd s F.chBusCtlRowCycles ch
  if 3 ≤ r ∧ r ≤ 5 then r else 3

/-- The row cycles of boot twin operations: those of CE0's parameter page (R329). (PRESUMED, log entry 126.) -/
def bootRowCycles (s : State) (ch : Nat) : Nat :=
  let r := ppageByte s ch 0 101 % 16
  if 3 ≤ r ∧ r ≤ 5 then r else 3

/-- The row cycles of an item's operations, and of an operation on a LUN by what holds the LUN. -/
def rowsFor (s : State) (ch : Nat) (boot : Bool) : Nat := if boot then bootRowCycles s ch else rowCycles s ch
def Item.rows (s : State) (it : Item) : Nat := rowsFor s it.lun.ch (it.origin = .boot)
def lunRows (s : State) (l : Lun) : Nat :=
  let st := getLun s l
  rowsFor s l.ch ((itemsOf s (st.cur.toList ++ st.array.toList)).any (fun i => i.origin = .boot))

/-- A status poll, a suspend or resume, a column change and a data-out, with `a` row cycles (R146, R177). -/
def pollNs (s : State) (ch a : Nat) : Nat :=
  (a + 1) * tca s ch + rd s F.chTiming0TWhr ch + rd s F.chTiming1TPre ch + uiNs s ch 2 + rd s F.chTiming1TRhw ch
def suspendNs (s : State) (ch a : Nat) : Nat := (a + 2) * tca s ch + rd s F.chTiming1TWb ch
def columnNs (s : State) (ch a : Nat) : Nat :=
  (a + 4) * tca s ch + rd s F.chTiming0TCcs ch + rd s F.chTiming1TPre ch
def dataOutNs (s : State) (ch a ranges bytes : Nat) : Nat := ranges * columnNs s ch a + uiNs s ch bytes
/-- A page read command, a program of `b` image bytes and an erase, per plane; a set features at its longest, a get
features' command and data tenures, a reset and a ZQ calibration (R146). -/
def pageReadNs (s : State) (ch a : Nat) : Nat := (a + 4) * tca s ch + rd s F.chTiming1TWb ch
def programNs (s : State) (ch a b : Nat) : Nat :=
  (a + 4) * tca s ch + rd s F.chTiming0TAdl ch + rd s F.chTiming1TWpre ch + uiNs s ch b + rd s F.chTiming1TWb ch
def eraseNs (s : State) (ch a : Nat) : Nat := (a + 2) * tca s ch + rd s F.chTiming1TWb ch
def featureNs (s : State) (ch : Nat) : Nat :=
  3 * tca s ch + rd s F.chTiming0TAdl ch + rd s F.chTiming1TWpre ch + uiNs s ch 16 + rd s F.chTiming1TWb ch
def getFeatureNs (s : State) (ch : Nat) : Nat := 3 * tca s ch + rd s F.chTiming1TWb ch
def getDataNs (s : State) (ch : Nat) : Nat :=
  tca s ch + rd s F.chTiming0TWhr ch + rd s F.chTiming1TPre ch + uiNs s ch 16 + rd s F.chTiming1TRhw ch
def resetNs (s : State) (ch : Nat) : Nat := tca s ch + rd s F.chTiming1TWb ch
def zqNs (s : State) (ch : Nat) : Nat := 2 * tca s ch + rd s F.chTiming1TWb ch

/-- A launch tenure of `n` planes: each plane's figure, and after each but the last at least one poll (R146, R181). -/
def launchNs (s : State) (it : Item) (n : Nat) : Nat :=
  let ch := it.lun.ch
  let a := it.rows s
  n * (match it.phase with
    | .program => programNs s ch a (imageLen it.strength)
    | .erase => eraseNs s ch a
    | _ => pageReadNs s ch a) + (n - 1) * pollNs s ch a

/-! ### Transfers (R104, R112, R118, R194, R59) -/

/-- A quarter's segment is held in the slot. -/
def Quarter.held (q : Quarter) : Bool := q.st ≠ .absent

def Page.quarter (p : Page) (i : Nat) : Quarter := p.q.getD i {}

/-- A quarter in QMASK that has failed its local decode and is not final. -/
def Item.failing (it : Item) (p : Page) (i : Nat) : Bool := it.wants i && (p.quarter i).st = .failed

/-- A page of the item escalates. -/
def Item.escalates (it : Item) (p : Page) : Bool := (List.range 4).any (it.failing p)

/-- The ranges that the item's transfer in hand moves from one page, without the remap range. -/
def pageRanges (it : Item) (p : Page) : List Range :=
  if it.pkt.op = 3 then [(0, imageLen it.strength)]
  else match it.sense with
  | .margin => imageParts it.strength (fun _ => true) false
  | .ladder _ _ => if it.escalates p then mergeRanges (imageParts it.strength (it.failing p) true) else []
  | _ =>
    if it.escWant then
      if it.escalates p then mergeRanges (imageParts it.strength (fun i => !(p.quarter i).held) (!p.glob)) else []
    else imageParts it.strength it.wants false

/-- The ranges with the remap range (R100); a raw image is not remapped (R59). -/
def allRanges (s : State) (it : Item) (p : Page) : List Range :=
  let rs := pageRanges it p
  if it.pkt.op = 3 then rs else rs ++ remapRange (remapEntries s it.lun it.strength) rs

/-- The ranges of the item's transfer in hand over all its pages, each with its page (R104, R112, R181). -/
def xferParts (s : State) (it : Item) : List (Page × Range) :=
  it.pages.flatMap (fun p => (allRanges s it p).map (fun r => (p, r)))

/-- The bytes that a transfer of the item returns, without margins, and its bus bytes. -/
def xferLen (s : State) (it : Item) : Nat := rangeBytes ((xferParts s it).map (fun x => x.2))
def xferBus (s : State) (it : Item) : Nat := busBytes ((xferParts s it).map (fun x => x.2))

/-- What is left of ranges after their first `n` bytes (R177), and what those bytes cover. -/
def dropParts {α : Type} : List (α × Range) → Nat → List (α × Range)
  | [], _ => []
  | (p, (a, n)) :: r, k => if n ≤ k then dropParts r (k - n) else (p, (a + k, n - k)) :: r
def takeParts {α : Type} : List (α × Range) → Nat → List (α × Range)
  | [], _ => []
  | (p, (a, n)) :: r, k => if k = 0 then [] else if n ≤ k then (p, (a, n)) :: takeParts r (k - n) else [(p, (a, k))]

/-- The ranges that the item's next data-out tenure moves: all, or what an interruption left (R177). -/
def restParts (s : State) (it : Item) : List (Page × Range) := dropParts (xferParts s it) (it.xferGot.getD 0)

/-- How long a tenure occupies the bus, in ns (R146, R177). -/
def tenureNs (s : State) (t : Tenure) : Nat :=
  let ch := t.lun.ch
  let it := t.item.bind (findItem s)
  match t.kind with
  | .poll => pollNs s ch (lunRows s t.lun)
  | .suspend | .resume => suspendNs s ch (lunRows s t.lun)
  | .cacheEnd => resetNs s ch
  | .reset => resetNs s ch
  | .getData => getDataNs s ch
  | .launch => match it with
    | some it => launchNs s it (max 1 it.pages.length)
    | none => 0
  | .dataOut => match it with
    | some it =>
      let rs := (restParts s it).map (fun x => x.2)
      dataOutNs s ch (it.rows s) rs.length (busBytes rs)
    | none => 0
  | _ => if it.any (fun i => i.pkt.op = 0x0b) ∧ t.offs.isNone then getFeatureNs s ch else featureNs s ch

/-! ### Read-level offsets (R124, R125, R118, R120, R194) -/

/-- The entry of TRACK or MARGIN for a row: P1 in bits 7:0 to P4 in bits 31:24, zero while not valid (R124). -/
def tableEntry (s : State) (n : RegName) (cls row : Nat) : W32 :=
  let e := getR s n cls (row / 2 ^ rd s F.classCfg0TrackLsb cls % 256)
  if e.getLsbD 32 then e.setWidth 32 else 0

/-- The tracked offsets of a row (R124, R125). -/
def trackedOffs (s : State) (cls row : Nat) : W32 :=
  if rdB s F.classCfg0TrackLoaded cls then tableEntry s .track cls row else 0

/-- P1–P4 of a ladder step's entry, each offset by Oj for soft sense `j`, saturating (R118, R120). -/
def ladderOffs (w : W64) (j : Nat) : W32 :=
  let o : Int := if j = 0 then 0 else sbyte (BitVec.ofNat 8 (fget w (32 + 8 * j) 8))
  BitVec.ofNat 32 (leNat ((List.range 4).map (fun i => satByte (sbyte (BitVec.ofNat 8 (fget w (8 * i) 8)) + o))))

/-- The offsets that the sense in hand needs: a ladder step's as its entry gave them when the step began (R123), a
re-sense's those of the first sense (R111). -/
def senseOffs (s : State) (it : Item) : W32 :=
  let row := (it.pages.headD {}).row
  match it.sense with
  | .ladder _ j => ladderOffs it.stepW0 j
  | .margin => tableEntry s .margin it.cls row
  | .again => it.levels.getD (trackedOffs s it.cls row)
  | .first => trackedOffs s it.cls row

/-- The sense needs its offsets written first: where they differ from those last written to the LUN (R124), and before every
sense of a ladder (R118). -/
def needsOffs (s : State) (it : Item) : Bool :=
  (match it.sense with | .ladder _ _ => true | _ => false) || (getLun s it.lun).offs ≠ some (senseOffs s it)

end Sys2Proof.Machine
end

