-- ==== Sys2Proof/Machine/BootImage.lean ====
section
/-! DEFINITION. The boot twin's contents (R329–R331): rows, the header page, CRC-32, and the page images that a BOOT_SWAP
programs (R337). -/

namespace Sys2Proof.Machine

/-! ### The twin (R329) -/

/-- The channel of the boot twin that BOOT_SEL names, if it names one (R329). -/
def bootChannel (s : State) : Option Nat :=
  let k := (s.power.straps >>> 1).toNat % 16
  if 1 ≤ k ∧ k ≤ 12 then some (4 * (k - 1)) else none

/-- The boot LUN. -/
def bootLun (ch : Nat) : Lun := ⟨ch, 0, 0⟩

/-- Pages of a block, from bytes 92–95 of the die's parameter page (R329; the byte places are the standard's).
(PRESUMED, log entry 38.) -/
def pagesPerBlock (s : State) (ch : Nat) : Nat :=
  leNat ((List.range 4).map (fun i => BitVec.ofNat 8 ((byteOf (rd s F.chPpageBytes ch 0 ((92 + i) / 8)) ((92 + i) % 8)).toNat)))

/-- Bits of a page number within a block: the least number that holds every page. -/
def pageBits : Nat → Nat → Nat
  | 0, _ => 0
  | f + 1, n => if n ≤ 1 then 0 else 1 + pageBits f ((n + 1) / 2)

/-- The row of page `p` of block `b` (R329; the standard's row layout). -/
def twinRow (s : State) (ch b p : Nat) : Nat := b * 2 ^ pageBits 32 (pagesPerBlock s ch) + p

/-- Image pages of an image length (R329). -/
def imagePages (len : Nat) : Nat := ceilDiv len 16384

/-! ### The header page (R330) -/

/-- The first 32 bytes of a header page. -/
def headerBytes (gen len strength crc : Nat) : List Byte :=
  let b := leBytes 4 0x54424d45 ++ leBytes 4 gen ++ leBytes 4 len ++ [BitVec.ofNat 8 strength, 1, 0, 0] ++ leBytes 4 crc
    ++ leBytes 8 0
  b ++ leBytes 4 (crc32 b)

/-- The fields of a header, from its bytes. -/
def hdrFields (b : List Byte) : BootHdr :=
  { gen := leNat (slice b 4 4), len := leNat (slice b 8 4), strength := leNat (slice b 12 1), crc := leNat (slice b 16 4) }

/-- The code of BOOT_STATUS for a header on its own (R331): `none` is an uncorrectable one. -/
def headerCode (s : State) (ch : Nat) : Option (List Byte) → Nat
  | none => 1
  | some b =>
    let h := hdrFields b
    if leNat (slice b 0 4) ≠ 0x54424d45 ∨ leNat (slice b 13 1) ≠ 1 then 2
    else if leNat (slice b 28 4) ≠ crc32 (b.take 28) then 3
    else if h.len < 64 ∨ 2097152 < h.len ∨ h.len % 64 ≠ 0 ∨ 7 < h.strength ∨ pagesPerBlock s ch < imagePages h.len + 1 then 4
    else 0

/-- A header that R331 finds valid on its own. -/
def headerOf (s : State) (ch : Nat) (b : List Byte) : Option BootHdr :=
  if headerCode s ch (some b) = 0 then some (hdrFields b) else none

/-- Generation `a` is newer than `b` (R331). -/
def newerGen (a b : Nat) : Bool :=
  let d := (a + 2 ^ 32 - b) % 2 ^ 32
  1 ≤ d && d ≤ 2 ^ 31 - 1

/-! ### A load (R331, R332) -/

def Load.hdr (l : Load) (b : Nat) : Option BootHdr := if b = 0 then l.hdr0 else l.hdr1
def Load.code (l : Load) (b : Nat) : Nat := if b = 0 then l.code0 else l.code1
def Load.setCode (l : Load) (b c : Nat) : Load := if b = 0 then { l with code0 := c } else { l with code1 := c }

/-- A block's header has been read. -/
def Load.withHeader (l : Load) (s : State) (ch b : Nat) (h : Option (List Byte)) : Load :=
  let v := h.bind (headerOf s ch)
  (if b = 0 then { l with hdr0 := v } else { l with hdr1 := v }).setCode b (headerCode s ch h)

/-- The blocks whose images a load tries, the newer first; with equal generations block 0 is the newer (R331, R332). -/
def Load.order (l : Load) : List Nat :=
  match l.hdr0, l.hdr1 with
  | none, none => []
  | some _, none => [0]
  | none, some _ => [1]
  | some a, some b => if newerGen b.gen a.gen then [1, 0] else [0, 1]

/-- The next block is tried, or none is left. -/
def Load.next (l : Load) : Load :=
  match l.left with
  | b :: q => { l with step := .image b 1, left := q, run := crcStart.toNat }
  | [] => { l with step := .done }

/-- A block's image ends with a header code: 0 is a block loaded. -/
def Load.imageEnds (l : Load) (b c : Nat) : Load :=
  if c = 0 then { l.setCode b 0 with block := some b, step := .done } else (l.setCode b c).next

/-- The code of an image read as a whole. -/
def imageCode (h : BootHdr) (x : BootBlock) : Nat := if x.unc then 5 else if crc32 x.image ≠ h.crc then 6 else 0

/-! ### What a BOOT_SWAP programs (R337) -/

/-- `n` lines of staging memory from a staging byte address. -/
def stagingLines (s : State) (a : Nat) : Nat → List Byte × State
  | 0 => ([], s)
  | n + 1 =>
    let (bs, s1) := stagingLines s a n
    let x := a + 64 * n
    let r := readLine s1 (bankOf x) (lineOf x)
    (bs ++ r.data, r.st)

/-- The user bytes of the page that the swap's step programs. -/
def swapPage (s : State) (w : Swap) : List Byte × State :=
  match w.step with
  | .progHeader => (padTo 16384 (headerBytes w.gen w.len w.strength w.crc), s)
  | .progImage p =>
    let from_ := 16384 * (p - 1)
    let n := min 16384 (w.len - from_)
    let (b, s1) := stagingLines s (w.src + from_) (ceilDiv n 64)
    (padTo 16384 (b.take n), s1)
  | _ => (padTo 16384 [], s)

/-- The page of a boot program is placed in its slot: four quarters with metadata bytes of 0 (R329). -/
def bootFill (s : State) (it : Item) : State :=
  match s.boot.swap, (it.pages[0]?).bind (fun p => p.slot) with
  | some w, some sl =>
    if it.pkt.op = 4 then
      let (b, s1) := swapPage s w
      let s2 := forNat 4 (fun s q => slotWrite s sl (65 * q) (padTo 4160 (slice b (4096 * q) 4096))) s1
      updItem s2 it.id (fun i => { i with committed := 4 })
    else s
  | _, _ => s

end Sys2Proof.Machine
end

