-- ==== Sys2Proof/Machine/Fifos.lean ====
section
/-! DEFINITION. Staging FIFOs (R297–R305): lines and packets, the two pointers of a side and what the other side sees of
them. -/

namespace Sys2Proof.Machine

/-! ### Pointers (R298, R299) -/

/-- A pointer from its Gray code. -/
def ungray (g : BitVec 10) : BitVec 10 :=
  let a := g ^^^ (g >>> 1)
  let b := a ^^^ (a >>> 2)
  let c := b ^^^ (b >>> 4)
  c ^^^ (c >>> 8)

/-- What each side publishes, in Gray code: the producer its commit pointer, which in the read class follows its write
pointer (R300, R302), the consumer its own. -/
def Fifo.pubProd (f : Fifo) : BitVec 10 := gray f.commit
def Fifo.pubCons (f : Fifo) : BitVec 10 := gray f.cons

/-- The other side's pointer as a side has it from its synchroniser. Three cycles are past by the next command. -/
def Fifo.seenProd (f : Fifo) : BitVec 10 := ungray f.pubProd
def Fifo.seenCons (f : Fifo) : BitVec 10 := ungray f.pubCons

/-- EMPTY and the fill, as the consumer computes them; FULL and the free space, as the producer does (R299). -/
def Fifo.empty (f : Fifo) : Bool := f.seenProd = f.cons
def Fifo.fill (f : Fifo) : Nat := (f.seenProd - f.cons).toNat
def Fifo.full (f : Fifo) : Bool := f.wr = f.seenCons ^^^ 512#10
def Fifo.room (f : Fifo) : Nat := 512 - (f.wr - f.seenCons).toNat

/-! ### Lines and packets (R297, R300) -/

/-- Bytes as lines, with one poison flag a line; the last one carries the last-of-packet bit if they end their packet. -/
def fifoLinesOf (b : List Byte) (ps : List Bool) (ends : Bool) : List FifoLine :=
  let n := ceilDiv b.length 64
  (List.range n).map (fun i => { data := slice b (64 * i) 64, poison := ps.getD i false, last := ends && i + 1 = n })

/-- Lines enter at the write pointer. -/
def Fifo.put (f : Fifo) (ls : List FifoLine) : Fifo :=
  { f with lines := ls.zipIdx.foldl (fun t x => Tab.set t ((f.wr.toNat + x.2) % 512) x.1) f.lines,
           wr := f.wr + BitVec.ofNat 10 ls.length }

/-- What has been written is published. -/
def Fifo.publish (f : Fifo) : Fifo := { f with commit := f.wr }

/-- The consumer takes, or drops, all that it sees. -/
def Fifo.takeAll (f : Fifo) : Fifo := { f with cons := f.commit, word := 0, touched := false }

/-- The bytes and poison flags of `n` lines from a pointer. -/
def fifoLines (f : Fifo) (p n : Nat) : List Byte × List Bool :=
  let ls := (List.range n).map (fun i => Tab.get f.lines ((p + i) % 512) {})
  ((ls.map (fun l => padTo 64 l.data)).flatten, ls.map (fun l => l.poison))

/-- The consumer of a FIFO is detached (R305). -/
def detached (s : State) (ch f : Nat) : Bool := bitOf (rd s F.chFifoCtlDbgEn ch) f

/-- What a consumer gets of bytes that the debug port may have popped words of: then they are free.
(DEDUCED, log entry 49.) -/
def afterPops (s : State) (f : Fifo) (b : List Byte) : List Byte × State := if f.touched then freeBytes s b.length else (b, s)

end Sys2Proof.Machine
end

