-- ==== Sys2Proof/Machine/Cycles.lean ====
section
/-! DEFINITION. What a channel sends on its bus: the page image of the output pass (R85, R89, R97–R102) and the command,
address and data cycles of every tenure and bring-up step (R140, R145, R147, R154, R158, R163). -/

namespace Sys2Proof.Machine

/-! ### The page image of the output pass (R97) -/

/-- The randomizer key of a page (R91, R329). -/
def imageKey (s : State) (it : Item) : Nat := if it.origin = .boot then 0 else rd s F.randKeyKey

/-- The image in column order from the lines of a slot: quarter buffers first, then the parity area (R89, R312). -/
def layImage (st : Nat) (b : List Byte) : List Byte :=
  let par := b.drop (64 * 260)
  (List.range 4).flatMap (fun i =>
    slice b (4160 * i) 4112 ++ slice par (i * localParity st) (localParity st)
    ++ slice par (4 * localParity st + i * sliceLen st) (sliceLen st))

/-- The flip that an output pass captures (R102): column and mask, if one is armed, and the state with MASK and ARM
cleared. -/
def takeChFlip (s : State) (ch : Nat) : Option (Nat × W64) × State :=
  if rdB s F.chFlipCtlArm ch then
    (some (rd s F.chFlipCtlFlipCol ch, getR s .chFlip ch), wr1 (setR s .chFlip ch 0 0 0) F.chFlipCtlArm ch 0)
  else (none, s)

/-- The image bits that a captured flip inverts. -/
def flipPlaces (f : Nat × W64) : List Nat := ((List.range 64).filter (fun j => f.2.getLsbD j)).map (fun j => 8 * f.1 + j)

/-- The bytes of a page's slot, as the encoder reads them. -/
def storedPage (s : State) (p : Page) : List Byte × State :=
  match p.slot with
  | some sl => let (b, _, s1) := slotRead s sl 0 292; (b, s1)
  | none => ([], s)

/-- The encoder's output pass over one page (R97): the image of the stored user, metadata and parity bytes, with the captured
flip, randomized. DONE follows the last column that the flip covers (R102). -/
def encodePage (s : State) (it : Item) (p : Page) : List Byte × State :=
  let ch := it.lun.ch
  let (fl, s1) := takeChFlip s ch
  let (b, s2) := storedPage s1 p
  let flipped := flipBits (layImage it.strength b) (match fl with | some f => flipPlaces f | none => [])
  (xorBytes flipped (stream (imageKey s it) p.row 0 flipped.length), if fl.isSome then flag1 s2 F.chFlipCtlDone ch else s2)

/-- The output pass of one page into FLASH_OUT, where its packet commits as a whole (R300, R301). -/
def outputPass (s : State) (it : Item) (p : Page) : State :=
  let (img, s1) := encodePage s it p
  updFifo s1 it.lun.ch 1 (fun f => (f.put (fifoLinesOf img [] true)).publish)

/-- FLASH_OUT's packet has left it, or is discarded from the consumer side (R301). -/
def dropFlashOut (s : State) (ch : Nat) : State := updCh (updFifo s ch 1 Fifo.takeAll) ch (fun c => { c with out := none })

/-- The image that the PHY takes from FLASH_OUT, of `n` bytes; free once the debug port has popped words of it. -/
def flashOutImage (s : State) (ch n : Nat) : List Byte × State :=
  let f := getFifo s ch 1
  afterPops s f ((fifoLines f f.cons.toNat (ceilDiv n 64)).1.take n)

/-! ### Cycles (R145) -/

/-- Uses of the commands that the spec takes from the standards without giving their bytes: the end of a plane of a
multi-plane read, program and erase, the random cache read and its end, the cache program, the two cycles of a suspend
and a resume of a program and of an erase (R177, R181–R183), and the three trainings of a bring-up (R140, R158). -/
inductive StdUse where
  | readPlane | programPlane | erasePlane | cacheRead | cacheReadEnd | cacheProgram
  | suspProg1 | suspProg2 | suspErase1 | suspErase2 | resProg1 | resProg2 | resErase1 | resErase2
  | dutyTrain | readTrain | writeTrain
  deriving DecidableEq, Repr

/-- The byte of such a command. (DESIGN CHOICE, log entry 94.) -/
def StdUse.cyc (u : StdUse) : BusCyc := .cmd (Config.stdCmd u.ctorIdx)

/-- Column cycles, the row cycles of a row, and the row cycles that name only a LUN (R145, R154). -/
def colCycles (c : Nat) : List BusCyc := (leBytes 2 c).map .addr
def rowCyc (a row : Nat) : List BusCyc := (leBytes a row).map .addr
def lunCyc (s : State) (l : Lun) : List BusCyc := (List.range (lunRows s l)).map (fun i => .addr (Config.lunRow l.lun i))

/-- A set features in the form addressed to the target, or to a LUN (R140, R145). -/
def setFeature (lun : Option Nat) (fa : Nat) (ps : List Byte) : List BusCyc :=
  (match lun with
    | some l => [.cmd 0xd5, .addr (BitVec.ofNat 8 l), .addr (BitVec.ofNat 8 fa)]
    | none => [.cmd 0xef, .addr (BitVec.ofNat 8 fa)]) ++ [.input 0 ps]

/-- The command tenure of a get features. -/
def getFeature (lun : Option Nat) (fa : Nat) : List BusCyc :=
  match lun with
  | some l => [.cmd 0xd4, .addr (BitVec.ofNat 8 l), .addr (BitVec.ofNat 8 fa)]
  | none => [.cmd 0xee, .addr (BitVec.ofNat 8 fa)]

/-- One plane's page read, up to and with its closing command. -/
def readPlane (a row : Nat) (close : BusCyc) : List BusCyc :=
  [.cmd 0x00] ++ colCycles 0 ++ rowCyc a row ++ [close]

/-- Cycles of a launch over the rows of its planes: each plane but the last closes with the standard's multi-plane command
and is polled until RDY = 1 (R146, R181). -/
def overPlanes (f : Nat → Bool → List BusCyc) : List Nat → List BusCyc
  | [] => []
  | [r] => f r true
  | r :: q => f r false ++ [.pollRdy] ++ overPlanes f q

/-- The cycles of an item's launch without a program's data and confirm (R145, R181, R182): `cache` tells a random cache
read. -/
def launchCycles (s : State) (it : Item) (cache : Bool) : List BusCyc :=
  let a := it.rows s
  let rows := it.pages.map (fun p => p.row)
  match it.phase with
  | .erase => overPlanes (fun r last => [.cmd 0x60] ++ rowCyc a r ++ [if last then .cmd 0xd0 else StdUse.erasePlane.cyc]) rows
  | .sense => overPlanes (fun r last => readPlane a r
      (if cache then StdUse.cacheRead.cyc else if last then .cmd 0x30 else StdUse.readPlane.cyc)) rows
  | _ => []

/-- A page's data input: its image, and each remapped column's byte once more at its spare column (R97, R100). -/
def pageInput (s : State) (it : Item) (img : List Byte) : List BusCyc :=
  .input 0 img :: (remapEntries s it.lun it.strength).map (fun e => .input e.2 [img.getD e.1 0])

/-- The command, address and data cycles of a program launch, without its confirm: each page passes the encoder in
ascending plane order (R97, R145, R181). The first may be in FLASH_OUT already, and the last stays there until the confirm
(R301). -/
def programCycles (s : State) (it : Item) : List BusCyc × State :=
  let ch := it.lun.ch
  let n := it.pages.length
  it.pages.zipIdx.foldl (fun (acc : List BusCyc × State) p =>
    let s1 := if p.2 = 0 ∧ (getCh acc.2 ch).out = some it.id then acc.2
      else updCh (outputPass (dropFlashOut acc.2 ch) it p.1) ch (fun c => { c with out := some it.id })
    let (img, s2) := flashOutImage s1 ch (imageLen it.strength)
    (acc.1 ++ [.cmd 0x80] ++ colCycles 0 ++ rowCyc (it.rows acc.2) p.1.row ++ pageInput s2 it img
      ++ (if p.2 + 1 = n then [] else [StdUse.programPlane.cyc, .pollRdy]), s2)) ([], s)

/-- The column at which the bytes of a range begin on the bus: its own, or 64 before it, so that the margin precedes it, where
fewer than 64 columns of the die's page follow it (R103). -/
def marginCol (s : State) (l : Lun) (r : Range) : Nat :=
  let d := diePage s l.ch l.ce
  if d ≠ 0 ∧ d < r.1 + r.2 + 64 ∧ 64 ≤ r.1 then r.1 - 64 else r.1

/-- The cycles of the item's data-out: per range a column change, its bytes and its 64-byte margin (R103, R145, R177). -/
def dataCycles (s : State) (it : Item) : List BusCyc :=
  (restParts s it).flatMap (fun x =>
    [.cmd 0x06] ++ colCycles (marginCol s it.lun x.2) ++ rowCyc (it.rows s) x.1.row ++ [.cmd 0xe0, .output (x.2.2 + 64)])

/-- The LUN of a feature item in the LUN-addressed form (R57). -/
def featureLun (it : Item) : Option Nat := if it.pkt.opByte 13 % 2 = 1 then some it.lun.lun else none

/-- The offsets that a feature tenure writes as it begins: those that an item's sense needs then, or those of the end of a
ladder (R121, R124). -/
def tenureOffs (s : State) (t : Tenure) : Option W32 :=
  match t.offs, t.item.bind (findItem s) with
  | some _, some it => some (senseOffs s it)
  | o, _ => o

/-- The cycles of a feature tenure: an offset write of the LUN (R118, R121, R124), or a feature item's own. -/
def featureCycles (s : State) (t : Tenure) : List BusCyc :=
  let l := t.lun
  let it := t.item.bind (findItem s)
  match tenureOffs s t, it with
  | some o, _ =>
    setFeature (some l.lun) (rd s F.classCfg0RetryFa ((it.map (fun i => i.cls)).getD (lunClass s l))) (leBytes 4 o.toNat)
  | none, some i =>
    if i.pkt.op = 0x0b then getFeature (featureLun i) (i.pkt.opByte 8)
    else setFeature (featureLun i) (i.pkt.opByte 8) ((List.range 4).map (fun j => BitVec.ofNat 8 (i.pkt.opByte (9 + j))))
  | none, none => []

/-- Suspend and resume of what runs on a LUN (R177). -/
def suspCycles (s : State) (l : Lun) (resume : Bool) : List BusCyc :=
  let e := ((getLun s l).array.bind (findItem s)).any (fun i => i.phase = .erase)
  let (a, b) := if resume then (if e then (StdUse.resErase1, StdUse.resErase2) else (.resProg1, .resProg2))
                else (if e then (.suspErase1, .suspErase2) else (.suspProg1, .suspProg2))
  [a.cyc] ++ lunCyc s l ++ [b.cyc]

/-- The cycles of a tenure other than a program's launch (R145). A SEQUENCE routine sends its own. -/
def tenureCycles (s : State) (t : Tenure) : List BusCyc :=
  let it := t.item.bind (findItem s)
  match t.kind, it with
  | .launch, some i => launchCycles s i ((getLun s t.lun).act = .hold)
  | .dataOut, some i => dataCycles s i
  | .poll, _ => [.cmd 0x78] ++ lunCyc s t.lun ++ [.output 1]
  | .suspend, _ => suspCycles s t.lun false
  | .resume, _ => suspCycles s t.lun true
  | .feature, _ => featureCycles s t
  | .cacheEnd, _ => [StdUse.cacheReadEnd.cyc]
  | .getData, _ => [.cmd 0x00, .output 4]
  | .reset, _ => [.cmd 0xff]
  | _, _ => []

/-- What is left of the T_CA for which CE_N stays high between accesses to different chip enables, in ns (R147). -/
def ceWait (s : State) (ch ce : Nat) : Nat :=
  match (getCh s ch).ceUp with
  | some (k, t) => if k = ce then 0 else ceilDiv (t + nsU * tca s ch - s.clk) nsU
  | none => 0

/-- Every CE_N of a channel rises. -/
def ChanSt.raiseCe (c : ChanSt) (now : Nat) : ChanSt :=
  match c.ce with
  | some k => { c with ce := none, ceUp := some (k, now) }
  | none => c

/-- Selects a chip enable (R147): at most one CE_N is low, and between accesses to different chip enables every CE_N is high
for T_CA; a chip enable stays selected for its next bus cycle. -/
def selectCe (s : State) (ch ce : Nat) : List BusCyc :=
  match (getCh s ch).ce with
  | none => (if ceWait s ch ce = 0 then [] else [.wait (ceWait s ch ce)]) ++ [.select (some ce)]
  | some k => if k = ce then [] else [.select none, .wait (tca s ch), .select (some ce)]

/-- A channel begins to send cycles on a chip enable. -/
def sendOn (s : State) (ch ce : Nat) (cs : List BusCyc) : State :=
  updCh s ch (fun c => { c with ce := some ce, sent := selectCe s ch ce ++ cs })

/-- It goes on sending in the same tenure. -/
def sendMore (s : State) (ch : Nat) (cs : List BusCyc) : State := updCh s ch (fun c => { c with sent := c.sent ++ cs })

/-- The tenure ends with every CE_N high. -/
def ceHigh (s : State) (ch : Nat) : State :=
  updCh s ch (fun c => { c.raiseCe s.clk with sent := c.sent ++ (if c.ce.isSome then [.select none] else []) })

/-- It goes on in the same tenure on a chip enable. -/
def sendMoreOn (s : State) (ch ce : Nat) (cs : List BusCyc) : State :=
  updCh s ch (fun c => { c with ce := some ce, sent := c.sent ++ selectCe s ch ce ++ cs })

/-- Every CE_N of a channel is high. -/
def deselect (s : State) (ch : Nat) (cs : List BusCyc) : State :=
  updCh s ch (fun c => { c.raiseCe s.clk with sent := (if c.ce.isSome then [.select none] else []) ++ cs })

end Sys2Proof.Machine
end

