-- ==== Sys2Proof/Machine/Ledger.lean ====
section
/-! DEFINITION. The two ledgers: coins, budgets in force, quiet windows and what fits (R206–R225). -/

namespace Sys2Proof.Machine

/-! ### Sums (R206, R210) -/

def isCharged (c : Coin) : Bool := c.sort = .charged || c.sort = .granted

/-- The coins of one ledger, charged or set aside. -/
def coinSum (s : State) (p : Coin → Bool) : Nat := s.ledger.coins.foldl (fun n c => if p c then n + c.n else n) 0

def vccCharged (s : State) : Nat := coinSum s (fun c => isCharged c && !c.q)
def vccAside (s : State) : Nat := coinSum s (fun c => !isCharged c && !c.q)
def vccqCharged (s : State) : Nat := coinSum s (fun c => isCharged c && c.q)
def vccqAside (s : State) : Nat := coinSum s (fun c => !isCharged c && c.q)

/-! ### Budgets in force (R217, R224) -/

/-- LEDGER_CUT, as honoured: CUT_EN is 1 and the pin is high. -/
def cutOn (s : State) : Bool := rdB s F.lgCtlCutEn && s.power.cutPin

/-- The alternate budgets are in force (R217). -/
def altActive (s : State) : Bool := cutOn s || rdB s F.lgCtlForceAlt || s.ledger.holdEnd.isSome

def vccBudget (s : State) : Nat := rd s (if altActive s then F.lgBudgetVccAlt else F.lgBudgetVccNormal)
def vccqBudget (s : State) : Nat := rd s (if altActive s then F.lgBudgetVccqAlt else F.lgBudgetVccqNormal)

/-- Quiet window `j` holds tick `t` (R223, R501). -/
def quietHolds (s : State) (j t : Nat) : Bool :=
  rdB s F.lgQuietW1Valid j && rd s F.lgQuietW0Start j ≤ t && t < rd s F.lgQuietW0Start j + rd s F.lgQuietW1Length j

/-- A quiet window is in force at a tick. -/
def quietAt (s : State) (t : Nat) : Bool := (List.range 8).any (fun j => quietHolds s j t)
def quietActive (s : State) : Bool := quietAt s (fineTick s)

/-! ### What fits (R206, R213, R225) -/

/-- A VCC cost fits: no cost, or within the budget in force and, with RING_EN, within HOLDING. -/
def vccFits (s : State) (c : Nat) : Bool :=
  c = 0 || (vccCharged s + vccAside s + c ≤ vccBudget s
            && (!rdB s F.lgRingCtlRingEn || vccCharged s + vccAside s + c ≤ rd s F.lgRingStatusHolding))
def vccqFits (s : State) (c : Nat) : Bool := c = 0 || vccqCharged s + vccqAside s + c ≤ vccqBudget s

/-! ### Coins -/

def addCoin (s : State) (c : Coin) : State := { s with ledger := { s.ledger with coins := s.ledger.coins ++ [c] } }

def dropCoins (s : State) (p : Coin → Bool) : State :=
  { s with ledger := { s.ledger with coins := s.ledger.coins.filter (fun c => !p c) } }

def mapCoins (s : State) (f : Coin → Coin) : State :=
  { s with ledger := { s.ledger with coins := s.ledger.coins.map f } }

/-- The item holds a coin of a sort. -/
def hasCoin (s : State) (id : Nat) (st : CoinSort) : Bool := s.ledger.coins.any (fun c => c.item = some id && c.sort = st)

/-- An item's launch or sense is granted: a grant, or a program's launch set-aside. -/
def isGranted (s : State) (id : Nat) : Bool := hasCoin s id .granted || hasCoin s id .launchAside

/-- What an item was granted is charged (R210). -/
def chargeItem (s : State) (id : Nat) : State :=
  mapCoins s (fun c => if c.item = some id ∧ c.sort = .granted then { c with sort := .charged } else c)

/-- A program's launch set-aside is charged at its confirm (R210). -/
def chargeAside (s : State) (id : Nat) : State :=
  mapCoins s (fun c => if c.item = some id ∧ c.sort = .launchAside then { c with sort := .charged } else c)

/-- Releases the VCC coins charged for an item's phase, and the VCCQ coins charged for its tenure (R209). -/
def releaseVcc (s : State) (id : Nat) : State := dropCoins s (fun c => c.item = some id && c.sort = .charged && !c.q)
def releaseVccq (s : State) (id : Nat) : State := dropCoins s (fun c => c.item = some id && isCharged c && c.q)

/-- Releases the VCC coins that a LUN's dies may still draw (R152, R353): at a reset that shows RDY, a later poll that
shows ARDY, or a loss of the supply. -/
def releaseLun (s : State) (l : Lun) : State := dropCoins s (fun c => c.lun = l && c.sort = .charged && !c.q)

/-! ### Waits (R175, R215, R450) -/

/-- The tenures of a channel's group wait: STATE of its calibration is FORCING or RUNNING. -/
def calHeld (s : State) (g : Nat) : Bool := 2 ≤ rd s F.calGrpStatusState g

/-- The time that a request has waited: none before it was first refused, and then at least one unit (R215). A hold of its
group does not count (R450). -/
def waitOf (s : State) (a : Ask) : Nat :=
  match a.since, a.waited with
  | some t, true =>
    if calHeld s (a.lun.ch / 4) then a.banked
    else match a.runFrom with
      | some f => a.banked + (s.clk - f)
      | none => max 1 (s.clk - t)
  | _, _ => 0

/-- STATE of a group's calibration becomes `v`. As FORCING or RUNNING begins, the waits of the group's requests stop; as it
ends, they count again (R450). -/
def setCalState (s : State) (g v : Nat) : State :=
  let on := fun a : Ask => a.lun.ch / 4 = g
  let s1 :=
    if calHeld s g && v < 2 then
      { s with ledger := { s.ledger with asks := s.ledger.asks.map (fun a => if on a then { a with runFrom := some s.clk } else a) } }
    else if !calHeld s g && 2 ≤ v then
      { s with ledger := { s.ledger with asks := s.ledger.asks.map (fun a => if on a then { a with banked := waitOf s a } else a) } }
    else s
  wr1 s1 F.calGrpStatusState g v

/-- The VCC coins charged for an item. -/
def vccOf (s : State) (id : Nat) : Nat := coinSum s (fun c => c.item = some id && c.sort = .charged && !c.q)

/-- Returns the unused grants and set-asides of an item. -/
def returnUnused (s : State) (id : Nat) : State := dropCoins s (unusedCoin id)

end Sys2Proof.Machine
end

