-- ==== Sys2Proof/Machine/Bus.lean ====
section
/-! DEFINITION. The channel's bus: when a sequencer suspends and resumes (R184, R186), tenures asked for, the order in which
they begin (R178, R179), and what begins and ends with them (R145–R147, R173, R177, R183, R210). -/

namespace Sys2Proof.Machine

/-! ### When a sequencer works, suspends and resumes -/

/-- A sequencer works, in ACTIVE or SERVICE, with its core clock not parked (R12, R34, R351, R420). -/
def seqWorks (s : State) (ch : Nat) : Bool :=
  isActive s && domUp s (dCg (ch / 4)) && engRunning s (ch / 4) (ch % 4) && !parked s

/-- The item at the head of a LUN may take it now (R111, R118, R122, R185, R194). -/
def headReady (s : State) (l : Lun) : Option Item :=
  let st := getLun s l
  if seqWorks s l.ch && !warn s && st.act = .idle && !restoring s l && !st.halted && !st.resetDue && !st.resetRun then
    match st.head.head?.bind (findItem s) with
    | some it => if (st.susp = 0 || (it.inside && !ladderWaits s l)) then some it else none
    | none => none
  else none

/-- A bounded read is offered that keeps a LUN suspended, or suspends it (R184, R186). -/
def boundedDue (s : State) (l : Lun) : Bool :=
  match offered s l with
  | some it => it.pkt.bounded && opSense it.pkt.op
      && (it.pkt.launchTick = 0 || it.pkt.launchTick.toNat ≤ fineTick s + 1000 * rd s F.chSchedSuspLeadUs l.ch)
  | none => false

/-- NOSUSP of a LUN. -/
def noSusp (s : State) (l : Lun) : Bool := rdB s F.chLunStateNosusp l.ch (8 * l.ce + l.lun)

/-- The conditions of R184 other than the running time; a chain of cache programs ends first (R183), and an operation that
a ladder waits for completes (R122). -/
def suspendCond (s : State) (l : Lun) : Bool :=
  let st := getLun s l
  seqWorks s l.ch && !warn s && !st.suspWant && st.chain.isNone && !ladderHeld s l
  && ((st.act = .program && rdB s F.chSchedSuspProg l.ch) || (st.act = .erase && rdB s F.chSchedSuspErase l.ch))
  && !noSusp s l && boundedDue s l

/-- The phase of a LUN has run for RUN_MIN_US since it began or was last resumed (R184). -/
def ranEnough (s : State) (l : Lun) : Bool := (getLun s l).phaseStart + usU * rd s F.chSchedRunMinUs l.ch ≤ s.clk

/-- The conditions of a resume other than the ledger's (R186, R185, R200): a bounded item that may run inside the suspend
keeps it, but for one that a ladder's wait for the resume holds back (R122). (DEDUCED, log entry 24.) -/
def resumeDue (s : State) (l : Lun) : Bool :=
  let st := getLun s l
  seqWorks s l.ch && st.susp ≠ 0 && st.act = .idle && !st.resetDue && !st.resetRun && !restoring s l && !warn s
  && (!boundedDue s l || ladderWaits s l) && (headReady s l).isNone && st.array.isSome

/-! ### Small changes of LUN state -/

/-- The polling interval of a LUN, in time units (R150). -/
def pollNsOf (s : State) (l : Lun) : Nat := max 100 (rd s F.chPollPollIntNs l.ch)
def pollInterval (s : State) (l : Lun) : Nat :=
  nsU * (pollNsOf s l * (if rdB s (F.chRbMapUse l.ce) l.ch then max 1 (rd s F.chPollRbPollMul l.ch) else 1))

def setPoll (s : State) (l : Lun) (dt : Nat) : State := updLun s l (fun st => { st with pollAt := some (s.clk + dt) })

/-- The LUN's phase begins now (R152, R184, R219). -/
def startPhase (s : State) (l : Lun) (a : Act) (firstPoll : Nat) : State :=
  let n := s.ledger.ord
  setPoll (updLun { s with ledger := { s.ledger with ord := n + 1 } } l (fun st =>
    { st with act := a, phaseStart := s.clk, ranBefore := 0, startOrd := n })) l firstPoll

/-! ### Asking for tenures (R178) -/

/-- The class of a tenure of an item: class 3 when it is bounded. -/
def itemCls (it : Item) (n : Nat) : Nat := if it.pkt.bounded then 3 else n

/-- The bus class of each kind of tenure of an item that is not bounded (R178). -/
def kindCls : TenKind → Nat
  | .poll => 2
  | .dataOut => 5
  | .resume => 6
  | .routine => 7
  | _ => 4

/-- A tenure may not begin now: it would still hold the bus at the tick of another item that is armed, and is none of
class 1 or 3 (R235), or, from class 5 on, at the launch tick of an item offered on a free LUN (R179). An open gate's launch
waits for nothing. -/
def deferred (s : State) (ch : Nat) (t : Tenure) : Bool :=
  let holds := fun tick : Nat => fineTick s < tick && tick < fineTick s + tenureNs s t
  !t.gated && t.cls ≠ 1 && t.cls ≠ 3
  && (s.items.any (fun it => it.armed && it.lun.ch = ch && t.item ≠ some it.id && holds it.pkt.launchTick.toNat)
      || (5 ≤ t.cls && (lunsOf s ch).any (fun l => match offered s l with
        | some it => it.pkt.launchTick ≠ 0 && lunFree s l it && holds it.pkt.launchTick.toNat
        | none => false)))

/-- FLASH_OUT holds no image that a granted program still needs. -/
def flashOutFree (s : State) (ch : Nat) : Bool :=
  !((getCh s ch).out.any (fun id => isGranted s id || (getCh s ch).bus.any (fun t => t.item = some id)))

/-- A program's launch can take its image from FLASH_OUT: it, or none, waits there, and the PHY is attached (R301, R305).
(DESIGN CHOICE, log entry 139.) -/
def flashOutMay (s : State) (ch : Nat) (t : Tenure) : Bool :=
  match t.item.bind (findItem s) with
  | some it => it.phase ≠ .program || (!detached s ch 1 && ((getCh s ch).out = some it.id || flashOutFree s ch))
  | none => true

/-- A program's grant has arrived: the output pass of its first page begins (R301). -/
def startPass (s : State) (it : Item) : State :=
  match it.phase, it.pages.head? with
  | .program, some p =>
    if flashOutFree s it.lun.ch then
      updCh (outputPass (dropFlashOut s it.lun.ch) it p) it.lun.ch (fun c => { c with out := some it.id })
    else s
  | _, _ => s

/-- A suspend that power-fail or the ledger ordered. -/
def Tenure.ordered (t : Tenure) : Bool := t.kind = .suspend && t.cls = 1

/-- The group and the clock let the tenure begin: no calibration run, forced hold or settling of trims stands against it
(R448, R449, R453), the core clock is not parked (R420), and PWR_WARN does not forbid it (R81, R82, R200). -/
def tenureMay (s : State) (ch : Nat) (t : Tenure) : Bool :=
  domUp s (dCg (ch / 4)) && engRunning s (ch / 4) (ch % 4)
  && (match rd s F.calGrpStatusState (ch / 4) with | 2 => t.ordered | 3 => false | _ => true)
  && (match (getGroup s (ch / 4)).settleUntil with | some u => u ≤ s.clk | none => true)
  && (!parked s || t.ordered || (t.kind = .poll && (getLun s t.lun).act = .suspending && (getLun s t.lun).suspOrd))
  && (t.kind ≠ .launch || flashOutMay s ch t)
  && (!warn s || (match t.kind with
      | .launch | .resume | .reset | .routine => false
      | .dataOut => (match t.item.bind (findItem s) with | some it => it.xferBegun | none => false)
      | _ => true))

/-- The LUN lets the tenure begin: an item not launched is offered, its tick reached, but for a write of its read-level offsets,
and its LUN free for it (R173, R231, R232), a launched item's LUN is idle or held by it, an ordered suspend's phase runs, and the conditions of R184 and R186 still hold for the suspend for a
bounded item and for a resume. -/
def lunReady (s : State) (t : Tenure) : Bool :=
  let st := getLun s t.lun
  match t.kind, t.item.bind (findItem s) with
  | .poll, some it => it.launched || (it.pkt.op = 9 && lunFree s t.lun it && tickReached s it)
  | .poll, none => true
  | .suspend, _ => if t.ordered then st.suspWant && (st.act = .program || st.act = .erase) else suspendCond s t.lun && ranEnough s t.lun
  | .resume, _ => resumeDue s t.lun
  | .reset, none => st.act = .idle
  | .dataOut, some it => st.cur = some it.id && st.act = .hold && !st.chainOffs && st.readEnd ≠ some false
  | .cacheEnd, _ => st.act = .hold && st.readEnd = some false
  | .feature, none => st.act = .idle
  | .getData, _ | .routine, none => true
  | _, some it =>
    (t.offs.isSome || it.launched || tickReached s it)
    && ((st.cur = some it.id && st.act = .other)
    || (if it.launched then st.act = .idle else (offered s t.lun).map (fun o => o.id) = some it.id && launchFree s t.lun it))
  | _, none => true

/-- The rank of a tenure: an open gate's launch before the classes of R178 (R232, R235). -/
def Tenure.rank (t : Tenure) : Nat := if t.gated then 0 else t.cls

/-- The place in the list of the tenure that begins next: the lowest class, then the oldest (R178). Requests equally old
were asked for in order of chip enable, then LUN. (DEDUCED, log entry 92.) -/
def pickTenure (s : State) (ch : Nat) : Option Nat :=
  ((getCh s ch).want.zipIdx.filter (fun p => !deferred s ch p.1 && tenureMay s ch p.1 && lunReady s p.1)).foldl
    (fun o p => match o with
      | none => some p
      | some q => if p.1.rank < q.1.rank then some p else some q) none |>.map (fun p => p.2)

/-! ### The beginning of a tenure -/

/-- The offsets of every LUN of a chip enable whose class names the address of a SET_FEATURE item for its read levels are
unknown (R124). -/
def forgetOffs (s : State) (it : Item) : State :=
  { s with luns := s.luns.map (fun e =>
      if e.1.ch = it.lun.ch ∧ e.1.ce = it.lun.ce ∧ it.pkt.opByte 8 = rd s F.classCfg0RetryFa (lunClass s e.1)
      then (e.1, { e.2 with offs := none }) else e) }

/-- An item's first command cycle begins (R66, R233, R234): it leaves its queue and counts as launched. It is late when more
than LATE_TOL ticks have passed since its launch tick. -/
def startItem (s : State) (it : Item) : State :=
  let late := it.pkt.launchTick ≠ 0 && nsU * (it.pkt.launchTick.toNat + rd s F.tbCtlLateTol) < s.fine
  let s1 := updItem s it.id (fun i => { i with launched := true, armed := false, gateOpen := false, launchTickAt := some (fineTick s),
                                               marks := if late then i.marks ++ [.okLate] else i.marks })
  let s2 := updLun s1 it.lun (fun st => { st with queue := st.queue.filter (fun j => j ≠ it.id),
                                                  head := st.head.filter (fun j => j ≠ it.id) })
  tallyC (updCh s2 it.lun.ch (fun c => { c with gate := if c.gate = some it.id then none else c.gate }))
    (0x100 + it.lun.ch) it.cls

/-- A launch tenure begins (R173, R210). -/
def beginLaunch (s : State) (it : Item) : State :=
  let s1 := if it.launched then
      updLun s it.lun (fun st => { st with head := st.head.filter (fun j => j ≠ it.id), queue := st.queue.filter (fun j => j ≠ it.id) })
    else startItem s it
  let st := getLun s1 it.lun
  let s2 := if st.act = .idle ∨ (st.act = .other ∧ st.cur = some it.id) then updLun s1 it.lun (fun st => { st with act := .launch, cur := some it.id, holdStart := none, readEnd := none })
            else if it.phase = .sense then updLun s1 it.lun (fun st => { st with chain := some it.id, chainOffs := false })
            else s1
  let s2 := { s2 with ledger := { s2.ledger with ord := s2.ledger.ord + 1 } }
  let s3 := updLun (updItem (chargeItem s2 it.id) it.id (fun i => { i with
      stage := .launch, gateOpen := false, levels := if i.sense = .first then st.offs else i.levels })) it.lun
    (fun st => { st with startOrd := s.ledger.ord })
  if it.phase = .program then
    let (cs, s4) := programCycles s3 it
    sendMore s4 it.lun.ch cs
  else s3

/-- An operation without an array phase begins: feature access, reset, routine, status (R173). A SET_FEATURE of read levels
makes those of its chip enable unknown (R124). -/
def beginOther (s : State) (it : Item) : State :=
  let s0 := if it.launched then s else startItem s it
  let s1 := if it.pkt.op = 0x0a then forgetOffs s0 it else s0
  updItem (updLun s1 it.lun (fun st => { st with act := .other, cur := some it.id })) it.id (fun i => { i with stage := .other })

/-- A suspend begins (R184, R187), ordered by power-fail or the ledger or not: the LUN is SUSPENDING, and the suspend is
counted. -/
def beginSuspend (s : State) (l : Lun) (ordered : Bool) : State :=
  let s1 := updLun s l (fun st => { st with
    act := .suspending, suspOrd := ordered, suspWant := false, suspAt := s.clk, suspCount := sat 255 (st.suspCount + 1),
    ranBefore := st.ranBefore + (s.clk - st.phaseStart) })
  match (getLun s l).array.bind (findItem s) with
  | some it => tallyC (updItem s1 it.id (fun i => { i with suspends := i.suspends + 1 })) (0x180 + l.ch) it.cls
  | none => s1

/-- A data-out begins (R146, R177): its bytes on the bus are counted once, however often it is interrupted. -/
def beginData (s : State) (t : Tenure) (it : Item) : State :=
  let s1 := updItem (updLun (chargeItem s it.id) t.lun (fun st => { st with act := .transfer, holdStart := none })) it.id
    (fun i => { i with stage := .xfer, xferBegun := true })
  if it.xferGot.isSome then s1 else tallyCW s1 (0x200 + t.lun.ch) it.cls (xferBus s it)

/-- An offset write begins (R124): the LUN is OTHER for the item, or still held by the page before it in a cache read
(R182). -/
def beginOffs (s : State) (it : Item) (o : W32) : State :=
  updLun s it.lun (fun st =>
    if st.act = .hold then { st with offsWant := some o, chain := some it.id, chainOffs := true }
    else { st with offsWant := some o, act := .other, cur := some it.id })

/-- A sense whose offsets are not those last written to its LUN begins with their write (R124): another read may have come
between. -/
def asOffs (s : State) (t : Tenure) : Tenure :=
  match t.kind, t.item.bind (findItem s) with
  | .launch, some it =>
    if it.phase = .sense ∧ (getLun s it.lun).offs ≠ some (senseOffs s it) then
      { t with kind := .feature, offs := some (senseOffs s it), gated := false }
    else t
  | _, _ => t

/-- What begins with a tenure: its cycles are on the bus. -/
def beginTenure (s : State) (ch : Nat) (t : Tenure) : State :=
  let it := t.item.bind (findItem s)
  let s0 := updCh (sendOn s ch t.lun.ce (tenureCycles s t)) ch (fun c => { c with bus := some { t with resumed := it.any (fun i => i.xferGot.isSome) } })
  match t.kind, it with
  | .launch, some it => beginLaunch s0 it
  | .dataOut, some it => beginData s0 t it
  | .suspend, _ => beginSuspend s0 t.lun t.ordered
  | .resume, some it => updLun (chargeItem s0 it.id) t.lun (fun st => { st with act := .resuming })
  | .feature, some it =>
    match tenureOffs s t with
    | some o => beginOffs s0 it o
    | none => beginOther s0 it
  | .feature, none => updLun s0 t.lun (fun st => { st with act := .other, offsWant := t.offs })
  | .reset, some it => updLun (beginOther s0 it) t.lun (fun st => { st with resetRun := true })
  | .reset, none => updLun s0 t.lun (fun st => { st with act := .other, resetRun := true })
  | .poll, some it => if it.pkt.op = 9 ∧ ¬ it.launched then beginOther s0 it else s0
  | .routine, some it =>
    updLun (updCh (beginOther s0 it) ch (fun c => { c with routine := some it.id })) t.lun
      (fun st => { st with phaseStart := s.clk, ranBefore := 0 })
  | _, _ => s0

/-- Begins the next tenure if the bus is free (R178); with none, CE_N goes high (R147). -/
def kickBus (s : State) (ch : Nat) : State :=
  match (getCh s ch).bus, pickTenure s ch with
  | none, some i =>
    match (getCh s ch).want[i]? with
    | some t => beginTenure (updCh s ch (fun c => { c with want := c.want.eraseIdx i })) ch (asOffs s t)
    | none => s
  | none, none => updCh s ch (fun c => c.raiseCe s.clk)
  | _, _ => s

/-- Asks for a tenure. -/
def wantBus (s : State) (t : Tenure) : State := updCh s t.lun.ch (fun c => { c with want := c.want ++ [t] })

/-- Asks for a tenure, and begins it if the bus is free and it comes first. -/
def askBus (s : State) (t : Tenure) : State := kickBus (wantBus s t) t.lun.ch

/-- A tenure of an item, in its class of R178; a launch whose gate is open goes first (R232). -/
def itemTenure (s : State) (k : TenKind) (it : Item) : Tenure :=
  { kind := k, lun := it.lun, item := some it.id, cls := itemCls it (kindCls k),
    gated := k = .launch && (findItem s it.id).any (fun i => i.gateOpen) }

/-- The write of the read-level offsets that an item's sense needs (R124). -/
def offsTenure (s : State) (it : Item) : Tenure := { itemTenure s .feature it with offs := some (senseOffs s it) }

/-- The launch tenure of a phase whose coins are granted, behind the feature write that its sense needs (R118, R124). -/
def launchTenure (s : State) (it : Item) : Tenure :=
  if it.phase = .sense ∧ needsOffs s it then offsTenure s it else itemTenure s .launch it

def askItem (s : State) (k : TenKind) (it : Item) : State := askBus s (itemTenure s k it)
def askLaunch (s : State) (it : Item) : State := askBus s (launchTenure s it)

/-! ### A LUN becomes free -/

/-- How a LUN stands when the next page of a cache read becomes its current item (R182): sensing, sensed, launching, or
with its offset write on the die. -/
def chainAct (st : LunSt) (c : Item) : Act :=
  match c.stage with
  | .sense => .sense
  | .launch => .launch
  | .queued => if st.chainOffs then .other else .idle
  | _ => .hold

/-- The next page of a cache read goes on alone (R182): no READ without BOUNDED is offered that could follow it.
(DEDUCED, log entry 127.) -/
def chainStops (s : State) (l : Lun) : Bool :=
  match offered s l with
  | some it => it.pkt.op ≠ 1 || it.pkt.bounded || it.isHk || !rdB s F.chSchedCacheRead l.ch
  | none => true

/-- The cache read end of a LUN whose page is in the die's page register (R182). -/
def endTenureOf (s : State) (l : Lun) : State :=
  match (getLun s l).cur.bind (findItem s) with
  | some it => wantBus s (itemTenure s .cacheEnd it)
  | none => s

/-- The LUN is released: no item uses it. A page read ahead by cache read becomes the current item; where its chain ends with
it, the cache read end comes next (R182). -/
def freeLun (s : State) (l : Lun) : State :=
  let st := getLun s l
  let free := updLun s l (fun st => { st with act := .idle, cur := none, holdStart := none, readEnd := none })
  match st.chain.bind (findItem s) with
  | some c =>
    if c.phase = .sense then
      let a := chainAct st c
      let ends := chainStops s l && (a = .sense || a = .launch || a = .hold)
      let s1 := updLun s l (fun st => { st with
        cur := if a = .idle then none else some c.id, chain := none, chainOffs := false, holdStart := none, act := a,
        readEnd := if ends then some false else none })
      if ends && a = .hold then endTenureOf s1 l else s1
    else free
  | none => free

/-! ### The end of a tenure -/

/-- The next page of a cache program chain at a confirm (R183): the PROGRAM offered on the LUN whose coins are
granted. -/
def nextOfChain (s : State) (it : Item) : Option Nat :=
  if rdB s F.chSchedCacheProg it.lun.ch && it.pkt.op = 4 then
    match offered s it.lun with
    | some b => if b.pkt.op = 4 && isGranted s b.id then some b.id else none
    | none => none
  else none

/-- A program's confirm cycle is sent: its coins are charged, its transfer coins and its slots released (R33, R210). -/
def programConfirmed (s : State) (it : Item) : State :=
  let s1 := releaseVccq (chargeAside s it.id) it.id
  let s2 := if it.isPatrol then s1
    else { s1 with staging := { s1.staging with held := s1.staging.held.filter (fun h => h.2 ≠ it.id) } }
  let s3 := updItem s2 it.id (fun i => { i with
    stage := .program, pages := if it.isPatrol then i.pages else i.pages.map (fun p => { p with slot := none }) })
  let st := getLun s3 it.lun
  let nx := nextOfChain s3 it
  let s3 := sendMore s3 it.lun.ch [if nx.isSome then StdUse.cacheProgram.cyc else .cmd 0x10]
  if st.act = .program ∧ st.chain = some it.id then
    setPoll (updLun s3 it.lun (fun st => { st with chainConf := true, chainRdy := false, chainNext := nx })) it.lun (pollInterval s it.lun)
  else
    updLun (startPhase s3 it.lun .program (usU * rd s F.chPollFirstProgUs it.lun.ch)) it.lun
      (fun st => { st with array := some it.id, cur := some it.id, suspCount := 0, chain := nx, chainConf := false, chainRdy := false,
                           ledgerSusp := st.ledgerSusp && st.suspWant })

/-- The end of a launch tenure (R146, R181, R183, R210). -/
def endLaunch (s : State) (it : Item) : State :=
  match it.phase with
  | .sense =>
    let s1 := updItem s it.id (fun i => { i with stage := .sense })
    if (getLun s it.lun).chain = some it.id then
      setPoll (updLun s1 it.lun (fun st => { st with phaseStart := s.clk, ranBefore := 0 })) it.lun
        (usU * rd s F.chPollFirstReadUs it.lun.ch)
    else startPhase s1 it.lun .sense (usU * rd s F.chPollFirstReadUs it.lun.ch)
  | .program => programConfirmed s it
  | .erase =>
    updLun (startPhase (updItem s it.id (fun i => { i with stage := .erase })) it.lun .erase (usU * rd s F.chPollFirstEraseUs it.lun.ch))
      it.lun (fun st => { st with array := some it.id, suspCount := 0, ledgerSusp := false })
  | .none => s

/-- The item whose program or erase is on a LUN. -/
def arrayItem (s : State) (l : Lun) : Option Item := (getLun s l).array.bind (findItem s)

/-- A resumed page of a cache chain and its confirmed next page hold their own coins again (R183, R210). -/
def splitCoins (s : State) (l : Lun) : State :=
  let st := getLun s l
  let k := st.suspChain
  if st.chainConf ∧ k ≠ 0 ∧ st.chain.isSome then
    addCoin (mapCoins s (fun c => if c.item = st.array ∧ c.sort = .charged ∧ ¬ c.q then { c with n := c.n - k } else c))
      { lun := l, item := st.chain, sort := .charged, q := false, n := k }
  else s

/-- The end of a resume tenure (R186): the phase runs again, and the next poll comes after POLL_INT_NS. -/
def endResume (s : State) (l : Lun) : State :=
  let n := s.ledger.ord
  let a : Act := match arrayItem s l with
    | some it => if it.phase = .erase then .erase else .program
    | none => .idle
  let s1 := updLun { s with ledger := { s.ledger with ord := n + 1 } } l (fun st =>
    { st with act := a, cur := st.array, susp := 0, phaseStart := s.clk, startOrd := n, ledgerSusp := false, suspChain := 0 })
  setPoll (splitCoins s1 l) l (nsU * pollNsOf s l)

/-- What ends with a tenure other than a data-out and a poll; `data` holds the bytes that a feature read returned. -/
def endTenure (s : State) (t : Tenure) (data : List Byte) : State :=
  let it := t.item.bind (findItem s)
  match t.kind, it with
  | .launch, some it => endLaunch s it
  | .suspend, _ => setPoll s t.lun (pollInterval s t.lun)
  | .resume, _ => endResume s t.lun
  | .getData, some it =>
    endItem (freeLun (updItem s it.id (fun i => { i with result := BitVec.ofNat 32 (leNat (data.take 4)) })) it.lun) it.id
  | .routine, _ => s
  | _, _ => setPoll (updLun s t.lun (fun st => { st with phaseStart := s.clk, ranBefore := 0 })) t.lun (pollInterval s t.lun)

/-- The bus of a channel is free: a tenure other than a poll counts for the boundary of R448. A program's image has left
FLASH_OUT, or is discarded (R301). -/
def clearBus (s : State) (ch : Nat) : State :=
  let s1 := match (getCh s ch).bus with
    | some t => if t.kind = .poll then s else updGroup s (ch / 4) (fun g => { g with freeSince := s.clk })
    | none => s
  let s2 := if (getCh s ch).bus.any (fun t => t.kind = .launch && t.item.isSome && t.item = (getCh s ch).out) then dropFlashOut s1 ch else s1
  updCh s2 ch (fun c => { c with bus := none, wpHeld := none })

/-! ### Suspends that power-fail or the ledger order (R177, R188, R198, R218) -/

/-- LUNs of a channel whose ordered suspend waits and may begin: the phase runs, and no suspend is asked for. -/
def orderedLuns (s : State) (ch : Nat) : List Lun :=
  (lunsOf s ch).filter (fun l =>
    let st := getLun s l
    st.suspWant && (st.act = .program || st.act = .erase)
    && !((getCh s ch).want.any (fun t => t.ordered && t.lun = l)))

/-- The suspends that wait for a LUN's bus are withdrawn: their phase has ended. -/
def dropSusp (s : State) (l : Lun) : State :=
  updCh s l.ch (fun c => { c with want := c.want.filter (fun t => !(t.kind = .suspend && t.lun = l)) })

/-- One packet of read data in FLASH_IN: the PHY publishes each line, and an attached consumer takes it, or drops it where the
packet was closed before its end (R302, R303). -/
def flashInPacket (s : State) (ch : Nat) (b : List Byte) (disc : Bool) : State :=
  updFifo s ch 2 (fun f =>
    let g := (f.put ((fifoLinesOf b [] true).map (fun l => { l with disc := disc }))).publish
    if detached s ch 2 then g else { g with cons := g.wr })

/-- The packets of ranges, in order, out of the bytes of all; `cut` tells that the last was closed before its end. -/
def flashIn (s : State) (ch : Nat) (cut : Bool) : List Range → List Byte → State
  | [], _ => s
  | [r], b => flashInPacket s ch (b.take r.2) cut
  | r :: q, b => flashIn (flashInPacket s ch (b.take r.2) false) ch cut q (b.drop r.2)

/-- A data-out tenure stops after the byte in progress (R177, R303): its last packet is closed as discarded. How many bytes of
what it moves have come, and which, is free. (DESIGN CHOICE, log entry 95.) -/
def cutData (s : State) (ch : Nat) (it : Item) : Nat × State :=
  let (w, s0) := freeWord s
  let n := w.toNat % (xferLen s it - it.xferGot.getD 0 + 1)
  let (b, s1) := freeBytes s0 n
  let s2 := flashIn s1 ch true ((takeParts (restParts s it) n).map (fun x => x.2)) b
  (n, tally (wr s2 F.chFifoStatDiscarded ch 2 0 1) 0x51)

/-- A data-out tenure on the bus is interrupted (R177, R303): its coins are released, and the item asks again for what it has
not received. -/
def interruptData (s : State) (ch : Nat) : State :=
  match (getCh s ch).bus with
  | some t =>
    match t.kind, t.item.bind (findItem s) with
    | .dataOut, some it =>
      let (n, s0) := cutData s ch it
      let s1 := updItem (releaseVccq s0 it.id) it.id (fun i => { i with stage := .needXfer, xferGot := some (it.xferGot.getD 0 + n) })
      clearBus (updLun s1 t.lun (fun st => { st with act := .hold })) ch
    | _, _ => s
  | none => s

/-- Abandons a run that holds the group (R452). -/
def abandonRun (s : State) (g : Nat) : State :=
  if rd s F.calGrpStatusState g = 3 then
    let s1 := flag1 (wr1 (setCalState s g 0) F.calGrpStatusRuns g ((rd s F.calGrpStatusRuns g + 1) % 65536))
      F.calGrpStatusCalAbort g
    let s2 := updGroup s1 g (fun x => { x with
      calPending := false, calItems := [],
      retryUntil := some (s.clk + 1000 * usU * rd s F.calGrpCtlRetryMs g) })
    tally (endAll s2 (getGroup s g).calItems .ok) (0x70 + 4 * g + 3)
  else s

/-- The suspend of a program that was picked during its launch tenure is the channel's first class 1 tenure after it
(R219). -/
def issueFirst (s : State) (t : Tenure) : State :=
  if t.kind = .launch ∧ t.lun ∈ orderedLuns s t.lun.ch then
    updCh s t.lun.ch (fun c => { c with want := { kind := .suspend, lun := t.lun, item := none, cls := 1 } :: c.want })
  else s

/-- Issues a channel's ordered suspends as class 1 tenures (R178, R199, R218). -/
def issueOrdered (s : State) (ch : Nat) : State :=
  let ls := orderedLuns s ch
  if ls.isEmpty then s
  else
    let s1 := interruptData (abandonRun s (ch / 4)) ch
    kickBus (updCh s1 ch (fun c => { c with
      want := c.want ++ ls.map (fun l => { kind := .suspend, lun := l, item := none, cls := 1 }) })) ch

end Sys2Proof.Machine
end

