-- ==== Sys2Proof/Machine/Sched.lean ====
section
/-! DEFINITION. Decisions of the sequencers and of the ledger: what each channel asks for, the ledger's round, arming and
launch gates, launches, suspends and resumes (R172–R188, R212–R220, R232–R236). -/

namespace Sys2Proof.Machine

/-! ### When a channel may decide -/

/-- CH_CTL STATE is ENABLED (R201). -/
def chEnabled (s : State) (ch : Nat) : Bool := rd s F.chCtlState ch = 3

/-- Launches may take place on a channel: it is enabled, and PWR_WARN is low (R81, R202, R230). -/
def mayLaunch (s : State) (ch : Nat) : Bool := seqWorks s ch && chEnabled s ch && !warn s

/-- The patrol launches nothing while 64 relocation receipts are held (R327). -/
def patrolPaused (s : State) (it : Item) : Bool := it.isPatrol && 64 ≤ s.patrol.receipts.length

/-- An item may launch its next phase: a launched item goes on while its channel drains (R79, R203). -/
def mayLaunchItem (s : State) (it : Item) : Bool :=
  seqWorks s it.lun.ch && !warn s && (chEnabled s it.lun.ch || it.launched) && !patrolPaused s it

/-- An item has a tenure asked for or on the bus, or its offset write holds its LUN. -/
def busyWant (s : State) (it : Item) : Bool :=
  let c := getCh s it.lun.ch
  let own := fun t : Tenure => t.item = some it.id
  c.want.any own || c.bus.any own || ((getLun s it.lun).act = .other && (getLun s it.lun).cur = some it.id)

/-! ### Requests (R175, R209, R210, R212) -/

/-- The ledger class of a request of an item (R212).
A COPY's destination program is of an item already launched. (DEDUCED, log entry 132.) -/
def askClass (it : Item) : Nat :=
  if it.pkt.bounded then 1 else if it.isHk then 5 else if it.launched then 2
  else if it.pkt.launchTick ≠ 0 then 3 else 4

/-- The VCCQ part of a launch: a program's data input (R210). -/
def launchQ (s : State) (it : Item) : Option Nat :=
  if it.phase = .program then some (xferCost s (setOf s it) it.lun.ch) else none

/-- The request for an item's next array phase. -/
def launchAsk (s : State) (it : Item) (k : AskKind) : Ask :=
  { lun := it.lun, item := it.id, kind := k, cls := if k = .aside then 3 else askClass it, tenCls := itemCls it 4,
    vcc := some (itemCost s it), vccq := launchQ s it }

/-- The next PROGRAM of a cache chain asks while the page before it is in its launch tenure (R183). -/
def chainAsks (s : State) (l : Lun) (it : Item) : Bool :=
  rdB s F.chSchedCacheProg l.ch && it.pkt.op = 4 && !it.pkt.bounded
  && (match (getCh s l.ch).bus with
      | some t => t.kind = .launch && t.lun = l && (match t.item.bind (findItem s) with
          | some c => c.pkt.op = 4 && c.phase = .program
          | none => false)
      | none => false)

/-- The launch that a LUN's offered item asks for (R173, R175). -/
def launchWish (s : State) (l : Lun) : List Ask :=
    match offered s l with
    | some it =>
      if mayLaunchItem s it && it.phase ≠ .none && !isGranted s it.id && !hasCoin s it.id .aside && tickReached s it && !busyWant s it
          && (launchFree s l it || chainAsks s l it)
      then [launchAsk s it .launch] else []
    | none => []

/-- The soft slots that a step's extra senses need are held (R313). -/
def softReady (it : Item) : Bool := match it.sense with | .ladder _ (_ + 1) => !it.softSlots.isEmpty | _ => true

/-- The further sense that the head item asks for. -/
def headWish (s : State) (l : Lun) : List Ask :=
  match headReady s l with
  | some it =>
    if it.stage = .needSense && !isGranted s it.id && !busyWant s it && softReady it then [launchAsk s it .sense] else []
  | none => []

/-- Lines that the rest of an item's transfer makes in FLASH_IN. -/
def xferLines (s : State) (it : Item) : Nat := (restParts s it).foldl (fun n x => n + ceilDiv x.2.2 64) 0

/-- FLASH_IN takes the item's transfer: its consumer is attached, or it has room for all of it (R305). -/
def flashInRoom (s : State) (it : Item) : Bool := !detached s it.lun.ch 2 || xferLines s it ≤ (getFifo s it.lun.ch 2).room

/-- The data-out that a LUN's current item asks for, once it holds its slots (R210, R313). (DEDUCED, log entry 48.) -/
def dataWish (s : State) (l : Lun) : List Ask :=
  let st := getLun s l
  match st.cur.bind (findItem s) with
  | some it =>
    if seqWorks s l.ch && st.act = .hold && st.readEnd ≠ some false && it.stage = .needXfer && (hasSlots it) && !isGranted s it.id && !busyWant s it
        && (!warn s || it.xferBegun) && flashInRoom s it
    then [{ lun := l, item := it.id, kind := .transfer, cls := if it.isHk then 5 else if it.pkt.bounded then 1 else 2,
            tenCls := itemCls it 5, vcc := none, vccq := some (xferCost s (setOf s it) l.ch) }]
    else []
  | none => []

/-- The resume that a LUN asks for. -/
def resumeWish (s : State) (l : Lun) : List Ask :=
  match arrayItem s l with
  | some it =>
    if resumeDue s l && !hasCoin s it.id .granted && !busyWant s it then
      [{ lun := l, item := it.id, kind := .resume, cls := 2, tenCls := 6,
         vcc := some (getLun s l).suspCoins, vccq := none }]
    else []
  | none => []

/-- Everything a channel would ask the ledger for. -/
def chWishes (s : State) (ch : Nat) : List Ask :=
  (lunsOf s ch).flatMap
    (fun l => headWish s l ++ launchWish s l ++ dataWish s l ++ resumeWish s l)

/-- The same request: LUN, item and purpose. -/
def Ask.same (a b : Ask) : Bool := a.lun = b.lun && a.item = b.item && a.kind = b.kind

/-! ### Armed items (R232) -/

/-- The tick of an item lies in a quiet window. -/
def tickQuiet (s : State) (it : Item) : Bool := quietAt s it.pkt.launchTick.toNat

/-- TICK_ARM; values above 8,000 act as 8,000. -/
def tickArm (s : State) : Nat := min 8000 (rd s F.tbCtlTickArm)

/-- An item may stay armed: it is offered, its tick is ahead, within TICK_ARM, and outside every quiet window (R232,
R501). -/
def staysArmed (s : State) (it : Item) : Bool :=
  (offered s it.lun).map (fun o => o.id) = some it.id && mayLaunch s it.lun.ch && !tickQuiet s it
  && it.pkt.launchTick.toNat ≤ fineTick s + tickArm s

/-- The armed item of a channel with the earliest tick, ties in order of chip enable, then LUN (R232). -/
def gateOf (s : State) (ch : Nat) : Option Nat :=
  ((sortBy (fun a b => a.pkt.launchTick.toNat < b.pkt.launchTick.toNat
      || (a.pkt.launchTick = b.pkt.launchTick && (a.lun.ce < b.lun.ce || (a.lun.ce = b.lun.ce && a.lun.lun < b.lun.lun))))
    (s.items.filter (fun i => i.armed && i.lun.ch = ch))).head?).map (fun i => i.id)

def setGate (s : State) (ch : Nat) : State := updCh s ch (fun c => { c with gate := gateOf s ch })

/-- An item leaves arming: its set-aside is returned, and the gate takes the next armed item. -/
def disarm (s : State) (it : Item) : State :=
  let s1 := dropCoins (updItem s it.id (fun i => { i with armed := false })) (fun c => c.item = some it.id && c.sort = .aside)
  setGate { s1 with ledger := { s1.ledger with asks := s1.ledger.asks.filter (fun a => !(a.item = it.id && a.kind = .aside)) } } it.lun.ch

/-- An armed item's offsets are written as soon as it arms, and again if they change before its tick (R232). -/
def armOffs (s : State) (it : Item) : State :=
  if it.armed ∧ it.phase = .sense ∧ needsOffs s it ∧ ¬ busyWant s it then wantBus s (offsTenure s it) else s

/-- Channel, chip enable, LUN: the order in which requests equally old are taken (R178). -/
def lunBefore (a b : Lun) : Bool := a.ch < b.ch || (a.ch = b.ch && (a.ce < b.ce || (a.ce = b.ce && a.lun < b.lun)))

/-- Every item that may not stay armed leaves arming; the others' offsets are asked for where they changed. -/
def armedTurn (s : State) : State :=
  let s1 := (s.items.filter (fun i => i.armed && !staysArmed s i)).foldl disarm s
  (sortBy (fun a b => lunBefore a.lun b.lun) (s1.items.filter (fun i => i.armed))).foldl armOffs s1

/-- Every free bus takes the tenure that comes first of those asked for (R178). -/
def kickAllBuses (s : State) : State := (s.chans.map (fun e => e.1)).foldl kickBus s

def refreshArmed (s : State) : State := kickAllBuses (armedTurn s)

/-! ### The ledger's round (R212, R213, R224, R220) -/

/-- Every channel that the state lists. -/
def channels (s : State) : List Nat := (s.luns.map (fun e => e.1.ch)).eraseDups

/-- The set-asides that arming still wants. -/
def asideAsks (s : State) : List Ask :=
  (s.items.filter (fun i => i.armed && !hasCoin s i.id .aside && !isGranted s i.id)).map (fun i => launchAsk s i .aside)

/-- Adds a time that an item has waited for the ledger (R175). -/
def addWait (s : State) (id dt : Nat) : State := updItem s id (fun i => { i with ledgerWait := i.ledgerWait + dt })

/-- A request that is no longer made: its wait ends. LEDGER_WAIT does not run for a set-aside (R232). -/
def withdraw (s : State) (a : Ask) : State :=
  if a.kind = .aside then s else addWait s a.item (waitOf s a)

/-- The requests as they stand now: those still wanted, in the order they arose, then the new ones. A request that is not
presented yet, and a set-aside that is tried again, take their costs anew (R208, R209). -/
def refreshAsks (s : State) : State :=
  let want := (channels s).flatMap (chWishes s) ++ asideAsks s
  let keep := (s.ledger.asks.filter (fun a => want.any a.same)).map (fun a =>
    match want.find? a.same with
    | some b => if a.since.isNone ∨ a.kind = .aside then { a with vcc := b.vcc, vccq := b.vccq } else a
    | none => a)
  let gone := s.ledger.asks.filter (fun a => !(want.any a.same))
  let new := want.filter (fun a => !(s.ledger.asks.any a.same))
  gone.foldl withdraw { s with ledger := { s.ledger with asks := keep ++ new } }

/-- Which requests of a channel are presented: the one of the lowest tenure class, oldest first, on each ledger
(R212). Set-asides are tried in every round (R232). (DEDUCED, log entry 23.) -/
def presented (as : List Ask) : List Ask :=
  (as.map (fun a => a.lun.ch)).eraseDups.flatMap (fun ch =>
    (sortBy (fun a b => decide (a.tenCls < b.tenCls)) (as.filter (fun a => a.lun.ch = ch && a.kind ≠ .aside))).foldl
      (fun acc a =>
        if (a.vcc.isSome && acc.any (fun b => b.vcc.isSome)) || (a.vccq.isSome && acc.any (fun b => b.vccq.isSome)) then acc
        else acc ++ [a]) [])

/-- Marks the requests presented in this round; one that is not presented any more stops waiting. -/
def present (s : State) : State :=
  let ps := presented s.ledger.asks
  let on := fun a : Ask => a.kind = .aside || ps.any a.same
  let off := s.ledger.asks.filter (fun a => !on a)
  let s1 := off.foldl withdraw s
  { s1 with ledger := { s1.ledger with asks := s1.ledger.asks.map (fun a =>
      if on a then
        if a.since.isSome then { a with waited := true }
        else { a with since := some s.clk, waited := false, banked := 0, runFrom := none }
      else { a with since := none, waited := false }) } }

/-- A request is barred: a quiet window is in force, or it resumes a phase that the ledger suspended while the alternate
budget is in force; a set-aside whose tick lies in a quiet window is not made (R213, R220, R224, R232). -/
def barred (s : State) (a : Ask) : Bool :=
  (a.vcc.isSome && a.kind ≠ .aside && quietActive s)
  || (a.kind = .resume && (getLun s a.lun).ledgerSusp && altActive s)
  || (a.kind = .aside && (match findItem s a.item with | some it => tickQuiet s it | none => true))

/-- The set in which coins granted for a request stand. -/
def grantCoins (a : Ask) : List Coin :=
  let mk := fun st q n => ({ lun := a.lun, item := some a.item, sort := st, q := q, n := n } : Coin)
  match a.kind with
  | .aside => (a.vcc.map (mk .aside false)).toList ++ (a.vccq.map (mk .aside true)).toList
  | .launch =>
    (a.vcc.map (mk (if a.vccq.isSome then .launchAside else .granted) false)).toList ++ (a.vccq.map (mk .granted true)).toList
  | _ => (a.vcc.map (mk .granted false)).toList ++ (a.vccq.map (mk .granted true)).toList

/-- Counts a grant and its wait (R468). -/
def tallyGrant (s : State) (a : Ask) (wait : Nat) : State :=
  let cls := ((findItem s a.item).map (fun i => i.cls)).getD 0
  let (cc, s0) := if wait = 0 then (0, s) else coreCycles s wait
  tallyCW (tallyW (tally s0 (0x30 + (a.cls - 1))) (0x35 + (a.cls - 1)) cc) (0x1c0 + a.lun.ch) cls cc

/-- Grants a request (R210, R212). -/
def grantAsk (s : State) (a : Ask) : State :=
  let wait := waitOf s a
  let s1 := { s with ledger := { s.ledger with asks := s.ledger.asks.filter (fun b => !a.same b),
                                               coins := s.ledger.coins ++ grantCoins a } }
  if a.kind = .aside then s1 else tallyGrant (addWait s1 a.item wait) a wait

/-- A round in progress: the state, what holds back later requests on each ledger, and what it granted. -/
structure Round where
  s : State
  holdV : Bool := false
  holdQ : Bool := false
  granted : List Ask := []

/-- A part of a request that costs something. (DEDUCED, log entry 22.) -/
def costs (c : Option Nat) : Bool := match c with | some n => n ≠ 0 | none => false

/-- Takes one request in a round (R206, R213). -/
def roundStep (r : Round) (a : Ask) : Round :=
  if barred r.s a then r
  else
    let fitV := vccFits r.s (a.vcc.getD 0)
    let fitQ := vccqFits r.s (a.vccq.getD 0)
    let held := (costs a.vcc && r.holdV) || (costs a.vccq && r.holdQ)
    if fitV && fitQ && !held then { r with s := grantAsk r.s a, granted := r.granted ++ [a] }
    else if a.kind = .aside then r
    else { r with holdV := r.holdV || (!fitV && a.vcc.getD 0 ≤ vccBudget r.s),
                  holdQ := r.holdQ || (!fitQ && a.vccq.getD 0 ≤ vccqBudget r.s) }

/-- The requests that a round takes, by class, oldest first within a class. -/
def roundOrder (as : List Ask) : List Ask :=
  sortBy (fun a b => a.cls < b.cls || (a.cls = b.cls && a.since.getD 0 < b.since.getD 0))
    (as.filter (fun a => a.since.isSome || a.kind = .aside))

/-- Asks for the tenure that a grant lets begin at once: a data-out, a re-sense of R111, or a soft sense of the ladder step in
hand. -/
def afterGrant (s : State) (a : Ask) : State :=
  match findItem s a.item with
  | none => s
  | some it =>
    match a.kind, it.sense with
    | .launch, _ => startPass s it
    | .transfer, _ => wantBus s (itemTenure s .dataOut it)
    | .sense, .again => wantBus s (launchTenure s it)
    | .sense, .ladder _ (_ + 1) => wantBus s (launchTenure s it)
    | _, _ => s

/-- One round of both ledgers (R212). -/
def ledgerRound (s : State) : State :=
  let s1 := present (refreshAsks (armedTurn s))
  let r := (roundOrder s1.ledger.asks).foldl roundStep { s := s1 }
  kickAllBuses ((sortBy (fun a b => lunBefore a.lun b.lun) r.granted).foldl afterGrant r.s)

/-! ### Launching (R173, R204, R233) -/

/-- A LUN action of CHANNEL_CTL takes effect (R204, R80): UNHALT_LUN clears HALTED, FLUSH_LUN ends the other items that
wait. -/
def lunActionRun (s : State) (it : Item) : State :=
  if it.pkt.opByte 8 = 5 then endItem (updLun s it.lun (fun st => { st with halted := false })) it.id
  else
    let others := (getLun s it.lun).queue.filter (fun i => i ≠ it.id)
    endItem (endAll s others .channelFenced) it.id

/-- The operation of an item without an array phase. -/
def launchOther (s : State) (it : Item) : State :=
  match it.pkt.op with
  | 0x09 => askBus s { kind := .poll, lun := it.lun, item := some it.id, cls := itemCls it 4 }
  | 0x0a | 0x0b => askItem s .feature it
  | 0x0c => askItem s .reset it
  | 0x0d => askItem s .routine it
  | _ => lunActionRun s it

/-- Launches an item whose conditions hold. -/
def launchItem (s : State) (it : Item) : State := if it.phase = .none then launchOther s it else askLaunch s it

/-! ### Picking phases to suspend (R219, R224) -/

/-- A phase that may be suspended: a running program or erase, or a program whose launch tenure is on the bus, on a
channel that allows the kind. -/
def mayPick (s : State) (l : Lun) : Bool :=
  let st := getLun s l
  !st.suspWant
  && ((st.act = .program && rdB s F.chSchedSuspProg l.ch) || (st.act = .erase && rdB s F.chSchedSuspErase l.ch)
      || (st.act = .launch && rdB s F.chSchedSuspProg l.ch && (st.cur.any (fun id => hasCoin s id .launchAside))))

/-- The coins that a LUN's phase or kept launch set-aside counts with. -/
def pickCoins (s : State) (l : Lun) : Nat :=
  coinSum s (fun c => c.lun = l && !c.q && (c.sort = .charged || c.sort = .launchAside))

/-- The coins belong to a phase that is picked, suspending or suspended and not being resumed. -/
def outOfSum (s : State) (c : Coin) : Bool :=
  let st := getLun s c.lun
  let own := c.item.isSome && (c.item = st.array || (st.chainConf && c.item = st.chain) || (st.act = .launch && c.item = st.cur))
  own && (st.suspWant || st.act = .suspending || (st.susp ≠ 0 && st.act ≠ .resuming))

/-- The sum of R219: phases charged, which senses, erases and resumes are from their grant on (R210), and kept launch
set-asides, that are neither picked, suspending nor suspended. -/
def keepSum (s : State) : Nat := coinSum s (fun c => !c.q && (isCharged c || c.sort = .launchAside) && !outOfSum s c)

/-- Erases before programs; then the most recently started or resumed first. A launch tenure counts as started when it
began, which is after every running phase of its LUN. -/
def pickOrder (s : State) (a b : Lun) : Bool :=
  let x := getLun s a
  let y := getLun s b
  let e := fun st : LunSt => decide (st.act = .erase)
  (e x && !e y) || (e x = e y && y.startOrd < x.startOrd)

/-- Picks from a list until the sum fits within a budget. -/
def pickFrom (s : State) (budget : Nat) : List Lun → State
  | [] => s
  | l :: r =>
    if keepSum s ≤ budget then s
    else pickFrom (tally (updLun s l (fun st => { st with suspWant := true, ledgerSusp := true })) 0x3a) budget r

/-- The ledger picks phases and orders their suspends (R218, R219). -/
def orderSuspends (s : State) (budget : Nat) : State :=
  let ls := sortBy (pickOrder s) ((s.luns.map (fun e => e.1)).filter (mayPick s))
  let s1 := pickFrom s budget ls
  let chs := ((s1.luns.filter (fun e => e.2.suspWant)).map (fun e => e.1.ch)).eraseDups
  chs.foldl (fun s ch => issueOrdered (raiseSeq s ch 2) ch) s1

/-- The ledger picks again when a launch or resume tenure ends and the sum stands above the alternate budget in force (R214,
R219, R237). -/
def repick (s : State) : State := if altActive s then orderSuspends s (rd s F.lgBudgetVccAlt) else s

/-- Returns every set-aside made by arming, and every grant and launch set-aside whose tenure has not begun (R218): the
data tenures granted keep theirs (R221). -/
def returnGrants (s : State) : State :=
  let armed := s.items.filter (fun i => i.armed)
  let s1 := armed.foldl disarm s
  let onBus := fun id => s1.chans.any (fun e => e.2.bus.any (fun t => t.item = some id && (t.kind = .launch || t.kind = .resume)))
  let xfer := fun id => (findItem s1 id).any (fun i => i.stage = .needXfer)
  let back := fun c : Coin => (c.sort = .granted || c.sort = .launchAside)
    && (match c.item with | some id => !onBus id && !xfer id | none => false)
  let ids := (s1.ledger.coins.filter back).filterMap (fun c => c.item)
  let s2 := ids.foldl (fun s id => updItem s id (fun i => { i with gateOpen := false })) (dropCoins s1 back)
  { s2 with chans := s2.chans.map (fun e => (e.1, { e.2 with
      want := e.2.want.filter (fun t => !((t.kind = .launch || t.kind = .resume) && t.item.any (fun id => id ∈ ids))) })) }

/-- The alternate budgets come into force (R218). -/
def altBegins (s : State) : State :=
  orderSuspends (returnGrants (tally (flag0 s F.lgStatusCutSeen) 0x3b)) (rd s F.lgBudgetVccAlt)

end Sys2Proof.Machine
end

