-- ==== Sys2Proof/Machine/Dma.lean ====
section
/-! DEFINITION. DMA channels: entries of items, descriptor lists, ring-mode descriptors, and the HOST_IN and HOST_OUT
staging FIFOs (R271–R306). -/

namespace Sys2Proof.Machine

/-! ### Ending an item that data movement or a fault ends -/

/-- An item holds its LUN's page (R110). -/
def holdsPage (s : State) (it : Item) : Bool := (getLun s it.lun).cur = some it.id && (getLun s it.lun).act = .hold

/-- A LUN whose page an item holds is released. -/
def offLun (s : State) (it : Item) : State := if holdsPage s it then freeLun s it.lun else s

/-- A LUN whose page an item holds is released, and its channel's bus goes on. -/
def leaveLun (s : State) (it : Item) : State := if holdsPage s it then kickBus (freeLun s it.lun) it.lun.ch else s

/-- The item that an H_INI request serves. -/
def HiUse.item : HiUse → Option Nat
  | .listFetch _ i => some i
  | .progData _ i _ _ _ => some i
  | .readData _ i _ _ _ _ => some i
  | _ => none

/-- The packet of channel `d` in HOST_IN is rewound: its lines are written over, and the host end is left (R275, R300). -/
def hostInRewind (s : State) (ch d : Nat) : State :=
  tally (wr (updFifo s ch 0 (fun f => if f.holder = some d then { f with wr := f.commit, holder := none } else f))
    F.chFifoStatRewound ch 0 0 1) 0x50

/-- The packet of channel `d` in HOST_OUT is dropped by its consumer. -/
def hostOutDrop (s : State) (d : Nat) : State :=
  { s with fifos := s.fifos.map (fun x => if x.2.pkt.any (fun p => p.dma = d) then (x.1, { (if detached s x.1.1 3 then x.2 else x.2.takeAll) with pkt := none }) else x) }

/-- The entry in progress is left, without being carried out. -/
def dropCur (s : State) (d : Nat) : State :=
  updDma (hostOutDrop s d) d (fun x => { x with cur := none, going := false, failed := false, stop := none, inBuf := [] })

/-- The entries in progress of an item end; the packet that one was writing into HOST_IN is rewound. -/
def dropCurOf (s : State) (it : Item) : State :=
  (s.dma.map (fun x => x.1)).foldl (fun s d =>
    if (getDma s d).cur.any (fun e => e.item = it.id) then
      dropCur (if (getFifo s it.lun.ch 0).holder = some d then hostInRewind s it.lun.ch d else s) d
    else s) s

/-- Ends an item before its work is done: its LUN, queues, entries and requests not yet issued are left. -/
def stopCore (s : State) (id : Nat) (st : Status) : State :=
  match findItem s id with
  | none => s
  | some it =>
    let s1 := dropCurOf (hiForget (leaveLun s it) (fun r => r.use.item = some id)) it
    endWith { s1 with entryWait := s1.entryWait.filter (fun e => e.item ≠ id) } id st

/-! ### Channels (R271, R286, R293) -/

/-- The bit of SERVES for an item's entries (R286). -/
def servesBit (it : Item) : Nat := if opProgram it.pkt.op then 2 else if it.pkt.bounded then 0 else 1

/-- Channels that may take an item's entries: of the half of its teller, in item mode, ENABLED, serving its class. -/
def eligibleDma (s : State) (it : Item) : List Nat :=
  (List.range' (16 * (it.teller / 2)) 16).filter (fun d =>
    domUp s (dFe (d / 16)) && dcMode s d = 1 && dcState s d = 3 && bitOf (rd s F.dcCtlServes d) (servesBit it))

def dmaQueued (s : State) (d : Nat) : Nat := (getDma s d).queue.length

/-- The channel that takes an entry: the item's own while it may, else the one with the fewest queued entries, lowest
first (R286). -/
def chooseDma (s : State) (it : Item) : Option Nat :=
  let ds := eligibleDma s it
  let own := it.dma.filter (fun d => d ∈ ds)
  match own with
  | some d => if dmaQueued s d < 1024 then some d else none
  | none => (ds.filter (fun d => dmaQueued s d < 1024)).foldl (fun o d =>
      match o with
      | none => some d
      | some c => if dmaQueued s d < dmaQueued s c then some d else o) none

/-! ### The stream (R288) -/

/-- Quarters of a page that move: QMASK for a read, all for a program. -/
def movedQuarters (it : Item) : List Nat :=
  if opProgram it.pkt.op then [0, 1, 2, 3] else (List.range 4).filter (fun q => it.pkt.qmask.getLsbD q)

/-- Bytes of an entry: a quarter buffer, or the raw image padded to whole lines. -/
def entryLen (it : Item) (e : Entry) : Nat := if e.q = 4 then 64 * ceilDiv (imageLen it.strength) 64 else 4160

/-- Where an entry lies in its item's stream. -/
def entryPos (it : Item) (e : Entry) : Nat :=
  if e.q = 4 then 0
  else 4160 * (e.page * (movedQuarters it).length + ((movedQuarters it).filter (fun q => q < e.q)).length)

/-- A part of a move: host address, length, fixed addressing, offset within the entry. -/
structure Seg where
  addr : Nat
  len : Nat
  fixed : Bool
  off : Nat
  deriving DecidableEq, Repr

/-- A list entry keeps the alignment rule (R276). -/
def ListEnt.aligned (e : ListEnt) : Bool := e.addr % 64 = 0 && e.len % 64 = 0

/-- Where a list fails to place bytes of a stream: at an entry that breaks R276, or for want of entries. -/
inductive ListStop where
  | broken | short
  deriving DecidableEq, Repr

/-- The parts of bytes `pos` to `pos + len - 1` of the stream laid over a list, up to where it fails to place them. -/
def listSegs : List ListEnt → Nat → Nat → Nat → List Seg × Option ListStop
  | [], _, len, _ => ([], if len = 0 then none else some .short)
  | e :: r, pos, len, off =>
    if len = 0 then ([], none)
    else if !e.aligned then ([], some .broken)
    else if e.len ≤ pos then listSegs r (pos - e.len) len off
    else
      let n := min len (e.len - pos)
      let (q, z) := listSegs r 0 (len - n) (off + n)
      ({ addr := if e.fixed then e.addr else e.addr + pos, len := n, fixed := e.fixed, off := off } :: q, z)

/-- A descriptor-list entry from its 32 bytes (R289). -/
def parseListEnt (b : List Byte) : ListEnt :=
  { addr := leNat (slice b 0 8), len := leNat (slice b 16 3), fixed := (b.getD 20 0).getLsbD 0, last := (b.getD 20 0).getLsbD 5 }

/-- The parts of an entry on channel `d`, up to where its list fails. -/
def entrySegs (s : State) (d : Nat) (it : Item) (e : Entry) : List Seg × Option ListStop :=
  if it.pkt.descList then listSegs (getDma s d).list (entryPos it e) (entryLen it e) 0
  else ([{ addr := (it.pkt.buffer e.q).toNat, len := entryLen it e, fixed := false, off := 0 }], none)

/-- The pieces of parts, each a request: host address, length, offset within the entry (R273). -/
def segPieces (gs : List Seg) : List (Nat × Nat × Nat) :=
  gs.flatMap (fun g =>
    ((movePieces 32 g.addr g.len g.fixed).foldl
      (fun (acc : List (Nat × Nat × Nat) × Nat) p => (acc.1 ++ [(p.1, p.2, acc.2)], acc.2 + p.2)) ([], g.off)).1)

/-! ### Requests of a channel -/

/-- The fetch of the next piece of a descriptor list (R289): up to four entries, within 4 KiB (R273). -/
def listReq (s : State) (d : Nat) (it : Item) : HiReq :=
  let x := getDma s d
  let a := (it.pkt.b0.toNat + 32 * x.listRead) % 2 ^ 64
  { write := false, src := srcOfDma d, addr := a, len := 32 * min (min 4 (256 - x.listRead)) (128 - a % 4096 / 32),
    ring := it.level, attr := rd s F.hpAttrFetchAttr, use := .listFetch d it.id, cls := 1 }

/-- The reads of a program entry (R291). -/
def progReqs (s : State) (d : Nat) (it : Item) (e : Entry) (gs : List Seg) : List HiReq :=
  (segPieces gs).map (fun p =>
    { write := false, src := srcOfDma d, addr := p.1 % 2 ^ 64, len := p.2.1, ring := it.level, attr := rd s F.hpAttrRdAttr,
      use := .progData d it.id e.page e.q p.2.2 })

/-- The pair of an item, for DC_LATE. -/
def pairOf (it : Item) : Nat := match it.origin with | .host k => k | _ => 0

/-- The writes of a read entry: its bytes, with one poison flag per line (R292). -/
def readReqs (s : State) (d : Nat) (it : Item) (e : Entry) (gs : List Seg) (b : List Byte) (ps : List Bool) : List HiReq :=
  (segPieces gs).map (fun p =>
    { write := true, src := srcOfDma d, addr := p.1 % 2 ^ 64, len := p.2.1, ring := it.level, attr := rd s F.hpAttrWrAttr,
      use := .readData d it.id e.page e.q it.pkt.tag.toNat (pairOf it), data := slice b p.2.2 p.2.1,
      poison := (ps.drop (p.2.2 / 64)).take (p.2.1 / 64) })

/-! ### Entries in progress -/

/-- The list is used up before the stream is placed (R290). -/
def listShort (s : State) (d : Nat) : Bool := (getDma s d).listEnd || 256 ≤ (getDma s d).listRead

/-- The list of an entry in progress fails (R290): the item's status, and the flags of an entry that breaks R276. -/
def listFails (s : State) (d : Nat) (it : Item) : ListStop → Status × State
  | .broken => (.misaligned, tally (flag1 (updItem s it.id (fun i => { i with check := 0x0f })) F.dcStatusMisalignedSeen d) 0x4d)
  | .short => (.dmaFault, s)

/-- Issues an entry's parts: a program's reads; a read waits for its threshold. -/
def runSegs (s : State) (d : Nat) (it : Item) (e : Entry) (gs : List Seg) : State :=
  if opProgram it.pkt.op then hiPump (pumpSend s d (progReqs s d it e gs)) else s

/-- Carries on with the entry in progress on a channel: fetches more of its list, issues a program's reads, or leaves a
read to its threshold. Where the list fails, the move stops at that entry, and ends the item once what comes before it has
moved (R290). -/
def runEntry (s : State) (d : Nat) (it : Item) (e : Entry) : State :=
  match entrySegs s d it e with
  | (gs, none) => runSegs s d it e gs
  | (gs, some z) =>
    if z = .short ∧ ¬ listShort s d then hiSend s [listReq s d it]
    else
      let (st, s1) := listFails s d it z
      if gs.isEmpty then stopCore s1 it.id st
      else runSegs (updDma s1 d (fun x => { x with stop := some st })) d it e gs

/-- Takes the next entry of a channel's queue; an entry whose item has ended is passed over (R286). At most `n` entries
are taken. -/
def dmaNext (s : State) (d : Nat) : Nat → State
  | 0 => s
  | n + 1 =>
    let x := getDma s d
    match x.cur, x.queue with
    | none, e :: r =>
      if dcState s d ≠ 3 ∨ dcMode s d ≠ 1 ∨ parked s then s
      else
        match findItem s e.item with
        | none => dmaNext (updDma s d (fun x => { x with queue := r })) d n
        | some it =>
          let s1 := updDma s d (fun x =>
            let y := { x with queue := r, cur := some e, going := false, failed := false, stop := none }
            if y.listOf = some it.id then y else { y with listOf := some it.id, list := [], listRead := 0, listEnd := false })
          let s2 := runEntry s1 d it e
          if (getDma s2 d).cur.isNone then dmaNext s2 d n else s2
    | _, _ => s

/-! ### The host ends of HOST_IN and HOST_OUT (R275, R300, R302) -/

/-- The entry in progress on a channel and its item, if the item is a program (`prog`), or a read. -/
def curEntry (s : State) (d : Nat) (prog : Bool) : Option (Item × Entry) :=
  (getDma s d).cur.bind (fun e => (findItem s e.item).bind (fun i => if opProgram i.pkt.op = prog then some (i, e) else none))

/-- Lines that arrive in HOST_IN, from `off` bytes into the packet of channel `d`, which holds the FIFO's host end. -/
def hostInLand (s : State) (ch d off : Nat) (b : List Byte) (ps : List Bool) : State :=
  let n := ceilDiv b.length 64
  updFifo s ch 0 (fun f =>
    let base := f.commit.toNat + off / 64
    { f with
      lines := (List.range n).foldl (fun t i =>
        Tab.set t ((base + i) % 512) { data := slice b (64 * i) 64, poison := ps.getD i false, last := off / 64 + i = 64 }) f.lines,
      wr := f.wr + BitVec.ofNat 10 n, holder := some d })

/-- The channel may write its packet into HOST_IN: it holds the host end, or nothing does and the packet has room.
(DESIGN CHOICE, log entry 104.) -/
def hostInMay (s : State) (d ch : Nat) : Bool :=
  let f := getFifo s ch 0
  !parked s && (f.holder = some d || (f.holder.isNone && 65 ≤ f.room))

/-- Program data that waits in a channel's burst buffer goes into HOST_IN if it may. -/
def hostInTake (s : State) (d : Nat) : State :=
  match curEntry s d true with
  | some (it, _) =>
    if !(getDma s d).inBuf.isEmpty && hostInMay s d it.lun.ch then
      let s1 := (getDma s d).inBuf.foldl (fun s g => hostInLand s it.lun.ch d g.1 g.2.1 g.2.2) s
      hiPump (updDma s1 d (fun x => { x with inBuf := [] }))
    else s
  | none => s

/-- The lines of an entry in its slot. -/
def entryLines (it : Item) (e : Entry) : Nat × Nat := if e.q = 4 then (0, entryLen it e / 64) else (65 * e.q, 65)

/-- Lines of a packet of `n` that make it visible to the DMA channel: OUT_THRESH · 8, or all (R302). -/
def outLines (s : State) (ch n : Nat) : Nat :=
  let t := 8 * rd s F.chFifoCtlOutThresh ch
  if t = 0 then n else min t n

/-- The bank mover writes the next lines of the packet in HOST_OUT, up to its line `upTo`, and publishes them (R302). A line
carries the poison of its source (R316). -/
def hostOutFill (s : State) (ch upTo : Nat) : State :=
  match (getFifo s ch 3).pkt with
  | none => s
  | some p =>
    match (findItem s p.item).bind (fun it => (it.pages[p.page]?).bind (fun g => g.slot.map (fun sl => (it, sl)))) with
    | none => s
    | some (it, sl) =>
      let (ln, n) := entryLines it ⟨p.item, p.page, p.q⟩
      let k := min upTo n - p.made
      let (b, ps, s1) := slotRead s sl (ln + p.made) k
      updFifo s1 ch 3 (fun f =>
        { (f.put (fifoLinesOf b ps (p.made + k = n))).publish with pkt := some { p with made := p.made + k } })

/-- The packet of a read entry in progress begins in HOST_OUT, unless one lies there: it is filled up to its threshold. -/
def hostOutStart (s : State) (d : Nat) : State :=
  match curEntry s d false with
  | some (it, e) =>
    let ch := it.lun.ch
    if (getDma s d).going ∨ (getFifo s ch 3).pkt.isSome ∨ parked s then s
    else
      hostOutFill (updFifo s ch 3 (fun f => { f with pkt := some { dma := d, item := e.item, page := e.page, q := e.q, start := f.wr, made := 0 } }))
        ch (outLines s ch (entryLines it e).2)
  | none => s

/-- A channel goes on: its next entry, and what its entry in progress waited for. -/
def dmaKick (s : State) (d : Nat) : State := hostOutStart (hostInTake (dmaNext s d ((getDma s d).queue.length + 1)) d) d

/-- An entry of the same item that waits for room keeps its place before this one (R286). -/
def entryBehind (s : State) (it : Item) : Bool := s.entryWait.any (fun w => w.item = it.id)

/-- Places an entry on a channel, or keeps it waiting while every eligible channel is full; with no eligible channel its
item ends DMA_FAULT (R286, R287). -/
def placeEntry (s : State) (e : Entry) : State :=
  match findItem s e.item with
  | none => s
  | some it =>
    if (eligibleDma s it).isEmpty then stopCore s it.id .dmaFault
    else
      match (if entryBehind s it then none else chooseDma s it) with
      | none => { s with entryWait := s.entryWait ++ [e] }
      | some d =>
        dmaKick (updDma (updItem s it.id (fun i => { i with dma := some d })) d (fun x => { x with queue := x.queue ++ [e] })) d

def placeEntries (s : State) (es : List Entry) : State := es.foldl placeEntry s

/-- Entries that waited for room are placed again. -/
def retryEntries (s : State) : State :=
  if s.entryWait.isEmpty then s else placeEntries { s with entryWait := [] } s.entryWait

/-- Every channel goes on, as after HOST_IN is released or an entry ends; entries that waited take the room there is. -/
def dmaKickAll (s : State) : State := retryEntries ((s.dma.map (fun x => x.1)).foldl dmaKick (retryEntries s))

/-- Ends an item before its work is done; the channels that moved its data go on. -/
def stopItem (s : State) (id : Nat) (st : Status) : State := dmaKickAll (stopCore s id st)

/-- The entry in progress on a channel ends. -/
def entryEnds (s : State) (d : Nat) : State := dmaKickAll (dropCur s d)

/-! ### Slots for items (R313) -/

/-- A program's slots are held: its entries are queued (R286, R313). -/
def startProgram (s : State) (it : Item) : State :=
  placeEntries s ((List.range it.pages.length).flatMap (fun p => (List.range 4).map (fun q => ⟨it.id, p, q⟩)))

/-- Meets a request for slots from a bank. -/
def meetSlots (s : State) (a : SlotAsk) (b : Nat) : State :=
  let sls := freeSlotsOf s b a.count
  let s1 := { s with staging := { s.staging with held := s.staging.held ++ sls.map (fun sl => (sl, a.item)) } }
  let s2 := updItem s1 a.item (fun i => giveSlots i a.soft sls)
  match findItem s2 a.item with
  | some it =>
    if it.origin = .boot then bootFill s2 it
    else if opProgram it.pkt.op ∧ it.sense ≠ .margin then startProgram s2 it else s2
  | none => s2

/-- Asks for slots: met at once if no request waits and a bank can, else queued (R313). -/
def wantSlots (s : State) (it : Item) (n : Nat) (soft : Bool) : State :=
  if s.staging.asks.any (fun a => a.item = it.id) then s
  else if s.staging.asks.isEmpty then
    match bankFor s (it.lun.ch / 24) n with
    | some b => meetSlots s ⟨it.id, n, soft⟩ b
    | none => askSlots s it.id n soft
  else askSlots s it.id n soft

/-- Serves the queue of requests for slots from its head, once. -/
def slotServe (s : State) : State :=
  match s.staging.asks with
  | [] => s
  | a :: r =>
    match findItem s a.item with
    | none => { s with staging := { s.staging with asks := r } }
    | some it =>
      match bankFor s (it.lun.ch / 24) a.count with
      | some b => meetSlots { s with staging := { s.staging with asks := r } } a b
      | none => s

/-! ### Program data (R291, R300) -/

/-- Reads of an entry are not issued or are outstanding. -/
def readsOpen (s : State) (it : Nat) (e : Entry) : Bool :=
  let mine := fun r : HiReq => match r.use with
    | .progData _ i p q _ => i = it && p = e.page && q = e.q
    | _ => false
  s.hi.waiting.any mine || s.hi.reads.any mine || s.dma.any (fun x => x.2.move.any mine)

/-- The channel that holds the host end of a flash channel's HOST_IN, with its entry. -/
def hostInDma (s : State) (ch : Nat) : Option (Nat × Item × Entry) :=
  (getFifo s ch 0).holder.bind (fun d =>
    if (getDma s d).stop.isNone then (curEntry s d true).map (fun x => (d, x.1, x.2)) else none)

/-- The bank mover writes a quarter of program data into its slot; the pad bytes are written as 0 (R312). -/
def quarterToSlot (s : State) (it : Item) (e : Entry) (b : List Byte) (ps : List Bool) : State :=
  match (it.pages[e.page]?).bind (fun p => p.slot) with
  | some sl => slotWrite s sl (65 * e.q) (padTo 4160 (b.take 4112)) ps
  | none => s

/-- A quarter of program data is in its bank: its move is complete (R277, R32). -/
def progArrived (s : State) (d : Nat) (it : Item) (e : Entry) (b : List Byte) (ps : List Bool) : State :=
  let s1 := tallyW (quarterToSlot s it e b ps) (if d < 16 then 0x49 else 0x4b) 4160
  updItem s1 it.id (fun i => { i with committed := i.committed + 1 })

/-! ### Flushes (R304) -/

/-- A packet is in progress on a side of a FIFO. The buses of a READY channel carry none. -/
def packetOpen (s : State) (ch f : Nat) : Bool :=
  let x := getFifo s ch f
  match f with
  | 0 => x.holder.isSome
  | 3 => x.pkt.any (fun p => (findItem s p.item).any (fun it => p.made < (entryLines it ⟨p.item, p.page, p.q⟩).2))
      || s.dma.any (fun y => holdsOut s y.1 ch)
  | _ => false

/-- Items that have data in a FIFO: of packets that a detached consumer left, and of one that is not consumed. -/
def fifoItems (s : State) (ch f : Nat) : List Nat :=
  let x := getFifo s ch f
  (x.parked.map (fun p => p.item) ++ x.pkt.toList.map (fun p => p.item)
    ++ (if f = 1 then (getCh s ch).out.toList else [])).eraseDups

/-- A flush takes effect: both pointers meet, every packet is discarded, and items with data in the FIFO end DMA_FAULT. -/
def flushFifo (s : State) (ch f : Nat) : State :=
  let ids := fifoItems s ch f
  let s1 := updFifo s ch f (fun x =>
    { x with commit := x.wr, cons := x.wr, word := 0, touched := false, parked := [], pkt := none, holder := none })
  let s2 := wr1 s1 F.chFifoCtlFlush ch (rd s1 F.chFifoCtlFlush ch &&& (15 - 2 ^ f))
  if ids.isEmpty then s2 else dmaKickAll (ids.foldl (fun s id => stopCore s id .dmaFault) s2)

/-- A flush that waited takes effect at a packet boundary. -/
def flushDue (s : State) (ch : Nat) : State :=
  forNat 4 (fun s f => if bitOf (rd s F.chFifoCtlFlush ch) f ∧ ¬ packetOpen s ch f then flushFifo s ch f else s) s

/-- The flushes of every channel that wait. -/
def flushAll (s : State) : State := (s.fifos.map (fun x => x.1.1)).eraseDups.foldl flushDue s

/-- HOST_IN of a flash channel commits its packet, whose DMA channel leaves the FIFO's host end (R275), and an attached bank
mover takes it (R300, R305). -/
def hostInCommit (s : State) (ch : Nat) : State :=
  match hostInDma s ch with
  | none => s
  | some (d, it, e) =>
    let f := getFifo s ch 0
    if (f.wr - f.commit).toNat ≠ 65 ∨ readsOpen s it.id e ∨ parked s then s
    else
      let (b, ps) := fifoLines f f.commit.toNat 65
      let s1 := updFifo s ch 0 (fun f => { f with commit := f.wr, holder := none })
      flushDue (if detached s ch 0 then
          entryEnds (updFifo s1 ch 0 (fun f => { f with parked := f.parked ++ [⟨d, it.id, e.page, e.q, b, ps⟩] })) d
        else entryEnds (progArrived (updFifo s1 ch 0 Fifo.takeAll) d it e b ps) d) ch

/-- A read of program data has failed: the packet is rewound and the item ends DMA_FAULT (R291). -/
def progFailed (s : State) (d item : Nat) : State :=
  match findItem s item with
  | none => s
  | some it =>
    let s1 := tally (flag1 (hostInRewind s it.lun.ch d) F.dcStatusBusErrSeen d) 0x4e
    flushDue (stopItem s1 item .dmaFault) it.lun.ch

/-- The part of a program entry before the place where its list fails has arrived: the item ends (R290). -/
def progStops (s : State) (d : Nat) (e : Entry) : State :=
  match (getDma s d).stop with
  | some st => if readsOpen s e.item e then s else stopItem s e.item st
  | none => s

/-! ### The parity pass (R95, R96) -/

/-- All quarters of a program's pages have committed, or a decode has just left them in the slots. -/
def dataCommitted (it : Item) : Bool := it.second || it.committed = 4 * it.pages.length

/-- The parity pass over one page: poison met, and the parity area written (R95, R312). -/
def parityPage (s : State) (st : Nat) (sl : Nat) : Bool × State :=
  let (b, ps, s1) := slotRead s sl 0 260
  let quarter := fun q => slice b (4160 * q) 4112
  let loc := fun q => (List.range (localParity st)).map (Config.localByte st (quarter q))
  let all := (List.range 4).flatMap (fun q => quarter q ++ loc q)
  let glob := (List.range (globalParity st)).map (Config.globalByte st all)
  (ps.any id, slotWrite s1 sl 260 (padTo 2048 ((List.range 4).flatMap loc ++ glob)))

/-- The parity passes over an item's pages, in plane order; poison ends the item DMA_FAULT (R96). -/
def parityPasses (s : State) (it : Item) : Bool × State :=
  it.pages.foldl (fun (acc : Bool × State) p =>
    match p.slot with
    | some sl => let (b, s1) := parityPage acc.2 it.strength sl; (acc.1 || b, s1)
    | none => acc) (false, s)

/-! ### Read data (R292, R302) -/

/-- The DMA channel, item and entry of the packet in HOST_OUT of a flash channel, with the packet. -/
def hostOutDma (s : State) (ch : Nat) : Option (OutPkt × Item × Entry) :=
  (getFifo s ch 3).pkt.bind (fun p => (curEntry s p.dma false).bind (fun x =>
    if x.2 = ⟨p.item, p.page, p.q⟩ ∧ ¬ (getDma s p.dma).going then some (p, x.1, x.2) else none))

/-- A channel holds the host end of HOST_OUT (R275). -/
def hostOutHeld (s : State) (ch : Nat) : Bool := s.dma.any (fun x => holdsOut s x.1 ch)

/-- Changes a quarter of an item. -/
def updQuarter (s : State) (id page q : Nat) (f : Quarter → Quarter) : State :=
  updItem s id (fun i => { i with pages := i.pages.zipIdx.map (fun pi =>
    if pi.2 = page then { pi.1 with q := pi.1.q.zipIdx.map (fun qi => if qi.2 = q then f qi.1 else qi.1) } else pi.1) })

/-- The channel takes the packet of its entry out of HOST_OUT and forms its writes (R292). A poisoned line is written with its
poison bit (R316); the next packet of the flash channel begins behind it. -/
def hostOutMove (s : State) (ch : Nat) (p : OutPkt) (it : Item) (e : Entry) (gs : List Seg) : State :=
  let f := getFifo s ch 3
  let n := (entryLines it e).2
  let (b0, ps) := fifoLines f p.start.toNat n
  let (b, s1) := afterPops s f b0
  let s2 := updFifo s1 ch 3 (fun f => { f with cons := p.start + BitVec.ofNat 10 n, word := 0, touched := false, pkt := none })
  let s3 := updDma s2 p.dma (fun x => { x with going := true })
  let s4 := if ps.any id then
      mark (updQuarter s3 it.id e.page e.q (fun q => { q with poisoned := true })) it.id .uncorrectable else s3
  let s5 := hiPump (pumpSend s4 p.dma (readReqs s4 p.dma it e gs b ps))
  (s5.dma.map (fun x => x.1)).foldl hostOutStart s5

/-- The entry's packet is in HOST_OUT up to its threshold (R302): the bank mover goes on to its end, and the channel, if
attached, takes it once its list is read. -/
def hostOutGo (s : State) (ch : Nat) : State :=
  match hostOutDma s ch with
  | none => s
  | some (p, it, e) =>
    if parked s then s
    else
      let s1 := hostOutFill s ch (entryLines it e).2
      let (gs, z) := entrySegs s1 p.dma it e
      if hostOutHeld s ch ∨ detached s ch 3 ∨ (z.isSome ∧ (getDma s p.dma).stop.isNone) then flushDue s1 ch
      else hostOutMove s1 ch p it e gs

/-- A data write of an entry waits to be issued. -/
def writesWait (s : State) (it : Nat) (e : Entry) : Bool :=
  let mine := fun r : HiReq => match r.use with | .readData _ i p q _ _ => i = it && p = e.page && q = e.q | _ => false
  s.hi.waiting.any mine || s.dma.any (fun x => x.2.move.any mine)

/-- Every wanted quarter of a page has moved, delivered or not. -/
def pageMoved (it : Item) (left : List Entry) (p : Nat) : Bool :=
  !(left.any (fun e => e.item = it.id && e.page = p)) && (movedQuarters it).all (fun q =>
    match it.pages[p]? with | some pg => (pg.quarter q).delivered | none => true)

/-- Quarters and images of a read still to be moved. -/
def undelivered (it : Item) : Bool :=
  it.pages.any (fun p => (if it.pkt.op = 3 then [0] else movedQuarters it).any (fun q => !(p.quarter q).delivered))

/-- Frees the slot of a page of a read. -/
def freePage (s : State) (id page : Nat) : State :=
  match (findItem s id).bind (fun it => (it.pages[page]?).bind (fun p => p.slot)) with
  | some sl => updItem (freeSlot s sl) id (fun i => { i with pages := i.pages.zipIdx.map (fun pi =>
      if pi.2 = page then { pi.1 with slot := none } else pi.1) })
  | none => s

/-- An entry of a read has moved: it counts as delivered unless a write failed, the slot of a page wholly moved is freed,
and with its last entry the item ends (R31, R277, R292, R314). A quarter that was not delivered does not show in
POISON. -/
def readMoved (s : State) (d : Nat) (it : Item) (e : Entry) : State :=
  let bad := (getDma s d).failed
  let qi := if e.q = 4 then 0 else e.q
  let s1 := updQuarter s it.id e.page qi (fun q => { q with delivered := true, poisoned := q.poisoned && !bad })
  let s2 := tallyW s1 (if d < 16 then 0x48 else 0x4a) (entryLen it e)
  let s3 := match (findItem s2 it.id).bind (fun i => i.pages[e.page]?) with
    | some pg => if (if it.pkt.op = 3 then [0] else movedQuarters it).all (fun q => (pg.quarter q).delivered)
        then freePage s2 it.id e.page else s2
    | none => s2
  let s4 := dropCur s3 d
  let s5 := match findItem s4 it.id with
    | some i => if undelivered i then s4 else endItem (leaveLun s4 i) i.id
    | none => s4
  dmaKickAll s5

/-- The write of a read entry has failed (R277, R292): before the item's last entry is complete the item ends DMA_FAULT;
after it, LATE_ERR records the item. -/
def readWriteFailed (s : State) (d item page q tag pair : Nat) : State :=
  match findItem s item with
  | some _ =>
    let s1 := mark (tally (flag1 s F.dcStatusBusErrSeen d) 0x4e) item .dmaFault
    let s2 := updQuarter s1 item page (if q = 4 then 0 else q) (fun g => { g with poisoned := false })
    match (getDma s2 d).cur with
    | some e => if e.item = item ∧ e.page = page ∧ e.q = q then updDma s2 d (fun x => { x with failed := true }) else s2
    | none => s2
  | none =>
    let s1 := tally s 0x4f
    if rdB s F.dcStatusLateErr d then s1
    else flag1 (wr1 (wr1 (wr1 s1 F.dcLateWhich d tag) F.dcLatePair d pair) F.dcLateKind d 1) F.dcStatusLateErr d

/-! ### Ring mode (R279–R285) -/

/-- A staging range lies outside staging memory (R282). -/
def badStg (a len : Nat) : Bool := 2 ^ 25 ≤ a || 2 ^ 25 < a + len

/-- A staging range names a retired bank (R317). -/
def stgRetired (s : State) (a len : Nat) : Bool :=
  (List.range 16).any (fun b => bankOf a ≤ b && b ≤ bankOf (a + len - 1) && rdB s F.smBankCtlRetire b)

/-- The result that a descriptor has before any move: BAD_STG, MISALIGNED, or none (R276, R282). -/
def descCheck (s : State) (b : List Byte) : Option Nat :=
  let n := descLen b
  let bad := fun (a : Nat) => badStg a n || stgRetired s a n
  if (descCtl b 2 && bad (descSrc b)) || (descCtl b 3 && bad (descDst b)) then some 3
  else if descSrc b % 64 ≠ 0 ∨ descDst b % 64 ≠ 0 ∨ n % 64 ≠ 0 then some 1
  else if n = 0 then some 0
  else none

/-- The pieces of a move, of at most `mb` beats, with their offsets in it. -/
def offPieces (mb addr len : Nat) (fixed : Bool) : List (Nat × Nat × Nat) :=
  ((movePieces mb addr len fixed).foldl
    (fun (acc : List (Nat × Nat × Nat) × Nat) p => (acc.1 ++ [(p.1, p.2, acc.2)], acc.2 + p.2)) ([], 0)).1

/-- The host writes of a descriptor for bytes from offset `off`, of at most `mb` beats (R273, R283). -/
def descWrites (s : State) (mb d off : Nat) (r : DescRun) (b : List Byte) (ps : List Bool) : List HiReq :=
  let fixed := descCtl r.bytes 1
  (offPieces mb (if fixed then descDst r.bytes else descDst r.bytes + off) b.length fixed).map (fun p =>
    { ringReq s d true p.1 p.2.1 (.ringWrite d (dcHead s d)) 2 with
      data := slice b p.2.2 p.2.1, poison := (ps.drop (p.2.2 / 64)).take (p.2.1 / 64) })

/-- Bytes of a descriptor are written to staging memory, from offset `off` (R283, R284). -/
def descStage (s : State) (d off : Nat) (r : DescRun) (b : List Byte) (ps : List Bool) : State :=
  let s1 := forNat (b.length / 64) (fun s i =>
    let a := descDst r.bytes + (if descCtl r.bytes 1 then 0 else off + 64 * i)
    writeLine s (bankOf a) (lineOf a) (slice b (64 * i) 64) (ps.getD i false)) s
  updDma s1 d (fun x => { x with desc := x.desc.map (fun y => { y with moved := y.moved + b.length }) })

/-- Moves bytes of a descriptor to their destination, from offset `off`: host data that a read brought is in the burst
buffer, data of staging memory comes through the pump (R273, R274). -/
def descPut (s : State) (d off : Nat) (r : DescRun) (b : List Byte) (ps : List Bool) : State :=
  if descCtl r.bytes 3 then descStage s d off r b ps
  else if descCtl r.bytes 2 then hiPump (pumpSend s d (descWrites s 32 d off r b ps))
  else hiSend s (descWrites s (maxBurst s d) d off r b ps)

/-- Moves the source data that has arrived in order, while the core clock is not the AON clock (R420). -/
def descDrain (s : State) (d : Nat) : Nat → State
  | 0 => s
  | n + 1 =>
    match (if parked s then none else (getDma s d).desc) with
    | none => s
    | some r =>
      match r.got.find? (fun g => g.1 = r.next) with
      | none => s
      | some (off, b, ps) =>
        let s1 := updDma s d (fun x => { x with desc := some { r with
          got := r.got.filter (fun g => g.1 ≠ off), next := r.next + b.length, poison := r.poison || ps.any id } })
        descDrain (descPut s1 d off r b ps) d n

/-- Reads a descriptor's source lines from staging memory (R283). -/
def stgSource (s : State) (a len : Nat) (fixed : Bool) : List Byte × List Bool × State :=
  (List.range (len / 64)).foldl (fun (acc : List Byte × List Bool × State) i =>
    let x := if fixed then a else a + 64 * i
    let r := readLine acc.2.2 (bankOf x) (lineOf x)
    (acc.1 ++ r.data, acc.2.1 ++ [r.poison], r.st)) ([], [], s)

/-- The move of a descriptor whose source is staging memory. -/
def descFromStg (s : State) (d : Nat) (r : DescRun) : State :=
  let (x, ps, s1) := stgSource s (descSrc r.bytes) (descLen r.bytes) (descCtl r.bytes 0)
  descDrain (updDma s1 d (fun y => { y with desc := some { r with begun := true, got := [(0, x, ps)] } })) d 1

/-- The move of a descriptor whose source is host memory: its reads. -/
def descFromHost (s : State) (d : Nat) (r : DescRun) : State :=
  let s1 := updDma s d (fun y => { y with desc := some { r with begun := true } })
  hiPump (pumpSend s1 d ((offPieces 32 (descSrc r.bytes) (descLen r.bytes) (descCtl r.bytes 0)).map (fun p =>
    ringReq s1 d false p.1 p.2.1 (.ringRead d (dcHead s1 d) p.2.2) 2)))

/-- The move of the descriptor in progress begins, unless the core clock is the AON clock (R420). -/
def descMove (s : State) (d : Nat) : State :=
  match (getDma s d).desc with
  | some r =>
    if r.begun ∨ r.result.isSome ∨ parked s then s
    else if descCtl r.bytes 2 then descFromStg s d r
    else descFromHost s d r
  | none => s

/-- Starts a descriptor (R280). -/
def descStart (s : State) (d : Nat) (b : List Byte) : State :=
  let s1 := updDma s d (fun x => { x with desc := some { bytes := b, result := descCheck s b }, kicked := false })
  match descCheck s b with
  | some r => if r = 0 then s1 else flag1 (if r = 1 then tally s1 0x4d else s1) F.dcStatusMisalignedSeen d
  | none => descMove s1 d

/-- What waited for the core clock to leave the AON clock goes on: descriptors' moves and the pumps (R420). -/
def dmaUnpark (s : State) : State :=
  hiPump ((s.dma.map (fun x => x.1)).foldl (fun s d =>
    descDrain (descMove s d) d (match (getDma s d).desc with | some r => r.got.length | none => 0)) (dmaKickAll s))

/-- A data request of the descriptor in progress waits, or one of its reads is outstanding. -/
def descOpen (s : State) (d : Nat) : Bool :=
  (s.hi.waiting ++ (getDma s d).move).any (fun r => match r.use with | .ringRead e _ _ | .ringWrite e _ => e = d | _ => false)
  || s.hi.reads.any (fun r => match r.use with | .ringRead e _ _ => e = d | _ => false)

/-- The descriptor's bytes as written back (R279, R281). -/
def descBack (r : DescRun) : List Byte :=
  (padTo 32 r.bytes).take 21 ++ [BitVec.ofNat 8 (r.result.getD 0), if r.poison then 1 else 0, 0]
  ++ leBytes 4 r.moved ++ slice (padTo 32 r.bytes) 28 3 ++ [(padTo 32 r.bytes).getD 31 0 &&& 0x7f#8]

/-- A descriptor ends: its writeback is asked for (R281), and an error of its writes is a late one from now on (R277). -/
def descEnd (s : State) (d : Nat) (r : DescRun) : State :=
  let i := dcHead s d
  let late := fun q : HiReq => if q.use = .ringWrite d i then { q with use := .ringLate d i } else q
  let s1 := updDma { s with hi := { s.hi with writes := s.hi.writes.map late } } d (fun x => { x with desc := some { r with ended := true } })
  hiSend s1 [{ ringReq s d true (descAddr s d i) 32 (.descBack d i) 1 with data := descBack r, poison := [false] }]

/-- The move in progress on a channel fails on an error response (R282): what is not issued is not moved; writes that are
issued stay. -/
def descFail (s : State) (d : Nat) : State :=
  match (getDma s d).desc with
  | none => s
  | some r =>
    if r.result.isSome then s
    else
      let mine := fun q : HiReq => match q.use with | .ringRead e _ _ | .ringWrite e _ => e = d | _ => false
      let s1 := hiForget (updDma s d (fun x => { x with desc := some { r with result := some 2, got := [] } })) mine
      let s2 := { s1 with hi := { s1.hi with reads := s1.hi.reads.map (fun q => if mine q then { q with use := .dropped } else q) } }
      tally (flag1 s2 F.dcStatusBusErrSeen d) 0x4e

/-- An error response after completion (R277): LATE_ERR and DC_LATE. -/
def lateRing (s : State) (d idx : Nat) : State :=
  let s1 := tally s 0x4f
  if rdB s F.dcStatusLateErr d then s1
  else flag1 (wr1 (wr1 (wr1 s1 F.dcLateWhich d idx) F.dcLatePair d 0) F.dcLateKind d 0) F.dcStatusLateErr d

/-! ### Enabling and draining (R293–R296) -/

/-- A channel becomes ENABLED and takes up its work. -/
def dcEnable (s : State) (d : Nat) : State :=
  let s1 := wr1 (wr1 (wr1 s F.dcCtlState d 3) F.dcCtlPending d 0) F.dcCtlEnable d 1
  ringKick (dmaKickAll s1) d

/-- The entries that leave a draining channel go to the channels that R286 chooses (R294). -/
def dcEvict (s : State) (d : Nat) : State :=
  let q := (getDma s d).queue
  let s1 := updDma s d (fun x => { x with queue := [] })
  let s2 := { s1 with items := s1.items.map (fun i => if i.dma = some d then { i with dma := none } else i) }
  dmaKickAll (placeEntries s2 q)

/-- An entry or a descriptor is in progress. -/
def dcBusy (s : State) (d : Nat) : Bool :=
  (getDma s d).cur.isSome || (getDma s d).desc.isSome || descFetching s d
    || s.fifos.any (fun x => x.1.2 = 0 && x.2.parked.any (fun p => p.dma = d))

/-- Writes ENABLE of a channel (R293, R295). -/
def dcWriteEnable (s : State) (d : Nat) (e : Bool) : State :=
  match dcState s d, e with
  | 2, true =>
    let m := dcMode s d
    let bad := m = 0 || m = 3 || (m = 2 && (ringLog2 s d < 4 || 16 < ringLog2 s d))
    if bad then flag1 s F.dcStatusCfgErr d else dcEnable s d
  | 3, false => dcEvict (wr1 (wr1 s F.dcCtlEnable d 0) F.dcCtlState d 1) d
  | 1, true => wr1 (wr1 s F.dcCtlEnable d 1) F.dcCtlPending d 1
  | 1, false => wr1 (wr1 s F.dcCtlEnable d 0) F.dcCtlPending d 0
  | _, _ => s

/-- A draining channel has finished: READY, then ENABLED if PENDING was 1 (R293). -/
def dcDrained (s : State) (d : Nat) : State :=
  if dcState s d = 1 ∧ ¬ dcBusy s d then
    if rdB s F.dcCtlPending d then dcEnable (wr1 s F.dcCtlState d 2) d else wr1 s F.dcCtlState d 2
  else s

/-- The entries that lie on a channel: in progress, queued, and in a packet that a detached bank mover has not taken. -/
def dcEntries (s : State) (d : Nat) : List Nat :=
  ((getDma s d).cur.toList ++ (getDma s d).queue).map (fun e => e.item)
  ++ (s.fifos.flatMap (fun x => x.2.parked.filter (fun p => x.1.2 = 0 && p.dma = d))).map (fun p => p.item)

/-- Packets of a half's channels that a detached bank mover has not taken are not waited for any more. -/
def dropParked (s : State) (half : Nat) : State :=
  { s with fifos := s.fifos.map (fun x =>
      (x.1, { x.2 with parked := x.2.parked.filter (fun p => !(x.1.2 = 0 && p.dma / 16 = half)) })) }

/-- The DMA channels of a half stop at once (R296): the items whose entries lie on them end DMA_FAULT; after a fence each
moves to READY with ENABLE and PENDING 0. Requests not issued and reads in progress are dropped; an error of a write that
was issued for a move already complete is still a late one (R277). -/
def dcStop (s : State) (half : Nat) : State :=
  let ds := List.range' (16 * half) 16
  let ids := (ds.flatMap (dcEntries s)).eraseDups
  let open_ := fun e : Nat × Nat × Nat => ds.any (fun d => (getDma s d).cur = some ⟨e.1, e.2.1, e.2.2⟩)
  let s0 := hiForget s (fun r => match r.use with
    | .readData d _ _ _ _ _ | .descBack d _ => d / 16 = half
    | _ => false)
  let s1 := hiDrop s0 (fun r => match r.use with
    | .listFetch d _ | .descFetch d | .progData d _ _ _ _ | .ringRead d _ _ | .ringWrite d _ => d / 16 = half
    | .readData d i p q _ _ => d / 16 = half && open_ (i, p, q)
    | _ => false)
  let s2 := ds.foldl (fun s d => wr1 (wr1 (wr1 s F.dcCtlEnable d 0) F.dcCtlPending d 0) F.dcCtlState d 2) s1
  let s3 := dropParked (ids.foldl (fun s id => stopCore s id .dmaFault) s2) half
  flushAll (dmaKickAll (ds.foldl (fun s d => updDma s d (fun _ => {})) s3))

end Sys2Proof.Machine
end

