-- ==== Sys2Proof/Machine/BootSwap.lean ====
section
/-! DEFINITION. BOOT_SWAP (R337, R338): HK0 writes a new generation into the older block of the boot twin and reads it
back, as a chain of reads, an erase and programs on the boot LUN. -/

namespace Sys2Proof.Machine

/-- Joins the queue of a LUN at its tail. -/
def enqueue (s : State) (id : Nat) (l : Lun) : State :=
  updItem (updLun s l (fun st => { st with queue := st.queue ++ [id] })) id (fun i => { i with stage := .queued })

/-- HK0's next read, erase or program on the boot LUN: opcode, block, page, strength. -/
structure BootOp where
  op : Nat
  block : Nat
  page : Nat
  strength : Nat
  deriving DecidableEq, Repr

/-- The work of a step (R337). -/
def swapOp (w : Swap) : BootOp :=
  match w.step with
  | .header b => ⟨1, b, 0, 0⟩
  | .erase => ⟨6, w.target, 0, 0⟩
  | .progHeader => ⟨4, w.target, 0, 0⟩
  | .progImage p => ⟨4, w.target, p, w.strength⟩
  | .readHeader | .reload => ⟨1, w.target, 0, 0⟩
  | .readImage p => ⟨1, w.target, p, w.strength⟩

/-- A packet with every field 0. -/
def emptyPacket : Packet := ⟨0, 0, 0, 0, 0, 0, 0, 0, 0, 0, 0, 0, 0, 0, 0, 0, 0⟩

/-- HK0's item for a piece of work on the boot LUN: class 5, no ladder (R332, R337). -/
def bootItem (s : State) (ch : Nat) (o : BootOp) : Item :=
  let l := bootLun ch
  let row := twinRow s ch o.block o.page
  { id := s.nextId, origin := .boot, level := 0, teller := 0, lun := l, launchRef := fineTick s, strength := o.strength,
    pkt := { emptyPacket with opcode := BitVec.ofNat 8 o.op, channel := BitVec.ofNat 8 ch, row := BitVec.ofNat 64 row, qmask := 0x0f },
    ladder := none, cls := lunClass s l, costSet := costSetOf s (lunClass s l), stage := .queued,
    pages := [{ row := row, q := List.replicate 4 {} }] }

/-- The work of the swap's step is issued; the channel must be ENABLED (R337, R203). -/
def swapIssue (s : State) (w : Swap) : State :=
  let s1 := { s with boot := { s.boot with swap := some w } }
  if warn s then swapEnd s1 [.notIssuedPowerfail]
  else match bootChannel s with
  | none => swapEnd s1 [.channelFenced]
  | some ch =>
    if rd s F.chCtlState ch ≠ 3 then swapEnd s1 [.channelFenced]
    else
      let it := bootItem s ch (swapOp w)
      let s2 := enqueue { s1 with nextId := s.nextId + 1, items := s1.items ++ [it] } it.id it.lun
      if it.pkt.op = 4 then wantSlots s2 it 1 false else s2

/-- BOOT_SWAP begins (R337); HK0 carries out one at a time. (DEDUCED, log entry 39.) -/
def swapBegin (s : State) (it : Item) : State :=
  if s.boot.swap.isSome then updItem s it.id (fun i => { i with stage := .group })
  else match bootChannel s with
  | none => endWith s it.id .channelFenced
  | some ch =>
    if rd s F.chCtlState ch ≠ 3 then endWith s it.id .channelFenced
    else
      swapIssue (updItem s it.id (fun i => { i with stage := .group }))
        { id := it.id, src := leNat ((List.range 4).map (fun i => BitVec.ofNat 8 (it.pkt.opByte (8 + i)))),
          len := leNat ((List.range 3).map (fun i => BitVec.ofNat 8 (it.pkt.opByte (12 + i)))),
          strength := it.pkt.opByte 15 % 8, reload := 128 ≤ it.pkt.opByte 15 }

/-- Both headers are read (R337 step 1, R331): the target is the block that does not hold the newer valid header, and
HK0 computes IMAGE_CRC over SRC (step 2). -/
def swapTarget (s : State) (w : Swap) (gen1 : Option Nat) : State :=
  let (t, g) : Nat × Nat := match w.gen0, gen1 with
    | none, none => (0, 1)
    | some a, none => (1, (a + 1) % 2 ^ 32)
    | none, some b => (0, (b + 1) % 2 ^ 32)
    | some a, some b => if newerGen b a then (0, (b + 1) % 2 ^ 32) else (1, (a + 1) % 2 ^ 32)
  let (b, s1) := stagingLines s w.src (ceilDiv w.len 64)
  swapIssue s1 { w with step := .erase, target := t, gen := g, crc := crc32 (b.take w.len) }

/-- Read-back has passed (R337 steps 6 and 7): the shadow is reloaded, or the item ends OK. -/
def swapRead (s : State) (w : Swap) : State :=
  if w.reload then
    { s with boot := { s.boot with swap := some { w with step := .reload }, reload := true } }
  else swapEnd s []

/-- The header read back (R331). -/
def swapHeaderBack (s : State) (w : Swap) (h : Option BootHdr) : State :=
  if h = some ⟨w.gen, w.len, w.strength, w.crc⟩ then swapIssue s { w with step := .readImage 1, run := crcStart.toNat }
  else swapEnd s [.verifyFail]

/-- An image page read back (R331). -/
def swapImageBack (s : State) (w : Swap) (p : Nat) (unc : Bool) (b : List Byte) : State :=
  let run := crcRun (BitVec.ofNat 32 w.run) (b.take (min 16384 (w.len - 16384 * (p - 1))))
  if unc then swapEnd s [.verifyFail]
  else if p < imagePages w.len then swapIssue s { w with step := .readImage (p + 1), run := run.toNat }
  else if (~~~run).toNat = w.crc then swapRead s w
  else swapEnd s [.verifyFail]

/-- The user bytes of a decoded page in its slot. -/
def pageUser (s : State) (it : Item) : List Byte × State :=
  match (it.pages[0]?).bind (fun p => p.slot) with
  | some sl =>
    (List.range 4).foldl (fun (a : List Byte × State) q =>
      let (b, _, s1) := slotRead a.2 sl (65 * q) 64
      (a.1 ++ b, s1)) ([], s)
  | none => ([], s)

/-! ### Reloads (R332, R339) -/

def setLoad (s : State) (l : Load) : State := { s with boot := { s.boot with load := some l } }

/-- The next read of a reload is issued, on the boot channel at its current bring-up; the channel must be ENABLED (R339), and under
PWR_WARN the load pauses (R332). -/
def loadIssue (s : State) (l : Load) : State :=
  let go := fun (b p st : Nat) =>
    match bootChannel s with
    | some ch =>
      if warn s then setLoad s { l with item := none }
      else if rd s F.chCtlState ch ≠ 3 then setLoad s { l with item := none, step := .done }
      else
        let it := bootItem s ch ⟨1, b, p, st⟩
        enqueue { setLoad s { l with item := some it.id } with nextId := s.nextId + 1, items := s.items ++ [it] } it.id it.lun
    | none => setLoad s { l with item := none, step := .done }
  match l.step with
  | .header b => go b 0 0
  | .image b p => go b p ((l.hdr b).map (fun h => h.strength) |>.getD 0)
  | .done => setLoad s { l with item := none }

/-- A reload begins (R332): with the headers, or, at step 7 of BOOT_SWAP, with the image of the new generation (R337). -/
def loadBegin (s : State) : State :=
  match s.boot.swap with
  | some w =>
    let l : Load := { code0 := rd s F.bootStatusHdr0, code1 := rd s F.bootStatusHdr1, left := [w.target] }
    let h : BootHdr := ⟨w.gen, w.len, w.strength, w.crc⟩
    loadIssue s (if w.target = 0 then { l with hdr0 := some h } else { l with hdr1 := some h }).next
  | none => loadIssue s {}

/-- A page of an image has been read: it goes to SB15, and with the last of them IMAGE_CRC is checked (R332). -/
def loadImagePage (s : State) (l : Load) (b p : Nat) (unc : Bool) (d : List Byte) : State :=
  match l.hdr b with
  | none => loadIssue s { l with step := .done }
  | some h =>
    let part := d.take (min 16384 (h.len - 16384 * (p - 1)))
    let run := crcRun (BitVec.ofNat 32 l.run) part
    if unc then loadIssue s (l.imageEnds b 5)
    else
      let s1 := writeLines s 15 (256 * (p - 1)) part []
      if p < imagePages h.len then loadIssue s1 { l with step := .image b (p + 1), run := run.toNat }
      else loadIssue s1 (l.imageEnds b (if (~~~run).toNat = h.crc then 0 else 6))

/-- A read of a reload has been decoded. -/
def loadDecoded (s : State) (it : Item) (l : Load) : State :=
  let unc := it.results.any (fun e => e.2.st = .unc)
  let (d, s1) := pageUser s it
  let s2 := endCore s1 it.id
  match l.step with
  | .header b =>
    let l1 := l.withHeader s it.lun.ch b (if unc then none else some (d.take 32))
    loadIssue s2 (if b = 0 then { l1 with step := .header 1 } else { l1 with left := l1.order }.next)
  | .image b p => loadImagePage s2 l b p unc d
  | .done => s2

/-- A page of the boot twin has been decoded: the reload or the swap goes on, or ends where the read was cut short. -/
def bootDecoded (s : State) (it : Item) : State :=
  match loadOf s it.id, s.boot.swap with
  | some l, _ => if it.marks.any (fun m => m ≠ .uncorrectable) then endItem s it.id else loadDecoded s it l
  | none, none => endItem s it.id
  | none, some w =>
    if it.marks.any (fun m => m ≠ .uncorrectable) then endItem s it.id
    else
      let unc := it.results.any (fun e => e.2.st = .unc)
      let (b, s1) := pageUser s it
      let s2 := swapGather (endCore s1 it.id) w it
      let h := if unc then none else headerOf s it.lun.ch b
      match w.step with
      | .header 0 => swapIssue s2 { w with step := .header 1, gen0 := h.map (fun x => x.gen) }
      | .header _ => swapTarget s2 w (h.map (fun x => x.gen))
      | .readHeader => swapHeaderBack s2 w h
      | .readImage p => swapImageBack s2 w p unc b
      | _ => s2

/-- An erase or program of the boot twin ended well: the swap goes on. -/
def bootProgrammed (s : State) (it : Item) : State :=
  match s.boot.swap with
  | none => endItem s it.id
  | some w =>
    let s1 := swapGather (endCore s it.id) w it
    let pages := imagePages w.len
    match w.step with
    | .erase => swapIssue s1 { w with step := .progHeader }
    | .progHeader => swapIssue s1 { w with step := if pages = 0 then .readHeader else .progImage 1 }
    | .progImage p => swapIssue s1 { w with step := if p < pages then .progImage (p + 1) else .readHeader }
    | _ => s1

end Sys2Proof.Machine
end

