-- ==== Sys2Proof/Machine/Reading.lean ====
section
/-! DEFINITION. How a read goes on: data that lands in its slot, decode jobs, escalation, the retry ladder, grading,
poison, and delivery (R30, R103–R136). -/

namespace Sys2Proof.Machine

/-! ### Decode jobs and engines (R132–R136) -/

/-- The class of an item's decode jobs (R132). (DESIGN CHOICE, log entry 114.) -/
def jobCls (it : Item) : Nat := if it.isPatrol then 3 else if it.pkt.bounded then 1 else 2

/-- Queues a decode job of a page. -/
def queueJob (s : State) (it : Item) (page : Nat) (k : JobKind) : State :=
  { s with jobs := s.jobs ++ [{ kind := k, item := it.id, page := page, cls := jobCls it, poolB := 24 ≤ it.lun.ch,
                                ch := it.lun.ch, lunCls := it.cls }] }

/-- The job that an engine runs. -/
def engineJob (s : State) (e : Nat) : Option Job := (s.engines.find? (fun x => x.1 = e)).map (fun x => x.2)

/-- An item's jobs wait or run. -/
def jobsOpen (s : State) (id : Nat) : Bool := s.jobs.any (fun j => j.item = id) || s.engines.any (fun x => x.2.item = id)

/-- An engine is able to claim and has no job (R134). -/
def engineIdle (s : State) (e : Nat) : Bool :=
  domUp s (dDp (e / 20)) && rdB s F.deCtlEnable e && !rdB s F.deCtlFence e && rd s F.deCtlState e = 3
  && !poolFenced s (e / 20) && (engineJob s e).isNone

/-- Engines of a pool that run patrol jobs. -/
def scrubEngines (s : State) (p : Nat) : Nat := (s.engines.filter (fun x => x.1 / 20 = p && x.2.cls = 3)).length

/-- The jobs of pool `q`'s queue that an engine of pool `p` may take (R133). -/
def claimable (s : State) (p q : Nat) : List Job :=
  s.jobs.filter (fun j => j.poolB = decide (q = 1) && (j.cls ≠ 3 || scrubEngines s p < rd s F.decCtlScrubMax))

/-- The head of a queue: the lowest class, then the oldest (R132). -/
def headJob (js : List Job) : Option Job :=
  js.foldl (fun o j => match o with
    | none => some j
    | some h => if j.cls < h.cls then some j else some h) none

/-- An engine of pool `p` is idle and its own queue holds a job that it may take. -/
def poolCan (s : State) (p : Nat) : Bool := (List.range' (20 * p) 20).any (engineIdle s)

/-- The job that an engine claims now (R132, R133): the head of its own pool's queue, else of the other's unless CROSS_DIS;
the lowest-numbered idle engine claims first, and an engine of the job's own pool before one of the other. A transition to
READY keeps both pools from claiming (R433). (DEDUCED, log entry 113.) -/
def claimOf (s : State) (e : Nat) : Option Job :=
  let p := e / 20
  let q := 1 - p
  if s.power.phase ≠ some .toReadyDrain ∧ engineIdle s e ∧ ¬ (List.range' (20 * p) (e - 20 * p)).any (engineIdle s) then
    match headJob (claimable s p p) with
    | some j => some j
    | none =>
      if rdB s F.decCtlCrossDis || (poolCan s q && !(claimable s q q).isEmpty) then none
      else headJob (claimable s p q)
  else none

/-- Engine `e` claims a job. -/
def claimJob (s : State) (e : Nat) (j : Job) : State :=
  let s1 := { s with jobs := s.jobs.erase j, engines := Tab.set s.engines e j }
  if j.poolB = decide (e / 20 = 1) then s1 else tally s1 0x2f

/-- Engine `e` has ended its job after `iters` iterations. -/
def releaseEngine (s : State) (e : Nat) (j : Job) (iters : Nat) : State :=
  tallyCW { s with engines := Tab.drop s.engines (fun k => k = e) } (0x300 + e) j.lunCls iters

/-- The iteration limit of a job. -/
def iterLimit (s : State) (j : Job) : Nat :=
  match j.kind with
  | .loc _ => rd s F.classCfg1IterLocal j.lunCls
  | .glob => rd s F.classCfg1IterGlobal j.lunCls
  | .soft => rd s F.classCfg1IterSoft j.lunCls

/-- The bits of a quarter segment that a list of image bit positions names, as positions in the segment. -/
def inSegment (st q : Nat) (fix : List Nat) : List Nat :=
  let lo := 8 * segCol st q
  (fix.filter (fun p => lo ≤ p && p < lo + 8 * segLen st)).map (fun p => p - lo)

/-- The positions that an engine changed are distinct bits of what it decoded: of the quarter segment for a local decode, of
the image for a decode of the page, where the quarters that are final are fixed (R106, R107, R112). -/
def fixOk (s : State) (j : Job) (fix : List Nat) : Bool :=
  match findItem s j.item with
  | none => true
  | some it =>
    let st := it.strength
    decide fix.Nodup && (match j.kind with
      | .loc _ => fix.all (fun p => p < 8 * segLen st)
      | _ => fix.all (fun p => p < 8 * imageLen st)
        && (List.range 4).all (fun q =>
          (match ((it.pages.getD j.page {}).quarter q).st with | .passed | .erased => (inSegment st q fix).isEmpty | _ => true)))

/-- What an engine reports agrees with R106, R112 and R119: it stops at a zero syndrome or at the limit. With a limit of
0 anything may come (R126). -/
def resultOk (s : State) (j : Job) (r : DecodeResult) : Bool :=
  let n := iterLimit s j
  fixOk s j r.fix && (n = 0 || (r.iters ≤ n && (r.ok || r.iters = n)))

/-! ### Slots of a page (R312) -/

/-- Changes a page of an item. -/
def updPage (s : State) (id page : Nat) (f : Page → Page) : State :=
  updItem s id (fun i => { i with pages := i.pages.zipIdx.map (fun pi => if pi.2 = page then f pi.1 else pi.1) })

/-- Changes a quarter of a page. -/
def Page.updQ (p : Page) (q : Nat) (f : Quarter → Quarter) : Page :=
  { p with q := p.q.zipIdx.map (fun qi => if qi.2 = q then f qi.1 else qi.1) }

/-- A page has bytes of its parity area put at byte `off`. -/
def patchAt (old : List Byte) (off : Nat) (b : List Byte) : List Byte := old.take off ++ b ++ old.drop (off + b.length)

/-- The bank mover moves parity bytes of a page to its slot, at byte `off` of the parity area, in whole lines out of what it has
moved of the area (R309); the first time all of it, zero where nothing has come (R312). (DEDUCED, log entry 140.) -/
def parityPut (s : State) (id page sl off : Nat) (b : List Byte) : State :=
  let old := ((findItem s id).bind (fun it => (it.pages[page]?).map (fun p => p.par))).getD []
  let new := patchAt (padTo 2048 old) off b
  let lo := if old.isEmpty then 0 else off / 64
  let hi := if old.isEmpty then 32 else ceilDiv (off + b.length) 64
  updPage (slotWrite s sl (260 + lo) (slice new (64 * lo) (64 * (hi - lo)))) id page (fun p => { p with par := new })

/-- Writes a quarter segment into its places in a slot: user and metadata bytes in the quarter buffer, the local parity in
the parity area. -/
def segToSlot (s : State) (id page st sl q : Nat) (b : List Byte) : State :=
  parityPut (slotWrite s sl (65 * q) (padTo 4160 (b.take 4112))) id page sl (q * localParity st) (b.drop 4112)

/-- Writes a global slice into its place in a slot. -/
def sliceToSlot (s : State) (id page st sl i : Nat) (b : List Byte) : State :=
  parityPut s id page sl (4 * localParity st + i * sliceLen st) b

/-- Where a column of the image stands in a slot, as a byte of it (R89, R312). -/
def slotByte (st c : Nat) : Nat :=
  let q := c / (segLen st + sliceLen st)
  let o := c % (segLen st + sliceLen st)
  if o < 4112 then 4160 * q + o
  else if o < segLen st then 64 * 260 + q * localParity st + (o - 4112)
  else 64 * 260 + 4 * localParity st + q * sliceLen st + (o - segLen st)

/-- Bits of the image as bits of a slot. -/
def slotBits (st : Nat) (fix : List Nat) : List Nat := fix.map (fun p => 8 * slotByte st (p / 8) + p % 8)

/-- Lines of a slot that a decode engine reads: the first, how many, and their bytes. -/
structure SlotBuf where
  off : Nat
  n : Nat
  data : List Byte

/-- The lines that a local decode of a quarter reads, and a decode of the page: first line and count (R312). -/
def localLines (st q : Nat) : List (Nat × Nat) :=
  let lo := q * localParity st / 64
  [(65 * q, 65), (260 + lo, ceilDiv ((q + 1) * localParity st) 64 - lo)]
def pageLines : List (Nat × Nat) := [(0, 260), (260, 32)]

/-- A decode engine reads lines of a slot, those that its page has filled (R315, R316). -/
def engineReads (s : State) (sl : Nat) (rs : List (Nat × Nat)) : List SlotBuf × State :=
  rs.foldl (fun (acc : List SlotBuf × State) r =>
    let (b, s1) := readWritten acc.2 (slotBank sl) (slotLine sl + r.1) r.2
    (acc.1 ++ [⟨r.1, r.2, b⟩], s1)) ([], s)

/-- Lines that an engine read, with bits of the slot changed. -/
def SlotBuf.fixed (b : SlotBuf) (ps : List Nat) : List Byte :=
  flipBits b.data ((ps.filter (fun p => 512 * b.off ≤ p && p < 512 * (b.off + b.n))).map (fun p => p - 512 * b.off))

/-- An engine writes back in full each line in which it corrected bits, out of what it read (R316). -/
def engineWrites (s : State) (id page sl : Nat) (bs : List SlotBuf) (ps : List Nat) : State :=
  bs.foldl (fun s b =>
    let new := b.fixed ps
    let s1 := forNat b.n (fun s i =>
      if ps.any (fun p => p / 512 = b.off + i) then slotWrite s sl (b.off + i) (slice new (64 * i) 64) else s) s
    if b.off < 260 then s1 else updPage s1 id page (fun p => { p with par := patchAt (padTo 2048 p.par) (64 * (b.off - 260)) new })) s

/-- Tags the lines of a quarter buffer as poisoned (R129). -/
def poisonQuarter (s : State) (sl q : Nat) : State :=
  let (b, _, s1) := slotRead s sl (65 * q) 65
  slotWrite s1 sl (65 * q) b (List.replicate 65 true)

/-! ### Grades (R127, R195) -/

/-- The grade-0 limit of corrected bits: GRADE_THRESH, or SCRUB_THRESH for the patrol (R323). -/
def gradeThresh (s : State) (it : Item) : Nat :=
  if it.isPatrol ∧ it.sense ≠ .margin then s.patrol.thresh else rd s F.classCfg0GradeThresh it.cls

/-- The grade of a quarter that passed: `loc` in a local decode, `soft` in a soft one. (DEDUCED, log entry 112.) -/
def passGrade (s : State) (it : Item) (loc soft : Bool) (corr : Nat) : Nat :=
  match it.sense with
  | .ladder n _ => if soft ∨ rd s F.classCfg0DeepStep it.cls ≤ n then 3 else 2
  | _ => if loc then (if corr ≤ gradeThresh s it then 0 else 1) else 2

/-- A quarter is final. Its grade is counted, but not in a margin read (R195). -/
def finalQuarter (s : State) (it : Item) (page q : Nat) (st : QState) (grade corr : Nat) : State :=
  let s1 := updPage s it.id page (fun p => p.updQ q (fun x => { x with st := st, grade := grade, corr := corr }))
  if it.sense = .margin then s1 else tallyC s1 (0x20 + grade) it.cls

/-- Quarters of an item that count and have failed, by page. -/
def failingOf (it : Item) : List (Nat × Nat) :=
  it.pages.zipIdx.flatMap (fun pi => ((List.range 4).filter (it.failing pi.1)).map (fun q => (pi.2, q)))

/-- Every quarter that counts is final. -/
def Quarter.isFinal (q : Quarter) : Bool := q.st = .passed || q.st = .erased || q.st = .unc
def allFinal (it : Item) : Bool := it.results.all (fun e => e.2.isFinal)

/-- The slot of a page of an item. -/
def pageSlot (it : Item) (page : Nat) : Option Nat := (it.pages[page]?).bind (fun p => p.slot)

/-- A failing quarter ends uncorrectable: grade 4, corrected bits 255, its buffer poisoned (R127–R129). -/
def uncQuarter (s : State) (it : Item) (pq : Nat × Nat) : State :=
  let s1 := tallyC (finalQuarter s it pq.1 pq.2 .unc 4 255) 0x2b it.cls
  let s2 := updPage s1 it.id pq.1 (fun p => p.updQ pq.2 (fun x => { x with poisoned := true }))
  match pageSlot it pq.1 with
  | some sl => poisonQuarter s2 sl pq.2
  | none => s2

/-! ### Delivery (R131), COPY (R60) and the patrol (R324) -/

/-- The quarters of an item's stream, in order, with the state of each (R288). -/
def streamQuarters (it : Item) : List (Entry × Quarter) :=
  it.pages.zipIdx.flatMap (fun pi => (movedQuarters it).map (fun q => (⟨it.id, pi.2, q⟩, pi.1.quarter q)))

/-- Entries of an item's quarters that may move now and have not been made: all once every quarter is final, with
CUT_THROUGH each that is final, and with a descriptor list only those that no unfinished quarter precedes (R131,
R289). -/
def readyEntries (it : Item) : List Entry :=
  let qs := streamQuarters it
  let ok := if allFinal it then qs
    else if it.pkt.cutThrough then
      (if it.pkt.descList then qs.takeWhile (fun e => e.2.isFinal) else qs.filter (fun e => e.2.isFinal))
    else []
  (ok.filter (fun e => !e.2.entered)).map (fun e => e.1)

/-- The decode of a COPY's source has ended (R60): it joins the destination's queue, or ends.
The destination plane is that of the row: byte 41 repeats it. (DESIGN CHOICE, log entries 129 and 131.)
(DESIGN CHOICE, log entry 129.) (DESIGN CHOICE, log entry 131.) -/
def copyDecoded (s : State) (it : Item) : State :=
  if it.results.any (fun e => e.2.st = .unc) then endItem s it.id
  else if it.lost then endWith s it.id .channelFenced
  else if warn s then endWith s it.id .notIssuedPowerfail
  else
    let d := it.pkt.dstLun
    enqueue (updItem s it.id (fun i => { i with
      lun := d, second := true, dataReady := false,
      pages := i.pages.map (fun p => { p with row := it.pkt.dstRow }) })) it.id d

/-- The patrol relocates a page of that grade (R321); a RELOC_GRADE outside 1–3 leaves it open.
(DESIGN CHOICE, log entry 47.) -/
def relocates (s : State) (g : Nat) : Bool × State :=
  let r := s.patrol.relocGrade
  if 1 ≤ r ∧ r ≤ 3 then (r ≤ g, s) else freeBit s

/-- The decode of a patrol read has ended (R323, R324): grade 4 leaves a receipt, a grade to be relocated waits for HK0,
any other ends the read. -/
def patrolDecoded (s : State) (it : Item) : State :=
  let s1 := wr0 (tallyC (tally s 0x5b) (0x280 + it.lun.ch) it.cls) F.psStatusPages ((rd s F.psStatusPages + 1) % 2 ^ 32)
  if it.grade = 4 then
    let it1 := (findItem s1 it.id).getD it
    relocWrite (dropItem (cleanup (tally s1 0x5e) it.id) it.id) { it1 with marks := [.uncorrectable] } (relocOf it) false
  else
    let (go, s2) := relocates s1 it.grade
    if go then updItem s2 it.id (fun i => { i with stage := .group }) else endItem s2 it.id

/-- Carries an item's decoded quarters on (R31, R131). -/
def deliver (s : State) (id : Nat) : State :=
  match findItem s id with
  | none => s
  | some it =>
    if it.isPatrol then (if allFinal it then patrolDecoded s it else s)
    else if it.origin = .boot then (if allFinal it then bootDecoded s it else s)
    else if it.pkt.op = 8 then (if allFinal it then copyDecoded s it else s)
    else
      let es := readyEntries it
      let s1 := updItem s id (fun i => { i with
        stage := if allFinal i then .deliver else i.stage,
        pages := i.pages.zipIdx.map (fun pi => es.foldl (fun p e => if e.page = pi.2 then p.updQ e.q (fun x => { x with entered := true }) else p) pi.1) })
      placeEntries s1 es

/-! ### Going on after a decode (R110–R112, R117, R118, R121) -/

/-- The failing quarters end uncorrectable and the item is delivered, with a status if it was cut short (R82, R500). -/
def giveUp (s : State) (it : Item) (why : Option Status) : State :=
  let s1 := (failingOf it).foldl (fun s pq => uncQuarter s it pq) (mark s it.id .uncorrectable)
  deliver (match why with | some st => mark s1 it.id st | none => s1) it.id

/-- Waits at the head of its LUN's queue for a further sense. -/
def toHead (s : State) (it : Item) (k : SenseKind) : State :=
  let s1 := updItem s it.id (fun i => { i with sense := k, stage := .needSense })
  updLun s1 it.lun (fun st => { st with head := if it.id ∈ st.head then st.head else st.head ++ [it.id] })

/-- The item's LUN is kept for it in its decode hold. -/
def holdsLun (s : State) (it : Item) : Bool :=
  let st := getLun s it.lun
  st.cur = some it.id && st.act = .hold

/-- What keeps an item from its channel: its loss (R500) or power-fail (R82). -/
def cutShort (s : State) (it : Item) : Option Status :=
  if it.lost then some .channelFenced else if warn s then some .interruptedPowerfail else none

/-- Escalation begins (R112): a transfer while the LUN is held, else a re-sense first (R111). -/
def escalate (s : State) (it : Item) : State :=
  match cutShort s it with
  | some st => giveUp (leaveLun s it) it (some st)
  | none =>
    if holdsLun s it then updItem s it.id (fun i => { i with escWant := true, stage := .needXfer })
    else toHead (updItem s it.id (fun i => { i with escWant := true })) { it with escWant := true } .again

/-- SOFT of the ladder step in hand, as its entry read when the step began (R123). (DESIGN CHOICE, log entry 111.) -/
def softCount (it : Item) : Nat := fget it.stepW0 32 2

/-- The ladder ends with the step in hand (R117). -/
def Item.lastStep (it : Item) (n : Nat) : Bool := 24 ≤ n || it.stepLast

/-- Reads the entry of ladder step `n` as the step begins (R123): later writes to it do not change the step. -/
def Item.readStep (s : State) (it : Item) (n : Nat) : Item :=
  if it.softStep = n then it
  else
    let l := it.ladder.getD 0
    { it with softStep := n, softUsed := 0, stepW0 := getR s .ladderStepW0 l (n - 1), stepLast := rdB s F.ladderStepW1Last l (n - 1) }

/-- The item's ladder ends (R118, R121): the LUN's tracked offsets are written back before any other item runs on it. -/
def endLadder (s : State) (it : Item) : State :=
  let s1 := updLun s it.lun (fun st => { st with head := st.head.filter (fun i => i ≠ it.id) })
  if it.lost then s1
  else
    let o := trackedOffs s it.cls (it.pages.headD {}).row
    askBus s1 { kind := .feature, lun := it.lun, item := none, cls := itemCls it 4, offs := some o }

/-- The step after step `n`, or the end of the ladder (R117): only a further step needs the channel again (R82, R500). -/
def nextStep (s : State) (it : Item) (n : Nat) : State :=
  if it.lastStep n then giveUp (endLadder s it) it none
  else
    match cutShort s it with
    | some st => giveUp (endLadder s it) it (some st)
    | none => toHead s it (.ladder (n + 1) 0)

/-- The decode hold of a LUN ends by its time (R110, R111): an escalation not yet on the bus turns into a re-sense. -/
def holdExpire (s : State) (l : Lun) : State :=
  match (getLun s l).cur.bind (findItem s) with
  | none => s
  | some it =>
    let s1 := tallyC (updItem s it.id (fun i => { i with holdExpired := true })) 0x2d it.cls
    let s2 := freeLun s1 l
    if it.escWant && !it.escDone && it.stage = .needXfer then
      let s3 := updCh (returnUnused s2 it.id) l.ch (fun c => { c with want := c.want.filter (fun t => t.item ≠ some it.id) })
      toHead s3 it .again
    else s2

/-! ### Data that lands (R30, R104, R108, R112, R118, R119, R194, R59) -/

/-- Columns `c` to `c + n - 1` of a page, out of the data of its ranges: as read, and de-randomized. -/
def landed (s : State) (it : Item) (p : Page) (data : List Byte) (c n : Nat) : List Byte × List Byte :=
  let raw := gather (remapEntries s it.lun it.strength) (allRanges s it p) data c n
  (raw, xorBytes raw (stream (imageKey s it) p.row c n))

/-- The zero bits of a segment as read do not exceed ERASED_THRESH (R108). -/
def isErased (s : State) (it : Item) (raw : List Byte) : Bool := zeroBits raw ≤ rd s F.classCfg0ErasedThresh it.cls

/-- A quarter of the first transfer, or of a ladder step's hard sense, has landed: an erased quarter is final, any other
gets a local decode job (R106, R108). `toSlot`: its data goes to its slot now. -/
def landQuarter (s : State) (it : Item) (page q : Nat) (raw seg : List Byte) (toSlot : Bool) : State :=
  match pageSlot it page with
  | none => s
  | some sl =>
    if isErased s it raw then
      let s1 := slotWrite s sl (65 * q) (padTo 4160 (List.replicate 4112 0xff#8))
      if it.sense = .margin then finalQuarter s1 it page q .failed 2 255
      else tallyC (finalQuarter s1 it page q .erased 0 0) 0x2c it.cls
    else
      let s1 := if toSlot then segToSlot s it.id page it.strength sl q seg else s
      queueJob (updPage s1 it.id page (fun p => p.updQ q (fun x => { x with st := .moved }))) it page (.loc q)

/-- The data of one page of a first transfer or margin read. -/
def landFirst (s : State) (it : Item) (page : Nat) (p : Page) (data : List Byte) : State :=
  ((List.range 4).filter it.wants).foldl (fun s q =>
    let (raw, seg) := landed s it p data (segCol it.strength q) (segLen it.strength)
    landQuarter s it page q raw seg true) s

/-- The data of one page of an escalation transfer (R112): the other segments and the global slices. -/
def landEsc (s : State) (it : Item) (page : Nat) (p : Page) (data : List Byte) : State :=
  match pageSlot it page with
  | none => s
  | some sl =>
    if it.escalates p then
      let s1 := ((List.range 4).filter (fun q => !(p.quarter q).held)).foldl (fun s q =>
        updPage (segToSlot s it.id page it.strength sl q (landed s it p data (segCol it.strength q) (segLen it.strength)).2) it.id page
          (fun x => x.updQ q (fun y => { y with st := .moved }))) s
      let s2 := (List.range 4).foldl (fun s i =>
        sliceToSlot s it.id page it.strength sl i (landed s it p data (sliceCol it.strength i) (sliceLen it.strength)).2) s1
      queueJob (updPage s2 it.id page (fun x => { x with glob := true })) it page .glob
    else s

/-- The data of one page of a ladder step's hard sense (R118). -/
def landHard (s : State) (it : Item) (page : Nat) (p : Page) (data : List Byte) : State :=
  let qs := (List.range 4).filter (it.failing p)
  let segs := qs.map (fun q => (q, landed s it p data (segCol it.strength q) (segLen it.strength)))
  let s1 := updPage s it.id page (fun x => { x with seg := segs.map (fun e => (segCol it.strength e.1, e.2.2)) })
  segs.foldl (fun s e => landQuarter s it page e.1 e.2.1 e.2.2 false) s1

/-- The data of one page of a soft sense goes into that sense's slot (R313). -/
def landSoft (s : State) (it : Item) (j : Nat) (p : Page) (data : List Byte) : State :=
  match it.softSlots[j - 1]? with
  | none => s
  | some sl =>
    if it.escalates p then
      let st := it.strength
      let segs := ((List.range 4).filter (it.failing p)).map (fun q => (q, (landed s it p data (segCol st q) (segLen st)).2))
      let s1 := segs.foldl (fun s e => slotWrite s sl (65 * e.1) (padTo 4160 (e.2.take 4112))) s
      let par := segs.foldl (fun b e => patchAt b (e.1 * localParity st) (e.2.drop 4112)) (padTo 2048 [])
      slotWrite s1 sl 260 ((List.range 4).foldl (fun b i =>
        patchAt b (4 * localParity st + i * sliceLen st) (landed s it p data (sliceCol st i) (sliceLen st)).2) par)
    else s

/-- The pages of an item with the data of each, out of a transfer's data. -/
def pageData (s : State) (it : Item) : List (Page × Nat) → List Byte → List (Page × Nat × List Byte)
  | [], _ => []
  | (p, i) :: r, b =>
    let n := rangeBytes (allRanges s it p)
    (p, i, b.take n) :: pageData s it r (b.drop n)

/-! ### Settling: every job of a level has ended -/

/-- A margin read has ended (R195): the item ends, VERIFY_FAIL if a quarter failed. -/
def marginEnd (s : State) (it : Item) : State :=
  if it.results.any (fun e => e.2.st = .failed) then endWith s it.id .verifyFail else endItem s it.id

/-- No quarter fails any more: the LUN is left, or the ladder ends, and the item is delivered. -/
def readPassed (s : State) (it : Item) : State :=
  match it.sense with
  | .ladder _ _ => deliver (endLadder s it) it.id
  | _ => deliver (leaveLun s it) it.id

/-- With CUT_THROUGH a quarter that has become final moves (R131); the item, unless that ended it. -/
def cutDeliver (s : State) (it : Item) : Option Item × State :=
  let s1 := if it.pkt.cutThrough ∧ it.sense ≠ .margin then deliver s it.id else s
  (findItem s1 it.id, s1)

/-- The local decodes of an item have ended. -/
def settleLocal (s : State) (id : Nat) : State :=
  match findItem s id with
  | none => s
  | some it =>
    if jobsOpen s id then (cutDeliver s it).2
    else if it.sense = .margin then marginEnd s it
    else if (failingOf it).isEmpty then readPassed s it
    else
      match cutDeliver s it with
      | (none, s0) => s0
      | (some it0, s0) =>
        match it0.sense with
        | .ladder _ _ => (((failingOf it0).map (fun pq => pq.1)).eraseDups).foldl (fun s p => queueJob s it0 p .glob) s0
        | _ => escalate s0 it0

/-- A page's global decode has failed (R112, R117, R118): the step's soft senses, the next step, or the end. -/
def globalFailed (s : State) (it : Item) : State :=
  match it.sense with
  | .ladder n _ =>
    if softCount it = 0 then nextStep s it n
    else
      match cutShort s it with
      | some st => giveUp (endLadder s it) it (some st)
      | none =>
        let s1 := toHead s it (.ladder n 1)
        wantSlots s1 ((findItem s1 it.id).getD it) (softCount it) true
  | _ =>
    match it.ladder, cutShort s it with
    | none, _ => giveUp s it none
    | some _, some st => giveUp s it (some st)
    | some _, none => toHead s it (.ladder 1 0)

/-- The global decodes of an item have ended (R112, R117, R118). -/
def settleGlobal (s : State) (id : Nat) : State :=
  match findItem s id with
  | none => s
  | some it =>
    if jobsOpen s id then (cutDeliver s it).2
    else if (failingOf it).isEmpty then readPassed s it
    else
      match cutDeliver s it with
      | (none, s0) => s0
      | (some it0, s0) => globalFailed s0 it0

/-- The soft decodes of an item have ended (R118, R314). -/
def settleSoft (s : State) (id : Nat) : State :=
  match findItem s id with
  | none => s
  | some it =>
    if jobsOpen s id then (cutDeliver s it).2
    else
      let s1 := freeSoft s id
      let it1 := (findItem s1 id).getD it
      if (failingOf it1).isEmpty then readPassed s1 it1
      else
        match cutDeliver s1 it1 with
        | (none, s0) => s0
        | (some it0, s0) =>
          match it0.sense with
          | .ladder n _ => nextStep s0 it0 n
          | _ => giveUp s0 it0 none

/-! ### Results of decodes -/

/-- The lines of a page that a decode engine reads: for a ladder step's hard sense none, whose data stays beside the slot. -/
def decodeReads (s : State) (it : Item) (page : Nat) (rs : List (Nat × Nat)) : List SlotBuf × State :=
  match pageSlot it page with
  | some sl => engineReads s sl rs
  | none => ([], s)

/-- A local decode has ended (R106, R107, R195). -/
def localResult (s : State) (it : Item) (page q : Nat) (r : DecodeResult) : State :=
  let (bs, s0) := decodeReads s it page (match it.sense with | .ladder _ _ => [] | _ => localLines it.strength q)
  let s1 := updItem s0 it.id (fun i => { i with decoded := true, iters := i.iters + r.iters })
  if r.ok then
    let n := r.fix.length
    let s2 := tallyCW (finalQuarter s1 it page q .passed (passGrade s1 it true false n) (sat 255 n)) 0x28 it.cls r.iters
    match pageSlot it page, it.sense with
    | some sl, .ladder _ _ =>
      match ((it.pages[page]?).bind (fun p => p.seg.find? (fun e => e.1 = segCol it.strength q))) with
      | some e => segToSlot s2 it.id page it.strength sl q (flipBits e.2 r.fix)
      | none => s2
    | some sl, _ => engineWrites s2 it.id page sl bs (slotBits it.strength (r.fix.map (fun p => 8 * segCol it.strength q + p)))
    | none, _ => s2
  else if it.sense = .margin then finalQuarter s1 it page q .failed 2 255
  else updPage s1 it.id page (fun p => p.updQ q (fun x => { x with st := .failed }))

/-- A global or soft decode of a page has passed: its failing quarters are corrected and final (R112, R127, R129); `bs` are the
lines that its engine read. -/
def pagePassed (s : State) (it : Item) (page : Nat) (soft : Bool) (fix : List Nat) (bs : List SlotBuf) : State :=
  match it.pages[page]? with
  | none => s
  | some p =>
    let st := it.strength
    let s1 := ((List.range 4).filter (it.failing p)).foldl (fun s q =>
      let fq := inSegment st q fix
      let s1 := finalQuarter s it page q .passed (passGrade s it false soft fq.length) (sat 255 fq.length)
      match p.slot, it.sense with
      | some sl, .ladder _ _ =>
        match p.seg.find? (fun e => e.1 = segCol st q) with
        | some e => segToSlot s1 it.id page st sl q (flipBits e.2 fq)
        | none => s1
      | _, _ => s1) s
    match p.slot, it.sense with
    | _, .ladder _ _ => s1
    | some sl, _ => engineWrites s1 it.id page sl bs (slotBits st fix)
    | none, _ => s1

/-- A soft decode reads the slots of its extra senses as well (R119, R313). -/
def softReads (s : State) (it : Item) (page : Nat) : State :=
  let qs := match it.pages[page]? with | some p => (List.range 4).filter (it.failing p) | none => []
  it.softSlots.foldl (fun s sl => (engineReads s sl (qs.map (fun q => (65 * q, 65)) ++ [(260, 32)])).2) s

/-- No decode follows a page's failed global or soft decode: no ladder, or its last step (R117, R131). -/
def lastDecode (it : Item) (soft : Bool) : Bool :=
  match it.sense with
  | .ladder n _ => it.lastStep n && (soft || softCount it = 0)
  | _ => it.ladder.isNone

/-- A global or soft decode has ended; the quarters that fail the last one that they can have are final. -/
def pageResult (s : State) (it : Item) (page : Nat) (soft : Bool) (r : DecodeResult) : State :=
  let (bs, s0) := decodeReads (if soft then softReads s it page else s) it page pageLines
  let s1 := updItem s0 it.id (fun i => { i with decoded := true, iters := i.iters + r.iters })
  if r.ok then tallyCW (pagePassed s1 it page soft r.fix bs) (if soft then 0x2a else 0x29) it.cls r.iters
  else if lastDecode it soft then
    match it.pages[page]? with
    | some p => ((List.range 4).filter (it.failing p)).foldl (fun s q => uncQuarter s it (page, q)) (mark s1 it.id .uncorrectable)
    | none => s1
  else s1

end Sys2Proof.Machine
end

