-- ==== Sys2Proof/Machine/Decoding.lean ====
section
/-! DEFINITION. The commands of decoding: data-out tenures that end, decode holds, decode engines and their jobs, and the
steps of retry ladders and margin reads (R30, R106–R136, R194). -/

namespace Sys2Proof.Machine

/-- What a command leaves: the next state. (DESIGN CHOICE, log entry 8.) -/
abbrev Out := Host.Outcome State Fault Refusal

/-! ### A data-out ends -/

/-- A raw image is in its slot, padded to whole lines (R59, R312): the LUN is left, and the image moves. -/
def rawLanded (s : State) (it : Item) (pd : List (Page × Nat × List Byte)) : State :=
  let s1 := pd.foldl (fun s x => match x.1.slot with
    | some sl => slotWrite s sl 0 (padTo (64 * ceilDiv x.2.2.length 64) x.2.2)
    | none => s) (offLun s it)
  let s2 := updItem s1 it.id (fun i => { i with stage := .deliver })
  placeEntries s2 (pd.map (fun x => ⟨it.id, x.2.1, 4⟩))

/-- A margin read's data is in its slots (R194): the LUN is released and each segment gets its local decode. -/
def marginLanded (s : State) (it : Item) (pd : List (Page × Nat × List Byte)) : State :=
  settleLocal (pd.foldl (fun s x => landFirst s it x.2.1 x.1 x.2.2) (offLun s it)) it.id

/-- A ladder step's hard sense is in hand (R118); the item stays at the head of the LUN's queue. -/
def hardLanded (s : State) (it : Item) (pd : List (Page × Nat × List Byte)) : State :=
  let s1 := updLun (offLun s it) it.lun (fun st => { st with head := it.id :: st.head })
  settleLocal (pd.foldl (fun s x => landHard s it x.2.1 x.1 x.2.2) s1) it.id

/-- Soft sense `j` of ladder step `n` is in its slot: the next soft sense, or the soft decode (R118, R119, R128). -/
def softLanded (s : State) (it : Item) (n j : Nat) (pd : List (Page × Nat × List Byte)) : State :=
  let s1 := pd.foldl (fun s x => landSoft s it j x.1 x.2.2) (offLun s it)
  if j < softCount it then toHead s1 it (.ladder n (j + 1))
  else
    let s2 := updLun (updItem s1 it.id (fun i => { i with softUsed := j })) it.lun (fun st => { st with head := it.id :: st.head })
    (((failingOf it).map (fun pq => pq.1)).eraseDups).foldl (fun s p => queueJob s it p .soft) s2

/-- An escalation's data is in its slots (R112): the LUN is left, and each escalating page gets its global decode. -/
def escLanded (s : State) (it : Item) (pd : List (Page × Nat × List Byte)) : State :=
  let s1 := updItem (offLun s it) it.id (fun i => { i with escDone := true })
  pd.foldl (fun s x => landEsc s it x.2.1 x.1 x.2.2) s1

/-- A first transfer's data is in its slots (R104, R106, R110): with HOLD_US = 0 the hold ends with it. -/
def firstLanded (s : State) (it : Item) (pd : List (Page × Nat × List Byte)) : State :=
  let s1 := settleLocal (pd.foldl (fun s x => landFirst s it x.2.1 x.1 x.2.2) s) it.id
  if holdsLun s1 it ∧ rd s F.classCfg1HoldUs it.cls = 0 then holdExpire s1 it.lun else s1

/-- An item's data lands in its slots by the sense it came from. -/
def landData (s : State) (it : Item) (data : List Byte) : State :=
  let pd := pageData s it it.pages.zipIdx data
  if it.pkt.op = 3 then rawLanded s it pd
  else match it.sense with
    | .margin => marginLanded s it pd
    | .ladder _ 0 => hardLanded s it pd
    | .ladder n j => softLanded s it n j pd
    | _ => if it.escWant then escLanded s it pd else firstLanded s it pd

/-- Ends the data-out tenure of an item: its coins are released, and its data goes through FLASH_IN, or stays there while its
consumer is detached (R302, R305). -/
def dataOutEnds (s : State) (ch : Nat) (it : Item) (data : List Byte) : State :=
  let s1 := flashIn (clearBus (releaseVccq s it.id) ch) ch false ((restParts s it).map (fun x => x.2)) (data.drop (it.xferGot.getD 0))
  let s2 := updItem s1 it.id (fun i => { i with xferDone := true, stage := .decode, xferGot := none })
  let s3 := updLun s2 it.lun (fun st => { st with act := .hold, holdStart := some s.clk })
  if detached s ch 2 then
    updFifo s3 ch 2 (fun f => { f with parked := f.parked ++ [{ dma := 0, item := it.id, page := 0, q := 0, data := data, poison := [] }] })
  else landData s3 it data

/-- TRANSFER_END (R30): the data-out tenure on a channel's bus ends with the bytes that its ranges returned, plane by plane
and range by range, without margins. -/
def execTransferEnd (ch : Fin 48) (data : List Byte) (s : State) : Out :=
  match (getCh s ch.val).bus with
  | some t =>
    match t.kind, t.item.bind (findItem s) with
    | .dataOut, some it =>
      if data.length = xferLen s it then .next (kickBus (dataOutEnds s ch.val it data) ch.val) else .fault .illFormed
    | .dataOut, none => .next (kickBus (freeLun (clearBus s ch.val) t.lun) ch.val)
    | _, _ => .next s
  | none => .next s

/-- The hold of a LUN's page runs out, once HOLD_US have passed (R110). -/
def holdEnds (s : State) (l : Lun) (until_ : Nat) : Out :=
  match lapse s until_ with
  | some s1 => .next (kickBus (holdExpire s1 l) l.ch)
  | none => .next s

/-- DECODE_HOLD_EXPIRY (R110): HOLD_US have passed since the end of the LUN's last transfer, and it is still held. -/
def execDecodeHoldExpiry (l : LunSel) (s : State) : Out :=
  let st := getLun s (lunOf l)
  match st.act, st.holdStart, st.cur.bind (findItem s) with
  | .hold, some t, some it =>
    holdEnds s (lunOf l) (t + usU * rd s F.classCfg1HoldUs it.cls)
  | _, _, _ => .next s

/-! ### Engines (R106, R112, R119, R132–R136) -/

/-- DECODE_JOB_CLAIM (R132). -/
def execDecodeJobClaim (e : Fin 40) (s : State) : Out :=
  match claimOf s e.val with
  | some j => if parked s then .next s else .next (claimJob s e.val j)
  | none => .next s

/-- LOCAL_DECODE_END (R106): the engine's local decode ends. -/
def execLocalDecodeEnd (e : Fin 40) (r : DecodeResult) (s : State) : Out :=
  match engineJob s e.val with
  | some j =>
    match j.kind with
    | .loc q =>
      if parked s then .next s
      else if !resultOk s j r then .fault .illFormed
      else
        let s1 := releaseEngine s e.val j r.iters
        match findItem s1 j.item with
        | some it => .next (settleLocal (localResult s1 it j.page q r) it.id)
        | none => .next s1
    | _ => .next s
  | none => .next s

/-- GLOBAL_DECODE_END (R112): the engine's global decode ends. -/
def execGlobalDecodeEnd (e : Fin 40) (r : DecodeResult) (s : State) : Out :=
  match engineJob s e.val with
  | some j =>
    if j.kind = .glob then
      if parked s then .next s
      else if !resultOk s j r then .fault .illFormed
      else
        let s1 := releaseEngine s e.val j r.iters
        match findItem s1 j.item with
        | some it => .next (settleGlobal (pageResult s1 it j.page false r) it.id)
        | none => .next s1
    else .next s
  | none => .next s

/-- SOFT_DECODE_END (R119): the engine's soft global decode ends. -/
def execSoftDecodeEnd (e : Fin 40) (r : DecodeResult) (s : State) : Out :=
  match engineJob s e.val with
  | some j =>
    if j.kind = .soft then
      if parked s then .next s
      else if !resultOk s j r then .fault .illFormed
      else
        let s1 := releaseEngine s e.val j r.iters
        match findItem s1 j.item with
        | some it => .next (settleSoft (pageResult s1 it j.page true r) it.id)
        | none => .next s1
    else .next s
  | none => .next s

/-- DECODE_ENGINE_FAULT (R136): the engine abandons its job, which goes back to the head of its class, and moves to
READY. -/
def execDecodeEngineFault (e : Fin 40) (s : State) : Out :=
  if domUp s (dDp (e.val / 20)) then
    let s1 := match engineJob s e.val with
      | some j => { s with jobs := j :: s.jobs, engines := Tab.drop s.engines (fun k => k = e.val) }
      | none => s
    let s2 := wr1 (wr1 (wr1 (flag1 s1 F.deCtlFault e.val) F.deCtlEnable e.val 0) F.deCtlPending e.val 0) F.deCtlState e.val 2
    .next (tally (tally s2 0x2e) (0x340 + e.val))
  else .next s

/-- ENGINE_DRAIN_END (R135): a draining engine has no job left. -/
def execEngineDrainEnd (e : Fin 40) (s : State) : Out :=
  if domUp s (dDp (e.val / 20)) ∧ rd s F.deCtlState e.val = 1 ∧ (engineJob s e.val).isNone then
    if rdB s F.deCtlPending e.val then
      .next (wr1 (wr1 s F.deCtlPending e.val 0) F.deCtlState e.val 3)
    else .next (wr1 s F.deCtlState e.val 2)
  else .next s

/-! ### Further senses (R118, R194) -/

/-- The item at the head of its LUN may begin the sense it was granted. -/
def senseDue (s : State) (it : Item) : Bool :=
  it.stage = .needSense && isGranted s it.id && !busyWant s it && (headReady s it.lun).any (fun h => h.id = it.id)

/-- LADDER_STEP_BEGIN (R118): a ladder step begins: its entry is read and its hard sense is asked for. -/
def execLadderStepBegin (id : Nat) (s : State) : Out :=
  match findItem s id with
  | some it =>
    match it.sense with
    | .ladder n 0 =>
      if senseDue s it then
        let it1 := it.readStep s n
        .next (askLaunch (updItem s id (fun _ => it1)) it1)
      else .next s
    | _ => .next s
  | none => .next s

/-- MARGIN_READ_LAUNCH (R194): the margin read after a program senses its page. -/
def execMarginReadLaunch (id : Nat) (s : State) : Out :=
  match findItem s id with
  | some it => if it.sense = .margin ∧ senseDue s it then .next (askLaunch s it) else .next s
  | none => .next s

end Sys2Proof.Machine
end

