-- ==== Sys2Proof/Machine/Launching.lean ====
section
/-! DEFINITION. The commands that launch items and grant what they need: candidates, arming and the launch gate, launches,
ledger rounds, staging slots, suspends and resumes, the alternate budget and quiet windows (R172–R188, R212–R236). -/

namespace Sys2Proof.Machine

/-- ITEM_BECOMES_CANDIDATE (R172): the time base reaches the item's tick less its lead. -/
def execItemBecomesCandidate (id : Nat) (s : State) : Out :=
  match findItem s id with
  | some it =>
    if it.stage = .queued ∧ it.pkt.launchTick ≠ 0 then
      match reach s (nsU * (it.pkt.launchTick.toNat - tickLead s it)) with
      | some s1 => .next s1
      | none => .next s
    else .next s
  | none => .next s

/-! ### Arming and the launch gate (R232, R233) -/

/-- An item arms (R232): its set-aside is asked for in the next round (R213), the gate is loaded, and its offsets are
written. -/
def armItem (s : State) (it : Item) : State :=
  kickBus (armOffs (setGate (updItem s it.id (fun i => { i with armed := true })) it.lun.ch) { it with armed := true }) it.lun.ch

/-- ITEM_ARM (R232): the fine time base reaches the tick less TICK_ARM. -/
def execItemArm (id : Nat) (s : State) : Out :=
  match findItem s id with
  | some it =>
    let tick := it.pkt.launchTick.toNat
    if it.stage = .queued ∧ tick ≠ 0 ∧ ¬ it.armed then
      match reach s (nsU * (tick - tickArm s)) with
      | some s1 =>
        if fineTick s1 < tick && (offered s1 it.lun).any (fun o => o.id = id) && lunFree s1 it.lun it
            && mayLaunch s1 it.lun.ch && !tickQuiet s1 it && !busyWant s1 it
        then .next (armItem s1 it) else .next s
      | none => .next s
    else .next s
  | none => .next s

/-- The coins set aside for an item are granted (R232, R210). -/
def grantAside (s : State) (it : Item) : State :=
  if hasCoin s it.id .aside then
    let k := launchAsk s it .launch
    tallyGrant (mapCoins s (fun c =>
      if c.item = some it.id ∧ c.sort = .aside then { c with sort := if c.q ∨ it.phase ≠ .program then .granted else .launchAside }
      else c)) k 0
  else s

/-- The gate of a channel opens for an item at its tick. -/
def openGate (s : State) (it : Item) : State :=
  let s1 := updItem s it.id (fun i => { i with armed := false, gateOpen := it.phase = .none || hasCoin s it.id .aside })
  let s2 := setGate { s1 with ledger := { s1.ledger with asks := s1.ledger.asks.filter (fun a => !(a.item = it.id && a.kind = .aside)) } } it.lun.ch
  let s3 := startPass (grantAside s2 it) it
  if !busyWant s3 it && launchFree s3 it.lun it && (it.phase = .none || isGranted s3 it.id) then launchItem s3 it else s3

/-- LAUNCH_GATE_OPEN (R232, R235): the fine time base reaches the tick of the item in the channel's gate. -/
def execLaunchGateOpen (ch : Fin 48) (s : State) : Out :=
  match (getCh s ch.val).gate.bind (findItem s) with
  | some it =>
    match reach s (nsU * it.pkt.launchTick.toNat) with
    | some s1 =>
      if it.pkt.launchTick.toNat ≤ fineTick s1 then
        if staysArmed s1 it && !quietActive s1 then .next (openGate s1 it) else .next (kickBus (disarm s1 it) it.lun.ch)
      else .next s
    | none => .next s
  | none => .next s

/-! ### Launching (R173) -/

/-- ITEM_LAUNCH (R173): the offered item of a LUN launches. -/
def execItemLaunch (l : LunSel) (s : State) : Out :=
  match offered s (lunOf l) with
  | some it =>
    if mayLaunchItem s it && launchFree s (lunOf l) it && tickReached s it && !it.armed && !busyWant s it
        && (it.phase = .none || isGranted s it.id)
    then .next (launchItem s it) else .next s
  | none => .next s

/-- LEDGER_GRANT (R212): one round of both ledgers. -/
def execLedgerGrant (s : State) : Out :=
  if domUp s dHk then .next (ledgerRound s) else .next s

/-- SLOT_GRANT (R313): the request for slots at the head of the queue is met if a bank can. -/
def execSlotGrant (s : State) : Out :=
  if domUp s dHk then .next (slotServe s) else .next s

/-! ### Suspends and resumes (R184, R186) -/

/-- The conditions of R184 other than the running time, and no suspend of the LUN waits yet. -/
def suspendDue (s : State) (l : Lun) : Bool :=
  suspendCond s l && !((getCh s l.ch).want.any (fun t => t.kind = .suspend && t.lun = l))

/-- SUSPEND_ISSUE (R184): a bounded item suspends the phase that runs on a LUN. -/
def execSuspendIssue (l : LunSel) (s : State) : Out :=
  let k := lunOf l
  match lapse s ((getLun s k).phaseStart + usU * rd s F.chSchedRunMinUs k.ch) with
  | some s1 =>
    if suspendDue s1 k then
      .next (askBus (raiseSeq s1 k.ch 4) { kind := .suspend, lun := k, item := none, cls := 3 })
    else .next s
  | none => .next s

/-- RESUME_ISSUE (R186): the suspended phase of a LUN resumes once its coins are granted. -/
def execResumeIssue (l : LunSel) (s : State) : Out :=
  let k := lunOf l
  match arrayItem s k with
  | some it =>
    if resumeDue s k && hasCoin s it.id .granted && !busyWant s it then
      .next (askBus s { kind := .resume, lun := k, item := some it.id, cls := 6 })
    else .next s
  | none => .next s

/-! ### The alternate budget (R217–R220) -/

/-- LEDGER_CUT or FORCE_ALT asks for the alternate budgets. -/
def altAsked (s : State) : Bool := cutOn s || rdB s F.lgCtlForceAlt

/-- What follows a change of LEDGER_CUT, CUT_EN or FORCE_ALT: `was` and `asked` tell whether the alternate budgets were in
force, and asked for, before it (R217, R218). -/
def altChange (was asked : Bool) (s : State) : State :=
  if altAsked s then
    let s1 := { s with ledger := { s.ledger with holdEnd := none } }
    if was then s1 else altBegins s1
  else if asked then
    let us := rd s F.lgCtlCutHoldUs
    { s with ledger := { s.ledger with holdEnd := if us = 0 then none else some (s.clk + usU * us) } }
  else s

/-- Sets the level of LEDGER_CUT; the ledger lies in PD_HK. -/
def setCut (s : State) (v : Bool) : State :=
  let s1 := { s with power := { s.power with cutPin := v } }
  if domUp s dHk then altChange (altActive s) (altAsked s) s1 else s1

/-- LEDGER_CUT_RISE (R218). -/
def execLedgerCutRise (s : State) : Out := .next (setCut s true)

/-- LEDGER_CUT_FALL (R217). -/
def execLedgerCutFall (s : State) : Out := .next (setCut s false)

/-- CUT_HOLD_EXPIRY (R220): CUT_HOLD_US have passed, and the normal budgets return. -/
def execCutHoldExpiry (s : State) : Out :=
  match s.ledger.holdEnd with
  | some t =>
    match lapse s t with
    | some s1 => .next { s1 with ledger := { s1.ledger with holdEnd := none } }
    | none => .next s
  | none => .next s

/-! ### Quiet windows (R224) -/

/-- QUIET_WINDOW_START (R224): the window of a slot begins. -/
def execQuietWindowStart (j : Fin 8) (s : State) : Out :=
  if rdB s F.lgQuietW1Valid j.val then
    match reach s (nsU * rd s F.lgQuietW0Start j.val) with
    | some s1 =>
      if quietHolds s1 j.val (fineTick s1) then
        let s2 := refreshArmed s1
        .next (if rdB s F.lgCtlQuietSuspend then orderSuspends s2 0 else s2)
      else .next s
    | none => .next s
  else .next s

/-- QUIET_WINDOW_END (R224): the window of a slot ends, and its slot is free. -/
def execQuietWindowEnd (j : Fin 8) (s : State) : Out :=
  if rdB s F.lgQuietW1Valid j.val then
    match reach s (nsU * (rd s F.lgQuietW0Start j.val + rd s F.lgQuietW1Length j.val)) with
    | some s1 => .next (wr1 s1 F.lgQuietW1Valid j.val 0)
    | none => .next s
  else .next s

end Sys2Proof.Machine
end

