-- ==== Sys2Proof/Machine/LunEvents.lean ====
section
/-! DEFINITION. The commands of a LUN's operations: status polls and what they show, die timeouts, ends of bus tenures, and
the end of a SEQUENCE routine (R149–R152, R178–R187, R194, R200, R355). -/

namespace Sys2Proof.Machine

/-! ### Polls asked for (R150) -/

/-- Asks for a status poll of a LUN. -/
def askPoll (s : State) (l : Lun) : State :=
  askBus (updLun s l (fun st => { st with pollAt := none })) { kind := .poll, lun := l, cls := 2 }

/-- POLL_DUE (R150): the first-poll delay or the poll interval of a LUN ends. -/
def execPollDue (l : LunSel) (s : State) : Out :=
  match (getLun s (lunOf l)).pollAt with
  | some t =>
    match lapse s t with
    | some s1 => .next (askPoll s1 (lunOf l))
    | none => .next s
  | none => .next s

/-- The chip enable of a LUN is mapped to an RB line of its channel. -/
def onLine (s : State) (line : Nat) (l : Lun) : Bool :=
  rdB s (F.chRbMapUse l.ce) l.ch && rd s (F.chRbMapLine l.ce) l.ch = line

/-- A LUN is busy and waits for its poll, or its poll is on the bus. -/
def pollsNow (s : State) (l : Lun) : Bool :=
  (getLun s l).pollAt.isSome || (getCh s l.ch).bus.any (fun t => t.kind = .poll && t.lun = l)

/-- RB_N_RISE (R150): every busy LUN mapped to the line is polled as soon as the bus is free. -/
def execRbNRise (ch : Fin 48) (line : Fin 4) (s : State) : Out :=
  if domUp s (dCg (ch.val / 4)) then
    let mapped := (lunsOf s ch.val).filter (onLine s line.val)
    .next ((mapped.filter (pollsNow s)).foldl askPoll (if mapped.isEmpty then s else raiseSeq s ch.val 5))
  else .next s

/-! ### What a poll shows (R149) -/

def stRdy (st : Byte) : Bool := st.getLsbD 6
def stArdy (st : Byte) : Bool := st.getLsbD 5
/-- The status fails the phase: FAIL is 1 or WP_N is 0. -/
def stFail (st : Byte) : Bool := st.getLsbD 0 || !st.getLsbD 7
/-- The status fails a page that another page of its chain follows: FAILC is 1 or WP_N is 0 (R149, R183). -/
def stFailc (st : Byte) : Bool := st.getLsbD 1 || !st.getLsbD 7

/-- Polls the LUN again after its interval. -/
def pollAgain (s : State) (l : Lun) : State := setPoll s l (pollInterval s l)

/-- The LUN is idle: no item uses it, and no poll is due. -/
def idleLun (s : State) (l : Lun) : State :=
  updLun s l (fun st => { st with act := .idle, cur := none, holdStart := none, pollAt := none, readEnd := none })

/-- Stores the byte as an item's DIE_STATUS. -/
def setDie (s : State) (o : Option Nat) (st : Byte) : State :=
  match o with
  | some id => updItem s id (fun i => { i with dieStatus := st })
  | none => s

/-- A sense has ended (R30, R111, R118): its coins are released, and its data-out waits for slots and the bus. -/
def senseEnds (s : State) (l : Lun) : State :=
  match (getLun s l).cur.bind (findItem s) with
  | some it =>
    let s1 := updLun (releaseVcc s it.id) l (fun st => { st with act := .hold, holdStart := none, pollAt := none })
    let s2 := updItem s1 it.id (fun i => { i with stage := .needXfer })
    let s3 := if (getLun s2 l).readEnd = some false then endTenureOf s2 l else s2
    if hasSlots it then s3 else wantSlots s3 it it.pages.length false
  | none => idleLun (releaseLun s l) l

/-- The coins charged to a LUN for an item that uses it no more, such as one that timed out, are released (R152). -/
def releaseStale (s : State) (l : Lun) : State :=
  let x := getLun s l
  dropCoins s (fun c => c.lun = l && c.sort = .charged && !c.q
    && !(c.item = x.cur || c.item = x.array || c.item = x.chain || c.item = x.chainNext))

/-- The sense of the page read ahead by cache read has ended (R182). -/
def chainSenseEnds (s : State) (l : Lun) : State :=
  match (getLun s l).chain.bind (findItem s) with
  | some it =>
    let s1 := updLun (releaseVcc s it.id) l (fun st => { st with pollAt := none })
    let s2 := updItem s1 it.id (fun i => { i with stage := .needXfer })
    if hasSlots it then s2 else wantSlots s2 it it.pages.length false
  | none => updLun s l (fun st => { st with pollAt := none })

/-- A margin read follows a program (R194, R324). -/
def wantsMargin (s : State) (it : Item) : Bool :=
  if it.isPatrol then rdB s F.classCfg0MarginLoaded it.dstCls else it.pkt.marginVerify

/-- The item turns to its margin read (R194, R195): it waits at the head of the queue. Its receipt keeps what the decode of a
COPY's source gave beside what the margin read gives (R57, R66, R71). (DESIGN CHOICE, log entry 128.) -/
def toMargin (s : State) (it : Item) : State :=
  let f := fun i : Item => { i with
    cls := if i.second then i.dstCls else i.cls, decoded := i.decoded && i.pkt.op = 8,
    srcGrade := if i.pkt.op = 8 then i.grade else 0, srcCorr := if i.pkt.op = 8 then (List.range 4).map i.corr else [],
    escWant := false, escDone := false, xferBegun := false, xferDone := false,
    pages := i.pages.map (fun p => { p with slot := none, glob := false, seg := [], q := List.replicate 4 {} }) }
  let s1 := { s with staging := { s.staging with held := s.staging.held.filter (fun h => h.2 ≠ it.id) } }
  toHead (updItem s1 it.id f) it .margin

/-- A relocation's program ended well (R324). -/
def relocDone (s : State) (id : Nat) : State :=
  { s with patrol := { s.patrol with relocs := s.patrol.relocs.map (fun r => if r.item = id then { r with newValid := true } else r) } }

/-- The item of a program or erase whose phase has ended, with its result (R149, R194, R82, R198). -/
def programResult (s : State) (it : Item) (fail : Bool) : State :=
  if fail then endWith s it.id .dieFail
  else
    let s1 := if it.isPatrol then relocDone s it.id else s
    if it.origin = .boot ∧ .interruptedPowerfail ∉ it.marks then bootProgrammed s1 it
    else if it.phase = .program ∧ wantsMargin s1 it ∧ .interruptedPowerfail ∉ it.marks then toMargin s1 it else endItem s1 it.id

/-- A program or erase phase has ended, and the LUN with it. A suspend that waits for the bus is not issued any more
(R237). -/
def phaseEnds (s : State) (l : Lun) (fail : Bool) : State :=
  match arrayItem s l with
  | some it =>
    let s1 := dropSusp (idleLun (releaseVcc s it.id) l) l
    programResult (updLun s1 l (fun st => { st with array := none, chain := none, chainConf := false, chainRdy := false,
                                                    chainNext := none, suspCount := 0, suspWant := false })) it fail
  | none => updLun (dropSusp (idleLun (releaseLun s l) l) l) l (fun st => { st with array := none, chain := none, suspCount := 0, suspWant := false })

/-- The confirmed next page of a cache chain becomes the page that programs (R183). -/
def chainTurn (s : State) (l : Lun) (fail : Bool) : State :=
  let x := getLun s l
  let s1 := match arrayItem s l with | some it => releaseVcc s it.id | none => s
  let s2 := updLun s1 l (fun st => { st with
    array := x.chain, cur := x.chain, chain := x.chainNext, chainNext := none, chainConf := false, chainRdy := true,
    phaseStart := s.clk, ranBefore := 0, suspCount := 0, startOrd := s.ledger.ord })
  let s2 := { s2 with ledger := { s2.ledger with ord := s.ledger.ord + 1 } }
  match arrayItem s l with | some it => programResult s2 it fail | none => s2

/-- What a status shows of a running program (R149, R183). -/
def programPoll (s : State) (l : Lun) (st : Byte) : State :=
  let x := getLun s l
  if x.chainConf then
    if stRdy st ∨ stArdy st then
      let s1 := setDie (chainTurn s l (stFailc st)) x.chain st
      if stArdy st then phaseEnds s1 l (if x.chainNext.isSome then stFailc st else stFail st) else pollAgain s1 l
    else pollAgain s l
  else if stArdy st then phaseEnds s l (if x.chain.isSome then stFailc st else stFail st)
  else pollAgain (if x.chain.isSome ∧ stRdy st then updLun s l (fun y => { y with chainRdy := true }) else s) l

/-- The items of a suspended operation end INTERRUPTED_POWERFAIL, and a reset of the LUN is due (R198). -/
def interruptArray (s : State) (l : Lun) : State :=
  let x := getLun s l
  let ids := x.array.toList ++ (if x.chainConf then x.chain.toList else [])
  endAll (updLun s l (fun st => { st with resetDue := true, chain := none, chainConf := false, chainRdy := false, chainNext := none }))
    ids .interruptedPowerfail

/-- Asks for the reset that is due on a LUN (R84, R200), unless PWR_WARN is high or it is asked for already. -/
def askReset (s : State) (l : Lun) : State :=
  if warn s || (getCh s l.ch).want.any (fun t => t.kind = .reset && t.item.isNone && t.lun = l) then s
  else askBus s { kind := .reset, lun := l, cls := 7 }

/-- A suspend has completed (R184, R198): the phase's coins are released. -/
def suspendEnds (s : State) (l : Lun) : State :=
  match arrayItem s l with
  | some it =>
    let k := if it.phase = .erase then 2 else 1
    let next := if (getLun s l).chainConf then (getLun s l).chain.toList else []
    let n := next.foldl (fun n id => n + vccOf s id) 0
    let s1 := updLun (idleLun s l) l (fun st => { st with
      susp := k, suspCoins := vccOf s it.id + n, suspChain := n, suspWant := false })
    let s2 := next.foldl releaseVcc (releaseVcc s1 it.id)
    if warn s ∨ .interruptedPowerfail ∈ it.marks then askReset (interruptArray s2 l) l else s2
  | none => askReset (updLun (idleLun (releaseLun s l) l) l (fun st => { st with susp := 1, resetDue := true, suspWant := false })) l

/-- A reset of the LUN has shown RDY (R84, R124, R152, R200, R80). (DESIGN CHOICE, log entry 108.) -/
def resetEnds (s : State) (l : Lun) : State :=
  let x := getLun s l
  let alive := (arrayItem s l).isSome
  let s1 := updLun (idleLun (releaseLun s l) l) l (fun st => { st with
    resetRun := false, resetDue := false, offs := none, offsWant := none,
    susp := if alive then st.susp else 0, array := if alive then st.array else none,
    suspCount := if alive then st.suspCount else 0 })
  match x.cur.bind (findItem s) with
  | some it =>
    if it.pkt.op = 0x0c then endItem (updLun s1 l (fun st => { st with halted := false })) it.id else s1
  | none => s1

/-- The offsets written to a LUN are known (R124); a granted sense follows at once. -/
def offsetsWritten (s : State) (l : Lun) : State :=
  let x := getLun s l
  let s1 := updLun s l (fun st => { st with offs := x.offsWant, offsWant := none, pollAt := none })
  match x.cur.bind (findItem s) with
  | some it =>
    if isGranted s1 it.id && !it.armed && (it.launched || (offered s1 l).any (fun o => o.id = it.id)) then askItem s1 .launch it
    else idleLun s1 l
  | none => idleLun s1 l

/-- The offsets written ahead of a cache read are known (R124, R182): the read follows, if its item is still offered. -/
def chainOffsWritten (s : State) (l : Lun) : State :=
  let x := getLun s l
  let s1 := updLun s l (fun st => { st with offs := x.offsWant, offsWant := none, chainOffs := false, pollAt := none })
  match x.chain.bind (findItem s) with
  | some it =>
    if isGranted s1 it.id && (offered s1 l).any (fun o => o.id = it.id) then askItem s1 .launch it
    else updLun s1 l (fun st => { st with chain := none })
  | none => s1

/-- An operation without an array phase shows RDY. -/
def otherEnds (s : State) (l : Lun) : State :=
  let x := getLun s l
  if x.resetRun then resetEnds s l
  else if x.offsWant.isSome then offsetsWritten s l
  else
    match x.cur.bind (findItem s) with
    | some it =>
      match it.pkt.op with
      | 0x0b => askItem (updLun s l (fun st => { st with pollAt := none })) .getData it
      | 0x0a =>
        endItem (forgetOffs (idleLun s l) it) it.id
      | 0x0d => updLun s l (fun st => { st with pollAt := none })
      | _ => endItem (idleLun s l) it.id
    | none => idleLun s l

/-- The item that a poll of a LUN serves. -/
def servedBy (x : LunSt) : Option Nat :=
  match x.act with
  | .program | .erase | .suspending => x.array
  | .sense | .other => x.cur
  | _ => if x.readEnd = some false then x.cur else x.chain

/-- What a status byte does on a LUN. -/
def pollResult (s : State) (l : Lun) (st : Byte) : State :=
  let x := getLun s l
  let s0 := setDie (if stArdy st then releaseStale s l else s) (servedBy x) st
  match x.act with
  | .sense => if stArdy st then senseEnds s0 l else pollAgain s0 l
  | .program => programPoll s0 l st
  | .erase => if stArdy st then phaseEnds s0 l (stFail st) else pollAgain s0 l
  | .suspending => if stRdy st ∧ stArdy st then suspendEnds s0 l else pollAgain s0 l
  | .other => if stRdy st then otherEnds s0 l else pollAgain s0 l
  | .hold | .transfer =>
    if x.readEnd = some false then
      (if stRdy st then updLun s0 l (fun y => { y with readEnd := some true, pollAt := none }) else pollAgain s0 l)
    else if x.chainOffs then (if stRdy st then chainOffsWritten s0 l else pollAgain s0 l)
    else if x.chain.isSome then (if stArdy st then chainSenseEnds s0 l else pollAgain s0 l) else s0
  | _ => s0

/-- A STATUS item's poll: the item ends with the byte (R57, R62); a LUN whose array phase has ended draws no current any
more (R152). -/
def statusEnds (s : State) (it : Item) (st : Byte) : State :=
  let s1 := if stArdy st then releaseStale s it.lun else s
  endItem (idleLun (setDie s1 (some it.id) st) it.lun) it.id

/-- POLL_COMPLETE (R149): the poll on a channel's bus returns its byte. -/
def execPollComplete (ch : Fin 48) (st : Byte) (s : State) : Out :=
  match (getCh s ch.val).bus with
  | some t =>
    if t.kind = .poll then
      let s1 := clearBus s ch.val
      let s2 := match t.item.bind (findItem s1) with
        | some it => if it.pkt.op = 9 then statusEnds s1 it st else pollResult s1 t.lun st
        | none => pollResult s1 t.lun st
      .next (kickBus (issueOrdered s2 ch.val) ch.val)
    else .next s
  | none => .next s

/-! ### Die timeouts (R152, R80) -/

/-- A limit field in time units: 0 means 65,536 µs. -/
def limitOf (n : Nat) : Nat := usU * (if n = 0 then 65536 else n)

/-- When the operation on a LUN times out, if one is watched. -/
def timeoutAt (s : State) (l : Lun) : Option Nat :=
  let x := getLun s l
  let run := fun f : Fld => some (x.phaseStart + (limitOf (rd s f l.ch) - x.ranBefore))
  match x.act with
  | .sense => run F.chTimeoutToReadUs
  | .program => run F.chTimeoutToProgUs
  | .erase => run F.chTimeoutToEraseUs
  | .suspending => some (x.suspAt + limitOf (rd s F.chTimeoutToOtherUs l.ch))
  | .other => if x.pollAt.isSome then some (x.phaseStart + limitOf (rd s F.chTimeoutToOtherUs l.ch)) else none
  | .hold | .transfer =>
    if x.readEnd = some false ∧ x.pollAt.isSome then run F.chTimeoutToOtherUs
    else match x.chain.bind (findItem s) with
    | some c =>
      if c.stage = .sense then run F.chTimeoutToReadUs
      else if x.chainOffs ∧ x.pollAt.isSome then run F.chTimeoutToOtherUs else none
    | none => none
  | _ => none

/-- The items that a timeout of a LUN ends. -/
def timedOut (x : LunSt) : List Nat :=
  (servedBy x).toList ++ (if x.chainConf then x.chain.toList else [])

/-- A LUN times out: its queue halts, and its item ends DIE_TIMEOUT; the coins of its phase stay charged.
(DEDUCED, log entry 91.) -/
def dieTimeout (s : State) (l : Lun) : State :=
  let x := getLun s l
  let ids := timedOut x
  let keeps := (x.act = .hold ∨ x.act = .transfer) ∧ x.readEnd ≠ some false
  let s0 := dropSusp (match x.cur.bind (findItem s) with
    | some it => if it.pkt.op = 0x0a then forgetOffs s it else s
    | none => s) l
  let s1 := updLun (raiseSeq s0 l.ch 3) l (fun st => { st with
    act := if keeps then st.act else .idle, cur := if keeps then st.cur else none, readEnd := none,
    array := if st.array.any (fun i => i ∈ ids) then none else st.array, chain := none, chainConf := false, chainRdy := false,
    chainNext := none, chainOffs := false, halted := true, pollAt := none, resetRun := false, suspWant := false,
    offs := if st.act = .other ∨ st.chainOffs then none else st.offs, offsWant := none })
  let s2 := updCh s1 l.ch (fun c => { c with want := c.want.filter (fun t => !(t.kind = .poll && t.lun = l)) })
  endAll s2 ids .dieTimeout

/-- DIE_TIMEOUT_EXPIRY (R152): the operation on a LUN has not shown ready within its limit. -/
def execDieTimeoutExpiry (l : LunSel) (s : State) : Out :=
  let k := lunOf l
  match timeoutAt s k with
  | some t =>
    match lapse s t with
    | some s1 => if domUp s1 (dCg (k.ch / 4)) then .next (kickBus (dieTimeout s1 k) k.ch) else .next s
    | none => .next s
  | none => .next s

/-! ### Ends of tenures (R178) -/

/-- BUS_TENURE_END (R178): a tenure other than a data-out and a poll ends; `data` is what a feature read returned. -/
def execBusTenureEnd (ch : Fin 48) (data : List Byte) (s : State) : Out :=
  match (getCh s ch.val).bus with
  | some t =>
    if t.kind = .dataOut ∨ t.kind = .poll then .next s
    else if data.length ≠ (if t.kind = .getData then 4 else 0) then .fault .illFormed
    else
      let s1 := endTenure (clearBus s ch.val) t data
      let s2 := if warn s1 ∧ t.kind = .resume then updLun s1 t.lun (fun st => { st with suspWant := true }) else s1
      let s3 := if t.kind = .launch ∨ t.kind = .resume then repick s2 else s2
      .next (kickBus (issueOrdered (issueFirst s3 t) ch.val) ch.val)
  | none => .next s

/-! ### SEQUENCE routines (R355) -/

/-- The LUN that a routine held is released; its offsets are unknown (R124). -/
def routineOff (s : State) (ch : Nat) (l : Lun) : State :=
  let s1 := updLun (idleLun s l) l (fun st => { st with offs := none })
  let s2 := updCh s1 ch (fun c => { c with routine := none })
  match (getCh s ch).bus with
  | some t => if t.kind = .routine then clearBus s2 ch else s2
  | none => s2

/-- The micro-state with which a routine begins; what R355 does not set is as the ROM left it. -/
def routineStart (s : State) (it : Item) : RoutineRun :=
  let m := getMicro s (it.lun.ch / 4) (it.lun.ch % 4)
  let w := fun i => BitVec.ofNat 32 (it.pkt.row.toNat / 2 ^ (32 * i))
  let ss := [w 0, w 1, it.pkt.ceLun.setWidth 32, it.pkt.channel.setWidth 32] ++ (List.range 4).map (fun i => m.sreg (4 + i))
  { m := { m with s := ss, waiting := false,
                  upc := BitVec.ofNat 14 (0x2000 + rd s F.mcRoutineEntry (it.lun.ch / 4) it.pkt.strength.toNat) },
    ctr := s.freeCtr }

/-- The value that DISPATCH selects (R344): the opcode and the action byte of the item, or the cause of the trap taken last. The
event code of a LUN is free, since the spec gives no code. -/
def dispOf (s : State) (it : Item) (i : Nat) : Nat :=
  match i with
  | 0 => it.pkt.op
  | 1 => it.pkt.opByte 8
  | 2 => (getMicro s (it.lun.ch / 4) (it.lun.ch % 4)).cause
  | _ => (Config.freeWord s.freeCtr).toNat

/-- The words that a routine can execute within TO_OTHER_US, one a cycle of 1.6 GHz (R13, R355). -/
def routineWords (s : State) (ch : Nat) : Nat := limitOf (rd s F.chTimeoutToOtherUs ch) / usU * 1600

/-- A run of at most `n` words of the routine of an item (R355). -/
def routineRun (s : State) (it : Item) (n : Nat) : RoutineOut :=
  runRoutine s (it.lun.ch / 4) (it.lun.ch % 4) (dispOf s it) n (routineStart s it)

/-- The free values after a run. -/
def afterRun (s : State) (r : RoutineRun) : State := { s with freeCtr := r.ctr + 2 }

/-- The item whose SEQUENCE routine runs on a channel. -/
def routineOf (s : State) (ch : Nat) : Option Item := (getCh s ch).routine.bind (findItem s)

/-- The micro-state in which an event meets an engine: that of a routine after a free number of its words, else what the ROM
has left. (DESIGN CHOICE, log entry 19.) -/
def microNow (s : State) (j e : Nat) : Micro × State :=
  let s1 := microByRom s j e
  let rom := { getMicro s1 j e with masked := Config.freeBit s1.freeCtr, maskFor := 0 }
  match if j < 12 then routineOf s (4 * j + e) else none with
  | some it =>
    let (w, s2) := freeWord s1
    match routineRun s2 it (w.toNat % (routineWords s it.lun.ch + 1)) with
    | .going r | .fault _ _ r => (r.m, afterRun s2 r)
    | .ended _ => (rom, s2)
  | none => (rom, { s1 with freeCtr := s1.freeCtr + 1 })

/-- An engine takes a trap (R348): the frame is saved, and the handler runs from the cause's vector. -/
def trapEntry (s : State) (j e c : Nat) : State :=
  let (m, s1) := microNow s j e
  let m1 := m.unmask
  updMicro (saveFrame s1 j e m1) j e (fun _ =>
    { m1 with upc := BitVec.ofNat 14 (trapVector c), handler := true, cause := c, pend := m1.pend.filter (fun x => x ≠ c) })

/-- Counts the event lines that a routine pulsed (R344, R468). -/
def tallyEvents (s : State) (eng : Nat) (evts : List Nat) : State :=
  evts.foldl (fun s l => tallyQ s (0x60 + l) (some (eng, 6)) none) s

/-- ROUTINE_TIMEOUT (R355): a routine has run past TO_OTHER_US. -/
def execRoutineTimeout (ch : Fin 48) (s : State) : Out :=
  match (getCh s ch.val).routine.bind (findItem s) with
  | some it =>
    match lapse s ((getLun s it.lun).phaseStart + limitOf (rd s F.chTimeoutToOtherUs ch.val)) with
    | some s1 =>
      let s2 := updLun (routineOff (raiseSeq s1 ch.val 3) ch.val it.lun) it.lun (fun st => { st with halted := true })
      .next (kickBus (endWith s2 it.id .dieTimeout) ch.val)
    | none => .next s
  | none => .next s

end Sys2Proof.Machine
end

