-- ==== Sys2Proof/Machine/DmaCmds.lean ====
section
/-! DEFINITION. The commands of data movement: H_INI read data, write responses and credits, descriptor and list fetches,
staging FIFOs, parity passes and DMA channels (R95, R277–R306, R363–R373). -/

namespace Sys2Proof.Machine

/-! ### Staging FIFOs and DMA channels -/

/-- The front end of a DMA channel is powered and not fenced (R296). -/
def dmaUp (s : State) (d : Nat) : Bool := domUp s (dFe (d / 16)) && !feFenced s (d / 16)

/-- HOST_IN_COMMIT (R300): the last line of a program quarter is in HOST_IN of a channel. -/
def execHostInCommit (ch : Fin 48) (s : State) : Out := .next (hostInCommit s ch.val)

/-- PARITY_PASS_END (R95, R96): the parity passes over a program's pages end; a poisoned line ends the item DMA_FAULT. -/
def execParityPassEnd (id : Nat) (s : State) : Out :=
  match findItem s id with
  | some it =>
    if it.phase = .program ∧ it.stage = .queued ∧ ¬ it.dataReady ∧ dataCommitted it ∧ hasSlots it ∧ ¬ parked s
        ∧ domUp s (dCg (it.lun.ch / 4)) then
      let (poison, s1) := parityPasses s it
      .next (if poison then stopItem s1 id .dmaFault else updItem s1 id (fun i => { i with dataReady := true }))
    else .next s
  | none => .next s

/-- HOST_OUT_THRESHOLD (R302): the packet at HOST_OUT of a channel may begin to move. -/
def execHostOutThreshold (ch : Fin 48) (s : State) : Out := .next (hostOutGo s ch.val)

/-- A ring-mode descriptor's move has ended (R277, R282). -/
def descDone (s : State) (d : Nat) (r : DescRun) : Bool :=
  !r.ended && !descOpen s d && (r.result.isSome || r.moved = descLen r.bytes)

/-- DMA_MOVE_COMPLETE (R277, R281): the last write of a channel's move has left the engine. -/
def execDmaMoveComplete (d : Fin 32) (s : State) : Out :=
  let x := getDma s d.val
  if parked s ∨ ¬ dmaUp s d.val then .next s
  else
    match x.desc, x.cur with
    | some r, _ => if descDone s d.val r then .next (descEnd s d.val r) else .next s
    | none, some e =>
      match findItem s e.item with
      | some it =>
        if x.going ∧ ¬ writesWait s it.id e then
          .next (flushDue (match x.stop with | some st => stopItem s it.id st | none => readMoved s d.val it e) it.lun.ch)
        else .next s
      | none => if x.going then .next (flushAll (entryEnds s d.val)) else .next s
    | none, none => .next s

/-- DMA_CHANNEL_DRAIN_END (R293): a draining channel has nothing in progress. -/
def execDmaChannelDrainEnd (d : Fin 32) (s : State) : Out :=
  if dmaUp s d.val then .next (dcDrained s d.val) else .next s

/-! ### Fetches that return -/

/-- A ring-mode channel stops at its descriptor (R280). -/
def ringStops (s : State) (d : Nat) : State :=
  let s1 := flag1 s F.dcStatusIdleOwn d
  if (getDma s d).kicked then ringKick (wr1 (updDma s1 d (fun x => { x with kicked := false })) F.dcStatusIdleOwn d 0) d else s1

/-- RING_DESC_FETCH_RETURN (R280, R372): the descriptor that a channel fetched arrives. -/
def execRingDescFetchReturn (d : Fin 32) (desc : List Byte) (err poison : Bool) (s : State) : Out :=
  if desc.length ≠ 32 then .fault .illFormed
  else
    match s.hi.reads.find? (fun r => r.use = .descFetch d.val) with
    | none => .next s
    | some r =>
      let s1 := fetchErr (readDone s r) r err
      if err ∨ poison ∨ r.spoilt then
        .next (ringStops (tally (flag1 s1 F.dcStatusBusErrSeen d.val) 0x4e) d.val)
      else if (desc.getD 31 0).getLsbD 7 then .next (if dcState s1 d.val = 3 then descStart s1 d.val desc else s1)
      else .next (ringStops s1 d.val)

/-- Puts the entries of a list that have arrived behind those held, up to the one with END (R289). -/
def takeList (x : DmaSt) (es : List ListEnt) : DmaSt :=
  if x.listEnd then x
  else
    let n := (es.takeWhile (fun e => !e.last)).length
    let got := es.take (n + 1)
    { x with list := x.list ++ got, listRead := x.listRead + es.length, listEnd := got.any (fun e => e.last) }

/-- DESC_LIST_FETCH_RETURN (R289, R290): a piece of an item's descriptor list arrives. -/
def execDescListFetchReturn (d : Fin 32) (es : List (List Byte)) (flaw : FetchFlaw) (s : State) : Out :=
  match s.hi.reads.find? (fun r => match r.use with | .listFetch e _ => e = d.val | _ => false) with
  | none => .next s
  | some r =>
    if 32 * es.length ≠ r.len ∨ es.any (fun e => e.length ≠ 32) then .fault .illFormed
    else
      let s1 := fetchErr (readDone s r) r flaw.err
      match r.use.item.bind (findItem s1), (getDma s1 d.val).cur with
      | some it, some e =>
        if e.item ≠ it.id then .next s1
        else if flaw.err ∨ flaw.poison ∨ r.spoilt then .next (stopItem (tally (flag1 s1 F.dcStatusBusErrSeen d.val) 0x4e) it.id .dmaFault)
        else
          let s2 := runEntry (updDma s1 d.val (fun x => takeList x (es.map parseListEnt))) d.val it e
          .next (if (getDma s2 d.val).cur.isNone then dmaKickAll s2 else s2)
      | _, _ => .next s1

/-! ### Read data (R366–R370) -/

/-- The bytes of beat `k` of a read that lie in its range, with one poison flag per 64-byte line they touch. -/
def beatPart (r : HiReq) (k : Nat) (data : List Byte) (poison : BitVec 16) : List Byte × List Bool :=
  let base := (r.addr / 128 + k) * 128
  let lo := max r.addr base - base
  let hi := min (r.addr + r.len) (base + 128) - base
  (slice data lo (hi - lo),
   ((List.range 2).filter (fun i => lo < 64 * (i + 1) && 64 * i < hi)).map (fun i =>
     (List.range 8).any (fun j => poison.getLsbD (8 * i + j))))

/-- A read leaves the list of those outstanding; its data keeps its place in the burst buffer until it is moved on. -/
def readOff (s : State) (r : HiReq) : State := { s with hi := { s.hi with reads := s.hi.reads.erase r } }

/-- A fetch whose last beat has arrived keeps its place until the command that carries its content. -/
def readHeld (s : State) (r : HiReq) : State :=
  { s with hi := { s.hi with reads := s.hi.reads.map (fun q => if q = r then { r with done := true } else q) } }

/-- What a read whose last beat has arrived does (R291, R282, R283). A fetch waits for the command that carries its
content. -/
def readArrived (s : State) (r : HiReq) : State :=
  match r.use with
  | .progData d item page q off =>
    let s1 := readOff s r
    match findItem s1 item with
    | some _ =>
      if r.err then hiPump (progFailed s1 d item)
      else hiPump (progStops (hostInTake (updDma s1 d (fun x => { x with inBuf := x.inBuf ++ [(off, r.data, r.poison)] })) d)
        d ⟨item, page, q⟩)
    | none => hiPump s1
  | .ringRead d _ off =>
    let s1 := readOff s r
    match (getDma s1 d).desc with
    | some x =>
      if r.err then hiPump (descFail s1 d)
      else hiPump (descDrain (updDma s1 d (fun y => { y with desc := some { x with got := x.got ++ [(off, r.data, r.poison)] } })) d
        (x.got.length + 1))
    | none => hiPump s1
  | .dropped => readDone s r
  | .fetchDropped k => let s1 := readDone s r; if r.spoilt then flag1 s1 F.ringStatusFetchErr k else s1
  | _ => hiPump (readHeld s r)

/-- Reads whose bytes that have arrived become free. -/
def spoiled : List HiReq → State → List HiReq × State
  | [], s => ([], s)
  | r :: q, s =>
    let (d, s1) := freeBytes s r.data.length
    let (rs, s2) := spoiled q s1
    ({ r with data := d } :: rs, s2)

/-- What a fabric that breaks R370 may do to the reads outstanding (R373): by a free bit nothing, or the bytes that have
arrived for them become free. (DESIGN CHOICE, log entry 11.) -/
def hiSpoil (s : State) : State :=
  let (b, s1) := freeBit s
  if b then
    let (rs, s2) := spoiled s1.hi.reads s1
    { s2 with hi := { s2.hi with reads := rs } }
  else s1

/-- A read whose last beat arrived with another count than LEN + 1 (R373): its bytes and their poison are free. -/
def wrongBeats (s : State) (r : HiReq) : HiReq × State :=
  let (d, s1) := freeBytes s r.len
  let (w, s2) := freeWord s1
  ({ r with data := d, poison := (List.range (ceilDiv (r.addr % 64 + r.len) 64)).map w.getLsbD }, s2)

/-- HI_READ_DATA_BEAT (R367, R368, R373): a beat of an outstanding read arrives. -/
def execHiReadDataBeat (id : BitVec 10) (data : List Byte) (poison : BitVec 16) (err : BitVec 2) (last : Bool) (s : State) : Out :=
  if data.length ≠ 128 then .fault .illFormed
  else
    match s.hi.reads.find? (fun r => r.id = id.toNat && !r.done) with
    | none => .next (hiSpoil s)
    | some r =>
      let (b, ps) := beatPart r r.beats data poison
      let r1 := { r with data := r.data ++ b, poison := r.poison ++ (if err = 0 then ps else ps.map (fun _ => false)),
                         beats := r.beats + 1, err := r.err || err ≠ 0 }
      let s1 := { s with hi := { s.hi with reads := s.hi.reads.map (fun q => if q = r then r1 else q) } }
      let s2 := if err ≠ 0 then hiLogErr s1 id.toNat err.toNat 0 else s1
      if last then
        if r1.beats = r.beatCount then .next (readArrived s2 r1)
        else
          let (r2, s3) := wrongBeats s2 r1
          .next (readArrived { s3 with hi := { s3.hi with reads := s3.hi.reads.map (fun q => if q = r1 then r2 else q) } } r2)
      else .next s2

/-- What a write response does (R51, R277, R282, R292). -/
def writeAnswered (s : State) (r : HiReq) (err : Bool) : State :=
  match r.use with
  | .receipt k slot item => receiptAck s k slot item (bit err)
  | .readData d item page q tag pair => if err then readWriteFailed s d item page q tag pair else s
  | .descBack d idx => if err then lateRing s d idx else s
  | .ringWrite d idx =>
    if err then (if (getDma s d).desc.isSome ∧ dcHead s d = idx then descFail s d else lateRing s d idx) else s
  | .ringLate d idx => if err then lateRing s d idx else s
  | _ => s

/-- The response of an outstanding write arrives. -/
def writeResponse (s : State) (r : HiReq) (err : BitVec 2) : State :=
  let s1 := { s with hi := { s.hi with writes := s.hi.writes.erase r } }
  writeAnswered (if err = 0 then s1 else hiLogErr s1 r.id err.toNat 1) r (err ≠ 0)

/-- HI_WRITE_RESPONSE (R368, R373): the response of the oldest outstanding write with an ID arrives. One whose ID has no
write outstanding is by a free bit ignored, or taken as that of the oldest write. (DESIGN CHOICE, log entry 11.) -/
def execHiWriteResponse (id : BitVec 10) (err : BitVec 2) (s : State) : Out :=
  match s.hi.writes.find? (fun r => r.id = id.toNat) with
  | some r => .next (writeResponse s r err)
  | none =>
    let (b, s1) := freeBit s
    .next (match s1.hi.writes with | r :: _ => if b then writeResponse s1 r err else s1 | [] => s1)

/-- A credit count after a return; one beyond the limit of R370 is free (R373). (DESIGN CHOICE, log entry 11.) -/
def addCredit (s : State) (old n : Nat) : Nat × State :=
  if old + n ≤ 255 then (old + n, s) else let (w, s1) := freeWord s; (w.toNat % 256, s1)

/-- HI_CREDIT_RETURN (R364, R370, R373): credits are added, and requests that waited for them are issued. -/
def execHiCreditReturn (rd wr : BitVec 2) (s : State) : Out :=
  if !domUp s dHk then .next s
  else
    let (r, s1) := addCredit s s.hi.rdCred rd.toNat
    let (w, s2) := addCredit s1 s1.hi.wrCred wr.toNat
    .next (hiPump { s2 with hi := { s2.hi with rdCred := r, wrCred := w } })

end Sys2Proof.Machine
end

