-- ==== Sys2Proof/Machine/Channel.lean ====
section
/-! DEFINITION. Channels and their groups: enabling, fencing and draining a channel (R201–R205), the loss of a channel
(R168, R500), the inert state (R166, R167), and group bring-up (R157–R164). -/

namespace Sys2Proof.Machine

/-! ### Groups -/

/-- The channels of a group. -/
def chansOf (g : Nat) : List Nat := (List.range 4).map (fun c => 4 * g + c)

def busState (s : State) (ch : Nat) : Nat := rd s F.chBusStatusBusState ch
def setBusState (s : State) (ch n : Nat) : State := wr1 s F.chBusStatusBusState ch n

/-- BUS_STATE is TRAINED. -/
def trained (s : State) (ch : Nat) : Bool := busState s ch = 3

/-- A channel counts as enabled (R201). -/
def countsEnabled (s : State) (ch : Nat) : Bool := rdB s F.chCtlEnable ch || rd s F.chCtlState ch ≠ 2

/-- SUPPLY_OK of VDDQ_CGk (R405). -/
def vddqOk (s : State) (g : Nat) : Bool := s.power.supply.getLsbD (5 + g)

/-! ### Calibration runs that lose their channels (R452) -/

/-- Begins what waits on the four buses of a group. -/
def kickGroup (s : State) (g : Nat) : State := (chansOf g).foldl (fun s ch => kickBus (issueOrdered s ch) ch) s

/-- A channel is disabled or fenced before the boundary of its group's run: it takes no part. -/
def leavesRun (s : State) (ch : Nat) : State :=
  updGroup s (ch / 4) (fun g =>
    if g.calPending && rd s F.calGrpStatusState (ch / 4) ≠ 3 then { g with calOut := if ch ∈ g.calOut then g.calOut else g.calOut ++ [ch] }
    else g)

/-- Channels that take part in a pending run (R447, R452). -/
def runChans (s : State) (g : Nat) : List Nat := (chansOf g).filter (fun ch => trained s ch && !(ch ∈ (getGroup s g).calOut))

/-- A pending run that has lost every channel is dropped (R452): its CALIBRATE items end, CHANNEL_FENCED if no channel of
the group is TRAINED (R455). -/
def dropEmptyRun (s : State) (g : Nat) : State :=
  let x := getGroup s g
  if x.calPending && rd s F.calGrpStatusState g ≠ 3 && (runChans s g).isEmpty && x.bringup.isNone then
    let s1 := updGroup (setCalState s g 0) g (fun x => { x with calPending := false, calItems := [], calOut := [] })
    kickGroup (if (chansOf g).any (trained s) then endAll s1 x.calItems .ok else endAll s1 x.calItems .channelFenced) g
  else s

/-- A pending or running run is abandoned by the loss of its group (R452). -/
def abandonAny (s : State) (g : Nat) : State :=
  if (getGroup s g).calPending ∨ rd s F.calGrpStatusState g = 3 then abandonRun (setCalState s g 3) g
  else setCalState s g 0

/-- A pending trigger is dropped when a new INIT starts (R447). -/
def dropTrigger (s : State) (g : Nat) : State :=
  let x := getGroup s g
  if x.calPending ∧ rd s F.calGrpStatusState g ≠ 3 then
    endAll (updGroup (setCalState s g 0) g (fun x => { x with calPending := false, calItems := [], calOut := [] }))
      x.calItems .ok
  else s

/-! ### CHANNEL_CTL items that wait (R204) -/

/-- The channels that a CHANNEL_CTL item acts on. -/
def ctlChans (p : Packet) : List Nat :=
  let a := p.opByte 8
  if a = 3 ∨ a = 4 ∨ (p.opByte 9 % 2 = 1 ∧ (a = 1 ∨ a = 2)) then chansOf (p.channel.toNat / 4) else [p.channel.toNat]

/-- How a CHANNEL_CTL item that was carried out ends now, if it ends (R204). -/
def ctlEnd (s : State) (it : Item) : Option Status :=
  let cs := ctlChans it.pkt
  match it.pkt.opByte 8 with
  | 1 =>
    if cs.any (fun c => rd s F.chCtlState c ≠ 3 && !(rd s F.chCtlState c = 1 && rdB s F.chCtlPending c)) then some .channelFenced
    else if cs.all (chEnabled s) then some .ok
    else none
  | 2 | 3 => if cs.all (fun c => rd s F.chCtlState c = 2) then some .ok else none
  | _ => some .ok

/-- Ends those of some CHANNEL_CTL items of a group whose condition has come. -/
def ctlSettleOf (s : State) (g : Nat) (p : Item → Bool) : State :=
  (s.items.filter (fun it => it.stage = .group && it.pkt.op = 0x17 && it.pkt.channel.toNat / 4 = g && p it)).foldl
    (fun s it => match ctlEnd s it with | some st => endWith s it.id st | none => s) s

/-- Ends the CHANNEL_CTL items of a group whose condition has come. -/
def ctlSettle (s : State) (g : Nat) : State := ctlSettleOf s g (fun _ => true)

/-! ### STATE of a channel (R202, R203) -/

/-- An item of a channel that has not launched: in its LUN queue, or held by its teller (R171). -/
def unlaunched (ch : Nat) (it : Item) : Bool :=
  it.lun.ch = ch && !it.launched && (it.stage = .queued || it.stage = .waitStore)

/-- STATE becomes DRAINING: every unlaunched item ends CHANNEL_FENCED, an unlaunched patrol read is dropped. -/
def startDrain (s : State) (ch : Nat) : State :=
  let ids := (s.items.filter (unlaunched ch)).map (fun it => it.id)
  ids.foldl (fun s id => stopItem s id .channelFenced) (leavesRun (wr1 (wr1 (raiseSeq s ch 6) F.chCtlState ch 1) F.chCtlPending ch 0) ch)

/-- A launched item of a channel: it has not ended; a patrol read and the relocation that follows it count. -/
def drainsFor (ch : Nat) (it : Item) : Bool :=
  it.lun.ch = ch && (it.launched || (it.isPatrol && it.second))

/-- ENABLE written 1 (R202, R165), by a register write or a CHANNEL_CTL item (R204): refused during the transition to READY
(R433). -/
def enableCh (s : State) (ch : Nat) : State :=
  if s.power.phase = some .toReadyDrain then flag1 s F.chBusStatusEnRefused ch
  else match rd s F.chCtlState ch with
  | 2 =>
    if cgFenced s (ch / 4) then wr1 s F.chCtlEnable ch 1
    else if trained s ch then wr1 (wr1 s F.chCtlEnable ch 1) F.chCtlState ch 3
    else flag1 (wr1 s F.chCtlEnable ch 0) F.chBusStatusEnRefused ch
  | 1 =>
    if cgFenced s (ch / 4) then wr1 s F.chCtlEnable ch 1
    else wr1 (wr1 s F.chCtlEnable ch 1) F.chCtlPending ch 1
  | _ => wr1 s F.chCtlEnable ch 1

/-- ENABLE written 0 (R202, R203). -/
def disableCh (s : State) (ch : Nat) : State :=
  match rd s F.chCtlState ch with
  | 3 => startDrain (wr1 s F.chCtlEnable ch 0) ch
  | 1 => wr1 (wr1 s F.chCtlEnable ch 0) F.chCtlPending ch 0
  | _ => if rdB s F.chCtlEnable ch then leavesRun (wr1 s F.chCtlEnable ch 0) ch else s

/-- The group fence is set (R202): ENABLE keeps its value, but for a channel whose enable waits. -/
def fenceCh (s : State) (ch : Nat) : State :=
  match rd s F.chCtlState ch with
  | 3 => startDrain s ch
  | 1 => if rdB s F.chCtlPending ch then wr1 (wr1 s F.chCtlEnable ch 0) F.chCtlPending ch 0 else s
  | _ => leavesRun s ch

/-- The group fence clears (R202). (DEDUCED, log entry 25.) -/
def unfenceCh (s : State) (ch : Nat) : State :=
  if rd s F.chCtlState ch = 2 ∧ rdB s F.chCtlEnable ch then
    if trained s ch then wr1 s F.chCtlState ch 3 else flag1 (wr1 s F.chCtlEnable ch 0) F.chBusStatusEnRefused ch
  else s

/-- What follows a change of the STATE of a group's channels: CHANNEL_CTL items end, an empty run is dropped. -/
def chSettle (s : State) (g : Nat) : State := dropEmptyRun (ctlSettle s g) g

/-- CG_FENCE takes a value (R202). -/
def setFence (s : State) (g : Nat) (on : Bool) : State :=
  if on = cgFenced s g then s
  else
    let s1 := wr1 s F.cgFenceFence (4 * g) (bit on)
    chSettle ((chansOf g).foldl (if on then fenceCh else unfenceCh) s1) g

/-- A DRAINING channel has no launched item left (R202): it is READY, which ends the items that wait for READY (R204), and
then ENABLED at once if an enable waits. -/
def drainEnd (s : State) (ch : Nat) : State :=
  if rd s F.chCtlState ch = 1 ∧ ¬ s.items.any (drainsFor ch) then
    let s1 := ctlSettleOf (wr1 s F.chCtlState ch 2) (ch / 4) (fun it => it.pkt.opByte 8 ≠ 1)
    let s2 := if rdB s F.chCtlPending ch then wr1 s1 F.chCtlState ch 3 else s1
    chSettle (wr1 s2 F.chCtlPending ch 0) (ch / 4)
  else s

/-- CHANNEL_DRAIN_END (R202). -/
def execChannelDrainEnd (ch : Fin 48) (s : State) : Out := .next (drainEnd s ch.val)

/-- A CHANNEL_CTL item of actions 0x00 to 0x04, or of an unknown action, is carried out (R204). -/
def ctlBegin (s : State) (it : Item) : State :=
  let g := it.pkt.channel.toNat / 4
  if ¬ domUp s (dCg g) then endWith s it.id .channelFenced
  else
    let s1 := updItem s it.id (fun i => { i with stage := .group })
    let cs := ctlChans it.pkt
    match it.pkt.opByte 8 with
    | 1 => chSettle (cs.foldl enableCh s1) g
    | 2 => chSettle (cs.foldl disableCh s1) g
    | 3 => ctlSettle (setFence s1 g true) g
    | 4 => ctlSettle (setFence s1 g false) g
    | _ => endItem s1 it.id

/-! ### The loss of a channel (R168, R423, R500) -/

/-- The tenure on a channel's bus is cut off: a data-out's packet in FLASH_IN is closed as discarded (R303), and a program's
image in FLASH_OUT is discarded (R301). -/
def cutTenure (s : State) (ch : Nat) : State :=
  match (getCh s ch).bus with
  | some t =>
    match t.kind, t.item.bind (findItem s) with
    | .dataOut, some it => (cutData s ch it).2
    | .dataOut, none => tally (wr s F.chFifoStatDiscarded ch 2 0 1) 0x51
    | .launch, _ => dropFlashOut s ch
    | _, _ => s
  | none => s

/-- The item is a read whose first transfer has ended: its data is in a bank (R500). -/
def inBank (it : Item) : Bool := it.xferDone && it.sense ≠ .margin && !it.second && (opSense it.pkt.op || it.pkt.op = 8)

/-- How an item of a lost channel goes on (R500): a read with data in a bank ends once its quarters are delivered, at
once for those that need the channel again; every other item ends CHANNEL_FENCED. -/
def loseItem (s : State) (id : Nat) : State :=
  match findItem s id with
  | none => s
  | some it =>
    if it.isPatrol then stopItem s id .channelFenced
    else if inBank it then
      let s1 := updItem s id (fun i => { i with lost := true })
      match it.stage with
      | .launch | .sense | .needXfer | .xfer | .needSense => giveUp s1 { it with lost := true } (some .channelFenced)
      | _ => s1
    else stopItem s id .channelFenced

/-- Items that a loss of the channel touches: those with a LUN of it that are not yet composed or waiting elsewhere. -/
def onChannel (ch : Nat) (it : Item) : Bool :=
  it.lun.ch = ch && (it.pkt.usesQueue || it.isPatrol) && it.stage ≠ .forwarded

/-- The LUN as the loss of its channel leaves it: HALTED and RESET_DUE are kept, nothing else. -/
def lunLost (st : LunSt) : LunSt := { halted := st.halted, resetDue := st.resetDue }

/-- A channel's bus and LUNs as its loss leaves them. -/
def clearChannel (s : State) (ch : Nat) : State :=
  { s with luns := s.luns.map (fun e => if e.1.ch = ch then (e.1, lunLost e.2) else e),
           chans := Tab.set s.chans ch {},
           ledger := { s.ledger with coins := s.ledger.coins.filter (fun c => c.lun.ch ≠ ch),
                                     asks := s.ledger.asks.filter (fun a => a.lun.ch ≠ ch) } }

/-- A channel is lost without quiesce (R500): its items, bus, LUNs and coins, and CH_CTL (R202). -/
def loseChannel (s : State) (ch : Nat) : State :=
  let ids := (s.items.filter (onChannel ch)).map (fun it => it.id)
  let s1 := clearChannel (cutTenure s ch) ch
  let s2 := ids.foldl loseItem s1
  let s3 := if rd s F.chCtlState ch = 3 then raiseSeq s2 ch 6 else s2
  wr1 (wr1 (wr1 s3 F.chCtlState ch 2) F.chCtlEnable ch 0) F.chCtlPending ch 0

/-- The group's channels become inert with its bring-up ended (R161, R166, R168, R423); `flag` sets VDDQ_LOST on each
that was not INERT. -/
def groupInert (s : State) (g : Nat) (flag : Bool) : State :=
  let s1 := (chansOf g).foldl (fun s ch =>
    let s1 := if flag ∧ busState s ch ≠ 0 then flag1 s F.chBusStatusVddqLost ch else s
    setBusState s1 ch 0) s
  let s2 := wr1 (wr1 (wr1 s1 F.cgPhyInit (4 * g) 0) F.cgPhyPllReady (4 * g) 0) F.cgPhyXrActive (4 * g) 0
  updGroup s2 g (fun x => { x with bringup := none, stopped := false, pll := false })

/-- A group is lost (R168, R423, R500). -/
def loseGroup (s : State) (g : Nat) (flag : Bool) : State :=
  chSettle ((chansOf g).foldl loseChannel (groupInert (abandonAny s g) g flag)) g

/-- SUPPLY_OK of a supply takes a value. -/
def setSupply (s : State) (j : Nat) (v : Bool) : State :=
  let w := s.power.supply
  { s with power := { s.power with supply := if v then w ||| (1#17 <<< j) else w &&& ~~~(1#17 <<< j) } }

/-- A boot load uses the group (R437). -/
def bootUses (s : State) (g : Nat) : Bool := s.power.bootGroup && (bootChannel s).map (fun ch => ch / 4) = some g

/-- SUPPLY_OK of VDDQ_CGk falls (R168): a boot load on the group can read no more. -/
def vddqFalls (s : State) (g : Nat) : State :=
  let s0 := setSupply s (5 + g) false
  let s1 := if bootUses s g then { s0 with boot := { s0.boot with vddqAt := none, upAt := none } } else s0
  if domUp s (dCg g) then loseGroup s1 g true else s1

/-- VDDQ_LOSS (R168). -/
def execVddqLoss (g : Fin 12) (s : State) : Out := .next (vddqFalls s g.val)

/-! ### The inert state (R166, R167) -/

/-- A channel is inert (R166). -/
def channelInert (s : State) (ch : Nat) : Bool :=
  s.power.poreset || rdB s F.cgPhyInert (ch / 4 * 4) || busState s ch = 0 || !vddqOk s (ch / 4) || !domUp s (dCg (ch / 4))

/-- The pins of a channel leave the inert state (R167). -/
def pinsUp : List BusCyc := [.drive .selects, .wait 100, .drive .strobes, .wait 100]

/-- The pins of a channel return to the inert state (R167). -/
def pinsDown : List BusCyc := [.release .data, .release .strobes, .drive .selects, .wait 100, .release .selects]

/-- The channels of a group that are not inert return to the inert state in order (R167). -/
def inertReturn (s : State) (g : Nat) : State :=
  let s1 := (chansOf g).foldl (fun s ch => if channelInert s ch then s else deselect s ch pinsDown) s
  groupInert (wr1 s1 F.cgPhyInert (4 * g) 1) g false

/-- A write of 1 to INERT. -/
def inertOn (s : State) (g : Nat) : State :=
  if (chansOf g).any (countsEnabled s) ∨ (getGroup s g).bringup.isSome then flag1 s F.cgPhyInitRefused (4 * g)
  else if rdB s F.cgPhyInert (4 * g) then s
  else chSettle (inertReturn s g) g

/-! ### Bring-up (R157–R164) -/

/-- Chip enables of a channel that still take part. -/
def cesOf (s : State) (ch : Nat) : List Nat :=
  (List.range 16).filter (fun k => bitOf (rd s F.chBusCtlCePresent ch) k && !bitOf (rd s F.chBusStatusCeFailed ch) k)

/-- MODE, BASE_RATE, XR_REQ and XR_RATE form a permitted combination (R143). -/
def rateOk (s : State) (g : Nat) : Bool :=
  let c := 4 * g
  let b := rd s F.cgPhyBaseRate c
  match rd s F.cgPhyMode c with
  | 1 | 2 => 1 ≤ b && b ≤ 8 && !rdB s F.cgPhyXrReq c
  | 3 => 8 ≤ b && b ≤ 36 && (!rdB s F.cgPhyXrReq c || (37 ≤ rd s F.cgPhyXrRate c && rd s F.cgPhyXrRate c ≤ 48))
  | _ => false

/-- An INIT is refused (R157, R357, R437). -/
def initRefused (s : State) (g : Nat) : Bool :=
  (chansOf g).any (countsEnabled s) || !vddqOk s g || (getGroup s g).bringup.isSome || rdB s F.mcCtlWriteEn g || bootUses s g
    || (!rdB s F.cgPhyStopAtId (4 * g) && !rateOk s g)

/-- An INIT resumes a bring-up that ended at STOP_AT_ID (R159). -/
def initResumes (s : State) (g : Nat) : Bool :=
  let part := (chansOf g).filter (fun ch => rd s F.chBusCtlCePresent ch ≠ 0)
  (getGroup s g).stopped && !rdB s F.cgPhyStopAtId (4 * g)
    && part.all (fun ch => busState s ch = 2 || busState s ch = 4) && part.any (fun ch => busState s ch = 2)

/-- The refusal code that a chip enable's descriptor gives before any write (R162–R164); 0 for none. -/
def xrCode (s : State) (ch k : Nat) : Nat :=
  let g := ch / 4 * 4
  let o := rd s F.cgPhyXrDescOfs g
  let b := fun i => ppageByte s ch k (o + i)
  if o = 0 ∨ 248 < o then 1
  else if b 0 ≠ 0x4f ∨ b 1 ≠ 0x58 ∨ b 2 ≠ 0x01 then 2
  else if ((List.range 8).foldl (fun a i => a + b i) 0) % 256 ≠ 0 then 3
  else if b 4 < rd s F.cgPhyXrRate g then 4
  else 0

/-- The first refusal code over the chip enables taking part, in the order of R164. -/
def xrFirst (s : State) (part : List Nat) : Nat :=
  part.foldl (fun a ch => (cesOf s ch).foldl (fun a k => if a = 0 then xrCode s ch k else a) a) 0

/-- Steps: 1 to 0xC of R158; within 0xC, 0xC writes the extended-rate feature, 0xD sets the PLL, and 0xE to 0x10 repeat
0x8 to 0xA (R163). A step that each chip enable takes. -/
def ceStep (n : Nat) : Bool := n ≠ 1 && n ≠ 6 && n ≠ 0xd

/-- The step that FAIL_STEP names. (DEDUCED, log entry 42.) -/
def stepName (n : Nat) : Nat := if 0xe ≤ n then n - 6 else if n = 0xd then 0xc else n

/-- Steps taken only in NV-DDR3 and NV-LPDDR4 (R158). -/
def stepSkipped (s : State) (g n : Nat) : Bool := rd s F.cgPhyMode (4 * g) = 1 && (n = 8 || n = 0xa || n = 0xe || n = 0x10)

/-- The bring-up ends after step `n` (R158): each channel taking part takes its BUS_STATE, INIT reads 0, REF_TEMP is set at
step 0xB or in step 0xC (R445), the buses have carried its tenures until now (R448), and a calibration run that waited for
a TRAINED channel in vain is dropped (R447). -/
def bringupDone (s : State) (g : Nat) (state : Nat → Nat) (n : Nat) : State :=
  match (getGroup s g).bringup with
  | none => s
  | some b =>
    let s1 := b.part.foldl (fun s ch => setBusState (ceHigh s ch) ch (state ch)) s
    let s2 := updGroup (wr1 s1 F.cgPhyInit (4 * g) 0) g (fun x => { x with bringup := none, stopped := n = 4, freeSince := s.clk })
    dropEmptyRun (if 0xb ≤ n then wr1 s2 F.calGrpStatusRefTemp g (rd s2 F.calGrpStatusTemp g) else s2) g

/-- BUS_STATE at the end of a bring-up: TRAINED, or FAILED without a chip enable or by the retraining (R158, R163). -/
def endState (s : State) (b : Bringup) (ch : Nat) : Nat := if (cesOf s ch).isEmpty ∨ ch ∈ b.xrFail then 4 else 3

/-- The bring-up ends with or after its last step. -/
def bringupEnds (s : State) (g : Nat) (b : Bringup) : State := bringupDone s g (endState s b) (max 0xb b.step)

/-- The chip enables that each channel still has to take through a step. -/
def stepLeft (s : State) (b : Bringup) (n : Nat) : List (Nat × List Nat) :=
  if ceStep n then (b.part.map (fun ch => (ch, cesOf s ch))).filter (fun e => !e.2.isEmpty)
  else if n = 1 then b.part.map (fun ch => (ch, [0]))
  else [(4 * 12, [0])]

/-! ### What a bring-up sends (R158, R163) -/

/-- The feature writes of CH_BRING_FEAT with one value of AFTER, in index order (R158). -/
def bringFeats (s : State) (ch : Nat) (after : Bool) : List BusCyc :=
  (List.range 4).flatMap (fun i =>
    let b := fun f => BitVec.ofNat 8 (rd s f ch i)
    let ps := [b F.chBringFeatP1, b F.chBringFeatP2, b F.chBringFeatP3, b F.chBringFeatP4]
    let fa := rd s F.chBringFeatFa ch i
    if rdB s F.chBringFeatValid ch i && rdB s F.chBringFeatAfter ch i = after then
      if rdB s F.chBringFeatLunForm ch i then
        (List.range (2 ^ rd s F.chBusCtlLunLog2 ch)).flatMap (fun l => setFeature (some l) fa ps ++ [.pollRdy])
      else setFeature none fa ps ++ [.pollRdy]
    else [])

/-- Byte `i` of the extended-rate descriptor of a chip enable (R162). -/
def xrDesc (s : State) (ch k i : Nat) : Nat := ppageByte s ch k (rd s F.cgPhyXrDescOfs (ch / 4 * 4) + i)

/-- The write of the extended-rate feature and its read-back (R163). -/
def xrEnter (s : State) (ch k : Nat) : List BusCyc :=
  let fa := xrDesc s ch k 3
  setFeature none fa [BitVec.ofNat 8 (rd s F.cgPhyXrRate (ch / 4 * 4)), BitVec.ofNat 8 (xrDesc s ch k 5), 0, 0]
    ++ [.pollRdy] ++ getFeature none fa ++ [.pollRdy, .cmd 0x00, .output 4]

/-- An exit write (R163). -/
def xrExit (s : State) (ch k : Nat) : List BusCyc := setFeature none (xrDesc s ch k 3) [0, 0, 0, 0] ++ [.pollRdy]

/-- The bus cycles of a step on a chip enable of a channel (R158, R163), each until the die is ready. The trainings follow
the standards, which give their bytes; ZQ calibration long goes to every LUN of the chip enable.
(DESIGN CHOICE, log entry 123.) -/
def stepCycles (s : State) (ch k n : Nat) : List BusCyc :=
  match n with
  | 2 => [.cmd 0xff, .pollRdy]
  | 3 => [.cmd 0x90, .addr 0x00, .output 8]
  | 4 => [.cmd 0xec, .addr 0x00, .pollRdy, .output 256]
  | 5 => bringFeats s ch false ++ setFeature none (rd s F.cgPhyTmFa (ch / 4 * 4)) [BitVec.ofNat 8 (rd s F.cgPhyTmP1 (ch / 4 * 4)), 0, 0, 0]
      ++ [.pollRdy]
  | 7 => (List.range (2 ^ rd s F.chBusCtlLunLog2 ch)).flatMap (fun l => [.cmd 0xf9, .addr (BitVec.ofNat 8 l), .pollRdy])
  | 8 | 0xe => [StdUse.dutyTrain.cyc]
  | 9 | 0xf => [StdUse.readTrain.cyc]
  | 0xa | 0x10 => [StdUse.writeTrain.cyc]
  | 0xb => bringFeats s ch true
  | 0xc => xrEnter s ch k
  | _ => []

/-- The bring-up of a boot load on CE0 of the boot channel (R167, R332): INERT clears, the pins leave the inert state, and
steps 0x2 to 0x4 are sent. BUS_STATE is BRINGUP until the load ends. (DEDUCED, log entry 37.) -/
def bootOpens (s : State) (g : Nat) : State :=
  let ch := 4 * g
  let s0 := setBusState (wr1 s F.cgPhyInert ch 0) ch 1
  let s1 := { s0 with boot := { s0.boot with upAt := some s.clk, vddqAt := if vddqOk s g then some s.clk else none } }
  updCh s1 ch (fun c => { c with
    ce := some 0, sent := pinsUp ++ [.select (some 0)] ++ [2, 3, 4].flatMap (stepCycles s ch 0) })

/-- The largest settle time that the descriptors of a group's chip enables give, in ns (R162, R163). -/
def settleNs (s : State) (b : Bringup) : Nat :=
  1000 * b.part.foldl (fun m ch => (cesOf s ch).foldl (fun m k => max m (xrDesc s ch k 6)) m) 0

/-- The chip enable that a channel takes through the step now sends the step's cycles. -/
def stepSends (s : State) (n : Nat) (e : Nat × List Nat) : State :=
  match e.2 with
  | k :: _ => if ceStep n then sendOn s e.1 k (stepCycles s e.1 k n) else s
  | [] => s

/-- What the channels send as a step begins: leaving the inert state at step 0x1, nothing on the bus but the settle time
before the PLL is set for XR_RATE, else each channel's first chip enable (R158, R163, R167). -/
def stepOut (s : State) (b : Bringup) (n : Nat) : State :=
  match n with
  | 1 => b.part.foldl (fun s ch =>
      if busState s ch = 0 then setBusState (updCh s ch (fun c => { c.raiseCe s.clk with sent := pinsUp })) ch 1 else deselect s ch []) s
  | 0xd => b.part.foldl (fun s ch => deselect s ch [.wait (settleNs s b)]) s
  | _ => (stepLeft s b n).foldl (fun s e => stepSends s n e) s

/-- The exit writes of a read-back mismatch: to every chip enable already written (R163). -/
def exitWrites (s : State) (b : Bringup) : State :=
  b.part.foldl (fun s ch =>
    let after := ((b.left.find? (fun e => e.1 = ch)).map (fun e => e.2.drop 1)).getD []
    ((cesOf s ch).filter (fun k => !(after.contains k))).foldl (fun s k => sendMoreOn s ch k (xrExit s ch k)) s) s

/-- Step `n` begins, unless PWR_WARN (R161) or the parked core clock (R420) pauses the bring-up: step 0x1 clears INERT, and
the channels that were inert become BRINGUP (R167); steps 0x6 and 0xD set the PLL, which runs from step 0x6 (R416); step
0xC first checks the descriptors (R163). -/
def stepBegin (s : State) (g : Nat) (b : Bringup) (n : Nat) : State :=
  let put := fun s (b : Bringup) => updGroup s g (fun x => { x with bringup := some b })
  if warn s ∨ parked s then put s { b with step := n, left := [], paused := true }
  else
    let b1 := { b with step := n, left := stepLeft s b n, paused := false }
    match n with
    | 1 => put (stepOut (wr1 s F.cgPhyInert (4 * g) 0) b1 n) b1
    | 6 | 0xd =>
      put (stepOut (updGroup (wr1 s F.cgPhyPllReady (4 * g) 0) g (fun x => { x with pll := true })) b1 n) b1
    | 0xc =>
      let code := xrFirst s b.part
      if code ≠ 0 then bringupEnds (put (wr1 s F.cgPhyXrRefused (4 * g) code) b1) g b else put (stepOut s b1 n) b1
    | _ => put (stepOut s b1 n) b1

/-- The step after step `n`; none at the end. -/
def stepAfter (s : State) (g n : Nat) : Option Nat :=
  if n = 4 ∧ rdB s F.cgPhyStopAtId (4 * g) then none
  else if n = 0xb ∧ ¬ rdB s F.cgPhyXrReq (4 * g) then none
  else if n = 0x10 then none
  else some (n + 1)

/-- What ends a bring-up after step `n`. -/
def bringupFinish (s : State) (g : Nat) (b : Bringup) (n : Nat) : State :=
  if n = 4 then bringupDone s g (fun ch => if (cesOf s ch).isEmpty then 4 else 2) 4
  else if n = 0x10 then
    bringupEnds (if b.xrFail.isEmpty then wr1 s F.cgPhyXrActive (4 * g) 1 else wr1 s F.cgPhyXrRefused (4 * g) 6) g b
  else bringupEnds s g b

/-- Goes on to the next step that is taken; steps that no chip enable takes pass at once. -/
def stepGo (s : State) (g : Nat) (b : Bringup) : Nat → Nat → State
  | 0, _ => s
  | fuel + 1, n =>
    match stepAfter s g n with
    | none => bringupFinish s g b n
    | some m =>
      if stepSkipped s g m then stepGo s g b fuel m
      else
        let s1 := stepBegin s g b m
        match (getGroup s1 g).bringup with
        | some b1 => if b1.left.isEmpty ∧ ¬ b1.paused then stepGo s1 g b1 fuel m else s1
        | none => s1

/-- A paused bring-up goes on when PWR_WARN falls (R161), or when the core clock leaves the AON clock (R420). -/
def bringupResume (s : State) (g : Nat) : State :=
  match (getGroup s g).bringup with
  | some b =>
    if b.paused then
      let s1 := stepBegin s g b b.step
      match (getGroup s1 g).bringup with
      | some b1 => if b1.left.isEmpty ∧ ¬ b1.paused then stepGo s1 g b1 18 b.step else s1
      | none => s1
    else s
  | none => s

/-- INIT starts or resumes a bring-up, or is refused (R157, R159); the fields of the same write hold already. A channel
that is inert becomes BRINGUP when step 0x1 begins (R167); a bring-up in which no channel takes part ends at once.
(DEDUCED, log entry 115.) (DESIGN CHOICE, log entry 122.) -/
def initStart (s : State) (g : Nat) : State :=
  if initRefused s g then flag1 s F.cgPhyInitRefused (4 * g)
  else
    let res := initResumes s g
    let part := (chansOf g).filter (fun ch => if res then busState s ch = 2 else rd s F.chBusCtlCePresent ch ≠ 0)
    let s1 := wr1 (wr1 s F.cgPhyInit (4 * g) 1) F.cgPhyXrRefused (4 * g) 0
    let s2 := part.foldl (fun s ch =>
      let s1 := if busState s ch = 0 then s else setBusState s ch 1
      if res then s1 else wr1 (wr1 (wr1 s1 F.chBusStatusCeFailed ch 0) F.chBusStatusFailStep ch 0) F.chBusStatusFailCe ch 0) s1
    let b : Bringup := { step := if res then 4 else 0, part := part, left := [] }
    let s3 := dropTrigger (updGroup (wr1 s2 F.cgPhyXrActive (4 * g) 0) g (fun x => { x with bringup := some b, stopped := false })) g
    if part.isEmpty then bringupDone s3 g (busState s) 0
    else
      let s4 := stepBegin s3 g b (if res then 5 else 1)
      match (getGroup s4 g).bringup with
      | some b1 => if b1.left.isEmpty ∧ ¬ b1.paused then stepGo s4 g b1 18 b1.step else s4
      | none => s4

/-- A chip enable fails a step (R158). -/
def ceFails (s : State) (ch k n : Nat) : State :=
  let s1 := wr1 s F.chBusStatusCeFailed ch (rd s F.chBusStatusCeFailed ch ||| 2 ^ k)
  if rd s F.chBusStatusFailStep ch = 0 then wr1 (wr1 s1 F.chBusStatusFailStep ch (stepName n)) F.chBusStatusFailCe ch k else s1

/-- A group-level step fails (R158): every channel taking part is FAILED. -/
def groupFails (s : State) (g : Nat) (b : Bringup) (n : Nat) : State :=
  let s1 := b.part.foldl (fun s ch =>
    if rd s F.chBusStatusFailStep ch = 0 then wr1 s F.chBusStatusFailStep ch (stepName n) else s) s
  bringupDone s1 g (fun _ => 4) n

/-- The trims that a training step leaves on a channel (R160, R443). -/
def putTrims (s : State) (g c : Nat) (t : Trims) : State :=
  setR (setR (setR (setR s .calDqRd g c 0 t.dqRd) .calDqWr g c 0 t.dqWr) .calDqs g c 0 t.dqs) .calDrv g c 0 t.drv

/-- The words of a parameter page (R158). -/
def putPpage (s : State) (ch k : Nat) (b : List Byte) : State :=
  forNat 32 (fun s w => setR s .chPpage ch k w (BitVec.ofNat 64 (leNat (slice (padTo 256 b) (8 * w) 8)))) s

/-- What a chip enable that passes a step leaves. -/
def cePasses (s : State) (g ch k n : Nat) (r : BringResult) : State :=
  match n with
  | 2 => { s with luns := s.luns.map (fun e => if e.1.ch = ch ∧ e.1.ce = k then (e.1, { e.2 with offs := none }) else e) }
  | 3 => setR s .chId ch k 0 r.ident
  | 4 => putPpage s ch k r.ppage
  | 7 | 8 | 9 | 0xa | 0xe | 0xf | 0x10 => putTrims s g (ch % 4) r.trims
  | _ => s

/-- The trims carry only the bits that their registers have (R442). (DESIGN CHOICE, log entry 43.) -/
def trimsOk (t : Trims) : Bool := t.dqs >>> 16 = 0 && t.drv &&& 0xffffffff80c0c0c0#64 = 0

/-- The further copies of the parameter page that step 0x4 read: all of the first four when none passed, as many as it took
when one did (R158). (DESIGN CHOICE, log entry 119.) -/
def copiesRead (s : State) (ch : Nat) (ok : Bool) : State :=
  let (n, s1) := if ok then let (w, s1) := freeWord s; (w.toNat % 4, s1) else (3, s)
  sendMore s1 ch (List.replicate n (.output 256))

/-- The end of a step on a chip enable of a channel. -/
def ceEnds (s : State) (g : Nat) (b : Bringup) (ch k : Nat) (r : BringResult) : State :=
  let n := b.step
  let rest := (b.left.map (fun e => if e.1 = ch then (e.1, e.2.drop 1) else e)).filter (fun e => !e.2.isEmpty)
  let s0 := if n = 4 then copiesRead (if r.ok then s else putPpage s ch k []) ch r.ok else s
  let s1 := if r.ok then cePasses s0 g ch k n r else if n = 1 then s0 else ceFails s0 ch k n
  let b1 := { b with left := rest, xrFail := if 0xe ≤ n ∧ ¬ r.ok ∧ ch ∉ b.xrFail then b.xrFail ++ [ch] else b.xrFail }
  let s2 := updGroup s1 g (fun x => { x with bringup := some b1 })
  if n = 0xc ∧ ¬ r.ok then groupFails s2 g b1 n
  else if n = 0xc ∧ (r.p1.toNat ≠ rd s F.cgPhyXrRate (4 * g) ∨ r.p2.toNat ≠ ppageByte s ch k (rd s F.cgPhyXrDescOfs (4 * g) + 5)) then
    bringupEnds (exitWrites (wr1 s2 F.cgPhyXrRefused (4 * g) 5) b) g b1
  else if rest.isEmpty then stepGo s2 g b1 18 n
  else match rest.find? (fun e => e.1 = ch) with
    | some e => stepSends s2 n e
    | none => s2

/-- The end of a step of the whole group: the PLL is READY and the PHY switched. -/
def groupEnds (s : State) (g : Nat) (b : Bringup) (ok : Bool) : State :=
  if ¬ ok then groupFails s g b b.step
  else if rdB s F.cgPhyPllReady (4 * g) then
    let rate := if b.step = 6 then rd s F.cgPhyBaseRate (4 * g) else rd s F.cgPhyXrRate (4 * g)
    stepGo (updGroup s g (fun x => { x with rate := rate })) g b 18 b.step
  else s

/-- BRINGUP_STEP_END (R158): the step in hand ends on a channel's next chip enable, or on the group.
(DEDUCED, log entry 41.) -/
def execBringupStepEnd (g : Fin 12) (r : BringResult) (s : State) : Out :=
  if trimsOk r.trims ∧ r.ppage.length ≤ 256 then
    match (getGroup s g.val).bringup with
    | none => .next s
    | some b =>
      if b.paused ∨ ¬ engRunning s g.val r.c.val ∨ parked s then .next s
      else if b.step = 6 ∨ b.step = 0xd then .next (groupEnds s g.val b r.ok)
      else match b.left.find? (fun e => e.1 = 4 * g.val + r.c.val) with
        | some (ch, k :: _) => .next (ceEnds s g.val b ch k r)
        | _ => .next s
  else .fault .illFormed

end Sys2Proof.Machine
end

