-- ==== Sys2Proof/Machine/Cal.lean ====
section
/-! DEFINITION. PHY calibration (R442–R456): temperature, triggers, the forced hold, the boundary, runs and their limits,
staged trims, and the CALIBRATE items. -/

namespace Sys2Proof.Machine

/-! ### Temperature and triggers (R444–R447) -/

/-- HK1 works (R15, R352), and the core clock is not parked (R420). -/
def hk1Up (s : State) : Bool := domUp s dHk && engRunning s 14 1 && !parked s

/-- STATE of CAL_GRP_STATUS: 0 IDLE, 1 WAITING, 2 FORCING, 3 RUNNING. -/
def calState (s : State) (g : Nat) : Nat := rd s F.calGrpStatusState g

/-- The distance that triggers a run, in quarter degrees (R445). -/
def calDelta (s : State) (g : Nat) : Int := 4 * (max 1 (rd s F.calGrpCtlCalDelta g) : Nat)

/-- AUTO_EN is 1 and the temperature has moved by more than CAL_DELTA (R445). -/
def calWants (s : State) (g : Nat) : Bool :=
  rdB s F.calGrpCtlAutoEn g
    && calDelta s g < ((rdInt s F.calGrpStatusTemp g - rdInt s F.calGrpStatusRefTemp g).natAbs : Int)

/-- A bring-up is in progress, or ended at STOP_AT_ID: no calibration runs (R160). -/
def bringingUp (s : State) (g : Nat) : Bool := (getGroup s g).bringup.isSome || (chansOf g).any (fun ch => busState s ch = 2)

/-- A run is ordered: it is pending, WAITING from now (R447, R448); none without a TRAINED channel. Staged trims that wait
for the same boundary keep their FORCING and the moment from which they wait (R453). -/
def calOrder (s : State) (g : Nat) : State :=
  if (chansOf g).any (trained s) ∨ bringingUp s g then
    let st := !(getGroup s g).staged.isEmpty
    updGroup (setCalState s g (if st && calState s g = 2 then 2 else 1)) g
      (fun x => { x with calPending := true, calOut := [], trigAt := if st then x.trigAt else s.clk })
  else s

/-- RETRY_MS has passed since the last rejected or abandoned run (R445). -/
def retryOver (s : State) (g : Nat) : Bool :=
  match (getGroup s g).retryUntil with
  | some t => t ≤ s.clk
  | none => true

/-- The conditions of an automatic run are evaluated (R445); a trigger traps HK1 (R347). -/
def calEval (s : State) (g : Nat) : State :=
  if hk1Up s && calWants s g && !(getGroup s g).calPending && calState s g ≠ 3 && retryOver s g then
    calOrder (raiseTrap s 14 1 0xa) g else s

/-- OVER_ALERT of a group, with its hysteresis (R446). -/
def overAlert (s : State) (g : Nat) : Bool :=
  let t := rdInt s F.calGrpStatusTemp g
  let a : Int := 4 * (rd s F.calAlertAlertC : Nat)
  a ≤ t || (rdB s F.calGrpStatusOverAlert g && a - 8 < t)

/-- The readings of the sensors that count: those of the powered groups (R408). -/
def sensors (s : State) : List Int := ((List.range 12).filter (fun g => domUp s (dCg g))).map (fun g => rdInt s F.calGrpStatusTemp g)

/-- PD_HK drives TEMP_ALERT_N low once a sensor reads ALERT_C or more, and releases it once every one reads 2 °C or more
below (R408, R446). -/
def alertUpd (s : State) : State :=
  let a : Int := 4 * (rd s F.calAlertAlertC : Nat)
  if ¬ domUp s dHk then s
  else if (sensors s).any (fun t => a ≤ t) then { s with power := { s.power with alertLow := true } }
  else if (sensors s).all (fun t => t + 8 ≤ a) then { s with power := { s.power with alertLow := false } }
  else s

/-- TEMP_ALERT_N (R388, R408): released while PD_HK is unpowered. -/
def tempAlertN (s : State) : Bool := !(domUp s dHk && s.power.alertLow)

/-- What the sensor reads: −40 °C to +150 °C, in quarter degrees (R444). (DESIGN CHOICE, log entry 121.) -/
def sensed (t : BitVec 12) : Nat := (BitVec.ofInt 12 (max (-160) (min 600 t.toInt))).toNat

/-- TEMP_UPDATE (R444): the sensor of a powered group updates TEMP. -/
def execTempUpdate (g : Fin 12) (t : BitVec 12) (s : State) : Out :=
  if domUp s (dCg g.val) then
    let s1 := wr1 s F.calGrpStatusTemp g.val (sensed t)
    .next (calEval (alertUpd (if domUp s dHk then wr1 s1 F.calGrpStatusOverAlert g.val (bit (overAlert s1 g.val)) else s1)) g.val)
  else .next s

/-- CAL_RETRY_EXPIRY (R445). -/
def execCalRetryExpiry (g : Fin 12) (s : State) : Out :=
  match (getGroup s g.val).retryUntil with
  | some t =>
    match lapse s t with
    | some s1 => .next (calEval (updGroup s1 g.val (fun x => { x with retryUntil := none })) g.val)
    | none => .next s
  | none => .next s

/-! ### The forced hold and the boundary (R448) -/

/-- A boundary is waited for: a run is pending, or trims are staged (R453). (DEDUCED, log entry 45.) -/
def calWaits (s : State) (g : Nat) : Bool := ((getGroup s g).calPending && calState s g ≠ 3) || !(getGroup s g).staged.isEmpty

/-- STATE becomes FORCING. -/
def calForce (s : State) (g : Nat) : State := tally (setCalState s g 2) (0x70 + 4 * g + 1)

/-- CAL_FORCING_TIMEOUT (R448, R453): 500 µs without a boundary. -/
def execCalForcingTimeout (g : Fin 12) (s : State) : Out :=
  if calWaits s g.val ∧ calState s g.val < 2 ∧ hk1Up s ∧ ¬ warn s ∧ ¬ bringingUp s g.val then
    match lapse s (500 * usU + (getGroup s g.val).trigAt) with
    | some s1 => .next (calForce s1 g.val)
    | none => .next s
  else .next s

/-- An armed item of the group has its tick within the next 26 µs (R448). -/
def armedSoon (s : State) (g : Nat) : Bool :=
  s.items.any (fun it => it.armed && it.lun.ch / 4 = g && it.pkt.launchTick.toNat < fineTick s + 26000)

/-- Every staged trim of the group takes effect (R453), and the APPLY items end (R455). -/
def applyStaged (s : State) (g : Nat) : State :=
  let x := getGroup s g
  let s1 := x.staged.foldl (fun s e =>
    match e.1.2 with
    | 0 => setR s .calDqRd g e.1.1 0 e.2
    | 1 => setR s .calDqWr g e.1.1 0 e.2
    | 2 => setR s .calDqs g e.1.1 0 e.2
    | _ => setR s .calDrv g e.1.1 0 e.2) s
  endAll (updGroup (wr1 s1 F.calGrpStatusStaged g 0) g (fun x => { x with staged := [], applyItems := [] })) x.applyItems .ok

/-- The boundary: staged trims take effect and settle for 1 µs (R453), and a pending run begins (R448, R449). -/
def atBoundary (s : State) (g : Nat) : State :=
  let s1 := applyStaged s g
  if (getGroup s1 g).calPending then
    tally (updGroup (setCalState s1 g 3) g (fun x => { x with trigAt := s1.clk })) (0x70 + 4 * g)
  else updGroup (setCalState s1 g 0) g (fun x => { x with settleUntil := some (s1.clk + usU) })

/-- The hold in which staged trims settle ends (R453). -/
def settleEnd (s : State) (g : Nat) : State :=
  match (getGroup s g).settleUntil with
  | some t => if t ≤ s.clk then kickGroup (updGroup s g (fun x => { x with settleUntil := none })) g else s
  | none => s

/-- No tenure is on a bus of the group, none but polls was in the last µs, and no armed item stands against a run that
WAITS (R448). -/
def boundaryFree (s : State) (g : Nat) : Bool :=
  (chansOf g).all (fun ch => (getCh s ch).bus.isNone) && !(calState s g < 2 && armedSoon s g)

/-- CAL_BOUNDARY (R448): the first moment at which the group is free. -/
def execCalBoundary (g : Fin 12) (s : State) : Out :=
  if calWaits s g.val ∧ calState s g.val ≠ 3 ∧ hk1Up s ∧ ¬ warn s ∧ ¬ bringingUp s g.val ∧ boundaryFree s g.val then
    match lapse s (usU + (getGroup s g.val).freeSince) with
    | some s1 => .next (atBoundary s1 g.val)
    | none => .next s
  else .next s

/-! ### A run's results (R449, R451) -/

/-- A trim code: FIELD of CAL_REJ_INFO, value in force, new value, largest change, and whether the new code is one that
is used (R442). -/
structure TrimCode where
  field : Nat
  old : Nat
  new : Nat
  lim : Nat
  used : Bool
  deriving DecidableEq, Repr

/-- The change is within its limit and the new code is used. -/
def TrimCode.pass (t : TrimCode) : Bool := (max t.old t.new - min t.old t.new ≤ t.lim) && t.used

/-- A code from `lo` up of two register words. -/
def trimCode (f lo len lim : Nat) (old new : W64) (used : Nat → Bool) : TrimCode :=
  ⟨f, fget old lo len, fget new lo len, lim, used (fget new lo len)⟩

/-- Every trim code of channel `c` of a group, in the order of FIELD (R442, R451). -/
def trimCodes (s : State) (g c : Nat) (t : Trims) : List TrimCode :=
  let d := rd s F.calLimitsDelayLim g
  let r := rd s F.calLimitsDrvLim g
  let any := fun _ : Nat => true
  let drv := fun n : Nat => decide (4 ≤ n ∧ n ≤ 60)
  let odt := fun n : Nat => decide (n = 0 ∨ (4 ≤ n ∧ n ≤ 60))
  let w := getR s .calDrv g c
  (List.range 8).map (fun b => trimCode 1 (8 * b) 8 d (getR s .calDqRd g c) t.dqRd any)
  ++ (List.range 8).map (fun b => trimCode 2 (8 * b) 8 d (getR s .calDqWr g c) t.dqWr any)
  ++ [trimCode 3 0 8 d (getR s .calDqs g c) t.dqs any, trimCode 4 8 8 d (getR s .calDqs g c) t.dqs any,
      trimCode 5 0 6 r w t.drv drv, trimCode 6 8 6 r w t.drv drv, trimCode 7 16 6 (rd s F.calLimitsOdtLim g) w t.drv odt,
      trimCode 8 24 7 (rd s F.calLimitsVrefLim g) w t.drv (fun n => decide (n ≤ 100))]

/-- A channel fails the run: CAL_REJECT, REJECT_MASK, and the log of the first failure since CAL_REJECT was cleared
(R451). -/
def calReject (s : State) (g c : Nat) (t : TrimCode) : State :=
  let s1 := if rdB s F.calGrpStatusCalReject g then s
    else wr1 (wr1 (wr1 (wr1 s F.calRejInfoChannel g c) F.calRejInfoField g t.field) F.calRejInfoOld g t.old) F.calRejInfoNew g t.new
  wr1 (flag1 s1 F.calGrpStatusCalReject g) F.calGrpStatusRejectMask g (rd s F.calGrpStatusRejectMask g ||| 2 ^ c)

/-- A channel's results are checked, and take effect if they pass. -/
def calChannel (s : State) (g c : Nat) (t : Trims) : State :=
  match (trimCodes s g c t).find? (fun x => !x.pass) with
  | some x => calReject s g c x
  | none => putTrims s g c t

/-- The end of a run (R449, R451, R455). (DEDUCED, log entry 44.) -/
def calFinish (s : State) (g : Nat) (r : List Trims) : State :=
  let x := getGroup s g
  let s1 := (runChans s g).foldl (fun s ch => match r[ch % 4]? with | some t => calChannel s g (ch % 4) t | none => s)
    (wr1 s F.calGrpStatusRejectMask g 0)
  let bad := rd s1 F.calGrpStatusRejectMask g ≠ 0
  let s2 := if bad then tally s1 (0x70 + 4 * g + 2) else wr1 s1 F.calGrpStatusRefTemp g (rd s1 F.calGrpStatusTemp g)
  let s3 := setCalState (wr1 s2 F.calGrpStatusRuns g ((rd s2 F.calGrpStatusRuns g + 1) % 65536)) g 0
  let s4 := updGroup s3 g (fun x => { x with
    calPending := false, calItems := [], calOut := [], trigAt := s.clk,
    retryUntil := if bad then some (s.clk + 1000 * usU * rd s F.calGrpCtlRetryMs g) else x.retryUntil })
  let s5 := calEval (endAll s4 x.calItems .ok) g
  kickGroup (if x.applyItems.isEmpty then s5 else calForce s5 g) g

/-- CAL_RUN_END (R449): 24 µs after the boundary; the trims found on each of the group's four channels. -/
def execCalRunEnd (g : Fin 12) (r : List Trims) (s : State) : Out :=
  if r.length = 4 ∧ r.all trimsOk then
    if calState s g.val = 3 ∧ hk1Up s then
      match lapse s (24 * usU + (getGroup s g.val).trigAt) with
      | some s1 => .next (calFinish s1 g.val r)
      | none => .next s
    else .next s
  else .fault .illFormed

/-! ### Writing trims (R453) -/

/-- A write of a trim register of channel `c` of a group: `reg` counts the registers of R453 from 0. -/
def trimPut (s : State) (g c reg : Nat) (n : RegName) (v : W64) : State :=
  match busState s (4 * g + c) with
  | 3 =>
    let s1 := wr1 s F.calGrpStatusStaged g (rd s F.calGrpStatusStaged g ||| 2 ^ c)
    updGroup s1 g (fun x => { x with staged := Tab.set x.staged (c, reg) v, trigAt := if calWaits s g ∨ calState s g = 3 then x.trigAt else s.clk })
  | 1 => flag1 s F.calGrpStatusCalIgnored g
  | _ => setR s n g c 0 v

/-! ### CALIBRATE items (R455) -/

/-- A CALIBRATE item reaches HK1. -/
def calBegin (s : State) (it : Item) : State :=
  let g := it.pkt.channel.toNat / 4
  let a := it.pkt.opByte 8
  if ¬ domUp s (dCg g) then endWith s it.id .channelFenced
  else if (a = 0 ∨ a = 1 ∨ a = 3) ∧ ¬ (chansOf g).any (trained s) then endWith s it.id .channelFenced
  else
    let s1 := updItem s it.id (fun i => { i with stage := .group })
    let join := fun s : State => updGroup s g (fun x => { x with calItems := x.calItems ++ [it.id] })
    let order := fun s : State => if (getGroup s g).calPending ∨ calState s g = 3 then s else calOrder s g
    match a with
    | 0 => join (order s1)
    | 1 =>
      let s2 := join (order s1)
      if calState s2 g = 1 then calForce s2 g else s2
    | 2 => endItem (wr1 s1 F.calGrpStatusRefTemp g (rd s F.calGrpStatusTemp g)) it.id
    | 3 =>
      if (getGroup s g).staged.isEmpty then endItem s1 it.id
      else
        let s2 := updGroup s1 g (fun x => { x with applyItems := x.applyItems ++ [it.id] })
        if calState s2 g < 2 then calForce s2 g else s2
    | _ => endItem s1 it.id

/-- PWR_WARN meets a group's calibration (R452, R455): a run that has begun is abandoned; before that, the forced hold
ends and its items end NOT_ISSUED_POWERFAIL. -/
def calWarn (s : State) (g : Nat) : State :=
  if calState s g = 3 then kickGroup (abandonRun s g) g
  else
    let x := getGroup s g
    let keep := x.calPending && calWants s g
    let s1 := updGroup (setCalState s g (bit keep)) g (fun x => { x with calPending := keep, calItems := [], applyItems := [] })
    kickGroup (endAll s1 (x.calItems ++ x.applyItems) .notIssuedPowerfail) g

/-- HK1 stops on a machine check (R352, R452): its CALIBRATE items end MCHECK, and a forced hold ends. -/
def calStops (s : State) (g : Nat) : State :=
  let x := getGroup s g
  let s1 := updGroup (setCalState s g 0) g (fun x => { x with calPending := false, calItems := [], applyItems := [], calOut := [] })
  kickGroup (endAll s1 (x.calItems ++ x.applyItems) .mcheck) g

end Sys2Proof.Machine
end

