-- ==== Sys2Proof/Machine/Patrol.lean ====
section
/-! DEFINITION. The patrol scrub and its relocations (R321–R327), the spare pools (R325) and the SRAM scrubber's visits
(R319). -/

namespace Sys2Proof.Machine

/-- HK0 works (R15, R352), and the core clock is not parked (R420). -/
def hk0Up (s : State) : Bool := domUp s dHk && engRunning s 14 0 && !parked s

/-! ### SCRUB_CTL and RELOC_POOL_ADD (R321, R325) -/

/-- START (R321): the settings are taken, the cursor kept. -/
def scrubStart (s : State) (p : Packet) : State :=
  { wr0 s F.psStatusRun 1 with patrol := { s.patrol with
      pair := p.opByte 9, relocGrade := p.opByte 10, thresh := p.opByte 11,
      rate := max 1 (p.opByte 12 + 256 * p.opByte 13), tag := p.tag } }

/-- STOP (R321). -/
def scrubStop (s : State) : State := wr0 s F.psStatusRun 0

/-- CLEAR_POOL (R321): the named channel's pool, or every pool. -/
def scrubClear (s : State) (c : Nat) : State :=
  { s with patrol := { s.patrol with pools := Tab.drop s.patrol.pools (fun k => c = 0xff || k = c) } }

/-- The effect of a SCRUB_CTL item (R321). -/
def scrubEffect (s : State) (p : Packet) : State :=
  match p.opByte 8 with
  | 0 => scrubStop s
  | 1 => scrubStart s p
  | 2 => scrubClear s (p.opByte 9)
  | _ => s

/-- Appends one entry to the spare pool of its channel (R325): `w` is the entry's eight bytes. -/
def poolAdd (s : State) (w : W64) : State :=
  let c := fget w 48 8
  if fget w 56 1 = 0 then s
  else if 47 < c ∨ 64 ≤ (Tab.get s.patrol.pools c []).length then flag0 s F.psStatusPoolDrop
  else { s with patrol := { s.patrol with
           pools := Tab.set s.patrol.pools c (Tab.get s.patrol.pools c [] ++ [⟨fget w 0 40, BitVec.ofNat 8 (fget w 40 8)⟩]) } }

/-- The effect of a RELOC_POOL_ADD item (R325). -/
def poolAddAll (s : State) (p : Packet) : State := [p.b0, p.b1, p.b2, p.b3].foldl poolAdd s

/-! ### The walk (R322) -/

/-- The LUN at a place of the walk: channel, then chip enable, then LUN. -/
def patrolLun (n : Nat) : Lun := ⟨n / 128, n / 8 % 16, n % 8⟩

/-- The LUN is a target at the walk's INDEX (R322). -/
def patrolTarget (s : State) (index : Nat) (l : Lun) : Bool :=
  bitOf (rd s F.psCfgChMask) l.ch && domUp s (dCg (l.ch / 4)) && inPopulation s l
    && rdB s F.psClassInclude (lunClass s l) && index < 2 ^ rd s F.psClassRowsLog2 (lunClass s l)

/-- A target is skipped (R322). -/
def patrolSkips (s : State) (l : Lun) : Bool := !chEnabled s l.ch || (getLun s l).halted

/-- The next place from `n` up, of at most `k`, that holds a target not skipped. (DEDUCED, log entry 46.) -/
def patrolNext (s : State) (index : Nat) : Nat → Nat → Option Nat
  | 0, _ => none
  | k + 1, n =>
    let l := patrolLun n
    if patrolTarget s index l && !patrolSkips s l then some n else patrolNext s index k (n + 1)

/-- The largest ROWS_LOG2 among the classes included (R322). -/
def patrolRows (s : State) : Nat :=
  (List.range 16).foldl (fun r c => if rdB s F.psClassInclude c then max r (rd s F.psClassRowsLog2 c) else r) 0

/-- The walk moves to the next INDEX; when it wraps, PASSES advances (R322). -/
def patrolAdvance (s : State) : State :=
  let i := rd s F.psCursorIndex + 1
  let s1 := { s with patrol := { s.patrol with target := 0 } }
  if i < 2 ^ patrolRows s then wr0 s1 F.psCursorIndex i
  else wr0 (wr0 s1 F.psCursorIndex 0) F.psCursorPasses ((rd s F.psCursorPasses + 1) % 65536)

/-- Patrol reads in flight on a channel. -/
def patrolOn (s : State) (ch : Nat) : Nat :=
  (s.items.filter (fun it => it.isPatrol && it.lun.ch = ch && !it.second && it.stage ≠ .group)).length

/-- A patrol read of a target (R322, R323). -/
def patrolItem (s : State) (l : Lun) (index : Nat) : Item :=
  let cls := lunClass s l
  let row := index + l.lun * 2 ^ rd s F.psClassLunShift cls
  let pkt := { emptyPacket with
    opcode := 1, channel := BitVec.ofNat 8 l.ch, ceLun := BitVec.ofNat 8 (ceLunOf l), row := BitVec.ofNat 64 row, qmask := 0x0f,
    strength := 0xff, ladder := 0xff }
  { id := s.nextId, origin := .patrol, pkt := pkt, level := 0, teller := 0, lun := l, launchRef := fineTick s,
    strength := strengthOf s cls pkt, ladder := ladderOf s cls pkt, cls := cls, costSet := costSetOf s cls, stage := .queued,
    pages := [{ row := row, q := List.replicate 4 {} }] }

/-- Launches the patrol read at a place of the walk: it joins its LUN's queue. -/
def patrolIssue (s : State) (n : Nat) : State :=
  let it := patrolItem s (patrolLun n) (rd s F.psCursorIndex)
  enqueue { s with nextId := s.nextId + 1, items := s.items ++ [it],
                   patrol := { s.patrol with target := n + 1, nextAt := s.clk + ceilDiv (1000 * usU) s.patrol.rate } } it.id it.lun

/-- The patrol may launch (R322, R323, R327). -/
def patrolRuns (s : State) : Bool :=
  hk0Up s && isActive s && !warn s && rd s F.psStatusRun = 1 && s.patrol.receipts.length < 64

/-- PATROL_READ_LAUNCH (R322): HK0 issues the next target, waits while its channel has PER_CH_MAX reads in flight, or
moves to the next INDEX when no target is left at this one. -/
def execPatrolReadLaunch (s : State) : Out :=
  if patrolRuns s then
    match lapse s s.patrol.nextAt with
    | none => .next s
    | some s1 =>
      match patrolNext s1 (rd s1 F.psCursorIndex) (48 * 128 - s1.patrol.target) s1.patrol.target with
      | none => .next (patrolAdvance s1)
      | some n =>
        if patrolOn s1 (n / 128) < max 1 (rd s1 F.psCfgPerChMax) then .next (patrolIssue s1 n) else .next s1
  else .next s

/-! ### Relocation (R324) -/

/-- The head of the channel's spare pool is taken, and the page joins the destination's queue for its program. -/
def relocGo (s : State) (it : Item) (e : PoolEnt) (rest : List PoolEnt) : State :=
  let d : Lun := ⟨it.lun.ch, e.ceLun.toNat % 16, e.ceLun.toNat / 16 % 8⟩
  let cls := lunClass s d
  let st := rd s F.classCfg0DefStrength cls
  let s1 := tallyC (tally { s with patrol := { s.patrol with
    pools := Tab.set s.patrol.pools it.lun.ch rest,
    relocs := s.patrol.relocs ++ [{ relocOf it with ent := some e, strength := st }] } } 0x5c) (0x2c0 + it.lun.ch) it.cls
  enqueue (updItem s1 it.id (fun i => { i with
    lun := d, second := true, dstCls := cls, costSet := costSetOf s cls, strength := st, dataReady := false,
    pages := i.pages.map (fun p => { p with row := e.row }) })) it.id d

/-- RELOCATION_START (R324): a patrol read whose grade calls for it is relocated; an empty pool leaves only its receipt. -/
def execRelocationStart (id : Nat) (s : State) : Out :=
  match findItem s id with
  | some it =>
    if hk0Up s ∧ it.isPatrol ∧ it.stage = .group then
      match Tab.get s.patrol.pools it.lun.ch [] with
      | [] => .next (relocWrite (dropItem (cleanup (tally (flag1 s F.psPoolEmptySeen it.lun.ch) 0x5d) id) id) it (relocOf it) true)
      | e :: rest => .next (relocGo s it e rest)
    else .next s
  | none => .next s

/-- RELOC_RECEIPT_WRITE (R327): the first held relocation receipt is written to the next slot of its pair. -/
def execRelocReceiptWrite (s : State) : Out :=
  match s.patrol.receipts with
  | [] => .next s
  | h :: rest =>
    if 0 < freeSlots s h.pair ∧ mayWrite s h.pair then
      let s1 := { s with patrol := { s.patrol with receipts := rest }, hold := s.hold ++ [h] }
      .next (relocNext (writeOne s1 h))
    else .next s

/-- SRAM_SCRUB_VISIT (R319). -/
def execSramScrubVisit (s : State) : Out := if scrubOn s ∧ ¬ parked s then .next (scrubVisit s) else .next s

end Sys2Proof.Machine
end

