-- ==== Sys2Proof/Machine/LedgerSet.lean ====
section
/-! DEFINITION. The effects of items that use no LUN queue: LEDGER_SET, quiet windows, TIME_MARK, SCRUB_CTL and NOP (R216,
R223, R236, R321), and the half link that holds shared-state effects during a handover (R19, R23, R26). -/

namespace Sys2Proof.Machine

/-! ### LEDGER_SET (R58, R216) -/

/-- The value in coins, bytes 12–13. -/
def Packet.coins (p : Packet) : Nat := p.opByte 12 + 256 * p.opByte 13

/-- VCC_ALT takes a value: while it is in force, the ledger picks again (R219, R237). -/
def setVccAlt (s : State) (v : Nat) : State :=
  let s1 := wr0 s F.lgBudgetVccAlt v
  if altActive s1 then orderSuspends s1 v else s1

/-- Targets 0 to 4: a budget or a cost table entry; any other target, and an index above 31, changes nothing. -/
def ledgerApply (s : State) (p : Packet) : State :=
  match p.opByte 8 with
  | 0 => wr0 s F.lgBudgetVccNormal (Packet.coins p)
  | 1 => setVccAlt s (Packet.coins p)
  | 2 => wr0 s F.lgBudgetVccqNormal (Packet.coins p)
  | 3 => wr0 s F.lgBudgetVccqAlt (Packet.coins p)
  | 4 => if p.opByte 9 < 32 then wr1 s F.lgCostCoins (p.opByte 9) (Packet.coins p) else s
  | _ => s

/-! ### Quiet windows (R223, R224) -/

/-- The first tick of a slot's window, and the tick after its last. -/
def quietStart (s : State) (j : Nat) : Nat := rd s F.lgQuietW0Start j
def quietEnd (s : State) (j : Nat) : Nat := quietStart s j + rd s F.lgQuietW1Length j

/-- A slot holds a window that has not ended. -/
def quietLive (s : State) (j : Nat) : Bool := rdB s F.lgQuietW1Valid j && fineTick s < quietEnd s j

/-- Slots whose window overlaps or abuts the window from `a` to `b`. -/
def quietTouch (s : State) (a b : Nat) : List Nat :=
  (List.range 8).filter (fun j => quietLive s j && quietStart s j ≤ b && a ≤ quietEnd s j)

/-- Puts a window into a slot; LENGTH saturates at its 32 bits. -/
def quietPut (s : State) (j a b : Nat) : State :=
  wr1 (wr1 (wr1 s F.lgQuietW0Start j a) F.lgQuietW1Length j (sat (2 ^ 32 - 1) (b - a))) F.lgQuietW1Valid j 1

/-- What the window's start brings, if the unit was not quiet before (R224, R232). -/
def quietBegins (was : Bool) (s : State) : State :=
  let s1 := refreshArmed s
  if quietActive s1 && !was && rdB s F.lgCtlQuietSuspend then orderSuspends s1 0 else s1

/-- Enters a quiet window into the table (R223): merged with those it overlaps or abuts, in the lowest free slot. A window
that has ended, and one of no length, has no effect. (DEDUCED, log entry 68.) -/
def quietEnter (s : State) (start len : Nat) : State :=
  if len = 0 ∨ start + len ≤ fineTick s then s
  else
    let ts := quietTouch s start (start + len)
    let a := ts.foldl (fun a j => min a (quietStart s j)) start
    let b := ts.foldl (fun b j => max b (quietEnd s j)) (start + len)
    let s1 := ts.foldl (fun s j => wr1 s F.lgQuietW1Valid j 0) s
    match (List.range 8).find? (fun j => !quietLive s1 j) with
    | some j => quietBegins (quietActive s) (quietPut s1 j a b)
    | none => flag0 s1 F.lgStatusQuietFull

/-! ### Ring-wide items (R263) -/

/-- A packet for a quiet window. -/
def isQuiet (p : Packet) : Bool := p.op = 0x10 && p.opByte 8 = 5

/-- A packet that applies on every unit of the ring (R58, R223, R236). -/
def ringWide (p : Packet) : Bool :=
  isQuiet p || (p.op = 0x10 && p.opByte 10 % 2 = 1) || (p.op = 0x11 && p.opByte 8 % 2 = 1)

/-- The change of state that a packet without LUN queue makes: of LEDGER_SET, TIME_MARK, SCRUB_CTL; none for NOP. -/
def packetEffect (s : State) (p : Packet) : State :=
  match p.op with
  | 0x10 => if isQuiet p then quietEnter s p.launchTick.toNat p.deadline.toNat else ledgerApply s p
  | 0x11 => if p.opByte 8 % 2 = 1 then tallySnapshot s else s
  | 0x13 => scrubEffect s p
  | _ => s

/-! ### Items (R19, R236) -/

/-- Shared-state requests wait at the half link: during a handover (R23), or with no front end up to own (R26). -/
def linkHeld (s : State) : Bool := s.host.handover || !feUp s (owner s)

/-- A packet's effect without an item, as of a ring-wide packet received: a change of shared state waits at the half link for
its owner (R19, R263). -/
def effectNow (s : State) (p : Packet) : State :=
  if linkHeld s then { s with host := { s.host with held := s.host.held ++ [.packet p] } } else packetEffect s p

/-- The packet's effect is a change of shared state (R19). -/
def sharedEffect (p : Packet) : Bool := p.op = 0x10 || p.op = 0x13 || (p.op = 0x11 && p.opByte 8 % 2 = 1)

/-- An item without LUN queue takes effect now, and ends. -/
def effectEnds (s : State) (it : Item) : State := endItem (packetEffect s it.pkt) it.id

/-- An item without LUN queue takes effect, or its shared-state effect is held at the half link. -/
def effectRun (s : State) (it : Item) : State :=
  if linkHeld s ∧ sharedEffect it.pkt then
    { updItem s it.id (fun i => { i with doneTick := none, stage := .group }) with
        host := { s.host with held := s.host.held ++ [.item it.id] } }
  else effectEnds s it

/-- An item takes effect after its tick (R216, R236): it ends OK_LATE, but for a quiet window (R223). -/
def effectLate (s : State) (it : Item) : State :=
  effectRun (if isQuiet it.pkt then s else mark s it.id .okLate) it

/-- An item whose tick lies ahead again, and whose launch has not begun, waits for it (R231, R501): its grant is returned, its
gate is closed, and its tenures wait no more. -/
def unlaunch (s : State) (it : Item) : State :=
  updCh (updItem (returnUnused s it.id) it.id (fun i => { i with gateOpen := false })) it.lun.ch
    (fun c => { c with want := c.want.filter (fun t => t.item ≠ some it.id) })

/-- The count of the time base was stepped (R501): items not launched whose tick lies ahead again wait for it, armed items
are looked at again, and items without LUN queue whose tick has passed take effect; the ledger exchanges follow the new count
(R227). -/
def retime (s0 : State) : State :=
  let s1 := { s0 with ledger := { s0.ledger with exchAt := 0 } }
  let s := (s1.items.filter (fun it => it.stage = .queued && !it.launched && !it.armed && !tickReached s1 it)).foldl unlaunch s1
  let late := s.items.filter (fun it => it.stage = .timed && it.pkt.launchTick.toNat ≤ fineTick s)
  late.foldl (fun s it => if it.pkt.launchTick.toNat < fineTick s then effectLate s it else effectRun s it) (refreshArmed s)

end Sys2Proof.Machine
end

