-- ==== Sys2Proof/Machine/RingOps.lean ====
section
/-! DEFINITION. The Xaram ring port (R240–R270): when it works, presence, forwarding with its credits and sequence numbers,
the departure of a unit, and the ring-wide budget (R226–R228). -/

namespace Sys2Proof.Machine

/-! ### The port -/

/-- XR_STATUS STATE. -/
def xrState (s : State) : Nat := rd s F.xrStatusState
def setXr (s : State) (n : Nat) : State := wr0 s F.xrStatusState n

/-- HK3 works (R15, R352). -/
def hk3Up (s : State) : Bool := domUp s dHk && engRunning s 14 3

/-- The port is enabled and drives its outputs (R246, R250). -/
def ringOn (s : State) : Bool := hk3Up s && xrState s ≠ 0

/-- The port takes part in the ring. -/
def ringLive (s : State) : Bool := ringOn s && xrState s = 3

/-- HK3 may originate frames (R420). -/
def ringSends (s : State) : Bool := ringLive s && !parked s

def laneUp (s : State) (l : Nat) : Bool := rdB s (if l = 0 then F.xrStatusIn0Up else F.xrStatusIn1Up)
def wrapped (s : State) : Bool := rdB s F.xrStatusWrapped

/-- The unit is the head of its ring (R246). -/
def isHead (s : State) : Bool := s.power.straps.getLsbD 0

/-- The unit is time master, which is also ledger master (R225, R255). -/
def isMaster (s : State) : Bool := rdB s F.tbStatusMaster

/-- The unit is alone: it takes part in no ring (R229, R231). -/
def ringAlone (s : State) : Bool := xrState s ≠ 3

/-- Counts a dropped frame (R243). -/
def frameDrop (s : State) : State := tally s 0x40

/-! ### Frames that pass (R242, R243, R251) -/

/-- The unit acts on a broadcast frame that arrived on a lane: on lane 0, and on lane 1 while it wraps for its upstream hop
(R251). (DEDUCED, log entry 69.) -/
def actsOn (s : State) (lane : Nat) : Bool := lane = 0 || laneLost s 0

/-- The unit lies between the wrapped ends of a folded ring: a PRESENCE frame has come on lane 1 within 4 µs (R251).
(DEDUCED, log entry 100.) -/
def folded (s : State) : Bool := !laneLost s 0 && s.ring.foldSeen.any (fun t => s.clk ≤ t + 4 * usU)

/-- Passes a frame on along its lane, unless it has reached 32 hops. -/
def ringPass (s : State) (h : FrameHdr) (body : TxFrame) : State :=
  let n := h.hops.toNat + 1
  if 32 ≤ n then frameDrop s
  else ringPut s (foldLane s h.lane.val) .pass { h with hops := BitVec.ofNat 8 n } body

/-- The unit sent a broadcast frame that arrives: it carries the unit's address, and the unit has one or claims (R243,
R246). -/
def sentHere (s : State) (h : FrameHdr) : Bool :=
  h.src.toNat = hereAddr s && (rdB s F.xrAddrAddrValid || isMaster s || s.ring.claim)

/-- The frame goes no further than this unit: it is its source, or its destination (R243). -/
def endsHere (s : State) (h : FrameHdr) : Bool :=
  if h.bcast then actsOn s h.lane.val && sentHere s h else h.dst.toNat = hereAddr s && (h.lane = 0 || !folded s)

/-! ### Forwarding at the origin (R264–R266) -/

/-- Credits held for a destination. -/
def credits (s : State) (dst : Nat) : Nat := Tab.get s.ring.credits dst 64
def setCredits (s : State) (dst n : Nat) : State := updPort s (fun r => { r with credits := Tab.set r.credits dst n })

def updFwd (s : State) (id : Nat) (f : FwdOut → FwdOut) : State :=
  updPort s (fun r => { r with fwd := r.fwd.map (fun w => if w.item = id then f w else w) })

/-- The handle of an item in frames: 32 bits of its number (R264). -/
def handleOf (id : Nat) : Nat := id % 2 ^ 32

/-- Sends one waiting item: it spends a credit and takes the next sequence number. -/
def sendOne (s : State) (w : FwdOut) : State :=
  match findItem s w.item with
  | none => s
  | some it =>
    let (n, s1) := nextSeq (setCredits s w.dst (credits s w.dst - 1)) w.dst
    ringSend (updFwd s1 w.item (fun w => { w with sent := true, seq := n, at_ := s.clk })) (.fwdPkt w.dst n false it.pkt (handleOf w.item) it.level)

/-- Sends the items that wait for credits of a destination, oldest first. -/
def sendForwards (s : State) (dst : Nat) : State :=
  if ringSends s then
    (((s.ring.fwd.filter (fun w => w.dst = dst && !w.sent)).take (credits s dst)).foldl sendOne s)
  else s

/-- A forwarded item ends FORWARD_FAIL (R78, R266). -/
def forwardFail (s : State) (id : Nat) (unknown : Bool) : State :=
  endWith (updItem s id (fun i => { i with deliveryUnknown := unknown })) id .forwardFail

/-- The teller routes an item to the ring port (R77, R264); one that names an absent unit ends at once (R266). -/
def forwardItem (s : State) (it : Item) : State :=
  let d := it.pkt.unit.toNat
  let s1 := tally (updItem s it.id (fun i => { i with stage := .forwarded })) 0x07
  if ringLive s1 ∧ xrPresent s1 d then
    sendForwards (updPort s1 (fun r => { r with fwd := r.fwd ++ [{ item := it.id, dst := d }] })) d
  else forwardFail s1 it.id false

/-- Another unit leaves the present map (R254, R266): items forwarded to it end, and receipts for it are discarded. Both
ends begin anew with 64 credits and sequence number 0 when it is present again. -/
def unitLeft (s : State) (k : Nat) : State :=
  let ws := s.ring.fwd.filter (fun w => w.dst = k)
  let lost := (s.ring.rcpts.filter (fun r => r.dst = k)).length
  let s1 := updPort s (fun r => { r with
    fwd := r.fwd.filter (fun w => w.dst ≠ k), rcpts := r.rcpts.filter (fun x => x.dst ≠ k),
    credits := Tab.drop r.credits (fun d => d = k), seqTx := Tab.drop r.seqTx (fun d => d = k),
    seqRx := Tab.drop r.seqRx (fun d => d = k) })
  ws.foldl (fun s w => forwardFail s w.item w.acked) (tallyN s1 0x45 lost)

/-- The present map takes a value (R253). -/
def setPresent (s : State) (m : Nat) : State :=
  let old := rd s F.xrStatusPresent
  let gone := (List.range 16).filter (fun k => bitOf old k && !bitOf m k && k ≠ hereAddr s)
  gone.foldl unitLeft (wr0 s F.xrStatusPresent m)

/-- An enumeration counts as the departure of every unit (R249). -/
def allLeave (s : State) : State := (List.range 16).foldl unitLeft s

/-- The union of the present maps of the last four PRESENCE frames. -/
def mapUnion (ms : List Nat) : Nat := ms.foldl (fun a m => a ||| m) 0

/-! ### Sequence numbers at the receiver (R245, R265) -/

/-- How a FWD_PKT or FWD_RCPT of a source stands to the next sequence number expected: taken before, the next, or
ahead. -/
inductive SeqPlace where
  | old | next | ahead
  deriving DecidableEq, Repr

/-- A SEQ counts as taken at a distance of 128 to 255 ahead, modulo 256. (DESIGN CHOICE, log entry 136.) -/
def seqPlace (s : State) (src seq : Nat) : SeqPlace :=
  let d := (seq + 256 - Tab.get s.ring.seqRx src 0) % 256
  if d = 0 then .next else if d < 128 then .ahead else .old

/-- The next sequence number expected of a source advances. -/
def seqTaken (s : State) (src : Nat) : State :=
  updPort s (fun r => { r with seqRx := Tab.set r.seqRx src ((Tab.get r.seqRx src 0 + 1) % 256) })

/-! ### The ring-wide budget (R225–R228, R261, R262) -/

def holding (s : State) : Nat := rd s F.lgRingStatusHolding
def ringEn (s : State) : Bool := rdB s F.lgRingCtlRingEn

/-- Coins that the VCC ledger holds, charged and set aside. -/
def vccHeld (s : State) : Nat := vccCharged s + vccAside s

/-- What the unit gives up at an exchange, r of R227. -/
def giveUpCoins (s : State) : Nat := holding s - max (vccHeld s) (rd s F.lgRingCtlFloor)

/-- The unit's demand: the coins of its waiting VCC requests that do not fit within HOLDING (R227). -/
def ringDemand (s : State) : Nat :=
  sat 65535 (s.ledger.asks.foldl (fun n a => match a.vcc with
    | some c => if a.since.isSome && a.kind ≠ .aside && holding s < vccHeld s + c then n + c else n
    | none => n) 0)

def updLedger (s : State) (f : Ledger → Ledger) : State := { s with ledger := f s.ledger }

/-- The unit's part of an exchange (R227 steps 1 and 2): HOLDING is lowered, and (r, demand) is reported. A master that
yielded reports its whole pool in its first exchange (R262). -/
def exchangePart (s : State) (n : Nat) : (Nat × Nat) × State :=
  let y := s.ledger.yieldPool
  let s0 := updLedger s (fun l => { l with exch := n, yieldPool := 0 })
  if ringEn s ∧ s.ledger.ringIn then
    let r := giveUpCoins s
    let s1 := wr0 s0 F.lgRingStatusHolding (holding s - r)
    ((sat 65535 (r + y), ringDemand s1), updPort s1 (fun p => { p with exchWait := some n }))
  else ((sat 65535 y, 0), s0)

/-- The allotments (R227 step 3): in address order from `i`, each unit the smaller of its demand and what remains. Answers
(unit, coins) pairs and the rest of the pool. -/
def allotFrom (demand : Nat → Nat) : Nat → Nat → Nat → List (Nat × Nat) × Nat
  | 0, _, pool => ([], pool)
  | k + 1, i, pool =>
    let g := min (demand (i % 16)) pool
    let (r, p) := allotFrom demand k (i + 1) (pool - g)
    ((i % 16, g) :: r, p)

/-- The allotment of unit `k` in a list of pairs. -/
def allotOf (as : List (Nat × Nat)) (k : Nat) : Nat := ((as.find? (fun a => a.1 = k)).map (fun a => a.2)).getD 0

/-- HOLDING is raised by an allotment (R227 step 4), and the exchange is complete. -/
def takeAllot (s : State) (n c : Nat) : State :=
  updPort (wr0 (wr0 s F.lgRingStatusHolding (sat 65535 (holding s + c))) F.lgRingStatusExchange (n % 65536)) (fun p => { p with exchWait := none })

end Sys2Proof.Machine
end

