-- ==== Sys2Proof/Machine/Teller.lean ====
section
/-! DEFINITION. Tellers: packet fetches, the turn of a pair, routing, checks, fences, and what each opcode does when its
item is carried out (R41–R44, R56–R63, R72–R77, R171, R204, R287). -/

namespace Sys2Proof.Machine

/-! ### Packet fetches (R44, R371) -/

/-- A fetch of the pair is outstanding or waits for a credit. -/
def fetchingPair (s : State) (k : Nat) : Bool :=
  s.hi.waiting.any (fun r => r.use = .packetFetch k) || s.hi.reads.any (fun r => r.use = .packetFetch k)

def sqHead (s : State) (k : Nat) : Nat := rd s F.sqHeadHead k
def sqTail (s : State) (k : Nat) : Nat := rd s F.sqTailTail k

/-- The teller may fetch the next packet of a pair. -/
def mayFetch (s : State) (k : Nat) : Bool :=
  rdB s F.ringCfgEnable k && sqHead s k ≠ sqTail s k && !rdB s F.ringStatusFetchErr k && !fetchingPair s k
  && (getRing s k).wait.isNone && tellerUp s (tellerOf s k) && !warn s

/-- The request for the packet at SQ_HEAD. -/
def fetchReq (s : State) (k : Nat) : HiReq :=
  { write := false, src := srcOfTeller (tellerOf s k), addr := rd s F.sqBaseBase k * 4096 + 64 * sqHead s k, len := 64,
    ring := ringLevel s k, attr := rd s F.hpAttrFetchAttr, use := .packetFetch k, cls := 1 }

/-- Fetches the next packet of a pair if the teller may. -/
def kickFetch (s : State) (k : Nat) : State := if mayFetch s k then hiSend s [fetchReq s k] else s

/-- The pair is no longer served (R50): a fetch under way brings no packet any more, but still its error (R51). -/
def stopFetch (s : State) (k : Nat) : State :=
  let off := fun r : HiReq => if r.use = .packetFetch k then { r with use := .fetchDropped k } else r
  let s1 := updRing s k (fun r => { r with wait := none })
  { s1 with hi := { s1.hi with waiting := s1.hi.waiting.filter (fun r => r.use ≠ .packetFetch k), reads := s1.hi.reads.map off } }

/-- The outstanding fetch of a pair, and one of a pair that is no longer served. -/
def fetchOut (s : State) (k : Nat) : Option HiReq := s.hi.reads.find? (fun r => r.use = .packetFetch k)
def fetchGone (s : State) (k : Nat) : Option HiReq := s.hi.reads.find? (fun r => r.use = .fetchDropped k)

/-- Takes the outstanding fetch of a pair, if there is one whose beats showed neither an error nor poison, off the port. -/
def takeFetch (s : State) (k : Nat) : Option State := ((fetchOut s k).filter (fun r => !r.spoilt)).map (readDone s)

/-- A fetch has failed (R51): FETCH_ERR. Where its beats showed neither an error nor poison, which of the two it was is free, and
an error is logged (R368). (DESIGN CHOICE, log entry 53.) -/
def fetchFails (s : State) (k : Nat) (r : HiReq) : State :=
  let s1 := readDone s r
  flag1 (if r.spoilt then s1 else let (b, s2) := freeBit s1; fetchErr s2 r b) F.ringStatusFetchErr k

/-- What a teller had fetched of a pair, or was fetching, is dropped: it is fetched again (R41). -/
def dropFetch (s : State) (k : Nat) : State :=
  hiDrop (updRing s k (fun r => { r with wait := none })) (fun r => r.use = .packetFetch k)

/-! ### Fences and turns (R72–R74) -/

/-- The key of the ring that an item belongs to: its pair, or 256 plus the unit it came from.
(DEDUCED, log entry 67.) -/
def ringKey : Origin → Nat
  | .host k => k
  | .fwd u _ => 256 + u
  | _ => 512

/-- A ring served by a teller lies in the scope of a fence. -/
def FenceRun.covers (f : FenceRun) (key teller : Nat) : Bool :=
  match f.scope with
  | 0 => f.pair = key
  | 1 => f.teller = teller
  | _ => true

/-- A fence in effect stops the routing of a ring (R74). -/
def fenced (s : State) (key teller : Nat) : Bool := s.fences.any (fun f => f.covers key teller)

/-- An item belongs to teller `t`: the teller bound to its ring now, or that of another unit's item. -/
def atTeller (s : State) (t : Nat) (it : Item) : Bool :=
  match it.origin with
  | .host k => tellerOf s k = t
  | _ => it.teller = t

/-- A teller holds an item whose sequencer's store is full (R171): the teller that routed it, and the teller that serves its
ring now, so that the ring keeps its order (R13, R49). -/
def storeWaits (s : State) (t : Nat) : Bool := s.items.any (fun it => it.stage = .waitStore && (it.teller = t || atTeller s t it))

/-- A teller may route (R16, R81, R171). -/
def tellerMay (s : State) (t : Nat) : Bool := tellerUp s t && !warn s && !storeWaits s t

/-- The pair's next packet may be routed (R42–R44, R72–R74). -/
def mayRoute (s : State) (k : Nat) : Bool :=
  let t := tellerOf s k
  rdB s F.ringCfgEnable k && sqHead s k ≠ sqTail s k && tellerMay s t && 0 < freeSlots s k && tellerLoad s t < 4096
  && (getRing s k).fenceAfter.isNone && !fenced s k t
  && (match (getRing s k).wait with
      | some p => !p.fenceBefore || inFlight s k = 0
      | none => false)

/-- The pair that teller `t` serves next: in ascending order after the pair it served last (R72).
(DESIGN CHOICE, log entry 4.) -/
def nextPair (s : State) (t : Nat) : Option Nat :=
  let last := Tab.get s.served t 255
  ((s.rings.map (fun e => e.1)).filter (fun k => tellerOf s k = t && mayRoute s k)).foldl
    (fun o k => match o with
      | none => some k
      | some j => if (k + 255 - last) % 256 < (j + 255 - last) % 256 then some k else o) none

/-! ### Items (R41, R56, R87, R156) -/

/-- The pages of an item: one for each plane. -/
def pagesOf (s : State) (p : Packet) : List Page :=
  if opSense p.op || opProgram p.op || opErase p.op || p.op = 8 then
    p.planeList.map (fun pl => { plane := pl, row := planeRow s p pl, q := List.replicate 4 {} })
  else []

/-- The item of a packet. -/
def mkItem (s : State) (o : Origin) (level teller : Nat) (p : Packet) : Item :=
  let cls := if p.usesQueue then lunClass s p.lun else 0
  { id := s.nextId, origin := o, pkt := p, level := level, teller := teller, lun := p.lun,
    launchRef := if p.launchTick = 0 then fineTick s else p.launchTick.toNat, strength := strengthOf s cls p,
    ladder := ladderOf s cls p, cls := cls, dstCls := if p.op = 8 then lunClass s p.dstLun else 0,
    costSet := costSetOf s cls, dstSet := if p.op = 8 then costSetOf s (lunClass s p.dstLun) else 0, stage := .group, pages := pagesOf s p }

def addItem (s : State) (it : Item) : State := { s with items := s.items ++ [it], nextId := s.nextId + 1 }

/-! ### LUN queues (R79, R171, R287) -/

/-- RESET_LUN and CHANNEL_CTL items in the queues of a channel. -/
def chReserved (s : State) (ch : Nat) : Nat :=
  (lunsOf s ch).foldl (fun n l => n + ((itemsOf s (getLun s l).queue).filter passesHalt).length) 0

/-- The sequencer's store has room for an item (R171): RESET_LUN and CHANNEL_CTL items fill its 64 further entries before
the 4,096. (DEDUCED, log entry 118.) -/
def storeRoom (s : State) (it : Item) : Bool :=
  let r := chReserved s it.lun.ch
  (passesHalt it && r < 64) || chQueued s it.lun.ch - min 64 r < 4096

/-- The store accepts an item: it joins its LUN queue (R56), and a program asks for slots (R313). -/
def storeTakes (s : State) (it : Item) : State :=
  let s1 := enqueue (updItem s it.id (fun i => { i with
    launchRef := if it.pkt.launchTick = 0 then fineTick s else it.launchRef })) it.id it.lun
  if opProgram it.pkt.op then wantSlots s1 it it.pages.length false else s1

/-- An item reaches its LUN queue (R79, R171). -/
def joinQueue (s : State) (it : Item) : State :=
  if !domUp s (dCg (it.lun.ch / 4)) || !chEnabled s it.lun.ch then endWith s it.id .channelFenced
  else if storeRoom s it then storeTakes s it
  else updItem s it.id (fun i => { i with stage := .waitStore })

/-- An item that occupies a LUN queue is carried out; one that moves host data needs a DMA channel (R287). -/
def carryQueue (s : State) (it : Item) : State :=
  if opMoves it.pkt.op && (eligibleDma s it).isEmpty then endWith s it.id .dmaFault else joinQueue s it

/-! ### Items without LUN queue (R216, R223, R236, R263) -/

/-- A ring-wide item is put on the ring (R263). -/
def sendWide (s : State) (p : Packet) : State := if ringWide p && ringLive s then ringSend s (.bcast p) else s

/-- LEDGER_SET, TIME_MARK and NOP (R216, R236). A quiet window is entered when it is routed, from LAUNCH_TICK or, if that
is 0, from the tick at which it was routed. -/
def carryTimed (s : State) (it : Item) : State :=
  let tick := it.pkt.launchTick.toNat
  if isQuiet it.pkt then
    let p := if tick = 0 then { it.pkt with launchTick := BitVec.ofNat 64 (fineTick s) } else it.pkt
    effectRun (sendWide (updItem s it.id (fun i => { i with pkt := p })) p) { it with pkt := p }
  else
    let s1 := sendWide s it.pkt
    if tick = 0 then effectRun s1 it
    else if tick < fineTick s then effectLate s1 it
    else updItem s1 it.id (fun i => { i with stage := .timed })

/-! ### FENCE (R74–R76) -/

/-- The item is in the scope of a fence of ring `key` at teller `t`.
Items that another unit forwarded here are of no ring of it but in its scopes 1 and 2. (DESIGN CHOICE, log entry 130.) -/
def inScope (s : State) (scope key t : Nat) (it : Item) : Bool :=
  it.pkt.op ≠ 0x12
  && (match it.origin with | .host _ | .fwd _ _ => true | _ => false)
  && (match scope with | 0 => ringKey it.origin = key | 1 => atTeller s t it | _ => true)

/-- The receipt in the hold is of an item in the scope of a fence. -/
def heldInScope (s : State) (scope key t : Nat) (h : HeldRcpt) : Bool :=
  !h.reloc && h.bytes.getD 30 0 ≠ 0x12
  && (match scope with | 0 => h.pair = key | 1 => tellerOf s h.pair = t | _ => true)

/-- An item of HK0, of HK1 or of the half link that has not begun: a BOOT_SWAP that waits for another, a CALIBRATE whose run
or boundary has not come, an effect held at the half link. -/
def notBegun (s : State) (it : Item) : Bool :=
  s.host.held.any (fun h => h = .item it.id)
  || (it.pkt.op = 0x16 && s.boot.swap.map (fun w => w.id) ≠ some it.id)
  || (it.pkt.op = 0x14 && s.groups.any (fun e =>
        (it.id ∈ e.2.calItems && calState s e.1 ≠ 3) || it.id ∈ e.2.applyItems))

/-- An item that an abort ends: it has not launched and not begun, and no other unit carries it out (R76). -/
def aborts (s : State) (it : Item) : Bool :=
  !it.launched && (match it.origin with | .fwd _ _ => false | _ => true) && (match it.stage with
    | .waitStore | .queued | .timed | .waitHk => true
    | .group => notBegun s it
    | _ => false)

/-- Ends an item ABORTED_FENCE (R76), wherever it waits. -/
def abortItem (s : State) (id : Nat) : State :=
  stopItem { s with
    host := { s.host with held := s.host.held.filter (fun h => h ≠ .item id) },
    groups := s.groups.map (fun e => (e.1, { e.2 with
      calItems := e.2.calItems.filter (fun i => i ≠ id), applyItems := e.2.applyItems.filter (fun i => i ≠ id) })) } id .abortedFence

/-- A FENCE takes effect (R57, R74). -/
def fenceBegin (s : State) (it : Item) : State :=
  let sc := it.pkt.opByte 8
  if 2 < sc then endItem s it.id
  else
    let key := ringKey it.origin
    let mine := s.items.filter (fun i => i.id ≠ it.id && inScope s sc key it.teller i)
    let held := s.hold.filter (heldInScope s sc key it.teller)
    let f : FenceRun := { item := it.id, scope := sc, pair := key, teller := it.teller,
                          waits := mine.map (fun i => i.id) ++ held.map (fun h => h.item) }
    let s1 := { updItem s it.id (fun i => { i with stage := .fence }) with fences := s.fences ++ [f] }
    let s2 := if it.pkt.opByte 9 % 2 = 1 then
        (mine.filter (aborts s)).foldl (fun s i => abortItem s i.id) s1 else s1
    endFences s2

/-! ### Routing (R41, R57, R63, R77) -/

/-- A packet that fails check `n` ends MISALIGNED. -/
def refuse (s : State) (it : Item) (n : Nat) : State := endWith (updItem s it.id (fun i => { i with check := n })) it.id .misaligned

/-- The housekeeping engine that carries out a CALIBRATE, a BOOT_SWAP or a CHANNEL_CTL (R352). -/
def hkOf (p : Packet) : Nat := if p.op = 0x14 then 1 else 0

/-- HK0 or HK1 begins an item, or, stopped, leaves it waiting (R351). (DEDUCED, log entry 70.) -/
def hkBegin (s : State) (it : Item) : State :=
  if engRunning s 14 (hkOf it.pkt) then
    match it.pkt.op with
    | 0x14 => calBegin s it
    | 0x16 => swapBegin s it
    | _ => ctlBegin s it
  else updItem s it.id (fun i => { i with stage := .waitHk })

/-- An item that passed the checks is carried out here. -/
def carryOut (s : State) (it : Item) : State :=
  if it.pkt.usesQueue then carryQueue s it
  else match it.pkt.op with
    | 0x10 | 0x11 | 0x18 => carryTimed s it
    | 0x12 => fenceBegin s it
    | 0x13 => effectRun s it
    | 0x15 => endItem (poolAddAll s it.pkt) it.id
    | 0x14 | 0x16 | 0x17 => hkBegin s it
    | _ => endItem s it.id

/-- The checks of R63 at the unit that carries the item out, and the item's work. -/
def execute (s : State) (it : Item) : State :=
  match firstCheck s (hereAddr s) it.level it.pkt with
  | some n => refuse s it n
  | none => carryOut s it

/-- The originating teller decides where an item goes (R77). -/
def dispatch (s : State) (it : Item) : State :=
  if it.pkt.forward ∧ 15 < it.pkt.unit.toNat then refuse s it 3
  else if it.pkt.forward ∧ it.pkt.unit.toNat ≠ hereAddr s then forwardItem s it
  else execute s it

/-- The teller advances SQ_HEAD past the waiting packet of a pair: the packet becomes an item (R41, R44). -/
def routePacket (s : State) (k : Nat) (p : Packet) : State :=
  let t := tellerOf s k
  let it := mkItem s (.host k) (ringLevel s k) t p
  let s1 := wr1 (addItem s it) F.sqHeadHead k ((sqHead s k + 1) % sqSize s k)
  let s2 := updRing s1 k (fun r => { r with wait := none, fenceAfter := if p.fenceAfter then some it.id else none })
  let s3 := tally { s2 with served := Tab.set s2.served t k } (3 + t)
  kickFetch (dispatch s3 it) k

/-- Routes the waiting packet of pair `k` if it is that pair's turn. -/
def routeTurn (s : State) (k : Nat) : State :=
  if nextPair s (tellerOf s k) = some k then
    match (getRing s k).wait with
    | some p => routePacket s k p
    | none => s
  else s

/-- The packet at SQ_HEAD of a pair has arrived; the teller routes it if it may. A fetch whose beats showed an error or poison
has failed (R372). -/
def packetArrives (s : State) (k : Nat) (p : Packet) : State :=
  match takeFetch s k, fetchOut s k with
  | some s1, _ => routeTurn (updRing s1 k (fun r => { r with wait := some p })) k
  | none, some r => fetchFails s k r
  | none, none => s

/-! ### Going on (R42, R171) -/

/-- An item that its teller holds goes to its sequencer once the store accepts it, or ends if the channel takes none any
more (R79, R171, R353). -/
def storeRetry (s : State) (t : Nat) : State :=
  match s.items.find? (fun it => it.stage = .waitStore && (it.teller = t || atTeller s t it)) with
  | some it => joinQueue s it
  | none => s

/-- A BOOT_SWAP that waited for HK0 begins. -/
def swapRetry (s : State) : State :=
  match s.items.find? (fun it => it.stage = .group && it.pkt.op = 0x16) with
  | some it => if s.boot.swap.isNone then hkBegin s it else s
  | none => s

/-- The teller of a pair goes on with what waited. -/
def tellerGoesOn (s : State) (k : Nat) : State :=
  kickFetch (routeTurn (swapRetry (storeRetry s (tellerOf s k))) k) k

/-- Every pair. -/
def pairs : List Nat := List.range 256

/-- Fetches again for every pair. -/
def kickAll (s : State) : State := pairs.foldl kickFetch s

end Sys2Proof.Machine
end

