-- ==== Sys2Proof/Machine/Reads.lean ====
section
/-! DEFINITION. What a register reads as (R7): its stored fields, with the fields that mirror other state computed, one
function per register that has such fields. -/

namespace Sys2Proof.Machine

/-- Field `f` of a register's value made `v`. -/
def put (w : W64) (f : Fld) (v : Nat) : W64 := fset w f.lo f.len v

/-- Field `f` made `v`, saturating. -/
def putSat (w : W64) (f : Fld) (v : Nat) : W64 := put w f (sat (2 ^ f.len - 1) v)

/-- A one-bit field made `b`. -/
def putB (w : W64) (f : Fld) (b : Bool) : W64 := put w f (bit b)

/-! ### Life cycle (R469, R470) -/

/-- LC: 0 BLANK, 1 PROVISIONED, 2 DEPLOYED, 3 DECOMMISSIONED (R469). -/
def lifeCycle (s : State) : Nat :=
  match (s.power.straps >>> 5).toNat % 16 with
  | 1 => 0 | 3 => 1 | 15 => 3 | _ => 2

/-- TEST may be entered from READY; scan is honoured (R469). -/
def lcTest (s : State) : Bool := lifeCycle s ≠ 2
def lcScan (s : State) : Bool := lifeCycle s ≤ 1
/-- Logic slices and memory BIST may run on the shut-down path (R469). -/
def lcSdLogic (s : State) : Bool := lifeCycle s ≤ 2

def readLcStatus (s : State) : W64 :=
  put (put (putB (putB (putB (putB 0 F.lcStatusTestOk (lcTest s)) F.lcStatusSdLogic (lcSdLogic s)) F.lcStatusSdMem true)
    F.lcStatusScanOk (lcScan s)) F.lcStatusLcRaw ((s.power.straps >>> 5).toNat % 16)) F.lcStatusLc (lifeCycle s)

/-! ### Decode pools -/

/-- An engine may claim and has no job. -/
def deIdle (s : State) (e : Nat) : Bool :=
  domUp s (dDp (e / 20)) && rd s F.deCtlState e = 3 && !(s.engines.any (fun x => x.1 = e))
    && !poolFenced s (e / 20) && !rdB s F.deCtlFence e

def readDecStatus (s : State) : W64 :=
  let idle (p : Nat) : Nat := ((List.range' (20 * p) 20).filter (deIdle s)).length
  putSat (put (put 0 F.decStatusIdleA (idle 0)) F.decStatusIdleB (idle 1)) F.decStatusWaiting s.jobs.length

/-- CHANNEL is valid while BUSY is 1; otherwise it is the free word. -/
def readDeCtl (s : State) (e : Nat) (fw w : W64) : W64 :=
  match s.engines.find? (fun x => x.1 = e) with
  | some (_, j) => put (putB w F.deCtlBusy true) F.deCtlChannel j.ch
  | none => put w F.deCtlChannel fw.toNat

/-! ### Channels -/

/-- The LUN that CH_LUN_STATE entry 8k + l of a channel shows (R176). -/
def lunAt (ch i : Nat) : Lun := ⟨ch, i / 8, i % 8⟩

/-- The code of ACT (R176). -/
def Act.code : Act → Nat
  | .idle => 0 | .launch => 1 | .sense => 2 | .transfer => 3 | .hold => 4 | .program => 5 | .erase => 6
  | .suspending => 7 | .resuming => 8 | .other => 9

/-- TAG and PAIR of the item that a LUN shows (R176); what the spec gives no value for is the free word.
(DEDUCED, log entry 52.) -/
def lunTag (s : State) (x : LunSt) (fw w : W64) : W64 :=
  match (x.array.or x.cur).bind (findItem s) with
  | some it =>
    match it.origin with
    | .host k => put (put w F.chLunStateTag it.pkt.tag.toNat) F.chLunStatePair k
    | .fwd _ _ => put (put w F.chLunStateTag it.pkt.tag.toNat) F.chLunStatePair fw.toNat
    | _ => put (put w F.chLunStateTag fw.toNat) F.chLunStatePair (fw >>> 16).toNat
  | none => put (put w F.chLunStateTag fw.toNat) F.chLunStatePair (fw >>> 16).toNat

def readLunState (s : State) (ch i : Nat) (fw w : W64) : W64 :=
  let l := lunAt ch i
  if ¬ inPopulation s l then 0
  else
    let x := getLun s l
    let w1 := putSat (put (put w F.chLunStateAct x.act.code) F.chLunStateSuspended x.susp) F.chLunStateSuspCount
      (if x.susp = 0 ∧ x.array.isNone then 0 else x.suspCount)
    let w2 := putSat (putB (putB w1 F.chLunStateHalted x.halted) F.chLunStateResetDue x.resetDue) F.chLunStateQueued x.queue.length
    if x = {} then w2 else lunTag s x fw w2

/-- CG_FENCE and CG_PHY are registers of the first channel of a group; the same offsets of the others read 0 (R487). -/
def firstOnly (i : Nat) (w : W64) : W64 := if i % 4 = 0 then w else 0

def readFifoStat (s : State) (ch f : Nat) (w : W64) : W64 :=
  let x := getFifo s ch f
  putB (putB (put (put (put w F.chFifoStatProdPtr x.seenProd.toNat) F.chFifoStatConsPtr x.cons.toNat) F.chFifoStatWrPtr x.wr.toNat)
    F.chFifoStatEmpty x.empty) F.chFifoStatFull x.full

/-! ### The ledger and the time base -/

/-- Suspends that the ledger ordered have not all completed (R218). -/
def shedding (s : State) : Bool :=
  s.luns.any (fun e => e.2.ledgerSusp && (e.2.suspWant || e.2.act = .suspending))

def readLgStatus (s : State) (w : W64) : W64 :=
  putB (putB (putB (putB w F.lgStatusCutIn (domUp s dHk && s.power.cutPin)) F.lgStatusAltActive (altActive s))
    F.lgStatusQuietActive (quietActive s)) F.lgStatusShedding (shedding s)

/-- Sum of the costs of the VCC requests that wait. -/
def vccWaiting (s : State) : Nat :=
  s.ledger.asks.foldl (fun n a => if a.since.isSome && a.kind ≠ .aside then n + a.vcc.getD 0 else n) 0

def readLgCharged (s : State) : W64 :=
  putSat (putSat (putSat (putSat 0 F.lgChargedVccCharged (vccCharged s)) F.lgChargedVccAside (vccAside s))
    F.lgChargedVccqCharged (vccqCharged s)) F.lgChargedVccWaiting (vccWaiting s)

def readRingStatus (s : State) (w : W64) : W64 :=
  let m := isMaster s
  putB (if m then w else put w F.lgRingStatusPool 0) F.lgRingStatusLedgerMaster m

/-- The fine time base is following (R230). -/
def fineValid (s : State) : Bool := domUp s dHk && !parked s

/-- The count that TB_NOW shows, in 2⁻¹⁶ ns (R501). -/
def tbShown (s : State) : Nat := if fineValid s then s.fine else s.tb

def readTbStatus (s : State) (w : W64) : W64 :=
  putB (putB w F.tbStatusFineValid (fineValid s)) F.tbStatusSynced
    ((rdB s F.tbStatusSynced || isMaster s || xrState s = 0) && !isMcheck s 14 3)

def readXrFwd (s : State) : W64 :=
  putSat (putSat (putSat 0 F.xrFwdOutstanding s.ring.fwd.length) F.xrFwdIntake s.ring.intake.length)
    F.xrFwdRcptPending s.ring.rcpts.length

/-! ### DMA, staging, patrol, boot -/

def readDcStatus (s : State) (d : Nat) (w : W64) : W64 :=
  putSat (putB w F.dcStatusBusy (dcBusy s d)) F.dcStatusQueued (getDma s d).queue.length

/-- Write requests of a DMA channel whose responses have not arrived; those from before its registers were reset do not count
(R296). -/
def dcWrites (s : State) (d : Nat) : Nat := (s.hi.writes.filter (fun r => r.src = srcOfDma d && r.use ≠ .lost)).length

def readBankCtl (s : State) (b : Nat) (w : W64) : W64 :=
  put (putB w F.smBankCtlDrained (drained s b)) F.smBankCtlSlotsUsed (slotsUsed s b)

/-- RUN of PS_STATUS: PAUSED while 64 relocation receipts are held (R327). -/
def readPsStatus (s : State) (w : W64) : W64 :=
  let n := s.patrol.receipts.length
  let w1 := put (put w F.psStatusBacklog (min 64 n)) F.psStatusPair s.patrol.pair
  if rd s F.psStatusRun = 1 ∧ 64 ≤ n then put w1 F.psStatusRun 2 else w1

def readPsPool (s : State) (n : Nat) (w : W64) : W64 := put w F.psPoolEntries (Tab.get s.patrol.pools n []).length

def bootSel (s : State) : Nat := (s.power.straps >>> 1).toNat % 16

def readBootStatus (s : State) (w : W64) : W64 :=
  put (putB w F.bootStatusSwapBusy s.boot.swap.isSome) F.bootStatusBootSel (bootSel s)

/-! ### Microcode -/

/-- MC_ENG (R341, R351): while an engine runs, its ROM moves the micro-PC, so UPC is the free word. One that a machine check
stopped shows the address of the word that stopped it. -/
def readMcEng (s : State) (j e : Nat) (fw w : W64) : W64 :=
  if storeEngines j ≤ e then 0
  else
    let m := getMicro s j e
    put (putB w F.mcEngTrapMasked (m.masked || m.handler)) F.mcEngUpc (if engRunning s j e then fw.toNat else if isMcheck s j e then m.stopAt.toNat else m.upc.toNat)

/-! ### Ports, power, clocks -/

def readHpCredit (s : State) : W64 :=
  putSat (putSat (putSat (putSat 0 F.hpCreditRdCredits s.hi.rdCred) F.hpCreditWrCredits s.hi.wrCred)
    F.hpCreditRdOut (s.hi.reads.filter (fun r => !r.done)).length) F.hpCreditWrOut s.hi.writes.length

def readPortStatus (s : State) (w : W64) : W64 :=
  put (putB (putB (putB w F.portStatusOwnerFault (ownerFault s)) F.portStatusMcheckFault (mcheckFault s))
    F.portStatusClkFaultAny (clkFaultAny s)) ⟨.portStatus, 8, 9⟩ s.power.straps.toNat

/-- Supplies that a domain needs, by SUPPLY_OK bit (R425). -/
def suppliesOf (d : Nat) : List Nat := if d = 0 then [0] else if d = 1 ∨ 8 ≤ d then [1, 2, 3] else [1, 2]

def supplyOk (s : State) (j : Nat) : Bool := s.power.supply.getLsbD j

/-- Every supply that a domain needs is up. -/
def suppliesUp (s : State) (d : Nat) : Bool := (suppliesOf d).all (supplyOk s)

/-- A transition waits for a supply, or for PWR_WARN to fall (R425, R435, R436). -/
def waitsFor (s : State) : Option Nat :=
  match s.power.phase with
  | some .step2 => some 1
  | _ => match s.power.queue with
    | d :: _ => if s.power.pswEn.getLsbD d then none else some d
    | [] => none
def supplyWait (s : State) : Bool := match waitsFor s with | some d => !suppliesUp s d | none => false
def warnWait (s : State) : Bool := (waitsFor s).isSome && warn s

/-- A domain counts as powered (R404). -/
def powered (s : State) (d : Nat) : Bool := s.power.pswEn.getLsbD d && s.power.pswAck.getLsbD d

def readModeCtl (s : State) (w : W64) : W64 :=
  put (putB (putB w F.modeCtlSupplyWait (supplyWait s)) F.modeCtlWarnWait (warnWait s)) F.modeCtlMode (modeCode s)

def readPwrStatus (s : State) (w : W64) : W64 :=
  put (put w F.pwrStatusPowered (bitsWhere 20 (powered s))) F.pwrStatusSupplyS s.power.supply.toNat

/-- CORE_MHZ: of the clock in force (R414, R421). -/
def readCkStatus (s : State) (w : W64) : W64 :=
  put (put w F.ckStatusPhyPllReady (bitsWhere 12 (fun g => domUp s (dCg g) && rdB s F.cgPhyPllReady (4 * g))))
    F.ckStatusCoreMhz (if domUp s dHk then (coreMhz s).1 else 0)

/-! ### All registers -/

/-- What a read of a register returns, before its side effects; `fw` is a fresh free word. -/
def readReg (s : State) (r : Reg) (fw : W64) : W64 :=
  let w := getR s r.name r.i r.j r.k
  match r.name with
  | .serviceMap => BitVec.ofNat 64 (serviceMap s)
  | .serviceBanks => BitVec.ofNat 64 (serviceBanks s)
  | .sqHead => put w F.sqHeadInFlight (inFlight s r.i)
  | .ringStatus => putB w F.ringStatusFetching (fetchingPair s r.i || s.hi.reads.any (fun q => q.use = .fetchDropped r.i))
  | .decStatus => readDecStatus s
  | .deCtl => readDeCtl s r.i fw w
  | .chFifoStat => readFifoStat s r.i r.j w
  | .chFifoDbg => if bitOf (rd s F.chFifoCtlDbgEn r.i) r.j then (getFifo s r.i r.j).popped else 0
  | .chLunState => readLunState s r.i r.j fw w
  | .chCtl => putSat (putB w F.chCtlGroupFenced (cgFenced s (r.i / 4))) F.chCtlQueued (chQueued s r.i)
  | .cgFence | .cgPhy => firstOnly r.i w
  | .lgStatus => readLgStatus s w
  | .lgCharged => readLgCharged s
  | .lgQuietW1 => putB w F.lgQuietW1Valid (quietLive s r.i)
  | .lgRingStatus => readRingStatus s w
  | .tbNow => BitVec.ofNat 64 (tbShown s / nsU)
  | .tbStatus => readTbStatus s w
  | .tbSet | .dcKick | .icComplete => 0
  | .xrStatus => putB w F.xrStatusHead (isHead s)
  | .xrFwd => readXrFwd s
  | .dcStatus => readDcStatus s r.i w
  | .dcOutstanding => putSat 0 F.dcOutstandingWrites (dcWrites s r.i)
  | .smBankCtl => readBankCtl s r.i w
  | .smScrub => putB w F.smScrubActive (scrubOn s)
  | .psStatus => readPsStatus s w
  | .psPool => readPsPool s r.i w
  | .bootStatus => readBootStatus s w
  | .mcEng => readMcEng s r.i r.j fw w
  | .mcRoutine => if r.i < 12 then w else 0
  | .hpCredit => readHpCredit s
  | .portStatus => readPortStatus s w
  | .ckStatus => readCkStatus s w
  | .modeCtl => readModeCtl s w
  | .pwrStatus => readPwrStatus s w
  | .icPend => BitVec.ofNat 64 (bitsWhere 32 (fun b => rdB s F.icSrcPending (32 * r.i + b)))
  | .icClaim => BitVec.ofNat 64 (irqLowest s r.i)
  | .icTgtStatus => putB w F.icTgtStatusIrq (irqOut s r.i)
  | .lcStatus => readLcStatus s
  | _ => w

/-- The side effect of a read (R7, R501): RC fields clear, TB_NOW captures its fraction, a claim is taken (R460). -/
def readEffect (s : State) (r : Reg) : State :=
  match r.name with
  | .smEccStatus => wr0 (wr0 s F.smEccStatusCorrected 0) F.smEccStatusUncorrectable 0
  | .hpIniErr => wr0 s F.hpIniErrCount 0
  | .hpTgtErr => wr0 s F.hpTgtErrCount 0
  | .tbNow => if domUp s dHk then wr0 s F.tbFracFrac (tbShown s % nsU) else s
  | .icClaim => (irqClaim s r.i).2
  | _ => s

/-- A read of CH_FIFO_DBG (R305): while the consumer is detached it pops the next 64-bit word; from an empty FIFO it
returns the last value popped and sets UNDERRUN. -/
def fifoPop (s : State) (ch f : Nat) : W64 × State :=
  if ¬ bitOf (rd s F.chFifoCtlDbgEn ch) f then (0, s)
  else
    let x := getFifo s ch f
    if x.empty then (x.popped, wr s F.chFifoStatUnderrun ch f 0 1)
    else
      let ln := Tab.get x.lines (x.cons.toNat % 512) {}
      let v := BitVec.ofNat 64 (leNat (slice (padTo 64 ln.data) (8 * x.word) 8))
      let last := x.word = 7
      (v, updFifo s ch f (fun y => { y with
        popped := v, touched := true, word := if last then 0 else y.word + 1, cons := if last then y.cons + 1 else y.cons }))

/-- A read of a register: its value and its side effect, once (R379). -/
def readAll (s : State) (r : Reg) : W64 × State :=
  let (fw, s1) := freeWord s
  match r.name with
  | .chFifoDbg => fifoPop s1 r.i r.j
  | _ => (readReg s1 r fw, readEffect s1 r)

end Sys2Proof.Machine
end

