-- ==== Sys2Proof/Machine/Packets.lean ====
section
/-! DEFINITION. The rows that carry a command packet: the packet at SQ_HEAD of a pair arrives from host memory, and the
teller routes it if it may (R41, R44, R57). A row takes the packets of its opcode, and of its target or action where the
table splits an opcode. -/

namespace Sys2Proof.Machine

/-- A packet of a row arrives; `ok` tells that it is the row's. -/
def packetRow (k : Fin 256) (p : Packet) (ok : Bool) (s : State) : Out :=
  if ok then .next (packetArrives s k.val p) else .fault .illFormed

/-! ### Flash opcodes -/

/-- READ (R30, R57). -/
def execRead (k : Fin 256) (p : Packet) (s : State) : Out := packetRow k p (p.op = 0x01) s

/-- READ_MULTI (R61, R181). -/
def execReadMulti (k : Fin 256) (p : Packet) (s : State) : Out := packetRow k p (p.op = 0x02) s

/-- READ_RAW (R59). -/
def execReadRaw (k : Fin 256) (p : Packet) (s : State) : Out := packetRow k p (p.op = 0x03) s

/-- PROGRAM (R32). -/
def execProgram (k : Fin 256) (p : Packet) (s : State) : Out := packetRow k p (p.op = 0x04) s

/-- PROGRAM_MULTI (R61, R181). -/
def execProgramMulti (k : Fin 256) (p : Packet) (s : State) : Out := packetRow k p (p.op = 0x05) s

/-- ERASE (R57). -/
def execErase (k : Fin 256) (p : Packet) (s : State) : Out := packetRow k p (p.op = 0x06) s

/-- ERASE_MULTI (R181). -/
def execEraseMulti (k : Fin 256) (p : Packet) (s : State) : Out := packetRow k p (p.op = 0x07) s

/-- COPY (R60). -/
def execCopy (k : Fin 256) (p : Packet) (s : State) : Out := packetRow k p (p.op = 0x08) s

/-- STATUS (R62). -/
def execStatus (k : Fin 256) (p : Packet) (s : State) : Out := packetRow k p (p.op = 0x09) s

/-- SET_FEATURE (R57). -/
def execSetFeature (k : Fin 256) (p : Packet) (s : State) : Out := packetRow k p (p.op = 0x0a) s

/-- GET_FEATURE (R57). -/
def execGetFeature (k : Fin 256) (p : Packet) (s : State) : Out := packetRow k p (p.op = 0x0b) s

/-- RESET_LUN (R62). -/
def execResetLun (k : Fin 256) (p : Packet) (s : State) : Out := packetRow k p (p.op = 0x0c) s

/-- SEQUENCE (R355). -/
def execSequence (k : Fin 256) (p : Packet) (s : State) : Out := packetRow k p (p.op = 0x0d) s

/-! ### Ledger, time, fences -/

/-- LEDGER_SET of a budget, and of a target that changes nothing (R58, R216). -/
def execLedgerSetBudget (k : Fin 256) (p : Packet) (s : State) : Out := packetRow k p (p.op = 0x10 && p.opByte 8 ≠ 4 && p.opByte 8 ≠ 5) s

/-- LEDGER_SET of a cost table entry (R58, R216). -/
def execLedgerSetCost (k : Fin 256) (p : Packet) (s : State) : Out := packetRow k p (p.op = 0x10 && p.opByte 8 = 4) s

/-- LEDGER_SET of a quiet window (R223). -/
def execLedgerSetQuiet (k : Fin 256) (p : Packet) (s : State) : Out := packetRow k p (p.op = 0x10 && p.opByte 8 = 5) s

/-- TIME_MARK (R236). -/
def execTimeMark (k : Fin 256) (p : Packet) (s : State) : Out := packetRow k p (p.op = 0x11) s

/-- FENCE (R74). -/
def execFence (k : Fin 256) (p : Packet) (s : State) : Out := packetRow k p (p.op = 0x12) s

/-! ### Scrub, calibration, boot twin -/

/-- SCRUB_CTL STOP, and an action that changes nothing (R321). -/
def execScrubStop (k : Fin 256) (p : Packet) (s : State) : Out := packetRow k p (p.op = 0x13 && p.opByte 8 ≠ 1 && p.opByte 8 ≠ 2) s

/-- SCRUB_CTL START (R321). -/
def execScrubStart (k : Fin 256) (p : Packet) (s : State) : Out := packetRow k p (p.op = 0x13 && p.opByte 8 = 1) s

/-- SCRUB_CTL CLEAR_POOL (R321). -/
def execScrubClearPool (k : Fin 256) (p : Packet) (s : State) : Out := packetRow k p (p.op = 0x13 && p.opByte 8 = 2) s

/-- CALIBRATE RUN (R455). -/
def execCalibrateRun (k : Fin 256) (p : Packet) (s : State) : Out := packetRow k p (p.op = 0x14 && p.opByte 8 = 0) s

/-- CALIBRATE RUN_FORCED (R455). -/
def execCalibrateRunForced (k : Fin 256) (p : Packet) (s : State) : Out := packetRow k p (p.op = 0x14 && p.opByte 8 = 1) s

/-- CALIBRATE REBASE (R455). -/
def execCalibrateRebase (k : Fin 256) (p : Packet) (s : State) : Out := packetRow k p (p.op = 0x14 && p.opByte 8 = 2) s

/-- CALIBRATE APPLY, and an action that does nothing (R455). -/
def execCalibrateApply (k : Fin 256) (p : Packet) (s : State) : Out := packetRow k p (p.op = 0x14 && 3 ≤ p.opByte 8) s

/-- RELOC_POOL_ADD (R325). -/
def execRelocPoolAdd (k : Fin 256) (p : Packet) (s : State) : Out := packetRow k p (p.op = 0x15) s

/-- BOOT_SWAP (R337). -/
def execBootSwap (k : Fin 256) (p : Packet) (s : State) : Out := packetRow k p (p.op = 0x16) s

/-! ### CHANNEL_CTL (R204) and NOP -/

/-- CHANNEL_CTL NONE, and an action outside the table (R204). -/
def execChannelCtlNone (k : Fin 256) (p : Packet) (s : State) : Out := packetRow k p (p.op = 0x17 && (p.opByte 8 = 0 || 6 < p.opByte 8)) s

/-- CHANNEL_CTL ENABLE (R204). -/
def execChannelCtlEnable (k : Fin 256) (p : Packet) (s : State) : Out := packetRow k p (p.op = 0x17 && p.opByte 8 = 1) s

/-- CHANNEL_CTL DISABLE (R204). -/
def execChannelCtlDisable (k : Fin 256) (p : Packet) (s : State) : Out := packetRow k p (p.op = 0x17 && p.opByte 8 = 2) s

/-- CHANNEL_CTL FENCE_GROUP (R204). -/
def execFenceGroup (k : Fin 256) (p : Packet) (s : State) : Out := packetRow k p (p.op = 0x17 && p.opByte 8 = 3) s

/-- CHANNEL_CTL UNFENCE_GROUP (R204). -/
def execUnfenceGroup (k : Fin 256) (p : Packet) (s : State) : Out := packetRow k p (p.op = 0x17 && p.opByte 8 = 4) s

/-- CHANNEL_CTL UNHALT_LUN (R204). -/
def execUnhaltLun (k : Fin 256) (p : Packet) (s : State) : Out := packetRow k p (p.op = 0x17 && p.opByte 8 = 5) s

/-- CHANNEL_CTL FLUSH_LUN (R204). -/
def execFlushLun (k : Fin 256) (p : Packet) (s : State) : Out := packetRow k p (p.op = 0x17 && p.opByte 8 = 6) s

/-- NOP (R57), and a packet whose opcode is not in the table (R63). -/
def execNop (k : Fin 256) (p : Packet) (s : State) : Out := packetRow k p (p.op = 0x18 || !opKnown p.op) s

/-! ### Fetches that fail, routing that goes on -/

/-- PACKET_FETCH_ERROR (R51): the fetch of a pair returns an error or poison. -/
def execPacketFetchError (k : Fin 256) (s : State) : Out :=
  match (fetchOut s k.val).or (fetchGone s k.val) with
  | some r => .next (fetchFails s k.val r)
  | none => .next s

/-- ROUTING_RESUME (R42, R171): the teller of a pair goes on where it waited for room. -/
def execRoutingResume (k : Fin 256) (s : State) : Out := .next (tellerGoesOn s k.val)

/-- TICK_EFFECT (R236): the fine time base reaches the tick of an item without LUN queue. -/
def execTickEffect (id : Nat) (s : State) : Out :=
  match findItem s id with
  | some it =>
    if it.stage = .timed ∧ domUp s dHk then
      match reach s (nsU * it.pkt.launchTick.toNat) with
      | some s1 => .next (effectRun (updItem s1 id (fun i => { i with doneTick := some it.pkt.launchTick.toNat })) it)
      | none => .next s
    else .next s
  | none => .next s

end Sys2Proof.Machine
end

