-- ==== Sys2Proof/Machine/Warn.lean ====
section
/-! DEFINITION. Power-fail: what the rise of the filtered PWR_WARN does to items, LUNs, groups and engines, and what its fall
resumes (R81–R84, R161, R198–R200, R347). -/

namespace Sys2Proof.Machine

/-! ### Engines (R347) -/

/-- POWER is raised in every engine. -/
def raisePower (s : State) : State :=
  (List.range 15).foldl (fun s j => (List.range (storeEngines j)).foldl (fun s e => raiseTrap s j e 1) s) s

/-! ### Items (R82) -/

/-- A launch tenure on the bus whose confirm is not sent ends without it (R177): its LUN is IDLE, its coins are
released. -/
def cutLaunch (s : State) (it : Item) : State :=
  match (getCh s it.lun.ch).bus with
  | some t =>
    if t.kind = .launch ∧ t.item = some it.id then
      let s1 := dropCoins (clearBus s it.lun.ch) (fun c => c.item = some it.id)
      if (getLun s it.lun).cur = some it.id ∧ (getLun s it.lun).act = .launch then freeLun s1 it.lun else s1
    else s
  | none => s

/-- A read that needs its channel again ends INTERRUPTED_POWERFAIL once its decoded quarters are delivered; the write that
restores the LUN's read levels after a ladder still runs (R121). A sense on the die runs to its end for no item.
(DESIGN CHOICE, log entry 109.) -/
def warnEscalating (s : State) (it : Item) : State :=
  let s1 := updLun (leaveLun (cutLaunch s it) it) it.lun (fun st => { st with
    head := st.head.filter (fun i => i ≠ it.id), cur := if st.act = .sense ∧ st.cur = some it.id then none else st.cur })
  let s2 := updCh (returnUnused s1 it.id) it.lun.ch (fun c => { c with want := c.want.filter (fun t => t.item ≠ some it.id) })
  let s3 := { s2 with jobs := s2.jobs.filter (fun j => j.item ≠ it.id) }
  giveUp (match it.sense with | .ladder _ _ => endLadder s3 it | _ => s3) it (some .interruptedPowerfail)

/-- What power-fail does to an item in a sense or its launch, by the sense in hand. -/
def warnSensing (s : State) (it : Item) : State :=
  match it.sense with
  | .first => if it.escWant then warnEscalating s it else stopItem (cutLaunch s it) it.id .notIssuedPowerfail
  | .margin => stopItem (cutLaunch s it) it.id .interruptedPowerfail
  | _ => warnEscalating s it

/-- An item whose first transfer has not begun. -/
def untransferred (it : Item) : Bool := it.sense = .first && !it.escWant && !it.xferBegun

/-- A sensed item waits for its data-out (R82, R177): one whose tenure was interrupted goes on. -/
def warnNeedXfer (s : State) (it : Item) : State :=
  if it.sense = .first ∧ ¬ it.escWant ∧ it.xferBegun then s
  else if untransferred it then stopItem s it.id .notIssuedPowerfail
  else warnSensing s it

/-- A program or erase in its array phase: it ends INTERRUPTED_POWERFAIL when the die reports its suspend, or its phase,
complete; one that is suspended already, at once (R82, R198). -/
def warnArray (s : State) (it : Item) : State :=
  let st := getLun s it.lun
  if st.susp ≠ 0 ∧ st.act ≠ .resuming ∧ st.act ≠ .suspending then interruptArray s it.lun
  else mark s it.id .interruptedPowerfail

/-- Power-fail ends a running SEQUENCE routine: the handler of POWER discards the frame that it saved (R350). -/
def warnRoutine (s : State) (it : Item) : State :=
  let j := it.lun.ch / 4
  let e := it.lun.ch % 4
  let s1 := if engRunning s j e then updMicro (trapEntry s j e 1) j e (fun m => { m with handler := false, waiting := false }) else s
  endWith (routineOff s1 it.lun.ch it.lun) it.id .interruptedPowerfail

/-- What power-fail does to an item (R82). -/
def warnItem (s : State) (it : Item) : State :=
  if it.isPatrol ∧ ¬ it.second then stopItem (cutLaunch s it) it.id .notIssuedPowerfail
  else match it.stage with
    | .waitStore | .queued | .timed | .waitHk => stopItem s it.id .notIssuedPowerfail
    | .launch => if it.phase = .sense then warnSensing s it else stopItem (cutLaunch s it) it.id .notIssuedPowerfail
    | .sense | .needSense => warnSensing s it
    | .needXfer => warnNeedXfer s it
    | .xfer => if it.sense = .margin then mark s it.id .interruptedPowerfail else s
    | .decode =>
      if it.sense = .margin then mark s it.id .interruptedPowerfail else leaveLun s it
    | .program | .erase => warnArray s it
    | .other => if it.pkt.op = 0x0d then warnRoutine s it else s
    | .group =>
      if it.pkt.op = 0x16 ∧ s.boot.swap.map (fun w => w.id) ≠ some it.id then endWith s it.id .notIssuedPowerfail else s
    | _ => s

/-- Power-fail acts on the item with a number, if it has not ended meanwhile. -/
def warnOne (s : State) (id : Nat) : State :=
  match findItem s id with
  | some it => warnItem s it
  | none => s

/-! ### LUNs (R198, R199) -/

/-- A LUN whose running phase power-fail suspends: a kind for which its channel allows it. -/
def warnSuspends (s : State) (l : Lun) : Bool :=
  let st := getLun s l
  (st.act = .program && rdB s F.chSchedSuspProg l.ch) || (st.act = .erase && rdB s F.chSchedSuspErase l.ch)

/-- Power-fail orders the suspend of a LUN: it takes the place of one for a bounded item. -/
def warnLun (s : State) (l : Lun) : State :=
  if warnSuspends s l then
    updCh (updLun s l (fun st => { st with suspWant := true })) l.ch (fun c => { c with
      want := c.want.filter (fun t => !(t.kind = .suspend && t.lun = l && t.cls ≠ 1)) })
  else s

/-- Resumes that have not begun are not made (R198). -/
def dropResumes (s : State) : State :=
  { s with chans := s.chans.map (fun e => (e.1, { e.2 with want := e.2.want.filter (fun t => t.kind ≠ .resume) })) }

/-- The filtered PWR_WARN rises (R82). -/
def warnRises (s : State) : State :=
  if warn s then s
  else
    let s0 := dropResumes s
    let s1 := raisePower { s0 with power := { s0.power with warn := true } }
    let s2 := (s1.items.map (fun it => it.id)).foldl warnOne s1
    let s3 := (s2.luns.map (fun e => e.1)).foldl warnLun s2
    let s4 := (s3.chans.map (fun e => e.1)).foldl (fun s ch => kickBus (issueOrdered s ch) ch) s3
    (List.range 12).foldl calWarn s4

/-- The filtered PWR_WARN falls (R84): routing and launching resume, LUNs with an interrupted operation are reset, and
bring-ups go on (R161). -/
def warnFalls (s : State) : State :=
  let s1 := { s with power := { s.power with warn := false } }
  let s2 := (((channels s1).flatMap (lunsOf s1)).filter (fun l => (getLun s1 l).resetDue)).foldl askReset s1
  let s3 := (s2.chans.map (fun e => e.1)).foldl kickBus s2
  kickAll ((List.range 12).foldl bringupResume s3)

end Sys2Proof.Machine
end

