-- ==== Sys2Proof/Machine/RingCmds.lean ====
section
/-! DEFINITION. The commands of the Xaram ring: frames that arrive, the periodic work of HK3, lanes that come up and go down,
and the ring-wide ledger exchange (R227, R240–R270). -/

namespace Sys2Proof.Machine

/-! ### The port's life (R246–R252) -/

/-- A frame or a lane gives HK3 work (R347). -/
def trapHk3 (s : State) : State := raiseTrap s 14 3 9

/-- The unit's own bit of a present map. -/
def myBit (s : State) : Nat := 2 ^ hereAddr s

/-- The unit takes an address (R246, R249). -/
def takeAddr (s : State) (a : Nat) : State :=
  let s1 := if a ≠ hereAddr s then flag0 s F.xrStatusAddrChanged else s
  wr0 (wr0 s1 F.xrAddrAddr a) F.xrAddrAddrValid 1

/-- Every unit departs, until presence frames come (R249). -/
def forgetUnits (s : State) : State :=
  let s1 := wr0 (allLeave s) F.xrStatusPresent 0
  updPort s1 (fun r => { r with maps := [] })

/-- The address that an enumeration gave the unit is taken, once the enumeration has ended (R246, R248).
(DEDUCED, log entry 61.) -/
def commitAddr (s : State) : State :=
  match s.ring.enumAddr with
  | some a => updPort (takeAddr s a) (fun r => { r with enumAddr := none })
  | none => s

/-- The head begins an enumeration with a fresh nonce (R246). -/
def enumBegin (s : State) : State :=
  let (w, s0) := freeWord s
  let n := w.toNat % 65536
  let s1 := wr0 (setXr (forgetUnits s0) 2) F.xrCtlReenum 1
  ringSend (updPort s1 (fun r => { r with nonce := n, enumRun := true, enumAddr := some 0 })) (.enum 0 n 1)

/-- The lanes let the port leave TRAINING: both are up, or one is and the unit has wrapped (R246). -/
def lanesReady (s : State) : Bool := (laneUp s 0 && laneUp s 1) || (wrapped s && (laneUp s 0 || laneUp s 1))

/-- A port whose lanes are trained waits for its enumeration; the head begins it. -/
def portTrained (s : State) : State :=
  if xrState s = 1 ∧ hk3Up s ∧ lanesReady s then (if isHead s then enumBegin (setXr s 2) else setXr s 2) else s

/-- The unit becomes time master; one that is elected begins with an empty pool (R255, R262). -/
def becomeMaster (s : State) (elected : Bool) : State :=
  let s1 := wr0 (wr0 (wr0 (wr0 (wr0 s F.tbStatusMaster 1) F.tbStatusSynced 1) F.tbStatusSlewing 0) F.tbStatusOffset 0)
    F.xrStatusMasterAddr (hereAddr s)
  let s2 := updPort s1 (fun r => { r with claim := false, joining := false, corr := 0, offset := 0 })
  if elected then tally (wr0 s2 F.lgRingStatusPool 0) 0x44 else s2

/-- The port stops: its outputs are idle, and every other unit is gone for it (R250). -/
def portOff (s : State) : State :=
  let s1 := setXr (forgetUnits s) 0
  let s2 := wr0 (wr0 (wr0 s1 F.xrStatusIn0Up 0) F.xrStatusIn1Up 0) F.xrStatusWrapped 0
  let s3 := wr0 (wr0 (wr0 s2 F.tbStatusMaster 0) F.tbStatusSynced 0) F.tbStatusSlewing 0
  updPort (wr0 s3 F.xrCtlReenum 0) (fun r => { r with
    enumRun := false, enumAddr := none, claim := false, joining := false, upAt := [], rx := [], tx := [], txq := [], lost := [],
    foldSeen := none, t1 := [], dist := [], corr := 0, offset := 0, step := none, judge := false, exchWait := none })

/-- ENABLE of XR_CTL takes a value (R246, R250). -/
def portEnable (s : State) (on : Bool) : State :=
  let s1 := wr0 s F.xrCtlEnable (bit on)
  if on then (if xrState s1 = 0 ∧ hk3Up s1 then setXr s1 1 else s1) else portOff s1

/-- REENUM is written 1: only the head acts on it (R246). -/
def reenum (s : State) : State := if isHead s ∧ ringOn s ∧ xrState s ≠ 1 then enumBegin s else s

/-! ### Incoming lanes (R240, R241, R251, R252) -/

def getRx (s : State) (lane : Nat) : RxLane := Tab.get s.ring.rx lane {}
def updRx (s : State) (lane : Nat) (f : RxLane → RxLane) : State :=
  updPort s (fun r => { r with rx := Tab.set r.rx lane (f (getRx s lane)) })

/-- XR_STATUS IN0_UP, IN1_UP. -/
def inUp (lane : Nat) : Fld := if lane = 0 then F.xrStatusIn0Up else F.xrStatusIn1Up

/-- A lane may deliver frames: it has block lock, and the high bit-error-rate monitor is false (R241). -/
def locked (s : State) (lane : Nat) : Bool := (getRx s lane).lock && !(getRx s lane).hiBer

/-- The lane has delivered a valid frame within the last 4 µs (R241). -/
def frameFresh (s : State) (lane : Nat) : Bool := (getRx s lane).lastFrame.any (fun t => s.clk ≤ t + 4 * usU)

/-- A lane that meets the three conditions of R241 comes up. -/
def laneRises (s : State) (lane : Nat) : State :=
  if locked s lane ∧ frameFresh s lane ∧ ¬ laneUp s lane then
    updPort (wr0 s (inUp lane) 1) (fun r => { r with upAt := Tab.set r.upAt lane s.clk })
  else s

/-- A valid frame arrives on a lane. -/
def frameSeen (s : State) (lane : Nat) : State :=
  portTrained (laneRises (updRx s lane (fun x => { x with lastFrame := some s.clk })) lane)

/-- LANE_UP (R241): an incoming lane gains block lock, and its high bit-error-rate monitor is false. It is up once it has
delivered a valid frame. (DEDUCED, log entry 101.) -/
def execLaneUp (lane : Fin 2) (s : State) : Out :=
  .next (if domUp s dHk ∧ xrState s ≠ 0 then
      portTrained (laneRises (updRx s lane.val (fun x => { x with lock := true, hiBer := false })) lane.val)
    else s)

/-- An incoming lane goes down, and the unit wraps (R251). (DEDUCED, log entry 63.) -/
def laneFalls (s : State) (lane : Nat) : State :=
  if domUp s dHk ∧ xrState s ≠ 0 ∧ (laneUp s 0 ∨ laneUp s 1) then
    let s1 := updPort (wr0 s (inUp lane) 0) (fun r => { r with lost := if lane ∈ r.lost then r.lost else r.lost ++ [lane] })
    let s2 := if wrapped s then s1 else tally (wr0 s1 F.xrStatusWrapped 1) 0x42
    portTrained (flag0 s2 F.xrStatusBreakSeen)
  else s

/-- What a lane that goes down no longer has. -/
def laneLoses (s : State) (lane : Nat) (c : LaneCause) : State :=
  updRx s lane (fun x => match c with
    | .noLock => { x with lock := false }
    | .highBer => { x with hiBer := true }
    | .noFrame => { x with lastFrame := none })

/-- LANE_DOWN (R241, R251); a lane goes down for lack of frames 4 µs after the last. -/
def execLaneDown (fall : LaneFall) (s : State) : Out :=
  let lane := fall.lane.val
  match fall.cause, (getRx s lane).lastFrame with
  | .noFrame, some t =>
    match lapse s (4 * usU + t) with
    | some s1 => .next (laneFalls (laneLoses s1 lane fall.cause) lane)
    | none => .next s
  | _, _ => .next (laneFalls (laneLoses s lane fall.cause) lane)

/-- Lanes that are up and have delivered no valid frame for 4 µs go down (R241). -/
def laneWatch (s : State) : State :=
  [0, 1].foldl (fun s l => if laneUp s l && !frameFresh s l then laneFalls s l else s) s

/-- A lane that the unit lost, and that is up again. -/
def healing (s : State) (lane : Nat) : Bool := s.ring.lost.contains lane && laneUp s lane

/-- When a lane has stayed up for HEAL_HOLD_US. -/
def healAt (s : State) (lane : Nat) : Nat := Tab.get s.ring.upAt lane 0 + usU * rd s F.xrCtlHealHoldUs

/-- The lanes that have stayed up long enough are no longer lost; when none is, the unit unwraps (R252). -/
def heal (s : State) : State :=
  let s1 := updPort s (fun r => { r with lost := r.lost.filter (fun l => !(laneUp s l && healAt s l ≤ s.clk)) })
  if s1.ring.lost.isEmpty then tally (flag0 (wr0 s1 F.xrStatusWrapped 0) F.xrStatusHealSeen) 0x43 else s1

/-- HEAL_HOLD_EXPIRY (R252): a lane that went down has stayed up for HEAL_HOLD_US. -/
def execHealHoldExpiry (s : State) : Out :=
  let ts := ([0, 1].filter (healing s)).map (healAt s)
  match ts with
  | [] => .next s
  | t :: more =>
    if ringOn s ∧ wrapped s then
      match lapse s (more.foldl min t) with
      | some s1 => .next (heal s1)
      | none => .next s
    else .next s

/-! ### Frames that arrive (R240, R243, R247) -/

/-- What a frame meets on arrival: it is taken (`act`), passed on, or lost. A frame with a control block of another type is
a block error and is dropped (R240); so is one with a wrong check block, which CRC_SEEN shows (R243), and one that names
another sending lane (R241). A unit in PASS passes every frame (R247). While HK3 is stopped, frames still pass through the
unit, and those that end at it are lost (R352). (DEDUCED, log entry 101.)
A unit in PASS still answers the frames of each hop. (DEDUCED, log entry 133.) -/
def frameIn (s : State) (h : FrameHdr) (body : TxFrame) (act : State → State) : State :=
  if !domUp s dHk || xrState s = 0 || !locked s h.lane.val then s
  else if h.ctl.isSome then frameDrop (updRx s h.lane.val (fun x => { x with blockErrs := x.blockErrs + 1 }))
  else if !frameOk h body then frameDrop (flag0 s F.xrStatusCrcSeen)
  else if h.named ≠ h.lane then frameDrop s
  else
    let s1 := frameSeen s h.lane.val
    if xrState s1 = 4 && !body.perHop then ringPass s1 h body
    else if !engRunning s1 14 3 then (if body.perHop || endsHere s1 h then s1 else ringPass s1 h body)
    else act s1

/-- A broadcast frame: removed by its source when it returns on lane 0, else acted on and passed on by `act` (R243). -/
def bcastIn (s : State) (h : FrameHdr) (body : TxFrame) (back act : State → State) : State :=
  frameIn s h body (fun s =>
    if actsOn s h.lane.val then (if sentHere s h then back s else act s) else ringPass s h body)

/-- An addressed frame: taken by its destination, passed on by any other unit, and on lane 1 by units between the wrapped
ends of a folded ring (R243, R251). -/
def addrIn (s : State) (h : FrameHdr) (body : TxFrame) (act : State → State) : State :=
  frameIn s h body (fun s =>
    if h.dst.toNat = hereAddr s && (h.lane = 0 || !folded s) then act s else ringPass s h body)

/-! ### Enumeration (R246–R249) -/

/-- An ENUM frame returns to the head, or reaches another head. (DEDUCED, log entry 62.) -/
def enumHead (s : State) (addr nonce count : Nat) : State :=
  if s.ring.enumRun ∧ nonce = s.ring.nonce then
    let s1 := if 15 < addr ∨ 16 < count then flag0 s F.xrStatusOversize else s
    let s2 := setXr (wr0 (wr0 (commitAddr s1) F.xrStatusUnitsM1 (min 15 (count - 1))) F.xrCtlReenum 0) 3
    becomeMaster (updPort s2 (fun r => { r with enumRun := false, lastPres := s.clk })) false
  else
    let s1 := wr0 (flag0 s F.xrStatusHeadConflict) F.xrCtlReenum 0
    setXr (updPort s1 (fun r => { r with enumRun := false, enumAddr := none })) 2

/-- An ENUM frame at a unit that is not the head: the unit takes the next address, once the enumeration has ended, or
passes for want of one.
(DESIGN CHOICE, log entry 134.) -/
def enumUnit (s : State) (h : FrameHdr) (addr nonce count : Nat) : State :=
  let a := addr + 1
  if 15 < a then
    ringPass (flag0 (setXr (updPort (forgetUnits s) (fun r => { r with enumAddr := none })) 4) F.xrStatusOversize) h (.enum addr nonce (count + 1))
  else
    let s1 := wr0 (forgetUnits s) F.tbStatusMaster 0
    ringPass (setXr (updPort s1 (fun r => { r with claim := false, enumAddr := some a, enumHops := h.hops.toNat })) 2) h (.enum a nonce (count + 1))

/-- ENUM_FRAME (R246). -/
def execEnumFrame (h : FrameHdr) (addr : Byte) (nonce : BitVec 16) (count : Byte) (s : State) : Out :=
  let body := TxFrame.enum addr.toNat nonce.toNat count.toNat
  .next (frameIn s h body (fun s =>
    if !actsOn s h.lane.val then ringPass s h body
    else if isHead s then enumHead (trapHk3 s) addr.toNat nonce.toNat count.toNat
    else enumUnit (trapHk3 s) h addr.toNat nonce.toNat count.toNat))

/-! ### Presence and mastership (R253–R259) -/

/-- A present map of master `k` was received: the master always counts (R253). -/
def mapIn (s : State) (m k : Nat) : State :=
  let s1 := updPort s (fun r => { r with maps := (m :: r.maps).take 4, lastPres := s.clk })
  setPresent s1 (mapUnion s1.ring.maps ||| 2 ^ k)

/-- The unit slews toward another master (R259). -/
def slews (s : State) : State :=
  wr0 (wr0 (flag0 s F.xrStatusYielded) F.tbStatusSlewing 1) F.tbStatusSynced 0

/-- The unit follows master `m`; `slew` tells that it comes from another part of the ring (R259), and `judge` that it may:
its own part's PRESENCE frames may have shown it before. (DEDUCED, log entry 138.) -/
def follow (s : State) (m : Nat) (slew judge : Bool) : State :=
  let s1 := wr0 s F.xrStatusMasterAddr m
  let s2 := if isMaster s then
      updLedger (wr0 (wr0 s1 F.tbStatusMaster 0) F.lgRingStatusPool 0) (fun l => { l with yieldPool := l.yieldPool + rd s F.lgRingStatusPool })
    else s1
  let s3 := updPort s2 (fun r => { r with claim := false, judge := judge })
  if slew then slews s3 else s3

/-- The unit hears a PRESENCE frame of master `m`, with the present map held before it. -/
def hearMaster (s : State) (m old : Nat) : State :=
  let me := hereAddr s
  let cur := rd s F.xrStatusMasterAddr
  let other := !bitOf old m
  if xrState s ≠ 3 then
    wr0 (setXr (updPort (follow s m false false) (fun r => { r with joining := true })) 3) F.tbStatusSynced 0
  else if isMaster s then (if m < me then follow s m other (!other) else s)
  else if s.ring.claim then (if m < me then follow s m false false else s)
  else if m = cur then s
  else if !xrPresent s cur then follow s m false false
  else if m < cur then follow s m other (!other) else s

/-- The ring-wide budget starts with a PRESENCE frame: a unit with RING_EN takes HOLDING = FLOOR (R226).
(DESIGN CHOICE, log entry 102.) -/
def hearStart (s : State) : State :=
  let s1 := if ringEn s then wr0 s F.lgRingStatusHolding (rd s F.lgRingCtlFloor) else s
  updPort (updLedger s1 (fun l => { l with ringRun := true, ringIn := ringEn s, yieldPool := 0 })) (fun r => { r with exchWait := none })

/-- The unit has missed an exchange before number `n`: its report, or an allotment (R228, R261). -/
def missedExch (s : State) (n : Nat) : Bool :=
  s.ledger.ringRun && (n ≠ (s.ledger.exch + 1) % 65536 || s.ring.exchWait.isSome)

/-- A unit's part in the exchange that a PRESENCE frame carries (R227, R228, R261): the slot it writes. A unit that missed
one keeps its holding. (DEDUCED, log entry 58.) -/
def hearExchange (s : State) (n : Nat) : (Nat × Nat) × State :=
  let s1 := if missedExch s n then flag0 s F.lgStatusRingStale else s
  exchangePart (updPort (updLedger s1 (fun l => { l with ringRun := true })) (fun r => { r with exchWait := none })) n

/-- The frame comes from the head whose enumeration gave the unit its address: from master 0, and over as many hops (R248). A
PRESENCE frame of another head that ran before, still on its way, does not. (DEDUCED, log entry 61.) -/
def fromHead (s : State) (h : FrameHdr) (p : Presence) : Bool := p.master = 0 && h.hops.toNat = s.ring.enumHops

/-- A PRESENCE frame of another unit passes (R253, R261). -/
def presencePass (s : State) (h : FrameHdr) (p : Presence) : State :=
  let old := rd s F.xrStatusPresent
  let s0 := if fromHead s h p then commitAddr s else s
  let s1 := hearMaster (mapIn s0 (p.present.toNat ||| myBit s0) p.master.toNat) p.master.toNat old
  let p1 := { p with present := p.present ||| BitVec.ofNat 16 (myBit s0) }
  let s2 := if p.start ∧ ¬ isMaster s1 then
      updLedger (hearStart s1) (fun l => { l with exch := if p.hasExch then (p.exch.toNat + 65535) % 65536 else p.exch.toNat })
    else s1
  if p.hasExch ∧ ¬ isMaster s2 then
    let ((r, d), s3) := hearExchange s2 p.exch.toNat
    let slot := (BitVec.ofNat 16 r, BitVec.ofNat 16 d)
    ringPass s3 h (.presence { p1 with slots := p1.slots.set (hereAddr s) slot })
  else ringPass s2 h (.presence p1)

/-- The master runs the allotment of the exchange whose frame has returned (R227 step 3, R261). -/
def allotRun (s : State) (p : Presence) : State :=
  let n := p.exch.toNat
  let slot := fun k => p.slots.getD k (0, 0)
  let pool := rd s F.lgRingStatusPool + (List.range 16).foldl (fun a k => a + (slot k).1.toNat) 0
  let (as, rest) := allotFrom (fun k => (slot k).2.toNat) 16 (n % 16) pool
  let s1 := ringSend (wr0 s F.lgRingStatusPool (sat 65535 rest)) (.allot n ((List.range 16).map (allotOf as)))
  takeAllot s1 n (allotOf as (hereAddr s))

/-- The unit's own PRESENCE frame returns (R253, R255, R261): a claimant becomes master. -/
def presenceBack (s : State) (p : Presence) : State :=
  let s1 := mapIn s p.present.toNat (hereAddr s)
  let s2 := if s1.ring.claim then becomeMaster s1 true else s1
  if p.hasExch && isMaster s2 && s2.ring.exchWait = some p.exch.toNat then allotRun s2 p else s2

/-- A PRESENCE frame on lane 1 shows a unit that does not wrap for its upstream hop that the ring is folded (R251). -/
def foldHeard (s : State) (lane : Nat) : State :=
  if lane = 1 ∧ ¬ laneLost s 0 then updPort s (fun r => { r with foldSeen := some s.clk }) else s

/-- PRESENCE_FRAME (R253). -/
def execPresenceFrame (h : FrameHdr) (p : Presence) (s : State) : Out :=
  if p.slots.length ≠ 16 then .fault .illFormed
  else .next (frameIn s h (.presence p) (fun s0 =>
    let s := foldHeard s0 h.lane.val
    if ¬ actsOn s h.lane.val ∨ xrState s = 1 then ringPass s h (.presence p)
    else if sentHere s h then presenceBack (trapHk3 s) p
    else presencePass (trapHk3 s) h p))

/-- The PRESENCE frame that the unit sends.
(DESIGN CHOICE, log entry 135.) -/
def presenceOf (s : State) (exch : Option (Nat × Nat × Nat)) : Presence :=
  let slots := List.replicate 16 ((0 : BitVec 16), (0 : BitVec 16))
  { master := BitVec.ofNat 4 (hereAddr s), present := BitVec.ofNat 16 (myBit s), hasExch := exch.isSome,
    start := s.ring.startDue, exch := BitVec.ofNat 16 ((exch.map (fun e => e.1)).getD s.ledger.exch),
    slots := match exch with
      | some (_, r, d) => slots.set (hereAddr s) (BitVec.ofNat 16 r, BitVec.ofNat 16 d)
      | none => slots }

/-- Sends a PRESENCE frame; a start of the ring-wide budget goes with it. -/
def sendPresence (s : State) (exch : Option (Nat × Nat × Nat)) : State :=
  updPort (ringSend s (.presence (presenceOf s exch))) (fun r => { r with startDue := false })

/-- PRESENCE_SEND_TICK (R253, R255): the master, or a claimant, sends a PRESENCE frame.
(DESIGN CHOICE, log entry 65.) -/
def execPresenceSendTick (s : State) : Out :=
  if ringSends s ∧ (isMaster s ∨ s.ring.claim) then .next (sendPresence s none) else .next s

/-- MASTER_LOST (R253, R255): no PRESENCE frame has come for 4 µs, and the unit claims. -/
def execMasterLost (s : State) : Out :=
  if ringLive s ∧ ¬ isMaster s ∧ ¬ s.ring.claim then
    match lapse s (4 * usU + s.ring.lastPres) with
    | some s1 => .next (updPort s1 (fun r => { r with claim := true, joining := false }))
    | none => .next s
  else .next s

/-! ### The ledger exchange (R226, R227, R261) -/

/-- RING_START is written 1 on the ledger master (R226). The floors and the charges of the other units present are not
known here. (DEDUCED, log entry 56.) (DEDUCED, log entry 57.) -/
def ringStart (s : State) : State :=
  if !isMaster s then s
  else
    let others := (List.range 16).filter (fun k => xrPresent s k && k ≠ hereAddr s)
    let own := if ringEn s then rd s F.lgRingCtlFloor else 0
    let (w, s1) := if others.isEmpty then (0, s) else freeWord s
    let (b, s2) := if others.isEmpty then (false, s1) else freeBit s1
    let sum := own + w.toNat % (others.length * 65535 + 1)
    let budget := rd s F.lgRingCtlRingBudget
    if budget < sum ∨ b ∨ (ringEn s ∧ own < vccHeld s) then flag0 s2 F.lgStatusRingRefused
    else
      let s3 := if ringEn s then wr0 s2 F.lgRingStatusHolding own else s2
      updPort (updLedger (wr0 s3 F.lgRingStatusPool (budget - sum)) (fun l => { l with
          ringRun := true, ringIn := ringEn s, exch := 0, yieldPool := 0 }))
        (fun r => { r with exchWait := none, startDue := !others.isEmpty })

/-- LEDGER_EXCHANGE_TICK (R227, R261): the fine time base reaches a multiple of 1,000 ticks on the master. -/
def execLedgerExchangeTick (s : State) : Out :=
  if ringSends s ∧ isMaster s ∧ s.ledger.ringRun then
    let m := max s.ledger.exchAt (ceilDiv s.fine (1000 * nsU))
    match reach s (1000 * nsU * m) with
    | none => .next s
    | some s0 =>
      let s1 := if s0.ring.exchWait.isSome then flag0 s0 F.lgStatusRingStale else s0
      let n := (s1.ledger.exch + 1) % 65536
      let ((r, d), s2) := exchangePart s1 n
      let s3 := updPort (updLedger s2 (fun l => { l with exch := n, exchAt := m + 1 })) (fun p => { p with exchWait := some n })
      .next (sendPresence s3 (some (n, r, d)))
  else .next s

/-- ALLOT_FRAME (R261): the unit raises HOLDING by its own entry. -/
def execAllotFrame (h : FrameHdr) (exch : BitVec 16) (allot : List (BitVec 16)) (s : State) : Out :=
  if allot.length ≠ 16 then .fault .illFormed
  else
    let body := TxFrame.allot exch.toNat (allot.map (fun a => a.toNat))
    .next (bcastIn s h body (fun s => s) (fun s =>
      let s1 := if s.ring.exchWait = some exch.toNat then takeAllot s exch.toNat (allot.getD (hereAddr s) 0).toNat else s
      ringPass (trapHk3 s1) h body))

/-! ### Time transfer (R257–R260) -/

/-- The hop on which a frame of the time exchange arrives: lane 0 comes from upstream (hop 0). -/
def hopOf (h : FrameHdr) : Nat := h.lane.val

/-- TIME_EXCHANGE_TICK (R257): a TIME_REQ goes out on each hop. What the neighbour of a hop reported counts no longer when
the last request on the hop was not answered: one of its lanes is not up. (DEDUCED, log entry 103.) -/
def execTimeExchangeTick (s : State) : Out :=
  if ringOn s ∧ ¬ parked s then
    let s1 := updPort s (fun r => { r with
      dist := Tab.drop r.dist (fun hop => r.t1.any (fun e => e.1 = hop)), t1 := [] })
    .next (ringSend (ringSend s1 (.timeReq 0)) (.timeReq 1))
  else .next s

/-- The parent hop: of the hops whose lane is up and whose neighbour has reported, the smaller distance, the upstream one
first (R257). -/
def parentHop (s : State) : Option Nat :=
  let d := fun hop => if laneUp s hop then (s.ring.dist.find? (fun e => e.1 = hop)).map (fun e => e.2) else none
  match d 0, d 1 with
  | some a, some b => some (if a ≤ b then 0 else 1)
  | some _, none => some 0
  | none, some _ => some 1
  | none, none => none

/-- The unit's own distance to the master in hops. -/
def myDist (s : State) : Nat :=
  if isMaster s then 0 else match parentHop s with
    | some hop => sat 255 (Tab.get s.ring.dist hop 0 + 1)
    | none => 255

/-- The offset from the master that a TIME_RSP carries. -/
def sentOffset (s : State) : Int := if isMaster s then 0 else max (-(2 ^ 63 : Int)) (min (2 ^ 63 - 1) s.ring.offset)

/-- TIME_REQ_FRAME (R257): the neighbour's request is answered; t3 is taken as the answer leaves.
(DEDUCED, log entry 59.) -/
def execTimeReqFrame (h : FrameHdr) (s : State) : Out :=
  .next (frameIn s h (.timeReq (hopOf h)) (fun s =>
    ringSend (trapHk3 s) (.timeRsp (hopOf h) s.fine (s.fine % 2 ^ 40) (sentOffset s) (myDist s))))

/-- Picoseconds and units of 2⁻¹⁶ ns. -/
def psToU (p : Int) : Int := p * 65536 / 1000
def uToPs (u : Int) : Int := u * 1000 / 65536

/-- XR_ASYM of a hop, in units of the time base. -/
def asymU (s : State) (hop : Nat) : Int := psToU (rdInt s (if hop = 0 then F.xrAsymUpAsym else F.xrAsymDownAsym))

/-- The time base steps by a signed amount (R256, R260, R501). -/
def stepTime (s : State) (d : Int) : State :=
  let add := fun t : Nat => (((t : Int) + d) % (2 ^ 80 : Int)).toNat
  retime (updPort { s with tb := add s.tb, fine := add s.fine } (fun r => { r with t1 := [] }))

/-- The correction of the increment that HK3 applies; only its bound of 200 ppm is stated (R229, R257).
(DEDUCED, log entry 60.) -/
def freeCorr (s : State) : State :=
  let (w, s1) := freeWord s
  updPort s1 (fun r => { r with corr := (w.toNat % 1049 : Nat) - (524 : Int) })

/-- An offset measured on the hop toward the parent (R257–R259). -/
def measured (s : State) (off : Int) : State :=
  let near := off.natAbs ≤ 2 * nsU
  let s := updPort (if s.ring.judge ∧ ¬ near then slews s else s) (fun r => { r with judge := false })
  let sat32 := max (-(2 ^ 31 : Int)) (min (2 ^ 31 - 1) off)
  let s1 := updPort (wr0 s F.tbStatusOffset ((sat32 % (2 ^ 32 : Int)).toNat)) (fun r => { r with offset := off })
  let s2 := if near then wr0 s1 F.tbStatusSlewing 0 else s1
  freeCorr (wr0 s2 F.tbStatusSynced (bit near))

/-- The first exchange of a joining unit: it steps to its parent's time, and claims if its address is the lowest present
(R256). -/
def joinStep (s : State) (theta : Int) : State :=
  let s1 := stepTime (updPort s (fun r => { r with joining := false })) (-theta)
  if hereAddr s1 < rd s1 F.xrStatusMasterAddr ∧ ¬ (List.range (hereAddr s1)).any (xrPresent s1) then
    updPort s1 (fun r => { r with claim := true })
  else s1

/-- A TIME_RSP answers the request on a hop (R257).
XR_HOP shows the delay of the last exchange. (DESIGN CHOICE, log entry 137.) -/
def timeRsp (s : State) (hop : Nat) (t2 : BitVec 80) (t3 : BitVec 40) (poff : Int) (dist : Nat) : State :=
  let s1 := updPort s (fun r => { r with dist := Tab.set r.dist hop dist })
  match s.ring.t1.find? (fun e => e.1 = hop) with
  | none => s1
  | some (_, t1n) =>
    let t1 := BitVec.ofNat 80 t1n
    let t4 := BitVec.ofNat 80 s.fine
    let t3 := t2 + (t3 - t2.setWidth 40).setWidth 80
    let theta := ((t4 - t3).toInt - (t2 - t1).toInt - asymU s hop) / 2
    let delay := ((t4 - t1).toInt - (t3 - t2).toInt) / 2
    let s2 := wr0 (updPort s1 (fun r => { r with t1 := r.t1.filter (fun e => e.1 ≠ hop) }))
      (if hop = 0 then F.xrHopUpDelay else F.xrHopDownDelay) (uToPs delay % (2 ^ 32 : Int)).toNat
    if isMaster s2 ∨ parentHop s2 ≠ some hop ∨ xrState s2 ≠ 3 then s2
    else match s2.ring.step with
      | some d => stepTime (updPort s2 (fun r => { r with step := none })) d
      | none => if s2.ring.joining then joinStep s2 theta else measured s2 (theta + poff)

/-- TIME_RSP_FRAME (R257). -/
def execTimeRspFrame (h : FrameHdr) (t2 : BitVec 80) (t3 : BitVec 40) (offset : W64) (dist : Byte) (s : State) : Out :=
  .next (frameIn s h (.timeRsp (hopOf h) t2.toNat t3.toNat offset.toInt dist.toNat) (fun s =>
    timeRsp (trapHk3 s) (hopOf h) t2 t3 offset.toInt dist.toNat))

/-- STEP_FRAME (R260): the step, in ticks, is added at the unit's first time exchange after it. -/
def execStepFrame (h : FrameHdr) (step : W64) (s : State) : Out :=
  .next (bcastIn s h (.step step.toInt) (fun s => s) (fun s =>
    let s1 := if isMaster s then s else updPort s (fun r => { r with step := some (step.toInt * 65536 + r.step.getD 0) })
    ringPass (trapHk3 s1) h (.step step.toInt)))

/-! ### Ring-wide items (R263) -/

/-- A ring-wide item that arrives: a quiet window, or an item whose tick has passed, applies at once. -/
def bcastTake (s : State) (p : Packet) : State :=
  if !ringWide p then s
  else if isQuiet p ∨ p.launchTick.toNat ≤ fineTick s then effectNow s p
  else updPort s (fun r => { r with bcasts := r.bcasts ++ [p] })

/-- BCAST_FRAME (R263): a unit that is not in RUNNING is not present, and only passes it on. -/
def execBcastFrame (h : FrameHdr) (p : Packet) (s : State) : Out :=
  .next (bcastIn s h (.bcast p) (fun s => s) (fun s =>
    if xrState s = 3 then ringPass (bcastTake (trapHk3 s) p) h (.bcast p) else ringPass s h (.bcast p)))

/-- BCAST_TICK_APPLY (R263): the tick of a ring-wide item received arrives. -/
def execBcastTickApply (i : Nat) (s : State) : Out :=
  match s.ring.bcasts[i]? with
  | some p =>
    match reach s (nsU * p.launchTick.toNat) with
    | some s1 => .next (effectNow (updPort s1 (fun r => { r with bcasts := r.bcasts.eraseIdx i })) p)
    | none => .next s
  | none => .next s

/-! ### Forwarding (R264–R267) -/

/-- FWD_PKT_FRAME (R264, R265): a packet in order of its source enters the intake. One taken before is acknowledged again,
once it is an item. (DEDUCED, log entry 64.) -/
def execFwdPktFrame (h : FrameHdr) (p : Packet) (handle : W32) (level : BitVec 2) (s : State) : Out :=
  let src := h.src.toNat
  let body := TxFrame.fwdPkt h.dst.toNat h.seq.toNat h.retry p handle.toNat level.toNat
  .next (addrIn s h body (fun s0 =>
    let s := trapHk3 s0
    match seqPlace s src h.seq.toNat with
    | .next =>
      if s.ring.intake.length < 1024 then
        updPort (seqTaken s src) (fun r => { r with intake := r.intake ++ [⟨src, handle.toNat, level.toNat, p⟩] })
      else s
    | .old =>
      if s.ring.intake.any (fun e => e.src = src && e.handle = handle.toNat) then s else ringSend s (.fwdAck src handle.toNat)
    | .ahead => s))

/-- INTAKE_TO_TELLER (R264, R270): the first packet of the intake passes to T0 or T2, by the owner half, becomes an item,
and is acknowledged. (DEDUCED, log entry 66.) -/
def execIntakeToTeller (s : State) : Out :=
  match s.ring.intake with
  | [] => .next s
  | e :: rest =>
    let t := 2 * owner s
    if hk3Up s ∧ tellerMay s t ∧ ¬ linkHeld s ∧ ¬ fenced s (256 + e.src) t then
      let it := mkItem s (.fwd e.src e.handle) e.level t e.pkt
      let s1 := addItem (updPort s (fun r => { r with intake := rest })) it
      .next (execute (ringSend (tally s1 (3 + t)) (.fwdAck e.src e.handle)) it)
    else .next s

/-- FWD_ACK_FRAME (R264): the packet is acknowledged and its credit returns. -/
def execFwdAckFrame (h : FrameHdr) (handle : W32) (s : State) : Out :=
  let src := h.src.toNat
  .next (addrIn s h (.fwdAck h.dst.toNat handle.toNat) (fun s0 =>
    let s := trapHk3 s0
    match s.ring.fwd.find? (fun w => handleOf w.item = handle.toNat && w.dst = src && w.sent && !w.acked) with
    | some w =>
      let s1 := updFwd s w.item (fun w => { w with acked := true })
      sendForwards (setCredits s1 src (min 64 (credits s1 src + 1))) src
    | none => s))

/-- A receipt with FORWARDED set (R77). -/
def forwardedRcpt (b : List Byte) : List Byte := b.set 28 ((b.getD 28 0) ||| 1#8)

/-- The receipt of a forwarded item arrives at its origin (R77, R265). -/
def forwardEnds (s : State) (w : FwdOut) (it : Item) (b : List Byte) : State :=
  let s1 := updPort s (fun r => { r with fwd := r.fwd.filter (fun x => x.item ≠ it.id) })
  let s2 := if w.acked then s1 else setCredits s1 w.dst (min 64 (credits s1 w.dst + 1))
  let s3 := tallyC (dropItem (cleanup s2 it.id) it.id) (0x10 + (b.getD 2 0).toNat % 16) it.cls
  match it.origin with
  | .host k => sendForwards (holdPut s3 { pair := k, item := it.id, bytes := forwardedRcpt b, rcptIrq := it.pkt.rcptIrq }) w.dst
  | _ => s3

/-- FWD_RCPT_FRAME (R265, R78): the receipt goes to the hold and is acknowledged; one for an item that has ended is
discarded. -/
def execFwdRcptFrame (h : FrameHdr) (handle : W32) (rcpt : List Byte) (s : State) : Out :=
  if rcpt.length ≠ 32 then .fault .illFormed
  else
    let src := h.src.toNat
    .next (addrIn s h (.fwdRcpt h.dst.toNat h.seq.toNat h.retry handle.toNat rcpt) (fun s0 =>
      let s := trapHk3 s0
      match seqPlace s src h.seq.toNat with
      | .ahead => s
      | .old => ringSend s (.rcptAck src handle.toNat)
      | .next =>
        let s1 := seqTaken s src
        let w? := s1.ring.fwd.find? (fun w => handleOf w.item = handle.toNat && w.dst = src)
        let s2 := match w?, w?.bind (fun w => findItem s1 w.item) with
          | some w, some it => forwardEnds s1 w it rcpt
          | _, _ => tally s1 0x45
        ringSend s2 (.rcptAck src handle.toNat)))

/-- RCPT_ACK_FRAME (R265): the receipt need not be sent again. -/
def execRcptAckFrame (h : FrameHdr) (handle : W32) (s : State) : Out :=
  .next (addrIn s h (.rcptAck h.dst.toNat handle.toNat) (fun s0 =>
    updPort (trapHk3 s0) (fun r => { r with rcpts := r.rcpts.filter (fun x => !(x.handle = handle.toNat && x.dst = h.src.toNat)) })))

/-- Sends a FWD_PKT again (R265). -/
def resendFwd (s : State) (w : FwdOut) (it : Item) : State :=
  tally (ringSend (updFwd s w.item (fun w => { w with at_ := s.clk })) (.fwdPkt w.dst w.seq true it.pkt (handleOf w.item) it.level)) 0x41

/-- Sends a FWD_RCPT again (R265). -/
def resendRcpt (s : State) (x : RcptOut) : State :=
  tally (ringSend (updPort s (fun r => { r with rcpts := r.rcpts.map (fun y => if y = x then { y with at_ := s.clk } else y) }))
    (.fwdRcpt x.dst x.seq true x.handle x.bytes)) 0x41

/-- The unacknowledged FWD_PKT and FWD_RCPT with a handle whose destination is present (R265). -/
def fwdDue (s : State) (n : Nat) : Option FwdOut :=
  s.ring.fwd.find? (fun w => handleOf w.item = n && w.sent && !w.acked && xrPresent s w.dst && (findItem s w.item).isSome)

/-- Of the receipts with a handle, the one sent longest ago. -/
def rcptDue (s : State) (n : Nat) : Option RcptOut :=
  (s.ring.rcpts.filter (fun x => x.handle = n && xrPresent s x.dst)).foldl (fun b x =>
    match b with | some y => if x.at_ < y.at_ then some x else b | none => some x) none

/-- FWD_RETRANSMIT_EXPIRY (R265): 20 µs have passed without an acknowledgement, and the destination is present. Of the
frames with the handle, the one sent longest ago is sent again. -/
def execFwdRetransmitExpiry (handle : W32) (s : State) : Out :=
  let n := handle.toNat
  let fwd := fun (s : State) (w : FwdOut) => match findItem s w.item with | some it => resendFwd s w it | none => s
  let again := fun (t : Nat) (f : State → State) => match lapse s (20 * usU + t) with | some s1 => f s1 | none => s
  .next (if !ringSends s then s
    else match fwdDue s n, rcptDue s n with
    | some w, some x => if w.at_ ≤ x.at_ then again w.at_ (fun s => fwd s w) else again x.at_ (fun s => resendRcpt s x)
    | some w, none => again w.at_ (fun s => fwd s w)
    | none, some x => again x.at_ (fun s => resendRcpt s x)
    | none, none => s)

end Sys2Proof.Machine
end

