-- ==== Sys2Proof/Machine/SharedWrites.lean ====
section
/-! DEFINITION. Register writes: how the field types of R7 take a write, and the registers of the shared regions, the
interrupt controller, the tallies, the ledger, the time base and the Xaram ring (R19). -/

namespace Sys2Proof.Machine

/-! ### Field types (R7, R8) -/

/-- The bits of a register whose fields have a type. -/
def accMask (n : RegName) (a : Access) : W64 :=
  n.row.fields.foldl (fun m f => if f.acc = a then m ||| fmask f.lo f.len else m) 0

/-- A write to one register: the bits of `mask` are written, with the values in `val`. -/
structure RegWrite where
  reg : Reg
  val : W64
  mask : W64
  deriving DecidableEq, Repr

/-- The register's stored value after the write: RW fields take their bits, W1C fields lose those written 1 (R7). -/
def RegWrite.next (w : RegWrite) (s : State) : W64 :=
  let old := getR s w.reg.name w.reg.i w.reg.j w.reg.k
  let rw := accMask w.reg.name .rw &&& w.mask
  ((old &&& ~~~rw) ||| (w.val &&& rw)) &&& ~~~(w.val &&& w.mask &&& accMask w.reg.name .w1c)

/-- The write as the field types have it. -/
def RegWrite.plain (w : RegWrite) (s : State) : State := setR s w.reg.name w.reg.i w.reg.j w.reg.k (w.next s)

/-- A one-bit field is written 1. -/
def RegWrite.one (w : RegWrite) (f : Fld) : Bool := fget (w.val &&& w.mask) f.lo 1 = 1

/-- The value that a field would have after the write. -/
def RegWrite.get (w : RegWrite) (s : State) (f : Fld) : Nat := fget (w.next s) f.lo f.len

/-- The write would change a field. (DEDUCED, log entry 28.) -/
def RegWrite.changes (w : RegWrite) (s : State) (f : Fld) : Bool := w.get s f ≠ rd s f w.reg.i w.reg.j w.reg.k

/-- The write without its effect on a field. -/
def RegWrite.keeping (w : RegWrite) (f : Fld) : RegWrite := { w with mask := w.mask &&& ~~~(fmask f.lo f.len) }

/-! ### The shared regions -/

/-- TALLY_SNAP_CTL (R467). -/
def writeSnap (s : State) (w : RegWrite) : State :=
  let s1 := w.plain s
  if w.one F.tallySnapCtlSnapNow then tallySnapshot s1 else s1

/-- LG_BUDGET: VCC_ALT written while it is in force makes the ledger pick again (R237). -/
def writeBudget (s : State) (w : RegWrite) : State :=
  if w.changes s F.lgBudgetVccAlt then setVccAlt (w.plain s) (w.get s F.lgBudgetVccAlt) else w.plain s

/-- LG_CTL: CUT_EN and FORCE_ALT decide which budgets are in force (R217). -/
def writeLgCtl (s : State) (w : RegWrite) : State :=
  let s1 := w.plain s
  if domUp s dHk then altChange (altActive s) (altAsked s) s1 else s1

/-- LG_RING_CTL: RING_START (R226). -/
def writeLgRing (s : State) (w : RegWrite) : State :=
  let s1 := w.plain s
  if w.one F.lgRingCtlRingStart ∧ domUp s dHk then ringStart s1 else s1

/-- TB_SET (R231): taken at the next AON edge on the time master or a unit alone. -/
def writeTbSet (s : State) (w : RegWrite) : State :=
  if isMaster s ∨ ringAlone s then { s with tbNext := some (nsU * w.val.toNat) } else flag0 s F.tbStatusSetRefused

/-- XR_CTL: ENABLE and REENUM (R246). -/
def writeXrCtl (s : State) (w : RegWrite) : State :=
  let s1 := w.plain s
  let on := rdB s1 F.xrCtlEnable
  let s2 := if on = rdB s F.xrCtlEnable then s1 else portEnable s1 on
  if w.one F.xrCtlReenum then reenum s2 else s2

/-- A write to a register of the shared regions. -/
def sharedWrite (s : State) (w : RegWrite) : State :=
  match w.reg.name with
  | .icSrc => irqSrcWrite s w.reg.i w.val
  | .icComplete => irqComplete s w.reg.i (fget w.val 0 10)
  | .tallySnapCtl => writeSnap s w
  | .lgBudget => writeBudget s w
  | .lgCtl => writeLgCtl s w
  | .lgRingCtl => writeLgRing s w
  | .tbSet => writeTbSet s w
  | .xrCtl => writeXrCtl s w
  | _ => w.plain s

/-- The address lies in a shared region: interrupt controller, tallies, ledger, time base, Xaram ring (R19). -/
def inShared (a : Nat) : Bool := 0x20000 ≤ a && a < 0x70000

/-! ### Which registers an access touches (R376, R379, R487, R488) -/

/-- The instance of register `n` at address `a`, if there is one: its indices from the strides of its table. -/
def indexOf (dims : List (Nat × Nat)) (off : Nat) : Option (List Nat) :=
  match dims with
  | [] => if off = 0 then some [] else none
  | (c, st) :: r => if off / st < c then (indexOf r (off % st)).map (fun l => off / st :: l) else none

def regAtName (n : RegName) (a : Nat) : Option Reg :=
  let row := n.row
  if a < row.base then none
  else (indexOf row.dims (a - row.base)).map (fun l => ⟨n, l.getD 0 0, l.getD 1 0, l.getD 2 0⟩)

/-- The register whose bytes begin at an address. -/
def regAt (a : Nat) : Option Reg := RegName.all.findSome? (fun n => regAtName n a)

/-- The address of a register. -/
def regAddr (r : Reg) : Nat :=
  match r.name.row.dims with
  | [] => r.name.row.base
  | [(_, a)] => r.name.row.base + a * r.i
  | [(_, a), (_, b)] => r.name.row.base + a * r.i + b * r.j
  | (_, a) :: (_, b) :: (_, c) :: _ => r.name.row.base + a * r.i + b * r.j + c * r.k

/-- How an access meets a register: all of a 64-bit register or of a 32-bit one at bit `sh` of the lanes, or the low or
the high half of a 64-bit register. -/
inductive Part where
  | all (sh : Nat) | low | high
  deriving DecidableEq, Repr

/-- The registers that an access touches, low register first (R380, R488). (DEDUCED, log entry 87.) -/
def touched (q : HostAccess) : List (Reg × Part) :=
  let a := q.addr.toNat
  let g := a / 8 * 8
  match regAt g with
  | some r =>
    if r.name.row.wide then [(r, if q.size64 then .all 0 else if a = g then .low else .high)]
    else
      let hi := (regAt (g + 4)).map (fun r => (r, Part.all 32))
      if q.size64 then (r, .all 0) :: hi.toList else if a = g then [(r, .all 0)] else hi.toList
  | none =>
    match regAt (g + 4) with
    | some r => if q.size64 ∨ a = g + 4 then [(r, .all 32)] else []
    | none => []

/-- The write that an access makes to a register it touches. -/
def partWrite (q : HostAccess) (t : Reg × Part) : RegWrite :=
  match t.2 with
  | .all sh => { reg := t.1, val := q.data >>> sh, mask := if t.1.name.row.wide then ~~~0 else 0xffffffff#64 }
  | .low => { reg := t.1, val := q.data, mask := 0xffffffff#64 }
  | .high => { reg := t.1, val := q.data, mask := 0xffffffff00000000#64 }

end Sys2Proof.Machine
end

