-- ==== Sys2Proof/Machine/Owner.lean ====
section
/-! DEFINITION. The reads of an access (R376, R379), requests held at the half link, and ownership: handover, conflict,
and a front end that stops or becomes up (R19–R28). -/

namespace Sys2Proof.Machine

/-! ### Reads of an access -/

/-- The high half of a 64-bit register: the shadow of the requester (R379); a free word where its last low-half read was of
another register, or there was none. (DEDUCED, log entry 88.) -/
def highHalf (s : State) (rid g : Nat) : W64 × State :=
  match s.host.shadow.find? (fun e => e.1 = rid ∧ e.2.1 = g) with
  | some (_, _, v) => (v.setWidth 64 <<< 32, s)
  | none => let (w, s1) := freeWord s; (w &&& 0xffffffff00000000#64, s1)

/-- One register's part of a read: its lanes, and the state after its side effect. -/
def readPart (s : State) (q : HostAccess) (t : Reg × Part) : W64 × State :=
  let rid := q.acc.rid.toNat
  let g := q.addr.toNat / 8 * 8
  match t.2 with
  | .all sh => let (w, s1) := readAll s t.1; (w <<< sh, s1)
  | .low =>
    let (w, s1) := readAll s t.1
    (w &&& 0xffffffff#64, { s1 with host := { s1.host with shadow := Tab.set s1.host.shadow rid (g, (w >>> 32).setWidth 32) } })
  | .high => highHalf s rid g

/-- A read of every register that an access touches, low register first (R380). -/
def readAccess (s : State) (q : HostAccess) : W64 × State :=
  (touched q).foldl (fun a t => let (w, s1) := readPart a.2 q t; (a.1 ||| w, s1)) (0, s)

/-- An access to a shared region is applied and answered (R19). -/
def sharedAccess (s : State) (q : HostAccess) (sl : RspSlot) : State :=
  if q.write then answer ((touched q).foldl (fun s t => sharedWrite s (partWrite q t)) s) q sl rOkay
  else let (w, s1) := readAccess s q; answer s1 q sl rOkay w

/-! ### The half link (R23, R24, R26) -/

/-- An access that touches a shared region (R19). -/
def sharedAcc (q : HostAccess) : Bool := !inWindow q.addr && (touched q).any (fun t => inShared (regAddr t.1))

/-- The serving path that takes an access (R362, R381): half A's front end, half B's, or the always-on responder (2). -/
def pathOf (s : State) (q : HostAccess) : Nat :=
  match if inWindow q.addr then none else (touched q).head? with
  | some t =>
    let d := regDomain t.1
    if d = dFe 0 ∨ d = dFe 1 then d - dFe 0
    else if d = dAon ∧ ¬(q.write ∧ inShared (regAddr t.1)) then 2
    else owner s
  | none => owner s

/-- An access comes behind one that is held (R381): a read behind a write of its requester, a write behind a read of its
requester, and an access behind one that its serving path has to apply first. What is held at the half link has not reached
a path. (DESIGN CHOICE, log entry 125.) -/
def behindOne (s : State) (q e : HostAccess) : Bool :=
  (e.acc.rid = q.acc.rid && e.write ≠ q.write) || (pathOf s e = pathOf s q && !(s.host.handover && sharedAcc e))

/-- An access comes behind one of the requests held before it, or behind a boot-window access that waits for a load. -/
def behind (s : State) (before : List HeldReq) (q : HostAccess) : Bool :=
  s.boot.heldAcc.any (fun e => behindOne s q e.1)
    || before.any (fun h => match h with | .access e _ => behindOne s q e | _ => false)

/-- A held request is applied; an access outside the shared regions stays held. -/
def applyHeldOne (s : State) (h : HeldReq) : State :=
  match h with
  | .access q sl =>
    if sharedAcc q && !behind s s.host.held q then sharedAccess s q sl
    else { s with host := { s.host with held := s.host.held ++ [h] } }
  | .item id => match findItem s id with
    | some it => effectEnds s it
    | none => s
  | .packet p => packetEffect s p

/-- The owner applies the held requests in arrival order; what comes behind an access that still waits goes on waiting. -/
def applyHeld (s : State) : State := s.host.held.foldl applyHeldOne { s with host := { s.host with held := [] } }

/-- An access that has to wait is held: a write is answered at once, a read keeps its place (R24, R381). -/
def holdAccess (s : State) (q : HostAccess) : State :=
  if q.write then
    let s1 := answer s q .fresh rOkay
    { s1 with host := { s1.host with held := s1.host.held ++ [.access q .given] } }
  else
    let (i, s1) := holdRsp s
    { s1 with host := { s1.host with held := s1.host.held ++ [.access q (.kept i)] } }

/-- Reads held for a domain that powers down receive ACCESS_ERR, and the rest of what was held is dropped (R430), but for
what waits for the always-on responder. -/
def failHeld (s : State) : State :=
  s.host.held.foldl (fun s h => match h with
    | .access q sl =>
      if pathOf s q = 2 ∧ ¬ sharedAcc q then { s with host := { s.host with held := s.host.held ++ [h] } }
      else match sl with
        | .kept _ => answer s q sl rAccess
        | _ => s
    | _ => s) { s with host := { s.host with held := [] } }

/-! ### Ownership (R21–R26) -/

/-- The FE_x_UP field of a half. -/
def feUpFld (h : Nat) : Fld := if h = 0 then F.ownerCtlFeAUp else F.ownerCtlFeBUp

/-- The fence field of a half's front end. -/
def feFenceFld (h : Nat) : Fld := if h = 0 then F.svcFeCtlFeAFence else F.svcFeCtlFeBFence

/-- The tellers of a half. -/
def tellersOf (h : Nat) : List Nat := [2 * h, 2 * h + 1]

/-- An ownership change reaches the front ends: trap HANDOVER (R347). -/
def raiseHandover (s : State) : State := (List.range 4).foldl (fun s t => raiseTeller s t 8) s

/-- OWNER takes a value. -/
def setOwner (s : State) (h : Nat) : State := raiseHandover (wr0 s F.ownerCtlOwner h)

/-- The handover in progress ends. -/
def endHandover (s : State) : State :=
  { wr0 s F.ownerCtlHandover 0 with host := { s.host with handover := false, ownerStopped := false, claims := false } }

/-- A handover ends as refused (R23). -/
def refuseHandover (s : State) : State := flag0 (endHandover s) F.ownerCtlHandoverRefused

/-- A write of 1 to HANDOVER (R23, R24, R36). -/
def handoverAsked (s : State) : State :=
  if s.host.handover then s
  else if ¬ feUp s (1 - owner s) then flag0 s F.ownerCtlHandoverRefused
  else { wr0 s F.ownerCtlHandover 1 with host := { s.host with handover := true, ownerStopped := false, claims := false } }

/-- A half yields in a conflict or a loss. -/
def yields (s : State) (f : Fld) (h : Nat) : State := wr0 (flag0 s f) F.ownerCtlYieldedHalf h

/-- The arbiter inverts OWNER (R23), unless the old owner claims at that moment and R25 decides; the winner applies the
held requests. -/
def invertOwner (s : State) : State :=
  let o := owner s
  let n := if s.host.claims then rd s F.ownerCtlOwnerPref else 1 - o
  let s1 := if s.host.claims then yields s F.ownerCtlOwnerConflict (1 - n) else s
  applyHeld (endHandover (if n = o then s1 else setOwner s1 n))

/-- HANDOVER_INVERT (R23). -/
def execHandoverInvert (s : State) : Out := .next (if s.host.handover then invertOwner s else s)

/-- What the stop of a front end does to ownership (R23, R26): with the other up, OWNER moves; else it keeps its value, and
requests are held. (DEDUCED, log entry 32.) -/
def ownerAfterStop (s : State) (h : Nat) : State :=
  let o := owner s
  if s.host.handover then
    if h = o then { s with host := { s.host with ownerStopped := true, claims := false } }
    else
      let s1 := refuseHandover s
      if feUp s o then applyHeld s1 else s1
  else if h = o then
    let s1 := yields s F.ownerCtlOwnerLost h
    if feUp s (1 - h) then setOwner s1 (1 - h) else s1
  else s

/-- The packet fetches of a half's tellers are dropped: the packets are fetched again (R16, R41). -/
def dropFetches (s : State) (h : Nat) : State :=
  pairs.foldl (fun s k => if tellerOf s k / 2 = h then dropFetch s k else s) s

/-- A front end stops: FE_x_UP falls, its tellers fetch nothing (R16), its DMA channels stop (R296), and ownership
follows R23 or R26. -/
def feStop (s : State) (h : Nat) : State :=
  if feUp s h then ownerAfterStop (dcStop (dropFetches (wr0 s (feUpFld h) 0) h) h) h else s

/-- A front end becomes up, and ownership follows (R25, R26): it claims during a handover away from its half; the first to
become up owns when the owner's is down. Whether a second front end that becomes up at the same time does so in the same
arbitration cycle, in which OWNER_PREF decides, is free. (DEDUCED, log entry 96.) -/
def ownerAfterUp (s : State) (h : Nat) : State :=
  let s1 := wr0 s (feUpFld h) 1
  if s.host.handover then
    if s.host.ownerStopped ∧ h = owner s then { s1 with host := { s1.host with claims := true } } else s1
  else if ¬ feUp s (owner s) then
    applyHeld { (if h = owner s then s1 else setOwner s1 h) with host := { s1.host with firstUp := some s.clk } }
  else if h ≠ owner s ∧ h = rd s F.ownerCtlOwnerPref ∧ s.host.firstUp = some s.clk then
    let (b, s2) := freeBit s1
    if b then setOwner s2 h else s2
  else s1

/-- A front end becomes up (R25, R26): its tellers go on. -/
def feBecomesUp (s : State) (h : Nat) : State :=
  if feUp s h ∨ ¬ domUp s (dFe h) ∨ feFenced s h then s
  else
    let s4 := (tellersOf h).foldl tellerResume (hiPump (ownerAfterUp s h))
    pairs.foldl (fun s k => if tellerOf s k / 2 = h then kickFetch s k else s) s4

/-- Front-end fences take values (R484); a write that would leave both at 1 is refused. (DEDUCED, log entry 33.) -/
def setFeFences (s : State) (a b : Bool) : State :=
  if a ∧ b then flag0 s F.svcFeCtlRefused
  else
    let now := fun (h : Nat) => if h = 0 then a else b
    let s1 := [0, 1].foldl (fun s h =>
      if now h ∧ ¬ feFenced s h then
        feStop (wr0 ((tellersOf h).foldl (fun s t => raiseTeller s t 6) s) (feFenceFld h) 1) h
      else s) s
    [0, 1].foldl (fun s h => if ¬ now h ∧ feFenced s h then feBecomesUp (wr0 s (feFenceFld h) 0) h else s) s1

end Sys2Proof.Machine
end

