-- ==== Sys2Proof/Machine/Domains.lean ====
section
/-! DEFINITION. Power domains: what each loses when it powers down or loses power, what it does when it comes up, and the
power sequencer (R404, R425–R431, R435, R502). -/

namespace Sys2Proof.Machine

/-! ### Power switches (R404) -/

/-- A number with bit `i` made `v`. -/
def setBit (w : BitVec 20) (i : Nat) (v : Bool) : BitVec 20 := if v then w ||| (1#20 <<< i) else w &&& ~~~(1#20 <<< i)

def updPower (s : State) (f : Power → Power) : State := { s with power := f s.power }

/-- PSW_EN of a domain changes (R404). PSW_ACK is the integrator's: the switch has let go by the time PSW_EN rises again,
and PSW_ACK_RISE tells when it holds. (DEDUCED, log entry 120.) -/
def setEn (s : State) (d : Nat) (v : Bool) : State :=
  if s.power.pswEn.getLsbD d = v then s
  else updPower s (fun p => { p with
    pswEn := setBit p.pswEn d v, pswAck := if v then setBit p.pswAck d false else p.pswAck, pswAt := Tab.set p.pswAt d s.clk })

def setAck (s : State) (d : Nat) (v : Bool) : State := updPower s (fun p => { p with pswAck := setBit p.pswAck d v })

/-- A domain's clamps close: it is not up. -/
def clampOf (s : State) (d : Nat) : State := updPower s (fun p => { p with up := setBit p.up d false })

/-! ### What a domain loses -/

/-- A channel group loses power (R168, R423, R500); its sensor counts no longer (R408). -/
def loseCg (s : State) (g : Nat) : State :=
  let s1 := loseGroup s g false
  alertUpd <| resetMicro (resetRegs { clampOf s1 (dCg g) with
    groups := Tab.drop s1.groups (fun k => k = g), chans := Tab.drop s1.chans (fun k => k / 4 = g),
    luns := Tab.drop s1.luns (fun k => k.ch / 4 = g) } (dCg g)) g

/-- The front end's own state goes: its DMA channels, its H_INI requests, its tellers' engines.
(DESIGN CHOICE, log entry 4.) -/
def loseFeState (s : State) (h : Nat) : State :=
  let s0 := hiDrop s (fun r => r.src / 32 = h)
  let s1 := { s0 with hi := { s0.hi with writes := s0.hi.writes.map (fun r : HiReq => if r.src / 32 = h then { r with use := .lost } else r) } }
  resetMicro (resetRegs { s1 with
    dma := Tab.drop s1.dma (fun d => d / 16 = h), hiSeq := Tab.drop s1.hiSeq (fun k => k / 32 = h),
    served := Tab.drop s1.served (fun t => t / 2 = h) } (dFe h)) (12 + h)

/-- A front end loses power or enters reset (R26, R296). -/
def loseFe (s : State) (h : Nat) : State := clampOf (loseFeState (feStop s h) h) (dFe h)

/-- A decode pool loses power: the jobs its engines ran go back to the head of the queue, for the other pool (R18).
(DEDUCED, log entry 35.) -/
def loseDp (s : State) (p : Nat) : State :=
  let js := (s.engines.filter (fun e => e.1 / 20 = p)).map (fun e => e.2)
  resetRegs { clampOf s (dDp p) with jobs := js ++ s.jobs, engines := Tab.drop s.engines (fun e => e / 20 = p) } (dDp p)

/-- The lines and bytes of a half's banks, by the addresses of Staging. -/
def inHalf (h a : Nat) : Bool := if a < 2 ^ 25 then a / 2 ^ 24 = h else (a - 2 ^ 25) / 2 ^ 18 = h

/-- The shadow's bank is gone: held window accesses are answered, and a reload in progress is over. -/
def shadowLost (s : State) : State :=
  let s1 := windowFail s
  let s2 := { s1 with boot := { s1.boot with reload := false, load := none } }
  match s2.boot.swap with
  | some w => if w.step = .reload then swapEnd s2 [] else s2
  | none => s2

/-- A half's staging memory loses power: its lines lose their data and INIT, its FIFOs are empty. -/
def loseSm (s : State) (h : Nat) : State :=
  let s1 := if h = 1 then shadowLost s else s
  let st := s1.staging
  resetRegs { clampOf s1 (dSm h) with
    staging := { st with mem := st.mem.filter (fun c => !inHalf h c.1), lines := Tab.drop st.lines (fun n => inHalf h (64 * n)) },
    fifos := Tab.drop s1.fifos (fun k => k.1 / 24 = h) } (dSm h)

/-- Every item, receipt and request of the unit is discarded, with no receipt (R429). -/
def discardAll (s : State) : State :=
  { s with items := [], hold := [], fences := [], rings := [], served := [], ledger := {}, jobs := [], engines := [],
           entryWait := [], hi := {}, hiSeq := [], dma := [], luns := [], chans := [], patrol := {}, boot := {}, ring := {},
           groups := s.groups.map (fun e => (e.1, { e.2 with calPending := false, calItems := [], applyItems := [] })),
           power := { s.power with alertLow := false },
           staging := { s.staging with held := [], asks := [] } }

/-- PD_HK loses power: with it go the ring pairs, the ledger and every item. (DESIGN CHOICE, log entry 34.) -/
def loseHk (s : State) : State :=
  resetMicro (resetRegs (clampOf (discardAll (windowFail (failHeld s))) dHk) dHk) 14

/-- A domain loses its power, or its clamps close for a power-down. -/
def loseDomain (s : State) (d : Nat) : State :=
  match d with
  | 0 => s
  | 1 => loseHk s
  | 2 | 3 => loseFe s (d - 2)
  | 4 | 5 => loseDp s (d - 4)
  | 6 | 7 => loseSm s (d - 6)
  | _ => loseCg s (d - 8)

/-- The block powers a domain down (R427). -/
def powerDown (s : State) (d : Nat) : State := setEn (if domUp s d then loseDomain s d else clampOf s d) d false

/-- Every domain but PD_AON is powered down at once (R429, R433): ownership keeps its flags, a handover is abandoned, held
reads receive ACCESS_ERR (R430), the fallback oscillator stops (R416). -/
def unitDown (s : State) : State :=
  let s1 := endHandover (windowFail (failHeld s))
  let s2 := (List.range' 1 19).foldl resetRegs (discardAll s1)
  let s3 := wr0 (wr0 s2 (feUpFld 0) 0) (feUpFld 1) 0
  let s4 := (List.range' 1 19).foldl (fun s d => setEn s d false) (wr0 (wr0 s3 F.ckCoreCtlFallbackReady 0) F.ckCoreCtlSwitching 0)
  { s4 with
    groups := [], fifos := [], micro := [], staging := {},
    host := { s4.host with firstUp := none }, test := { s4.test with scanOut := 0 },
    power := { s4.power with up := 0, queue := [], fallbackRun := false, switchFrom := none, bootGroup := false } }

/-! ### What a domain does when it comes up (R426, R356) -/

/-- BOOT_SEL names a twin (R329). -/
def hasTwin (s : State) : Bool := (bootChannel s).isSome

/-- The domain has reached the last row of R426: its registers hold their reset values. A front end becomes up; PD_SMB
shows the boot load that is to come, but not in TEST (R332, R333); the bring-up of a boot load clears INERT of its group
(R167); a sensor begins to count (R408). -/
def domainComesUp (s : State) (d : Nat) : State :=
  let s1 := updPower (resetRegs s d) (fun p => { p with up := setBit p.up d true })
  match d with
  | 2 | 3 => feBecomesUp s1 (d - 2)
  | 7 => if hasTwin s1 ∧ s.power.mode ≠ .test then wr0 s1 F.bootStatusState 1 else s1
  | _ => alertUpd (if 8 ≤ d ∧ bootUses s1 (d - 8) then bootOpens s1 (d - 8) else s1)

/-- The domain at the head of the power-up queue is switched on, once its supplies are up and PWR_WARN is low (R425, R426,
R435). -/
def powerNext (s : State) : State :=
  match s.power.queue with
  | d :: _ => if suppliesUp s d ∧ ¬ warn s ∧ ¬ s.power.pswEn.getLsbD d then setEn s d true else s
  | [] => s

/-- Domains join the power-up queue, in the order given; those that are up or in it already do not. -/
def powerUpAll (s : State) (ds : List Nat) : State :=
  powerNext (updPower s (fun p => { p with queue := p.queue ++ ds.filter (fun d => !domUp s d && !(p.queue.contains d)) }))

/-- A domain leaves the power-up queue. -/
def unqueue (s : State) (d : Nat) : State :=
  powerNext (updPower s (fun p => { p with queue := p.queue.filter (fun x => x ≠ d) }))

end Sys2Proof.Machine
end

