-- ==== Sys2Proof/Machine/Boot.lean ====
section
/-! DEFINITION. Boot loads: the shadow of the boot image in SB15, at start-up, by RELOAD and at the end of a BOOT_SWAP
(R329–R333, R337, R339, R436, R437). -/

namespace Sys2Proof.Machine

/-- The group of the boot LUN. -/
def bootGroupOf (s : State) : Option Nat := (bootChannel s).map (fun ch => ch / 4)

/-- The load in hand is a reload, by RELOAD or by a BOOT_SWAP, not the one of the start-up sequence. -/
def reloading (s : State) : Bool := s.boot.reload

/-! ### Start -/

/-- The load of the start-up sequence begins: HK0 powers up the boot group (R436 step 7, R437). -/
def startUpLoad (s : State) (g : Nat) : State :=
  let s1 := updPower s (fun p => { p with bootGroup := true })
  if domUp s (dCg g) then bootOpens s1 g else powerUpAll s1 [dCg g]

/-- A reload has paused at a read (R332). -/
def loadPaused (s : State) : Bool := s.boot.load.any (fun l => l.item.isNone && l.step ≠ .done)

/-- A boot load may begin, or go on where it paused: HK0 runs, PWR_WARN is low (R332), and the start-up load's turn has come
(R436), or a reload was accepted. -/
def loadMayStart (s : State) : Bool :=
  hk0Up s && domUp s (dSm 1) && !warn s
    && (if reloading s then !loading s || loadPaused s
        else loading s && !s.power.bootGroup && (s.power.mode = .ready || s.power.mode = .active))

/-- A reload begins, STATE showing LOADING from now on so that window accesses are held (R333), or goes on. -/
def reloadGo (s : State) : State :=
  match (if loading s then s.boot.load else none) with
  | some l => loadIssue s l
  | none => loadBegin (wr0 s F.bootStatusState 1)

/-- BOOT_LOAD_START (R332). -/
def execBootLoadStart (s : State) : Out :=
  match bootGroupOf s with
  | some g => if loadMayStart s then .next (if reloading s then reloadGo s else startUpLoad s g) else .next s
  | none => .next s

/-! ### End -/

/-- A block of what a load meets. -/
def blockOf (r : BootLoadResult) (b : Nat) : BootBlock := if b = 0 then r.block0 else r.block1

/-- What the load of the start-up sequence finds in the headers (R331, R332): nothing if its bring-up failed. -/
def startHeaders (s : State) (ch : Nat) (r : BootLoadResult) : Load :=
  if r.up then
    let l := ((({} : Load).withHeader s ch 0 r.block0.header).withHeader s ch 1 r.block1.header)
    { l with left := l.order }.next
  else { step := .done }

/-- A block of the twin brings 32 header bytes, and whole lines of an image that fits SB15. -/
def blockOk (x : BootBlock) : Bool :=
  x.header.all (fun h => h.length = 32) && x.image.length % 64 = 0 && x.image.length ≤ 2097152

/-- A block whose header is valid brings as many image bytes as the header says, unless a page is uncorrectable. -/
def imageFits (l : Load) (r : BootLoadResult) (b : Nat) : Bool :=
  match l.hdr b with
  | some h => (blockOf r b).unc || (blockOf r b).image.length = h.len
  | none => true

/-- The images are tried in order (R332): each one read is written to SB15 from line 0. -/
def startImages (r : BootLoadResult) : Nat → State → Load → Load × State
  | 0, s, l => (l, s)
  | n + 1, s, l =>
    match l.step with
    | .image b _ =>
      match l.hdr b with
      | some h => startImages r n (writeLines s 15 0 (blockOf r b).image []) (l.imageEnds b (imageCode h (blockOf r b)))
      | none => (l, s)
    | _ => (l, s)

/-- The header of the block that a load has loaded. -/
def Load.loaded (l : Load) : Option (Nat × BootHdr) := l.block.bind (fun b => (l.hdr b).map (fun h => (b, h)))

/-- A load that succeeds writes zero lines to the end of SB15 (R332). -/
def shadowFill (s : State) (l : Load) : State :=
  match l.loaded with
  | some (_, h) => forNat (32768 - h.len / 64) (fun s i => writeLine s 15 (h.len / 64 + i) [] false) s
  | none => s

/-- The fields of BOOT_STATUS, BOOT_CTL and SM_BANK_CTL after a load (R332). (DEDUCED, log entry 36.) -/
def loadFields (s : State) (l : Load) : State :=
  let s1 := wr0 (wr0 (wr0 s F.bootStatusHdr0 l.code0) F.bootStatusHdr1 l.code1) F.bootCtlReload 0
  match l.loaded with
  | some (b, h) =>
    let s2 := wr0 (wr0 s1 F.bootStatusLoadedBlock b) F.bootStatusGeneration h.gen
    wr0 (wr0 (wr1 s2 F.smBankCtlShadow 15 1) F.bootCtlWinEn 1) F.bootStatusState 2
  | none =>
    flag0 (wr0 (wr0 (wr1 s1 F.smBankCtlShadow 15 0) F.bootCtlWinEn 0) F.bootStatusState 3) F.bootStatusBootFailed

/-- What the bring-up of the boot channel's CE0 leaves in its registers (R332): the ID and the parameter page that the die
answered, or the step that failed, all free; the spec gives the load no other outcome of its bring-up.
(DEDUCED, log entry 37.) -/
def bootBringup (s : State) (ch : Nat) (brought : Bool) : State :=
  if brought then
    let s1 := setR { s with freeCtr := s.freeCtr + 33 } .chId ch 0 0 (Config.freeWord s.freeCtr)
    forNat 32 (fun s1 w => setR s1 .chPpage ch 0 w (Config.freeWord (s.freeCtr + 1 + w))) s1
  else
    let (w, s1) := freeWord s
    match w.toNat % 4 with
    | 0 => s1
    | n => wr1 (wr1 (wr1 s1 F.chBusStatusFailStep ch (n + 1)) F.chBusStatusFailCe ch 0) F.chBusStatusCeFailed ch 1

/-- HK0 gives the boot group back (R332 step 6, R437): the boot channel is inert, and the group is powered down in READY,
or where its GROUPS bit is 0. -/
def bootRelease (s : State) (g : Nat) (brought : Bool) : State :=
  let s1 := updPower s (fun p => { p with bootGroup := false })
  if ¬ domUp s (dCg g) then setEn (unqueue s1 (dCg g)) (dCg g) false
  else if s.power.mode ≠ .active ∨ ¬ bitOf (rd s F.pwrReqGroups) g then powerDown s1 (dCg g)
  else inertReturn (bootBringup s1 (4 * g) brought) g

/-- A boot load ends (R332): held window accesses are answered, and the BOOT_SWAP that reloaded ends (R337). -/
def loadEnds (s : State) (g : Nat) (l : Load) : State :=
  let was := reloading s
  let s1 := loadFields (shadowFill s l) l
  let s2 := windowRelease { s1 with boot := { s1.boot with reload := false, load := none } }
  let s3 := if was then s2 else bootRelease s2 g (l.code0 ≠ 15 || l.code1 ≠ 15)
  match s3.boot.swap with
  | some w => if w.step = .reload then swapEnd s3 [] else s3
  | none => s3

/-- A load that ends FAILED without a further header read (R352, R436). -/
def loadFailed (s : State) (g : Nat) : State :=
  loadEnds s g { step := .done, code0 := rd s F.bootStatusHdr0, code1 := rd s F.bootStatusHdr1 }

/-- The group whose load ends now, if one may: a start-up load, or a reload that has begun. -/
def loadInHand (s : State) : Option Nat :=
  if loading s ∧ (reloading s ∨ s.power.bootGroup) then bootGroupOf s else none

/-- VDDQ_CGk was there within 10 ms of the boot group's power-up (R436). -/
def vddqInTime (s : State) : Bool :=
  match s.boot.upAt, s.boot.vddqAt with
  | some u, some v => v ≤ u + 10000 * usU
  | _, _ => false

/-- The load of the start-up sequence can have read flash: the group is up with VDDQ present in time (R436). -/
def loadCanRead (s : State) (g : Nat) : Bool := domUp s (dCg g) && vddqOk s g && !parked s && vddqInTime s

/-- The load of the start-up sequence ends with what the boot channel brought (R332). -/
def startLoadEnds (s : State) (g : Nat) (r : BootLoadResult) : Out :=
  let l := startHeaders s (4 * g) r
  if !(imageFits l r 0 && imageFits l r 1) then .fault .illFormed
  else if loadCanRead s g ∨ ¬ r.up then
    let (l1, s1) := startImages r 2 s l
    .next (loadEnds s1 g l1)
  else .next s

/-- BOOT_LOAD_END (R332): the load ends LOADED or FAILED: that of the start-up sequence with what the command brings, a reload,
once its reads are done, with what they brought. (DEDUCED, log entry 141.) -/
def execBootLoadEnd (r : BootLoadResult) (s : State) : Out :=
  if !(blockOk r.block0 && blockOk r.block1) then .fault .illFormed
  else
  match loadInHand s with
  | some g =>
    if hk0Up s ∧ ¬ warn s then
      if reloading s then
        match s.boot.load with
        | some l => if l.step = .done then .next (loadEnds s g l) else .next s
        | none => .next s
      else startLoadEnds s g r
    else .next s
  | none => .next s

/-! ### RELOAD and WIN_EN (R339) -/

/-- A RELOAD is accepted. -/
def reloadOk (s : State) : Bool :=
  rdB s F.smBankCtlFence 15 && drained s 15 && !rdB s F.smBankCtlRetire 15 && !loading s && !reloading s
    && s.boot.swap.isNone && hasTwin s

/-- RELOAD is written 1. -/
def reloadAsked (s : State) : State :=
  if reloadOk s then { wr0 s F.bootCtlReload 1 with boot := { s.boot with reload := true } } else flag0 s F.bootCtlRefused

/-- WIN_EN is written 0 while it is 1: the shadow is released. -/
def releaseShadow (s : State) : State := wr0 (wr1 (wr0 s F.bootCtlWinEn 0) F.smBankCtlShadow 15 0) F.bootStatusState 4

end Sys2Proof.Machine
end

