-- ==== Sys2Proof/Machine/ChannelWrites.lean ====
section
/-! DEFINITION. Writes of the registers of a flash channel, of its group and of calibration (R148, R155, R157, R167, R189,
R202, R446, R453). -/

namespace Sys2Proof.Machine

/-- CH_TIMING0 and CH_TIMING1 (R148): ignored while the channel counts as enabled. -/
def writeTiming (s : State) (w : RegWrite) : State :=
  if countsEnabled s w.reg.i then flag1 s F.chBusStatusCfgIgnored w.reg.i else w.plain s

/-- Fields that are ignored while the channel counts as enabled, with the rest of the register taken (R155, R189). -/
def writeGuarded (s : State) (w : RegWrite) (fs : List Fld) : State :=
  if countsEnabled s w.reg.i ∧ fs.any (w.changes s) then
    flag1 ((fs.foldl RegWrite.keeping w).plain s) F.chBusStatusCfgIgnored w.reg.i
  else w.plain s

/-- CH_BUS_CTL (R155): WP_RELEASE takes effect after the bus cycle in progress. -/
def writeBusCtl (s : State) (w : RegWrite) : State :=
  let ch := w.reg.i
  let was := rdB s F.chBusCtlWpRelease ch
  let s1 := writeGuarded s w [F.chBusCtlCePresent, F.chBusCtlLunLog2, F.chBusCtlRowCycles]
  if (getCh s1 ch).bus.isSome then updCh s1 ch (fun c => { c with wpHeld := some (c.wpHeld.getD was) }) else s1

/-- CH_SCHED (R189). -/
def writeSched (s : State) (w : RegWrite) : State :=
  writeGuarded s w [F.chSchedCacheRead, F.chSchedCacheProg, F.chSchedPlaneLsb]

/-- CH_CTL (R202): refused while a transition to READY is under way (R433). -/
def writeChCtl (s : State) (w : RegWrite) : State :=
  let ch := w.reg.i
  let on := w.get s F.chCtlEnable = 1
  chSettle (if on then enableCh s ch else disableCh s ch) (ch / 4)

/-- CG_FENCE (R202), a register of the first channel of a group. -/
def writeFence (s : State) (w : RegWrite) : State :=
  if w.reg.i % 4 = 0 then setFence s (w.reg.i / 4) (w.get s F.cgFenceFence = 1) else s

/-- INERT is written (R167): 0 changes no pin; 1 takes the group to the inert state, or is refused. -/
def writeInert (s : State) (g : Nat) (w : RegWrite) : State :=
  if w.one F.cgPhyInert then inertOn s g else wr1 s F.cgPhyInert (4 * g) (w.get s F.cgPhyInert)

/-- CG_PHY (R157, R167), a register of the first channel of a group: the settings, then INERT, then INIT. -/
def writePhy (s : State) (w : RegWrite) : State :=
  if w.reg.i % 4 = 0 then
    let g := w.reg.i / 4
    let s1 := writeInert ((w.keeping F.cgPhyInert).plain s) g w
    if w.one F.cgPhyInit then initStart s1 g else s1
  else s

/-- CAL_GRP_CTL (R445): the conditions of an automatic run are evaluated with the new settings. -/
def writeCalCtl (s : State) (w : RegWrite) : State := calEval (w.plain s) w.reg.i

/-- CAL_ALERT (R446): every group is compared with the new threshold. -/
def writeCalAlert (s : State) (w : RegWrite) : State :=
  alertUpd (forNat 12 (fun s g => if domUp s (dCg g) then wr1 s F.calGrpStatusOverAlert g (bit (overAlert s g)) else s) (w.plain s))

/-- The number of a trim register among the four of a channel. -/
def trimIndex (n : RegName) : Nat := match n with | .calDqRd => 0 | .calDqWr => 1 | .calDqs => 2 | _ => 3

/-- A trim register (R453): what a staged write builds on is the value already staged, if there is one. -/
def writeTrim (s : State) (w : RegWrite) : State :=
  let r := trimIndex w.reg.name
  let base := Tab.get (getGroup s w.reg.i).staged (w.reg.j, r) (getR s w.reg.name w.reg.i w.reg.j w.reg.k)
  let m := accMask w.reg.name .rw &&& w.mask
  trimPut s w.reg.i w.reg.j r w.reg.name ((base &&& ~~~m) ||| (w.val &&& m))

end Sys2Proof.Machine
end

