-- ==== Sys2Proof/Machine/DmaWrites.lean ====
section
/-! DEFINITION. Writes of the registers of the DMA channels, the staging FIFOs, the staging memory and the decode engines
(R135, R280, R293–R295, R304, R305, R317, R318). -/

namespace Sys2Proof.Machine

/-! ### DMA channels (R280, R293, R295) -/

/-- The configuration of a channel may be written (R295). -/
def dcConfigurable (s : State) (d : Nat) : Bool := !rdB s F.dcCtlEnable d && dcState s d = 2

/-- DC_CTL (R293, R295): MODE and SERVES are refused alone; the other fields take their values, then ENABLE acts. -/
def writeDcCtl (s : State) (w : RegWrite) : State :=
  let d := w.reg.i
  let refuse := (w.changes s F.dcCtlMode || w.changes s F.dcCtlServes) && !dcConfigurable s d
  let w1 := if refuse then (w.keeping F.dcCtlMode).keeping F.dcCtlServes else w
  let s1 := (w1.keeping F.dcCtlEnable).plain s
  dcWriteEnable (if refuse then flag1 s1 F.dcStatusCfgErr d else s1) d (w.get s F.dcCtlEnable = 1)

/-- DC_HEAD and DONE_COUNT become 0 (R295). -/
def dcRewind (s : State) (d : Nat) : State := wr1 (wr1 s F.dcHeadHead d 0) F.dcHeadDoneCount d 0

/-- DC_RING_BASE and DC_RING_CFG (R295): a write to BASE or LOG2 sets DC_HEAD and DONE_COUNT to 0. -/
def writeDcRing (s : State) (w : RegWrite) (f : Fld) : State :=
  let d := w.reg.i
  if ¬ dcConfigurable s d then flag1 s F.dcStatusCfgErr d
  else if w.mask &&& fmask f.lo f.len = 0 then w.plain s
  else dcRewind (w.plain s) d

/-- DC_KICK (R280). -/
def writeDcKick (s : State) (w : RegWrite) : State :=
  let d := w.reg.i
  if ¬ w.one F.dcKickKick then s
  else if descFetching s d then updDma s d (fun x => { x with kicked := true })
  else ringKick (wr1 s F.dcStatusIdleOwn d 0) d

/-! ### Staging FIFOs (R304, R305) -/

/-- The consumer of HOST_IN or FLASH_IN takes a packet that it had left; of a packet that the debug port has popped words from,
what it gets is free. -/
def takeParked (s : State) (f : Fifo) (n : Nat) (p : Parked) : State :=
  match findItem s p.item with
  | some it =>
    let (b, s1) := afterPops s f p.data
    if n = 0 then progArrived s1 p.dma it ⟨p.item, p.page, p.q⟩ b p.poison else landData s1 it b
  | none => s

/-- DBG_EN of a FIFO clears: its consumer goes on. FLASH_OUT's waits for its tenure, and HOST_OUT's for its threshold. -/
def reattach (s : State) (ch f : Nat) : State :=
  let x := getFifo s ch f
  if f = 0 ∨ f = 2 then
    kickBus (dmaKickAll (x.parked.foldl (fun s p => takeParked s x f p) (updFifo s ch f (fun y => { y.takeAll with parked := [] })))) ch
  else kickBus s ch

/-- An accepted flush takes effect at once, or at the packet boundary that comes (R304). (DEDUCED, log entry 50.) -/
def askFlush (s : State) (ch f : Nat) : State :=
  if packetOpen s ch f then wr1 s F.chFifoCtlFlush ch (rd s F.chFifoCtlFlush ch ||| 2 ^ f) else flushFifo s ch f

/-- CH_FIFO_CTL (R304, R305): flushes and debug enables need the channel READY, and are refused by their bits.
(DEDUCED, log entry 29.) -/
def writeFifoCtl (s : State) (w : RegWrite) : State :=
  let ch := w.reg.i
  let ready := rd s F.chCtlState ch = 2
  let old := rd s F.chFifoCtlDbgEn ch
  let want := w.get s F.chFifoCtlDbgEn
  let flush := fget (w.val &&& w.mask) 8 4
  let new := if ready then want else old &&& want
  let s1 := wr1 (((w.keeping F.chFifoCtlDbgEn).keeping F.chFifoCtlFlush).plain s) F.chFifoCtlDbgEn ch new
  let s2 := if ready ∨ (flush = 0 ∧ want = new) then s1 else flag1 s1 F.chFifoCtlRefused ch
  let s3 := if ready then forNat 4 (fun s f => if bitOf flush f then askFlush s ch f else s) s2 else s2
  forNat 4 (fun s f => if bitOf old f ∧ ¬ bitOf new f then reattach s ch f else s) s3

/-! ### Staging memory (R317, R318) -/

/-- A bank is fenced with no slot held. -/
def bankQuiet (s : State) (b : Nat) : Bool := rdB s F.smBankCtlFence b && drained s b

/-- A write of SM_BANK_CTL is refused (R317). -/
def bankRefused (s : State) (w : RegWrite) : Bool :=
  (w.changes s F.smBankCtlItemSlots || (w.changes s F.smBankCtlRetire && w.get s F.smBankCtlRetire = 1)) && !bankQuiet s w.reg.i

/-- SM_BANK_CTL (R317): setting RETIRE clears FENCE, clearing RETIRE sets it; requests that waited for slots are served. -/
def writeBank (s : State) (w : RegWrite) : State :=
  let b := w.reg.i
  if bankRefused s w then flag1 s F.smBankCtlCfgErr b
  else
    let s1 := w.plain s
    slotServe (if w.changes s F.smBankCtlRetire then wr1 s1 F.smBankCtlFence b (bit (rdB s F.smBankCtlRetire b)) else s1)

/-- SM_REMAP (R318): a change clears INIT of the lines of the rows named before and after it, where they were stored and where
they are from now on. -/
def writeRemap (s : State) (w : RegWrite) : State :=
  let b := w.reg.i
  let e := w.reg.j
  if rdB s F.smBankCtlRetire b ∨ bankQuiet s b then
    if w.changes s F.smRemapRow ∨ w.changes s F.smRemapSpare ∨ w.changes s F.smRemapValid then
      let old := rd s F.smRemapRow b e
      let s1 := w.plain (clearRow s b old)
      clearRow (clearRow s1 b old) b (rd s1 F.smRemapRow b e)
    else w.plain s
  else flag1 s F.smBankCtlCfgErr b

/-- ARM of a flip mask is written 1: it stays until the flip is applied (R102, R320). -/
def writeArm (s : State) (w : RegWrite) (f : Fld) : State :=
  let s1 := w.plain s
  if w.one f then wr1 s1 f w.reg.i 1 else s1

/-! ### Decode engines (R135) -/

/-- ENABLE = 1 with FENCE = 0 is written. -/
def engineOn (s : State) (e : Nat) : State :=
  match rd s F.deCtlState e with
  | 2 => wr1 s F.deCtlState e 3
  | 1 => wr1 s F.deCtlPending e 1
  | _ => s

/-- ENABLE = 0 or FENCE = 1 is written: the engine drains, or is READY at once if it has no job; a waiting enable is
cancelled. -/
def engineOff (s : State) (e : Nat) : State :=
  let s1 := wr1 s F.deCtlPending e 0
  if rd s F.deCtlState e = 3 then wr1 s1 F.deCtlState e (if s.engines.any (fun x => x.1 = e) then 1 else 2) else s1

/-- DE_CTL (R135). -/
def writeEngine (s : State) (w : RegWrite) : State :=
  let s1 := w.plain s
  if rdB s1 F.deCtlEnable w.reg.i && !rdB s1 F.deCtlFence w.reg.i then engineOn s1 w.reg.i else engineOff s1 w.reg.i

end Sys2Proof.Machine
end

