-- ==== Sys2Proof/Machine/Test.lean ====
section
/-! DEFINITION. Self-test: BIST plans and their result store, the way from a plan on the shut-down path to OFF, the IEEE 1500
wrapper and scan (R432, R438, R469–R483). -/

namespace Sys2Proof.Machine

/-! ### The unit is idle (R432) -/

/-- BIST runs a step. -/
def bistRunning (s : State) : Bool := rd s F.bistStatusState = 1

/-- A boot load is in progress: the shadow loads, or the load of step 7 of R436 is still to come. -/
def loadBusy (s : State) : Bool := loading s || reloading s || s.power.bootGroup

/-- A bring-up, a calibration run or a CALIBRATE is in progress on a group. -/
def groupBusy (s : State) (g : Nat) : Bool :=
  let x := getGroup s g
  x.bringup.isSome || 2 ≤ calState s g || !x.calItems.isEmpty || !x.applyItems.isEmpty

/-- Every DMA channel has STATE READY. -/
def dmaReady (s : State) : Bool := (List.range 32).all (fun d => !domUp s (dFe (d / 16)) || dcState s d = 2)

/-- The unit is idle for a transition (R432). -/
def unitIdle (s : State) : Bool :=
  s.items.isEmpty && s.hold.isEmpty && s.patrol.receipts.isEmpty && s.ring.intake.isEmpty && dmaReady s
    && rd s F.psStatusRun = 0 && !((List.range 12).any (groupBusy s)) && !loadBusy s && s.boot.swap.isNone && !bistRunning s

/-! ### Planned power-downs and OFF (R427, R433, R438) -/

/-- A sequence powers a front end down (R26): ownership follows, as when it loses its power in any other way. -/
def frontEndDown (s : State) (h : Nat) : State := if feUp s h then ownerAfterStop (wr0 s (feUpFld h) 0) h else s

/-- PD_FEB, then PD_FEA (R433, R438). -/
def frontEndsDown (s : State) : State := frontEndDown (frontEndDown s 1) 0

/-- The block powers a domain down as part of a sequence (R427). (DEDUCED, log entry 31.) -/
def planDown (s : State) (d : Nat) : State := powerDown (if d = 2 ∨ d = 3 then frontEndDown s (d - 2) else s) d

/-- Steps 3 and 4 of R438: the remaining domains are powered down, and PD_AON enters retention. -/
def enterOff (s : State) : State :=
  updPower (wr0 (unitDown (frontEndsDown s)) F.modeCtlBusy 0) (fun p => { p with mode := .off, phase := none, retention := true })

/-! ### Plans (R469–R471) -/

/-- The memory step's number in STEP. -/
abbrev memStep : Nat := 31

/-- The life-cycle state lets the memory step run, on the shut-down path or from READY (R469). -/
def memAllowed (s : State) (shutdown : Bool) : Bool := shutdown || lifeCycle s ≠ 2

/-- The life-cycle state lets a logic slice run (R469). -/
def sliceAllowed (s : State) (shutdown : Bool) (i : Nat) : Bool :=
  match lifeCycle s with
  | 0 | 1 => true
  | 2 => shutdown && i ≠ 0
  | _ => false

/-- The steps that a plan runs, in the order of R471. -/
def planOf (s : State) (shutdown : Bool) : List Nat :=
  (if rdB s F.bistCtlMemEn && memAllowed s shutdown then [memStep] else [])
    ++ (List.range' 2 18 ++ [1, 0]).filter (fun i => bitOf (rd s F.bistCtlLogicMask) i && sliceAllowed s shutdown i)

/-- The domains that a step needs, in power-up order: the memory step's are those of every array. -/
def stepDomains (p : Nat) : List Nat := if p = memStep then List.range' 1 19 else if p = 0 then [] else [p]

/-- Clears the result store; GEN goes on counting (R478). (DEDUCED, log entry 73.) -/
def bistClear (s : State) : State :=
  let gen := rd s F.bistStatusGen
  wr0 { s with regs := Tab.drop s.regs (fun r =>
    r.name = .bistStatus || r.name = .bistSlice || r.name = .bistMemBank || r.name = .bistMemOther || r.name = .bistMemRow) }
    F.bistStatusGen gen

/-- Records a logic slice's result; the memory step has none of its own. -/
def sliceResult (s : State) (p code elapsed : Nat) : State :=
  if p = memStep then s
  else wr1 (wr1 s F.bistSliceResult p code) F.bistSliceElapsedUs p (sat 65535 elapsed)

/-- The plan ends (R475, R478): from the shut-down path the transition continues to OFF. -/
def bistEnd (s : State) : State :=
  let s1 := wr0 (wr0 { s with test := { s.test with plan := [] } } F.bistStatusState 2) F.bistStatusStep 0
  let s2 := flag0 (wr0 s1 F.bistStatusResultsValid 1) F.bistStatusBistDone
  let s3 := wr0 s2 F.bistStatusGen ((rd s F.bistStatusGen + 1) % 65536)
  if s.power.phase = some .offBist then enterOff s3 else s3

/-- Runs the steps of a plan from its head: one that would start while PARKED is 1 reports INCOMPLETE (R471). -/
def bistRun (s : State) : List Nat → State
  | [] => bistEnd s
  | p :: r =>
    if parked s then bistRun (sliceResult s p 3 0) r
    else
      let s1 := { s with test := { s.test with plan := p :: r, stepAt := s.clk } }
      powerUpAll (wr0 (wr0 s1 F.bistStatusState 1) F.bistStatusStep p) (stepDomains p)

/-- The plan's first step begins (R478). -/
def bistBegin (s : State) (shutdown : Bool) : State :=
  bistRun (wr0 (bistClear s) F.bistStatusFromShutdown (bit shutdown)) (planOf s shutdown)

/-- The domains of a step that ended are powered down, but for PD_HK, whose HK2 runs the plan, before slice 1
(R471). (DEDUCED, log entry 75.) -/
def stepDown (s : State) (p : Nat) : State :=
  let s1 := updPower s (fun x => { x with queue := [] })
  ((stepDomains p).reverse.filter (fun d => d ≠ 1 || p = 1)).foldl planDown s1

/-- The step in hand ends, and the next begins. -/
def bistNext (s : State) (p : Nat) : State := bistRun (stepDown s p) (s.test.plan.drop 1)

/-- A plan ends early (R475). -/
def bistAbort (s : State) : State :=
  match s.test.plan with
  | p :: _ => if bistRunning s then bistEnd (flag0 (stepDown (sliceResult s p 3 0) p) F.bistStatusAborted) else s
  | [] => s

/-- The unit enters TEST once it is idle (R471). -/
def enterTest (s : State) : State :=
  let s1 := wr0 (updPower (ringOff s) (fun p => { p with mode := .test, phase := none })) F.modeCtlBusy 0
  bistBegin s1 false

/-- Step 2 of R438, and what follows it: the plan of BIST_CTL runs first, where it is asked for and permitted. -/
def shutDown (s : State) : State :=
  if rdB s F.modeCtlBistOnShutdown ∧ planOf s true ≠ [] then
    bistBegin (updPower (ringOff s) (fun p => { p with mode := .test, phase := some .offBist })) true
  else enterOff s

/-! ### The end of a step (R472–R474, R479–R481) -/

/-- Every domain of the step in hand is powered, and what sequences the step runs (R471). -/
def stepReady (s : State) (p : Nat) : Bool :=
  (stepDomains p).all (domUp s) && (p = 1 || p = 0 || engRunning s 14 2) && !parked s

/-- Writes the words of a result register, in the bits that it has. -/
def bistWord (s : State) (n : RegName) (i j : Nat) (w : W64) : State := setR s n i j 0 (w &&& accMask n .ro)

/-- The words of the memory step. -/
def memResults (s : State) (r : BistResult) : State :=
  let s1 := forNat 16 (fun s b => bistWord s .bistMemBank b 0 ((r.banks.getD b 0).setWidth 64)) s
  forNat 128 (fun s i => bistWord s .bistMemRow (i / 8) (i % 8) (r.rows.getD i 0)) (bistWord s1 .bistMemOther 0 0 r.other)

/-- The result of a logic slice: the failing chain where DIAG found it (R472). -/
def logicResult (s : State) (p : Nat) (r : BistResult) : State :=
  let s1 := sliceResult s p r.result.toNat r.elapsed.toNat
  if r.result = 2 ∧ r.chainValid ∧ rdB s F.bistCtlDiag then
    wr1 (wr1 (wr1 s1 F.bistSliceChainValid p 1) F.bistSliceChain p r.chain.toNat) F.bistSliceBit p r.bitPos.toNat
  else s1

/-- BIST_STEP_END (R471): the step in hand ends with what it found; a logic slice passes or fails. -/
def execBistStepEnd (r : BistResult) (s : State) : Out :=
  if r.banks.length ≤ 16 ∧ r.rows.length ≤ 128 then
    match s.test.plan with
    | p :: _ =>
      if ¬ bistRunning s ∨ ¬ stepReady s p then .next s
      else if p = memStep then .next (bistNext (memResults s r) p)
      else if r.result = 1 ∨ r.result = 2 then .next (bistNext (logicResult s p r) p)
      else .next s
    | [] => .next s
  else .fault .illFormed

/-- The budget of a step, in µs (R474). -/
def stepBudget (s : State) : Nat := let b := rd s F.bistCtlSliceBudget; if b = 0 then 65536 else b

/-- What a logic slice reports when its budget ends: INCOMPLETE, or FAIL if it failed and was being diagnosed, which only
the engine knows (R474). (DEDUCED, log entry 74.) -/
def budgetResult (s : State) (p : Nat) : State :=
  if rdB s F.bistCtlDiag then
    let (b, s1) := freeBit s
    sliceResult s1 p (if b then 2 else 3) (stepBudget s)
  else sliceResult s p 3 (stepBudget s)

/-- BIST_BUDGET_EXPIRY (R474). -/
def execBistBudgetExpiry (s : State) : Out :=
  match s.test.plan with
  | p :: _ =>
    if bistRunning s then
      match lapse s (s.test.stepAt + usU * stepBudget s) with
      | some s1 => .next (bistNext (budgetResult s1 p) p)
      | none => .next s
    else .next s
  | [] => .next s

/-! ### The wrapper serial port (R482) -/

/-- The wrapper takes an instruction and its data register a value, while SCAN_OK is 1 and PD_AON works. -/
def wrapperOn (s : State) : Bool := lcScan s && !s.power.poreset && s.power.mode ≠ .off
def wrapper (s : State) (f : State → State) : State := if wrapperOn s then f s else s

/-- TW_WSO: the bit of the data register that shifts out next; it stays 0 while the port is not honoured (R411).
(PRESUMED, log entry 77.) -/
def twWso (s : State) : Bool := wrapperOn s && s.test.wdr.getLsbD 0

/-- The wrapper instruction and data registers take values. -/
def setWrapper (s : State) (wir : Nat) (w : W64) : State := { s with test := { s.test with wir := wir, wdr := w } }

/-- WS_BYPASS (R482): the 1-bit bypass register captures 0. (PRESUMED, log entry 77.) -/
def execWsBypass (s : State) : Out := .next (wrapper s (fun s => setWrapper s 0 0))

/-- WS_EXTEST (R482): the boundary register captures the core ports; the spec does not give its cells' order. -/
def execWsExtest (s : State) : Out := .next (wrapper s (fun s => let (w, s1) := freeWord s; setWrapper s1 1 w))

/-- SCAN_SLICE (R482): the slice's domain is powered up if it is not, and its chains are connected. -/
def scanSlice (s : State) (i : Nat) : State :=
  let s1 := setWrapper s 4 (BitVec.ofNat 64 i)
  let s2 := { s1 with test := { s1.test with slice := if i < 20 then some i else none } }
  if i = 0 ∨ 20 ≤ i then s2 else powerUpAll s2 [i]

/-- SCAN_SLICE (R482). -/
def execScanSlice (slice : BitVec 5) (s : State) : Out := .next (wrapper s (fun s => scanSlice s slice.toNat))

/-- The words of the result store, in address order from BIST_STATUS (R482). -/
def resultWord (s : State) (i : Nat) : W64 :=
  if i = 0 then getR s .bistStatus
  else if i < 21 then getR s .bistSlice (i - 1)
  else if i < 37 then getR s .bistMemBank (i - 21)
  else if i = 37 then getR s .bistMemOther
  else getR s .bistMemRow ((i - 38) / 8) ((i - 38) % 8)

/-- RESULT_READ (R482): the next word is captured; a newly loaded instruction begins at BIST_STATUS.
(DEDUCED, log entry 76.) -/
def resultNext (s : State) : State :=
  let i := if s.test.wir = 5 then s.test.readIdx else 0
  let s1 := setWrapper s 5 (resultWord s i)
  { s1 with test := { s1.test with readIdx := (i + 1) % 166 } }

/-- RESULT_READ (R482). -/
def execResultRead (s : State) : Out := .next (wrapper s resultNext)

/-- LC_READ (R482): LC_RAW and LC. -/
def execLcRead (s : State) : Out :=
  .next (wrapper s (fun s => setWrapper s 6 (BitVec.ofNat 64 ((s.power.straps >>> 5).toNat % 16 + 16 * lifeCycle s))))

/-! ### Scan (R483) -/

/-- Scan acts (R483). (DEDUCED, log entry 78.) -/
def scanActs (s : State) : Bool := lcScan s && s.power.mode = .test && !bistRunning s && Config.testMode

/-- SCAN_OUT: it stays 0 while scan does not act, and for chains that are not connected (R411, R483). -/
def scanOutPins (s : State) : W64 := if scanActs s && s.test.slice.isSome then s.test.scanOut else 0

/-- SCAN_SHIFT (R411, R483): the connected chains shift or capture; what they hold is not given, so SCAN_OUT is free. Chains
not connected put out 0, and SCAN_OUT stays 0 where scan does not act. -/
def execScanShift (_scanEn : Bool) (_scanIn : W64) (s : State) : Out :=
  if scanActs s then
    match s.test.slice with
    | some _ => let (w, s1) := freeWord s; .next { s1 with test := { s1.test with scanOut := w } }
    | none => .next { s with test := { s.test with scanOut := 0 } }
  else .next { s with test := { s.test with scanOut := 0 } }

end Sys2Proof.Machine
end

