-- ==== Sys2Proof/Machine/Patch.lean ====
section
/-! DEFINITION. Engines as units: machine checks and what they bring about, restarts, micro-traps, and the registers that load
patches (R341, R347–R358). -/

namespace Sys2Proof.Machine

/-! ### Stores and engines (R341) -/

/-- The domain of a store. -/
def storeDom (j : Nat) : Nat := if j < 12 then dCg j else if j < 14 then dFe (j - 12) else dHk

/-- The channel of a sequencer, and the teller of an engine of a teller store. -/
def seqCh (j e : Nat) : Nat := 4 * j + e
def storeTeller (j e : Nat) : Nat := 2 * (j - 12) + e

def setEng (s : State) (j e n : Nat) : State := wr s F.mcEngState j e 0 n

/-- The engines of a store that are not in MCHECK take a value of STATE. -/
def setEngines (s : State) (j n : Nat) : State :=
  forNat (storeEngines j) (fun s e => if isMcheck s j e then s else setEng s j e n) s

/-! ### An engine takes up its work (R170, R353, R354) -/

/-- A sequencer resets every LUN for which a reset is due, and goes on with its bus. -/
def seqStarts (s : State) (ch : Nat) : State :=
  let due := (lunsOf s ch).filter (fun l => (getLun s l).resetDue)
  kickBus (due.foldl askReset s) ch

/-- A teller writes the receipts that wait, and fetches. -/
def tellerStarts (s : State) (t : Nat) : State :=
  pairs.foldl (fun s k => if tellerOf s k = t then kickFetch s k else s) (tellerResume s t)

/-- The items of HK0, HK1 that wait for the engine begin (R354). -/
def hkStarts (s : State) (e : Nat) : State :=
  (itemsOf s ((s.items.filter (fun it => it.stage = .waitHk && hkOf it.pkt = e)).map (fun it => it.id))).foldl hkBegin s

/-- HK3 takes up a port that is enabled (R246). -/
def hk3Starts (s : State) : State := if rdB s F.xrCtlEnable ∧ xrState s = 0 then portEnable s true else s

/-- An engine that has become RUNNING takes up its work. -/
def engineStarts (s : State) (j e : Nat) : State :=
  if j < 12 then seqStarts s (seqCh j e)
  else if j < 14 then tellerStarts s (storeTeller j e)
  else match e with
    | 0 => swapRetry (hkStarts s 0)
    | 1 => (List.range 12).foldl calEval (hkStarts s 1)
    | 3 => hk3Starts s
    | _ => s

/-- The HELD engines of a store return to RUNNING (R356, R357). -/
def releaseEngines (s : State) (j : Nat) : State :=
  forNat (storeEngines j) (fun s e => if isMcheck s j e then s else engineStarts s j e) (setEngines s j 1)

/-- PATCH_RAM_CLEAR_END (R356). -/
def execPatchRamClearEnd (j : Fin 15) (s : State) : Out :=
  if domUp s (storeDom j.val) ∧ rdB s F.mcCtlClearing j.val then
    .next (releaseEngines (wr1 s F.mcCtlClearing j.val 0) j.val)
  else .next s

/-! ### Machine checks (R345, R351–R353) -/

/-- The items that a sequencer's machine check ends (R353): those in its LUN queues, and those launched. -/
def mcheckItem (ch : Nat) (it : Item) : Bool :=
  onChannel ch it && it.stage ≠ .waitStore && it.stage ≠ .hold

/-- The LUN as a machine check of its sequencer leaves it: the offsets of one that needs no reset stay known (R124). -/
def lunMcheck (x : LunSt) : LunSt :=
  let due := x.resetDue || x.act ≠ .idle || x.susp ≠ 0
  { halted := x.halted, resetDue := due, offs := if due then none else x.offs }

/-- The bus, LUNs and coins of a channel as a machine check of its sequencer leaves them: VCC coins of phases in progress
stay charged. -/
def mcheckChannel (s : State) (ch : Nat) : State :=
  { s with luns := s.luns.map (fun e => if e.1.ch = ch then (e.1, lunMcheck e.2) else e),
           chans := Tab.set s.chans ch {},
           ledger := { s.ledger with
             coins := s.ledger.coins.filter (fun c => c.lun.ch ≠ ch || (c.sort = .charged && !c.q)),
             asks := s.ledger.asks.filter (fun a => a.lun.ch ≠ ch) } }

/-- A sequencer stops (R353). -/
def seqStops (s : State) (ch : Nat) : State :=
  let ids := (s.items.filter (mcheckItem ch)).map (fun it => it.id)
  let s1 := mcheckChannel (clearBus (cutTenure s ch) ch) ch
  let s2 := leavesRun (wr1 (wr1 (wr1 s1 F.chCtlEnable ch 0) F.chCtlPending ch 0) F.chCtlState ch 2) ch
  chSettle (ids.foldl (fun s id => stopItem s id .mcheck) s2) (ch / 4)

/-- A teller stops: the packets it has fetched and not routed are fetched again after its restart (R41, R352). -/
def tellerStops (s : State) (t : Nat) : State :=
  pairs.foldl (fun s k => if tellerOf s k = t then dropFetch s k else s) s

/-- HK0's work on the boot twin ends with the BOOT_SWAP (R338, R352). -/
def swapStops (s : State) : State :=
  let ids := (s.items.filter (fun it => it.origin = .boot)).map (fun it => it.id)
  let s1 := ids.foldl (fun s id => match findItem s id with | some it => endCore (leaveLun s it) id | none => s) s
  swapEnd { s1 with boot := { s1.boot with load := none } } [.mcheck]

/-- HK0 stops (R352). (DEDUCED, log entry 70.) -/
def hk0Stops (s : State) : State :=
  let ctl := (s.items.filter (fun it => it.stage = .group && it.pkt.op = 0x17)).map (fun it => it.id)
  let s1 := wr0 (endAll (swapStops s) ctl .mcheck) F.psStatusRun 0
  match loadInHand s1 with
  | some g => loadFailed s1 g
  | none => s1

/-- HK3 stops (R352). -/
def hk3Stops (s : State) : State :=
  wr0 (wr0 (updPort s (fun r => { r with corr := 0 })) F.tbStatusSynced 0) F.tbStatusSlewing 0

/-- What the machine check of an engine brings about (R352). -/
def engineStops (s : State) (j e : Nat) : State :=
  if j < 12 then seqStops s (seqCh j e)
  else if j < 14 then tellerStops s (storeTeller j e)
  else match e with
    | 0 => hk0Stops s
    | 1 => (List.range 12).foldl calStops s
    | 2 => bistAbort s
    | _ => hk3Stops s

/-- An engine stops on a machine check in a micro-state (R351): UPC is the address of the word that stopped it, the micro-state is
captured, and pending traps are discarded. -/
def machineCheckIn (s : State) (j e cause par : Nat) (m : Micro) : State :=
  let m1 := { m with pend := [], stopAt := BitVec.ofNat 14 (redirect s j m.upc.toNat) }
  let s2 := updMicro (saveFrame s j e m) j e (fun _ => m1)
  let s3 := wr (wr (setEng s2 j e 2) F.mcEngCause j e 0 cause) F.mcEngParGroups j e 0 par
  engineStops s3 j e

/-- The fetch of a micro-address can show a cause of R345: the words of the ROM are not the spec's, those of patch RAM are in
State. -/
def shows (s : State) (j cause par a : Nat) : Bool :=
  let rom : Bool := redirect s j a < 0x2000
  match microFetch s j a with
  | .fault c p => c = cause && (cause ≠ 2 || p = par)
  | .word w =>
    match cause with
    | 1 => rom
    | 3 => rom || !wordLegal (j < 12) w
    | 4 => rom || (wordLegal (j < 12) w && (mfield w 2 = 4 || mfield w 2 = 5))
    | _ => false

/-- An engine can meet a cause of R345: it runs, and for cause 2 a word of patch RAM that it may fetch fails in these parity
groups. -/
def canCheck (s : State) (j e cause par : Nat) : Bool :=
  domUp s (storeDom j) && engRunning s j e
    && (cause ≠ 2 || (rdB s F.mcCtlPatchEn j && (List.range 0x400).any (fun w => shows s j 2 par (0x2000 + w))))

/-- The micro-state in which an engine meets a cause: where it stands if the cause shows there, else that of its ROM at a free
micro-address that shows it. (DESIGN CHOICE, log entry 19.) -/
def microAt (s : State) (j e cause par : Nat) : Micro × State :=
  let (m, s1) := microNow s j e
  if shows s j cause par m.upc.toNat then (m, s1)
  else
    let (w, s2) := freeWord s1
    match ((List.range 0x4000).map (fun i => (w.toNat + i) % 0x4000)).find? (shows s j cause par) with
    | some a => ({ m with upc := BitVec.ofNat 14 a }, s2)
    | none => (m, s2)

/-- An engine meets a cause of R345. -/
def machineCheck (s : State) (j e cause par : Nat) : State :=
  let (m, s1) := microAt s j e cause par
  machineCheckIn s1 j e cause par m

/-- MACHINE_CHECK (R351): cause 1 to 5, with the parity groups that fail for causes 1 and 2. -/
def execMachineCheck (j : Fin 15) (e : Fin 4) (cause : Fin 16) (par : Byte) (s : State) : Out :=
  if e.val < storeEngines j.val ∧ 1 ≤ cause.val ∧ cause.val ≤ 5 ∧ (cause.val ≤ 2 → par ≠ 0) then
    if canCheck s j.val e.val cause.val par.toNat then
      .next (machineCheck s j.val e.val cause.val (if cause.val ≤ 2 then par.toNat else 0))
    else .next s
  else .fault .illFormed

/-! ### The end of a SEQUENCE routine (R355) -/

/-- ROUTINE_END (R355): the routine of a channel's SEQUENCE item reaches ROUTINE_END, or a word that stops its sequencer (R345).
One that does neither within TO_OTHER_US has not ended. -/
def execRoutineEnd (ch : Fin 48) (s : State) : Out :=
  let j := ch.val / 4
  let e := ch.val % 4
  match routineOf s ch.val with
  | some it =>
    let s1 := microByRom s j e
    match routineRun s1 it (routineWords s ch.val) with
    | .ended r =>
      let s2 := updMicro (tallyEvents (afterRun s1 r) ch.val r.evts) j e (fun _ => r.m.unmask)
      let (b, s3) := freeByte s2
      let s4 := updItem (routineOff s3 ch.val it.lun) it.id (fun i => { i with result := r.m.sreg 0, dieStatus := b })
      .next (kickBus (endItem s4 it.id) ch.val)
    | .fault cause par r => .next (machineCheckIn (tallyEvents (afterRun s1 r) ch.val r.evts) j e cause par r.m)
    | .going _ => .next s
  | none => .next s

/-! ### Restarts (R354) -/

/-- The engine's unit of repair is out of service. -/
def outOfService (s : State) (j : Nat) : Bool :=
  if j < 12 then cgFenced s j else if j < 14 then feFenced s (j - 12) else true

/-- RESTART is written 1. -/
def restart (s : State) (j e : Nat) : State :=
  if isMcheck s j e ∧ ¬ rdB s F.mcCtlWriteEn j ∧ outOfService s j then
    let s1 := updMicro s j e (fun m => { m with upc := 0, stack := [], masked := false, maskFor := 0, handler := false, waiting := false })
    let s2 := wr (wr (setEng s1 j e 1) F.mcEngCause j e 0 0) F.mcEngParGroups j e 0 0
    let s3 := if j = 14 ∧ e = 3 ∧ xrState s ≠ 0 then wr0 (updPort s2 (fun r => { r with joining := true })) F.tbStatusMaster 0 else s2
    engineStarts s3 j e
  else wr s F.mcEngRestartRefused j e 0 1

/-- MC_ENG is written. -/
def writeMcEng (s : State) (w : RegWrite) : State :=
  if storeEngines w.reg.i ≤ w.reg.j then s
  else
    let s1 := w.plain s
    if w.one F.mcEngRestart then restart s1 w.reg.i w.reg.j else s1

/-! ### Micro-traps (R347–R350) -/

/-- The trap that an engine takes at its next fetch. A handler that ran may have ended meanwhile by HALT or a jump, which
discards its frame (R350); whether it has is free. (DESIGN CHOICE, log entry 142.) -/
def trapDue (s : State) (j e : Nat) : Option Nat :=
  let m := getMicro s j e
  if domUp s (storeDom j) ∧ engRunning s j e ∧ ¬ m.masked ∧ (¬ m.handler ∨ Config.freeBit s.freeCtr) then firstCause m.pend
  else none

/-- MICRO_TRAP_ENTRY (R348): the frame is saved, and the handler runs from the cause's vector. -/
def execMicroTrapEntry (j : Fin 15) (e : Fin 4) (s : State) : Out :=
  match trapDue s j.val e.val with
  | some c => .next (trapEntry { s with freeCtr := s.freeCtr + 1 } j.val e.val c)
  | none => .next { s with freeCtr := s.freeCtr + 1 }

/-- TRAP_RETURN (R350): the frame is restored. -/
def execTrapReturn (j : Fin 15) (e : Fin 4) (s : State) : Out :=
  if domUp s (storeDom j.val) ∧ engRunning s j.val e.val ∧ (getMicro s j.val e.val).handler then
    .next (updMicro s j.val e.val (fun m => { restoreFrame s j.val e.val m with handler := false }))
  else .next s

/-! ### Loading patches (R356–R358) -/

/-- A group store may be written: its channels are out of service, and nothing uses the group. -/
def groupStoreFree (s : State) (g : Nat) : Bool :=
  (chansOf g).all (fun c => rd s F.chCtlState c = 2) && (cgFenced s g || (chansOf g).all (fun c => !rdB s F.chCtlEnable c))
    && !groupBusy s g && !bootUses s g

/-- The housekeeping store may be written. -/
def hkStoreFree (s : State) : Bool :=
  s.power.mode = .ready && s.power.phase.isNone && !rdB s F.xrCtlEnable && rd s F.psStatusRun = 0
    && rd s F.smScrubLinesPerUs = 0 && !loadBusy s && s.boot.swap.isNone && !bistRunning s
    && !((List.range 12).any (fun g => 2 ≤ calState s g)) && !(s.items.any (fun it => it.pkt.op = 0x14 && it.stage = .group))

/-- A write that sets WRITE_EN is accepted (R357). -/
def storeFree (s : State) (j ring : Nat) : Bool :=
  ring = 0 && !rdB s F.mcCtlClearing j
    && (if j < 12 then groupStoreFree s j else if j < 14 then feFenced s (j - 12) else hkStoreFree s)

/-- WRITE_EN is set: the running engines are HELD where their ROM stood. -/
def holdEngines (s : State) (j : Nat) : State :=
  setEngines (forNat (storeEngines j) (fun s e => if engRunning s j e then microByRom s j e else s) s) j 0

/-- WRITE_EN takes a value. -/
def setWriteEn (s : State) (j ring : Nat) (v : Bool) : State :=
  if v = rdB s F.mcCtlWriteEn j then s
  else if v then (if storeFree s j ring then holdEngines (wr1 s F.mcCtlWriteEn j 1) j else flag1 s F.mcCtlRefused j)
  else releaseEngines (wr1 s F.mcCtlWriteEn j 0) j

/-- PATCH_EN takes a value (R358). -/
def setPatchEn (s : State) (j : Nat) (v : Bool) : State :=
  if v = rdB s F.mcCtlPatchEn j then s
  else if rdB s F.mcCtlWriteEn j ∧ (¬ v ∨ BitVec.ofNat 64 (rd s F.mcCtlCheck j) = getR s .mcRomId j) then wr1 s F.mcCtlPatchEn j (bit v)
  else flag1 s F.mcCtlRefused j

/-- MC_CTL is written (R357, R358): WRITE_EN is set before PATCH_EN changes, and cleared after it.
(DEDUCED, log entry 71.) -/
def writeMcCtl (s : State) (w : RegWrite) (ring : Nat) : State :=
  let j := w.reg.i
  if ring ≠ 0 then flag1 s F.mcCtlRefused j
  else
  let we := w.get s F.mcCtlWriteEn = 1
  let pe := w.get s F.mcCtlPatchEn = 1
  let s1 := ((w.keeping F.mcCtlWriteEn).keeping F.mcCtlPatchEn).plain s
  if we then setPatchEn (setWriteEn s1 j ring true) j pe else setWriteEn (setPatchEn s1 j pe) j ring false

/-- MC_PATCH, MC_MATCH and MC_ROUTINE are written: only while WRITE_EN is 1 (R357), and no routines in stores 12 to 14. -/
def writePatch (s : State) (w : RegWrite) : State :=
  if rdB s F.mcCtlWriteEn w.reg.i ∧ ¬ (w.reg.name = .mcRoutine ∧ 12 ≤ w.reg.i) then w.plain s else s

end Sys2Proof.Machine
end

