-- ==== Sys2Proof/Machine/Power.lean ====
section
/-! DEFINITION. Modes and their transitions, the start-up sequence, core clock selection and the clock monitor, resets, supplies
and power switches, and the tick that passes on an empty queue (R34, R229, R402–R440). -/

namespace Sys2Proof.Machine

/-- PD_AON works: out of PORESET_N and not in retention. -/
def aonLive (s : State) : Bool := !s.power.poreset && !s.power.retention

def setPhase (s : State) (p : Option Phase) : State := updPower s (fun x => { x with phase := p })
def setMode (s : State) (m : Mode) : State := updPower s (fun x => { x with mode := m })

/-! ### The core clock (R415–R422) -/

/-- Work that waited for the core clock to leave the AON clock goes on (R420). -/
def unpark (s : State) : State :=
  let s1 := (List.range 12).foldl bringupResume ((s.chans.map (fun e => e.1)).foldl kickBus s)
  let s2 := (List.range 16).foldl sendForwards (dmaUnpark s1)
  (List.range 12).foldl calEval s2

/-- The core clock runs from a source: PARKED shows the AON clock. -/
def runFrom (s : State) (src : Nat) : State :=
  let s1 := wr0 (wr0 s F.ckCoreCtlSrc src) F.ckCoreCtlParked (bit (src = 2))
  if parked s ∧ src ≠ 2 then unpark s1 else s1

/-- A source is READY (R417). -/
def sourceReady (s : State) (src : Nat) : Bool :=
  match src with
  | 0 => rdB s F.ckCoreCtlCorePllReady
  | 1 => rdB s F.ckCoreCtlFallbackReady
  | n => n = 2

def switching (s : State) : Bool := s.power.switchFrom.isSome

/-- SRC is written with another value (R417). -/
def askSource (s : State) (src : Nat) : State :=
  if src = rd s F.ckCoreCtlSrc then s
  else if ¬ sourceReady s src ∨ switching s then flag0 s F.ckCoreCtlSwRefused
  else updPower (wr0 (wr0 s F.ckCoreCtlSrc src) F.ckCoreCtlSwitching 1) (fun p => { p with switchFrom := some (rd s F.ckCoreCtlSrc) })

/-- MULT and PLL_EN are written (R418). -/
def askPll (s : State) (mult : Nat) (en : Bool) : State :=
  if mult = rd s F.ckCoreCtlMult ∧ en = rdB s F.ckCoreCtlPllEn then s
  else if rd s F.ckCoreCtlSrc = 0 then flag0 s F.ckCoreCtlSwRefused
  else
    let s1 := wr0 (wr0 s F.ckCoreCtlMult mult) F.ckCoreCtlPllEn (bit en)
    if en ∧ mult = rd s F.ckCoreCtlMult then s1 else wr0 s1 F.ckCoreCtlCorePllReady 0

/-- CK_CORE_CTL is written: MULT and PLL_EN first, by the source in force before the write, then SRC.
(DEDUCED, log entry 79.) -/
def writeCore (s : State) (w : RegWrite) : State :=
  let s1 := (((w.keeping F.ckCoreCtlSrc).keeping F.ckCoreCtlMult).keeping F.ckCoreCtlPllEn).plain s
  askSource (askPll s1 (w.get s F.ckCoreCtlMult) (w.get s F.ckCoreCtlPllEn = 1)) (w.get s F.ckCoreCtlSrc)

def endSwitch (s : State) : State := updPower (wr0 s F.ckCoreCtlSwitching 0) (fun p => { p with switchFrom := none })

/-- CLOCK_SWITCH_DONE (R417). -/
def execClockSwitchDone (s : State) : Out :=
  .next (if switching s then runFrom (endSwitch s) (rd s F.ckCoreCtlSrc) else s)

/-- The source that the clock monitor watches. (DEDUCED, log entry 80.) -/
def monitored (s : State) : Nat := s.power.switchFrom.getD (rd s F.ckCoreCtlSrc)

/-- The monitor trips the core clock source (R422): a switch in progress is refused. -/
def coreTrip (s : State) (src : Nat) : State :=
  let s1 := if switching s then flag0 (endSwitch s) F.ckCoreCtlSwRefused else s
  let s2 := flag0 (wr0 s1 (if src = 0 then F.ckCoreCtlCorePllReady else F.ckCoreCtlFallbackReady) 0) F.ckCoreCtlClkFault
  runFrom s2 (if src = 0 ∧ rdB s F.ckCoreCtlFallbackReady then 1 else 2)

/-- CORE_CLOCK_TRIP (R422): the AON clock never trips. -/
def execCoreClockTrip (s : State) : Out :=
  .next (if domUp s dHk ∧ monitored s ≠ 2 then coreTrip s (monitored s) else s)

/-- The PHY PLL of a group runs (R416, R421). -/
def phyRuns (s : State) (g : Nat) : Bool := domUp s (dCg g) && (getGroup s g).pll

/-- The PHY PLL of a group trips (R423). -/
def phyTrip (s : State) (g : Nat) : State :=
  wr0 (loseGroup s g false) F.ckStatusPhyFault (rd s F.ckStatusPhyFault ||| 2 ^ g)

/-- PHY_PLL_TRIP (R423). -/
def execPhyPllTrip (g : Fin 12) (s : State) : Out := .next (if phyRuns s g.val then phyTrip s g.val else s)

/-! ### Transitions (R433, R436) -/

/-- OWNER takes OWNER_PREF as the unit enters READY (R22), whichever front ends are up. -/
def preferredOwner (s : State) : State :=
  let p := rd s F.ownerCtlOwnerPref
  if p = owner s then s else setOwner s p

/-- A transition ends in READY. -/
def readyEntered (s : State) : State := kickAll (wr0 (setPhase (setMode (preferredOwner s) .ready) none) F.modeCtlBusy 0)

/-- A start-up sequence begins at step 2 (R436). -/
def startUp (s : State) (retained : Bool) : State :=
  setPhase (setMode (wr0 (wr0 s F.modeCtlBusy 1) F.pwrStatusRetained (bit retained)) .standby) (some .step2)

/-- Step 3 begins: the fallback oscillator starts. -/
def startStep3 (s : State) : State :=
  setPhase (updPower s (fun p => { p with fallbackRun := true, step3At := s.clk })) (some .step3)

/-- Step 4 begins: SRC is the fallback oscillator, and the domains of READY power up in order. -/
def startStep4 (s : State) : State := powerUpAll (setPhase (runFrom s 1) (some .step4)) [1, 6, 7, 2, 3]

/-- Step 5: the core clock moves to the core PLL, or stays when 100 µs have passed. -/
def startStep5 (s : State) : State :=
  if rdB s F.ckCoreCtlCorePllReady then readyEntered (runFrom s 0)
  else if 100 * usU + s.power.step3At ≤ s.clk then readyEntered (flag0 s F.ckCoreCtlPllNolock)
  else setPhase s (some .step5)

/-- The domains of ACTIVE that PWR_REQ asks for and that are not up. -/
def activeMissing (s : State) : List Nat :=
  ((List.range' 4 2).filter (fun d => bitOf (rd s F.pwrReqPools) (d - 4))
    ++ (List.range' 8 12).filter (fun d => bitOf (rd s F.pwrReqGroups) (d - 8))).filter (fun d => !domUp s d)

/-- The transition to ACTIVE goes on: domains power up, but for a boot group that HK0 powers (R437). -/
def goActive (s : State) : State :=
  let ds := (activeMissing s).filter (fun d => !(s.power.bootGroup && bootGroupOf s = some (d - 8) && 8 ≤ d))
  if ds.isEmpty then kickAll (wr0 (setPhase (setMode s .active) none) F.modeCtlBusy 0) else powerUpAll s ds

/-- Jobs that wait when the pools power down (R433): their items end CHANNEL_FENCED, patrol jobs are dropped. -/
def dropJobs (s : State) : State :=
  let ids := (s.jobs.map (fun j => j.item)).eraseDups
  ids.foldl (fun s id => stopItem s id .channelFenced) { s with jobs := [] }

/-- HK0 owns the power of the group (R437). -/
def hkOwns (s : State) (d : Nat) : Bool := 8 ≤ d && bootUses s (d - 8)

/-- No engine is BUSY: the groups and pools power down, but for a group that a boot load uses (R437), and front ends that
are down power up (R433, R502). -/
def drainDone (s : State) : State :=
  let s1 := ((List.range' 8 12).reverse ++ [5, 4]).foldl
    (fun s d => if s.power.pswEn.getLsbD d ∧ ¬ hkOwns s d then planDown s d else s)
    (dropJobs (updPower s (fun p => { p with queue := p.queue.filter (hkOwns s) })))
  let s2 := wr0 s1 F.pwrReqFe 3
  setPhase (powerUpAll s2 ((List.range' 2 2).filter (fun d => !domUp s2 d))) (some .toReadyUp)

/-- The transition in progress goes on as far as it can. -/
def modeProgress (s : State) : State :=
  if s.power.sysreset then s
  else match s.power.phase with
  | some .step1 => if s.power.pswAck.getLsbD 0 then startUp s false else s
  | some .step2 => if supplyOk s 1 && supplyOk s 2 && supplyOk s 3 && !warn s then startStep3 s else s
  | some .step4 => if s.power.queue.isEmpty then startStep5 s else s
  | some .toActive => if s.power.queue.isEmpty then goActive s else s
  | some .toReadyDrain => if s.engines.isEmpty then drainDone s else s
  | some .toReadyUp => if s.power.queue.isEmpty then readyEntered s else s
  | some .toTest => if unitIdle s then enterTest s else s
  | _ => s

/-! ### MODE_CTL and PWR_REQ (R433, R434) -/

/-- A write of TARGET is refused (R433). -/
def refuseMode (s : State) (reason : Nat) : State := wr0 (flag0 s F.modeCtlRefused) F.modeCtlReason reason

/-- A write of TARGET is accepted: the transition begins. -/
def acceptMode (s : State) (t : Nat) (ph : Option Phase) : State :=
  setPhase (wr0 (wr0 s F.modeCtlTarget t) F.modeCtlBusy 1) ph

/-- Every channel has STATE READY and ENABLE = 0. -/
def channelsQuiet (s : State) : Bool := (List.range 48).all (fun c => !domUp s (dCg (c / 4)) || !countsEnabled s c)

/-- Step 1 of the shut-down (R438), and what follows it. -/
def goOff (s : State) : State :=
  shutDown (((List.range' 8 12).reverse ++ [5, 4]).foldl (fun s d => if s.power.pswEn.getLsbD d then planDown s d else s) s)

/-- The unit goes to STANDBY (R433). -/
def goStandby (s : State) : State := setPhase (setMode (wr0 (unitDown s) F.modeCtlBusy 0) .standby) none

/-- TARGET is written (R433). (DEDUCED, log entry 72.) (DEDUCED, log entry 82.) -/
def setTarget (s : State) (t : Nat) : State :=
  if t = modeCode s then s
  else if rdB s F.modeCtlBusy then refuseMode s 5
  else match s.power.mode, t with
  | .standby, 2 => modeProgress (startUp (acceptMode s 2 none) false)
  | .standby, 0 => enterOff (acceptMode s 0 none)
  | .ready, 3 => modeProgress (acceptMode s 3 (some .toActive))
  | .ready, 1 => if unitIdle s then goStandby (frontEndsDown (acceptMode s 1 none)) else refuseMode s 3
  | .ready, 5 =>
    if ¬ lcTest s ∨ planOf s false = [] then refuseMode s 4 else modeProgress (acceptMode s 5 (some .toTest))
  | .ready, 0 | .active, 0 =>
    if ¬ channelsQuiet s then refuseMode s 2 else if ¬ unitIdle s then refuseMode s 3 else goOff (acceptMode s 0 none)
  | .active, 2 =>
    if ¬ channelsQuiet s then refuseMode s 2 else modeProgress (acceptMode s 2 (some .toReadyDrain))
  | .test, 2 =>
    if bistRunning s then refuseMode s 3 else modeProgress (startUp (unitDown (acceptMode s 2 none)) false)
  | _, _ => refuseMode s 1

/-- MODE_CTL is written. -/
def writeMode (s : State) (w : RegWrite) : State :=
  setTarget ((w.keeping F.modeCtlTarget).plain s) (w.get s F.modeCtlTarget)

/-- A domain may be powered down by its PWR_REQ bit (R434). -/
def mayClear (s : State) (d : Nat) : Bool :=
  if d = 2 ∨ d = 3 then feFenced s (d - 2) && powered s (5 - d)
  else if d = 4 ∨ d = 5 then poolFenced s (d - 4) && !(s.engines.any (fun e => e.1 / 20 = d - 4))
  else (chansOf (d - 8)).all (fun c => !countsEnabled s c) && !groupBusy s (d - 8) && !rdB s F.mcCtlWriteEn (d - 8)

/-- The unit is in ACTIVE service with no transition in progress. -/
def steady (s : State) : Bool := s.power.mode = .active && s.power.phase.isNone

/-- The bits of PWR_REQ as one number, and one of them made `v`. -/
def reqBits (s : State) : Nat := (getR s .pwrReq).toNat % 2 ^ 20
def setReq (s : State) (d : Nat) (v : Bool) : State := wr0 s ⟨.pwrReq, d, 1⟩ (bit v)

/-- One bit of PWR_REQ is written 1, or 0 (R434). (DEDUCED, log entry 26.) -/
def reqSet (s : State) (d : Nat) : State :=
  let s1 := setReq s d true
  if steady s ∧ ¬ hkOwns s d then powerUpAll s1 [d] else s1
def reqClear (s : State) (d : Nat) : State :=
  if ¬ steady s then (if d < 4 then flag0 s F.pwrStatusPwrRefused else setReq s d false)
  else if ¬ mayClear s d then flag0 s F.pwrStatusPwrRefused
  else if hkOwns s d then setReq s d false
  else powerDown (unqueue (setReq s d false) d) d

/-- The bits of PWR_REQ that a write may change. -/
def reqDomains : List Nat := [2, 3, 4, 5, 8, 9, 10, 11, 12, 13, 14, 15, 16, 17, 18, 19]

/-- PWR_REQ is written (R434): the bits that clear act in descending order, then those that set in ascending order (R502).
(DEDUCED, log entry 26.) -/
def writePwrReq (s : State) (w : RegWrite) : State :=
  let new := (w.next s).toNat
  let s1 := reqDomains.reverse.foldl (fun s d => if bitOf (reqBits s) d ∧ ¬ bitOf new d then reqClear s d else s) s
  reqDomains.foldl (fun s d => if bitOf new d ∧ ¬ bitOf (reqBits s) d then reqSet s d else s) s1

/-! ### Clock sources become READY (R415, R436) -/

/-- A clock source becomes READY. -/
def sourceUp (s : State) (src : ClockSel) : State :=
  match src with
  | .fallback =>
    if s.power.fallbackRun ∧ supplyOk s 3 then
      let s1 := wr0 s F.ckCoreCtlFallbackReady 1
      if s.power.phase = some .step3 then startStep4 s1 else s1
    else s
  | .corePll =>
    if rdB s F.ckCoreCtlPllEn ∧ supplyOk s 3 ∧ aonLive s then
      let s1 := wr0 s F.ckCoreCtlCorePllReady 1
      if s.power.phase = some .step5 then startStep5 s1 else s1
    else s
  | .phy g => if phyRuns s g.val ∧ supplyOk s 3 then wr1 s F.cgPhyPllReady (4 * g.val) 1 else s

/-- CLOCK_SOURCE_READY (R415). -/
def execClockSourceReady (src : ClockSel) (s : State) : Out := .next (sourceUp s src)

/-- CORE_PLL_LOCK_TIMEOUT (R436): 100 µs after step 3 began, the sequence goes on with the fallback oscillator. -/
def execCorePllLockTimeout (s : State) : Out :=
  if s.power.phase = some .step5 then
    match lapse s (100 * usU + s.power.step3At) with
    | some s1 => .next (startStep5 s1)
    | none => .next s
  else .next s

/-! ### Resets (R398, R399, R429) -/

/-- The unit as PORESET_N leaves it: the pins keep their levels, PSW_EN[19:1] fall, and what the ports have put out stays
put out. -/
def poreset (s : State) : State :=
  let s1 := windowFail (failHeld s)
  { State.reset with
    pending := s.pending, freeCtr := s1.freeCtr, nextId := s1.nextId, ringTx := s1.ringTx, host := { rsp := s1.host.rsp },
    power := { State.reset.power with
      supply := s.power.supply, cutPin := s.power.cutPin, warn := s.power.warn, sysreset := s.power.sysreset,
      pswAck := s.power.pswAck, strapGen := s.power.strapGen } }

/-- PORESET_ASSERT (R429). -/
def execPoresetAssert (s : State) : Out := .next (poreset s)

/-- PORESET_RELEASE (R409, R436): the straps are sampled, and the cold start begins once PSW_ACK[0] is 1, unless SYSRESET_N
is asserted (R399). -/
def execPoresetRelease (s : State) : Out :=
  if s.power.poreset then
    let s1 := updPower s (fun p => { p with poreset := false, straps := Config.straps p.strapGen })
    .next (modeProgress (if s.power.pswAck.getLsbD 0 then startUp s1 false else setPhase s1 (some .step1)))
  else .next s

/-- Everything but PD_AON is powered down, and the unit is in STANDBY with no transition (R429). -/
def resetDown (s : State) : State := goStandby (bistAbort (setPhase s none))

/-- SYSRESET_N falls (R429). In OFF it is seen at its release. -/
def sysresetDown (s : State) : State :=
  let s1 := updPower s (fun p => { p with sysreset := true })
  if aonLive s then flag0 (wr0 (wr0 (resetDown s1) F.modeCtlRefused 0) F.modeCtlReason 0) F.pwrStatusSysSeen else s1

/-- SYSRESET_ASSERT (R429). -/
def execSysresetAssert (s : State) : Out := .next (sysresetDown s)

/-- SYSRESET_RELEASE (R436): a warm start, from STANDBY or from retention. (DEDUCED, log entry 84.) -/
def execSysresetRelease (s : State) : Out :=
  let s1 := updPower s (fun p => { p with sysreset := false })
  if ¬ s.power.sysreset then .next s
  else if s.power.poreset then .next s1
  else if s.power.retention then
    .next (modeProgress (startUp (flag0 (updPower s1 (fun p => { p with retention := false })) F.pwrStatusSysSeen) true))
  else .next (modeProgress (startUp s1 false))

/-! ### Supplies (R405, R436, R439) -/

/-- VDDQ of a boot group is there for the load of the start-up sequence (R436). -/
def bootSupplied (s : State) (g : Nat) : State :=
  if bootUses s g ∧ s.boot.vddqAt.isNone then { s with boot := { s.boot with vddqAt := some s.clk } } else s

/-- SUPPLY_OK_RISE (R405, R436). -/
def execSupplyOkRise (j : Fin 17) (s : State) : Out :=
  let s0 := setSupply s j.val true
  let s1 := if 5 ≤ j.val then bootSupplied s0 (j.val - 5) else s0
  .next (if aonLive s then modeProgress (powerNext s1) else s1)

/-- Some domain from a list counts as powered. -/
def anyPowered (s : State) (ds : List Nat) : Bool := ds.any (powered s)

/-- A brown-out (R429, R439). -/
def brownOut (s : State) : State :=
  flag0 (flag0 (resetDown s) F.pwrStatusBrownout) F.portStatusSupplyDrop

/-- VDD_PLL falls (R439). -/
def pllFalls (s : State) : State :=
  let s1 := wr0 (wr0 s F.ckCoreCtlFallbackReady 0) F.ckCoreCtlCorePllReady 0
  if anyPowered s (1 :: List.range' 8 12) then
    let s2 := flag0 (flag0 (runFrom (endSwitch s1) 2) F.ckCoreCtlClkFault) F.portStatusSupplyDrop
    (List.range 12).foldl (fun s g => if phyRuns s g then phyTrip s g else s) s2
  else s1

/-- VDD_RING falls (R439). -/
def ringSupplyFalls (s : State) : State :=
  if powered s 1 then
    [0, 1].foldl (fun s l => laneFalls (laneLoses s l .noLock) l) (ringOff (flag0 s F.portStatusSupplyDrop))
  else s

/-- A supply falls (R439). VDD_AON takes PD_AON with it: the unit needs PORESET_N. (DEDUCED, log entry 83.) -/
def supplyFalls (s : State) (j : Nat) : State :=
  let s1 := setSupply s j false
  match j with
  | 0 => poreset s1
  | 1 | 2 => if anyPowered s (List.range' 1 19) then brownOut s1 else s1
  | 3 => pllFalls s1
  | 4 => ringSupplyFalls s1
  | _ => vddqFalls s1 (j - 5)

/-- SUPPLY_OK_FALL (R439). -/
def execSupplyOkFall (j : Fin 17) (s : State) : Out := .next (supplyFalls s j.val)

/-- PWR_WARN_RISE (R82, R475): the filtered PWR_WARN rises. -/
def execPwrWarnRise (s : State) : Out := .next (if warn s then s else bistAbort (warnRises s))

/-- PWR_WARN_FALL (R84, R435): what it held back goes on. -/
def execPwrWarnFall (s : State) : Out := .next (modeProgress (powerNext (warnFalls s)))

/-! ### Power switches (R404, R426) -/

/-- A domain reaches the last row of R426. (DESIGN CHOICE, log entry 81.) -/
def comesUp (s : State) (d : Nat) : State := modeProgress (unqueue (domainComesUp s d) d)

/-- PSW_ACK_RISE (R426): that of PD_AON lets the always-on responder leave reset (R404, R436). -/
def execPswAckRise (i : Fin 20) (s : State) : Out :=
  if s.power.pswEn.getLsbD i.val ∧ ¬ s.power.pswAck.getLsbD i.val then
    let s1 := setAck s i.val true
    .next (if i.val = 0 then (if aonLive s then modeProgress s1 else s1) else if domUp s i.val then s1 else comesUp s1 i.val)
  else .next s

/-- PSW_ACK of a domain falls (R404): that of a domain that is to be powered is a fault, and the domain has lost power. -/
def pswDrops (s : State) (d : Nat) : State :=
  let s1 := setAck s d false
  if ¬ s.power.pswAck.getLsbD d then s
  else if s.power.pswEn.getLsbD d ∧ aonLive s then loseDomain (flag0 s1 F.portStatusPswFault) d
  else s1

/-- PSW_ACK_UNPLANNED_FALL (R404). -/
def execPswAckUnplannedFall (i : Fin 20) (s : State) : Out := .next (pswDrops s i.val)

/-- PSW_HANDSHAKE_TIMEOUT (R404): PSW_ACK did not follow PSW_EN within 100 µs. -/
def execPswHandshakeTimeout (i : Fin 20) (s : State) : Out :=
  let d := i.val
  if s.power.pswEn.getLsbD d ≠ s.power.pswAck.getLsbD d ∧ d ≠ 0 ∧ aonLive s then
    match lapse s (100 * usU + Tab.get s.power.pswAt d 0) with
    | some s1 => .next (flag0 s1 F.portStatusPswFault)
    | none => .next s
  else .next s

/-- STRAP_CHANGE (R409, R410): the strap inputs take other levels, which the next release of PORESET_N samples. -/
def execStrapChange (s : State) : Out :=
  let s1 := updPower s (fun p => { p with strapGen := p.strapGen + 1 })
  .next (if aonLive s then flag0 s1 F.portStatusStrapChanged else s1)

/-! ### Front ends (R25, R26) -/

/-- FRONT_END_UP (R25, R26): a front end leaves reset, or is no longer fenced. -/
def execFrontEndUp (half : Fin 2) (s : State) : Out :=
  let d := dFe half.val
  .next (if ¬ powered s d ∨ s.power.queue.contains d then s
    else if domUp s d then feBecomesUp s half.val
    else domainComesUp s d)

/-- A front end loses power, enters reset, or is fenced. -/
def frontEndStops (s : State) (h : Nat) (cause : StopCause) : State :=
  match cause with
  | .power => pswDrops s (dFe h)
  | .reset => if domUp s (dFe h) then loseFe s h else s
  | .fence => setFeFences s (h = 0 || feFenced s 0) (h = 1 || feFenced s 1)

/-- FRONT_END_STOP (R26). -/
def execFrontEndStop (half : Fin 2) (cause : StopCause) (s : State) : Out := .next (frontEndStops s half.val cause)

/-! ### A tick (R229, R465, R468) -/

/-- Core clock cycles in one AON cycle; the fallback oscillator's are free within its range. -/
def cyclesPerAon (s : State) : Nat × State := let (f, s1) := coreMhz s; (f / 25, s1)

/-- The AON cycle and the core cycles in it are counted. -/
def tallyCycles (s : State) : State :=
  if domUp s dHk then
    let (n, s1) := cyclesPerAon s
    tallyN (tally s1 0x002) 0x001 n
  else s

/-- The time base takes the value written to TB_SET; the master announces the step (R231, R260). -/
def takeSet (s : State) : State :=
  match s.tbNext with
  | none => aonTick s
  | some t =>
    let d : Int := ((t : Int) - (s.tb : Int)) / (nsU : Int)
    let s1 := aonTick (if isMaster s ∧ ringSends s then ringSend s (.step d) else s)
    if domUp s dHk then retime s1 else s1

/-- The ring's lanes in an AON cycle: what waits is sent, and a lane without frames goes down (R241, R244). -/
def ringTick (s : State) : State := if domUp s dHk then laneWatch (ringDrain s) else s

/-- Bus cycles that were in progress at a write of WP_RELEASE have ended (R155). (DESIGN CHOICE, log entry 124.) -/
def wpTick (s : State) : State := { s with chans := s.chans.map (fun e => (e.1, { e.2 with wpHeld := none })) }

/-- The holds in which staged trims settle end (R453). -/
def settleTick (s : State) : State := (List.range 12).foldl settleEnd s

/-- What an AON cycle brings: the time base counts, and what waits for an AON edge goes on. -/
def tick (s : State) : State := modeProgress (powerNext (settleTick (wpTick (ringTick (tallyCycles (takeSet s))))))

end Sys2Proof.Machine
end

