-- ==== Sys2Proof/Machine/RingWrites.lean ====
section
/-! DEFINITION. Writes of the registers of a ring pair (R44–R51). -/

namespace Sys2Proof.Machine

/-- A write of 1 to a W1C flag of a pair's RING_STATUS that was set. -/
def RegWrite.clears (w : RegWrite) (s : State) (f : Fld) : Bool := w.one f && rdB s f w.reg.i

/-- The doorbell (R44): a TAIL outside the ring, or a pair that is not enabled, sets DB_ERR; otherwise TAIL is taken, also
one that passes packets not routed yet (R52), and the doorbell traps the teller (R347). -/
def writeSqTail (s : State) (w : RegWrite) : State :=
  let k := w.reg.i
  let v := w.get s F.sqTailTail
  if sqSize s k ≤ v ∨ ¬ rdB s F.ringCfgEnable k then flag1 s F.ringStatusDbErr k
  else kickFetch (raiseTeller (wr1 s F.sqTailTail k v) (tellerOf s k) 7) k

/-- The slots that a write of `v` to RQ_HEAD returns (R45). A value outside the range of R52 counts the same way.
(DESIGN CHOICE, log entry 105.) -/
def returned (s : State) (k v : Nat) : Nat :=
  let n := rqSize s k
  let h := rd s F.rqHeadHead k
  if v = h then (if (getRing s k).unret = n then n else 0) else (v + n - h % n) % n

/-- RQ_HEAD (R45): slots are returned, and receipts and routing that waited for them go on. -/
def writeRqHead (s : State) (w : RegWrite) : State :=
  let k := w.reg.i
  let v := w.get s F.rqHeadHead
  let n := returned s k v
  let s1 := updRing (wr1 s F.rqHeadHead k v) k (fun r => { r with unret := r.unret - n })
  tellerGoesOn (writeReceipts s1 k) k

/-- A pair is locked (R49). -/
def pairLocked (s : State) (k : Nat) : Bool := rdB s F.ringCfgEnable k || inFlight s k ≠ 0

/-- A write of RING_CFG would change a field that is locked at that moment (R49). -/
def cfgLocked (s : State) (w : RegWrite) : Bool :=
  (pairLocked s w.reg.i && (w.changes s F.ringCfgSqLog2 || w.changes s F.ringCfgRqLog2 || w.changes s F.ringCfgRingLevel))
    || (rdB s F.ringCfgEnable w.reg.i && w.changes s F.ringCfgTeller)

/-- The pointers of a pair that is enabled with no item in flight (R50). What R47 counts goes on from the last clearing of
IRQ_PEND. -/
def pairFresh (s : State) (k : Nat) : State :=
  let s1 := wr1 (wr1 (wr1 (wr1 (wr1 s F.sqHeadHead k 0) F.sqTailTail k 0) F.rqTailTail k 0) F.rqHeadHead k 0) F.rqTailPhase k 1
  updRing s1 k (fun r => { r with unret := 0, okSlots := [] })

/-- ENABLE of a pair goes from 0 to 1 (R49, R50). -/
def pairEnable (s : State) (k : Nat) : State :=
  let bad := fun (n : Nat) => n < 4 || 16 < n
  if bad (rd s F.ringCfgSqLog2 k) ∨ bad (rd s F.ringCfgRqLog2 k) then flag1 (wr1 s F.ringCfgEnable k 0) F.ringStatusCfgErr k
  else tellerGoesOn (if inFlight s k = 0 then pairFresh s k else s) k

/-- RING_CFG (R49, R50). A new teller writes the receipts that the hold has. -/
def writeRingCfg (s : State) (w : RegWrite) : State :=
  let k := w.reg.i
  if cfgLocked s w then flag1 s F.ringStatusCfgErr k
  else
    let was := rdB s F.ringCfgEnable k
    let s1 := w.plain s
    let s2 := coalCount (if w.changes s F.ringCfgTeller then rebindReceipts s1 k else s1) k
    match was, rdB s1 F.ringCfgEnable k with
    | false, true => pairEnable s2 k
    | true, false => stopFetch s2 k
    | _, _ => s2

/-- IRQ_COAL (R47). -/
def writeIrqCoal (s : State) (w : RegWrite) : State := coalCount (w.plain s) w.reg.i

/-- SQ_BASE and RQ_BASE (R49). -/
def writeBase (s : State) (w : RegWrite) (f : Fld) : State :=
  if pairLocked s w.reg.i ∧ w.changes s f then flag1 s F.ringStatusCfgErr w.reg.i else w.plain s

/-- RING_STATUS (R47, R51): clearing IRQ_PEND restarts the coalescing, clearing FETCH_ERR fetches the packet again,
clearing RCPT_ERR writes the receipts again. -/
def writeRingStatus (s : State) (w : RegWrite) : State :=
  let k := w.reg.i
  let s1 := w.plain s
  let s2 := if w.clears s F.ringStatusIrqPend then updRing s1 k (fun r => { r with written := 0, firstAt := none }) else s1
  let s3 := if w.clears s F.ringStatusFetchErr then kickFetch s2 k else s2
  if w.clears s F.ringStatusRcptErr then writeReceipts (rewriteReceipts s3 k) k else s3

end Sys2Proof.Machine
end

