-- ==== Sys2Proof/Machine/LocalWrites.lean ====
section
/-! DEFINITION. Writes of the remaining registers outside the shared regions, and the write of any register by its name
(R7, R19). -/

namespace Sys2Proof.Machine

/-- OWNER_CTL (R21, R23, R36). -/
def writeOwner (s : State) (w : RegWrite) : State :=
  let s1 := w.plain s
  if ¬ w.one F.ownerCtlHandover then s1
  else if s.power.mode = .standby then flag0 s1 F.ownerCtlHandoverRefused
  else handoverAsked s1

/-- SVC_FE_CTL (R484). -/
def writeFeFences (s : State) (w : RegWrite) : State :=
  setFeFences ((w.keeping F.svcFeCtlFeAFence).keeping F.svcFeCtlFeBFence |>.plain s)
    (w.get s F.svcFeCtlFeAFence = 1) (w.get s F.svcFeCtlFeBFence = 1)

/-- RAND_KEY (R93): ignored while a channel of the unit is enabled. -/
def writeKey (s : State) (w : RegWrite) : State :=
  if (List.range 48).any (fun ch => domUp s (dCg (ch / 4)) && countsEnabled s ch) then s else w.plain s

/-- BOOT_CTL (R339): a write of 1 to WIN_EN while it is 0 is ignored; a release makes SB15 an ordinary bank. -/
def writeBootCtl (s : State) (w : RegWrite) : State :=
  let s1 := (w.keeping F.bootCtlWinEn).plain s
  let s2 := if w.one F.bootCtlReload then reloadAsked s1 else s1
  if rdB s F.bootCtlWinEn ∧ w.get s F.bootCtlWinEn = 0 then slotServe (releaseShadow s2) else s2

/-- BIST_CTL (R471): ignored in TEST. -/
def writeBist (s : State) (w : RegWrite) : State := if s.power.mode = .test then s else w.plain s

/-- A write to a register outside the shared regions, by its name; `ring` is the host ring attribute. -/
def localWrite (s : State) (w : RegWrite) (ring : Nat) : State :=
  match w.reg.name with
  | .ownerCtl => writeOwner s w
  | .svcFeCtl => writeFeFences s w
  | .randKey => writeKey s w
  | .sqBase => writeBase s w F.sqBaseBase
  | .rqBase => writeBase s w F.rqBaseBase
  | .ringCfg => writeRingCfg s w
  | .irqCoal => writeIrqCoal s w
  | .sqTail => writeSqTail s w
  | .rqHead => writeRqHead s w
  | .ringStatus => writeRingStatus s w
  | .chTiming0 | .chTiming1 => writeTiming s w
  | .chBusCtl => writeBusCtl s w
  | .chSched => writeSched s w
  | .chCtl => writeChCtl s w
  | .cgFence => writeFence s w
  | .cgPhy => writePhy s w
  | .chFlipCtl => writeArm s w F.chFlipCtlArm
  | .deCtl => writeEngine s w
  | .dcCtl => writeDcCtl s w
  | .dcRingBase => writeDcRing s w F.dcRingBaseBase
  | .dcRingCfg => writeDcRing s w F.dcRingCfgLog2
  | .dcKick => writeDcKick s w
  | .chFifoCtl => writeFifoCtl s w
  | .smBankCtl => writeBank s w
  | .smRemap => writeRemap s w
  | .smFlipCtl => writeArm s w F.smFlipCtlArm
  | .bootCtl => writeBootCtl s w
  | .mcEng => writeMcEng s w
  | .mcCtl => writeMcCtl s w ring
  | .mcPatchW0 | .mcPatchW1 | .mcPatchW2 | .mcMatch | .mcRoutine => writePatch s w
  | .ckCoreCtl => writeCore s w
  | .modeCtl => writeMode s w
  | .pwrReq => writePwrReq s w
  | .bistCtl => writeBist s w
  | .calGrpCtl => writeCalCtl s w
  | .calAlert => writeCalAlert s w
  | .calDqRd | .calDqWr | .calDqs | .calDrv => writeTrim s w
  | _ => w.plain s

end Sys2Proof.Machine
end

