-- ==== Sys2Proof/Machine/Access.lean ====
section
/-! DEFINITION. An access on H_TGT (R34, R48, R362, R374–R381): what the port stage checks, which front end serves it, and
its effect. -/

namespace Sys2Proof.Machine

/-! ### The checks of the port stage (R376–R378) -/

/-- The port takes requests (R34, R375): not while PORESET_N is asserted, PD_AON is unpowered or the mode is OFF, and not
with 32 responses waiting. -/
def portTakes (s : State) : Bool :=
  aonLive s && s.power.mode ≠ .off && s.power.pswAck.getLsbD 0 && rspWaiting s < 32

/-- The access is aligned (R376). -/
def aligned (q : HostAccess) : Bool := if q.size64 then q.addr.toNat % 8 = 0 else q.addr.toNat % 4 = 0

/-- The mode admits accesses to registers outside PD_AON (R34, R36). -/
def modeOpen (s : State) : Bool := s.power.mode = .ready || s.power.mode = .active

/-- A register's domain and its serving front end are up (R14, R19, R362): PD_AON's registers are always answered, but a
write to one of a shared region is the owner's to apply; a front end serves its own domain, and the owner half's front end
everything else. (DEDUCED, log entry 30.) -/
def serves (s : State) (r : Reg) (write : Bool) : Bool :=
  let d := regDomain r
  if d = dAon then !(write && inShared (regAddr r)) || feUp s (owner s)
  else modeOpen s && domUp s d && (d = dFe 0 || d = dFe 1 || feUp s (owner s))

/-- An access to a shared region waits for a handover (R24). -/
def waitsOwner (s : State) (r : Reg) : Bool := s.host.handover && inShared (regAddr r)

/-- A part of an access meets an ACCESS_ERR condition of its register (R376, R380). -/
def partAccessErr (s : State) (q : HostAccess) (t : Reg × Part) : Bool :=
  (t.1.name = .tbSet && q.write && !q.size64)
    || !(serves s t.1 q.write || (waitsOwner s t.1 && modeOpen s && (regDomain t.1 = dAon || domUp s (regDomain t.1))))

/-- The boot window is served (R334, R362). -/
def windowServed (s : State) : Bool := modeOpen s && domUp s (dSm 1) && feUp s (owner s)

/-- An access meets an ACCESS_ERR condition before it reaches the boot window (R376, R377). -/
def accessErr (s : State) (q : HostAccess) : Bool :=
  !aligned q ||
    (if inWindow q.addr then !windowServed s
     else q.fetch || (touched q).isEmpty || (touched q).any (partAccessErr s q))

/-- The registers of a ring pair. -/
def pairReg (n : RegName) : Bool :=
  n ∈ [RegName.sqBase, .rqBase, .ringCfg, .irqCoal, .sqTail, .sqHead, .rqTail, .rqHead, .ringStatus]

/-- An access is a write of MC_CTL that sets WRITE_EN, which R357 answers with REFUSED for another ring attribute than 0. -/
def setsWriteEn (s : State) (q : HostAccess) (r : Reg) : Bool :=
  r.name = .mcCtl && q.write && !rdB s F.mcCtlWriteEn r.i
    && (touched q).any (fun t => t.1 = r && (partWrite q t).get s F.mcCtlWriteEn = 1)

/-- The ring attribute is permitted for a register (R48, R357, R378, R460); of a pair's registers, SQ_HEAD and RQ_TAIL take no
write. -/
def ringMay (s : State) (q : HostAccess) (r : Reg) : Bool :=
  let a := q.acc.ring.toNat
  let level := fun (n : Nat) => a = 0 || a ≤ n
  if r.name = .icClaim ∧ ¬ q.write ∨ r.name = .icComplete ∧ q.write then a ≤ rd s F.icTgtCfgLevel r.i
  else if pairReg r.name ∧ (¬ q.write ∨ r.name = .sqTail ∨ r.name = .rqHead ∨ r.name = .ringStatus) then level (ringLevel s r.i)
  else !q.write || setsWriteEn s q r || (a = 0 && r.name ≠ .sqHead && r.name ≠ .rqTail)

/-! ### The access -/

/-- A write to a register, wherever it lies. -/
def regWrite (q : HostAccess) (s : State) (t : Reg × Part) : State :=
  let w := partWrite q t
  if inShared (regAddr t.1) then sharedWrite s w else localWrite s w q.acc.ring.toNat

/-- The parts of a write take effect, low register first (R380). -/
def writeParts (s : State) (q : HostAccess) : State := (touched q).foldl (regWrite q) s

/-- An access has to wait: for a handover (R24), or behind one that is held (R381). -/
def waits (s : State) (q : HostAccess) : Bool := (touched q).any (fun t => waitsOwner s t.1) || behind s s.host.held q

/-- A write by the port stage's checks, applied at once. -/
def plainWrite (s : State) (q : HostAccess) : State :=
  if ¬ portTakes s ∨ accessErr s q ∨ inWindow q.addr ∨ (touched q).any (fun t => !ringMay s q t.1) ∨ waits s q then s
  else writeParts s q

/-- The accesses to one register of the always-on responder that can stop a front end: SVC_FE_CTL and MODE_CTL. -/
def stopAccess (c : Instr) : Option HostAccess :=
  let at_ := fun (a : Acc) (r : Reg) (v : W32) =>
    ({ acc := a, addr := BitVec.ofNat 24 (regAddr r), size64 := false, write := true, fetch := false,
       data := if regAddr r % 8 = 4 then v.setWidth 64 <<< 32 else v.setWidth 64 } : HostAccess)
  match c with
  | .svcFeFenceWrite a v => some (at_ a ⟨.svcFeCtl, 0, 0, 0⟩ v)
  | .modeTargetStandby a v | .modeTargetOff a v | .modeTargetTest a v => some (at_ a ⟨.modeCtl, 0, 0, 0⟩ v)
  | .registerWrite a addr size64 v => some { acc := a, addr := addr, size64 := size64, write := true, fetch := false, data := v }
  | .errorResponse q => if q.write then some q else none
  | _ => none

/-- The state after a command, if it is one that can stop a front end. -/
def stopRun (s : State) (c : Instr) : Option State :=
  match c with
  | .frontEndStop h cause => some (frontEndStops s h.val cause)
  | .pswAckUnplannedFall i => some (pswDrops s i.val)
  | .sysresetAssert => some (sysresetDown s)
  | .supplyOkFall j => some (supplyFalls s j.val)
  | c => (stopAccess c).map (plainWrite s)

/-- The command that comes next stops the owner's front end without a handover, so that it may do so before a write posted
now is applied (R28). -/
def ownerStopsNext (s : State) : Bool :=
  !s.host.handover && feUp s (owner s) && ((s.pending.head?.bind (stopRun s)).any (fun x => !feUp x (owner s)))

/-- A write to a shared region that is posted before the owner's front end stops is applied whole or not at all: which is
free (R28). -/
def postedAccess (s : State) (q : HostAccess) : State :=
  if sharedAcc q ∧ ownerStopsNext s then
    let (b, s1) := freeBit s
    if b then writeParts s1 q else s1
  else writeParts s q

/-- An access that has passed the checks is applied and answered: a write is answered as soon as it is checked (R381). -/
def applyAccess (s : State) (q : HostAccess) : State :=
  if q.write then postedAccess (answer s q .fresh rOkay) q
  else let (w, s1) := readAccess s q; answer s1 q .fresh rOkay w

/-- An access on H_TGT: an erroneous access has no effect but its response and its log (R376, R385).
(DESIGN CHOICE, log entry 13.) (DEDUCED, log entry 14.) -/
def hostAccess (s : State) (q : HostAccess) : State :=
  if ¬ portTakes s then s
  else if accessErr s q then answer s q .fresh rAccess
  else if inWindow q.addr then (if ¬ q.write ∧ behind s s.host.held q then holdAccess s q else windowAccess s q)
  else if (touched q).any (fun t => !ringMay s q t.1) then answer s q .fresh rProt
  else if waits s q then holdAccess s q
  else applyAccess s q

/-! ### Accesses that waited (R381) -/

/-- A held access is applied and answered; its register or the window may be served no longer. -/
def applyLate (s : State) (q : HostAccess) (sl : RspSlot) : State :=
  if accessErr s q then answer s q sl rAccess
  else if inWindow q.addr then
    match sl with
    | .kept i => if loading s then windowHold s q i else windowAnswer s q sl
    | _ => s
  else if q.write then writeParts s q
  else let (w, s1) := readAccess s q; answer s1 q sl rOkay w

/-- A held request is applied if nothing holds it any longer. -/
def drainOne (s : State) (h : HeldReq) : State :=
  match h with
  | .access q sl => if waits s q then { s with host := { s.host with held := s.host.held ++ [h] } } else applyLate s q sl
  | _ => if linkHeld s then { s with host := { s.host with held := s.host.held ++ [h] } } else applyHeldOne s h

/-- What is held is applied in the order of acceptance, as far as it need wait no longer. -/
def drainHeld (s : State) : State := s.host.held.foldl drainOne { s with host := { s.host with held := [] } }

/-- One AON cycle passes: the time base counts, what waits for an AON edge goes on, and accesses that waited are applied.
(DESIGN CHOICE, log entry 89.) -/
def idle (s : State) : State := if aonLive s then drainHeld (tick s) else s

/-! ### Accesses to one register -/

/-- An access of a register's whole width, with a write's data on its lanes (R376). -/
def accessOf (a : Acc) (r : Reg) (write : Bool) (v : W64) : HostAccess :=
  let ad := regAddr r
  { acc := a, addr := BitVec.ofNat 24 ad, size64 := r.name.row.wide, write := write, fetch := false,
    data := if ad % 8 = 4 then v <<< 32 else v }

/-- The command writes `v` to a register of its row; `ok` tells that the value is the row's. -/
def writeRow (a : Acc) (r : Reg) (v : W64) (ok : Bool) (s : State) : Out :=
  if ok then .next (hostAccess s (accessOf a r true v)) else .fault .illFormed

/-- The command writes a 32-bit register of its row. -/
def writeRow32 (a : Acc) (r : Reg) (v : W32) (ok : Bool) (s : State) : Out := writeRow a r (v.setWidth 64) ok s

/-- The register `n` with one index. -/
def reg1 (n : RegName) (i : Nat) : Reg := ⟨n, i, 0, 0⟩
def reg0 (n : RegName) : Reg := ⟨n, 0, 0, 0⟩

end Sys2Proof.Machine
end

