-- ==== Sys2Proof/Machine/HostCmds.lean ====
section
/-! DEFINITION. The rows that are accesses on H_TGT: each builds the access to its row's register and makes it (R374). -/

namespace Sys2Proof.Machine

/-! ### Ring pairs -/

/-- SQ_TAIL_DOORBELL (R44): a write to SQ_TAIL. -/
def execSqTailDoorbell (a : Acc) (k : Fin 256) (v : W32) (s : State) : Out :=
  writeRow32 a (reg1 .sqTail k.val) v true s

/-- RQ_HEAD_WRITE (R45). -/
def execRqHeadWrite (a : Acc) (k : Fin 256) (v : W32) (s : State) : Out :=
  writeRow32 a (reg1 .rqHead k.val) v true s

/-- RING_ENABLE (R50): a write of RING_CFG with ENABLE = 1. -/
def execRingEnable (a : Acc) (k : Fin 256) (v : W32) (s : State) : Out :=
  writeRow32 a (reg1 .ringCfg k.val) v (v.getLsbD 0) s

/-- RING_DISABLE (R50): a write of RING_CFG with ENABLE = 0. -/
def execRingDisable (a : Acc) (k : Fin 256) (v : W32) (s : State) : Out :=
  writeRow32 a (reg1 .ringCfg k.val) v (!v.getLsbD 0) s

/-- RING_CFG_WRITE (R49). -/
def execRingCfgWrite (a : Acc) (k : Fin 256) (v : W32) (s : State) : Out :=
  writeRow32 a (reg1 .ringCfg k.val) v true s

/-- FETCH_ERR_CLEAR (R51): a write of 1 to FETCH_ERR. -/
def execFetchErrClear (a : Acc) (k : Fin 256) (v : W32) (s : State) : Out :=
  writeRow32 a (reg1 .ringStatus k.val) v (v.getLsbD 3) s

/-- RCPT_ERR_CLEAR (R51): a write of 1 to RCPT_ERR. -/
def execRcptErrClear (a : Acc) (k : Fin 256) (v : W32) (s : State) : Out :=
  writeRow32 a (reg1 .ringStatus k.val) v (v.getLsbD 4) s

/-! ### Ledger, time base, Xaram ring, ownership -/

/-- FORCE_ALT_WRITE (R217): a write of LG_CTL. -/
def execForceAltWrite (a : Acc) (v : W32) (s : State) : Out :=
  writeRow32 a (reg0 .lgCtl) v true s

/-- HANDOVER_REQUEST (R23): a write of 1 to HANDOVER. -/
def execHandoverRequest (a : Acc) (v : W32) (s : State) : Out :=
  writeRow32 a (reg0 .ownerCtl) v (v.getLsbD 1) s

/-- TB_SET_WRITE (R231). -/
def execTbSetWrite (a : Acc) (v : W64) (s : State) : Out :=
  writeRow a (reg0 .tbSet) v true s

/-- RAND_KEY_WRITE (R93). -/
def execRandKeyWrite (a : Acc) (v : W32) (s : State) : Out :=
  writeRow32 a (reg0 .randKey) v true s

/-- RING_START_WRITE (R226): a write of 1 to RING_START. -/
def execRingStartWrite (a : Acc) (v : W64) (s : State) : Out :=
  writeRow a (reg0 .lgRingCtl) v (v.getLsbD 33) s

/-- REENUM_WRITE (R246): a write of 1 to REENUM. -/
def execReenumWrite (a : Acc) (v : W32) (s : State) : Out :=
  writeRow32 a (reg0 .xrCtl) v (v.getLsbD 1) s

/-- RING_PORT_ENABLE (R246): a write of XR_CTL. -/
def execRingPortEnable (a : Acc) (v : W32) (s : State) : Out :=
  writeRow32 a (reg0 .xrCtl) v true s

/-! ### Channels and groups -/

/-- INIT_WRITE (R157): a write of 1 to INIT of a group. -/
def execInitWrite (a : Acc) (g : Fin 12) (v : W64) (s : State) : Out :=
  writeRow a (reg1 .cgPhy (4 * g.val)) v (v.getLsbD 48) s

/-- INERT_WRITE (R167): a write of 1 to INERT of a group. -/
def execInertWrite (a : Acc) (g : Fin 12) (v : W64) (s : State) : Out :=
  writeRow a (reg1 .cgPhy (4 * g.val)) v (v.getLsbD 53) s

/-- CH_ENABLE_WRITE (R202): a write of ENABLE = 1 to CH_CTL. -/
def execChEnableWrite (a : Acc) (ch : Fin 48) (v : W32) (s : State) : Out :=
  writeRow32 a (reg1 .chCtl ch.val) v (v.getLsbD 0) s

/-- CH_DISABLE_WRITE (R203): a write of ENABLE = 0 to CH_CTL. -/
def execChDisableWrite (a : Acc) (ch : Fin 48) (v : W32) (s : State) : Out :=
  writeRow32 a (reg1 .chCtl ch.val) v (!v.getLsbD 0) s

/-- CG_FENCE_WRITE (R202). -/
def execCgFenceWrite (a : Acc) (g : Fin 12) (v : W32) (s : State) : Out :=
  writeRow32 a (reg1 .cgFence (4 * g.val)) v true s

/-! ### Decode engines, DMA channels, staging FIFOs -/

/-- DE_CTL_WRITE (R135). -/
def execDeCtlWrite (a : Acc) (e : Fin 40) (v : W32) (s : State) : Out :=
  writeRow32 a (reg1 .deCtl e.val) v true s

/-- POOL_FENCE_WRITE (R135): a write of DEC_CTL. -/
def execPoolFenceWrite (a : Acc) (v : W32) (s : State) : Out :=
  writeRow32 a (reg0 .decCtl) v true s

/-- DC_ENABLE_WRITE (R293): a write of ENABLE = 1 to DC_CTL. -/
def execDcEnableWrite (a : Acc) (d : Fin 32) (v : W32) (s : State) : Out :=
  writeRow32 a (reg1 .dcCtl d.val) v (v.getLsbD 0) s

/-- DC_DISABLE_WRITE (R294): a write of ENABLE = 0 to DC_CTL. -/
def execDcDisableWrite (a : Acc) (d : Fin 32) (v : W32) (s : State) : Out :=
  writeRow32 a (reg1 .dcCtl d.val) v (!v.getLsbD 0) s

/-- DC_KICK_WRITE (R280). -/
def execDcKickWrite (a : Acc) (d : Fin 32) (v : W32) (s : State) : Out :=
  writeRow32 a (reg1 .dcKick d.val) v true s

/-- FIFO_FLUSH_WRITE (R304): a write of CH_FIFO_CTL with a bit of FLUSH. -/
def execFifoFlushWrite (a : Acc) (ch : Fin 48) (v : W32) (s : State) : Out :=
  writeRow32 a (reg1 .chFifoCtl ch.val) v ((v >>> 8).toNat % 16 ≠ 0) s

/-- FIFO_DBG_ENABLE_WRITE (R305): a write of CH_FIFO_CTL. -/
def execFifoDbgEnableWrite (a : Acc) (ch : Fin 48) (v : W32) (s : State) : Out :=
  writeRow32 a (reg1 .chFifoCtl ch.val) v true s

/-- FIFO_DBG_POP (R305): a 64-bit read of CH_FIFO_DBG, or a read of its low half. -/
def execFifoDbgPop (a : Acc) (ch : Fin 48) (f : Fin 4) (size64 : Bool) (s : State) : Out :=
  .next (hostAccess s { accessOf a ⟨.chFifoDbg, ch.val, f.val, 0⟩ false 0 with size64 := size64 })

/-! ### Interrupt controller and tallies -/

/-- IC_CLAIM_READ (R460): a read of IC_CLAIM. -/
def execIcClaimRead (a : Acc) (t : Fin 8) (s : State) : Out :=
  .next (hostAccess s (accessOf a (reg1 .icClaim t.val) false 0))

/-- IC_COMPLETE_WRITE (R461). -/
def execIcCompleteWrite (a : Acc) (t : Fin 8) (v : W32) (s : State) : Out :=
  writeRow32 a (reg1 .icComplete t.val) v true s

/-- IC_FORCE_WRITE (R458): a write of 1 to FORCE of IC_SRC. -/
def execIcForceWrite (a : Acc) (n : Fin 512) (v : W32) (s : State) : Out :=
  writeRow32 a (reg1 .icSrc n.val) v (v.getLsbD 19) s

/-- IC_SENSE_WRITE (R462): a write of IC_SRC. -/
def execIcSenseWrite (a : Acc) (n : Fin 512) (v : W32) (s : State) : Out :=
  writeRow32 a (reg1 .icSrc n.val) v true s

/-- SNAP_NOW_WRITE (R467): a write of 1 to SNAP_NOW. -/
def execSnapNowWrite (a : Acc) (v : W32) (s : State) : Out :=
  writeRow32 a (reg0 .tallySnapCtl) v (v.getLsbD 0) s

/-- TALLY_COUNT_WRITE (R466). -/
def execTallyCountWrite (a : Acc) (i : Fin 64) (v : W64) (s : State) : Out :=
  writeRow a (reg1 .tallyVal i.val) v true s

/-! ### Staging memory -/

/-- SM_BANK_FENCE_WRITE (R317): a write of SM_BANK_CTL. -/
def execSmBankFenceWrite (a : Acc) (b : Fin 16) (v : W32) (s : State) : Out :=
  writeRow32 a (reg1 .smBankCtl b.val) v true s

/-- SM_RETIRE_WRITE (R317): a write of SM_BANK_CTL, for its RETIRE field. -/
def execSmRetireWrite (a : Acc) (b : Fin 16) (v : W32) (s : State) : Out :=
  writeRow32 a (reg1 .smBankCtl b.val) v true s

/-- ITEM_SLOTS_WRITE (R317): a write of SM_BANK_CTL, for its ITEM_SLOTS field. -/
def execItemSlotsWrite (a : Acc) (b : Fin 16) (v : W32) (s : State) : Out :=
  writeRow32 a (reg1 .smBankCtl b.val) v true s

/-- SM_REMAP_WRITE (R318). -/
def execSmRemapWrite (a : Acc) (b : Fin 16) (e : Fin 8) (v : W32) (s : State) : Out :=
  writeRow32 a ⟨.smRemap, b.val, e.val, 0⟩ v true s

/-- SM_FLIP_ARM (R320): a write of 1 to ARM of SM_FLIP_CTL. -/
def execSmFlipArm (a : Acc) (v : W32) (s : State) : Out :=
  writeRow32 a (reg0 .smFlipCtl) v (v.getLsbD 12) s

/-- CH_FLIP_ARM (R102): a write of 1 to ARM of CH_FLIP_CTL. -/
def execChFlipArm (a : Acc) (ch : Fin 48) (v : W32) (s : State) : Out :=
  writeRow32 a (reg1 .chFlipCtl ch.val) v (v.getLsbD 16) s

/-! ### Boot window -/

/-- WIN_EN_RELEASE (R339): a write of WIN_EN = 0 to BOOT_CTL. -/
def execWinEnRelease (a : Acc) (v : W32) (s : State) : Out :=
  writeRow32 a (reg0 .bootCtl) v (!v.getLsbD 0) s

/-- BOOT_RELOAD_WRITE (R339): a write of 1 to RELOAD. -/
def execBootReloadWrite (a : Acc) (v : W32) (s : State) : Out :=
  writeRow32 a (reg0 .bootCtl) v (v.getLsbD 2) s

/-- An access of the boot window at a byte offset. -/
def windowAt (a : Acc) (offset : BitVec 21) (size64 fetch : Bool) : HostAccess :=
  { acc := a, addr := 0x800000#24 + offset.setWidth 24, size64 := size64, write := false, fetch := fetch, data := 0 }

/-- BOOT_WINDOW_READ (R334): a data read of the boot window. -/
def execBootWindowRead (a : Acc) (offset : BitVec 21) (size64 : Bool) (s : State) : Out :=
  .next (hostAccess s (windowAt a offset size64 false))

/-- BOOT_WINDOW_FETCH (R334): an instruction fetch of the boot window. -/
def execBootWindowFetch (a : Acc) (offset : BitVec 21) (size64 : Bool) (s : State) : Out :=
  .next (hostAccess s (windowAt a offset size64 true))

/-! ### Modes, power, clocks -/

/-- MODE_TARGET_READY (R433): a write of TARGET = 0b010. -/
def execModeTargetReady (a : Acc) (v : W32) (s : State) : Out :=
  writeRow32 a (reg0 .modeCtl) v (v.toNat % 8 = 2) s

/-- MODE_TARGET_ACTIVE (R433): a write of TARGET = 0b011. -/
def execModeTargetActive (a : Acc) (v : W32) (s : State) : Out :=
  writeRow32 a (reg0 .modeCtl) v (v.toNat % 8 = 3) s

/-- MODE_TARGET_STANDBY (R433): a write of TARGET = 0b001. -/
def execModeTargetStandby (a : Acc) (v : W32) (s : State) : Out :=
  writeRow32 a (reg0 .modeCtl) v (v.toNat % 8 = 1) s

/-- MODE_TARGET_OFF (R438): a write of TARGET = 0b000. -/
def execModeTargetOff (a : Acc) (v : W32) (s : State) : Out :=
  writeRow32 a (reg0 .modeCtl) v (v.toNat % 8 = 0) s

/-- MODE_TARGET_TEST (R470): a write of TARGET = 0b101. -/
def execModeTargetTest (a : Acc) (v : W32) (s : State) : Out :=
  writeRow32 a (reg0 .modeCtl) v (v.toNat % 8 = 5) s

/-- PWR_REQ_WRITE (R434). -/
def execPwrReqWrite (a : Acc) (v : W32) (s : State) : Out :=
  writeRow32 a (reg0 .pwrReq) v true s

/-- CK_SRC_WRITE (R417): a write of CK_CORE_CTL, for its SRC field. -/
def execCkSrcWrite (a : Acc) (v : W32) (s : State) : Out :=
  writeRow32 a (reg0 .ckCoreCtl) v true s

/-- CK_PLL_WRITE (R418): a write of CK_CORE_CTL, for its MULT and PLL_EN fields. -/
def execCkPllWrite (a : Acc) (v : W32) (s : State) : Out :=
  writeRow32 a (reg0 .ckCoreCtl) v true s

/-! ### Microcode, front-end fences, trims -/

/-- MC_WRITE_EN_WRITE (R357): a write of MC_CTL, for its WRITE_EN field. -/
def execMcWriteEnWrite (a : Acc) (j : Fin 15) (v : W64) (s : State) : Out :=
  writeRow a (reg1 .mcCtl j.val) v true s

/-- MC_PATCH_EN_WRITE (R358): a write of MC_CTL, for its PATCH_EN field. -/
def execMcPatchEnWrite (a : Acc) (j : Fin 15) (v : W64) (s : State) : Out :=
  writeRow a (reg1 .mcCtl j.val) v true s

/-- MC_RESTART_WRITE (R354): a write of 1 to RESTART of MC_ENG. -/
def execMcRestartWrite (a : Acc) (j : Fin 15) (e : Fin 4) (v : W64) (s : State) : Out :=
  writeRow a ⟨.mcEng, j.val, e.val, 0⟩ v (v.getLsbD 8) s

/-- SVC_FE_FENCE_WRITE (R484): a write of SVC_FE_CTL. -/
def execSvcFeFenceWrite (a : Acc) (v : W32) (s : State) : Out :=
  writeRow32 a (reg0 .svcFeCtl) v true s

/-- The register that a trim selection names. -/
def trimName (t : TrimReg) : RegName :=
  match t with
  | .dqRd => .calDqRd
  | .dqWr => .calDqWr
  | .dqs => .calDqs
  | .drv => .calDrv

/-- TRIM_WRITE (R453). -/
def execTrimWrite (a : Acc) (t : TrimSel) (v : W64) (s : State) : Out :=
  writeRow a ⟨trimName t.reg, t.g.val, t.c.val, 0⟩ v true s

/-! ### Accesses by address -/

/-- A data read at an address. -/
def readAt (a : Acc) (addr : BitVec 24) (size64 : Bool) : HostAccess :=
  { acc := a, addr := addr, size64 := size64, write := false, fetch := false, data := 0 }

/-- HALF_READ (R379): a 32-bit data read; of the low half of a 64-bit register it captures the shadow, of the high half it
returns it. -/
def execHalfRead (a : Acc) (addr : BitVec 24) (s : State) : Out :=
  .next (hostAccess s (readAt a addr false))

/-- READ_CLEAR_ACCESS (R7): a data read; RC fields of the register it reads clear. -/
def execReadClearAccess (a : Acc) (addr : BitVec 24) (size64 : Bool) (s : State) : Out :=
  .next (hostAccess s (readAt a addr size64))

/-- REGISTER_WRITE (R7): a write at an address. -/
def execRegisterWrite (a : Acc) (addr : BitVec 24) (size64 : Bool) (v : W64) (s : State) : Out :=
  .next (hostAccess s { acc := a, addr := addr, size64 := size64, write := true, fetch := false, data := v })

/-- ERROR_RESPONSE (R376): an access of any kind, as presented on H_TGT; one that fails the checks is answered with its
error, logged and counted (R385). -/
def execErrorResponse (q : HostAccess) (s : State) : Out :=
  .next (hostAccess s q)

end Sys2Proof.Machine
end

