-- ==== Sys2Proof/Machine/Irq.lean ====
section
/-! DEFINITION. Interrupt sampling and the coalescing time of a ring pair (R47, R457, R458). -/

namespace Sys2Proof.Machine

/-- INTERRUPT_INPUT_CHANGE (R457, R458): source `n` is sampled at a level that its drivers show. -/
def execInterruptInputChange (n : Fin 512) (level : Bool) (s : State) : Out :=
  .next (if domUp s dHk ∧ irqDrive s n.val = level then irqSample s n.val level else s)

/-- COAL_TIME_EXPIRY (R47): COAL_TIME µs have passed since the first receipt written since IRQ_PEND was last cleared. -/
def execCoalTimeExpiry (k : Fin 256) (s : State) : Out :=
  let n := rd s F.irqCoalCoalTime k.val
  match (getRing s k.val).firstAt with
  | some t =>
    if rdB s F.ringCfgIrqEvery k.val ∧ n ≠ 0 ∧ domUp s dHk then
      match lapse s (t + usU * n) with
      | some s1 => .next (flag1 s1 F.ringStatusIrqPend k.val)
      | none => .next s
    else .next s
  | none => .next s

end Sys2Proof.Machine
end

