-- ==== Sys2Proof/Machine/Dispatch.lean ====
section
/-! DEFINITION. The dispatch of a command to its meaning: one arm per constructor of Instr. -/

namespace Sys2Proof.Machine

def exec (i : Instr) (s : State) : Host.Outcome State Fault Refusal :=
  match i with
  | .sqTailDoorbell a k v => Sys2Proof.Machine.execSqTailDoorbell a k v s
  | .rqHeadWrite a k v => Sys2Proof.Machine.execRqHeadWrite a k v s
  | .ringEnable a k v => Sys2Proof.Machine.execRingEnable a k v s
  | .ringDisable a k v => Sys2Proof.Machine.execRingDisable a k v s
  | .ringCfgWrite a k v => Sys2Proof.Machine.execRingCfgWrite a k v s
  | .fetchErrClear a k v => Sys2Proof.Machine.execFetchErrClear a k v s
  | .rcptErrClear a k v => Sys2Proof.Machine.execRcptErrClear a k v s
  | .packetFetchError k => Sys2Proof.Machine.execPacketFetchError k s
  | .routingResume k => Sys2Proof.Machine.execRoutingResume k s
  | .read k p => Sys2Proof.Machine.execRead k p s
  | .readMulti k p => Sys2Proof.Machine.execReadMulti k p s
  | .readRaw k p => Sys2Proof.Machine.execReadRaw k p s
  | .program k p => Sys2Proof.Machine.execProgram k p s
  | .programMulti k p => Sys2Proof.Machine.execProgramMulti k p s
  | .erase k p => Sys2Proof.Machine.execErase k p s
  | .eraseMulti k p => Sys2Proof.Machine.execEraseMulti k p s
  | .copy k p => Sys2Proof.Machine.execCopy k p s
  | .status k p => Sys2Proof.Machine.execStatus k p s
  | .setFeature k p => Sys2Proof.Machine.execSetFeature k p s
  | .getFeature k p => Sys2Proof.Machine.execGetFeature k p s
  | .resetLun k p => Sys2Proof.Machine.execResetLun k p s
  | .sequence k p => Sys2Proof.Machine.execSequence k p s
  | .ledgerSetBudget k p => Sys2Proof.Machine.execLedgerSetBudget k p s
  | .ledgerSetCost k p => Sys2Proof.Machine.execLedgerSetCost k p s
  | .ledgerSetQuiet k p => Sys2Proof.Machine.execLedgerSetQuiet k p s
  | .timeMark k p => Sys2Proof.Machine.execTimeMark k p s
  | .fence k p => Sys2Proof.Machine.execFence k p s
  | .scrubStart k p => Sys2Proof.Machine.execScrubStart k p s
  | .scrubStop k p => Sys2Proof.Machine.execScrubStop k p s
  | .scrubClearPool k p => Sys2Proof.Machine.execScrubClearPool k p s
  | .calibrateRun k p => Sys2Proof.Machine.execCalibrateRun k p s
  | .calibrateRunForced k p => Sys2Proof.Machine.execCalibrateRunForced k p s
  | .calibrateRebase k p => Sys2Proof.Machine.execCalibrateRebase k p s
  | .calibrateApply k p => Sys2Proof.Machine.execCalibrateApply k p s
  | .relocPoolAdd k p => Sys2Proof.Machine.execRelocPoolAdd k p s
  | .bootSwap k p => Sys2Proof.Machine.execBootSwap k p s
  | .channelCtlNone k p => Sys2Proof.Machine.execChannelCtlNone k p s
  | .channelCtlEnable k p => Sys2Proof.Machine.execChannelCtlEnable k p s
  | .channelCtlDisable k p => Sys2Proof.Machine.execChannelCtlDisable k p s
  | .fenceGroup k p => Sys2Proof.Machine.execFenceGroup k p s
  | .unfenceGroup k p => Sys2Proof.Machine.execUnfenceGroup k p s
  | .unhaltLun k p => Sys2Proof.Machine.execUnhaltLun k p s
  | .flushLun k p => Sys2Proof.Machine.execFlushLun k p s
  | .nop k p => Sys2Proof.Machine.execNop k p s
  | .itemBecomesCandidate id => Sys2Proof.Machine.execItemBecomesCandidate id s
  | .itemArm id => Sys2Proof.Machine.execItemArm id s
  | .launchGateOpen ch => Sys2Proof.Machine.execLaunchGateOpen ch s
  | .itemLaunch l => Sys2Proof.Machine.execItemLaunch l s
  | .tickEffect id => Sys2Proof.Machine.execTickEffect id s
  | .ledgerGrant => Sys2Proof.Machine.execLedgerGrant s
  | .slotGrant => Sys2Proof.Machine.execSlotGrant s
  | .pollDue l => Sys2Proof.Machine.execPollDue l s
  | .rbNRise ch line => Sys2Proof.Machine.execRbNRise ch line s
  | .pollComplete ch st => Sys2Proof.Machine.execPollComplete ch st s
  | .dieTimeoutExpiry l => Sys2Proof.Machine.execDieTimeoutExpiry l s
  | .busTenureEnd ch data => Sys2Proof.Machine.execBusTenureEnd ch data s
  | .transferEnd ch data => Sys2Proof.Machine.execTransferEnd ch data s
  | .suspendIssue l => Sys2Proof.Machine.execSuspendIssue l s
  | .resumeIssue l => Sys2Proof.Machine.execResumeIssue l s
  | .decodeHoldExpiry l => Sys2Proof.Machine.execDecodeHoldExpiry l s
  | .decodeJobClaim e => Sys2Proof.Machine.execDecodeJobClaim e s
  | .localDecodeEnd e r => Sys2Proof.Machine.execLocalDecodeEnd e r s
  | .globalDecodeEnd e r => Sys2Proof.Machine.execGlobalDecodeEnd e r s
  | .softDecodeEnd e r => Sys2Proof.Machine.execSoftDecodeEnd e r s
  | .ladderStepBegin id => Sys2Proof.Machine.execLadderStepBegin id s
  | .marginReadLaunch id => Sys2Proof.Machine.execMarginReadLaunch id s
  | .decodeEngineFault e => Sys2Proof.Machine.execDecodeEngineFault e s
  | .engineDrainEnd e => Sys2Proof.Machine.execEngineDrainEnd e s
  | .hostInCommit ch => Sys2Proof.Machine.execHostInCommit ch s
  | .parityPassEnd id => Sys2Proof.Machine.execParityPassEnd id s
  | .hostOutThreshold ch => Sys2Proof.Machine.execHostOutThreshold ch s
  | .dmaMoveComplete d => Sys2Proof.Machine.execDmaMoveComplete d s
  | .ringDescFetchReturn d desc err poison => Sys2Proof.Machine.execRingDescFetchReturn d desc err poison s
  | .descListFetchReturn d es flaw => Sys2Proof.Machine.execDescListFetchReturn d es flaw s
  | .hiReadDataBeat id data poison err last => Sys2Proof.Machine.execHiReadDataBeat id data poison err last s
  | .hiWriteResponse id err => Sys2Proof.Machine.execHiWriteResponse id err s
  | .hiCreditReturn rd wr => Sys2Proof.Machine.execHiCreditReturn rd wr s
  | .dmaChannelDrainEnd d => Sys2Proof.Machine.execDmaChannelDrainEnd d s
  | .channelDrainEnd ch => Sys2Proof.Machine.execChannelDrainEnd ch s
  | .ledgerCutRise => Sys2Proof.Machine.execLedgerCutRise s
  | .ledgerCutFall => Sys2Proof.Machine.execLedgerCutFall s
  | .cutHoldExpiry => Sys2Proof.Machine.execCutHoldExpiry s
  | .forceAltWrite a v => Sys2Proof.Machine.execForceAltWrite a v s
  | .quietWindowStart j => Sys2Proof.Machine.execQuietWindowStart j s
  | .quietWindowEnd j => Sys2Proof.Machine.execQuietWindowEnd j s
  | .ledgerExchangeTick => Sys2Proof.Machine.execLedgerExchangeTick s
  | .pwrWarnRise => Sys2Proof.Machine.execPwrWarnRise s
  | .pwrWarnFall => Sys2Proof.Machine.execPwrWarnFall s
  | .enumFrame h addr nonce count => Sys2Proof.Machine.execEnumFrame h addr nonce count s
  | .presenceFrame h p => Sys2Proof.Machine.execPresenceFrame h p s
  | .allotFrame h exch allot => Sys2Proof.Machine.execAllotFrame h exch allot s
  | .timeReqFrame h => Sys2Proof.Machine.execTimeReqFrame h s
  | .timeRspFrame h t2 t3 offset dist => Sys2Proof.Machine.execTimeRspFrame h t2 t3 offset dist s
  | .stepFrame h step => Sys2Proof.Machine.execStepFrame h step s
  | .bcastFrame h p => Sys2Proof.Machine.execBcastFrame h p s
  | .bcastTickApply n => Sys2Proof.Machine.execBcastTickApply n s
  | .fwdPktFrame h p handle level => Sys2Proof.Machine.execFwdPktFrame h p handle level s
  | .intakeToTeller => Sys2Proof.Machine.execIntakeToTeller s
  | .fwdAckFrame h handle => Sys2Proof.Machine.execFwdAckFrame h handle s
  | .fwdRcptFrame h handle rcpt => Sys2Proof.Machine.execFwdRcptFrame h handle rcpt s
  | .rcptAckFrame h handle => Sys2Proof.Machine.execRcptAckFrame h handle s
  | .fwdRetransmitExpiry handle => Sys2Proof.Machine.execFwdRetransmitExpiry handle s
  | .presenceSendTick => Sys2Proof.Machine.execPresenceSendTick s
  | .timeExchangeTick => Sys2Proof.Machine.execTimeExchangeTick s
  | .masterLost => Sys2Proof.Machine.execMasterLost s
  | .laneDown fall => Sys2Proof.Machine.execLaneDown fall s
  | .laneUp lane => Sys2Proof.Machine.execLaneUp lane s
  | .healHoldExpiry => Sys2Proof.Machine.execHealHoldExpiry s
  | .handoverRequest a v => Sys2Proof.Machine.execHandoverRequest a v s
  | .handoverInvert => Sys2Proof.Machine.execHandoverInvert s
  | .frontEndUp half => Sys2Proof.Machine.execFrontEndUp half s
  | .frontEndStop half cause => Sys2Proof.Machine.execFrontEndStop half cause s
  | .tbSetWrite a v => Sys2Proof.Machine.execTbSetWrite a v s
  | .randKeyWrite a v => Sys2Proof.Machine.execRandKeyWrite a v s
  | .ringStartWrite a v => Sys2Proof.Machine.execRingStartWrite a v s
  | .reenumWrite a v => Sys2Proof.Machine.execReenumWrite a v s
  | .ringPortEnable a v => Sys2Proof.Machine.execRingPortEnable a v s
  | .initWrite a g v => Sys2Proof.Machine.execInitWrite a g v s
  | .bringupStepEnd g r => Sys2Proof.Machine.execBringupStepEnd g r s
  | .inertWrite a g v => Sys2Proof.Machine.execInertWrite a g v s
  | .chEnableWrite a ch v => Sys2Proof.Machine.execChEnableWrite a ch v s
  | .chDisableWrite a ch v => Sys2Proof.Machine.execChDisableWrite a ch v s
  | .cgFenceWrite a g v => Sys2Proof.Machine.execCgFenceWrite a g v s
  | .deCtlWrite a e v => Sys2Proof.Machine.execDeCtlWrite a e v s
  | .poolFenceWrite a v => Sys2Proof.Machine.execPoolFenceWrite a v s
  | .dcEnableWrite a d v => Sys2Proof.Machine.execDcEnableWrite a d v s
  | .dcDisableWrite a d v => Sys2Proof.Machine.execDcDisableWrite a d v s
  | .dcKickWrite a d v => Sys2Proof.Machine.execDcKickWrite a d v s
  | .fifoFlushWrite a ch v => Sys2Proof.Machine.execFifoFlushWrite a ch v s
  | .fifoDbgEnableWrite a ch v => Sys2Proof.Machine.execFifoDbgEnableWrite a ch v s
  | .fifoDbgPop a ch f size64 => Sys2Proof.Machine.execFifoDbgPop a ch f size64 s
  | .icClaimRead a t => Sys2Proof.Machine.execIcClaimRead a t s
  | .icCompleteWrite a t v => Sys2Proof.Machine.execIcCompleteWrite a t v s
  | .icForceWrite a n v => Sys2Proof.Machine.execIcForceWrite a n v s
  | .icSenseWrite a n v => Sys2Proof.Machine.execIcSenseWrite a n v s
  | .interruptInputChange n level => Sys2Proof.Machine.execInterruptInputChange n level s
  | .coalTimeExpiry k => Sys2Proof.Machine.execCoalTimeExpiry k s
  | .snapNowWrite a v => Sys2Proof.Machine.execSnapNowWrite a v s
  | .tallyCountWrite a n v => Sys2Proof.Machine.execTallyCountWrite a n v s
  | .smBankFenceWrite a b v => Sys2Proof.Machine.execSmBankFenceWrite a b v s
  | .smRetireWrite a b v => Sys2Proof.Machine.execSmRetireWrite a b v s
  | .itemSlotsWrite a b v => Sys2Proof.Machine.execItemSlotsWrite a b v s
  | .smRemapWrite a b e v => Sys2Proof.Machine.execSmRemapWrite a b e v s
  | .smFlipArm a v => Sys2Proof.Machine.execSmFlipArm a v s
  | .chFlipArm a ch v => Sys2Proof.Machine.execChFlipArm a ch v s
  | .winEnRelease a v => Sys2Proof.Machine.execWinEnRelease a v s
  | .bootReloadWrite a v => Sys2Proof.Machine.execBootReloadWrite a v s
  | .bootWindowRead a offset size64 => Sys2Proof.Machine.execBootWindowRead a offset size64 s
  | .bootWindowFetch a offset size64 => Sys2Proof.Machine.execBootWindowFetch a offset size64 s
  | .bootLoadStart => Sys2Proof.Machine.execBootLoadStart s
  | .bootLoadEnd r => Sys2Proof.Machine.execBootLoadEnd r s
  | .modeTargetReady a v => Sys2Proof.Machine.execModeTargetReady a v s
  | .modeTargetActive a v => Sys2Proof.Machine.execModeTargetActive a v s
  | .modeTargetStandby a v => Sys2Proof.Machine.execModeTargetStandby a v s
  | .modeTargetOff a v => Sys2Proof.Machine.execModeTargetOff a v s
  | .modeTargetTest a v => Sys2Proof.Machine.execModeTargetTest a v s
  | .pwrReqWrite a v => Sys2Proof.Machine.execPwrReqWrite a v s
  | .ckSrcWrite a v => Sys2Proof.Machine.execCkSrcWrite a v s
  | .clockSwitchDone => Sys2Proof.Machine.execClockSwitchDone s
  | .ckPllWrite a v => Sys2Proof.Machine.execCkPllWrite a v s
  | .clockSourceReady src => Sys2Proof.Machine.execClockSourceReady src s
  | .corePllLockTimeout => Sys2Proof.Machine.execCorePllLockTimeout s
  | .coreClockTrip => Sys2Proof.Machine.execCoreClockTrip s
  | .phyPllTrip g => Sys2Proof.Machine.execPhyPllTrip g s
  | .poresetAssert => Sys2Proof.Machine.execPoresetAssert s
  | .poresetRelease => Sys2Proof.Machine.execPoresetRelease s
  | .sysresetAssert => Sys2Proof.Machine.execSysresetAssert s
  | .sysresetRelease => Sys2Proof.Machine.execSysresetRelease s
  | .supplyOkRise j => Sys2Proof.Machine.execSupplyOkRise j s
  | .supplyOkFall j => Sys2Proof.Machine.execSupplyOkFall j s
  | .vddqLoss g => Sys2Proof.Machine.execVddqLoss g s
  | .pswAckRise n => Sys2Proof.Machine.execPswAckRise n s
  | .pswAckUnplannedFall n => Sys2Proof.Machine.execPswAckUnplannedFall n s
  | .pswHandshakeTimeout n => Sys2Proof.Machine.execPswHandshakeTimeout n s
  | .strapChange => Sys2Proof.Machine.execStrapChange s
  | .patchRamClearEnd j => Sys2Proof.Machine.execPatchRamClearEnd j s
  | .mcWriteEnWrite a j v => Sys2Proof.Machine.execMcWriteEnWrite a j v s
  | .mcPatchEnWrite a j v => Sys2Proof.Machine.execMcPatchEnWrite a j v s
  | .mcRestartWrite a j n v => Sys2Proof.Machine.execMcRestartWrite a j n v s
  | .machineCheck j n cause par => Sys2Proof.Machine.execMachineCheck j n cause par s
  | .microTrapEntry j n => Sys2Proof.Machine.execMicroTrapEntry j n s
  | .trapReturn j n => Sys2Proof.Machine.execTrapReturn j n s
  | .routineEnd ch => Sys2Proof.Machine.execRoutineEnd ch s
  | .routineTimeout ch => Sys2Proof.Machine.execRoutineTimeout ch s
  | .svcFeFenceWrite a v => Sys2Proof.Machine.execSvcFeFenceWrite a v s
  | .trimWrite a t v => Sys2Proof.Machine.execTrimWrite a t v s
  | .tempUpdate g t => Sys2Proof.Machine.execTempUpdate g t s
  | .calRetryExpiry g => Sys2Proof.Machine.execCalRetryExpiry g s
  | .calForcingTimeout g => Sys2Proof.Machine.execCalForcingTimeout g s
  | .calBoundary g => Sys2Proof.Machine.execCalBoundary g s
  | .calRunEnd g r => Sys2Proof.Machine.execCalRunEnd g r s
  | .patrolReadLaunch => Sys2Proof.Machine.execPatrolReadLaunch s
  | .relocationStart id => Sys2Proof.Machine.execRelocationStart id s
  | .relocReceiptWrite => Sys2Proof.Machine.execRelocReceiptWrite s
  | .sramScrubVisit => Sys2Proof.Machine.execSramScrubVisit s
  | .bistStepEnd r => Sys2Proof.Machine.execBistStepEnd r s
  | .bistBudgetExpiry => Sys2Proof.Machine.execBistBudgetExpiry s
  | .wsBypass => Sys2Proof.Machine.execWsBypass s
  | .wsExtest => Sys2Proof.Machine.execWsExtest s
  | .scanSlice slice => Sys2Proof.Machine.execScanSlice slice s
  | .resultRead => Sys2Proof.Machine.execResultRead s
  | .lcRead => Sys2Proof.Machine.execLcRead s
  | .halfRead a addr => Sys2Proof.Machine.execHalfRead a addr s
  | .readClearAccess a addr size64 => Sys2Proof.Machine.execReadClearAccess a addr size64 s
  | .registerWrite a addr size64 v => Sys2Proof.Machine.execRegisterWrite a addr size64 v s
  | .errorResponse q => Sys2Proof.Machine.execErrorResponse q s
  | .scanShift scanEn scanIn => Sys2Proof.Machine.execScanShift scanEn scanIn s

end Sys2Proof.Machine
end

