-- ==== Sys2Proof/WellFormed.lean ====
section
/-! DEFINITION. Well-formedness of commands: what a command's operands must satisfy for it to be a command of its row, as
far as the operands alone decide it. The types of Sys2Proof.Instr bound the rest. A command that is not well formed
faults (Sys2Proof.Machine.Fault.illFormed). -/

namespace Sys2Proof

/-- Byte 8 of a packet: the target or the action of an opcode that has one (R57). -/
def Packet.selector (p : Packet) : Nat := p.row.toNat % 256

/-- The packet has opcode `n` (R57). -/
def Packet.has (p : Packet) (n : Nat) : Bool := p.opcode.toNat = n

/-- An opcode that is not in the table of R57; its packets come under the row of NOP. -/
def Packet.unknown (p : Packet) : Bool := !((1 ≤ p.opcode.toNat && p.opcode.toNat ≤ 0x0d) || (0x10 ≤ p.opcode.toNat && p.opcode.toNat ≤ 0x18))

/-- The 3-bit TARGET of a value for MODE_CTL is `n` (R433). -/
def targetIs (v : W32) (n : Nat) : Bool := v.toNat % 8 = n

/-- Trims carry only the bits that their registers have (R442). -/
def Trims.fits (t : Trims) : Bool := t.dqs >>> 16 = 0 && t.drv &&& 0xffffffff80c0c0c0#64 = 0

/-- A block of the twin brings 32 header bytes, and whole lines of an image that fits SB15 (R330). -/
def BootBlock.fits (b : BootBlock) : Bool :=
  b.header.all (fun h => h.length = 32) && b.image.length % 64 = 0 && b.image.length ≤ 2097152

def BootLoadResult.fits (r : BootLoadResult) : Bool := r.block0.fits && r.block1.fits

/-- Engines of a microcode store (R341). -/
def enginesOf (j : Fin 15) : Nat := if j.val = 12 ∨ j.val = 13 then 2 else 4

/-- The operands of a command form a command of its row. (DESIGN CHOICE, log entry 7.) (DEDUCED, log entry 40.) -/
def Instr.wellFormed (i : Instr) : Bool :=
  match i with
  | .ringEnable _ _ v | .chEnableWrite _ _ v | .dcEnableWrite _ _ v | .snapNowWrite _ v => v.getLsbD 0
  | .ringDisable _ _ v | .chDisableWrite _ _ v | .dcDisableWrite _ _ v | .winEnRelease _ v => !v.getLsbD 0
  | .fetchErrClear _ _ v => v.getLsbD 3
  | .rcptErrClear _ _ v => v.getLsbD 4
  | .handoverRequest _ v | .reenumWrite _ v => v.getLsbD 1
  | .ringStartWrite _ v => v.getLsbD 33
  | .initWrite _ _ v => v.getLsbD 48
  | .inertWrite _ _ v => v.getLsbD 53
  | .fifoFlushWrite _ _ v => (v >>> 8).toNat % 16 ≠ 0
  | .icForceWrite _ _ v => v.getLsbD 19
  | .smFlipArm _ v => v.getLsbD 12
  | .chFlipArm _ _ v => v.getLsbD 16
  | .bootReloadWrite _ v => v.getLsbD 2
  | .mcRestartWrite _ _ _ v => v.getLsbD 8
  | .modeTargetReady _ v => targetIs v 2
  | .modeTargetActive _ v => targetIs v 3
  | .modeTargetStandby _ v => targetIs v 1
  | .modeTargetOff _ v => targetIs v 0
  | .modeTargetTest _ v => targetIs v 5
  | .read _ p => p.has 0x01
  | .readMulti _ p => p.has 0x02
  | .readRaw _ p => p.has 0x03
  | .program _ p => p.has 0x04
  | .programMulti _ p => p.has 0x05
  | .erase _ p => p.has 0x06
  | .eraseMulti _ p => p.has 0x07
  | .copy _ p => p.has 0x08
  | .status _ p => p.has 0x09
  | .setFeature _ p => p.has 0x0a
  | .getFeature _ p => p.has 0x0b
  | .resetLun _ p => p.has 0x0c
  | .sequence _ p => p.has 0x0d
  | .ledgerSetBudget _ p => p.has 0x10 && p.selector ≠ 4 && p.selector ≠ 5
  | .ledgerSetCost _ p => p.has 0x10 && p.selector = 4
  | .ledgerSetQuiet _ p => p.has 0x10 && p.selector = 5
  | .timeMark _ p => p.has 0x11
  | .fence _ p => p.has 0x12
  | .scrubStart _ p => p.has 0x13 && p.selector = 1
  | .scrubStop _ p => p.has 0x13 && p.selector ≠ 1 && p.selector ≠ 2
  | .scrubClearPool _ p => p.has 0x13 && p.selector = 2
  | .calibrateRun _ p => p.has 0x14 && p.selector = 0
  | .calibrateRunForced _ p => p.has 0x14 && p.selector = 1
  | .calibrateRebase _ p => p.has 0x14 && p.selector = 2
  | .calibrateApply _ p => p.has 0x14 && 3 ≤ p.selector
  | .relocPoolAdd _ p => p.has 0x15
  | .bootSwap _ p => p.has 0x16
  | .channelCtlNone _ p => p.has 0x17 && (p.selector = 0 || 6 < p.selector)
  | .channelCtlEnable _ p => p.has 0x17 && p.selector = 1
  | .channelCtlDisable _ p => p.has 0x17 && p.selector = 2
  | .fenceGroup _ p => p.has 0x17 && p.selector = 3
  | .unfenceGroup _ p => p.has 0x17 && p.selector = 4
  | .unhaltLun _ p => p.has 0x17 && p.selector = 5
  | .flushLun _ p => p.has 0x17 && p.selector = 6
  | .nop _ p => p.has 0x18 || p.unknown
  | .ringDescFetchReturn _ desc _ _ => desc.length = 32
  | .hiReadDataBeat _ data _ _ _ => data.length = 128
  | .presenceFrame _ p => p.slots.length = 16
  | .allotFrame _ _ allot => allot.length = 16
  | .fwdRcptFrame _ _ rcpt => rcpt.length = 32
  | .bringupStepEnd _ r => r.trims.fits && r.ppage.length ≤ 256
  | .calRunEnd _ r => r.length = 4 && r.all Trims.fits
  | .bootLoadEnd r => r.fits
  | .bistStepEnd r => r.banks.length ≤ 16 && r.rows.length ≤ 128
  | .machineCheck j s cause par => s.val < enginesOf j && 1 ≤ cause.val && cause.val ≤ 5 && (2 < cause.val || par ≠ 0)
  | .sqTailDoorbell _ _ _ | .rqHeadWrite _ _ _ | .ringCfgWrite _ _ _ | .packetFetchError _ | .routingResume _
  | .itemBecomesCandidate _ | .itemArm _ | .launchGateOpen _ | .itemLaunch _ | .tickEffect _ | .ledgerGrant
  | .slotGrant | .pollDue _ | .rbNRise _ _ | .pollComplete _ _ | .dieTimeoutExpiry _ | .busTenureEnd _ _
  | .transferEnd _ _ | .suspendIssue _ | .resumeIssue _ | .decodeHoldExpiry _ | .decodeJobClaim _
  | .localDecodeEnd _ _ | .globalDecodeEnd _ _ | .softDecodeEnd _ _ | .ladderStepBegin _ | .marginReadLaunch _
  | .decodeEngineFault _ | .engineDrainEnd _ | .hostInCommit _ | .parityPassEnd _ | .hostOutThreshold _
  | .dmaMoveComplete _ | .descListFetchReturn _ _ _ | .hiWriteResponse _ _ | .hiCreditReturn _ _
  | .dmaChannelDrainEnd _ | .channelDrainEnd _ | .ledgerCutRise | .ledgerCutFall | .cutHoldExpiry
  | .forceAltWrite _ _ | .quietWindowStart _ | .quietWindowEnd _ | .ledgerExchangeTick | .pwrWarnRise | .pwrWarnFall
  | .enumFrame _ _ _ _ | .timeReqFrame _ | .timeRspFrame _ _ _ _ _ | .stepFrame _ _ | .bcastFrame _ _
  | .bcastTickApply _ | .fwdPktFrame _ _ _ _ | .intakeToTeller | .fwdAckFrame _ _ | .rcptAckFrame _ _
  | .fwdRetransmitExpiry _ | .presenceSendTick | .timeExchangeTick | .masterLost | .laneDown _ | .laneUp _
  | .healHoldExpiry | .handoverInvert | .frontEndUp _ | .frontEndStop _ _ | .tbSetWrite _ _ | .randKeyWrite _ _
  | .ringPortEnable _ _ | .cgFenceWrite _ _ _ | .deCtlWrite _ _ _ | .poolFenceWrite _ _ | .dcKickWrite _ _ _
  | .fifoDbgEnableWrite _ _ _ | .fifoDbgPop _ _ _ _ | .icClaimRead _ _ | .icCompleteWrite _ _ _
  | .icSenseWrite _ _ _ | .interruptInputChange _ _ | .coalTimeExpiry _ | .tallyCountWrite _ _ _
  | .smBankFenceWrite _ _ _ | .smRetireWrite _ _ _ | .itemSlotsWrite _ _ _ | .smRemapWrite _ _ _ _
  | .bootWindowRead _ _ _ | .bootWindowFetch _ _ _ | .bootLoadStart | .pwrReqWrite _ _ | .ckSrcWrite _ _
  | .clockSwitchDone | .ckPllWrite _ _ | .clockSourceReady _ | .corePllLockTimeout | .coreClockTrip | .phyPllTrip _
  | .poresetAssert | .poresetRelease | .sysresetAssert | .sysresetRelease | .supplyOkRise _ | .supplyOkFall _
  | .vddqLoss _ | .pswAckRise _ | .pswAckUnplannedFall _ | .pswHandshakeTimeout _ | .strapChange
  | .patchRamClearEnd _ | .mcWriteEnWrite _ _ _ | .mcPatchEnWrite _ _ _ | .microTrapEntry _ _ | .trapReturn _ _
  | .routineEnd _ | .routineTimeout _ | .svcFeFenceWrite _ _ | .trimWrite _ _ _ | .tempUpdate _ _
  | .calRetryExpiry _ | .calForcingTimeout _ | .calBoundary _ | .patrolReadLaunch | .relocationStart _
  | .relocReceiptWrite | .sramScrubVisit | .bistBudgetExpiry | .wsBypass | .wsExtest | .scanSlice _ | .resultRead
  | .lcRead | .halfRead _ _ | .readClearAccess _ _ _ | .registerWrite _ _ _ _ | .errorResponse _ | .scanShift _ _ => true

end Sys2Proof
end

