-- ==== Sys2Proof/Safety.lean ====
section
/-! DEFINITION. What the claims speak of: the invariant that every step keeps, and when an access on H_TGT is taken. -/

namespace Sys2Proof.Machine

/-! ### The invariant -/

/-- The IDs of the reads of H_INI whose last beat has not arrived. -/
def HiSt.openIds (x : HiSt) : List Nat := (x.reads.filter (fun r => !r.done)).map (fun r => r.id)

/-- The staging bytes are in canonical form; the time base has 80 bits (R229); neither kind of H_INI credit exceeds 255
(R370); no two outstanding reads of H_INI share an ID (R369); PSW_EN[0] is high (R404). -/
structure Sound (m : Memory) (tb : Nat) (hi : HiSt) (en : BitVec 20) : Prop where
  mem : m.wf = true
  time : tb < 2 ^ 80
  rdCred : hi.rdCred ≤ 255
  wrCred : hi.wrCred ≤ 255
  ids : hi.openIds.Nodup
  aon : en.getLsbD 0 = true

/-- The invariant of the block. -/
def Inv (s : State) : Prop := Sound s.staging.mem s.tb s.hi s.power.pswEn

/-! ### Accesses on H_TGT -/

/-- The access is taken, meets no error, does not lie in the boot window, and waits for no handover and behind no access that is
held (R24, R34, R376–R378, R381). -/
structure Passes (s : State) (q : HostAccess) : Prop where
  taken : portTakes s = true
  ok : accessErr s q = false
  outside : inWindow q.addr = false
  may : ∀ t ∈ touched q, ringMay s q t.1 = true
  free : ∀ t ∈ touched q, waitsOwner s t.1 = false
  first : behind s s.host.held q = false

/-- The access passes, and the owner's front end does not stop before a write is applied (R28). -/
structure Takes (s : State) (q : HostAccess) : Prop extends Passes s q where
  stays : q.write = true → ownerStopsNext (answer s q .fresh rOkay) = false

/-- An access was answered with error code `e` and did nothing else: one more response, with data 0, the log of HP_TGT_ERR
with its first error since VALID was cleared, and its count (R376, R385). -/
structure ErrorAnswered (s t : State) (q : HostAccess) (e : Nat) : Prop where
  frame : t = { s with regs := t.regs, host := { s.host with rsp := s.host.rsp ++ [some ⟨e, 0, false, q.write⟩] } }
  others : ∀ n i j k, ¬(n = .hpTgtErr ∧ i = 0 ∧ j = 0 ∧ k = 0) → getR t n i j k = getR s n i j k
  first : rdB s F.hpTgtErrValid = false →
    rdB t F.hpTgtErrValid = true ∧ rd t F.hpTgtErrAddr = q.addr.toNat ∧ rd t F.hpTgtErrCode = e
    ∧ rd t F.hpTgtErrWrite = bit q.write ∧ rd t F.hpTgtErrFetch = bit q.fetch ∧ rd t F.hpTgtErrRing = q.acc.ring.toNat
    ∧ rd t F.hpTgtErrSize64 = bit q.size64 ∧ rd t F.hpTgtErrRid = q.acc.rid.toNat
  later : rdB s F.hpTgtErrValid = true →
    ∀ f ∈ [F.hpTgtErrValid, F.hpTgtErrAddr, F.hpTgtErrCode, F.hpTgtErrWrite, F.hpTgtErrFetch, F.hpTgtErrRing,
      F.hpTgtErrSize64, F.hpTgtErrRid], rd t f = rd s f
  count : rd t F.hpTgtErrCount = min 65535 (rd s F.hpTgtErrCount + 1)

/-- A write of `v` to the whole of a register, and the state once it has been answered OKAY (R381). -/
def whole (r : Reg) (v : W64) : RegWrite := { reg := r, val := v, mask := if r.name.row.wide then ~~~0 else 0xffffffff#64 }
def answered (s : State) (a : Acc) (r : Reg) (v : W64) : State := answer s (accessOf a r true v) .fresh rOkay

/-- What a write does once it has been answered: a shared region is written by the owner half, every other register by its
own front end or the always-on responder (R19, R362). -/
def written (a : Acc) (s : State) (w : RegWrite) : State :=
  if inShared (regAddr w.reg) then sharedWrite s w else localWrite s w a.ring.toNat

/-- The register that a row writes whole, with the value: the rows of register writes with one register each. -/
def rowWrite (c : Instr) : Option (Acc × Reg × W64) :=
  match c with
  | .sqTailDoorbell a k v => some (a, reg1 .sqTail k.val, v.setWidth 64)
  | .rqHeadWrite a k v => some (a, reg1 .rqHead k.val, v.setWidth 64)
  | .ringEnable a k v | .ringDisable a k v | .ringCfgWrite a k v => some (a, reg1 .ringCfg k.val, v.setWidth 64)
  | .fetchErrClear a k v | .rcptErrClear a k v => some (a, reg1 .ringStatus k.val, v.setWidth 64)
  | .forceAltWrite a v => some (a, reg0 .lgCtl, v.setWidth 64)
  | .handoverRequest a v => some (a, reg0 .ownerCtl, v.setWidth 64)
  | .tbSetWrite a v => some (a, reg0 .tbSet, v)
  | .randKeyWrite a v => some (a, reg0 .randKey, v.setWidth 64)
  | .ringStartWrite a v => some (a, reg0 .lgRingCtl, v)
  | .reenumWrite a v | .ringPortEnable a v => some (a, reg0 .xrCtl, v.setWidth 64)
  | .initWrite a g v | .inertWrite a g v => some (a, reg1 .cgPhy (4 * g.val), v)
  | .chEnableWrite a ch v | .chDisableWrite a ch v => some (a, reg1 .chCtl ch.val, v.setWidth 64)
  | .cgFenceWrite a g v => some (a, reg1 .cgFence (4 * g.val), v.setWidth 64)
  | .deCtlWrite a e v => some (a, reg1 .deCtl e.val, v.setWidth 64)
  | .poolFenceWrite a v => some (a, reg0 .decCtl, v.setWidth 64)
  | .dcEnableWrite a d v | .dcDisableWrite a d v => some (a, reg1 .dcCtl d.val, v.setWidth 64)
  | .dcKickWrite a d v => some (a, reg1 .dcKick d.val, v.setWidth 64)
  | .fifoFlushWrite a ch v | .fifoDbgEnableWrite a ch v => some (a, reg1 .chFifoCtl ch.val, v.setWidth 64)
  | .icCompleteWrite a t v => some (a, reg1 .icComplete t.val, v.setWidth 64)
  | .icForceWrite a n v | .icSenseWrite a n v => some (a, reg1 .icSrc n.val, v.setWidth 64)
  | .snapNowWrite a v => some (a, reg0 .tallySnapCtl, v.setWidth 64)
  | .tallyCountWrite a i v => some (a, reg1 .tallyVal i.val, v)
  | .smBankFenceWrite a b v | .smRetireWrite a b v | .itemSlotsWrite a b v => some (a, reg1 .smBankCtl b.val, v.setWidth 64)
  | .smRemapWrite a b e v => some (a, ⟨.smRemap, b.val, e.val, 0⟩, v.setWidth 64)
  | .smFlipArm a v => some (a, reg0 .smFlipCtl, v.setWidth 64)
  | .chFlipArm a ch v => some (a, reg1 .chFlipCtl ch.val, v.setWidth 64)
  | .winEnRelease a v | .bootReloadWrite a v => some (a, reg0 .bootCtl, v.setWidth 64)
  | .modeTargetReady a v | .modeTargetActive a v | .modeTargetStandby a v | .modeTargetOff a v
  | .modeTargetTest a v => some (a, reg0 .modeCtl, v.setWidth 64)
  | .pwrReqWrite a v => some (a, reg0 .pwrReq, v.setWidth 64)
  | .ckSrcWrite a v | .ckPllWrite a v => some (a, reg0 .ckCoreCtl, v.setWidth 64)
  | .mcWriteEnWrite a j v | .mcPatchEnWrite a j v => some (a, reg1 .mcCtl j.val, v)
  | .mcRestartWrite a j e v => some (a, ⟨.mcEng, j.val, e.val, 0⟩, v)
  | .svcFeFenceWrite a v => some (a, reg0 .svcFeCtl, v.setWidth 64)
  | .trimWrite a t v => some (a, ⟨trimName t.reg, t.g.val, t.c.val, 0⟩, v)
  | _ => none

/-! ### Packets -/

/-- The pair and the packet of a row that carries a packet. -/
def packetOf (c : Instr) : Option (Fin 256 × Packet) :=
  match c with
  | .read k p | .readMulti k p | .readRaw k p | .program k p | .programMulti k p | .erase k p | .eraseMulti k p
  | .copy k p | .status k p | .setFeature k p | .getFeature k p | .resetLun k p | .sequence k p
  | .ledgerSetBudget k p | .ledgerSetCost k p | .ledgerSetQuiet k p | .timeMark k p | .fence k p | .scrubStart k p
  | .scrubStop k p | .scrubClearPool k p | .calibrateRun k p | .calibrateRunForced k p | .calibrateRebase k p
  | .calibrateApply k p | .relocPoolAdd k p | .bootSwap k p | .channelCtlNone k p | .channelCtlEnable k p
  | .channelCtlDisable k p | .fenceGroup k p | .unfenceGroup k p | .unhaltLun k p | .flushLun k p
  | .nop k p => some (k, p)
  | _ => none

/-- The packet at SQ_HEAD of a pair has arrived, and waits with its teller (R44). -/
def arrived (s : State) (k : Nat) (p : Packet) : State :=
  updRing ((takeFetch s k).getD s) k (fun r => { r with wait := some p })

/-- The item that the teller makes of the waiting packet (R41). -/
def newItem (s : State) (k : Nat) (p : Packet) : Item :=
  mkItem (arrived s k p) (.host k) (ringLevel (arrived s k p) k) (tellerOf (arrived s k p) k) p

/-- SQ_HEAD has passed the packet, and its item exists (R41, R73). -/
def routed (s : State) (k : Nat) (p : Packet) : State :=
  let x := arrived s k p
  let t := tellerOf x k
  let y := wr1 (addItem x (newItem s k p)) F.sqHeadHead k ((sqHead x k + 1) % sqSize x k)
  let z := updRing y k (fun r => { r with wait := none, fenceAfter := if p.fenceAfter then some (newItem s k p).id else none })
  tally { z with served := Tab.set z.served t k } (3 + t)

/-- A packet that was being fetched is routed as soon as it arrives, to this unit, and passes every check (R42, R63,
R72, R77). -/
structure Routes (s : State) (k : Nat) (p : Packet) : Prop where
  fetched : (takeFetch s k).isSome = true
  turn : nextPair (arrived s k p) (tellerOf (arrived s k p) k) = some k
  here : p.forward = true → p.unit.toNat = hereAddr (routed s k p)
  checks : firstCheck (routed s k p) (hereAddr (routed s k p)) (newItem s k p).level p = none

/-- The store of the item's sequencer takes it: its group is powered, its channel enabled, the store has room, and an item
that moves host data has a DMA channel (R79, R171, R287). -/
structure StoreTakes (s : State) (it : Item) : Prop where
  moves : opMoves it.pkt.op = true → eligibleDma s it ≠ []
  up : domUp s (dCg (it.lun.ch / 4)) = true
  enabled : chEnabled s it.lun.ch = true
  room : storeRoom s it = true

/-! ### Frames of the Xaram ring -/

/-- A frame reaches HK3: its lane has block lock, it is a frame of HK3's, its check block is right and it names its lane, the
port is enabled and not in PASS, and HK3 runs (R240, R241, R243, R247, R352). -/
structure Hears (s : State) (h : FrameHdr) (body : TxFrame) : Prop where
  up : domUp s dHk = true
  port : xrState s ≠ 0 ∧ xrState (frameSeen s h.lane.val) ≠ 4
  lane : locked s h.lane.val = true
  type : h.ctl = none
  good : frameOk h body = true
  sender : h.named = h.lane
  runs : engRunning (frameSeen s h.lane.val) 14 3 = true

/-- An addressed frame that has arrived ends at this unit: it names the unit, and lies on lane 0, or the ring is not folded
(R243, R251). -/
structure EndsHere (s : State) (h : FrameHdr) : Prop where
  dst : h.dst.toNat = hereAddr (frameSeen s h.lane.val)
  lane : h.lane = 0 ∨ folded (frameSeen s h.lane.val) = false

end Sys2Proof.Machine
end

