-- ==== Sys2Proof/Certificates/Slice0/Obligations.lean ====
section
/-! DEFINITION. The statements for the provers. Where a statement speaks of an access on H_TGT, Takes (Sys2Proof.Safety)
says that the access meets no error and waits for nothing, and answered is the state with its response given. -/

section

open Sys2Proof Sys2Proof.Machine

/-- With command c at the front of the queue, a step is exec of c on the state with the queue's rest. (The queue and
the step are the model's frame for the commands of the table, log entry 1.) -/
def Obligations.StepRunsFrontCommand : Prop :=
  ∀ (c : Instr) (r : List Instr) (s : State), step { s with pending := c :: r } = exec c { s with pending := r }

/-- With no command waiting, a step is one AON edge while PD_AON works: the time base takes the value written to
TB_SET if there is one, else it adds TB_INC, plus the correction of HK3 on a unit in RUNNING that is not master,
modulo 2^80 units of 2^-16 ns, the fine time base equals it, and no written value is left. What waits for the edge
then goes on (HK0 counts the cycle, the ring sends what waits and watches its lanes, WP_N levels and holds of a
group's buses that were to wait for it, the power queue, the transition in progress), and last the accesses that
waited. While PORESET_N is asserted or the unit is in retention a step changes nothing. (That the empty queue is an
AON cycle is the model's choice, log entry 3.) -/
def Obligations.EmptyQueueIsAonTick : Prop :=
  ∀ s : State, s.pending = [] →
    ((s.power.poreset = true ∨ s.power.retention = true) → step s = .next s)
    ∧ (s.power.poreset = false → s.power.retention = false →
        step s = .next (drainHeld (modeProgress (powerNext (settleTick (wpTick (ringTick (tallyCycles (takeSet s)))))))))
    ∧ (isMaster s = true ∨ xrState s ≠ 3 → (aonTick s).tb = (s.tbNext.getD (s.tb + rd s F.tbIncInc)) % 2 ^ 80)
    ∧ (isMaster s = false → xrState s = 3 →
        (aonTick s).tb = (s.tbNext.getD (s.tb + ((rd s F.tbIncInc : Int) + s.ring.corr).toNat)) % 2 ^ 80)
    ∧ (aonTick s).fine = (aonTick s).tb ∧ (aonTick s).tbNext = none
    ∧ (s.tbNext = none → takeSet s = aonTick s)

/-- State.reset meets the invariant: staging bytes in canonical form, a time base of 80 bits, no more than 255 credits
of either kind, no two outstanding reads with one ID, and PSW_EN[0] high. It is the block with PORESET_N asserted:
mode OFF, EPM_GEOM 0x4428_3430, OWNER_CTL 0, the time base 0, no item and no command waiting. -/
def Obligations.InvariantAtReset : Prop :=
  Inv State.reset ∧ State.reset.power.mode = .off ∧ State.reset.power.poreset = true
    ∧ getR State.reset .epmGeom = 0x44283430#64 ∧ getR State.reset .ownerCtl = 0 ∧ State.reset.tb = 0
    ∧ State.reset.items = [] ∧ State.reset.pending = []

/-- From every state that meets the invariant, whatever command is at the front of the queue or none, a step that
answers a next state answers one that meets it: the staging bytes stay in canonical form, the time base stays below
2^80 units, neither kind of H_INI credits exceeds 255, no two outstanding H_INI reads share an ID, and the block never
lowers PSW_EN[0]. -/
def Obligations.StepKeepsInvariant : Prop :=
  ∀ s t : State, Inv s → step s = .next t → Inv t

/-- From a state that meets the invariant, the next state of any command has the same queue of waiting commands, so a
step only takes the command at the front. (The queue is the model's, log entry 1.) -/
def Obligations.CommandsLeaveTheQueue : Prop :=
  ∀ (c : Instr) (s t : State), Inv s → exec c s = .next t → t.pending = s.pending

/-- No command of the table is refused in any state. A command that is not well formed (a value without the bit that
makes the row, a packet of another row, a list of another length, a result that the spec does not allow) faults
illFormed in every state. A fault of a well-formed command is that of one of the seven commands that carry data whose
length or form depends on the state. (The form of the operands is the model's, log entry 7.) -/
def Obligations.IllFormedCommandsFault : Prop :=
  (∀ (c : Instr) (s : State), c.wellFormed = false → exec c s = .fault .illFormed)
  ∧ ∀ (c : Instr) (s : State), (∀ r, exec c s ≠ .refused r)
    ∧ (∀ f, exec c s = .fault f → f = .illFormed ∧ (c.wellFormed = false
        ∨ (∃ ch d, c = .busTenureEnd ch d) ∨ (∃ ch d, c = .transferEnd ch d) ∨ (∃ e r, c = .localDecodeEnd e r)
        ∨ (∃ e r, c = .globalDecodeEnd e r) ∨ (∃ e r, c = .softDecodeEnd e r) ∨ (∃ d l f, c = .descListFetchReturn d l f)
        ∨ (∃ r, c = .bootLoadEnd r)))

/-- Every well-formed command other than seven answers a next state in every state. The seven (the ends of a bus
tenure, a data-out, a local, global and soft decode, and a boot load, and a descriptor-list fetch) carry data whose
length or form depends on the state. -/
def Obligations.WellFormedCommandsAnswer : Prop :=
  ∀ (c : Instr) (s : State), c.wellFormed = true →
    (∀ ch d, c ≠ .busTenureEnd ch d) → (∀ ch d, c ≠ .transferEnd ch d) → (∀ e r, c ≠ .localDecodeEnd e r) →
    (∀ e r, c ≠ .globalDecodeEnd e r) → (∀ e r, c ≠ .softDecodeEnd e r) → (∀ d l f, c ≠ .descListFetchReturn d l f) →
    (∀ r, c ≠ .bootLoadEnd r) → ∃ t, exec c s = .next t

/-- While the port takes requests, an access that meets a condition of ACCESS_ERR is answered with code 0b10, and one
outside the boot window that meets none but whose ring attribute a register it touches does not permit with 0b01. Its
response has data 0. HP_TGT_ERR logs the first error since VALID was cleared, with its address, code, kind, ring
attribute, size and requester, and counts every one, saturating. No other register and no other state changes. While
PORESET_N is asserted, in retention, in OFF, or with 32 responses that have not left, an access is not taken and
nothing changes. -/
def Obligations.ErrorAnswersHaveNoEffect : Prop :=
  (∀ (q : HostAccess) (s : State),
    (s.power.poreset = true ∨ s.power.retention = true ∨ s.power.mode = .off ∨ 32 ≤ rspWaiting s) →
    exec (.errorResponse q) s = .next s)
  ∧ ∀ (q : HostAccess) (s : State), portTakes s = true →
    (accessErr s q = true → ∃ t, exec (.errorResponse q) s = .next t ∧ ErrorAnswered s t q 2)
    ∧ (accessErr s q = false → inWindow q.addr = false → (∃ x ∈ touched q, ringMay s q x.1 = false) →
        ∃ t, exec (.errorResponse q) s = .next t ∧ ErrorAnswered s t q 1)

/-- An access with the fetch attribute at any address outside the boot window, in any mode in which the port takes
requests, is answered ACCESS_ERR and has no effect but its response and its log: it claims no interrupt, pops no FIFO
and clears no field. (R377.) -/
def Obligations.FetchOutsideTheBootWindow : Prop :=
  ∀ (q : HostAccess) (s : State), portTakes s = true → q.fetch = true → inWindow q.addr = false →
    ∃ t, exec (.errorResponse q) s = .next t ∧ ErrorAnswered s t q 2

/-- For every row of the table that writes one named register, a write that is taken without error is answered OKAY at
once and then applied to that register, all its bits and no other register of its 8-byte group: by the owner half if
it lies in a shared region, else by its front end or the always-on responder. Where the next command stops the owner
front end without a handover, a free bit tells whether the posted write to a shared region is applied (R28). -/
def Obligations.RegisterRowsWriteTheirRegister : Prop :=
  ∀ (c : Instr) (s : State) (a : Acc) (r : Reg) (v : W64), c.wellFormed = true → rowWrite c = some (a, r, v) →
    (Takes s (accessOf a r true v) → exec c s = .next (written a (answered s a r v) (whole r v)))
    ∧ (Passes s (accessOf a r true v) → ownerStopsNext (answered s a r v) = true → inShared (regAddr r) = true →
        exec c s = .next (if Config.freeBit s.freeCtr
          then written a { answered s a r v with freeCtr := s.freeCtr + 1 } (whole r v)
          else { answered s a r v with freeCtr := s.freeCtr + 1 }))

/-- A write of any bits of a register that has no rule of its own for writes (RegWrite.plain is its whole effect): a
bit of an RW field that is written takes its new value, a bit of a W1C field written 1 becomes 0, every other bit of
the register keeps its value, and so do every other register and all other state. -/
def Obligations.PlainRegistersFollowTheirFieldTypes : Prop :=
  ∀ (w : RegWrite) (s : State),
    (∀ b, b < 64 → (getR (w.plain s) w.reg.name w.reg.i w.reg.j w.reg.k).getLsbD b =
      if (accMask w.reg.name .w1c).getLsbD b && w.mask.getLsbD b && w.val.getLsbD b then false
      else if (accMask w.reg.name .rw).getLsbD b && w.mask.getLsbD b then w.val.getLsbD b
      else (getR s w.reg.name w.reg.i w.reg.j w.reg.k).getLsbD b)
    ∧ (∀ n i j k, (⟨n, i, j, k⟩ : Reg) ≠ w.reg → getR (w.plain s) n i j k = getR s n i j k)
    ∧ w.plain s = { s with regs := (w.plain s).regs }

/-- REGISTER_WRITE that is taken without error is answered OKAY and then writes every register it touches, in
ascending order: all of a 64-bit register, one half of it with the bits of the other half kept, or the one or two
32-bit registers of the 8-byte group. -/
def Obligations.RegisterWriteByAddress : Prop :=
  ∀ (a : Acc) (addr : BitVec 24) (size64 : Bool) (v : W64) (s : State),
    Takes s { acc := a, addr := addr, size64 := size64, write := true, fetch := false, data := v } →
    exec (.registerWrite a addr size64 v) s = .next
      ((touched { acc := a, addr := addr, size64 := size64, write := true, fetch := false, data := v }).foldl
        (fun s x => written a s (partWrite { acc := a, addr := addr, size64 := size64, write := true, fetch := false, data := v } x))
        (answer s { acc := a, addr := addr, size64 := size64, write := true, fetch := false, data := v } .fresh rOkay))
    ∧ (∀ r : Reg, touched { acc := a, addr := addr, size64 := size64, write := true, fetch := false, data := v } = [(r, .low)] →
        (partWrite { acc := a, addr := addr, size64 := size64, write := true, fetch := false, data := v } (r, .low)).mask
          = 0xffffffff#64)
    ∧ (∀ r : Reg, touched { acc := a, addr := addr, size64 := size64, write := true, fetch := false, data := v } = [(r, .high)] →
        (partWrite { acc := a, addr := addr, size64 := size64, write := true, fetch := false, data := v } (r, .high)).mask
          = 0xffffffff00000000#64)

/-- HALF_READ of the low half of a 64-bit register answers bits 31:0 on the low lanes and copies bits 63:32 into the
requester's shadow, and the read's side effect happens once. HALF_READ of the high half answers the shadow on the high
lanes when the requester's last low-half read was of that register, and has no other effect. Without such a read the
data is a free value, and nothing else happens but the advance of the model's free-value counter. READ_CLEAR_ACCESS of
64 bits answers the whole register with its side effect once. -/
def Obligations.SplitReadsUseTheShadow : Prop :=
  ∀ (a : Acc) (addr : BitVec 24) (r : Reg) (s : State),
    (touched (readAt a addr false) = [(r, .low)] → Takes s (readAt a addr false) →
      exec (.halfRead a addr) s = .next (answer
        (let x := (readAll s r).2
         let high := (addr.toNat / 8 * 8, ((readAll s r).1 >>> 32).setWidth 32)
         { x with host := { x.host with shadow := Tab.set x.host.shadow a.rid.toNat high } })
        (readAt a addr false) .fresh rOkay ((readAll s r).1 &&& 0xffffffff#64)))
    ∧ (touched (readAt a addr false) = [(r, .high)] → Takes s (readAt a addr false) →
        (∀ v, s.host.shadow.find? (fun e => e.1 = a.rid.toNat ∧ e.2.1 = addr.toNat / 8 * 8)
            = some (a.rid.toNat, addr.toNat / 8 * 8, v) →
          exec (.halfRead a addr) s = .next (answer s (readAt a addr false) .fresh rOkay (v.setWidth 64 <<< 32)))
        ∧ (s.host.shadow.find? (fun e => e.1 = a.rid.toNat ∧ e.2.1 = addr.toNat / 8 * 8) = none →
          exec (.halfRead a addr) s = .next (answer { s with freeCtr := s.freeCtr + 1 } (readAt a addr false) .fresh rOkay
            (Config.freeWord s.freeCtr &&& 0xffffffff00000000#64))))
    ∧ (touched (readAt a addr true) = [(r, .all 0)] → Takes s (readAt a addr true) →
        exec (.readClearAccess a addr true) s =
          .next (answer (readAll s r).2 (readAt a addr true) .fresh rOkay (readAll s r).1))

/-- The side effect of a read of SM_ECC_STATUS, HP_INI_ERR and HP_TGT_ERR makes their RC fields 0 and leaves every
other field and all other state. The value returned is the one before it. A read of a register without RC fields,
other than TB_NOW, IC_CLAIM and CH_FIFO_DBG, has no side effect. -/
def Obligations.ReadClearFieldsClear : Prop :=
  ∀ s : State,
    (rd (readEffect s (reg0 .smEccStatus)) F.smEccStatusCorrected = 0
      ∧ rd (readEffect s (reg0 .smEccStatus)) F.smEccStatusUncorrectable = 0
      ∧ rd (readEffect s (reg0 .smEccStatus)) F.smEccStatusCeSeen = rd s F.smEccStatusCeSeen
      ∧ rd (readEffect s (reg0 .smEccStatus)) F.smEccStatusUeSeen = rd s F.smEccStatusUeSeen)
    ∧ (rd (readEffect s (reg0 .hpIniErr)) F.hpIniErrCount = 0
      ∧ rd (readEffect s (reg0 .hpIniErr)) F.hpIniErrValid = rd s F.hpIniErrValid)
    ∧ (rd (readEffect s (reg0 .hpTgtErr)) F.hpTgtErrCount = 0
      ∧ rd (readEffect s (reg0 .hpTgtErr)) F.hpTgtErrAddr = rd s F.hpTgtErrAddr
      ∧ rd (readEffect s (reg0 .hpTgtErr)) F.hpTgtErrValid = rd s F.hpTgtErrValid)
    ∧ (∀ r : Reg, r.name ∉ [RegName.smEccStatus, .hpIniErr, .hpTgtErr, .tbNow, .icClaim] → readEffect s r = s)
    ∧ (∀ r : Reg, r.name ∉ [RegName.tbNow, .icClaim] →
        readEffect s r = { s with regs := (readEffect s r).regs }
        ∧ ∀ n i j k, n ≠ r.name → getR (readEffect s r) n i j k = getR s n i j k)

/-- A doorbell that is taken on H_TGT: with TAIL below 2^SQ_LOG2 on an enabled pair, SQ_TAIL takes it, the teller of
the pair is trapped (cause 7) and fetches if it may. With TAIL at or above 2^SQ_LOG2, or while ENABLE is 0, SQ_TAIL
and every other register keep their values but for DB_ERR, which is set, and nothing else changes beyond the response.
-/
def Obligations.DoorbellTakesTailOrIsRefused : Prop :=
  ∀ (a : Acc) (k : Fin 256) (v : W32) (s : State), Takes s (accessOf a (reg1 .sqTail k.val) true (v.setWidth 64)) →
    let s0 := answered s a (reg1 .sqTail k.val) (v.setWidth 64)
    let tail := v.toNat % 65536
    (tail < 2 ^ rd s F.ringCfgSqLog2 k.val → rdB s F.ringCfgEnable k.val = true →
      exec (.sqTailDoorbell a k v) s =
        .next (kickFetch (raiseTeller (wr1 s0 F.sqTailTail k.val tail) (tellerOf s k.val) 7) k.val)
      ∧ rd (wr1 s0 F.sqTailTail k.val tail) F.sqTailTail k.val = tail)
    ∧ ((2 ^ rd s F.ringCfgSqLog2 k.val ≤ tail ∨ rdB s F.ringCfgEnable k.val = false) →
      ∃ t, exec (.sqTailDoorbell a k v) s = .next t ∧ rdB t F.ringStatusDbErr k.val = true
        ∧ (∀ n i j l, ¬(n = .ringStatus ∧ i = k.val ∧ j = 0 ∧ l = 0) → getR t n i j l = getR s n i j l)
        ∧ t = { s0 with regs := t.regs })

/-- A write of v to RQ_HEAD of a pair stores v and returns the slots from the old RQ_HEAD up to, but not including, v,
counted forward around the ring of 2^RQ_LOG2 slots. The old value itself returns every slot when every slot holds a
receipt not returned, and none otherwise. Receipts and routing that waited for slots then go on. -/
def Obligations.ReceiptSlotsReturnByRqHead : Prop :=
  ∀ (a : Acc) (k : Fin 256) (v : W32) (s : State), Takes s (accessOf a (reg1 .rqHead k.val) true (v.setWidth 64)) →
    let s0 := answered s a (reg1 .rqHead k.val) (v.setWidth 64)
    let h := rd s F.rqHeadHead k.val
    let x := v.toNat % 65536
    let n := 2 ^ rd s F.ringCfgRqLog2 k.val
    let back := if x = h then (if (getRing s k.val).unret = n then n else 0) else (x + n - h % n) % n
    exec (.rqHeadWrite a k v) s =
      .next (tellerGoesOn (writeReceipts
        (updRing (wr1 s0 F.rqHeadHead k.val x) k.val (fun r => { r with unret := r.unret - back })) k.val) k.val)
    ∧ rd (wr1 s0 F.rqHeadHead k.val x) F.rqHeadHead k.val = x

/-- While ENABLE is 1 or items of the pair are in flight, a write of RING_CFG that would change SQ_LOG2, RQ_LOG2 or
RING_LEVEL, and while ENABLE is 1 one that would change TELLER, changes no register but RING_STATUS, where CFG_ERR is
set, and nothing else beyond its response. This holds for all three rows that write RING_CFG. -/
def Obligations.PairConfigurationLocks : Prop :=
  ∀ (a : Acc) (k : Fin 256) (v : W32) (s : State), Takes s (accessOf a (reg1 .ringCfg k.val) true (v.setWidth 64)) →
    let w := whole (reg1 .ringCfg k.val) (v.setWidth 64)
    let locked := (rdB s F.ringCfgEnable k.val || inFlight s k.val ≠ 0) &&
        (w.changes s F.ringCfgSqLog2 || w.changes s F.ringCfgRqLog2 || w.changes s F.ringCfgRingLevel)
      || rdB s F.ringCfgEnable k.val && w.changes s F.ringCfgTeller
    locked = true →
    ∀ c ∈ [Instr.ringCfgWrite a k v, (if v.getLsbD 0 then Instr.ringEnable a k v else Instr.ringDisable a k v)],
      ∃ t, exec c s = .next t ∧ rdB t F.ringStatusCfgErr k.val = true
        ∧ (∀ n i j l, ¬(n = .ringStatus ∧ i = k.val ∧ j = 0 ∧ l = 0) → getR t n i j l = getR s n i j l)
        ∧ t = { answered s a (reg1 .ringCfg k.val) (v.setWidth 64) with regs := t.regs }

/-- A write of RING_CFG that sets ENABLE of a disabled pair, changes no locked field and no TELLER: with SQ_LOG2 and
RQ_LOG2 in 4 to 16 and nothing in flight, SQ_HEAD, SQ_TAIL, RQ_TAIL and RQ_HEAD become 0 and PHASE 1; with items in
flight no pointer changes; the teller goes on. With either size outside 4 to 16 ENABLE stays 0 and CFG_ERR is set. A
write that clears ENABLE of an enabled pair is applied, the packet fetched is dropped, and so is one being fetched
when it arrives. A write that changes neither ENABLE nor TELLER nor a locked field stores the fields, and sets
IRQ_PEND where the condition of R47 now holds; so does each of the others. -/
def Obligations.PairEnableAndDisable : Prop :=
  ∀ (a : Acc) (k : Fin 256) (v : W32) (s : State), Takes s (accessOf a (reg1 .ringCfg k.val) true (v.setWidth 64)) →
    let w := whole (reg1 .ringCfg k.val) (v.setWidth 64)
    let s0 := answered s a (reg1 .ringCfg k.val) (v.setWidth 64)
    let s1 := coalCount (w.plain s0) k.val
    let sizesOk := 4 ≤ rd s1 F.ringCfgSqLog2 k.val ∧ rd s1 F.ringCfgSqLog2 k.val ≤ 16
      ∧ 4 ≤ rd s1 F.ringCfgRqLog2 k.val ∧ rd s1 F.ringCfgRqLog2 k.val ≤ 16
    cfgLocked s w = false → w.changes s F.ringCfgTeller = false →
    (v.getLsbD 0 = true → rdB s F.ringCfgEnable k.val = false → sizesOk →
      exec (.ringEnable a k v) s = .next (tellerGoesOn (if inFlight s k.val = 0 then pairFresh s1 k.val else s1) k.val)
      ∧ (∀ f ∈ [F.sqHeadHead, F.sqTailTail, F.rqTailTail, F.rqHeadHead], rd (pairFresh s1 k.val) f k.val = 0)
      ∧ rd (pairFresh s1 k.val) F.rqTailPhase k.val = 1 ∧ rdB s1 F.ringCfgEnable k.val = true)
    ∧ (v.getLsbD 0 = true → rdB s F.ringCfgEnable k.val = false → ¬ sizesOk →
      exec (.ringEnable a k v) s = .next (flag1 (wr1 s1 F.ringCfgEnable k.val 0) F.ringStatusCfgErr k.val))
    ∧ (v.getLsbD 0 = false → rdB s F.ringCfgEnable k.val = true →
      exec (.ringDisable a k v) s = .next (stopFetch s1 k.val) ∧ rdB s1 F.ringCfgEnable k.val = false)
    ∧ (w.changes s F.ringCfgEnable = false → exec (.ringCfgWrite a k v) s = .next s1)

/-- A write of 1 to FETCH_ERR alone, while it is set, clears it and lets the pair fetch; a write of 1 to RCPT_ERR
alone, while it is set, clears it and writes again every receipt of the pair still in the hold. A packet fetch that
ends in an error or poison sets FETCH_ERR and takes the fetch off the port; so does that of a fetch that was dropped
when the pair was disabled. Where no beat of it showed which of the two it was, a free bit tells, and an error is
logged with a free code of the three (the model's choice, log entry 53); with no fetch of the pair outstanding the
event changes nothing. -/
def Obligations.ClearingFetchAndReceiptErrors : Prop :=
  ∀ (a : Acc) (k : Fin 256) (s : State),
    (Takes s (accessOf a (reg1 .ringStatus k.val) true 8) → rdB s F.ringStatusFetchErr k.val = true →
      ∃ s1, exec (.fetchErrClear a k 8) s = .next (kickFetch s1 k.val) ∧ rdB s1 F.ringStatusFetchErr k.val = false
        ∧ s1 = { answered s a (reg1 .ringStatus k.val) 8 with regs := s1.regs }
        ∧ ∀ n i j l, ¬(n = .ringStatus ∧ i = k.val ∧ j = 0 ∧ l = 0) → getR s1 n i j l = getR s n i j l)
    ∧ (Takes s (accessOf a (reg1 .ringStatus k.val) true 16) → rdB s F.ringStatusRcptErr k.val = true →
      ∃ s1, exec (.rcptErrClear a k 16) s = .next (writeReceipts (rewriteReceipts s1 k.val) k.val)
        ∧ rdB s1 F.ringStatusRcptErr k.val = false
        ∧ s1 = { answered s a (reg1 .ringStatus k.val) 16 with regs := s1.regs }
        ∧ ∀ n i j l, ¬(n = .ringStatus ∧ i = k.val ∧ j = 0 ∧ l = 0) → getR s1 n i j l = getR s n i j l)
    ∧ (∀ r, fetchOut s k.val = some r ∨ (fetchOut s k.val = none ∧ fetchGone s k.val = some r) →
      ∃ x, exec (.packetFetchError k) s = .next (flag1 x F.ringStatusFetchErr k.val)
        ∧ (r.spoilt = true → x = readDone s r)
        ∧ (r.spoilt = false → let y := readDone s r
            x = if Config.freeBit y.freeCtr
              then hiLogErr { y with freeCtr := y.freeCtr + 2 } r.id (1 + (Config.freeWord (y.freeCtr + 1)).toNat % 3) 0
              else { y with freeCtr := y.freeCtr + 1 }))
    ∧ (fetchOut s k.val = none → fetchGone s k.val = none → exec (.packetFetchError k) s = .next s)
    ∧ exec (.routingResume k) s = .next (tellerGoesOn s k.val)

/-- Every packet is laid out in 64 bytes and read back from them unchanged, with every field at every value, and every
64 bytes whose reserved byte 31 is 0 are the bytes of the packet read from them. The opcode is byte 0, FLAGS byte 1,
TAG bytes 2 and 3 little-endian, LAUNCH_TICK bytes 16 to 23, DEADLINE bytes 24 to 27. -/
def Obligations.PacketRoundTrip : Prop :=
  (∀ p : Packet, (packetBytes p).length = 64 ∧ packetOfBytes (packetBytes p) = p)
    ∧ (∀ b : List Byte, b.length = 64 → b.getD 31 0 = 0 → packetBytes (packetOfBytes b) = b)
    ∧ (∀ p : Packet, (packetBytes p).getD 0 0 = p.opcode ∧ (packetBytes p).getD 1 0 = p.flags
        ∧ leNat (slice (packetBytes p) 2 2) = p.tag.toNat ∧ leNat (slice (packetBytes p) 8 8) = p.row.toNat
        ∧ leNat (slice (packetBytes p) 16 8) = p.launchTick.toNat ∧ leNat (slice (packetBytes p) 24 4) = p.deadline.toNat)

/-- The 32 bytes of a receipt: TAG in bytes 0 and 1, STATUS 2, GRADE with GRADE_VALID in bit 3 of byte 3, bytes 4 to
7, ITERATIONS saturated in 8 and 9, SOFT 10, POISON 11, DIE_STATUS 12, SUSPENDS saturated in 13, LEDGER_WAIT saturated
in 14 and 15, COMPLETION_TICK in 16 to 23, LAUNCH_LO in 24 to 27, RFLAGS 28, EXEC_UNIT 29, OPCODE 30, CHECK 31. -/
def Obligations.ReceiptLayout : Prop :=
  ∀ r : Receipt, r.bytes.length = 32
    ∧ leNat (slice r.bytes 0 2) = r.tag.toNat
    ∧ r.bytes.getD 2 0 = BitVec.ofNat 8 r.status
    ∧ r.bytes.getD 3 0 = BitVec.ofNat 8 (r.grade % 8 + 8 * bit r.gradeValid)
    ∧ leNat (slice r.bytes 4 4) = r.word.toNat
    ∧ leNat (slice r.bytes 8 2) = min 65535 r.iters
    ∧ r.bytes.getD 10 0 = BitVec.ofNat 8 r.soft ∧ r.bytes.getD 11 0 = BitVec.ofNat 8 r.poison
    ∧ r.bytes.getD 12 0 = r.dieStatus ∧ (r.bytes.getD 13 0).toNat = min 255 r.suspends
    ∧ leNat (slice r.bytes 14 2) = min 65535 r.ledgerWait
    ∧ leNat (slice r.bytes 16 8) = r.tick % 2 ^ 64
    ∧ leNat (slice r.bytes 24 4) = r.launchLo % 2 ^ 32
    ∧ r.bytes.getD 28 0 = BitVec.ofNat 8 r.rflags ∧ r.bytes.getD 29 0 = BitVec.ofNat 8 r.execUnit
    ∧ r.bytes.getD 30 0 = r.opcode ∧ r.bytes.getD 31 0 = BitVec.ofNat 8 r.check

/-- For every item to which at least one status applies, the status of its receipt is the code of the first status
that applies in the order MISALIGNED, CHANNEL_FENCED, ABORTED_FENCE, FORWARD_FAIL, NOT_ISSUED_POWERFAIL, MCHECK,
INTERRUPTED_POWERFAIL, DIE_TIMEOUT, DMA_FAULT, DIE_FAIL, UNCORRECTABLE, VERIFY_FAIL, OK_LATE, OK, that is of 0x0B,
0x09, 0x08, 0x0C, 0x06, 0x0D, 0x07, 0x0A, 0x05, 0x03, 0x04, 0x02, 0x01, 0x00. CHECK is 0 unless that is MISALIGNED.
(R70.) -/
def Obligations.ReceiptCarriesTheFirstStatus : Prop :=
  ∀ (s : State) (it : Item), it.marks ≠ [] →
    ∃ before st after, [Status.misaligned, .channelFenced, .abortedFence, .forwardFail, .notIssuedPowerfail, .mcheck,
        .interruptedPowerfail, .dieTimeout, .dmaFault, .dieFail, .uncorrectable, .verifyFail, .okLate, .ok]
          = before ++ st :: after
      ∧ [11, 9, 8, 12, 6, 13, 7, 10, 5, 3, 4, 2, 1, 0] = before.map Status.code ++ st.code :: after.map Status.code
      ∧ st ∈ it.marks ∧ (∀ x ∈ before, x ∉ it.marks)
      ∧ (receiptOf s it).status = st.code
      ∧ (receiptOf s it).check = if st = .misaligned then it.check else 0

/-- The pair that a teller serves next is bound to it, is enabled with a packet waiting, has a free receipt slot
(R42), leaves the teller below 4,096 items in flight (R43) and is held by no flag and no FENCE (R73, R74). It is the
first such pair in ascending order after the pair that the teller served last, wrapping from 255 to 0 (R72). -/
def Obligations.TellerTakesThePairWhoseTurnItIs : Prop :=
  ∀ (s : State) (t k : Nat), nextPair s t = some k →
    tellerOf s k = t ∧ rdB s F.ringCfgEnable k = true ∧ (getRing s k).wait.isSome = true
    ∧ 0 < freeSlots s k ∧ tellerLoad s t < 4096 ∧ (getRing s k).fenceAfter = none ∧ fenced s k t = false
    ∧ (∀ p, (getRing s k).wait = some p → p.fenceBefore = true → inFlight s k = 0)
    ∧ ∀ j, tellerOf s j = t → mayRoute s j = true →
        (k + 255 - Tab.get s.served t 255) % 256 ≤ (j + 255 - Tab.get s.served t 255) % 256

/-- For every row that carries a packet: with no fetch of the pair outstanding nothing changes, and one whose beats
showed an error or poison fails. Else the packet takes the fetch off the port and waits with the teller; when it is
not the pair's turn nothing more happens. When it is, SQ_HEAD goes one slot on around the ring, one item comes into
being with the packet, the pair's teller and ring level, and the teller decides where it goes and fetches the next
packet. -/
def Obligations.PacketsArriveAndAreRouted : Prop :=
  ∀ (c : Instr) (k : Fin 256) (p : Packet) (s : State), c.wellFormed = true → packetOf c = some (k, p) →
    (fetchOut s k.val = none → exec c s = .next s)
    ∧ (∀ r, fetchOut s k.val = some r → r.spoilt = true → exec c s = .next (fetchFails s k.val r))
    ∧ ((takeFetch s k.val).isSome = true → (getRing (arrived s k.val p) k.val).wait = some p
      ∧ (nextPair (arrived s k.val p) (tellerOf (arrived s k.val p) k.val) ≠ some k.val →
          exec c s = .next (arrived s k.val p))
      ∧ (nextPair (arrived s k.val p) (tellerOf (arrived s k.val p) k.val) = some k.val →
          exec c s = .next (kickFetch (dispatch (routed s k.val p) (newItem s k.val p)) k.val)
          ∧ (routed s k.val p).items = (arrived s k.val p).items ++ [newItem s k.val p]
          ∧ (newItem s k.val p).pkt = p ∧ (newItem s k.val p).origin = .host k.val ∧ (newItem s k.val p).marks = []
          ∧ (newItem s k.val p).level = rd (arrived s k.val p) F.ringCfgRingLevel k.val
          ∧ (getRing (routed s k.val p) k.val).wait = none
          ∧ (rd (arrived s k.val p) F.ringCfgSqLog2 k.val ≤ 16 →
              rd (routed s k.val p) F.sqHeadHead k.val
                = (rd (arrived s k.val p) F.sqHeadHead k.val + 1) % 2 ^ rd (arrived s k.val p) F.ringCfgSqLog2 k.val)))

/-- An item whose packet fails a check of R63 at the unit that carries it out ends at once with MISALIGNED and that
check: every check before it passes. A packet with FORWARD and UNIT above 15 ends so with check 0x03 before any
forwarding. The receipt of an item to which MISALIGNED applies has STATUS 0x0B and CHECK the number of that check. -/
def Obligations.FirstFailingCheckRefuses : Prop :=
  ∀ (s : State) (it : Item),
    (∀ n, firstCheck s (hereAddr s) it.level it.pkt = some n →
      execute s it = endWith (updItem s it.id (fun i => { i with check := n })) it.id .misaligned
      ∧ 1 ≤ n ∧ n ≤ 14 ∧ checkFails s (hereAddr s) it.level it.pkt n = true
      ∧ ∀ m, 1 ≤ m → m < n → checkFails s (hereAddr s) it.level it.pkt m = false)
    ∧ (it.pkt.forward = true → 15 < it.pkt.unit.toNat →
      dispatch s it = endWith (updItem s it.id (fun i => { i with check := 3 })) it.id .misaligned)
    ∧ (Status.misaligned ∈ it.marks → it.check < 256 →
      (receiptOf s it).bytes.getD 2 0 = 0x0B ∧ ((receiptOf s it).bytes.getD 31 0).toNat = it.check)

/-- For the thirteen flash opcodes and the two LUN actions of CHANNEL_CTL: a packet that is routed to this unit and
passes every check, and whose sequencer's store takes it, becomes an item at the tail of its LUN's queue; a program
then asks for its staging slots. Otherwise an item that occupies a LUN queue ends DMA_FAULT if it moves host data and
no DMA channel is eligible, ends CHANNEL_FENCED if its channel group is unpowered or its channel not enabled, and is
held by its teller while the store has no room. -/
def Obligations.FlashRowsJoinTheirQueue : Prop :=
  (∀ (c : Instr) (k : Fin 256) (p : Packet) (s : State),
    c ∈ [.read k p, .readMulti k p, .readRaw k p, .program k p, .programMulti k p, .erase k p, .eraseMulti k p, .copy k p,
      .status k p, .setFeature k p, .getFeature k p, .resetLun k p, .sequence k p, .unhaltLun k p, .flushLun k p] →
    c.wellFormed = true → Routes s k.val p → StoreTakes (routed s k.val p) (newItem s k.val p) →
    exec c s = .next (kickFetch (storeTakes (routed s k.val p) (newItem s k.val p)) k.val)
    ∧ (∀ (x : State) (it : Item) (id : Nat), (getLun (enqueue x id it.lun) it.lun).queue = (getLun x it.lun).queue ++ [id]
        ∧ storeTakes x it = (let y := enqueue (updItem x it.id (fun i => { i with
            launchRef := if it.pkt.launchTick = 0 then fineTick x else it.launchRef })) it.id it.lun
          if opProgram it.pkt.op then wantSlots y it it.pages.length false else y)))
  ∧ ∀ (s : State) (it : Item),
    (opMoves it.pkt.op = true → eligibleDma s it = [] → carryQueue s it = endWith s it.id .dmaFault)
    ∧ ((opMoves it.pkt.op = true → eligibleDma s it ≠ []) →
        (domUp s (dCg (it.lun.ch / 4)) = false ∨ chEnabled s it.lun.ch = false →
          carryQueue s it = endWith s it.id .channelFenced)
        ∧ (domUp s (dCg (it.lun.ch / 4)) = true → chEnabled s it.lun.ch = true → storeRoom s it = false →
          carryQueue s it = updItem s it.id (fun i => { i with stage := .waitStore })))

/-- LEDGER_SET of a budget or cost, TIME_MARK and NOP with LAUNCH_TICK 0, routed to this unit while shared-state
requests do not wait at the half link, take effect when they are routed and end; one that applies ring-wide is also
put on the ring. TIME_MARK with SNAPSHOT copies the tallies, without it and NOP change nothing. Target 0 to 3 gives
the budget its value, target 4 the cost table entry of an index below 32; any other target or index changes nothing.
-/
def Obligations.LedgerSetRows : Prop :=
  (∀ (k : Fin 256) (p : Packet) (s : State), Routes s k.val p → p.launchTick = 0 →
    let x := sendWide (routed s k.val p) p
    ((Instr.ledgerSetBudget k p).wellFormed = true → linkHeld x = false →
      exec (.ledgerSetBudget k p) s = .next (kickFetch (endItem (ledgerApply x p) (newItem s k.val p).id) k.val))
    ∧ ((Instr.ledgerSetCost k p).wellFormed = true → linkHeld x = false →
      exec (.ledgerSetCost k p) s = .next (kickFetch (endItem (ledgerApply x p) (newItem s k.val p).id) k.val))
    ∧ ((Instr.timeMark k p).wellFormed = true → p.opByte 8 % 2 = 1 → linkHeld x = false →
      exec (.timeMark k p) s = .next (kickFetch (endItem (tallySnapshot x) (newItem s k.val p).id) k.val))
    ∧ ((Instr.timeMark k p).wellFormed = true → p.opByte 8 % 2 = 0 →
      exec (.timeMark k p) s = .next (kickFetch (endItem x (newItem s k.val p).id) k.val))
    ∧ ((Instr.nop k p).wellFormed = true →
      exec (.nop k p) s = .next (kickFetch (endItem x (newItem s k.val p).id) k.val)))
  ∧ ∀ (s : State) (p : Packet),
      let v := p.opByte 12 + 256 * p.opByte 13
      (p.opByte 8 = 0 → rd (ledgerApply s p) F.lgBudgetVccNormal = v)
      ∧ (p.opByte 8 = 1 → altActive s = false → rd (ledgerApply s p) F.lgBudgetVccAlt = v)
      ∧ (p.opByte 8 = 1 → altActive s = true → ∃ x, ledgerApply s p = orderSuspends x v ∧ rd x F.lgBudgetVccAlt = v
          ∧ x = { s with regs := x.regs } ∧ ∀ n i j l, n ≠ .lgBudget → getR x n i j l = getR s n i j l)
      ∧ (p.opByte 8 = 2 → rd (ledgerApply s p) F.lgBudgetVccqNormal = v)
      ∧ (p.opByte 8 = 3 → rd (ledgerApply s p) F.lgBudgetVccqAlt = v)
      ∧ (p.opByte 8 ∈ [0, 2, 3] → ledgerApply s p = { s with regs := (ledgerApply s p).regs }
          ∧ ∀ n i j l, n ≠ .lgBudget → getR (ledgerApply s p) n i j l = getR s n i j l)
      ∧ (p.opByte 8 = 4 → p.opByte 9 < 32 → rd (ledgerApply s p) F.lgCostCoins (p.opByte 9) = v
          ∧ ledgerApply s p = { s with regs := (ledgerApply s p).regs }
          ∧ ∀ n i j l, ¬(n = .lgCost ∧ i = p.opByte 9 ∧ j = 0 ∧ l = 0) → getR (ledgerApply s p) n i j l = getR s n i j l)
      ∧ (p.opByte 8 = 4 → 32 ≤ p.opByte 9 → ledgerApply s p = s)
      ∧ (5 < p.opByte 8 → ledgerApply s p = s)

/-- LEDGER_SET with target 5, routed to this unit while no handover holds shared-state requests, enters a window from
LAUNCH_TICK, or from the tick of its routing if that is 0, of DEADLINE ticks, and ends. A window that overlaps or
abuts none takes the lowest free slot with its start, length and VALID; with no free slot QUIET_FULL is set; a window
of no length or one that has ended changes nothing. QUIET_WINDOW_END frees the slot when the fine time base reaches
the window's end. -/
def Obligations.QuietWindowsRow : Prop :=
  (∀ (k : Fin 256) (p : Packet) (s : State), (Instr.ledgerSetQuiet k p).wellFormed = true → Routes s k.val p →
    linkHeld (routed s k.val p) = false →
    ∃ q : Packet, q = { p with launchTick := if p.launchTick = 0 then BitVec.ofNat 64 (fineTick (routed s k.val p)) else p.launchTick }
      ∧ exec (.ledgerSetQuiet k p) s = .next (kickFetch (endItem (quietEnter
          (sendWide (updItem (routed s k.val p) (newItem s k.val p).id (fun i => { i with pkt := q })) q)
          q.launchTick.toNat q.deadline.toNat) (newItem s k.val p).id) k.val))
  ∧ (∀ (s : State) (a n : Nat), (n = 0 ∨ a + n ≤ fineTick s → quietEnter s a n = s)
    ∧ (0 < n → fineTick s < a + n → quietTouch s a (a + n) = [] →
        (∀ j, j < 8 → quietLive s j = false → (∀ i, i < j → quietLive s i = true) → a < 2 ^ 64 → n < 2 ^ 32 →
          quietEnter s a n = quietBegins (quietActive s) (quietPut s j a (a + n))
          ∧ rd (quietPut s j a (a + n)) F.lgQuietW0Start j = a ∧ rd (quietPut s j a (a + n)) F.lgQuietW1Length j = n
          ∧ rdB (quietPut s j a (a + n)) F.lgQuietW1Valid j = true)
        ∧ ((∀ j, j < 8 → quietLive s j = true) → quietEnter s a n = flag0 s F.lgStatusQuietFull)))
  ∧ (∀ (j : Fin 8) (s s1 : State), rdB s F.lgQuietW1Valid j.val = true →
      reach s (nsU * (rd s F.lgQuietW0Start j.val + rd s F.lgQuietW1Length j.val)) = some s1 →
      exec (.quietWindowEnd j) s = .next (wr1 s1 F.lgQuietW1Valid j.val 0)
      ∧ rdB (wr1 s1 F.lgQuietW1Valid j.val 0) F.lgQuietW1Valid j.val = false)
  ∧ (∀ (j : Fin 8) (s s1 : State), rdB s F.lgQuietW1Valid j.val = true →
      reach s (nsU * rd s F.lgQuietW0Start j.val) = some s1 → quietHolds s1 j.val (fineTick s1) = true →
      exec (.quietWindowStart j) s =
        .next (if rdB s F.lgCtlQuietSuspend then orderSuspends (refreshArmed s1) 0 else refreshArmed s1))

/-- A FENCE that is routed to this unit: a scope above 2 ends it at once and does nothing else. Else it waits for
every item of its scope and every receipt of its scope not yet written, no FENCE among them, and its rings route
nothing while it is in effect. With abort set each item of its scope that has not launched and not begun ends
ABORTED_FENCE, but for one that another unit forwarded here. -/
def Obligations.FenceRow : Prop :=
  (∀ (k : Fin 256) (p : Packet) (s : State), (Instr.fence k p).wellFormed = true → Routes s k.val p →
    exec (.fence k p) s = .next (kickFetch (fenceBegin (routed s k.val p) (newItem s k.val p)) k.val))
  ∧ (∀ (s : State) (it : Item), 2 < it.pkt.opByte 8 → fenceBegin s it = endItem s it.id)
  ∧ (∀ (s : State) (it : Item), it.pkt.opByte 8 ≤ 2 → ∃ f : FenceRun,
      f.item = it.id ∧ f.scope = it.pkt.opByte 8 ∧ f.pair = ringKey it.origin ∧ f.teller = it.teller
      ∧ (∀ x ∈ s.items, x.id ≠ it.id → (∃ o, x.origin = .host o ∨ ∃ h, x.origin = .fwd o h) → x.pkt.op ≠ 0x12 →
          (f.scope = 0 ∧ ringKey x.origin = f.pair ∨ f.scope = 1 ∧ atTeller s f.teller x = true ∨ f.scope = 2) → x.id ∈ f.waits)
      ∧ (∀ h ∈ s.hold, heldInScope s f.scope f.pair f.teller h = true → h.item ∈ f.waits)
      ∧ (∀ x : Item, inScope s f.scope f.pair f.teller x = true → x.pkt.op ≠ 0x12)
      ∧ (let y := { updItem s it.id (fun i => { i with stage := .fence }) with fences := s.fences ++ [f] }
         let mine := s.items.filter (fun i => i.id ≠ it.id && inScope s f.scope f.pair f.teller i)
         (∀ key t, f.covers key t = true → fenced y key t = true)
         ∧ (it.pkt.opByte 9 % 2 = 0 → fenceBegin s it = endFences y)
         ∧ (it.pkt.opByte 9 % 2 = 1 → fenceBegin s it =
              endFences ((mine.filter (aborts s)).foldl (fun s i => abortItem s i.id) y))))
  ∧ (∀ (s : State) (i : Item), i.launched = false → (∀ o h, i.origin ≠ .fwd o h) →
      i.stage ∈ [.waitStore, .queued, .timed, .waitHk] → aborts s i = true)
  ∧ (∀ (s : State) (i : Item) (o h : Nat), i.origin = .fwd o h → aborts s i = false)
  ∧ (∀ (s : State) (id : Nat), ∃ x, abortItem s id = stopItem x id .abortedFence ∧ x.items = s.items ∧ x.regs = s.regs)
  ∧ (∀ (s : State) (k : Nat), fenced s k (tellerOf s k) = true → mayRoute s k = false)

/-- SCRUB_CTL that is routed to this unit while no handover holds shared-state requests takes effect and ends. START
sets RUN and takes the pair, grade, threshold, rate (0 acts as 1) and TAG, and keeps the cursor. STOP clears RUN and
keeps everything else. CLEAR_POOL empties the pool of the named channel, or with 0xFF every pool, and no other. Any
other action changes nothing. -/
def Obligations.ScrubRows : Prop :=
  (∀ (c : Instr) (k : Fin 256) (p : Packet) (s : State), c ∈ [.scrubStart k p, .scrubStop k p, .scrubClearPool k p] →
    c.wellFormed = true → Routes s k.val p → linkHeld (routed s k.val p) = false →
    exec c s = .next (kickFetch (endItem (scrubEffect (routed s k.val p) p) (newItem s k.val p).id) k.val))
  ∧ ∀ (s : State) (p : Packet),
    (p.opByte 8 = 1 → rd (scrubEffect s p) F.psStatusRun = 1 ∧ (scrubEffect s p).patrol.pair = p.opByte 9
      ∧ (scrubEffect s p).patrol.relocGrade = p.opByte 10 ∧ (scrubEffect s p).patrol.thresh = p.opByte 11
      ∧ (scrubEffect s p).patrol.rate = max 1 (p.opByte 12 + 256 * p.opByte 13) ∧ (scrubEffect s p).patrol.tag = p.tag
      ∧ (scrubEffect s p).patrol.pools = s.patrol.pools
      ∧ (∀ n i j l, n ≠ .psStatus → getR (scrubEffect s p) n i j l = getR s n i j l))
    ∧ (p.opByte 8 = 0 → scrubEffect s p = wr0 s F.psStatusRun 0 ∧ rd (scrubEffect s p) F.psStatusRun = 0)
    ∧ (p.opByte 8 = 2 → ∀ c, Tab.get (scrubEffect s p).patrol.pools c [] =
        if p.opByte 9 = 0xff ∨ c = p.opByte 9 then [] else Tab.get s.patrol.pools c [])
    ∧ (p.opByte 8 = 2 → scrubEffect s p = { s with patrol := { s.patrol with pools := (scrubEffect s p).patrol.pools } })
    ∧ (2 < p.opByte 8 → scrubEffect s p = s)

/-- RELOC_POOL_ADD that is routed to this unit appends its four entries in order and ends. An entry with VALID 0
changes nothing. A valid entry of a channel up to 47 whose pool holds fewer than 64 goes to the end of that pool, and
no other pool changes. Any other valid entry sets POOL_DROP and changes no pool. -/
def Obligations.RelocPoolAddRow : Prop :=
  (∀ (k : Fin 256) (p : Packet) (s : State), (Instr.relocPoolAdd k p).wellFormed = true → Routes s k.val p →
    exec (.relocPoolAdd k p) s = .next (kickFetch (endItem
      (poolAdd (poolAdd (poolAdd (poolAdd (routed s k.val p) p.b0) p.b1) p.b2) p.b3) (newItem s k.val p).id) k.val))
  ∧ ∀ (s : State) (w : W64),
    let c := (w >>> 48).toNat % 256
    let pool := Tab.get s.patrol.pools c []
    (w.getLsbD 56 = false → poolAdd s w = s)
    ∧ (w.getLsbD 56 = true → c ≤ 47 → pool.length < 64 →
        (∃ e, Tab.get (poolAdd s w).patrol.pools c [] = pool ++ [e] ∧ e.row = w.toNat % 2 ^ 40 ∧ e.ceLun = BitVec.ofNat 8 (w.toNat / 2 ^ 40))
        ∧ (∀ d, d ≠ c → Tab.get (poolAdd s w).patrol.pools d [] = Tab.get s.patrol.pools d [])
        ∧ poolAdd s w = { s with patrol := { s.patrol with pools := (poolAdd s w).patrol.pools } })
    ∧ (w.getLsbD 56 = true → (47 < c ∨ 64 ≤ pool.length) →
        poolAdd s w = flag0 s F.psStatusPoolDrop ∧ rdB (poolAdd s w) F.psStatusPoolDrop = true)

/-- CALIBRATE that is routed to this unit waits while HK1 is stopped. Else, with PD_CG of its group unpowered, or with
no channel of the group trained for RUN, RUN_FORCED and APPLY, it ends CHANNEL_FENCED. RUN joins the run that is
pending or running, or orders one. RUN_FORCED also makes a run that is WAITING FORCING. REBASE makes REF_TEMP the
group's TEMP and ends. APPLY ends at once with nothing staged, else it waits for the staged trims and forces a run
that is not yet forced. An action above 3 ends at once. -/
def Obligations.CalibrateRows : Prop :=
  (∀ (c : Instr) (k : Fin 256) (p : Packet) (s : State),
    c ∈ [.calibrateRun k p, .calibrateRunForced k p, .calibrateRebase k p, .calibrateApply k p] → c.wellFormed = true →
    Routes s k.val p → exec c s = .next (kickFetch (if engRunning (routed s k.val p) 14 1
      then calBegin (routed s k.val p) (newItem s k.val p)
      else updItem (routed s k.val p) (newItem s k.val p).id (fun i => { i with stage := .waitHk })) k.val))
  ∧ ∀ (s : State) (it : Item),
    let g := it.pkt.channel.toNat / 4
    let y := updItem s it.id (fun i => { i with stage := .group })
    let ordered := if (getGroup s g).calPending ∨ calState s g = 3 then y else calOrder y g
    let joins := fun (x : State) => updGroup x g (fun r => { r with calItems := r.calItems ++ [it.id] })
    (domUp s (dCg g) = false → calBegin s it = endWith s it.id .channelFenced)
    ∧ (it.pkt.opByte 8 ∈ [0, 1, 3] → (chansOf g).any (trained s) = false → calBegin s it = endWith s it.id .channelFenced)
    ∧ (domUp s (dCg g) = true → (chansOf g).any (trained s) = true →
      (it.pkt.opByte 8 = 0 → calBegin s it = joins ordered)
      ∧ (it.pkt.opByte 8 = 1 → calBegin s it = if calState (joins ordered) g = 1 then calForce (joins ordered) g else joins ordered)
      ∧ (it.pkt.opByte 8 = 3 → (getGroup s g).staged = [] → calBegin s it = endItem y it.id)
      ∧ (it.pkt.opByte 8 = 3 → (getGroup s g).staged ≠ [] →
          let z := updGroup y g (fun r => { r with applyItems := r.applyItems ++ [it.id] })
          calBegin s it = if calState z g < 2 then calForce z g else z))
    ∧ (domUp s (dCg g) = true → it.pkt.opByte 8 = 2 →
        calBegin s it = endItem (wr1 y F.calGrpStatusRefTemp g (rd s F.calGrpStatusTemp g)) it.id
        ∧ rd (wr1 y F.calGrpStatusRefTemp g (rd s F.calGrpStatusTemp g)) F.calGrpStatusRefTemp g = rd s F.calGrpStatusTemp g)
    ∧ (domUp s (dCg g) = true → 3 < it.pkt.opByte 8 → calBegin s it = endItem y it.id)

/-- BOOT_SWAP that is routed to this unit waits while HK0 is stopped or carries out another. It ends CHANNEL_FENCED
when BOOT_SEL names no channel or that channel is not ENABLED. Else HK0 takes its source from bytes 8 to 11, its
length from bytes 12 to 14, strength and reload from byte 15, and issues the first step. -/
def Obligations.BootSwapRow : Prop :=
  (∀ (k : Fin 256) (p : Packet) (s : State), (Instr.bootSwap k p).wellFormed = true → Routes s k.val p →
    let x := routed s k.val p
    let it := newItem s k.val p
    exec (.bootSwap k p) s = .next (kickFetch (if engRunning x 14 0 then swapBegin x it
      else updItem x it.id (fun i => { i with stage := .waitHk })) k.val)
    ∧ (∀ ch, engRunning x 14 0 = true → x.boot.swap = none → bootChannel x = some ch → rd x F.chCtlState ch = 3 → ∃ w : Swap,
        exec (.bootSwap k p) s = .next (kickFetch (swapIssue (updItem x it.id (fun i => { i with stage := .group })) w) k.val)
        ∧ w.id = it.id ∧ w.src = p.row.toNat % 2 ^ 32 ∧ w.len = p.row.toNat / 2 ^ 32 % 2 ^ 24
        ∧ w.strength = p.row.toNat / 2 ^ 56 % 8 ∧ w.reload = p.row.getLsbD 63))
  ∧ ∀ (s : State) (it : Item),
    (s.boot.swap.isSome = true → swapBegin s it = updItem s it.id (fun i => { i with stage := .group }))
    ∧ (s.boot.swap = none → (∀ ch, bootChannel s = some ch → rd s F.chCtlState ch ≠ 3) →
        swapBegin s it = endWith s it.id .channelFenced)
    ∧ (∀ ch, s.boot.swap = none → bootChannel s = some ch → rd s F.chCtlState ch = 3 → ∃ w : Swap,
        swapBegin s it = swapIssue (updItem s it.id (fun i => { i with stage := .group })) w
        ∧ w.id = it.id ∧ w.src = it.pkt.row.toNat % 2 ^ 32 ∧ w.len = it.pkt.row.toNat / 2 ^ 32 % 2 ^ 24
        ∧ w.strength = it.pkt.row.toNat / 2 ^ 56 % 8 ∧ w.reload = it.pkt.row.getLsbD 63)
    ∧ (∀ ch, bootChannel s = some ch →
        ch + 4 = 4 * ((s.power.straps >>> 1).toNat % 16) ∧ ch ≤ 44)

/-- CHANNEL_CTL of actions 0 to 4 or an unknown one, routed to this unit, waits while HK0 is stopped; else with PD_CG
of its group unpowered it ends CHANNEL_FENCED. NONE and an unknown action end at once. ENABLE and DISABLE act on its
channel, or with GROUP on the four channels of the group, FENCE_GROUP and UNFENCE_GROUP on the group; the item ends
when R204 says. An ENABLE of a READY trained channel of an unfenced group makes it ENABLED; of an untrained one sets
EN_REFUSED and leaves it READY with ENABLE 0; while the group is fenced it sets ENABLE only; of a DRAINING channel it
sets PENDING. During the transition from ACTIVE to READY an ENABLE only sets EN_REFUSED (R433). -/
def Obligations.ChannelCtlRows : Prop :=
  (∀ (c : Instr) (k : Fin 256) (p : Packet) (s : State),
    c ∈ [.channelCtlNone k p, .channelCtlEnable k p, .channelCtlDisable k p, .fenceGroup k p, .unfenceGroup k p] →
    c.wellFormed = true → Routes s k.val p →
    exec c s = .next (kickFetch (if engRunning (routed s k.val p) 14 0
      then ctlBegin (routed s k.val p) (newItem s k.val p)
      else updItem (routed s k.val p) (newItem s k.val p).id (fun i => { i with stage := .waitHk })) k.val))
  ∧ (∀ (s : State) (it : Item),
    let g := it.pkt.channel.toNat / 4
    let y := updItem s it.id (fun i => { i with stage := .group })
    (domUp s (dCg g) = false → ctlBegin s it = endWith s it.id .channelFenced)
    ∧ (domUp s (dCg g) = true →
      (it.pkt.opByte 8 = 1 → ctlBegin s it = chSettle ((ctlChans it.pkt).foldl enableCh y) g)
      ∧ (it.pkt.opByte 8 = 2 → ctlBegin s it = chSettle ((ctlChans it.pkt).foldl disableCh y) g)
      ∧ (it.pkt.opByte 8 = 3 → ctlBegin s it = ctlSettle (setFence y g true) g)
      ∧ (it.pkt.opByte 8 = 4 → ctlBegin s it = ctlSettle (setFence y g false) g)
      ∧ (it.pkt.opByte 8 = 0 ∨ 4 < it.pkt.opByte 8 → ctlBegin s it = endItem y it.id)))
  ∧ ∀ (s : State) (ch : Nat), ch < 48 →
    (s.power.phase = some .toReadyDrain → enableCh s ch = flag1 s F.chBusStatusEnRefused ch)
    ∧ (s.power.phase ≠ some .toReadyDrain →
    (rd s F.chCtlState ch = 2 → cgFenced s (ch / 4) = false → trained s ch = true →
      rd (enableCh s ch) F.chCtlState ch = 3 ∧ rdB (enableCh s ch) F.chCtlEnable ch = true)
    ∧ (rd s F.chCtlState ch = 2 → cgFenced s (ch / 4) = false → trained s ch = false →
      rd (enableCh s ch) F.chCtlState ch = 2 ∧ rdB (enableCh s ch) F.chCtlEnable ch = false
      ∧ rdB (enableCh s ch) F.chBusStatusEnRefused ch = true)
    ∧ (rd s F.chCtlState ch = 2 → cgFenced s (ch / 4) = true →
      rd (enableCh s ch) F.chCtlState ch = 2 ∧ rdB (enableCh s ch) F.chCtlEnable ch = true)
    ∧ (rd s F.chCtlState ch = 1 → cgFenced s (ch / 4) = false →
      rd (enableCh s ch) F.chCtlState ch = 1 ∧ rdB (enableCh s ch) F.chCtlPending ch = true)
    ∧ (rd s F.chCtlState ch = 1 → cgFenced s (ch / 4) = true →
      rd (enableCh s ch) F.chCtlState ch = 1 ∧ rdB (enableCh s ch) F.chCtlEnable ch = true
      ∧ rd (enableCh s ch) F.chCtlPending ch = rd s F.chCtlPending ch))
    ∧ (rd s F.chCtlState ch = 3 → disableCh s ch = startDrain (wr1 s F.chCtlEnable ch 0) ch
      ∧ fenceCh s ch = startDrain s ch)
    ∧ (rd s F.chCtlState ch = 1 → rd (disableCh s ch) F.chCtlState ch = 1 ∧ rdB (disableCh s ch) F.chCtlEnable ch = false
      ∧ rdB (disableCh s ch) F.chCtlPending ch = false)

/-- An item with FORWARD whose UNIT is another unit, 0 to 15: it is counted, and is put on the list for its unit while
this unit takes part in the ring and that one is present; else it ends FORWARD_FAIL with DELIVERY_UNKNOWN 0.
TICK_EFFECT: an item that waits for its tick takes effect once the fine time base can reach the tick; else nothing
changes. -/
def Obligations.ForwardedPacketsAndTimedItems : Prop :=
  (∀ (s : State) (it : Item), it.pkt.forward = true → it.pkt.unit.toNat ≤ 15 → it.pkt.unit.toNat ≠ hereAddr s →
    dispatch s it = forwardItem s it
    ∧ (let d := it.pkt.unit.toNat
       let y := tally (updItem s it.id (fun i => { i with stage := .forwarded })) 7
       (ringLive s = true → xrPresent s d = true →
         forwardItem s it = sendForwards (updPort y (fun r => { r with fwd := r.fwd ++ [{ item := it.id, dst := d }] })) d)
       ∧ (ringLive s = false ∨ xrPresent s d = false →
         forwardItem s it = endWith (updItem y it.id (fun i => { i with deliveryUnknown := false })) it.id .forwardFail)))
  ∧ ∀ (id : Nat) (s : State) (it : Item), findItem s id = some it → it.stage = .timed → domUp s dHk = true →
      (∀ s1, reach s (nsU * it.pkt.launchTick.toNat) = some s1 →
        exec (.tickEffect id) s =
          .next (effectRun (updItem s1 id (fun i => { i with doneTick := some it.pkt.launchTick.toNat })) it))
      ∧ (reach s (nsU * it.pkt.launchTick.toNat) = none → exec (.tickEffect id) s = .next s)

/-- A write of v to TB_SET that is taken: on the time master, or on a unit alone, the time base is v with a zero
fraction from the next AON edge on, and nothing else changes at the write. On any other unit it sets SET_REFUSED and
has no other effect. -/
def Obligations.TimeBaseSet : Prop :=
  ∀ (a : Acc) (v : W64) (s : State), Takes s (accessOf a (reg0 .tbSet) true v) →
    let s0 := answered s a (reg0 .tbSet) v
    (isMaster s = true ∨ ringAlone s = true →
      ∃ t, exec (.tbSetWrite a v) s = .next t ∧ t = { s0 with tbNext := t.tbNext }
        ∧ (aonTick t).tb = v.toNat * 2 ^ 16 ∧ (aonTick t).fine = v.toNat * 2 ^ 16 ∧ fineTick (aonTick t) = v.toNat)
    ∧ (isMaster s = false → ringAlone s = false →
      ∃ t, exec (.tbSetWrite a v) s = .next t ∧ rdB t F.tbStatusSetRefused = true ∧ t.tbNext = s.tbNext
        ∧ t = { s0 with regs := t.regs }
        ∧ ∀ n i j l, ¬(n = .tbStatus ∧ i = 0 ∧ j = 0 ∧ l = 0) → getR t n i j l = getR s n i j l)

/-- A write of RAND_KEY that is taken: while no channel of a powered group counts as enabled, KEY takes the value and
no other register and no other state changes. While one does, the write changes nothing. -/
def Obligations.RandKeyTakenOnlyWithNoChannelEnabled : Prop :=
  ∀ (a : Acc) (v : W32) (s : State), Takes s (accessOf a (reg0 .randKey) true (v.setWidth 64)) →
    let s0 := answered s a (reg0 .randKey) (v.setWidth 64)
    ((∀ ch, ch < 48 → domUp s (dCg (ch / 4)) = true → countsEnabled s ch = false) →
      ∃ t, exec (.randKeyWrite a v) s = .next t ∧ rd t F.randKeyKey = v.toNat ∧ t = { s0 with regs := t.regs }
        ∧ ∀ n i j l, ¬(n = .randKey ∧ i = 0 ∧ j = 0 ∧ l = 0) → getR t n i j l = getR s n i j l)
    ∧ (∀ ch, ch < 48 → domUp s (dCg (ch / 4)) = true → countsEnabled s ch = true →
      exec (.randKeyWrite a v) s = .next s0)

/-- With PD_HK up: when LEDGER_CUT rises with CUT_EN 1, or FORCE_ALT is written 1, the alternate budgets are asked for
and no hold runs; if they were not in force they begin. When the last of the two ends, a hold runs for CUT_HOLD_US, if
that is not 0. CUT_HOLD_EXPIRY ends the hold. The alternate budgets are in force while one of the two asks or the hold
runs. When they begin, CUT_SEEN is set, unused grants and set-asides return and the ledger orders suspends for
VCC_ALT. With PD_HK down only the pin changes. -/
def Obligations.AlternateBudgets : Prop :=
  (∀ (s : State) (v : Bool), exec (if v then .ledgerCutRise else .ledgerCutFall) s = .next (setCut s v)
      ∧ (setCut s v).power.cutPin = v
      ∧ (domUp s dHk = false → setCut s v = { s with power := { s.power with cutPin := v } }))
  ∧ (∀ (a : Acc) (v : W32) (s : State), Takes s (accessOf a (reg0 .lgCtl) true (v.setWidth 64)) → domUp s dHk = true →
      let s0 := answered s a (reg0 .lgCtl) (v.setWidth 64)
      exec (.forceAltWrite a v) s =
        .next (altChange (altActive s) (altAsked s) ((whole (reg0 .lgCtl) (v.setWidth 64)).plain s0)))
  ∧ (∀ s x : State,
      (altAsked x = true → altActive s = false →
        altChange (altActive s) (altAsked s) x = altBegins { x with ledger := { x.ledger with holdEnd := none } }
        ∧ altActive { x with ledger := { x.ledger with holdEnd := none } } = true)
      ∧ (altAsked x = true → altActive s = true →
        altChange (altActive s) (altAsked s) x = { x with ledger := { x.ledger with holdEnd := none } })
      ∧ (altAsked x = false → altAsked s = true →
        altChange (altActive s) (altAsked s) x =
          updLedger x (fun l => { l with holdEnd := if rd x F.lgCtlCutHoldUs = 0 then none else some (x.clk + usU * rd x F.lgCtlCutHoldUs) }))
      ∧ (altAsked x = false → altAsked s = false → altChange (altActive s) (altAsked s) x = x))
  ∧ (∀ (s : State), altActive s = (altAsked s || s.ledger.holdEnd.isSome)
      ∧ altAsked s = ((rdB s F.lgCtlCutEn && s.power.cutPin) || rdB s F.lgCtlForceAlt)
      ∧ altBegins s = orderSuspends (returnGrants (tally (flag0 s F.lgStatusCutSeen) 0x3b)) (rd s F.lgBudgetVccAlt))
  ∧ (∀ (s s1 : State) (t : Nat), s.ledger.holdEnd = some t → lapse s t = some s1 →
      exec .cutHoldExpiry s = .next { s1 with ledger := { s1.ledger with holdEnd := none } }
      ∧ (altAsked s = false → altActive { s1 with ledger := { s1.ledger with holdEnd := none } } = false))

/-- XR_CTL written with ENABLE changed turns the port on (STATE leaves OFF for TRAINING while HK3 works) or off (STATE
OFF, no lane up, not wrapped, not master). REENUM begins an enumeration on the head while its port works and is past
TRAINING: the head is to take address 0 once the frame returns, is ENUMERATING with REENUM 1 and sends ENUM with
address 0. RING_START on a unit that is not ledger master does nothing. On a master alone it is refused with
RING_REFUSED, and nothing else, when FLOOR exceeds RING_BUDGET or the coins held exceed FLOOR; else HOLDING becomes
FLOOR, the pool the rest of RING_BUDGET. -/
def Obligations.RingPortRows : Prop :=
  (∀ (a : Acc) (v : W32) (s : State), Takes s (accessOf a (reg0 .xrCtl) true (v.setWidth 64)) →
    let y := (whole (reg0 .xrCtl) (v.setWidth 64)).plain (answered s a (reg0 .xrCtl) (v.setWidth 64))
    let z := if v.getLsbD 0 = rdB s F.xrCtlEnable then y else portEnable y (v.getLsbD 0)
    exec (.ringPortEnable a v) s = .next (if v.getLsbD 1 then reenum z else z)
    ∧ (v.getLsbD 1 = true → exec (.reenumWrite a v) s = .next (reenum z)))
  ∧ (∀ s : State, (hk3Up s = true → xrState s = 0 → xrState (portEnable s true) = 1)
      ∧ xrState (portEnable s false) = 0 ∧ rdB (portEnable s false) F.xrStatusIn0Up = false
      ∧ rdB (portEnable s false) F.xrStatusIn1Up = false ∧ wrapped (portEnable s false) = false
      ∧ isMaster (portEnable s false) = false)
  ∧ (∀ s : State, (isHead s = false ∨ ringOn s = false ∨ xrState s = 1 → reenum s = s)
      ∧ (isHead s = true → ringOn s = true → xrState s ≠ 1 → reenum s = enumBegin s ∧ xrState (enumBegin s) = 2
          ∧ (enumBegin s).ring.enumAddr = some 0 ∧ rdB (enumBegin s) F.xrCtlReenum = true))
  ∧ (∀ (a : Acc) (v : W64) (s : State), Takes s (accessOf a (reg0 .lgRingCtl) true v) → v.getLsbD 33 = true → domUp s dHk = true →
      exec (.ringStartWrite a v) s =
        .next (ringStart ((whole (reg0 .lgRingCtl) v).plain (answered s a (reg0 .lgRingCtl) v))))
  ∧ (∀ s : State, (isMaster s = false → ringStart s = s)
      ∧ (isMaster s = true → (∀ k, k < 16 → xrPresent s k = true → k = hereAddr s) → ringEn s = true →
          (rd s F.lgRingCtlRingBudget < rd s F.lgRingCtlFloor ∨ rd s F.lgRingCtlFloor < vccHeld s →
            ringStart s = flag0 s F.lgStatusRingRefused)
          ∧ (rd s F.lgRingCtlFloor ≤ rd s F.lgRingCtlRingBudget → vccHeld s ≤ rd s F.lgRingCtlFloor →
            holding (ringStart s) = rd s F.lgRingCtlFloor
            ∧ rd (ringStart s) F.lgRingStatusPool = rd s F.lgRingCtlRingBudget - rd s F.lgRingCtlFloor
            ∧ (ringStart s).ledger.ringRun = true)))

/-- A write of 1 to HANDOVER outside STANDBY: with the follower's front end down it sets HANDOVER_REFUSED; during a
handover it has no effect; else HANDOVER reads 1 and accesses to the shared regions wait. In STANDBY it is refused.
HANDOVER_INVERT inverts OWNER, clears HANDOVER and has the new owner apply what was held; when the old owner claims at
that moment, OWNER_PREF decides, OWNER_CONFLICT is set and YIELDED_HALF is the other half. With no handover in
progress it changes nothing. -/
def Obligations.HandoverOfOwnership : Prop :=
  (∀ (a : Acc) (v : W32) (s : State), Takes s (accessOf a (reg0 .ownerCtl) true (v.setWidth 64)) → v.getLsbD 1 = true →
    let y := (whole (reg0 .ownerCtl) (v.setWidth 64)).plain (answered s a (reg0 .ownerCtl) (v.setWidth 64))
    (s.power.mode = .standby → exec (.handoverRequest a v) s = .next (flag0 y F.ownerCtlHandoverRefused))
    ∧ (s.power.mode ≠ .standby → s.host.handover = true → exec (.handoverRequest a v) s = .next y)
    ∧ (s.power.mode ≠ .standby → s.host.handover = false → feUp s (1 - owner s) = false →
        exec (.handoverRequest a v) s = .next (flag0 y F.ownerCtlHandoverRefused))
    ∧ (s.power.mode ≠ .standby → s.host.handover = false → feUp s (1 - owner s) = true →
        ∃ t, exec (.handoverRequest a v) s = .next t ∧ rdB t F.ownerCtlHandover = true ∧ t.host.handover = true
          ∧ owner t = owner s ∧ t.host.held = s.host.held
          ∧ ∀ r : Reg, inShared (regAddr r) = true → waitsOwner t r = true))
  ∧ (∀ s : State, (s.host.handover = false → exec .handoverInvert s = .next s)
      ∧ (s.host.handover = true → s.host.claims = false →
          exec .handoverInvert s = .next (applyHeld (endHandover (setOwner s (1 - owner s))))
          ∧ owner (endHandover (setOwner s (1 - owner s))) = 1 - owner s)
      ∧ (s.host.handover = true → s.host.claims = true → ∃ x,
          exec .handoverInvert s = .next (applyHeld x) ∧ owner x = rd s F.ownerCtlOwnerPref
          ∧ rdB x F.ownerCtlOwnerConflict = true ∧ rd x F.ownerCtlYieldedHalf = 1 - rd s F.ownerCtlOwnerPref
          ∧ rdB x F.ownerCtlHandover = false ∧ x.host.handover = false ∧ faultPin x = true))

/-- FRONT_END_STOP by power, reset or fence, FRONT_END_UP and a write of SVC_FE_CTL. What the stop of an up front end
does to ownership: the owner without handover sets OWNER_LOST, YIELDED_HALF and FAULT, and OWNER moves to the other
half if that is up, else shared-state requests are held. The follower's stop outside a handover does nothing; in a
handover it ends the handover as refused. The owner's stop in a handover lets it go on. A SVC_FE_CTL value with both
fences 1 is refused with REFUSED alone. -/
def Obligations.FrontEndsStopAndComeUp : Prop :=
  (∀ (h : Fin 2) (s : State),
      exec (.frontEndStop h .power) s = .next (pswDrops s (dFe h.val))
      ∧ (domUp s (dFe h.val) = true → exec (.frontEndStop h .reset) s = .next (loseFe s h.val))
      ∧ (domUp s (dFe h.val) = false → exec (.frontEndStop h .reset) s = .next s)
      ∧ exec (.frontEndStop h .fence) s = .next (setFeFences s (h = 0 || feFenced s 0) (h = 1 || feFenced s 1))
      ∧ (powered s (dFe h.val) = true → dFe h.val ∉ s.power.queue →
          exec (.frontEndUp h) s =
            .next (if domUp s (dFe h.val) then feBecomesUp s h.val else domainComesUp s (dFe h.val))))
  ∧ (∀ (a : Acc) (v : W32) (s : State), Takes s (accessOf a (reg0 .svcFeCtl) true (v.setWidth 64)) →
      ∃ y, exec (.svcFeFenceWrite a v) s = .next (setFeFences y (v.getLsbD 0) (v.getLsbD 1))
        ∧ feFenced y 0 = feFenced s 0 ∧ feFenced y 1 = feFenced s 1 ∧ owner y = owner s
        ∧ y = { answered s a (reg0 .svcFeCtl) (v.setWidth 64) with regs := y.regs })
  ∧ (∀ s : State, setFeFences s true true = flag0 s F.svcFeCtlRefused)
  ∧ (∀ (s : State) (h : Nat), h < 2 → feUp s h = true →
      let y := wr0 s (feUpFld h) 0
      feStop s h = ownerAfterStop (dcStop (dropFetches y h) h) h ∧ feUp y h = false)
  ∧ (∀ (s : State) (h : Nat), feUp s h = false → feStop s h = s)
  ∧ ∀ (s : State) (h : Nat), h < 2 →
      (s.host.handover = false → h = owner s → feUp s h = false →
        rdB (ownerAfterStop s h) F.ownerCtlOwnerLost = true ∧ rd (ownerAfterStop s h) F.ownerCtlYieldedHalf = h
        ∧ faultPin (ownerAfterStop s h) = true
        ∧ (feUp s (1 - h) = true → owner (ownerAfterStop s h) = 1 - h)
        ∧ (feUp s (1 - h) = false → owner (ownerAfterStop s h) = h ∧ linkHeld (ownerAfterStop s h) = true))
      ∧ (s.host.handover = false → h ≠ owner s → ownerAfterStop s h = s)
      ∧ (s.host.handover = true → h = owner s →
          ownerAfterStop s h = { s with host := { s.host with ownerStopped := true, claims := false } })
      ∧ (s.host.handover = true → h ≠ owner s → feUp s (owner s) = true → ∃ x, ownerAfterStop s h = applyHeld x
          ∧ rdB x F.ownerCtlHandoverRefused = true ∧ rdB x F.ownerCtlHandover = false ∧ owner x = owner s
          ∧ x.host.handover = false)

/-- A claim answers the lowest-numbered source pending for the target, and takes it into service; with none it answers
0x3FF and changes nothing. A completion of the source in service ends the service, and a level source shows its input
again; any other sets COMPLETE_ERR only. A write of IC_SRC sets SENSE and TARGETS, and PENDING of an edge source
becomes FORCE. A sampled input sets PENDING by level or edge. COAL_TIME past the first receipt sets IRQ_PEND. COUNT
takes the value written; SNAP_NOW copies the 64 counts and the tick and sets SNAP_DONE. -/
def Obligations.InterruptsAndTallies : Prop :=
  (∀ (a : Acc) (t : Fin 8) (s : State), Takes s (accessOf a (reg1 .icClaim t.val) false 0) →
    let s0 := { s with freeCtr := s.freeCtr + 1 }
    let n := irqLowest s t.val
    (n = 0x3ff → exec (.icClaimRead a t) s = .next (answer s0 (accessOf a (reg1 .icClaim t.val) false 0) .fresh rOkay 0x3ff))
    ∧ (n ≠ 0x3ff → irqPendFor s t.val n = true ∧ (∀ m, irqPendFor s t.val m = true → n ≤ m)
      ∧ ∃ x, exec (.icClaimRead a t) s =
          .next (answer x (accessOf a (reg1 .icClaim t.val) false 0) .fresh rOkay (BitVec.ofNat 64 n))
        ∧ x = { s0 with regs := x.regs } ∧ rdB x F.icSrcPending n = false ∧ rdB x F.icSrcInService n = true
        ∧ rd x F.icTgtStatusInService t.val = n))
  ∧ (∀ (a : Acc) (t : Fin 8) (v : W32) (s : State), Takes s (accessOf a (reg1 .icComplete t.val) true (v.setWidth 64)) →
    let s0 := answered s a (reg1 .icComplete t.val) (v.setWidth 64)
    let n := v.toNat % 1024
    (rd s F.icTgtStatusInService t.val = n → n ≠ 0x3ff → ∃ x, exec (.icCompleteWrite a t v) s = .next x
      ∧ rdB x F.icSrcInService n = false ∧ rd x F.icTgtStatusInService t.val = 0x3ff
      ∧ rd x F.icSrcPending n = (if rd s F.icSrcSense n = 0 then rd s F.icSrcInput n else rd s F.icSrcPending n)
      ∧ x = { s0 with regs := x.regs })
    ∧ (rd s F.icTgtStatusInService t.val ≠ n ∨ n = 0x3ff →
      exec (.icCompleteWrite a t v) s = .next (flag1 s0 F.icTgtStatusCompleteErr t.val)))
  ∧ (∀ (a : Acc) (n : Fin 512) (v : W32) (s : State), Takes s (accessOf a (reg1 .icSrc n.val) true (v.setWidth 64)) →
    ∀ c ∈ [Instr.icSenseWrite a n v, if v.getLsbD 19 then .icForceWrite a n v else .icSenseWrite a n v],
    ∃ x, exec c s = .next x ∧ x = { answered s a (reg1 .icSrc n.val) (v.setWidth 64) with regs := x.regs }
      ∧ rd x F.icSrcSense n.val = v.toNat % 4 ∧ rd x F.icSrcTargets n.val = v.toNat / 256 % 256
      ∧ rdB x F.icSrcPending n.val = (if v.toNat % 4 = 0 then rdB s F.icSrcInput n.val && !rdB s F.icSrcInService n.val
          else v.getLsbD 19)
      ∧ rd x F.icSrcInService n.val = rd s F.icSrcInService n.val)
  ∧ (∀ (n : Fin 512) (v : Bool) (s : State), domUp s dHk = true → irqDrive s n.val = v →
    let was := rdB s F.icSrcInput n.val
    let edge := (rd s F.icSrcSense n.val = 1 ∧ was = false ∧ v = true) ∨ (rd s F.icSrcSense n.val = 2 ∧ was = true ∧ v = false)
      ∨ (rd s F.icSrcSense n.val = 3 ∧ was ≠ v)
    ∃ x, exec (.interruptInputChange n v) s = .next x ∧ rdB x F.icSrcInput n.val = v ∧ x = { s with regs := x.regs }
      ∧ (rd s F.icSrcSense n.val = 0 → rdB x F.icSrcPending n.val = (v && !rdB s F.icSrcInService n.val))
      ∧ (edge → rdB x F.icSrcPending n.val = true)
      ∧ (rd s F.icSrcSense n.val ≠ 0 → ¬ edge → rdB x F.icSrcPending n.val = rdB s F.icSrcPending n.val))
  ∧ (∀ (k : Fin 256) (s s1 : State) (t : Nat), (getRing s k.val).firstAt = some t → rdB s F.ringCfgIrqEvery k.val = true →
    rd s F.irqCoalCoalTime k.val ≠ 0 → domUp s dHk = true → lapse s (t + usU * rd s F.irqCoalCoalTime k.val) = some s1 →
    exec (.coalTimeExpiry k) s = .next (flag1 s1 F.ringStatusIrqPend k.val))
  ∧ (∀ (a : Acc) (i : Fin 64) (v : W64) (s : State), Takes s (accessOf a (reg1 .tallyVal i.val) true v) →
    ∃ x, exec (.tallyCountWrite a i v) s = .next x ∧ rd x F.tallyValCount i.val = v.toNat % 2 ^ 48
      ∧ ∀ n j l m, ¬(n = .tallyVal ∧ j = i.val ∧ l = 0 ∧ m = 0) → getR x n j l m = getR s n j l m)
  ∧ (∀ (a : Acc) (v : W32) (s : State), Takes s (accessOf a (reg0 .tallySnapCtl) true (v.setWidth 64)) → v.getLsbD 0 = true →
    ∃ x, exec (.snapNowWrite a v) s = .next x ∧ rdB x F.tallySnapCtlSnapDone = true ∧ rd x F.tallySnapTickTick = fineTick s
      ∧ ∀ i, i < 64 → rd x F.tallySnapCount i = rd s F.tallyValCount i ∧ rd x F.tallyValCount i = rd s F.tallyValCount i)

/-- In canonical memory and with no flip armed: a line written with 64 bytes and a poison flag reads back exactly
these with no error, and any other line, stored elsewhere, keeps its stored bytes and its tags. The memory stays
canonical. -/
def Obligations.StagingMemoryReadsWhatWasWritten : Prop :=
  ∀ (s : State) (b ln : Nat) (d : List Byte) (p : Bool), s.staging.mem.wf = true → rdB s F.smFlipCtlArm = false → d.length = 64 →
    let t := writeLine s b ln d p
    readLine t b ln = { data := d, poison := p, st := t }
    ∧ (∀ n, n ≠ storedLine s b ln → lineBytes t n = lineBytes s n ∧ lineMeta t n = lineMeta s n)
    ∧ t.staging.mem.wf = true ∧ t = { s with staging := t.staging }

/-- SM_BANK_CTL (three rows): a change of ITEM_SLOTS, or of RETIRE to 1, is refused unless the bank is fenced with no
slot held: CFG_ERR is set and nothing else changes. Else the fields are taken, a change of RETIRE sets FENCE to the
RETIRE before it, and waiting requests are served. SM_REMAP is refused with CFG_ERR unless the bank is retired or
fenced and empty; a change clears the lines of the row named before, through the map before and after it, and of the
row named after. ARM of a flip mask stays 1. SLOT_GRANT serves the request at the head. A scrub visit goes on one
line, with a pass counted at the end. -/
def Obligations.StagingRegisterRows : Prop :=
  (∀ (a : Acc) (b : Fin 16) (v : W32) (s : State), Takes s (accessOf a (reg1 .smBankCtl b.val) true (v.setWidth 64)) →
    let s0 := answered s a (reg1 .smBankCtl b.val) (v.setWidth 64)
    let w := whole (reg1 .smBankCtl b.val) (v.setWidth 64)
    let quiet := rdB s F.smBankCtlFence b.val = true ∧ ∀ h ∈ s.staging.held, slotBank h.1 ≠ b.val
    let asks := w.changes s F.smBankCtlItemSlots = true ∨ (w.changes s F.smBankCtlRetire = true ∧ rdB s F.smBankCtlRetire b.val = false)
    ∀ c ∈ [Instr.smBankFenceWrite a b v, .smRetireWrite a b v, .itemSlotsWrite a b v],
      (asks → ¬ quiet → exec c s = .next (flag1 s0 F.smBankCtlCfgErr b.val))
      ∧ (¬ asks ∨ quiet → w.changes s F.smBankCtlRetire = false → exec c s = .next (slotServe (w.plain s0)))
      ∧ (¬ asks ∨ quiet → w.changes s F.smBankCtlRetire = true →
          exec c s = .next (slotServe (wr1 (w.plain s0) F.smBankCtlFence b.val (rd s F.smBankCtlRetire b.val)))))
  ∧ (∀ (a : Acc) (b : Fin 16) (e : Fin 8) (v : W32) (s : State),
      Takes s (accessOf a ⟨.smRemap, b.val, e.val, 0⟩ true (v.setWidth 64)) →
      let s0 := answered s a ⟨.smRemap, b.val, e.val, 0⟩ (v.setWidth 64)
      let w := whole ⟨.smRemap, b.val, e.val, 0⟩ (v.setWidth 64)
      (rdB s F.smBankCtlRetire b.val = false → bankQuiet s b.val = false →
        exec (.smRemapWrite a b e v) s = .next (flag1 s0 F.smBankCtlCfgErr b.val))
      ∧ (rdB s F.smBankCtlRetire b.val = true ∨ bankQuiet s b.val = true →
        (w.changes s F.smRemapRow = false → w.changes s F.smRemapSpare = false → w.changes s F.smRemapValid = false →
          exec (.smRemapWrite a b e v) s = .next (w.plain s0))
        ∧ (w.changes s F.smRemapRow = true ∨ w.changes s F.smRemapSpare = true ∨ w.changes s F.smRemapValid = true →
          exec (.smRemapWrite a b e v) s = .next (clearRow (clearRow
            (w.plain (clearRow s0 b.val (rd s F.smRemapRow b.val e.val))) b.val (rd s F.smRemapRow b.val e.val))
            b.val (w.get s F.smRemapRow)))))
  ∧ (∀ (s : State) (b row i : Nat), i < 64 → lineMeta (clearRow s b row) (storedLine s b (64 * row + i)) = {})
  ∧ (∀ (a : Acc) (v : W32) (s : State), Takes s (accessOf a (reg0 .smFlipCtl) true (v.setWidth 64)) → v.getLsbD 12 = true →
      ∃ x, exec (.smFlipArm a v) s = .next x ∧ rdB x F.smFlipCtlArm = true ∧ x = { answered s a (reg0 .smFlipCtl) (v.setWidth 64) with regs := x.regs })
  ∧ (∀ (a : Acc) (ch : Fin 48) (v : W32) (s : State), Takes s (accessOf a (reg1 .chFlipCtl ch.val) true (v.setWidth 64)) →
      v.getLsbD 16 = true → ∃ x, exec (.chFlipArm a ch v) s = .next x ∧ rdB x F.chFlipCtlArm ch.val = true
        ∧ x = { answered s a (reg1 .chFlipCtl ch.val) (v.setWidth 64) with regs := x.regs })
  ∧ (∀ s : State, domUp s dHk = true → exec .slotGrant s = .next (slotServe s))
  ∧ (∀ s : State, scrubOn s = true → parked s = false → exec .sramScrubVisit s = .next (scrubVisit s)
      ∧ (scrubVisit s).staging.scrubAt = (s.staging.scrubAt + 1) % 524288
      ∧ (s.staging.scrubAt % 524288 = 524287 → rd (scrubVisit s) F.smScrubPasses = (rd s F.smScrubPasses + 1) % 65536))

/-- A write of CH_CTL enables or disables its channel by R202; while a transition to READY is under way an enable sets
EN_REFUSED only. CG_FENCE sets or clears the fence. CHANNEL_DRAIN_END: a DRAINING channel with no launched item
becomes READY, which ends the CHANNEL_CTL items that wait for it, and then ENABLED at once if PENDING. INIT and INERT:
settings first, then INERT (refused while a channel is enabled or a bring-up runs), then INIT (refused for each cause
of R157). VDDQ_LOSS: the supply is low, and the channels of a powered group become INERT, READY and disabled.
BRINGUP_STEP_END ends the step in hand. -/
def Obligations.ChannelAndGroupRows : Prop :=
  (∀ (a : Acc) (ch : Fin 48) (v : W32) (s : State), Takes s (accessOf a (reg1 .chCtl ch.val) true (v.setWidth 64)) →
    let s0 := answered s a (reg1 .chCtl ch.val) (v.setWidth 64)
    (v.getLsbD 0 = true → exec (.chEnableWrite a ch v) s = .next (chSettle (enableCh s0 ch.val) (ch.val / 4))
      ∧ (s.power.phase = some .toReadyDrain → enableCh s0 ch.val = flag1 s0 F.chBusStatusEnRefused ch.val))
    ∧ (v.getLsbD 0 = false → exec (.chDisableWrite a ch v) s = .next (chSettle (disableCh s0 ch.val) (ch.val / 4))))
  ∧ (∀ (a : Acc) (g : Fin 12) (v : W32) (s : State), Takes s (accessOf a (reg1 .cgFence (4 * g.val)) true (v.setWidth 64)) →
    exec (.cgFenceWrite a g v) s = .next (setFence (answered s a (reg1 .cgFence (4 * g.val)) (v.setWidth 64)) g.val (v.getLsbD 0)))
  ∧ (∀ (ch : Fin 48) (s : State), (rd s F.chCtlState ch.val ≠ 1 ∨ s.items.any (drainsFor ch.val) = true → exec (.channelDrainEnd ch) s = .next s)
    ∧ (rd s F.chCtlState ch.val = 1 → s.items.any (drainsFor ch.val) = false →
      let x := wr1 s F.chCtlState ch.val 2
      let y := ctlSettleOf x (ch.val / 4) (fun it => it.pkt.opByte 8 ≠ 1)
      rd x F.chCtlState ch.val = 2 ∧ exec (.channelDrainEnd ch) s = .next (chSettle
        (wr1 (if rdB s F.chCtlPending ch.val then wr1 y F.chCtlState ch.val 3 else y) F.chCtlPending ch.val 0) (ch.val / 4))))
  ∧ (∀ (a : Acc) (g : Fin 12) (v : W64) (s : State), Takes s (accessOf a (reg1 .cgPhy (4 * g.val)) true v) →
    let w := whole (reg1 .cgPhy (4 * g.val)) v
    let y := writeInert ((w.keeping F.cgPhyInert).plain (answered s a (reg1 .cgPhy (4 * g.val)) v)) g.val w
    (v.getLsbD 48 = true → exec (.initWrite a g v) s = .next (initStart y g.val))
    ∧ (v.getLsbD 53 = true → exec (.inertWrite a g v) s = .next (if v.getLsbD 48 then initStart y g.val else y)))
  ∧ (∀ (s : State) (g : Nat), g < 12 →
    (∀ w : RegWrite, w.one F.cgPhyInert = true → writeInert s g w = inertOn s g)
    ∧ ((chansOf g).any (countsEnabled s) = true ∨ (getGroup s g).bringup.isSome = true →
      inertOn s g = flag1 s F.cgPhyInitRefused (4 * g))
    ∧ ((chansOf g).any (countsEnabled s) = false → (getGroup s g).bringup = none → rdB s F.cgPhyInert (4 * g) = true → inertOn s g = s)
    ∧ ((chansOf g).any (countsEnabled s) = false → (getGroup s g).bringup = none → rdB s F.cgPhyInert (4 * g) = false → ∃ x,
      inertOn s g = chSettle x g ∧ rdB x F.cgPhyInert (4 * g) = true ∧ ∀ ch ∈ chansOf g, busState x ch = 0)
    ∧ ((chansOf g).any (countsEnabled s) = true ∨ s.power.supply.getLsbD (5 + g) = false ∨ (getGroup s g).bringup.isSome = true
        ∨ (rdB s F.cgPhyStopAtId (4 * g) = false ∧ rateOk s g = false) → initStart s g = flag1 s F.cgPhyInitRefused (4 * g)))
  ∧ (∀ (g : Fin 12) (s : State), ∃ y, y.power.supply.getLsbD (5 + g.val) = false
      ∧ y = { s with power := y.power, boot := if bootUses s g.val then { s.boot with vddqAt := none, upAt := none } else s.boot }
    ∧ (domUp s (dCg g.val) = false → exec (.vddqLoss g) s = .next y)
    ∧ (domUp s (dCg g.val) = true → exec (.vddqLoss g) s =
        .next (chSettle ((chansOf g.val).foldl loseChannel (groupInert (abandonAny y g.val) g.val true)) g.val)))
  ∧ (∀ (s : State) (ch : Nat), rd (loseChannel s ch) F.chCtlState ch = 2 ∧ rdB (loseChannel s ch) F.chCtlEnable ch = false
    ∧ rdB (loseChannel s ch) F.chCtlPending ch = false)
  ∧ (∀ (g : Fin 12) (r : BringResult) (s : State) (b : Bringup), (Instr.bringupStepEnd g r).wellFormed = true →
    (getGroup s g.val).bringup = some b → b.paused = false → engRunning s g.val r.c.val = true → parked s = false →
    ((b.step = 6 ∨ b.step = 0xd) → exec (.bringupStepEnd g r) s = .next (groupEnds s g.val b r.ok))
    ∧ (b.step ≠ 6 → b.step ≠ 0xd → ∀ ch k rest, b.left.find? (fun e => e.1 = 4 * g.val + r.c.val) = some (ch, k :: rest) →
        exec (.bringupStepEnd g r) s = .next (ceEnds s g.val b ch k r)))

/-- TEMP_UPDATE stores TEMP of a powered group, at most the end of the sensor's range, sets OVER_ALERT by its
hysteresis and TEMP_ALERT_N by that of every sensor, and orders a run when the conditions of R445 hold.
CAL_RETRY_EXPIRY ends the wait after a rejected run. CAL_FORCING_TIMEOUT makes a wait of 500 µs FORCING. CAL_BOUNDARY
applies staged trims and begins a pending run, 1 µs after the buses are free. CAL_RUN_END, 24 µs later, checks and
takes the trims. A trim register of a TRAINED channel is staged, during bring-up it is ignored with CAL_IGNORED, else
it is written. -/
def Obligations.CalibrationEvents : Prop :=
  (∀ (g : Fin 12) (t : BitVec 12) (s : State), (domUp s (dCg g.val) = false → exec (.tempUpdate g t) s = .next s)
    ∧ (domUp s (dCg g.val) = true → domUp s dHk = true → ∃ x, exec (.tempUpdate g t) s = .next (calEval x g.val)
      ∧ (let c : Int := max (-160) (min 600 t.toInt)
         let lim : Int := 4 * (rd s F.calAlertAlertC : Nat)
         rdInt x F.calGrpStatusTemp g.val = c
         ∧ x = { s with regs := x.regs, power := { s.power with alertLow := x.power.alertLow } }
         ∧ rdB x F.calGrpStatusOverAlert g.val = (decide (lim ≤ c) || (rdB s F.calGrpStatusOverAlert g.val && decide (lim - 8 < c)))
         ∧ (lim ≤ c → x.power.alertLow = true)
         ∧ ((∀ y ∈ sensors x, y + 8 ≤ lim) → x.power.alertLow = false))))
  ∧ (∀ (s : State) (g : Nat), (calWants s g = false → calEval s g = s)
    ∧ (hk1Up s = true → calWants s g = true → (getGroup s g).calPending = false → calState s g ≠ 3 → retryOver s g = true →
        calEval s g = calOrder (raiseTrap s 14 1 0xa) g)
    ∧ ((chansOf g).any (trained s) = true → (getGroup (calOrder s g) g).calPending = true
        ∧ (calState s g ≠ 2 ∨ (getGroup s g).staged = [] → calState (calOrder s g) g = 1)
        ∧ (calState s g = 2 → (getGroup s g).staged ≠ [] → calState (calOrder s g) g = 2)))
  ∧ (∀ (g : Fin 12) (s s1 : State) (t : Nat), (getGroup s g.val).retryUntil = some t → lapse s t = some s1 →
    exec (.calRetryExpiry g) s = .next (calEval (updGroup s1 g.val (fun x => { x with retryUntil := none })) g.val))
  ∧ (∀ (g : Fin 12) (s s1 : State), calWaits s g.val = true → hk1Up s = true → warn s = false → bringingUp s g.val = false →
    (calState s g.val < 2 → lapse s (500 * usU + (getGroup s g.val).trigAt) = some s1 →
      ∃ x, exec (.calForcingTimeout g) s = .next x ∧ calState x g.val = 2)
    ∧ (calState s g.val ≠ 3 → boundaryFree s g.val = true → lapse s (usU + (getGroup s g.val).freeSince) = some s1 →
      exec (.calBoundary g) s = .next (atBoundary s1 g.val)))
  ∧ (∀ (s : State) (g : Nat), ((getGroup (applyStaged s g) g).calPending = true → calState (atBoundary s g) g = 3)
    ∧ ((getGroup (applyStaged s g) g).calPending = false → calState (atBoundary s g) g = 0))
  ∧ (∀ (g : Fin 12) (r : List Trims) (s s1 : State), (Instr.calRunEnd g r).wellFormed = true → calState s g.val = 3 → hk1Up s = true →
    lapse s (24 * usU + (getGroup s g.val).trigAt) = some s1 → exec (.calRunEnd g r) s = .next (calFinish s1 g.val r))
  ∧ (∀ (s : State) (g c : Nat) (t : Trims), c < 4 →
    ((∀ x ∈ trimCodes s g c t, x.pass = true) →
      getR (calChannel s g c t) .calDqRd g c = t.dqRd ∧ getR (calChannel s g c t) .calDqWr g c = t.dqWr)
    ∧ ((∃ x ∈ trimCodes s g c t, x.pass = false) → rdB (calChannel s g c t) F.calGrpStatusCalReject g = true
      ∧ getR (calChannel s g c t) .calDqRd g c = getR s .calDqRd g c ∧ getR (calChannel s g c t) .calDrv g c = getR s .calDrv g c))
  ∧ (∀ (a : Acc) (t : TrimSel) (v : W64) (s : State), Takes s (accessOf a ⟨trimName t.reg, t.g.val, t.c.val, 0⟩ true v) →
    let s0 := answered s a ⟨trimName t.reg, t.g.val, t.c.val, 0⟩ v
    let m := accMask (trimName t.reg) .rw
    (busState s (4 * t.g.val + t.c.val) = 1 → exec (.trimWrite a t v) s = .next (flag1 s0 F.calGrpStatusCalIgnored t.g.val))
    ∧ (busState s (4 * t.g.val + t.c.val) ≠ 1 → busState s (4 * t.g.val + t.c.val) ≠ 3 → (getGroup s t.g.val).staged = [] →
      ∃ x, exec (.trimWrite a t v) s = .next x ∧ x = { s0 with regs := x.regs }
        ∧ getR x (trimName t.reg) t.g.val t.c.val = ((getR s (trimName t.reg) t.g.val t.c.val &&& ~~~m) ||| (v &&& m)))
    ∧ (busState s (4 * t.g.val + t.c.val) = 3 → ∃ x, exec (.trimWrite a t v) s = .next x
        ∧ getR x (trimName t.reg) t.g.val t.c.val = getR s (trimName t.reg) t.g.val t.c.val
        ∧ (rd x F.calGrpStatusStaged t.g.val).testBit t.c.val = true))

/-- ITEM_BECOMES_CANDIDATE, for a queued item with a LAUNCH_TICK whose tick less its lead (8,000 ticks; for a bounded
item the larger of that and SUSP_LEAD) comes by the next AON edge: the fine time base reaches that tick, nothing else
changes, and the item meets the tick condition of R172. ITEM_ARM, for the item offered on a free LUN of a channel that
may launch, whose tick less TICK_ARM comes by the next AON edge and whose tick has not come: the item is armed, the
gate of its channel holds the armed item of least tick, and a write of its read-level offsets is asked for where it
needs one. LAUNCH_GATE_OPEN at the tick of the item in the gate: where it does not stay armed, or a quiet window is
active, the item is disarmed with its set-asides gone and its channel's bus goes on; else it is armed no more and its
coins set aside become its own, its output pass starts, and it launches if its LUN is free and its coins are there.
ITEM_LAUNCH: the offered item asks for the bus, an offset write first where its sense needs one, or does its own
effect if it has no array phase; it changes nothing while the item's tick is not reached, it is armed, or its coins
are not granted. LEDGER_GRANT is one round: the requests presented are taken by class, then by age; one that is barred
passes; one that both ledgers fit is granted; one that a ledger does not fit holds back those behind it on that
ledger, if the whole budget would fit it. SUSPEND_ISSUE, where a suspend is due at the end of RUN_MIN, asks for the
bus with class 3 and raises its trap, and changes nothing where none is due. RESUME_ISSUE, where the array phase's
resume is due and its coins are granted, asks for the bus with class 6. -/
def Obligations.LaunchRows : Prop :=
  (∀ (id : Nat) (s : State) (it : Item), findItem s id = some it → it.stage = .queued → it.pkt.launchTick ≠ 0 →
    let t := nsU * (it.pkt.launchTick.toNat - tickLead s it)
    let s1 := { s with fine := max s.fine t, clk := s.clk + (t - s.fine) }
    t ≤ nextEdge s → exec (.itemBecomesCandidate id) s = .next s1
      ∧ (s1.fine < 2 ^ 80 → it.pkt.launchTick.toNat ≤ fineTick s1 + tickLead s1 it)
      ∧ tickLead s it = (if it.pkt.bounded then max 8000 (1000 * rd s F.chSchedSuspLeadUs it.lun.ch) else 8000))
  ∧ (∀ (id : Nat) (s : State) (it o : Item), findItem s id = some it → it.stage = .queued → it.pkt.launchTick ≠ 0 → it.armed = false →
    let t := nsU * (it.pkt.launchTick.toNat - tickArm s)
    let s1 := { s with fine := max s.fine t, clk := s.clk + (t - s.fine) }
    let y := setGate (updItem s1 it.id (fun i => { i with armed := true })) it.lun.ch
    let i1 := { it with armed := true }
    t ≤ nextEdge s → fineTick s1 < it.pkt.launchTick.toNat → offered s1 it.lun = some o → o.id = id → lunFree s1 it.lun it = true →
    mayLaunch s1 it.lun.ch = true → tickQuiet s1 it = false → busyWant s1 it = false →
    exec (.itemArm id) s = .next (kickBus (if it.phase = .sense ∧ needsOffs y i1 = true ∧ busyWant y i1 = false
        then wantBus y (offsTenure y i1) else y) it.lun.ch)
      ∧ findItem y id = some i1 ∧ ∃ g, (getCh y it.lun.ch).gate = some g ∧ ∃ j ∈ y.items, j.id = g ∧ j.armed = true ∧ j.lun.ch = it.lun.ch
          ∧ ∀ k ∈ y.items, k.armed = true → k.lun.ch = it.lun.ch → j.pkt.launchTick.toNat ≤ k.pkt.launchTick.toNat)
  ∧ (∀ (ch : Fin 48) (s : State) (it : Item), (getCh s ch.val).gate.bind (findItem s) = some it →
    let t := nsU * it.pkt.launchTick.toNat
    let s1 := { s with fine := max s.fine t, clk := s.clk + (t - s.fine) }
    t ≤ nextEdge s → it.pkt.launchTick.toNat ≤ fineTick s1 →
    (staysArmed s1 it = false ∨ quietActive s1 = true → exec (.launchGateOpen ch) s = .next (kickBus (disarm s1 it) it.lun.ch)
      ∧ (∀ i, findItem (disarm s1 it) it.id = some i → i.armed = false) ∧ (∀ c ∈ (disarm s1 it).ledger.coins, c.item = some it.id → c.sort ≠ .aside)
      ∧ (∀ a ∈ (disarm s1 it).ledger.asks, a.item = it.id → a.kind ≠ .aside))
    ∧ (staysArmed s1 it = true → quietActive s1 = false → exec (.launchGateOpen ch) s = .next (openGate s1 it)
      ∧ ∃ y, (∀ i, findItem y it.id = some i → i.armed = false) ∧ (∀ a ∈ y.ledger.asks, a.item = it.id → a.kind ≠ .aside)
        ∧ (∀ c ∈ y.ledger.coins, c.item = some it.id → c.sort ≠ .aside) ∧ let z := startPass y it
          openGate s1 it = if busyWant z it = false ∧ launchFree z it.lun it = true ∧ (it.phase = .none ∨ isGranted z it.id = true)
            then launchItem z it else z))
  ∧ (∀ (l : LunSel) (s : State) (it : Item), offered s (lunOf l) = some it → mayLaunchItem s it = true →
    launchFree s (lunOf l) it = true → tickReached s it = true → it.armed = false → busyWant s it = false →
    (it.phase = .none ∨ isGranted s it.id = true) →
    (it.phase ≠ .none → exec (.itemLaunch l) s = .next (askBus s (launchTenure s it))
      ∧ (launchTenure s it).lun = it.lun ∧ (launchTenure s it).item = some it.id
      ∧ (launchTenure s it).kind = (if it.phase = .sense ∧ needsOffs s it = true then .feature else .launch))
    ∧ (it.phase = .none → exec (.itemLaunch l) s = .next (launchOther s it)
      ∧ (it.pkt.op = 0x09 → launchOther s it = askBus s { kind := .poll, lun := it.lun, item := some it.id, cls := if it.pkt.bounded then 3 else 4 })
      ∧ (it.pkt.op = 0x0a ∨ it.pkt.op = 0x0b → launchOther s it = askBus s (itemTenure s .feature it))
      ∧ (it.pkt.op = 0x0c → launchOther s it = askBus s (itemTenure s .reset it))
      ∧ (it.pkt.op = 0x0d → launchOther s it = askBus s (itemTenure s .routine it))))
  ∧ (∀ (s : State) (t : Tenure), askBus s t = kickBus (updCh s t.lun.ch (fun c => { c with want := c.want ++ [t] })) t.lun.ch)
  ∧ (∀ (l : LunSel) (s : State), (offered s (lunOf l) = none → exec (.itemLaunch l) s = .next s)
    ∧ (∀ it, offered s (lunOf l) = some it → (tickReached s it = false ∨ it.armed = true ∨ (it.phase ≠ .none ∧ isGranted s it.id = false)) →
        exec (.itemLaunch l) s = .next s))
  ∧ (∀ s : State, domUp s dHk = true → let s1 := present (refreshAsks (armedTurn s))
    ∃ r : Round, r = (roundOrder s1.ledger.asks).foldl roundStep { s := s1 }
      ∧ exec .ledgerGrant s = .next (kickAllBuses ((sortBy (fun a b => lunBefore a.lun b.lun) r.granted).foldl afterGrant r.s)))
  ∧ (∀ as : List Ask, (∀ a, a ∈ roundOrder as ↔ a ∈ as ∧ (a.since.isSome = true ∨ a.kind = .aside))
    ∧ (roundOrder as).Pairwise (fun a b => a.cls < b.cls ∨ (a.cls = b.cls ∧ a.since.getD 0 ≤ b.since.getD 0)))
  ∧ (∀ (r : Round) (a : Ask), (barred r.s a = true → roundStep r a = r)
    ∧ (barred r.s a = false → vccFits r.s (a.vcc.getD 0) = true → vccqFits r.s (a.vccq.getD 0) = true →
        (r.holdV = false ∨ a.vcc.getD 0 = 0) → (r.holdQ = false ∨ a.vccq.getD 0 = 0) →
        roundStep r a = { r with s := grantAsk r.s a, granted := r.granted ++ [a] }
        ∧ (grantAsk r.s a).ledger.coins = r.s.ledger.coins ++ grantCoins a ∧ ∀ b ∈ (grantAsk r.s a).ledger.asks, a.same b = false)
    ∧ (barred r.s a = false → a.kind ≠ .aside → vccFits r.s (a.vcc.getD 0) = false → (roundStep r a).s = r.s
        ∧ (roundStep r a).granted = r.granted ∧ (a.vcc.getD 0 ≤ vccBudget r.s → (roundStep r a).holdV = true))
    ∧ (barred r.s a = false → a.kind ≠ .aside → vccqFits r.s (a.vccq.getD 0) = false → (roundStep r a).s = r.s
        ∧ (roundStep r a).granted = r.granted ∧ (a.vccq.getD 0 ≤ vccqBudget r.s → (roundStep r a).holdQ = true)))
  ∧ (∀ (l : LunSel) (s : State),
    let t := (getLun s (lunOf l)).phaseStart + usU * rd s F.chSchedRunMinUs l.ch.val
    let s1 := { s with fine := s.fine + (t - s.clk), clk := max s.clk t }
    dueClk s t = true →
    (suspendDue s1 (lunOf l) = true → exec (.suspendIssue l) s =
      .next (askBus (raiseSeq s1 l.ch.val 4) { kind := .suspend, lun := lunOf l, item := none, cls := 3 }))
    ∧ (suspendDue s1 (lunOf l) = false → exec (.suspendIssue l) s = .next s))
  ∧ (∀ (l : LunSel) (s : State) (it : Item), arrayItem s (lunOf l) = some it → resumeDue s (lunOf l) = true →
    hasCoin s it.id .granted = true → busyWant s it = false → exec (.resumeIssue l) s =
      .next (askBus s { kind := .resume, lun := lunOf l, item := some it.id, cls := 6 }))

/-- POLL_DUE at the LUN's poll time, and a rise of RB_N for each LUN mapped to the line that waits for a poll or has
one on the bus, ask for a poll with class 2; the rise also raises trap RB_EDGE where a LUN is mapped. POLL_COMPLETE
frees the bus, ends a STATUS item with the byte, or takes the byte into what runs on the LUN (a sense or erase ends at
ARDY, a suspend at RDY and ARDY, another operation at RDY, else it is polled again), and the bus goes on.
DIE_TIMEOUT_EXPIRY at the phase's limit halts the LUN, leaves it no poll, and ends the items it served DIE_TIMEOUT.
BUS_TENURE_END frees the bus, does what ends with the tenure of its kind, and the bus goes on, a suspend ordered
meanwhile first; data of another length are no command of the row. TRANSFER_END frees the bus, gives back the VCCQ
coins, leaves the LUN holding its page from now, and lands the data. DECODE_HOLD_EXPIRY at the end of HOLD_US marks
the hold expired and frees the LUN. ROUTINE_END runs the routine: at ROUTINE_END the item ends with S0 as its result,
at a word that stops the sequencer it is a machine check, and neither changes nothing. ROUTINE_TIMEOUT at TO_OTHER_US
halts the LUN and ends the item DIE_TIMEOUT. -/
def Obligations.LunAndBusRows : Prop :=
  (∀ (l : LunSel) (s : State) (t : Nat), (getLun s (lunOf l)).pollAt = some t → dueClk s t = true →
    let s1 := { s with fine := s.fine + (t - s.clk), clk := max s.clk t }
    exec (.pollDue l) s = .next (askBus (updLun s1 (lunOf l) (fun st => { st with pollAt := none })) { kind := .poll, lun := lunOf l, cls := 2 }))
  ∧ (∀ (ch : Fin 48) (line : Fin 4) (s : State), domUp s (dCg (ch.val / 4)) = true →
    let mapped := (lunsOf s ch.val).filter (onLine s line.val)
    exec (.rbNRise ch line) s = .next ((mapped.filter (fun l => (getLun s l).pollAt.isSome
        || (getCh s l.ch).bus.any (fun t => t.kind = .poll && t.lun = l))).foldl
      (fun x l => askBus (updLun x l (fun st => { st with pollAt := none })) { kind := .poll, lun := l, cls := 2 })
      (if mapped.isEmpty then s else raiseSeq s ch.val 5)))
  ∧ (∀ (ch : Fin 48) (line : Fin 4) (s : State), domUp s (dCg (ch.val / 4)) = false → exec (.rbNRise ch line) s = .next s)
  ∧ (∀ (s : State) (ch : Nat), (getCh (clearBus s ch) ch).bus = none)
  ∧ (∀ (ch : Fin 48) (st : Byte) (s : State) (t : Tenure), (getCh s ch.val).bus = some t → t.kind = .poll →
    let y := clearBus s ch.val
    (∀ it, t.item.bind (findItem y) = some it → it.pkt.op = 9 →
      let z := setDie (if stArdy st then releaseStale y it.lun else y) (some it.id) st
      exec (.pollComplete ch st) s = .next (kickBus (issueOrdered (endItem (idleLun z it.lun) it.id) ch.val) ch.val)
      ∧ ∀ i, findItem z it.id = some i → i.dieStatus = st)
    ∧ ((∀ it, t.item.bind (findItem y) = some it → it.pkt.op ≠ 9) →
      let x := getLun y t.lun
      let z := setDie (if stArdy st then releaseStale y t.lun else y) (servedBy x) st
      exec (.pollComplete ch st) s = .next (kickBus (issueOrdered (pollResult y t.lun st) ch.val) ch.val)
      ∧ (x.act = .sense → pollResult y t.lun st = if stArdy st then senseEnds z t.lun else pollAgain z t.lun)
      ∧ (x.act = .program → pollResult y t.lun st = programPoll z t.lun st)
      ∧ (x.act = .erase → pollResult y t.lun st = if stArdy st then phaseEnds z t.lun (stFail st) else pollAgain z t.lun)
      ∧ (x.act = .suspending → pollResult y t.lun st = if stRdy st && stArdy st then suspendEnds z t.lun else pollAgain z t.lun)
      ∧ (x.act = .other → pollResult y t.lun st = if stRdy st then otherEnds z t.lun else pollAgain z t.lun)))
  ∧ (∀ (l : LunSel) (s : State) (t : Nat), timeoutAt s (lunOf l) = some t → dueClk s t = true → domUp s (dCg (l.ch.val / 4)) = true →
    let s1 := { s with fine := s.fine + (t - s.clk), clk := max s.clk t }
    ∃ y, exec (.dieTimeoutExpiry l) s = .next (kickBus (endAll y (timedOut (getLun s1 (lunOf l))) .dieTimeout) l.ch.val)
      ∧ (getLun y (lunOf l)).halted = true ∧ (getLun y (lunOf l)).pollAt = none ∧ (getLun y (lunOf l)).chain = none)
  ∧ (∀ (ch : Fin 48) (data : List Byte) (s : State) (t : Tenure), (getCh s ch.val).bus = some t → t.kind ≠ .dataOut → t.kind ≠ .poll →
    (data.length = (if t.kind = .getData then 4 else 0) →
      let y := endTenure (clearBus s ch.val) t data
      let z := if warn y ∧ t.kind = .resume then updLun y t.lun (fun st => { st with suspWant := true }) else y
      exec (.busTenureEnd ch data) s = .next (kickBus (issueOrdered
        (issueFirst (if t.kind = .launch ∨ t.kind = .resume then repick z else z) t) ch.val) ch.val))
    ∧ (data.length ≠ (if t.kind = .getData then 4 else 0) → exec (.busTenureEnd ch data) s = .fault .illFormed))
  ∧ (∀ (y : State) (t : Tenure) (data : List Byte), let o := t.item.bind (findItem y)
    (t.kind = .suspend → endTenure y t data = setPoll y t.lun (pollInterval y t.lun))
    ∧ (t.kind = .resume → endTenure y t data = endResume y t.lun ∧ (getLun (endResume y t.lun) t.lun).susp = 0)
    ∧ (t.kind = .routine → endTenure y t data = y)
    ∧ (t.kind = .feature ∨ t.kind = .reset → endTenure y t data =
        setPoll (updLun y t.lun (fun st => { st with phaseStart := y.clk, ranBefore := 0 })) t.lun (pollInterval y t.lun))
    ∧ (∀ it, o = some it → t.kind = .launch → endTenure y t data = endLaunch y it)
    ∧ (∀ it, o = some it → t.kind = .getData → endTenure y t data = endItem (freeLun
        (updItem y it.id (fun i => { i with result := BitVec.ofNat 32 (leNat (data.take 4)) })) it.lun) it.id))
  ∧ (∀ (ch : Fin 48) (data : List Byte) (s : State) (t : Tenure) (it : Item), (getCh s ch.val).bus = some t → t.kind = .dataOut →
    t.item.bind (findItem s) = some it →
    (data.length = xferLen s it → ∃ y, exec (.transferEnd ch data) s = .next (kickBus
        (if bitOf (rd s F.chFifoCtlDbgEn ch.val) 2 then updFifo y ch.val 2 (fun f => { f with parked :=
          f.parked ++ [{ dma := 0, item := it.id, page := 0, q := 0, data := data, poison := [] }] }) else landData y it data) ch.val)
      ∧ (∀ i, findItem y it.id = some i → i.xferDone = true ∧ i.stage = .decode) ∧ (getLun y it.lun).act = .hold
      ∧ (getLun y it.lun).holdStart = some s.clk ∧ (getCh y ch.val).bus = none
      ∧ y.ledger.coins = s.ledger.coins.filter (fun c => !(c.item = some it.id && isCharged c && c.q)))
    ∧ (data.length ≠ xferLen s it → exec (.transferEnd ch data) s = .fault .illFormed))
  ∧ (∀ (l : LunSel) (s : State) (t : Nat) (it : Item), (getLun s (lunOf l)).act = .hold → (getLun s (lunOf l)).holdStart = some t →
    (getLun s (lunOf l)).cur.bind (findItem s) = some it →
    let u := t + usU * rd s F.classCfg1HoldUs it.cls
    let s1 := { s with fine := s.fine + (u - s.clk), clk := max s.clk u }
    dueClk s u = true → exec (.decodeHoldExpiry l) s = .next (kickBus (holdExpire s1 (lunOf l)) l.ch.val)
      ∧ let y := freeLun (tallyC (updItem s1 it.id (fun i => { i with holdExpired := true })) 0x2d it.cls) (lunOf l)
        ((it.escWant = false ∨ it.escDone = true ∨ it.stage ≠ .needXfer) → holdExpire s1 (lunOf l) = y)
        ∧ (it.escWant = true → it.escDone = false → it.stage = .needXfer → holdExpire s1 (lunOf l) =
          toHead (updCh (returnUnused y it.id) l.ch.val (fun c => { c with want := c.want.filter (fun t => t.item ≠ some it.id) })) it .again))
  ∧ (∀ (ch : Fin 48) (s : State) (it : Item), (getCh s ch.val).routine.bind (findItem s) = some it →
    let s1 := microByRom s (ch.val / 4) (ch.val % 4)
    (∀ r, routineRun s1 it (routineWords s ch.val) = .ended r → ∃ y b, exec (.routineEnd ch) s = .next (kickBus (endItem y it.id) ch.val)
      ∧ (∀ i, findItem y it.id = some i → i.result = r.m.sreg 0 ∧ i.dieStatus = b) ∧ (getCh y ch.val).routine = none)
    ∧ (∀ cause par r, routineRun s1 it (routineWords s ch.val) = .fault cause par r → exec (.routineEnd ch) s =
        .next (machineCheckIn (tallyEvents { s1 with freeCtr := r.ctr + 2 } ch.val r.evts) (ch.val / 4) (ch.val % 4) cause par r.m))
    ∧ (∀ r, routineRun s1 it (routineWords s ch.val) = .going r → exec (.routineEnd ch) s = .next s))
  ∧ (∀ (ch : Fin 48) (s : State) (it : Item), (getCh s ch.val).routine.bind (findItem s) = some it →
    let u := (getLun s it.lun).phaseStart + limitOf (rd s F.chTimeoutToOtherUs ch.val)
    let s1 := { s with fine := s.fine + (u - s.clk), clk := max s.clk u }
    dueClk s u = true → ∃ y, exec (.routineTimeout ch) s = .next (kickBus (endWith y it.id .dieTimeout) ch.val)
      ∧ (getLun y it.lun).halted = true ∧ (getCh y ch.val).routine = none
      ∧ y = updLun (routineOff (raiseSeq s1 ch.val 3) ch.val it.lun) it.lun (fun st => { st with halted := true }))

/-- DE_CTL: ENABLE 1 with FENCE 0 makes a READY engine ENABLED and sets PENDING of a draining one; any other value
makes an ENABLED engine DRAINING while it has a job, else READY, and clears PENDING. ENGINE_DRAIN_END: READY, or
ENABLED if PENDING. A fault sets FAULT, clears ENABLE and PENDING, makes the engine READY and puts its job at the head
of the jobs; no item ends. A claim takes the job of R132 into the engine; where there is none nothing changes. The end
of a local, global or soft decode, whose result is one of the kind's, frees the engine, marks the item decoded, adds
its iterations to the item's, and settles the item: while jobs of it are open nothing further; with no quarter failing
the read has passed; a margin read that is all decoded locally ends. Another result is no command of the row. DEC_CTL
takes its fields and changes nothing else. A ladder step that is due takes its register once and asks for its sense,
as a margin read that is due does. -/
def Obligations.DecodeEngineRows : Prop :=
  (∀ (a : Acc) (e : Fin 40) (v : W32) (s : State), Takes s (accessOf a (reg1 .deCtl e.val) true (v.setWidth 64)) →
    let y := (whole (reg1 .deCtl e.val) (v.setWidth 64)).plain (answered s a (reg1 .deCtl e.val) (v.setWidth 64))
    let on := v.getLsbD 0 && !v.getLsbD 1
    ∃ x, exec (.deCtlWrite a e v) s = .next x ∧ x = { y with regs := x.regs }
      ∧ rdB x F.deCtlEnable e.val = v.getLsbD 0 ∧ rdB x F.deCtlFence e.val = v.getLsbD 1
      ∧ (on = true → rd s F.deCtlState e.val = 2 → rd x F.deCtlState e.val = 3)
      ∧ (on = true → rd s F.deCtlState e.val = 1 → rd x F.deCtlState e.val = 1 ∧ rdB x F.deCtlPending e.val = true)
      ∧ (on = false → rdB x F.deCtlPending e.val = false
        ∧ (rd s F.deCtlState e.val = 3 → rd x F.deCtlState e.val = (if (engineJob s e.val).isSome then 1 else 2))
        ∧ (rd s F.deCtlState e.val ≠ 3 → rd x F.deCtlState e.val = rd s F.deCtlState e.val)))
  ∧ (∀ (a : Acc) (v : W32) (s : State), Takes s (accessOf a (reg0 .decCtl) true (v.setWidth 64)) → ∃ x,
      exec (.poolFenceWrite a v) s = .next x ∧ poolFenced x 0 = v.getLsbD 0 ∧ poolFenced x 1 = v.getLsbD 1
      ∧ x = { answered s a (reg0 .decCtl) (v.setWidth 64) with regs := x.regs }
      ∧ ∀ n i j l, n ≠ .decCtl → getR x n i j l = getR s n i j l)
  ∧ (∀ (e : Fin 40) (s : State), domUp s (dDp (e.val / 20)) = true →
      (rd s F.deCtlState e.val = 1 → engineJob s e.val = none → ∃ x, exec (.engineDrainEnd e) s = .next x
        ∧ x = { s with regs := x.regs } ∧ rdB x F.deCtlPending e.val = false
        ∧ rd x F.deCtlState e.val = (if rdB s F.deCtlPending e.val then 3 else 2))
      ∧ (∃ x, exec (.decodeEngineFault e) s = .next x ∧ rdB x F.deCtlFault e.val = true ∧ rdB x F.deCtlEnable e.val = false
        ∧ rdB x F.deCtlPending e.val = false ∧ rd x F.deCtlState e.val = 2 ∧ engineJob x e.val = none
        ∧ (∀ j, engineJob s e.val = some j → x.jobs = j :: s.jobs) ∧ x.items = s.items))
  ∧ (∀ (e : Fin 40) (s : State), parked s = false →
      (claimOf s e.val = none → exec (.decodeJobClaim e) s = .next s)
      ∧ (∀ j, claimOf s e.val = some j → ∃ x, exec (.decodeJobClaim e) s = .next x ∧ engineJob x e.val = some j
        ∧ x.jobs = s.jobs.erase j))
  ∧ (∀ (e : Fin 40) (r : DecodeResult) (s : State) (j : Job), engineJob s e.val = some j → parked s = false → resultOk s j r = true →
      let y := releaseEngine s e.val j r.iters
      engineJob y e.val = none ∧
      ∀ it, findItem y j.item = some it →
        (∀ q, j.kind = .loc q → exec (.localDecodeEnd e r) s = .next (settleLocal (localResult y it j.page q r) it.id)
          ∧ ∀ i, findItem (localResult y it j.page q r) it.id = some i → i.decoded = true ∧ i.iters = it.iters + r.iters)
        ∧ (j.kind = .glob → exec (.globalDecodeEnd e r) s = .next (settleGlobal (pageResult y it j.page false r) it.id)
          ∧ ∀ i, findItem (pageResult y it j.page false r) it.id = some i → i.decoded = true ∧ i.iters = it.iters + r.iters)
        ∧ (j.kind = .soft → exec (.softDecodeEnd e r) s = .next (settleSoft (pageResult y it j.page true r) it.id)
          ∧ ∀ i, findItem (pageResult y it j.page true r) it.id = some i → i.decoded = true ∧ i.iters = it.iters + r.iters))
  ∧ (∀ (e : Fin 40) (r : DecodeResult) (s : State) (j : Job), engineJob s e.val = some j → parked s = false → resultOk s j r = false →
      (∀ q, j.kind = .loc q → exec (.localDecodeEnd e r) s = .fault .illFormed)
      ∧ (j.kind = .glob → exec (.globalDecodeEnd e r) s = .fault .illFormed) ∧ (j.kind = .soft → exec (.softDecodeEnd e r) s = .fault .illFormed))
  ∧ (∀ (y : State) (it : Item), findItem y it.id = some it →
      (jobsOpen y it.id = true → settleLocal y it.id = (cutDeliver y it).2 ∧ settleGlobal y it.id = (cutDeliver y it).2
        ∧ settleSoft y it.id = (cutDeliver y it).2)
      ∧ (jobsOpen y it.id = false → it.sense = .margin → settleLocal y it.id = marginEnd y it)
      ∧ (jobsOpen y it.id = false → it.sense ≠ .margin → failingOf it = [] → settleLocal y it.id = readPassed y it)
      ∧ (jobsOpen y it.id = false → failingOf it = [] → settleGlobal y it.id = readPassed y it))
  ∧ (∀ (id : Nat) (s : State) (it : Item), findItem s id = some it → senseDue s it = true →
      (∀ n, it.sense = .ladder n 0 → exec (.ladderStepBegin id) s =
        .next (askLaunch (updItem s id (fun _ => it.readStep s n)) (it.readStep s n))
        ∧ (it.readStep s n).softStep = n ∧ (it.softStep ≠ n → (it.readStep s n).softUsed = 0))
      ∧ (it.sense = .margin → exec (.marginReadLaunch id) s = .next (askLaunch s it)))

/-- A write of DC_CTL that changes MODE or SERVES while the channel is not disabled and READY sets CFG_ERR and keeps
both; then ENABLE acts: READY with a legal mode enables, with MODE 0 or 3, or a ring size outside 4 to 16, is refused;
an ENABLED channel drains; a draining one sets or clears PENDING. DC_KICK with a descriptor fetch out is remembered,
else the channel fetches. In CH_FIFO_CTL a flush, or a bit of DBG_EN that becomes 1, needs the channel READY, else it
is refused with REFUSED; a bit that becomes 0 gives the FIFO back to its consumer. An accepted flush acts at once
where no packet is in progress, else its bit stays 1 until the packet boundary; it makes the pointers equal and
discards every packet. A pop of a FIFO answers, whole or its low half, the next 64-bit word, and the consumer moves on
after the eighth word of a line; of an empty one the word popped last, with UNDERRUN; of one that is not detached 0.
DMA_CHANNEL_DRAIN_END, with nothing in progress: READY, then ENABLED if PENDING; else nothing changes. -/
def Obligations.DmaRegisterRows : Prop :=
  (∀ (a : Acc) (d : Fin 32) (v : W32) (s : State), Takes s (accessOf a (reg1 .dcCtl d.val) true (v.setWidth 64)) →
    let w := whole (reg1 .dcCtl d.val) (v.setWidth 64)
    ∃ y, (y = { answered s a (reg1 .dcCtl d.val) (v.setWidth 64) with regs := y.regs }
        ∧ rd y F.dcCtlState d.val = rd s F.dcCtlState d.val ∧ rd y F.dcCtlEnable d.val = rd s F.dcCtlEnable d.val
        ∧ rd y F.dcCtlPending d.val = rd s F.dcCtlPending d.val)
      ∧ (dcConfigurable s d.val = false → rd y F.dcCtlMode d.val = rd s F.dcCtlMode d.val
          ∧ rd y F.dcCtlServes d.val = rd s F.dcCtlServes d.val
          ∧ (w.changes s F.dcCtlMode = true ∨ w.changes s F.dcCtlServes = true → rdB y F.dcStatusCfgErr d.val = true))
      ∧ (v.getLsbD 0 = true → exec (.dcEnableWrite a d v) s = .next (dcWriteEnable y d.val true))
      ∧ (v.getLsbD 0 = false → exec (.dcDisableWrite a d v) s = .next (dcWriteEnable y d.val false)))
  ∧ (∀ (s : State) (d : Nat),
    (dcState s d = 2 → (dcMode s d = 0 ∨ dcMode s d = 3 ∨ (dcMode s d = 2 ∧ (ringLog2 s d < 4 ∨ 16 < ringLog2 s d))) →
      dcWriteEnable s d true = flag1 s F.dcStatusCfgErr d)
    ∧ (dcState s d = 2 → (dcMode s d = 1 ∨ (dcMode s d = 2 ∧ 4 ≤ ringLog2 s d ∧ ringLog2 s d ≤ 16)) → dcWriteEnable s d true = dcEnable s d)
    ∧ (dcState s d = 3 → dcWriteEnable s d false = dcEvict (wr1 (wr1 s F.dcCtlEnable d 0) F.dcCtlState d 1) d)
    ∧ (dcState s d = 1 → rdB (dcWriteEnable s d true) F.dcCtlPending d = true ∧ rdB (dcWriteEnable s d false) F.dcCtlPending d = false
      ∧ dcState (dcWriteEnable s d true) d = 1 ∧ dcState (dcWriteEnable s d false) d = 1))
  ∧ (∀ (d : Fin 32) (s : State), dmaUp s d.val = true →
    (dcState s d.val = 1 → dcBusy s d.val = false → exec (.dmaChannelDrainEnd d) s =
      .next (if rdB s F.dcCtlPending d.val then dcEnable (wr1 s F.dcCtlState d.val 2) d.val else wr1 s F.dcCtlState d.val 2))
    ∧ (dcState s d.val ≠ 1 ∨ dcBusy s d.val = true → exec (.dmaChannelDrainEnd d) s = .next s))
  ∧ (∀ (a : Acc) (d : Fin 32) (v : W32) (s : State), Takes s (accessOf a (reg1 .dcKick d.val) true (v.setWidth 64)) →
    let s0 := answered s a (reg1 .dcKick d.val) (v.setWidth 64)
    (v.getLsbD F.dcKickKick.lo = false → exec (.dcKickWrite a d v) s = .next s0)
    ∧ (v.getLsbD F.dcKickKick.lo = true → descFetching s d.val = true →
        exec (.dcKickWrite a d v) s = .next (updDma s0 d.val (fun x => { x with kicked := true })))
    ∧ (v.getLsbD F.dcKickKick.lo = true → descFetching s d.val = false →
        exec (.dcKickWrite a d v) s = .next (ringKick (wr1 s0 F.dcStatusIdleOwn d.val 0) d.val)))
  ∧ (∀ (a : Acc) (ch : Fin 48) (v : W32) (s : State), Takes s (accessOf a (reg1 .chFifoCtl ch.val) true (v.setWidth 64)) →
    let flush := (v >>> 8).toNat % 16
    let want := (whole (reg1 .chFifoCtl ch.val) (v.setWidth 64)).get s F.chFifoCtlDbgEn
    ∀ c ∈ [Instr.fifoDbgEnableWrite a ch v, if flush ≠ 0 then .fifoFlushWrite a ch v else .fifoDbgEnableWrite a ch v],
      (rd s F.chCtlState ch.val ≠ 2 → (flush ≠ 0 ∨ want ≠ rd s F.chFifoCtlDbgEn ch.val &&& want) → ∃ y,
        exec c s = .next (forNat 4 (fun x f => if bitOf (rd s F.chFifoCtlDbgEn ch.val) f ∧ ¬ bitOf (rd s F.chFifoCtlDbgEn ch.val &&& want) f
            then reattach x ch.val f else x) y)
        ∧ rdB y F.chFifoCtlRefused ch.val = true ∧ rd y F.chFifoCtlDbgEn ch.val = rd s F.chFifoCtlDbgEn ch.val &&& want
        ∧ y = { answered s a (reg1 .chFifoCtl ch.val) (v.setWidth 64) with regs := y.regs })
      ∧ (rd s F.chCtlState ch.val = 2 → ∃ y, rd y F.chFifoCtlDbgEn ch.val = want
        ∧ y = { answered s a (reg1 .chFifoCtl ch.val) (v.setWidth 64) with regs := y.regs }
        ∧ exec c s = .next (forNat 4 (fun x f => if bitOf (rd s F.chFifoCtlDbgEn ch.val) f ∧ ¬ bitOf want f then reattach x ch.val f else x)
            (forNat 4 (fun x f => if bitOf flush f then askFlush x ch.val f else x) y))))
  ∧ (∀ (s : State) (ch f : Nat), (packetOpen s ch f = false → askFlush s ch f = flushFifo s ch f)
    ∧ (packetOpen s ch f = true → askFlush s ch f = wr1 s F.chFifoCtlFlush ch (rd s F.chFifoCtlFlush ch ||| 2 ^ f))
    ∧ (fifoItems s ch f = [] → (getFifo (flushFifo s ch f) ch f).commit = (getFifo s ch f).wr ∧ (getFifo (flushFifo s ch f) ch f).cons = (getFifo s ch f).wr
      ∧ (getFifo (flushFifo s ch f) ch f).wr = (getFifo s ch f).wr ∧ (flushFifo s ch f).items = s.items))
  ∧ (∀ (a : Acc) (ch : Fin 48) (f : Fin 4) (s : State),
    let q := accessOf a ⟨.chFifoDbg, ch.val, f.val, 0⟩ false 0
    let p := fifoPop { s with freeCtr := s.freeCtr + 1 } ch.val f.val
    (Takes s q → exec (.fifoDbgPop a ch f true) s = .next (answer p.2 q .fresh rOkay p.1))
    ∧ (Takes s { q with size64 := false } → exec (.fifoDbgPop a ch f false) s = .next (answer
        { p.2 with host := { p.2.host with shadow := Tab.set p.2.host.shadow a.rid.toNat (q.addr.toNat / 8 * 8, (p.1 >>> 32).setWidth 32) } }
        { q with size64 := false } .fresh rOkay (p.1 &&& 0xffffffff#64))))
  ∧ (∀ (s : State) (ch f : Nat), let x := getFifo s ch f
    (bitOf (rd s F.chFifoCtlDbgEn ch) f = false → fifoPop s ch f = (0, s))
    ∧ (bitOf (rd s F.chFifoCtlDbgEn ch) f = true → x.commit = x.cons →
        fifoPop s ch f = (x.popped, wr s F.chFifoStatUnderrun ch f 0 1))
    ∧ (bitOf (rd s F.chFifoCtlDbgEn ch) f = true → x.commit ≠ x.cons →
        (fifoPop s ch f).1 = BitVec.ofNat 64 (leNat (slice (padTo 64 (Tab.get x.lines (x.cons.toNat % 512) {}).data) (8 * x.word) 8))
        ∧ (getFifo (fifoPop s ch f).2 ch f).cons = (if x.word = 7 then x.cons + 1 else x.cons)
        ∧ (getFifo (fifoPop s ch f).2 ch f).word = (if x.word = 7 then 0 else x.word + 1)))

/-- HOST_IN_COMMIT of a whole quarter, all of whose reads are done, commits its packet and hands it to the bank, or
parks it while the debug port has the consumer, and ends the entry. HOST_OUT_THRESHOLD fills the packet and moves it,
unless its FIFO is held by another channel or detached, or its list has yet to give its segments. PARITY_PASS_END
makes a program's data ready, or ends it DMA_FAULT for poison. DMA_MOVE_COMPLETE, once nothing of the move waits, ends
the descriptor or entry, or the item where the entry's list fails. A ring descriptor starts if OWN is 1 and the
channel is ENABLED, is left if it is not ENABLED, and stops the channel if OWN is 0; an error or poison sets
BUS_ERR_SEEN. A descriptor list piece runs the entry, or with an error or poison ends its item DMA_FAULT. A read beat
adds its data, with an error marks its read and is logged, and the last one completes the read. A write response takes
the oldest write with its ID, and is logged if it has an error. Credits add while PD_HK is up. In the undefined cases
of R373 a read with another count of beats returns free bytes, an unknown ID spoils at most bytes of outstanding reads
or answers the oldest write, and a count past 255 is free. -/
def Obligations.DataMovementRows : Prop :=
  (∀ (ch : Fin 48) (s : State) (d : Nat) (it : Item) (e : Entry), hostInDma s ch.val = some (d, it, e) →
    ((getFifo s ch.val 0).wr - (getFifo s ch.val 0).commit).toNat = 65 → readsOpen s it.id e = false → parked s = false →
    let x := fifoLines (getFifo s ch.val 0) (getFifo s ch.val 0).commit.toNat 65
    let y := updFifo s ch.val 0 (fun f => { f with commit := f.wr, holder := none })
    exec (.hostInCommit ch) s = .next (flushDue (entryEnds (if bitOf (rd s F.chFifoCtlDbgEn ch.val) 0 then
        updFifo y ch.val 0 (fun f => { f with parked := f.parked ++ [⟨d, it.id, e.page, e.q, x.1, x.2⟩] })
      else progArrived (updFifo y ch.val 0 (fun f => { f with cons := f.commit, word := 0, touched := false })) d it e x.1 x.2) d) ch.val))
  ∧ (∀ (s : State) (ch : Nat), rd s F.chFifoCtlFlush ch = 0 → flushDue s ch = s)
  ∧ (∀ (id : Nat) (s : State) (it : Item), findItem s id = some it → it.phase = .program → it.stage = .queued → it.dataReady = false →
    dataCommitted it = true → hasSlots it = true → parked s = false → domUp s (dCg (it.lun.ch / 4)) = true →
    exec (.parityPassEnd id) s = .next (if (parityPasses s it).1 then stopItem (parityPasses s it).2 id .dmaFault
      else updItem (parityPasses s it).2 id (fun i => { i with dataReady := true })))
  ∧ (∀ (ch : Fin 48) (s : State) (p : OutPkt) (it : Item) (e : Entry), hostOutDma s ch.val = some (p, it, e) → parked s = false →
    let y := hostOutFill s ch.val (entryLines it e).2
    let g := entrySegs y p.dma it e
    (hostOutHeld s ch.val = true ∨ bitOf (rd s F.chFifoCtlDbgEn ch.val) 3 = true ∨ (g.2.isSome = true ∧ (getDma s p.dma).stop = none) →
        exec (.hostOutThreshold ch) s = .next (flushDue y ch.val))
    ∧ (hostOutHeld s ch.val = false → bitOf (rd s F.chFifoCtlDbgEn ch.val) 3 = false → (g.2 = none ∨ (getDma s p.dma).stop ≠ none) →
        exec (.hostOutThreshold ch) s = .next (hostOutMove y ch.val p it e g.1)))
  ∧ (∀ (ch : Fin 48) (s : State), hostOutDma s ch.val = none → exec (.hostOutThreshold ch) s = .next s)
  ∧ (∀ (d : Fin 32) (s : State), parked s = false → dmaUp s d.val = true →
    (∀ r, (getDma s d.val).desc = some r → descDone s d.val r = true → exec (.dmaMoveComplete d) s = .next (descEnd s d.val r))
    ∧ (∀ e it, (getDma s d.val).desc = none → (getDma s d.val).cur = some e → findItem s e.item = some it →
        (getDma s d.val).going = true → writesWait s it.id e = false →
        ((getDma s d.val).stop = none → exec (.dmaMoveComplete d) s = .next (flushDue (readMoved s d.val it e) it.lun.ch))
        ∧ (∀ st, (getDma s d.val).stop = some st → exec (.dmaMoveComplete d) s = .next (flushDue (stopItem s it.id st) it.lun.ch))))
  ∧ (∀ (d : Fin 32) (b : List Byte) (s : State) (r : HiReq), b.length = 32 → s.hi.reads.find? (fun r => r.use = .descFetch d.val) = some r →
    let y := readDone s r
    (r.spoilt = false → (b.getD 31 0).getLsbD 7 = true → dcState y d.val = 3 →
        exec (.ringDescFetchReturn d b false false) s = .next (descStart y d.val b))
    ∧ (r.spoilt = false → (b.getD 31 0).getLsbD 7 = true → dcState y d.val ≠ 3 → exec (.ringDescFetchReturn d b false false) s = .next y)
    ∧ (r.spoilt = false → (b.getD 31 0).getLsbD 7 = false → exec (.ringDescFetchReturn d b false false) s = .next (ringStops y d.val))
    ∧ (∀ err poison, err = true ∨ poison = true ∨ r.spoilt = true → ∃ x, exec (.ringDescFetchReturn d b err poison) s = .next (ringStops x d.val)
        ∧ rdB x F.dcStatusBusErrSeen d.val = true ∧ x.dma = y.dma)
    ∧ (∀ n, descCheck y b = some n → (getDma (descStart y d.val b) d.val).desc = some { bytes := b, result := some n }
        ∧ (n ≠ 0 → rdB (descStart y d.val b) F.dcStatusMisalignedSeen d.val = true))
    ∧ (∀ x : State, ((getDma x d.val).kicked = false → ringStops x d.val = flag1 x F.dcStatusIdleOwn d.val)
        ∧ ((getDma x d.val).kicked = true → ∃ y, ringStops x d.val = ringKick y d.val
          ∧ (getDma y d.val).kicked = false ∧ rdB y F.dcStatusIdleOwn d.val = false)))
  ∧ (∀ (d : Fin 32) (es : List (List Byte)) (s : State) (r : HiReq) (it : Item) (e : Entry),
    s.hi.reads.find? (fun r => match r.use with | .listFetch x _ => x = d.val | _ => false) = some r → 32 * es.length = r.len →
    (∀ x ∈ es, x.length = 32) → r.use.item.bind (findItem (readDone s r)) = some it → (getDma (readDone s r) d.val).cur = some e →
    e.item = it.id →
    let y := runEntry (updDma (readDone s r) d.val (fun x => takeList x (es.map parseListEnt))) d.val it e
    (r.spoilt = false → exec (.descListFetchReturn d es ⟨false, false⟩) s = .next (if (getDma y d.val).cur.isNone then dmaKickAll y else y))
    ∧ (∀ err poison, err = true ∨ poison = true ∨ r.spoilt = true → ∃ x, exec (.descListFetchReturn d es ⟨err, poison⟩) s =
        .next (stopItem x it.id .dmaFault) ∧ rdB x F.dcStatusBusErrSeen d.val = true ∧ x.items = (readDone s r).items))
  ∧ (∀ (id : BitVec 10) (data : List Byte) (p : BitVec 16) (e : BitVec 2) (s : State) (r : HiReq), data.length = 128 →
    s.hi.reads.find? (fun r => r.id = id.toNat && !r.done) = some r →
    let x := beatPart r r.beats data p
    let r1 := { r with data := r.data ++ x.1, poison := r.poison ++ (if e = 0 then x.2 else x.2.map (fun _ => false)),
                       beats := r.beats + 1, err := r.err || decide (e ≠ 0) }
    let y0 := { s with hi := { s.hi with reads := s.hi.reads.map (fun q => if q = r then r1 else q) } }
    let y := if e = 0 then y0 else hiLogErr y0 id.toNat e.toNat 0
    let z := wrongBeats y r1
    exec (.hiReadDataBeat id data p e false) s = .next y
    ∧ (r.beats + 1 = r.beatCount → exec (.hiReadDataBeat id data p e true) s = .next (readArrived y r1))
    ∧ (r.beats + 1 ≠ r.beatCount → exec (.hiReadDataBeat id data p e true) s = .next (readArrived
        { z.2 with hi := { z.2.hi with reads := z.2.hi.reads.map (fun q => if q = r1 then z.1 else q) } } z.1))
    ∧ z.1 = { r1 with data := z.1.data, poison := z.1.poison } ∧ z.1.data.length = r.len ∧ z.2 = { y with freeCtr := z.2.freeCtr })
  ∧ (∀ (id : BitVec 10) (data : List Byte) (p : BitVec 16) (e : BitVec 2) (l : Bool) (s : State), data.length = 128 →
    s.hi.reads.find? (fun r => r.id = id.toNat && !r.done) = none → exec (.hiReadDataBeat id data p e l) s = .next (hiSpoil s)
    ∧ (Config.freeBit s.freeCtr = false → hiSpoil s = { s with freeCtr := s.freeCtr + 1 })
    ∧ ∃ rs n, hiSpoil s = { s with freeCtr := n, hi := { s.hi with reads := rs } }
        ∧ rs.map (fun r => { r with data := [] }) = s.hi.reads.map (fun r => { r with data := [] }))
  ∧ (∀ (id : BitVec 10) (e : BitVec 2) (s : State),
    (∀ r, s.hi.writes.find? (fun r => r.id = id.toNat) = some r → exec (.hiWriteResponse id e) s = .next (writeResponse s r e))
    ∧ (∀ r, writeResponse s r 0 = writeAnswered { s with hi := { s.hi with writes := s.hi.writes.erase r } } r false
      ∧ (e ≠ 0 → writeResponse s r e = writeAnswered (hiLogErr { s with hi := { s.hi with writes := s.hi.writes.erase r } } r.id e.toNat 1) r true))
    ∧ (s.hi.writes.find? (fun r => r.id = id.toNat) = none → let s1 := { s with freeCtr := s.freeCtr + 1 }
      (s.hi.writes = [] ∨ Config.freeBit s.freeCtr = false → exec (.hiWriteResponse id e) s = .next s1)
      ∧ (∀ r rest, s.hi.writes = r :: rest → Config.freeBit s.freeCtr = true →
          exec (.hiWriteResponse id e) s = .next (writeResponse s1 r e))))
  ∧ (∀ (x y : BitVec 2) (s : State), domUp s dHk = true → ∃ r w n, r ≤ 255 ∧ w ≤ 255
    ∧ exec (.hiCreditReturn x y) s = .next (hiPump { s with freeCtr := n, hi := { s.hi with rdCred := r, wrCred := w } })
    ∧ (s.hi.rdCred + x.toNat ≤ 255 → r = s.hi.rdCred + x.toNat) ∧ (s.hi.wrCred + y.toNat ≤ 255 → w = s.hi.wrCred + y.toNat)
    ∧ (s.hi.rdCred + x.toNat ≤ 255 → s.hi.wrCred + y.toNat ≤ 255 → n = s.freeCtr))
  ∧ (∀ (x y : BitVec 2) (s : State), domUp s dHk = false → exec (.hiCreditReturn x y) s = .next s)

/-- A write of BOOT_CTL: RELOAD 1 is accepted only with SB15 fenced, drained and not retired and no load or BOOT_SWAP
under way, else REFUSED; WIN_EN 0 releases the shadow. A window access that meets no error is held while STATE is
LOADING; else with WIN_EN 0 it gets ACCESS_ERR, a read of an execute-only page PROT_ERR, any other the 8 bytes of its
line in SB15 (poison on a fetch is FETCH_ERR); a read behind an access that is held waits for it. BOOT_LOAD_START
begins a reload, showing LOADING, or goes on with one that paused, or begins the load of the start-up sequence.
BOOT_LOAD_END ends a reload whose reads are done with what they brought, and the load of the start-up sequence with
what the command brings (log entry 141): the header codes, STATE, RELOAD, WIN_EN and SHADOW, and with a block loaded
its number and generation, else BOOT_FAILED. -/
def Obligations.BootWindowRows : Prop :=
  (∀ (a : Acc) (v : W32) (s : State) (c : Instr), Takes s (accessOf a (reg0 .bootCtl) true (v.setWidth 64)) →
    (c = .winEnRelease a v ∧ v.getLsbD 0 = false) ∨ (c = .bootReloadWrite a v ∧ v.getLsbD 2 = true) →
    let s0 := answered s a (reg0 .bootCtl) (v.setWidth 64)
    let y := ((whole (reg0 .bootCtl) (v.setWidth 64)).keeping F.bootCtlWinEn).plain s0
    let z := if v.getLsbD 2 then reloadAsked y else y
    exec c s = .next (if rdB s F.bootCtlWinEn && !v.getLsbD 0 then slotServe (releaseShadow z) else z))
  ∧ (∀ s : State, (reloadOk s = false → reloadAsked s = flag0 s F.bootCtlRefused)
    ∧ (reloadOk s = true → rdB (reloadAsked s) F.bootCtlReload = true ∧ (reloadAsked s).boot.reload = true)
    ∧ (rdB s F.smBankCtlFence 15 = false ∨ rdB s F.smBankCtlRetire 15 = true ∨ loading s = true ∨ s.boot.swap.isSome = true →
        reloadOk s = false)
    ∧ rdB (releaseShadow s) F.bootCtlWinEn = false ∧ rdB (releaseShadow s) F.smBankCtlShadow 15 = false
    ∧ rd (releaseShadow s) F.bootStatusState = 4)
  ∧ (∀ (a : Acc) (o : BitVec 21) (z f : Bool) (s : State), portTakes s = true → accessErr s (windowAt a o z f) = false →
    behind s s.host.held (windowAt a o z f) = false →
    let q := windowAt a o z f
    let c := if f then Instr.bootWindowFetch a o z else Instr.bootWindowRead a o z
    let r := readLine (if f then fixedFetch s false else s) 15 (o.toNat / 64)
    let w := BitVec.ofNat 64 (leNat (slice r.data (o.toNat % 64 / 8 * 8) 8))
    (rd s F.bootStatusState = 1 → ∃ x, exec c s = .next x ∧ x.host.rsp = s.host.rsp ++ [none]
      ∧ x.boot.heldAcc = s.boot.heldAcc ++ [(q, s.host.rsp.length)] ∧ x.regs = s.regs)
    ∧ (rd s F.bootStatusState ≠ 1 → rdB s F.bootCtlWinEn = false → exec c s = .next (answer s q .fresh rAccess))
    ∧ (rd s F.bootStatusState ≠ 1 → rdB s F.bootCtlWinEn = true →
      (f = false → execOnly s (o.toNat / 4096) = true → exec c s = .next (answer s q .fresh rProt))
      ∧ (f = true → r.poison = true → exec c s = .next (answer r.st q .fresh rFetch))
      ∧ ((f = true ∧ r.poison = false) ∨ (f = false ∧ execOnly s (o.toNat / 4096) = false) →
          exec c s = .next (answer r.st q .fresh rOkay (laneData q w) r.poison))))
  ∧ (∀ (s : State) (g : Nat), bootGroupOf s = some g → loadMayStart s = true →
    (reloading s = true → loading s = false → exec .bootLoadStart s = .next (loadBegin (wr0 s F.bootStatusState 1)))
    ∧ (∀ l, reloading s = true → loading s = true → s.boot.load = some l → exec .bootLoadStart s = .next (loadIssue s l))
    ∧ (reloading s = false → exec .bootLoadStart s = .next (startUpLoad s g)))
  ∧ (∀ (r : BootLoadResult) (s : State) (g : Nat), (Instr.bootLoadEnd r).wellFormed = true → loadInHand s = some g →
    hk0Up s = true → warn s = false →
    (∀ l, reloading s = true → s.boot.load = some l → l.step = .done → exec (.bootLoadEnd r) s = .next (loadEnds s g l))
    ∧ (reloading s = false → loadCanRead s g = true ∨ r.up = false →
        let l := startHeaders s (4 * g) r
        imageFits l r 0 = true → imageFits l r 1 = true →
          exec (.bootLoadEnd r) s = .next (loadEnds (startImages r 2 s l).2 g (startImages r 2 s l).1)))
  ∧ (∀ (s : State) (l : Load), let x := loadFields s l
    rd x F.bootStatusHdr0 = l.code0 % 16 ∧ rd x F.bootStatusHdr1 = l.code1 % 16 ∧ rdB x F.bootCtlReload = false
    ∧ rdB x F.bootCtlWinEn = l.loaded.isSome ∧ rdB x F.smBankCtlShadow 15 = l.loaded.isSome
    ∧ rd x F.bootStatusState = (if l.loaded.isSome then 2 else 3)
    ∧ (∀ b h, l.loaded = some (b, h) → rd x F.bootStatusLoadedBlock = b % 2 ∧ rd x F.bootStatusGeneration = h.gen % 2 ^ 32)
    ∧ (l.loaded = none → rdB x F.bootStatusBootFailed = true))

/-- A write of MODE_CTL sets TARGET by R433: the code of the mode in force changes nothing; while BUSY it is refused
with reason 5; STANDBY goes to READY or OFF; READY to ACTIVE, to STANDBY when idle (else reason 3), to TEST (else
reason 4); READY and ACTIVE to OFF, and ACTIVE to READY, with every channel READY and disabled (else reason 2) and, to
OFF, the unit idle (else 3); any other is refused with reason 1. A refusal sets REFUSED and REASON and keeps TARGET.
PWR_REQ: each bit that becomes 0, in descending order, powers its domain down where R434 lets it, else PWR_REFUSED;
then each that becomes 1, in ascending order, powers its domain up in steady ACTIVE service. -/
def Obligations.ModeAndPowerRequests : Prop :=
  (∀ (c : Instr) (a : Acc) (v : W32) (s : State), Takes s (accessOf a (reg0 .modeCtl) true (v.setWidth 64)) →
    c ∈ [.modeTargetReady a v, .modeTargetActive a v, .modeTargetStandby a v, .modeTargetOff a v, .modeTargetTest a v] →
    c.wellFormed = true → exec c s = .next (setTarget (((whole (reg0 .modeCtl) (v.setWidth 64)).keeping F.modeCtlTarget).plain
      (answered s a (reg0 .modeCtl) (v.setWidth 64))) (v.toNat % 8)))
  ∧ (∀ (s : State) (t : Nat), (t = modeCode s → setTarget s t = s)
    ∧ (t ≠ modeCode s → rdB s F.modeCtlBusy = true → setTarget s t = refuseMode s 5)
    ∧ (t ≠ modeCode s → rdB s F.modeCtlBusy = false →
      (s.power.mode = .standby → setTarget s 2 = modeProgress (startUp (acceptMode s 2 none) false)
        ∧ setTarget s 0 = enterOff (acceptMode s 0 none))
      ∧ (s.power.mode = .ready → (t = 3 → setTarget s t = modeProgress (acceptMode s 3 (some .toActive)))
        ∧ (t = 1 → setTarget s t = if unitIdle s then goStandby (frontEndsDown (acceptMode s 1 none)) else refuseMode s 3)
        ∧ (t = 5 → lcTest s = true → planOf s false ≠ [] → setTarget s t = modeProgress (acceptMode s 5 (some .toTest)))
        ∧ (t = 5 → lcTest s = false ∨ planOf s false = [] → setTarget s t = refuseMode s 4))
      ∧ (s.power.mode = .ready ∨ s.power.mode = .active → t = 0 ∨ (t = 2 ∧ s.power.mode = .active) →
        (channelsQuiet s = false → setTarget s t = refuseMode s 2)
        ∧ (channelsQuiet s = true → t = 2 → setTarget s t = modeProgress (acceptMode s 2 (some .toReadyDrain)))
        ∧ (channelsQuiet s = true → t = 0 → setTarget s t = if unitIdle s then goOff (acceptMode s 0 none) else refuseMode s 3))
      ∧ (s.power.mode = .test → t = 2 → setTarget s t =
          if bistRunning s then refuseMode s 3 else modeProgress (startUp (unitDown (acceptMode s 2 none)) false))
      ∧ (t = 4 ∨ 5 < t ∨ (s.power.mode = .active ∧ t ∉ [0, 2]) ∨ (s.power.mode = .test ∧ t ≠ 2) ∨ (s.power.mode = .standby ∧ t ∉ [0, 2]) →
          setTarget s t = refuseMode s 1))
    ∧ rdB (refuseMode s t) F.modeCtlRefused = true ∧ rd (refuseMode s t) F.modeCtlReason = t % 16
    ∧ rd (refuseMode s t) F.modeCtlTarget = rd s F.modeCtlTarget ∧ refuseMode s t = { s with regs := (refuseMode s t).regs }
    ∧ (∀ ph, rd (acceptMode s t ph) F.modeCtlTarget = t % 8 ∧ rdB (acceptMode s t ph) F.modeCtlBusy = true))
  ∧ (∀ (a : Acc) (v : W32) (s : State), Takes s (accessOf a (reg0 .pwrReq) true (v.setWidth 64)) →
    let y := [19, 18, 17, 16, 15, 14, 13, 12, 11, 10, 9, 8, 5, 4, 3, 2].foldl (fun s d =>
      if bitOf (reqBits s) d = true ∧ v.getLsbD d = false then reqClear s d else s) (answered s a (reg0 .pwrReq) (v.setWidth 64))
    exec (.pwrReqWrite a v) s = .next ([2, 3, 4, 5, 8, 9, 10, 11, 12, 13, 14, 15, 16, 17, 18, 19].foldl (fun s d =>
      if v.getLsbD d = true ∧ bitOf (reqBits s) d = false then reqSet s d else s) y))
  ∧ (∀ (s : State) (d : Nat), d ∈ [2, 3, 4, 5, 8, 9, 10, 11, 12, 13, 14, 15, 16, 17, 18, 19] →
    (steady s = true → hkOwns s d = false → reqSet s d = powerUpAll (setReq s d true) [d])
    ∧ (steady s = false ∨ hkOwns s d = true → reqSet s d = setReq s d true)
    ∧ (steady s = false → reqClear s d = if d < 4 then flag0 s F.pwrStatusPwrRefused else setReq s d false)
    ∧ (steady s = true → mayClear s d = false → reqClear s d = flag0 s F.pwrStatusPwrRefused)
    ∧ (steady s = true → mayClear s d = true → hkOwns s d = false →
        reqClear s d = powerDown (unqueue (setReq s d false) d) d))

/-- PORESET_N asserted leaves every register at its reset value and no item, keeping the levels of the pins; its
release samples the straps and begins the start-up, or waits for PSW_ACK[0]. SYSRESET_N asserted puts the unit in
STANDBY, sets SYS_SEEN and clears REFUSED and REASON; its release begins a warm start, from retention with RETAINED 1.
A supply that rises is reported, and what waited goes on; one that falls does as R439 says. PSW_ACK that rises brings
a domain up; its unplanned fall sets PSW_FAULT and loses the domain, and its fall after PSW_EN fell is taken; a
handshake that is not done 100 µs after PSW_EN changed sets PSW_FAULT; a strap that changes sets STRAP_CHANGED. -/
def Obligations.ResetsSuppliesAndSwitches : Prop :=
  (∀ s : State, ∃ x, exec .poresetAssert s = .next x ∧ x.regs = State.reset.regs ∧ x.items = [] ∧ x.power.mode = .off
      ∧ x.power.poreset = true ∧ x.power.sysreset = s.power.sysreset ∧ x.power.supply = s.power.supply ∧ x.power.warn = s.power.warn
      ∧ x.tb = 0 ∧ x.pending = s.pending)
  ∧ (∀ s : State, s.power.poreset = true →
      let s1 := { s with power := { s.power with poreset := false, straps := Config.straps s.power.strapGen } }
      (s.power.pswAck.getLsbD 0 = true → exec .poresetRelease s = .next (modeProgress (startUp s1 false)))
      ∧ (s.power.pswAck.getLsbD 0 = false → exec .poresetRelease s = .next (modeProgress (setPhase s1 (some .step1)))))
  ∧ (∀ (s : State) (r : Bool), (startUp s r).power.mode = .standby ∧ (startUp s r).power.phase = some .step2
      ∧ rdB (startUp s r) F.modeCtlBusy = true ∧ rdB (startUp s r) F.pwrStatusRetained = r)
  ∧ (∀ s : State, let s1 := { s with power := { s.power with sysreset := true } }
      (aonLive s = false → exec .sysresetAssert s = .next s1)
      ∧ (aonLive s = true → ∃ x, exec .sysresetAssert s = .next x ∧ x.power.mode = .standby ∧ x.power.phase = none
          ∧ rdB x F.pwrStatusSysSeen = true ∧ rdB x F.modeCtlRefused = false ∧ rd x F.modeCtlReason = 0
          ∧ rdB x F.modeCtlBusy = false))
  ∧ (∀ s : State, s.power.sysreset = true → s.power.poreset = false →
      let s1 := { s with power := { s.power with sysreset := false } }
      (s.power.retention = false → exec .sysresetRelease s = .next (modeProgress (startUp s1 false)))
      ∧ (s.power.retention = true → exec .sysresetRelease s = .next (modeProgress (startUp
          (flag0 { s with power := { s.power with sysreset := false, retention := false } } F.pwrStatusSysSeen) true))))
  ∧ (∀ (j : Fin 17) (s : State), let s1 := if 5 ≤ j.val then bootSupplied (setSupply s j.val true) (j.val - 5) else setSupply s j.val true
      (aonLive s = false → exec (.supplyOkRise j) s = .next s1)
      ∧ (aonLive s = true → exec (.supplyOkRise j) s = .next (modeProgress (powerNext s1)))
      ∧ (setSupply s j.val true).power.supply.getLsbD j.val = true ∧ (setSupply s j.val false).power.supply.getLsbD j.val = false)
  ∧ (∀ (j : Fin 17) (s : State), let s1 := setSupply s j.val false
      (j.val = 0 → exec (.supplyOkFall j) s = .next (poreset s1))
      ∧ (j.val = 1 ∨ j.val = 2 → exec (.supplyOkFall j) s = .next (if anyPowered s (List.range' 1 19) then brownOut s1 else s1))
      ∧ (j.val = 3 → exec (.supplyOkFall j) s = .next (pllFalls s1))
      ∧ (j.val = 4 → exec (.supplyOkFall j) s = .next (ringSupplyFalls s1))
      ∧ (5 ≤ j.val → exec (.supplyOkFall j) s = .next (vddqFalls s1 (j.val - 5))))
  ∧ (∀ s : State, (brownOut s).power.mode = .standby ∧ rdB (brownOut s) F.pwrStatusBrownout = true
      ∧ rdB (brownOut s) F.portStatusSupplyDrop = true)
  ∧ (∀ (i : Fin 20) (s : State), s.power.pswEn.getLsbD i.val = true → s.power.pswAck.getLsbD i.val = false →
      let s1 := setAck s i.val true
      (i.val = 0 → exec (.pswAckRise i) s = .next (if aonLive s then modeProgress s1 else s1))
      ∧ (i.val ≠ 0 → exec (.pswAckRise i) s = .next (if domUp s i.val then s1 else comesUp s1 i.val)))
  ∧ (∀ (i : Fin 20) (s : State), s.power.pswEn.getLsbD i.val = true → s.power.pswAck.getLsbD i.val = true → aonLive s = true →
      exec (.pswAckUnplannedFall i) s = .next (loseDomain (setAck (flag0 s F.portStatusPswFault) i.val false) i.val))
  ∧ (∀ (i : Fin 20) (s : State), s.power.pswEn.getLsbD i.val = false → s.power.pswAck.getLsbD i.val = true →
      exec (.pswAckUnplannedFall i) s = .next (setAck s i.val false))
  ∧ (∀ (i : Fin 20) (s : State), let t := 100 * usU + Tab.get s.power.pswAt i.val 0
      aonLive s = true → i.val ≠ 0 → s.power.pswEn.getLsbD i.val ≠ s.power.pswAck.getLsbD i.val → dueClk s t = true →
      exec (.pswHandshakeTimeout i) s = .next (flag0 { s with fine := s.fine + (t - s.clk), clk := max s.clk t } F.portStatusPswFault))
  ∧ (∀ s : State, aonLive s = true → exec .strapChange s = .next (flag0
      { s with power := { s.power with strapGen := s.power.strapGen + 1 } } F.portStatusStrapChanged))

/-- Both rows of CK_CORE_CTL set MULT and PLL_EN, then SRC. MULT or PLL_EN changed while SRC is the core PLL sets
SW_REFUSED only; else they are taken, and CORE_PLL_READY falls unless the PLL stays enabled at its MULT. SRC: a source
not READY, or a switch in progress, sets SW_REFUSED only; else SRC and SWITCHING are set. CLOCK_SWITCH_DONE clears
SWITCHING, and PARKED shows the AON clock. A trip of the core clock ends a switch, clears READY of its source, sets
CLK_FAULT and goes to the fallback oscillator or the AON clock. A PHY PLL trip loses its group and sets its bit of
PHY_FAULT. READY of a source, and the end of 100 µs of lock time, move the start-up on. -/
def Obligations.ClockRows : Prop :=
  (∀ (c : Instr) (a : Acc) (v : W32) (s : State), Takes s (accessOf a (reg0 .ckCoreCtl) true (v.setWidth 64)) →
    c ∈ [.ckSrcWrite a v, .ckPllWrite a v] → ∃ y, exec c s = .next (askSource (askPll y (v.toNat / 256 % 32) (v.getLsbD 13)) (v.toNat % 4))
      ∧ y = { answered s a (reg0 .ckCoreCtl) (v.setWidth 64) with regs := y.regs }
      ∧ ∀ f ∈ [F.ckCoreCtlSrc, F.ckCoreCtlMult, F.ckCoreCtlPllEn, F.ckCoreCtlCorePllReady, F.ckCoreCtlFallbackReady,
          F.ckCoreCtlSwitching, F.ckCoreCtlParked], rd y f = rd s f)
  ∧ (∀ (s : State) (m : Nat) (en : Bool), m < 32 →
    ((m = rd s F.ckCoreCtlMult ∧ en = rdB s F.ckCoreCtlPllEn) → askPll s m en = s)
    ∧ (¬(m = rd s F.ckCoreCtlMult ∧ en = rdB s F.ckCoreCtlPllEn) →
      (rd s F.ckCoreCtlSrc = 0 → askPll s m en = flag0 s F.ckCoreCtlSwRefused)
      ∧ (rd s F.ckCoreCtlSrc ≠ 0 → rd (askPll s m en) F.ckCoreCtlMult = m ∧ rdB (askPll s m en) F.ckCoreCtlPllEn = en
        ∧ (¬(en = true ∧ m = rd s F.ckCoreCtlMult) → rdB (askPll s m en) F.ckCoreCtlCorePllReady = false))))
  ∧ (∀ (s : State) (src : Nat), src < 4 →
    (src = rd s F.ckCoreCtlSrc → askSource s src = s)
    ∧ (src ≠ rd s F.ckCoreCtlSrc →
      (sourceReady s src = false ∨ switching s = true → askSource s src = flag0 s F.ckCoreCtlSwRefused)
      ∧ (sourceReady s src = true → switching s = false → rd (askSource s src) F.ckCoreCtlSrc = src
        ∧ rdB (askSource s src) F.ckCoreCtlSwitching = true ∧ switching (askSource s src) = true)))
  ∧ (∀ s : State, switching s = true → exec .clockSwitchDone s = .next (runFrom (endSwitch s) (rd s F.ckCoreCtlSrc))
    ∧ rdB (endSwitch s) F.ckCoreCtlSwitching = false)
  ∧ (∀ (s : State) (src : Nat), src < 4 → parked s = false → rd (runFrom s src) F.ckCoreCtlSrc = src
    ∧ rdB (runFrom s src) F.ckCoreCtlParked = decide (src = 2))
  ∧ (∀ s : State, domUp s dHk = true → monitored s ≠ 2 → parked s = false → ∃ x, exec .coreClockTrip s = .next x
    ∧ rdB x F.ckCoreCtlClkFault = true ∧ rdB x F.ckCoreCtlSwitching = (rdB s F.ckCoreCtlSwitching && !switching s)
    ∧ rd x F.ckCoreCtlSrc = (if monitored s = 0 ∧ rdB s F.ckCoreCtlFallbackReady then 1 else 2)
    ∧ rdB x (if monitored s = 0 then F.ckCoreCtlCorePllReady else F.ckCoreCtlFallbackReady) = false
    ∧ (switching s = true → rdB x F.ckCoreCtlSwRefused = true))
  ∧ (∀ (g : Fin 12) (s : State), phyRuns s g.val = true → ∃ x, exec (.phyPllTrip g) s = .next x
    ∧ x = wr0 (loseGroup s g.val false) F.ckStatusPhyFault (rd s F.ckStatusPhyFault ||| 2 ^ g.val)
    ∧ rd x F.ckStatusPhyFault = (rd s F.ckStatusPhyFault ||| 2 ^ g.val))
  ∧ (∀ s : State,
    (s.power.fallbackRun = true → supplyOk s 3 = true → let s1 := wr0 s F.ckCoreCtlFallbackReady 1
      exec (.clockSourceReady .fallback) s = .next (if s.power.phase = some .step3 then startStep4 s1 else s1))
    ∧ (rdB s F.ckCoreCtlPllEn = true → supplyOk s 3 = true → aonLive s = true → let s1 := wr0 s F.ckCoreCtlCorePllReady 1
      exec (.clockSourceReady .corePll) s = .next (if s.power.phase = some .step5 then startStep5 s1 else s1))
    ∧ (∀ g : Fin 12, phyRuns s g.val = true → supplyOk s 3 = true →
      exec (.clockSourceReady (.phy g)) s = .next (wr1 s F.cgPhyPllReady (4 * g.val) 1)))
  ∧ (∀ s s1 : State, s.power.phase = some .step5 → lapse s (100 * usU + s.power.step3At) = some s1 →
    exec .corePllLockTimeout s = .next (startStep5 s1))
  ∧ (∀ s : State, (rdB s F.ckCoreCtlCorePllReady = true → startStep5 s = readyEntered (runFrom s 0))
    ∧ (rdB s F.ckCoreCtlCorePllReady = false → 100 * usU + s.power.step3At ≤ s.clk →
        startStep5 s = readyEntered (flag0 s F.ckCoreCtlPllNolock)))

/-- Both rows of MC_CTL: WRITE_EN is set before PATCH_EN changes, or cleared after it. WRITE_EN 1 is accepted from
ring 0 with its store free: its engines not in MCHECK are HELD; else REFUSED only. PATCH_EN changes only while
WRITE_EN is 1, and to 1 only with CHECK equal to MC_ROM_ID; else REFUSED only. RESTART runs an engine in MCHECK of an
unlocked store that is out of service, from word 0 with nothing on its stack; else RESTART_REFUSED only. A machine
check of a cause that the engine can show stops the engine with the cause and no trap pending, and one that it cannot
changes nothing. A trap entry takes the lowest cause pending, at its vector; with a handler active only if that has
ended since, a free bit (log entry 142). A frame that is saved and restored gives the micro-state back, and TRET ends
the handler. -/
def Obligations.MicrocodeRows : Prop :=
  (∀ (c : Instr) (a : Acc) (j : Fin 15) (v : W64) (s : State), Takes s (accessOf a (reg1 .mcCtl j.val) true v) →
    c ∈ [.mcWriteEnWrite a j v, .mcPatchEnWrite a j v] →
    let y := (((whole (reg1 .mcCtl j.val) v).keeping F.mcCtlWriteEn).keeping F.mcCtlPatchEn).plain (answered s a (reg1 .mcCtl j.val) v)
    exec c s = .next (if v.getLsbD 0 then setPatchEn (setWriteEn y j.val a.ring.toNat true) j.val (v.getLsbD 1)
      else setWriteEn (setPatchEn y j.val (v.getLsbD 1)) j.val a.ring.toNat false))
  ∧ (∀ (s : State) (j r : Nat), j < 15 →
    (rdB s F.mcCtlWriteEn j = true → setWriteEn s j r true = s)
    ∧ (rdB s F.mcCtlWriteEn j = false → setWriteEn s j r false = s
      ∧ (r ≠ 0 ∨ rdB s F.mcCtlClearing j = true ∨ storeFree s j r = false → setWriteEn s j r true = flag1 s F.mcCtlRefused j)
      ∧ (storeFree s j r = true → rdB (setWriteEn s j r true) F.mcCtlWriteEn j = true
        ∧ ∀ e, e < storeEngines j → isMcheck s j e = false → rd (setWriteEn s j r true) F.mcEngState j e = 0))
    ∧ (∀ v, v ≠ rdB s F.mcCtlPatchEn j →
      (rdB s F.mcCtlWriteEn j = true → v = false ∨ rd s F.mcCtlCheck j = (getR s .mcRomId j).toNat →
        setPatchEn s j v = wr1 s F.mcCtlPatchEn j (bit v))
      ∧ (rdB s F.mcCtlWriteEn j = false ∨ (v = true ∧ rd s F.mcCtlCheck j ≠ (getR s .mcRomId j).toNat) →
        setPatchEn s j v = flag1 s F.mcCtlRefused j)))
  ∧ (∀ (a : Acc) (j : Fin 15) (e : Fin 4) (v : W64) (s : State), Takes s (accessOf a ⟨.mcEng, j.val, e.val, 0⟩ true v) →
    v.getLsbD 8 = true → e.val < storeEngines j.val → exec (.mcRestartWrite a j e v) s =
      .next (restart ((whole ⟨.mcEng, j.val, e.val, 0⟩ v).plain (answered s a ⟨.mcEng, j.val, e.val, 0⟩ v)) j.val e.val))
  ∧ (∀ (s : State) (j e : Nat),
    (isMcheck s j e = false ∨ rdB s F.mcCtlWriteEn j = true ∨ outOfService s j = false →
      restart s j e = wr s F.mcEngRestartRefused j e 0 1)
    ∧ (isMcheck s j e = true → rdB s F.mcCtlWriteEn j = false → outOfService s j = true → ∃ x, restart s j e = engineStarts x j e
      ∧ rd x F.mcEngState j e = 1 ∧ rd x F.mcEngCause j e = 0 ∧ rd x F.mcEngParGroups j e = 0
      ∧ (getMicro x j e).upc = 0 ∧ (getMicro x j e).stack = [] ∧ (getMicro x j e).handler = false))
  ∧ (∀ (j : Fin 15) (s : State), domUp s (storeDom j.val) = true → rdB s F.mcCtlClearing j.val = true →
      exec (.patchRamClearEnd j) s = .next (releaseEngines (wr1 s F.mcCtlClearing j.val 0) j.val))
  ∧ (∀ (j : Fin 15) (e : Fin 4) (n : Fin 16) (par : Byte) (s : State), (Instr.machineCheck j e n par).wellFormed = true →
      (canCheck s j.val e.val n.val par.toNat = true →
        ∃ x, exec (.machineCheck j e n par) s = .next (engineStops x j.val e.val) ∧ isMcheck x j.val e.val = true
          ∧ rd x F.mcEngCause j.val e.val = n.val ∧ (getMicro x j.val e.val).pend = []
          ∧ rd x F.mcEngParGroups j.val e.val = (if n.val ≤ 2 then par.toNat else 0))
      ∧ (canCheck s j.val e.val n.val par.toNat = false → exec (.machineCheck j e n par) s = .next s))
  ∧ (∀ (s : State) (j e n par : Nat), (n ≠ 2 → domUp s (storeDom j) = true → engRunning s j e = true → canCheck s j e n par = true)
      ∧ (domUp s (storeDom j) = false ∨ engRunning s j e = false ∨ (n = 2 ∧ rdB s F.mcCtlPatchEn j = false) → canCheck s j e n par = false))
  ∧ (∀ (j : Fin 15) (e : Fin 4) (c : Nat) (s : State), domUp s (storeDom j.val) = true → engRunning s j.val e.val = true →
      (getMicro s j.val e.val).masked = false →
      c ∈ (getMicro s j.val e.val).pend → (∀ d ∈ (getMicro s j.val e.val).pend, c ≤ d) →
      ((getMicro s j.val e.val).handler = false ∨ Config.freeBit s.freeCtr = true →
        ∃ x, exec (.microTrapEntry j e) s = .next x ∧ (getMicro x j.val e.val).upc = BitVec.ofNat 14 (0x40 + 8 * c)
          ∧ (getMicro x j.val e.val).handler = true ∧ (getMicro x j.val e.val).cause = c ∧ (getMicro x j.val e.val).masked = false
          ∧ c ∉ (getMicro x j.val e.val).pend)
      ∧ ((getMicro s j.val e.val).handler = true → Config.freeBit s.freeCtr = false →
        exec (.microTrapEntry j e) s = .next { s with freeCtr := s.freeCtr + 1 }))
  ∧ (∀ (j : Fin 15) (e : Fin 4) (s : State), domUp s (storeDom j.val) = true → engRunning s j.val e.val = true →
      (getMicro s j.val e.val).handler = true → exec (.trapReturn j e) s =
        .next (updMicro s j.val e.val (fun m => { restoreFrame s j.val e.val m with handler := false })))
  ∧ (∀ (s : State) (j e : Nat) (m : Micro), m.stack.length ≤ 4 → m.lc.length = 4 → m.s.length = 8 →
      restoreFrame (saveFrame s j e m) j e m = { m with waiting := false })

/-- PATROL_READ_LAUNCH, at its time, while the patrol runs: the next target of this INDEX from the cursor up that is
not skipped gets a read at the tail of its LUN's queue unless its channel has PER_CH_MAX in flight; with no target
left INDEX advances, and PASSES when it wraps. RELOCATION_START: with an empty pool the relocation leaves only its
receipt, which waits while 64 are held, and POOL_EMPTY_SEEN; else the head of the channel's pool is taken, and the
page joins the queue of its LUN for the program. RELOC_RECEIPT_WRITE writes the first held receipt to the next slot,
and one that waited is held. -/
def Obligations.PatrolAndRelocationRows : Prop :=
  (∀ s s1 : State, patrolRuns s = true → lapse s s.patrol.nextAt = some s1 →
    let left := patrolNext s1 (rd s1 F.psCursorIndex) (48 * 128 - s1.patrol.target) s1.patrol.target
    (left = none → exec .patrolReadLaunch s = .next (patrolAdvance s1))
    ∧ (∀ n, left = some n → patrolOn s1 (n / 128) < max 1 (rd s1 F.psCfgPerChMax) →
        exec .patrolReadLaunch s = .next (patrolIssue s1 n)
        ∧ (getLun (patrolIssue s1 n) (patrolLun n)).queue = (getLun s1 (patrolLun n)).queue ++ [s1.nextId]))
  ∧ (∀ (s : State) (x k n : Nat), (∀ m, patrolNext s x k n = some m → n ≤ m ∧ m < n + k
        ∧ patrolTarget s x (patrolLun m) = true ∧ patrolSkips s (patrolLun m) = false)
      ∧ (patrolNext s x k n = none → ∀ m, n ≤ m → m < n + k →
          patrolTarget s x (patrolLun m) = false ∨ patrolSkips s (patrolLun m) = true))
  ∧ (∀ s : State, let i := rd s F.psCursorIndex + 1
      (patrolAdvance s).patrol.target = 0
      ∧ (i < 2 ^ patrolRows s → rd (patrolAdvance s) F.psCursorIndex = i % 2 ^ 32 ∧ rd (patrolAdvance s) F.psCursorPasses = rd s F.psCursorPasses)
      ∧ (2 ^ patrolRows s ≤ i → rd (patrolAdvance s) F.psCursorIndex = 0
          ∧ rd (patrolAdvance s) F.psCursorPasses = (rd s F.psCursorPasses + 1) % 65536))
  ∧ (∀ (id : Nat) (s : State) (it : Item), findItem s id = some it → hk0Up s = true → it.isPatrol = true → it.stage = .group →
      (Tab.get s.patrol.pools it.lun.ch [] = [] → exec (.relocationStart id) s = .next (relocWrite
        (dropItem (cleanup (tally (flag1 s F.psPoolEmptySeen it.lun.ch) 0x5d) id) id) it (relocOf it) true))
      ∧ (∀ e rest, Tab.get s.patrol.pools it.lun.ch [] = e :: rest → exec (.relocationStart id) s = .next (relocGo s it e rest)))
  ∧ (∀ (s : State) (it : Item) (e : PoolEnt) (rest : List PoolEnt),
      let d : Lun := ⟨it.lun.ch, e.ceLun.toNat % 16, e.ceLun.toNat / 16 % 8⟩
      Tab.get (relocGo s it e rest).patrol.pools it.lun.ch [] = rest
      ∧ (getLun (relocGo s it e rest) d).queue = (getLun s d).queue ++ [it.id])
  ∧ (∀ (s : State) (h : HeldRcpt) (rest : List HeldRcpt), s.patrol.receipts = h :: rest → 0 < freeSlots s h.pair → mayWrite s h.pair = true →
      exec .relocReceiptWrite s = .next (relocNext (writeOne
        { s with patrol := { s.patrol with receipts := rest }, hold := s.hold ++ [h] } h)))
  ∧ (∀ (s : State) (it : Item) (x : Reloc) (empty : Bool), (s.patrol.receipts.length < 64 → relocWrite s it x empty = relocCompose s it x empty)
      ∧ (64 ≤ s.patrol.receipts.length → (relocWrite s it x empty).patrol.waiting = s.patrol.waiting ++ [⟨it, x, empty⟩]
        ∧ (relocWrite s it x empty).patrol.receipts = s.patrol.receipts)
      ∧ (s.patrol.waiting = [] → relocNext s = s)
      ∧ (∀ w q, s.patrol.waiting = w :: q → s.patrol.receipts.length < 64 →
          relocNext s = relocCompose { s with patrol := { s.patrol with waiting := q } } w.it w.reloc w.empty))

/-- A lane that gains block lock is up if it has delivered a valid frame in the last 4 µs; one that loses its lock,
whose monitor is true, or that has delivered no frame for 4 µs goes down and wraps the unit; when the lanes that went
down have stayed up for the heal time the unit unwraps. After 4 µs without a PRESENCE frame a unit claims; a master or
claimant sends PRESENCE. ENUM gives a unit that is not the head the next address, which it takes when the enumeration
has ended, or none after 15, so that it is in PASS; and from the frame back to its head its count. A TIME_REQ is
answered with the times of its arrival and of the answer's start, and a TIME_RSP is measured; every hop is asked each
period. STEP leaves its step to a follower's next exchange, ALLOT raises HOLDING by the unit's entry, and each passes
on. At each 1,000 ticks the master sets RING_STALE if the last exchange is not complete, and takes part in the next
and sends it. -/
def Obligations.RingPortAndTimeRows : Prop :=
  (∀ (l : Fin 2) (s : State), domUp s dHk = true → xrState s ≠ 0 →
      let x := updRx s l.val (fun x => { x with lock := true, hiBer := false })
      exec (.laneUp l) s = .next (portTrained (laneRises x l.val)) ∧ locked x l.val = true
      ∧ (laneUp s l.val = false → frameFresh s l.val = true → laneUp (laneRises x l.val) l.val = true
          ∧ Tab.get (laneRises x l.val).ring.upAt l.val 0 = s.clk)
      ∧ (laneUp s l.val = true ∨ frameFresh s l.val = false → laneRises x l.val = x))
  ∧ (∀ (l : Fin 2) (s : State), exec (.laneDown ⟨l, .noLock⟩) s = .next (laneFalls (updRx s l.val (fun x => { x with lock := false })) l.val)
      ∧ exec (.laneDown ⟨l, .highBer⟩) s = .next (laneFalls (updRx s l.val (fun x => { x with hiBer := true })) l.val)
      ∧ (∀ t s1, (getRx s l.val).lastFrame = some t → lapse s (4 * usU + t) = some s1 →
        exec (.laneDown ⟨l, .noFrame⟩) s = .next (laneFalls (updRx s1 l.val (fun x => { x with lastFrame := none })) l.val)))
  ∧ (∀ (l : Fin 2) (s : State), domUp s dHk = true → xrState s ≠ 0 → laneUp s 0 = true ∨ laneUp s 1 = true →
      ∃ y, laneFalls s l.val = portTrained y ∧ laneUp y l.val = false ∧ wrapped y = true ∧ rdB y F.xrStatusBreakSeen = true
        ∧ l.val ∈ y.ring.lost)
  ∧ (∀ (s s1 : State) (l t : Nat), ringOn s = true → wrapped s = true → s.ring.lost = [l] → l < 2 → laneUp s l = true →
      t = Tab.get s.ring.upAt l 0 + usU * rd s F.xrCtlHealHoldUs → lapse s t = some s1 →
      exec .healHoldExpiry s = .next (heal s1)
      ∧ wrapped (heal s1) = false ∧ rdB (heal s1) F.xrStatusHealSeen = true ∧ (heal s1).ring.lost = [])
  ∧ (∀ s s1 : State, ringLive s = true → isMaster s = false → s.ring.claim = false → lapse s (4 * usU + s.ring.lastPres) = some s1 →
      exec .masterLost s = .next { s1 with ring := { s1.ring with claim := true, joining := false } })
  ∧ (∀ s : State, ringSends s = true → isMaster s = true ∨ s.ring.claim = true →
      exec .presenceSendTick s = .next (updPort (ringSend s (.presence (presenceOf s none))) (fun r => { r with startDue := false })))
  ∧ (∀ (h : FrameHdr) (a c : Byte) (n : BitVec 16) (s : State), Hears s h (.enum a.toNat n.toNat c.toNat) →
      let y := frameSeen s h.lane.val
      actsOn y h.lane.val = true →
      exec (.enumFrame h a n c) s = .next (if isHead y then enumHead (trapHk3 y) a.toNat n.toNat c.toNat
        else enumUnit (trapHk3 y) h a.toNat n.toNat c.toNat))
  ∧ (∀ (h : FrameHdr) (s : State) (a n c : Nat), a < 15 → ∃ x, enumUnit s h a n c = ringPass x h (.enum (a + 1) n (c + 1))
      ∧ x.ring.enumAddr = some (a + 1) ∧ isMaster x = false ∧ xrState x = 2)
  ∧ (∀ (h : FrameHdr) (s : State) (a n c : Nat), 15 ≤ a → ∃ x, enumUnit s h a n c = ringPass x h (.enum a n (c + 1))
      ∧ x.ring.enumAddr = none ∧ rdB x F.xrStatusOversize = true ∧ xrState x = 4)
  ∧ (∀ (s : State) (a : Nat), a < 16 → s.ring.enumAddr = some a → hereAddr (commitAddr s) = a
      ∧ rdB (commitAddr s) F.xrAddrAddrValid = true)
  ∧ (∀ (s : State) (a n c : Nat), s.ring.enumRun = true → n = s.ring.nonce → xrState (enumHead s a n c) = 3
      ∧ rd (enumHead s a n c) F.xrStatusUnitsM1 = min 15 (c - 1) ∧ isMaster (enumHead s a n c) = true
      ∧ rdB (enumHead s a n c) F.xrCtlReenum = false)
  ∧ (∀ (h : FrameHdr) (p : Presence) (s : State), p.slots.length = 16 → Hears s h (.presence p) →
      let y := foldHeard (frameSeen s h.lane.val) h.lane.val
      actsOn y h.lane.val = true → xrState y ≠ 1 →
      (sentHere y h = true → exec (.presenceFrame h p) s = .next (presenceBack (trapHk3 y) p))
      ∧ (sentHere y h = false → exec (.presenceFrame h p) s = .next (presencePass (trapHk3 y) h p)))
  ∧ (∀ (h : FrameHdr) (s : State), Hears s h (.timeReq (hopOf h)) → let y := frameSeen s h.lane.val
      exec (.timeReqFrame h) s = .next (ringSend (trapHk3 y) (.timeRsp (hopOf h) y.fine (y.fine % 2 ^ 40)
        (if isMaster y then 0 else max (-(2 ^ 63 : Int)) (min (2 ^ 63 - 1) y.ring.offset)) (myDist y))))
  ∧ (∀ (h : FrameHdr) (s : State) (d : Byte) (o : W64) (t2 : BitVec 80) (t3 : BitVec 40),
      Hears s h (.timeRsp (hopOf h) t2.toNat t3.toNat o.toInt d.toNat) →
      exec (.timeRspFrame h t2 t3 o d) s = .next (timeRsp (trapHk3 (frameSeen s h.lane.val)) (hopOf h) t2 t3 o.toInt d.toNat))
  ∧ (∀ s : State, ringOn s = true → parked s = false → ∃ x, exec .timeExchangeTick s =
        .next (ringSend (ringSend x (.timeReq 0)) (.timeReq 1))
      ∧ x = { s with ring := { s.ring with t1 := [], dist := x.ring.dist } }
      ∧ x.ring.dist = Tab.drop s.ring.dist (fun hop => s.ring.t1.any (fun e => e.1 = hop)))
  ∧ (∀ (h : FrameHdr) (d : W64) (s : State), Hears s h (.step d.toInt) → let z := frameSeen s h.lane.val
      actsOn z h.lane.val = true → sentHere z h = false → ∃ y,
      exec (.stepFrame h d) s = .next (ringPass (trapHk3 y) h (.step d.toInt)) ∧ y = { z with ring := { z.ring with step := y.ring.step } }
      ∧ y.ring.step = (if isMaster z then z.ring.step else some (d.toInt * 65536 + z.ring.step.getD 0)))
  ∧ (∀ (h : FrameHdr) (n : BitVec 16) (l : List (BitVec 16)) (s : State), l.length = 16 →
      Hears s h (.allot n.toNat (l.map (fun a => a.toNat))) → let z := frameSeen s h.lane.val
      actsOn z h.lane.val = true → sentHere z h = false → ∃ y,
      exec (.allotFrame h n l) s = .next (ringPass (trapHk3 y) h (.allot n.toNat (l.map (fun a => a.toNat))))
      ∧ (z.ring.exchWait ≠ some n.toNat → y = z)
      ∧ (z.ring.exchWait = some n.toNat → y.ring.exchWait = none ∧ rd y F.lgRingStatusExchange = n.toNat
        ∧ rd y F.lgRingStatusHolding = min 65535 (rd z F.lgRingStatusHolding + (l.getD (hereAddr z) 0).toNat)))
  ∧ (∀ s s1 : State, ringSends s = true → isMaster s = true → s.ledger.ringRun = true →
      reach s (1000 * nsU * max s.ledger.exchAt (ceilDiv s.fine (1000 * nsU))) = some s1 →
      let s2 := if s1.ring.exchWait.isSome then flag0 s1 F.lgStatusRingStale else s1
      let n := (s1.ledger.exch + 1) % 65536
      ∃ y r d, exec .ledgerExchangeTick s = .next (sendPresence y (some (n, r, d)))
        ∧ y.ledger.exch = n ∧ y.ring.exchWait = some n ∧ exchangePart s2 n = ((r, d), (exchangePart s2 n).2))

/-- A BCAST frame that is not the unit's own is taken and passed on: a ring-wide item applies at once if it is a quiet
window or its tick has passed, else when its tick comes. An addressed frame for this unit ends here. A FWD_PKT next in
order enters the intake if it has room, and one ahead is dropped. INTAKE_TO_TELLER makes the first packet an item,
acknowledges it and executes it. FWD_ACK marks its packet acknowledged and returns a credit. A FWD_RCPT next in order
ends its item, and like one taken before is acknowledged. RCPT_ACK ends the retransmission of a receipt; 20 µs without
acknowledgement send a packet or receipt again. -/
def Obligations.BroadcastAndForwardRows : Prop :=
  (∀ (h : FrameHdr) (p : Packet) (s : State), Hears s h (.bcast p) → let y := frameSeen s h.lane.val
    actsOn y h.lane.val = true →
    (sentHere y h = false → xrState y = 3 → exec (.bcastFrame h p) s = .next (ringPass (bcastTake (trapHk3 y) p) h (.bcast p)))
    ∧ (sentHere y h = false → xrState y ≠ 3 → exec (.bcastFrame h p) s = .next (ringPass y h (.bcast p)))
    ∧ (sentHere y h = true → exec (.bcastFrame h p) s = .next y))
  ∧ (∀ (s : State) (p : Packet), (ringWide p = false → bcastTake s p = s)
    ∧ (ringWide p = true → isQuiet p = true ∨ p.launchTick.toNat ≤ fineTick s → bcastTake s p = effectNow s p)
    ∧ (ringWide p = true → isQuiet p = false → fineTick s < p.launchTick.toNat →
        bcastTake s p = { s with ring := { s.ring with bcasts := s.ring.bcasts ++ [p] } }))
  ∧ (∀ (i : Nat) (p : Packet) (s s1 : State), s.ring.bcasts[i]? = some p → reach s (nsU * p.launchTick.toNat) = some s1 →
    exec (.bcastTickApply i) s =
      .next (effectNow { s1 with ring := { s1.ring with bcasts := s1.ring.bcasts.eraseIdx i } } p))
  ∧ (∀ (s : State) (p : Packet), (linkHeld s = false → effectNow s p = packetEffect s p)
    ∧ (linkHeld s = true → effectNow s p = { s with host := { s.host with held := s.host.held ++ [.packet p] } }))
  ∧ (∀ (h : FrameHdr) (p : Packet) (hd : W32) (lv : BitVec 2) (s : State),
    Hears s h (.fwdPkt h.dst.toNat h.seq.toNat h.retry p hd.toNat lv.toNat) → EndsHere s h →
    let t := trapHk3 (frameSeen s h.lane.val)
    (seqPlace t h.src.toNat h.seq.toNat = .next → t.ring.intake.length < 1024 → ∃ x, exec (.fwdPktFrame h p hd lv) s = .next x
      ∧ x.ring.intake = t.ring.intake ++ [⟨h.src.toNat, hd.toNat, lv.toNat, p⟩]
      ∧ x = { t with ring := { t.ring with intake := x.ring.intake, seqRx := x.ring.seqRx } }
      ∧ Tab.get x.ring.seqRx h.src.toNat 0 = (Tab.get t.ring.seqRx h.src.toNat 0 + 1) % 256)
    ∧ (seqPlace t h.src.toNat h.seq.toNat = .ahead ∨ (seqPlace t h.src.toNat h.seq.toNat = .next ∧ 1024 ≤ t.ring.intake.length) →
        exec (.fwdPktFrame h p hd lv) s = .next t)
    ∧ (seqPlace t h.src.toNat h.seq.toNat = .old → exec (.fwdPktFrame h p hd lv) s =
        .next (if t.ring.intake.any (fun e => e.src = h.src.toNat && e.handle = hd.toNat) then t
          else ringSend t (.fwdAck h.src.toNat hd.toNat))))
  ∧ (∀ (s : State) (e : IntakeEnt) (rest : List IntakeEnt), let t := 2 * owner s
    s.ring.intake = e :: rest → hk3Up s = true → tellerMay s t = true → linkHeld s = false → fenced s (256 + e.src) t = false →
    let it := mkItem s (.fwd e.src e.handle) e.level t e.pkt
    exec .intakeToTeller s = .next (execute (ringSend (tally (addItem { s with ring := { s.ring with intake := rest } } it) (3 + t))
      (.fwdAck e.src e.handle)) it))
  ∧ (∀ (h : FrameHdr) (hd : W32) (s : State), Hears s h (.fwdAck h.dst.toNat hd.toNat) → EndsHere s h →
    let t := trapHk3 (frameSeen s h.lane.val)
    let o := t.ring.fwd.find? (fun w => w.item % 2 ^ 32 = hd.toNat && w.dst = h.src.toNat && w.sent && !w.acked)
    (∀ w, o = some w → exec (.fwdAckFrame h hd) s = .next (sendForwards (setCredits
        (updFwd t w.item (fun w => { w with acked := true })) h.src.toNat (min 64 (credits t h.src.toNat + 1))) h.src.toNat))
    ∧ (o = none → exec (.fwdAckFrame h hd) s = .next t))
  ∧ (∀ (h : FrameHdr) (hd : W32) (b : List Byte) (s : State), b.length = 32 →
    Hears s h (.fwdRcpt h.dst.toNat h.seq.toNat h.retry hd.toNat b) → EndsHere s h →
    let t := trapHk3 (frameSeen s h.lane.val)
    (seqPlace t h.src.toNat h.seq.toNat = .ahead → exec (.fwdRcptFrame h hd b) s = .next t)
    ∧ (seqPlace t h.src.toNat h.seq.toNat = .old → exec (.fwdRcptFrame h hd b) s = .next (ringSend t (.rcptAck h.src.toNat hd.toNat)))
    ∧ (seqPlace t h.src.toNat h.seq.toNat = .next →
      let x := seqTaken t h.src.toNat
      let o := x.ring.fwd.find? (fun w => w.item % 2 ^ 32 = hd.toNat && w.dst = h.src.toNat)
      (∀ w it, o = some w → findItem x w.item = some it →
        exec (.fwdRcptFrame h hd b) s = .next (ringSend (forwardEnds x w it b) (.rcptAck h.src.toNat hd.toNat)))
      ∧ ((∀ w, o = some w → findItem x w.item = none) → exec (.fwdRcptFrame h hd b) s =
          .next (ringSend (tally x 0x45) (.rcptAck h.src.toNat hd.toNat)))))
  ∧ (∀ (h : FrameHdr) (hd : W32) (s : State), Hears s h (.rcptAck h.dst.toNat hd.toNat) → EndsHere s h →
    let t := trapHk3 (frameSeen s h.lane.val)
    ∃ x, exec (.rcptAckFrame h hd) s = .next x ∧ x = { t with ring := x.ring }
    ∧ x.ring.rcpts = t.ring.rcpts.filter (fun r => !(r.handle = hd.toNat && r.dst = h.src.toNat)))
  ∧ (∀ (hd : W32) (s s1 : State), ringSends s = true →
    (∀ w it, fwdDue s hd.toNat = some w → (∀ x, rcptDue s hd.toNat = some x → w.at_ ≤ x.at_) → findItem s1 w.item = some it →
      lapse s (20 * usU + w.at_) = some s1 → exec (.fwdRetransmitExpiry hd) s = .next (resendFwd s1 w it))
    ∧ (∀ x, rcptDue s hd.toNat = some x → (∀ w, fwdDue s hd.toNat = some w → x.at_ < w.at_) →
      lapse s (20 * usU + x.at_) = some s1 → exec (.fwdRetransmitExpiry hd) s = .next (resendRcpt s1 x)))
  ∧ (∀ (s : State) (n : Nat),
    (∀ w, fwdDue s n = some w → w ∈ s.ring.fwd ∧ w.item % 2 ^ 32 = n ∧ w.sent = true ∧ w.acked = false ∧ xrPresent s w.dst = true)
    ∧ (∀ x, rcptDue s n = some x → x ∈ s.ring.rcpts ∧ x.handle = n ∧ xrPresent s x.dst = true
        ∧ ∀ y ∈ s.ring.rcpts, y.handle = n → xrPresent s y.dst = true → x.at_ ≤ y.at_)
    ∧ (rcptDue s n = none → ∀ y ∈ s.ring.rcpts, y.handle = n → xrPresent s y.dst = false))

/-- The rise of PWR_WARN acts on every item, LUN, bus and group and ends a running plan; its fall resumes all that
waited. BIST_STEP_END stores what the step in hand found and the plan goes on; when its budget is over its slice
reports INCOMPLETE, or with DIAG a free one of FAIL and INCOMPLETE. While SCAN_OK is 1 and PD_AON works the wrapper
takes BYPASS with 0, EXTEST with a free word, SCAN_SLICE with a slice, whose domain is powered, RESULT_READ with the
next word of the result store, LC_READ with LC_RAW and LC. Where scan may act it shifts a free word out of a connected
slice and 0 out of none; elsewhere SCAN_OUT is 0. -/
def Obligations.PowerWarningAndTestRows : Prop :=
  (∀ s : State, warn s = false → exec .pwrWarnRise s = .next (bistAbort (warnRises s)))
  ∧ (∀ s : State, exec .pwrWarnFall s = .next (modeProgress (powerNext (warnFalls s))))
  ∧ (∀ s : State, (bistRunning s = false → bistAbort s = s)
    ∧ (∀ p r, s.test.plan = p :: r → bistRunning s = true →
        ∃ x, bistAbort s = bistEnd (flag0 x F.bistStatusAborted)))
  ∧ (∀ s : State, s.power.phase ≠ some .offBist → rd (bistEnd s) F.bistStatusState = 2 ∧ (bistEnd s).test.plan = []
    ∧ rdB (bistEnd s) F.bistStatusBistDone = true ∧ rdB (bistEnd s) F.bistStatusResultsValid = true
    ∧ rd (bistEnd s) F.bistStatusGen = (rd s F.bistStatusGen + 1) % 65536)
  ∧ (∀ (r : BistResult) (s : State) (p : Nat) (l : List Nat), (Instr.bistStepEnd r).wellFormed = true → s.test.plan = p :: l →
    bistRunning s = true → stepReady s p = true →
    (p = memStep → exec (.bistStepEnd r) s = .next (bistNext (memResults s r) p))
    ∧ (p ≠ memStep → r.result = 1 ∨ r.result = 2 → exec (.bistStepEnd r) s = .next (bistNext (logicResult s p r) p)
      ∧ rd (logicResult s p r) F.bistSliceResult p = r.result.toNat
      ∧ rd (logicResult s p r) F.bistSliceElapsedUs p = r.elapsed.toNat))
  ∧ (∀ (s s1 : State) (p : Nat) (l : List Nat), s.test.plan = p :: l → bistRunning s = true →
    lapse s (s.test.stepAt + usU * stepBudget s) = some s1 →
    exec .bistBudgetExpiry s = .next (bistNext (budgetResult s1 p) p)
    ∧ (p ≠ memStep → rdB s F.bistCtlDiag = false → rd (budgetResult s1 p) F.bistSliceResult p = 3)
    ∧ (p ≠ memStep → rdB s F.bistCtlDiag = true →
        rd (budgetResult s1 p) F.bistSliceResult p = if Config.freeBit s1.freeCtr then 2 else 3))
  ∧ (∀ (s : State) (p : Nat) (r : List Nat),
    (parked s = true → bistRun s (p :: r) = bistRun (sliceResult s p 3 0) r)
    ∧ (parked s = false → ∃ x, bistRun s (p :: r) = powerUpAll x (stepDomains p) ∧ x.test.plan = p :: r ∧ x.test.stepAt = s.clk
        ∧ rd x F.bistStatusState = 1 ∧ rd x F.bistStatusStep = p % 32))
  ∧ (∀ s : State, lcScan s = true → s.power.poreset = false → s.power.mode ≠ .off →
    exec .wsBypass s = .next { s with test := { s.test with wir := 0, wdr := 0 } }
    ∧ exec .wsExtest s = .next { s with freeCtr := s.freeCtr + 1, test := { s.test with wir := 1, wdr := Config.freeWord s.freeCtr } }
    ∧ (∀ i : BitVec 5, let y := if i.toNat < 20 then some i.toNat else none
        let x := { s with test := { s.test with wir := 4, wdr := BitVec.ofNat 64 i.toNat, slice := y } }
        exec (.scanSlice i) s = .next (if i.toNat = 0 ∨ 20 ≤ i.toNat then x else powerUpAll x [i.toNat]))
    ∧ (∃ x n, exec .resultRead s = .next x ∧ n = (if s.test.wir = 5 then s.test.readIdx else 0) ∧ x.test.wir = 5
        ∧ x.test.wdr = resultWord s n ∧ x.test.readIdx = (n + 1) % 166 ∧ x = { s with test := x.test })
    ∧ (let w := BitVec.ofNat 64 ((s.power.straps >>> 5).toNat % 16 + 16 * lifeCycle s);
        exec .lcRead s = .next { s with test := { s.test with wir := 6, wdr := w } }))
  ∧ (∀ (e : Bool) (i : W64) (s : State), scanActs s = true →
    (s.test.slice = none → exec (.scanShift e i) s = .next { s with test := { s.test with scanOut := 0 } })
    ∧ (∀ k, s.test.slice = some k → exec (.scanShift e i) s =
        .next { s with freeCtr := s.freeCtr + 1, test := { s.test with scanOut := Config.freeWord s.freeCtr } }))
  ∧ (∀ (e : Bool) (i : W64) (s : State), scanActs s = false → exec (.scanShift e i) s = .next { s with test := { s.test with scanOut := 0 } })

end
end

