-- ==== Sys2Proof/Laws/Memory.lean ====
section
/-! SUPPORT. Laws of byte memory: every operation keeps the canonical form, and a read after a write. -/

namespace Sys2Proof.Machine

theorem Memory.above_iff {m : Memory} {a : Nat} : Memory.above m a = true ↔ ∀ c ∈ m, a < c.1 := by
  simp [Memory.above]

theorem Memory.wf_cons {a : Nat} {b : Byte} {r : Memory} :
    Memory.wf ((a, b) :: r) = true ↔ b ≠ 0 ∧ (∀ c ∈ r, a < c.1) ∧ Memory.wf r = true := by
  simp [Memory.wf, Memory.above_iff, and_assoc]

/-- Every entry after a write was there before, or is the byte written. -/
theorem Memory.mem_write {m : Memory} {a : Nat} {b : Byte} {c : Host.Cell} (h : c ∈ m.write a b) : c ∈ m ∨ c = (a, b) := by
  induction m with
  | nil =>
    simp only [Memory.write] at h
    split at h <;> simp_all
  | cons e r ih =>
    obtain ⟨a', b'⟩ := e
    simp only [Memory.write] at h
    split at h
    · split at h <;> (simp_all; try grind)
    · split at h
      · split at h <;> (simp_all; try grind)
      · simp only [List.mem_cons] at h ⊢
        rcases h with h | h
        · exact Or.inl (Or.inl h)
        · rcases ih h with h | h
          · exact Or.inl (Or.inr h)
          · exact Or.inr h

/-- A write keeps the canonical form. -/
theorem Memory.write_wf {m : Memory} {a : Nat} {b : Byte} (h : m.wf = true) : (m.write a b).wf = true := by
  induction m with
  | nil =>
    simp only [Memory.write]
    split
    · rfl
    · rename_i hb
      exact Memory.wf_cons.2 ⟨hb, by simp, rfl⟩
  | cons e r ih =>
    obtain ⟨a', b'⟩ := e
    have h1 := Memory.wf_cons.1 h
    simp only [Memory.write]
    split
    · rename_i ha
      split
      · exact h
      · rename_i hb
        rw [Memory.wf_cons]
        refine ⟨hb, ?_, h⟩
        intro c hc
        simp only [List.mem_cons] at hc
        rcases hc with rfl | hc
        · exact ha
        · exact Nat.lt_trans ha (h1.2.1 c hc)
    · split
      · rename_i ha
        split
        · exact h1.2.2
        · rename_i hb
          rw [Memory.wf_cons]
          exact ⟨hb, ha ▸ h1.2.1, h1.2.2⟩
      · rename_i ha ha'
        rw [Memory.wf_cons]
        refine ⟨h1.1, ?_, ih h1.2.2⟩
        intro c hc
        rcases Memory.mem_write hc with hc | rfl
        · exact h1.2.1 c hc
        · show a' < a
          omega

theorem Memory.writeList_wf {m : Memory} {a : Nat} {bs : List Byte} (h : m.wf = true) : (m.writeList a bs).wf = true := by
  induction bs generalizing m a with
  | nil => exact h
  | cons b r ih => exact ih (Memory.write_wf h)

/-- Dropping entries keeps the canonical form. -/
theorem Memory.filter_wf {m : Memory} {p : Host.Cell → Bool} (h : m.wf = true) : Memory.wf (m.filter p) = true := by
  induction m with
  | nil => rfl
  | cons e r ih =>
    obtain ⟨a, b⟩ := e
    have h1 := Memory.wf_cons.1 h
    simp only [List.filter_cons]
    split
    · rw [Memory.wf_cons]
      exact ⟨h1.1, fun c hc => h1.2.1 c (List.mem_filter.1 hc).1, ih h1.2.2⟩
    · exact ih h1.2.2

/-- An address below every entry reads 0. -/
theorem Memory.read_above {m : Memory} {a : Nat} (h : ∀ c ∈ m, a < c.1) : m.read a = 0 := by
  induction m with
  | nil => rfl
  | cons e r ih =>
    obtain ⟨a', b'⟩ := e
    have := h (a', b') (by simp)
    simp only at this
    simp only [Memory.read]
    rw [if_neg (by omega)]
    exact ih (fun c hc => h c (by simp [hc]))

/-- A read after a write gives the byte written at its address, and what stood there elsewhere. -/
theorem Memory.read_write {m : Memory} {a x : Nat} {b : Byte} (h : m.wf = true) :
    (m.write a b).read x = if x = a then b else m.read x := by
  induction m with
  | nil =>
    simp only [Memory.write]
    by_cases hb : b = 0
    · by_cases hx : x = a <;> simp [Memory.read, hb, hx]
    · rw [if_neg hb]
      by_cases hx : x = a
      · subst hx; simp [Memory.read]
      · rw [if_neg hx]
        simp [Memory.read, Ne.symm hx]
  | cons e r ih =>
    obtain ⟨a', b'⟩ := e
    have h1 := Memory.wf_cons.1 h
    simp only [Memory.write]
    split
    · rename_i ha
      by_cases hb : b = 0
      · simp only [hb, if_true]
        by_cases hx : x = a
        · subst hx
          simp only [if_true]
          apply Memory.read_above
          intro c hc
          simp only [List.mem_cons] at hc
          rcases hc with rfl | hc
          · exact ha
          · exact Nat.lt_trans ha (h1.2.1 c hc)
        · simp [hx]
      · rw [if_neg hb]
        by_cases hx : x = a
        · subst hx; simp [Memory.read]
        · rw [if_neg hx, Memory.read, if_neg (Ne.symm hx)]
    · split
      · rename_i ha
        subst ha
        by_cases hb : b = 0
        · simp only [hb, if_true]
          by_cases hx : x = a
          · subst hx
            simp only [if_true]
            exact Memory.read_above h1.2.1
          · simp [hx, Memory.read, Ne.symm hx]
        · rw [if_neg hb]
          by_cases hx : x = a
          · subst hx; simp [Memory.read]
          · simp [hx, Memory.read, Ne.symm hx]
      · rename_i ha ha'
        simp only [Memory.read]
        rw [ih h1.2.2]
        by_cases hx : a' = x
        · subst hx
          rw [if_pos rfl, if_neg (by omega), if_pos rfl]
        · rw [if_neg hx, if_neg hx]

end Sys2Proof.Machine
end

