-- ==== Sys2Proof/Laws/InvOps.lean ====
section
/-! SUPPORT. Every operation over the state keeps the invariant Sys2Proof.Machine.Inv: one lemma for each, in the order of
the definitions. -/

set_option linter.unusedTactic false
set_option linter.unreachableTactic false
set_option linter.unusedSimpArgs false

namespace Sys2Proof.Machine


/-- What every command keeps: the parts of the invariant, and the queue of the commands that wait. -/
structure Kept (wq pending : List Instr) (m : Memory) (tb : Nat) (hi : HiSt) (en : BitVec 20) : Prop where
  mem : m.wf = true
  time : tb < 2 ^ 80
  rdCred : hi.rdCred ≤ 255
  wrCred : hi.wrCred ≤ 255
  ids : hi.openIds.Nodup
  aon : en.getLsbD 0 = true
  queue : pending = wq

/-- A state that meets the invariant, with a given queue. -/
def InvQ (wq : List Instr) (s : State) : Prop := Kept wq s.pending s.staging.mem s.tb s.hi s.power.pswEn

theorem InvQ.of_inv {s : State} (h : Inv s) : InvQ s.pending s := ⟨h.mem, h.time, h.rdCred, h.wrCred, h.ids, h.aon, rfl⟩

theorem InvQ.inv {wq : List Instr} {s : State} (h : InvQ wq s) : Inv s := ⟨h.mem, h.time, h.rdCred, h.wrCred, h.ids, h.aon⟩

/-- The same of the state that a command leaves, if it leaves one. -/
def OutInv (wq : List Instr) (o : Out) : Prop := match o with | .next t => InvQ wq t | _ => True

/-- The same of a state that there may be. -/
def OptInv (wq : List Instr) (o : Option State) : Prop := match o with | some t => InvQ wq t | none => True

variable {wq : List Instr}

theorem OptInv.some {t : State} (h : InvQ wq t) : OptInv wq (some t) := h

theorem OptInv.none : OptInv wq none := trivial

theorem OutInv.fault {f : Fault} : OutInv wq (.fault f) := trivial

theorem OutInv.next {t : State} (h : InvQ wq t) : OutInv wq (.next t) := h

theorem InvQ.kept {s : State} (h : InvQ wq s) : Kept wq s.pending s.staging.mem s.tb s.hi s.power.pswEn := h

/-- What waits at the port and the writes outstanding are no part of the invariant. -/
theorem InvQ.kept_hi {s : State} {w : List HiReq} {x : List HiReq} {u : Tab (Nat × Nat) Nat} {l : Nat} (h : InvQ wq s) :
    Kept wq s.pending s.staging.mem s.tb
      { rdCred := s.hi.rdCred, wrCred := s.hi.wrCred, waiting := w, reads := s.hi.reads, writes := x, turn := u, lastHalf := l }
      s.power.pswEn := ⟨h.mem, h.time, h.rdCred, h.wrCred, h.ids, h.aon, h.queue⟩

theorem foldl_inv {α : Type} {f : State → α → State} {l : List α} {s : State} (h : InvQ wq s) (hf : ∀ s a, InvQ wq s → InvQ wq (f s a)) :
    InvQ wq (l.foldl f s) := by
  induction l generalizing s with
  | nil => exact h
  | cons a r ih => exact ih (hf s a h)

theorem foldl_inv_snd {α β : Type} {f : β × State → α → β × State} {l : List α} {p : β × State} (h : InvQ wq p.2)
    (hf : ∀ p a, InvQ wq p.2 → InvQ wq (f p a).2) : InvQ wq (l.foldl f p).2 := by
  induction l generalizing p with
  | nil => exact h
  | cons a r ih => exact ih (hf p a h)

theorem foldl_inv_thd {α β γ : Type} {f : β × γ × State → α → β × γ × State} {l : List α} {p : β × γ × State} (h : InvQ wq p.2.2)
    (hf : ∀ p a, InvQ wq p.2.2 → InvQ wq (f p a).2.2) : InvQ wq (l.foldl f p).2.2 := by
  induction l generalizing p with
  | nil => exact h
  | cons a r ih => exact ih (hf p a h)

theorem foldl_inv_mem {α : Type} {f : State → α → State} {l : List α} {s : State} (h : InvQ wq s)
    (hf : ∀ s, ∀ a ∈ l, InvQ wq s → InvQ wq (f s a)) : InvQ wq (l.foldl f s) := by
  induction l generalizing s with
  | nil => exact h
  | cons a r ih => exact ih (hf s a (by simp) h) (fun s b hb => hf s b (by simp [hb]))

theorem InvQ.mk_state {pending : List Instr} {regs : Tab Reg W64} {tb : Nat} {fine : Nat} {clk : Nat} {tbNext : Option Nat} {freeCtr : Nat} {nextId : Nat} {items : List Item} {rings : Tab Nat RingSt} {hold : List HeldRcpt} {fences : List FenceRun} {served : Tab Nat Nat} {luns : Tab Lun LunSt} {chans : Tab Nat ChanSt} {ledger : Ledger} {jobs : List Job} {engines : Tab Nat Job} {dma : Tab Nat DmaSt} {entryWait : List Entry} {fifos : Tab (Nat × Nat) Fifo} {hi : HiSt} {hiSeq : Tab Nat Nat} {staging : Staging} {patrol : Patrol} {boot : Boot} {micro : Tab (Nat × Nat) Micro} {ring : RingPort} {ringTx : List TxOut} {host : HostPort} {power : Power} {groups : Tab Nat Group} {test : TestSt}
    :
    InvQ wq (State.mk pending regs tb fine clk tbNext freeCtr nextId items rings hold fences served luns chans ledger jobs engines dma entryWait fifos hi hiSeq staging patrol boot micro ring ringTx host power groups test) ↔ Kept wq pending staging.mem tb hi power.pswEn := Iff.rfl

theorem setR_inv {s : State} {n : RegName} {i : Nat} {j : Nat} {k : Nat} {v : W64} (hs : InvQ wq s) : InvQ wq (setR s n i j k v) := by
  unfold setR
  try dsimp -iota only
  with_reducible repeat' (first | assumption | simp only [InvQ.mk_state] | apply InvQ.kept | dsimp -iota only)

theorem wr_inv {s : State} {f : Fld} {i : Nat} {j : Nat} {k : Nat} {v : Nat} (hs : InvQ wq s) : InvQ wq (wr s f i j k v) := by
  unfold wr
  try dsimp -iota only
  with_reducible repeat' (first | assumption | apply setR_inv | dsimp -iota only)

theorem wr0_inv {s : State} {f : Fld} {v : Nat} (hs : InvQ wq s) : InvQ wq (wr0 s f v) := by
  unfold wr0
  try dsimp -iota only
  with_reducible repeat' (first | assumption | apply wr_inv | dsimp -iota only)

theorem wr1_inv {s : State} {f : Fld} {i : Nat} {v : Nat} (hs : InvQ wq s) : InvQ wq (wr1 s f i v) := by
  unfold wr1
  try dsimp -iota only
  with_reducible repeat' (first | assumption | apply wr_inv | dsimp -iota only)

theorem flag0_inv {s : State} {f : Fld} (hs : InvQ wq s) : InvQ wq (flag0 s f) := by
  unfold flag0
  try dsimp -iota only
  with_reducible repeat' (first | assumption | apply wr0_inv | dsimp -iota only)

theorem flag1_inv {s : State} {f : Fld} {i : Nat} (hs : InvQ wq s) : InvQ wq (flag1 s f i) := by
  unfold flag1
  try dsimp -iota only
  with_reducible repeat' (first | assumption | apply wr1_inv | dsimp -iota only)

theorem addSat_inv {s : State} {f : Fld} {i : Nat} {n : Nat} (hs : InvQ wq s) : InvQ wq (addSat s f i n) := by
  unfold addSat
  try dsimp -iota only
  with_reducible repeat' (first | assumption | apply wr1_inv | dsimp -iota only)

theorem resetRegs_inv {s : State} {d : Nat} (hs : InvQ wq s) : InvQ wq (resetRegs s d) := by
  unfold resetRegs
  try dsimp -iota only
  with_reducible repeat' (first | assumption | simp only [InvQ.mk_state] | apply InvQ.kept | dsimp -iota only)

theorem updItem_inv {s : State} {id : Nat} {f : Item → Item} (hs : InvQ wq s) : InvQ wq (updItem s id f) := by
  unfold updItem
  try dsimp -iota only
  with_reducible repeat' (first | assumption | simp only [InvQ.mk_state] | apply InvQ.kept | dsimp -iota only | split)

theorem dropItem_inv {s : State} {id : Nat} (hs : InvQ wq s) : InvQ wq (dropItem s id) := by
  unfold dropItem
  try dsimp -iota only
  with_reducible repeat' (first | assumption | simp only [InvQ.mk_state] | apply InvQ.kept | dsimp -iota only)

theorem mark_inv {s : State} {id : Nat} {st : Status} (hs : InvQ wq s) : InvQ wq (mark s id st) := by
  unfold mark
  try dsimp -iota only
  with_reducible repeat' (first | assumption | apply updItem_inv | simp only [InvQ.mk_state] | apply InvQ.kept | dsimp -iota only | split)

theorem updLun_inv {s : State} {l : Lun} {f : LunSt → LunSt} (hs : InvQ wq s) : InvQ wq (updLun s l f) := by
  unfold updLun
  try dsimp -iota only
  with_reducible repeat' (first | assumption | simp only [InvQ.mk_state] | apply InvQ.kept | dsimp -iota only)

theorem updCh_inv {s : State} {ch : Nat} {f : ChanSt → ChanSt} (hs : InvQ wq s) : InvQ wq (updCh s ch f) := by
  unfold updCh
  try dsimp -iota only
  with_reducible repeat' (first | assumption | simp only [InvQ.mk_state] | apply InvQ.kept | dsimp -iota only)

theorem updRing_inv {s : State} {k : Nat} {f : RingSt → RingSt} (hs : InvQ wq s) : InvQ wq (updRing s k f) := by
  unfold updRing
  try dsimp -iota only
  with_reducible repeat' (first | assumption | simp only [InvQ.mk_state] | apply InvQ.kept | dsimp -iota only)

theorem updDma_inv {s : State} {d : Nat} {f : DmaSt → DmaSt} (hs : InvQ wq s) : InvQ wq (updDma s d f) := by
  unfold updDma
  try dsimp -iota only
  with_reducible repeat' (first | assumption | simp only [InvQ.mk_state] | apply InvQ.kept | dsimp -iota only)

theorem updGroup_inv {s : State} {g : Nat} {f : Group → Group} (hs : InvQ wq s) : InvQ wq (updGroup s g f) := by
  unfold updGroup
  try dsimp -iota only
  with_reducible repeat' (first | assumption | simp only [InvQ.mk_state] | apply InvQ.kept | dsimp -iota only)

theorem updFifo_inv {s : State} {ch : Nat} {f : Nat} {g : Fifo → Fifo} (hs : InvQ wq s) : InvQ wq (updFifo s ch f g) := by
  unfold updFifo
  try dsimp -iota only
  with_reducible repeat' (first | assumption | simp only [InvQ.mk_state] | apply InvQ.kept | dsimp -iota only)

theorem updMicro_inv {s : State} {j : Nat} {e' : Nat} {g : Micro → Micro} (hs : InvQ wq s) : InvQ wq (updMicro s j e' g) := by
  unfold updMicro
  try dsimp -iota only
  with_reducible repeat' (first | assumption | simp only [InvQ.mk_state] | apply InvQ.kept | dsimp -iota only)

theorem atFine_inv {s : State} {t' : Nat} (hs : InvQ wq s) : InvQ wq (atFine s t') := by
  unfold atFine
  try dsimp -iota only
  with_reducible repeat' (first | assumption | simp only [InvQ.mk_state] | apply InvQ.kept | dsimp -iota only)

theorem atClk_inv {s : State} {t' : Nat} (hs : InvQ wq s) : InvQ wq (atClk s t') := by
  unfold atClk
  try dsimp -iota only
  with_reducible repeat' (first | assumption | simp only [InvQ.mk_state] | apply InvQ.kept | dsimp -iota only)

theorem reach_inv {s : State} {t' : Nat} (hs : InvQ wq s) : OptInv wq (reach s t') := by
  unfold reach
  try dsimp -iota only
  with_reducible repeat' (first | assumption | apply atFine_inv | exact OptInv.none | apply OptInv.some | dsimp -iota only | split)
theorem reach_inv_eq {s : State} {t' : Nat} (hs : InvQ wq s) {t : State} (e : reach s t' = some t) : InvQ wq t := by
  have := reach_inv (s := s) (t' := t') hs
  rw [e] at this
  exact this

theorem lapse_inv {s : State} {t' : Nat} (hs : InvQ wq s) : OptInv wq (lapse s t') := by
  unfold lapse
  try dsimp -iota only
  with_reducible repeat' (first | assumption | apply atClk_inv | exact OptInv.none | apply OptInv.some | dsimp -iota only | split)
theorem lapse_inv_eq {s : State} {t' : Nat} (hs : InvQ wq s) {t : State} (e : lapse s t' = some t) : InvQ wq t := by
  have := lapse_inv (s := s) (t' := t') hs
  rw [e] at this
  exact this

theorem aonTick_inv {s : State} (hs : InvQ wq s) : InvQ wq (aonTick s) :=
  ⟨hs.mem, Nat.mod_lt _ (by decide), hs.rdCred, hs.wrCred, hs.ids, hs.aon, hs.queue⟩


theorem freeWord_inv {s : State} (hs : InvQ wq s) : InvQ wq (freeWord s).2 := by
  unfold freeWord
  try dsimp -iota only
  with_reducible repeat' (first | assumption | simp only [InvQ.mk_state] | apply InvQ.kept | dsimp -iota only)
theorem freeWord_inv_eq {s : State} (hs : InvQ wq s) {a₁ : _} {t : State} (e : freeWord s = (a₁, t)) : InvQ wq t := by
  have := freeWord_inv (s := s) hs
  rw [e] at this
  exact this

theorem freeBit_inv {s : State} (hs : InvQ wq s) : InvQ wq (freeBit s).2 := by
  unfold freeBit
  try dsimp -iota only
  with_reducible repeat' (first | assumption | simp only [InvQ.mk_state] | apply InvQ.kept | dsimp -iota only)
theorem freeBit_inv_eq {s : State} (hs : InvQ wq s) {a₁ : _} {t : State} (e : freeBit s = (a₁, t)) : InvQ wq t := by
  have := freeBit_inv (s := s) hs
  rw [e] at this
  exact this

theorem freeByte_inv {s : State} (hs : InvQ wq s) : InvQ wq (freeByte s).2 := by
  unfold freeByte
  try dsimp -iota only
  with_reducible repeat' (first | assumption | simp only [InvQ.mk_state] | apply InvQ.kept | dsimp -iota only)
theorem freeByte_inv_eq {s : State} (hs : InvQ wq s) {a₁ : _} {t : State} (e : freeByte s = (a₁, t)) : InvQ wq t := by
  have := freeByte_inv (s := s) hs
  rw [e] at this
  exact this

theorem freeBytes_inv {s : State} {n : Nat} (hs : InvQ wq s) : InvQ wq (freeBytes s n).2 := by
  induction n with
  | zero => exact hs
  | succ n ih => exact freeByte_inv ih
theorem freeBytes_inv_eq {s : State} {n : Nat} (hs : InvQ wq s) {a₁ : _} {t : State} (e : freeBytes s n = (a₁, t)) : InvQ wq t := by
  have := freeBytes_inv hs (n := n)
  rw [e] at this
  exact this


theorem coreMhz_inv {s : State} (hs : InvQ wq s) : InvQ wq (coreMhz s).2 := by
  unfold coreMhz
  try dsimp -iota only
  with_reducible repeat' (first | assumption | apply freeWord_inv | (refine freeWord_inv_eq ?_ (by assumption)) | dsimp -iota only | split)
theorem coreMhz_inv_eq {s : State} (hs : InvQ wq s) {a₁ : _} {t : State} (e : coreMhz s = (a₁, t)) : InvQ wq t := by
  have := coreMhz_inv (s := s) hs
  rw [e] at this
  exact this

theorem coreCycles_inv {s : State} {dt : Nat} (hs : InvQ wq s) : InvQ wq (coreCycles s dt).2 := by
  have h := coreMhz_inv hs
  unfold coreCycles
  cases e : coreMhz s with
  | mk f s1 => rw [e] at h; exact h
theorem coreCycles_inv_eq {s : State} {dt : Nat} (hs : InvQ wq s) {a₁ : _} {t : State} (e : coreCycles s dt = (a₁, t)) : InvQ wq t := by
  have := coreCycles_inv hs (dt := dt)
  rw [e] at this
  exact this


theorem forNat_inv {n : Nat} {f : State → Nat → State} {s : State} (hf : ∀ s i, InvQ wq s → InvQ wq (f s i)) (hs : InvQ wq s) : InvQ wq (forNat n f s) := by
  unfold forNat
  try dsimp -iota only
  with_reducible repeat' (first | assumption | apply hf | apply foldl_inv | dsimp -iota only | intro _)

end Sys2Proof.Machine
end

