-- ==== Sys2Proof/Laws/InvFlags.lean ====
section
/-! SUPPORT. Every operation over the state keeps the invariant Sys2Proof.Machine.Inv: one lemma for each, in the order of
the definitions. -/

set_option linter.unusedTactic false
set_option linter.unreachableTactic false
set_option linter.unusedSimpArgs false

namespace Sys2Proof.Machine

variable {wq : List Instr}

theorem irqSample_inv {s : State} {n : Nat} {v : Bool} (hs : InvQ wq s) : InvQ wq (irqSample s n v) := by
  unfold irqSample
  try dsimp -iota only
  with_reducible repeat' (first | assumption | apply wr1_inv | apply flag1_inv | dsimp -iota only | split)

theorem irqClaim_inv {s : State} {t' : Nat} (hs : InvQ wq s) : InvQ wq (irqClaim s t').2 := by
  unfold irqClaim
  try dsimp -iota only
  with_reducible repeat' (first | assumption | apply wr1_inv | dsimp -iota only | split)
theorem irqClaim_inv_eq {s : State} {t' : Nat} (hs : InvQ wq s) {a₁ : _} {t : State} (e : irqClaim s t' = (a₁, t)) : InvQ wq t := by
  have := irqClaim_inv (s := s) (t' := t') hs
  rw [e] at this
  exact this

theorem irqComplete_inv {s : State} {t' : Nat} {n : Nat} (hs : InvQ wq s) : InvQ wq (irqComplete s t' n) := by
  unfold irqComplete
  try dsimp -iota only
  with_reducible repeat' (first | assumption | apply wr1_inv | apply flag1_inv | dsimp -iota only | split)

theorem irqSrcWrite_inv {s : State} {n : Nat} {v : W64} (hs : InvQ wq s) : InvQ wq (irqSrcWrite s n v) := by
  unfold irqSrcWrite
  try dsimp -iota only
  with_reducible repeat' (first | assumption | apply wr1_inv | dsimp -iota only | split)

theorem tallyAdd_inv {s : State} {i : Nat} {n : Nat} (hs : InvQ wq s) : InvQ wq (tallyAdd s i n) := by
  unfold tallyAdd
  try dsimp -iota only
  with_reducible repeat' (first | assumption | apply wr1_inv | apply flag1_inv | dsimp -iota only | split)

theorem tallyQ_inv {s : State} {src : Nat} {q : Option (Nat × Nat)} {w : Option Nat} (hs : InvQ wq s) : InvQ wq (tallyQ s src q w) := by
  unfold tallyQ
  try dsimp -iota only
  with_reducible repeat' (first | assumption | apply tallyAdd_inv | apply foldl_inv | dsimp -iota only | split | intro _)

theorem tally_inv {s : State} {src : Nat} (hs : InvQ wq s) : InvQ wq (tally s src) := by
  unfold tally
  try dsimp -iota only
  with_reducible repeat' (first | assumption | apply tallyQ_inv | dsimp -iota only)

theorem tallyC_inv {s : State} {src : Nat} {cls : Nat} (hs : InvQ wq s) : InvQ wq (tallyC s src cls) := by
  unfold tallyC
  try dsimp -iota only
  with_reducible repeat' (first | assumption | apply tallyQ_inv | dsimp -iota only)

theorem tallyCW_inv {s : State} {src : Nat} {cls : Nat} {w : Nat} (hs : InvQ wq s) : InvQ wq (tallyCW s src cls w) := by
  unfold tallyCW
  try dsimp -iota only
  with_reducible repeat' (first | assumption | apply tallyQ_inv | dsimp -iota only)

theorem tallyW_inv {s : State} {src : Nat} {w : Nat} (hs : InvQ wq s) : InvQ wq (tallyW s src w) := by
  unfold tallyW
  try dsimp -iota only
  with_reducible repeat' (first | assumption | apply tallyQ_inv | dsimp -iota only)

theorem tallyN_inv {s : State} {src : Nat} {n : Nat} (hs : InvQ wq s) : InvQ wq (tallyN s src n) := by
  unfold tallyN
  try dsimp -iota only
  with_reducible repeat' (first | assumption | apply tallyAdd_inv | apply foldl_inv | dsimp -iota only | split | intro _)

theorem tallySnapshot_inv {s : State} (hs : InvQ wq s) : InvQ wq (tallySnapshot s) := by
  unfold tallySnapshot
  try dsimp -iota only
  with_reducible repeat' (first | assumption | apply forNat_inv | apply wr1_inv | apply flag0_inv | apply wr0_inv | apply foldl_inv | dsimp -iota only | intro _)

end Sys2Proof.Machine
end

