-- ==== Sys2Proof/Laws/InvMicro.lean ====
section
/-! SUPPORT. Every operation over the state keeps the invariant Sys2Proof.Machine.Inv: one lemma for each, in the order of
the definitions. -/

set_option linter.unusedTactic false
set_option linter.unreachableTactic false
set_option linter.unusedSimpArgs false

namespace Sys2Proof.Machine

variable {wq : List Instr}

theorem saveFrame_inv {s : State} {j : Nat} {e' : Nat} {m : Micro} (hs : InvQ wq s) : InvQ wq (saveFrame s j e' m) := by
  unfold saveFrame
  try dsimp -iota only
  with_reducible repeat' (first | assumption | apply wr_inv | apply foldl_inv | apply foldl_inv_snd | apply foldl_inv_thd | dsimp -iota only | intro _)

theorem raiseTrap_inv {s : State} {j : Nat} {e' : Nat} {c : Nat} (hs : InvQ wq s) : InvQ wq (raiseTrap s j e' c) := by
  unfold raiseTrap
  try dsimp -iota only
  with_reducible repeat' (first | assumption | apply updMicro_inv | simp only [InvQ.mk_state] | apply InvQ.kept | dsimp -iota only | split)

theorem raiseSeq_inv {s : State} {ch : Nat} {c : Nat} (hs : InvQ wq s) : InvQ wq (raiseSeq s ch c) := by
  unfold raiseSeq
  try dsimp -iota only
  with_reducible repeat' (first | assumption | apply raiseTrap_inv | dsimp -iota only)

theorem raiseTeller_inv {s : State} {t' : Nat} {c : Nat} (hs : InvQ wq s) : InvQ wq (raiseTeller s t' c) := by
  unfold raiseTeller
  try dsimp -iota only
  with_reducible repeat' (first | assumption | apply raiseTrap_inv | dsimp -iota only)

theorem microByRom_inv {s : State} {j : Nat} {e' : Nat} (hs : InvQ wq s) : InvQ wq (microByRom s j e') := by
  unfold microByRom
  try dsimp -iota only
  with_reducible repeat' (first | assumption | apply updMicro_inv | simp only [InvQ.mk_state] | apply InvQ.kept | dsimp -iota only)

theorem resetMicro_inv {s : State} {j : Nat} (hs : InvQ wq s) : InvQ wq (resetMicro s j) := by
  unfold resetMicro
  try dsimp -iota only
  with_reducible repeat' (first | assumption | simp only [InvQ.mk_state] | apply InvQ.kept | dsimp -iota only)

end Sys2Proof.Machine
end

