-- ==== Sys2Proof/Laws/InvIni.lean ====
section
/-! SUPPORT. Every operation over the state keeps the invariant Sys2Proof.Machine.Inv: one lemma for each, in the order of
the definitions. -/

set_option linter.unusedTactic false
set_option linter.unreachableTactic false
set_option linter.unusedSimpArgs false

namespace Sys2Proof.Machine

variable {wq : List Instr}

theorem pumpBeat_inv {s : State} {h : Nat} {d : Nat} (hs : InvQ wq s) : InvQ wq (pumpBeat s h d) := by
  unfold pumpBeat
  try dsimp -iota only
  with_reducible repeat' (first | assumption | apply tally_inv | apply updDma_inv | simp only [InvQ.mk_state] | apply InvQ.kept | apply InvQ.kept_hi | dsimp -iota only | split)

theorem pumpHalf_inv {h n : Nat} {s : State} (hs : InvQ wq s) : InvQ wq (pumpHalf h n s) := by
  induction n generalizing s with
  | zero => exact hs
  | succ n ih =>
    unfold pumpHalf
    split
    · exact ih (pumpBeat_inv hs)
    · exact hs


theorem pumpAll_inv {s : State} (hs : InvQ wq s) : InvQ wq (pumpAll s) := by
  unfold pumpAll
  try dsimp -iota only
  with_reducible repeat' (first | assumption | apply pumpHalf_inv | apply foldl_inv | dsimp -iota only | split | intro _)

theorem pumpSend_inv {s : State} {d : Nat} {rs : List HiReq} (hs : InvQ wq s) : InvQ wq (pumpSend s d rs) := by
  unfold pumpSend
  try dsimp -iota only
  with_reducible repeat' (first | assumption | apply updDma_inv | simp only [InvQ.mk_state] | apply InvQ.kept | dsimp -iota only)

theorem fetchDesc_inv {s : State} {d : Nat} (hs : InvQ wq s) : InvQ wq (fetchDesc s d) := by
  unfold fetchDesc
  try dsimp -iota only
  with_reducible repeat' (first | assumption | simp only [InvQ.mk_state] | apply InvQ.kept | apply InvQ.kept_hi | dsimp -iota only | split)

theorem descAdvance_inv {s : State} {d : Nat} (hs : InvQ wq s) : InvQ wq (descAdvance s d) := by
  unfold descAdvance
  try dsimp -iota only
  with_reducible repeat' (first | assumption | apply updDma_inv | apply wr1_inv | apply flag1_inv | apply tallyW_inv | apply fetchDesc_inv | simp only [InvQ.mk_state] | apply InvQ.kept | dsimp -iota only | split)

theorem issued_inv {s : State} {r : HiReq} (hs : InvQ wq s) : InvQ wq (issued s r) := by
  unfold issued
  try dsimp -iota only
  with_reducible repeat' (first | assumption | apply updDma_inv | apply descAdvance_inv | simp only [InvQ.mk_state] | apply InvQ.kept | dsimp -iota only | split)

/-- The head request of a half waits and may be presented. -/
theorem hiHead_can {s : State} {h : Nat} {p : HiReq × Nat} (e : hiHead s h = some p) :
    s.hi.waiting[p.2]? = some p.1 ∧ hiCan s p.1 = true := by
  have fold : ∀ (l : List (HiReq × Nat)) (o : Option (HiReq × Nat)) (p : HiReq × Nat),
      l.foldl (fun o p => match o with
        | none => some p
        | some q => if reqRank s p.1 < reqRank s q.1 then some p else some q) o = some p → p ∈ l ∨ o = some p := by
    intro l
    induction l with
    | nil => intro o p h; exact Or.inr h
    | cons a r ih =>
      intro o p h
      rcases ih _ _ h with h1 | h1
      · exact Or.inl (List.mem_cons_of_mem _ h1)
      · cases o with
        | none => simp only [Option.some.injEq] at h1; subst h1; exact Or.inl (by simp)
        | some q =>
          simp only at h1
          split at h1
          · simp only [Option.some.injEq] at h1; subst h1; exact Or.inl (by simp)
          · exact Or.inr h1
  rcases fold _ _ _ e with h1 | h1
  · rw [List.mem_filter] at h1
    obtain ⟨h1, h2⟩ := h1
    have h3 := List.mem_zipIdx h1
    simp only [Bool.and_eq_true] at h2
    refine ⟨?_, h2.2⟩
    simp at h3
    obtain ⟨h4, h5⟩ := h3
    rw [List.getElem?_eq_getElem h4, h5]
  · cases h1

/-- The request that the port takes next may be presented. -/
theorem hiPick_can {s : State} {i : Nat} (h : hiPick s = some i) : ∃ r, s.hi.waiting[i]? = some r ∧ hiCan s r = true := by
  have some_can : ∀ {h : Nat} {p : HiReq × Nat}, hiHead s h = some p → p.2 = i → ∃ r, s.hi.waiting[i]? = some r ∧ hiCan s r = true :=
    fun e h => ⟨_, h ▸ hiHead_can e⟩
  unfold hiPick at h
  split at h
  · rename_i a b e0 e1
    simp only [Option.some.injEq] at h
    split at h
    · exact some_can e0 h
    split at h
    · exact some_can e1 h
    split at h
    · exact some_can e1 h
    · exact some_can e0 h
  · rename_i a e0 _
    simp only [Option.some.injEq] at h
    exact some_can e0 h
  · rw [Option.map_eq_some_iff] at h
    obtain ⟨p, hp, hi⟩ := h
    exact some_can hp hi

/-- Taking a request that may be presented keeps the IDs of the outstanding reads apart (R369). -/
theorem hiTake_inv {s : State} {i : Nat} (hs : InvQ wq s) (hc : ∀ r, s.hi.waiting[i]? = some r → hiCan s r = true) : InvQ wq (hiTake s i) := by
  unfold hiTake
  split
  · exact hs
  · rename_i r hr
    have h := hc r hr
    apply issued_inv
    dsimp only
    simp only [InvQ.mk_state]
    split
    · exact ⟨hs.mem, hs.time, hs.rdCred, Nat.le_trans (Nat.sub_le _ _) hs.wrCred, hs.ids, hs.aon, hs.queue⟩
    · rename_i hw
      refine ⟨hs.mem, hs.time, Nat.le_trans (Nat.sub_le _ _) hs.rdCred, hs.wrCred, ?_, hs.aon, hs.queue⟩
      simp [hiCan, hw] at h
      simp only [HiSt.openIds, List.filter_append, List.map_append]
      rw [List.nodup_append]
      refine ⟨hs.ids, (List.Nodup.sublist (List.filter_sublist.map _) (List.nodup_singleton _)), ?_⟩
      intro a ha b hb
      have hb' : b = hiNextId s r.src := by
        simp only [List.mem_map, List.mem_filter, List.mem_singleton] at hb
        obtain ⟨q, ⟨rfl, -⟩, rfl⟩ := hb
        rfl
      rw [hb']
      intro e
      subst e
      simp at ha
      obtain ⟨q, ⟨hq, hd⟩, he⟩ := ha
      have h3 := h.2.2 q hq he
      rw [hd] at h3
      cases h3


theorem hiIssue_inv {s : State} {n : Nat} (hs : InvQ wq s) : InvQ wq (hiIssue s n) := by
  induction n generalizing s with
  | zero => exact hs
  | succ n ih =>
    unfold hiIssue
    split
    · exact hs
    · rename_i i h
      obtain ⟨r, hr, hc⟩ := hiPick_can h
      exact ih (pumpAll_inv (hiTake_inv hs (fun q hq => by rw [hr] at hq; cases hq; exact hc)))


theorem hiPump_inv {s : State} (hs : InvQ wq s) : InvQ wq (hiPump s) := by
  unfold hiPump
  try dsimp -iota only
  with_reducible repeat' (first | assumption | apply hiIssue_inv | apply pumpAll_inv | dsimp -iota only)

theorem hiSend_inv {s : State} {rs : List HiReq} (hs : InvQ wq s) : InvQ wq (hiSend s rs) :=
  hiPump_inv ⟨hs.mem, hs.time, hs.rdCred, hs.wrCred, hs.ids, hs.aon, hs.queue⟩


theorem ringKick_inv {s : State} {d : Nat} (hs : InvQ wq s) : InvQ wq (ringKick s d) := by
  unfold ringKick
  try dsimp -iota only
  with_reducible repeat' (first | assumption | apply hiPump_inv | apply fetchDesc_inv | dsimp -iota only)

theorem hiForget_inv {s : State} {p : HiReq → Bool} (hs : InvQ wq s) : InvQ wq (hiForget s p) := by
  unfold hiForget
  try dsimp -iota only
  with_reducible repeat' (first | assumption | simp only [InvQ.mk_state] | apply InvQ.kept | apply InvQ.kept_hi | dsimp -iota only)

/-- Reads that keep their IDs keep them apart. -/
theorem mapReads_inv {s : State} {f : HiReq → HiReq} (hs : InvQ wq s) (hf : ∀ r, (f r).id = r.id)
    (hd : ∀ r, r.done = true → (f r).done = true) : InvQ wq { s with hi := { s.hi with reads := s.hi.reads.map f } } := by
  have sub : ∀ l : List HiReq, (((l.map f).filter (fun r => !r.done)).map (fun r => r.id)).Sublist
      ((l.filter (fun r => !r.done)).map (fun r => r.id)) := by
    intro l
    induction l with
    | nil => exact List.Sublist.refl _
    | cons r q ih =>
      rw [List.map_cons, List.filter_cons, List.filter_cons]
      cases e : r.done with
      | true => simpa [hd r e] using ih
      | false =>
        cases e1 : (f r).done with
        | true => simpa using ih.cons _
        | false => simpa [hf] using ih
  exact ⟨hs.mem, hs.time, hs.rdCred, hs.wrCred, hs.ids.sublist (sub _), hs.aon, hs.queue⟩

/-- Reads whose answers are no longer used keep their IDs. -/
theorem dropReads_inv {s : State} {p : HiReq → Prop} [DecidablePred p] {u : HiUse} (hs : InvQ wq s) :
    InvQ wq { s with hi := { s.hi with reads := s.hi.reads.map (fun r => if p r then { r with use := u } else r) } } :=
  mapReads_inv hs (fun r => by split <;> rfl) (fun r h => by split <;> exact h)

theorem hiDrop_inv {s : State} {p : HiReq → Bool} (hs : InvQ wq s) : InvQ wq (hiDrop s p) := by
  have h := dropReads_inv (p := fun r => p r = true) (u := .dropped) (hiForget_inv (p := p) hs)
  exact ⟨h.mem, h.time, h.rdCred, h.wrCred, h.ids, h.aon, h.queue⟩


theorem hiLogErr_inv {s : State} {id : Nat} {code : Nat} {kind : Nat} (hs : InvQ wq s) : InvQ wq (hiLogErr s id code kind) := by
  unfold hiLogErr
  try dsimp -iota only
  with_reducible repeat' (first | assumption | apply wr0_inv | apply flag0_inv | apply addSat_inv | dsimp -iota only | split)

theorem readDone_inv {s : State} {r : HiReq} (hs : InvQ wq s) : InvQ wq (readDone s r) :=
  hiPump_inv ⟨hs.mem, hs.time, hs.rdCred, hs.wrCred, hs.ids.sublist ((List.erase_sublist.filter _).map _), hs.aon, hs.queue⟩


theorem fetchErr_inv {s : State} {r : HiReq} {err : Bool} (hs : InvQ wq s) : InvQ wq (fetchErr s r err) := by
  unfold fetchErr
  try dsimp -iota only
  with_reducible repeat' (first | assumption | apply freeWord_inv | (refine freeWord_inv_eq ?_ (by assumption)) | apply hiLogErr_inv | dsimp -iota only | split)

end Sys2Proof.Machine
end

