-- ==== Sys2Proof/Laws/InvRingWire.lean ====
section
/-! SUPPORT. Every operation over the state keeps the invariant Sys2Proof.Machine.Inv: one lemma for each, in the order of
the definitions. -/

set_option linter.unusedTactic false
set_option linter.unreachableTactic false
set_option linter.unusedSimpArgs false

namespace Sys2Proof.Machine

variable {wq : List Instr}

theorem updPort_inv {s : State} {f : RingPort → RingPort} (hs : InvQ wq s) : InvQ wq (updPort s f) := by
  unfold updPort
  try dsimp -iota only
  with_reducible repeat' (first | assumption | simp only [InvQ.mk_state] | apply InvQ.kept | dsimp -iota only)

theorem scrAt_inv {s : State} {lane : Nat} {t' : Nat} (hs : InvQ wq s) : InvQ wq (scrAt s lane t').2 := by
  unfold scrAt
  try dsimp -iota only
  with_reducible repeat' (first | assumption | apply freeWord_inv | (refine freeWord_inv_eq ?_ (by assumption)) | dsimp -iota only | split)
theorem scrAt_inv_eq {s : State} {lane : Nat} {t' : Nat} (hs : InvQ wq s) {a₁ : _} {t : State} (e : scrAt s lane t' = (a₁, t)) : InvQ wq t := by
  have := scrAt_inv (s := s) (lane := lane) (t' := t') hs
  rw [e] at this
  exact this

theorem stamped_inv {s : State} {t' : Nat} {f : TxFrame} (hs : InvQ wq s) : InvQ wq (stamped s t' f).2 := by
  unfold stamped
  try dsimp -iota only
  with_reducible repeat' (first | assumption | apply updPort_inv | simp only [InvQ.mk_state] | apply InvQ.kept | dsimp -iota only | split)
theorem stamped_inv_eq {s : State} {t' : Nat} {f : TxFrame} (hs : InvQ wq s) {a₁ : _} {t : State} (e : stamped s t' f = (a₁, t)) : InvQ wq t := by
  have := stamped_inv (s := s) (t' := t') (f := f) hs
  rw [e] at this
  exact this

theorem sendTx_inv {s : State} {w : TxWait} (hs : InvQ wq s) : InvQ wq (sendTx s w) := by
  unfold sendTx
  try dsimp -iota only
  with_reducible repeat' (first | assumption | apply stamped_inv | (refine stamped_inv_eq ?_ (by assumption)) | apply scrAt_inv | (refine scrAt_inv_eq ?_ (by assumption)) | apply updPort_inv | simp only [InvQ.mk_state] | apply InvQ.kept | dsimp -iota only)

theorem ringOff_inv {s : State} (hs : InvQ wq s) : InvQ wq (ringOff s) := by
  unfold ringOff
  try dsimp -iota only
  with_reducible repeat' (first | assumption | apply updPort_inv | simp only [InvQ.mk_state] | apply InvQ.kept | dsimp -iota only)

theorem drainLane_inv {lane : Nat} {x1 : Nat} {x2 : State} (hx2 : InvQ wq x2) : InvQ wq (drainLane lane x1 x2) := by
  induction x1 generalizing x2 with
  | zero => assumption
  | succ n ih =>
    unfold drainLane
    try dsimp -iota only
    with_reducible repeat' (first | assumption | apply ih | apply sendTx_inv | dsimp -iota only | split)

theorem ringDrain_inv {s : State} (hs : InvQ wq s) : InvQ wq (ringDrain s) := by
  unfold ringDrain
  try dsimp -iota only
  with_reducible repeat' (first | assumption | apply drainLane_inv | dsimp -iota only | split)

theorem ringPut_inv {s : State} {lane : Nat} {c : TxClass} {h : FrameHdr} {f : TxFrame} (hs : InvQ wq s) : InvQ wq (ringPut s lane c h f) := by
  unfold ringPut
  try dsimp -iota only
  with_reducible repeat' (first | assumption | apply ringDrain_inv | apply updPort_inv | simp only [InvQ.mk_state] | apply InvQ.kept | dsimp -iota only | split)

theorem ringSend_inv {s : State} {f : TxFrame} (hs : InvQ wq s) : InvQ wq (ringSend s f) := by
  unfold ringSend
  try dsimp -iota only
  with_reducible repeat' (first | assumption | apply ringPut_inv | dsimp -iota only | split)

end Sys2Proof.Machine
end

