-- ==== Sys2Proof/Laws/InvReceipt.lean ====
section
/-! SUPPORT. Every operation over the state keeps the invariant Sys2Proof.Machine.Inv: one lemma for each, in the order of
the definitions. -/

set_option linter.unusedTactic false
set_option linter.unreachableTactic false
set_option linter.unusedSimpArgs false

namespace Sys2Proof.Machine

variable {wq : List Instr}

theorem writeOne_inv {s : State} {h : HeldRcpt} (hs : InvQ wq s) : InvQ wq (writeOne s h) := by
  unfold writeOne
  try dsimp -iota only
  with_reducible repeat' (first | assumption | apply hiSend_inv | simp only [InvQ.mk_state] | apply InvQ.kept | dsimp -iota only | split)

theorem writeReceipts_inv {s : State} {k : Nat} (hs : InvQ wq s) : InvQ wq (writeReceipts s k) := by
  unfold writeReceipts
  try dsimp -iota only
  with_reducible repeat' (first | assumption | apply writeOne_inv | apply foldl_inv | dsimp -iota only | split | intro _)

theorem rewriteReceipts_inv {s : State} {k : Nat} (hs : InvQ wq s) : InvQ wq (rewriteReceipts s k) := by
  unfold rewriteReceipts
  try dsimp -iota only
  with_reducible repeat' (first | assumption | apply hiSend_inv | dsimp -iota only | split)

theorem rewriteLost_inv {s : State} {k : Nat} (hs : InvQ wq s) : InvQ wq (rewriteLost s k) := by
  unfold rewriteLost
  try dsimp -iota only
  with_reducible repeat' (first | assumption | apply hiSend_inv | dsimp -iota only | split)

theorem withdrawReceipts_inv {s : State} {k : Nat} (hs : InvQ wq s) : InvQ wq (withdrawReceipts s k) := by
  unfold withdrawReceipts
  try dsimp -iota only
  with_reducible repeat' (first | assumption | simp only [InvQ.mk_state] | apply InvQ.kept | apply InvQ.kept_hi | dsimp -iota only | split)

theorem rebindReceipts_inv {s : State} {k : Nat} (hs : InvQ wq s) : InvQ wq (rebindReceipts s k) := by
  unfold rebindReceipts
  try dsimp -iota only
  with_reducible repeat' (first | assumption | apply writeReceipts_inv | apply rewriteLost_inv | simp only [InvQ.mk_state] | apply InvQ.kept | apply InvQ.kept_hi | dsimp -iota only | split)

theorem tellerResume_inv {s : State} {t' : Nat} (hs : InvQ wq s) : InvQ wq (tellerResume s t') := by
  unfold tellerResume
  try dsimp -iota only
  with_reducible repeat' (first | assumption | apply writeReceipts_inv | apply rewriteLost_inv | apply foldl_inv | dsimp -iota only | split | intro _)

theorem holdPut_inv {s : State} {h : HeldRcpt} (hs : InvQ wq s) : InvQ wq (holdPut s h) := by
  unfold holdPut
  try dsimp -iota only
  with_reducible repeat' (first | assumption | apply writeReceipts_inv | simp only [InvQ.mk_state] | apply InvQ.kept | dsimp -iota only)

theorem nextSeq_inv {s : State} {dst : Nat} (hs : InvQ wq s) : InvQ wq (nextSeq s dst).2 := by
  unfold nextSeq
  try dsimp -iota only
  with_reducible repeat' (first | assumption | simp only [InvQ.mk_state] | apply InvQ.kept | dsimp -iota only)
theorem nextSeq_inv_eq {s : State} {dst : Nat} (hs : InvQ wq s) {a₁ : _} {t : State} (e : nextSeq s dst = (a₁, t)) : InvQ wq t := by
  have := nextSeq_inv (s := s) (dst := dst) hs
  rw [e] at this
  exact this

theorem sendFwdRcpt_inv {s : State} {dst : Nat} {handle : Nat} {b : List Byte} (hs : InvQ wq s) : InvQ wq (sendFwdRcpt s dst handle b) := by
  unfold sendFwdRcpt
  try dsimp -iota only
  with_reducible repeat' (first | assumption | apply nextSeq_inv | (refine nextSeq_inv_eq ?_ (by assumption)) | apply ringSend_inv | apply tally_inv | simp only [InvQ.mk_state] | apply InvQ.kept | dsimp -iota only | split)

theorem cleanup_inv {s : State} {id : Nat} (hs : InvQ wq s) : InvQ wq (cleanup s id) := by
  unfold cleanup
  try dsimp -iota only
  with_reducible repeat' (first | assumption | simp only [InvQ.mk_state] | apply InvQ.kept | dsimp -iota only | split)

theorem tallyEnd_inv {s : State} {it : Item} {st : Status} (hs : InvQ wq s) : InvQ wq (tallyEnd s it st) := by
  unfold tallyEnd
  try dsimp -iota only
  with_reducible repeat' (first | assumption | apply tallyC_inv | dsimp -iota only | split)

theorem relocCompose_inv {s : State} {it : Item} {r : Reloc} {empty : Bool} (hs : InvQ wq s) : InvQ wq (relocCompose s it r empty) := by
  unfold relocCompose
  try dsimp -iota only
  with_reducible repeat' (first | assumption | simp only [InvQ.mk_state] | apply InvQ.kept | dsimp -iota only)

theorem relocWrite_inv {s : State} {it : Item} {r : Reloc} {empty : Bool} (hs : InvQ wq s) : InvQ wq (relocWrite s it r empty) := by
  unfold relocWrite
  try dsimp -iota only
  with_reducible repeat' (first | assumption | apply relocCompose_inv | simp only [InvQ.mk_state] | apply InvQ.kept | dsimp -iota only | split)

theorem relocNext_inv {s : State} (hs : InvQ wq s) : InvQ wq (relocNext s) := by
  unfold relocNext
  try dsimp -iota only
  with_reducible repeat' (first | assumption | apply relocCompose_inv | simp only [InvQ.mk_state] | apply InvQ.kept | dsimp -iota only | split)

theorem patrolEnd_inv {s : State} {it : Item} (hs : InvQ wq s) : InvQ wq (patrolEnd s it) := by
  unfold patrolEnd
  try dsimp -iota only
  with_reducible repeat' (first | assumption | apply relocWrite_inv | dsimp -iota only | split)

theorem endCore_inv {s : State} {id : Nat} (hs : InvQ wq s) : InvQ wq (endCore s id) := by
  unfold endCore
  try dsimp -iota only
  with_reducible repeat' (first | assumption | apply dropItem_inv | apply cleanup_inv | apply holdPut_inv | apply tallyEnd_inv | apply sendFwdRcpt_inv | apply tally_inv | apply patrolEnd_inv | simp only [InvQ.mk_state] | apply InvQ.kept | dsimp -iota only | split)

theorem endFences_inv {s : State} (hs : InvQ wq s) : InvQ wq (endFences s) := by
  unfold endFences
  try dsimp -iota only
  with_reducible repeat' (first | assumption | apply endCore_inv | apply foldl_inv | simp only [InvQ.mk_state] | apply InvQ.kept | dsimp -iota only | intro _)

theorem swapGather_inv {s : State} {w : Swap} {it : Item} (hs : InvQ wq s) : InvQ wq (swapGather s w it) := by
  unfold swapGather
  try dsimp -iota only
  with_reducible repeat' (first | assumption | apply updItem_inv | simp only [InvQ.mk_state] | apply InvQ.kept | dsimp -iota only | split)

theorem swapEnd_inv {s : State} {ms : List Status} (hs : InvQ wq s) : InvQ wq (swapEnd s ms) := by
  unfold swapEnd
  try dsimp -iota only
  with_reducible repeat' (first | assumption | apply mark_inv | apply endFences_inv | apply endCore_inv | apply foldl_inv | simp only [InvQ.mk_state] | apply InvQ.kept | dsimp -iota only | split | intro _)

theorem loadReadEnds_inv {s : State} {l : Load} {ms : List Status} (hs : InvQ wq s) : InvQ wq (loadReadEnds s l ms) := by
  unfold loadReadEnds
  try dsimp -iota only
  with_reducible repeat' (first | assumption | simp only [InvQ.mk_state] | apply InvQ.kept | dsimp -iota only | split)

theorem endItem_inv {s : State} {id : Nat} (hs : InvQ wq s) : InvQ wq (endItem s id) := by
  unfold endItem
  try dsimp -iota only
  with_reducible repeat' (first | assumption | apply loadReadEnds_inv | apply endCore_inv | apply swapEnd_inv | apply swapGather_inv | apply endFences_inv | dsimp -iota only | split)

theorem endWith_inv {s : State} {id : Nat} {st : Status} (hs : InvQ wq s) : InvQ wq (endWith s id st) := by
  unfold endWith
  try dsimp -iota only
  with_reducible repeat' (first | assumption | apply endItem_inv | apply mark_inv | dsimp -iota only)

theorem endAll_inv {s : State} {ids : List Nat} {st : Status} (hs : InvQ wq s) : InvQ wq (endAll s ids st) := by
  unfold endAll
  try dsimp -iota only
  with_reducible repeat' (first | assumption | apply endWith_inv | apply foldl_inv | dsimp -iota only | intro _)

theorem coalCount_inv {s : State} {k : Nat} (hs : InvQ wq s) : InvQ wq (coalCount s k) := by
  unfold coalCount
  try dsimp -iota only
  with_reducible repeat' (first | assumption | apply flag1_inv | dsimp -iota only | split)

theorem receiptIrq_inv {s : State} {k : Nat} {h : HeldRcpt} (hs : InvQ wq s) : InvQ wq (receiptIrq s k h) := by
  unfold receiptIrq
  try dsimp -iota only
  with_reducible repeat' (first | assumption | apply updRing_inv | apply coalCount_inv | apply flag1_inv | simp only [InvQ.mk_state] | apply InvQ.kept | dsimp -iota only | split)

theorem rcptWritten_inv {s : State} {k : Nat} {h : HeldRcpt} (hs : InvQ wq s) : InvQ wq (rcptWritten s k h) := by
  unfold rcptWritten
  try dsimp -iota only
  with_reducible repeat' (first | assumption | apply receiptIrq_inv | apply updRing_inv | apply endFences_inv | simp only [InvQ.mk_state] | apply InvQ.kept | dsimp -iota only | split)

theorem tailStep_inv {s : State} {k : Nat} {h : HeldRcpt} (hs : InvQ wq s) : InvQ wq (tailStep s k h) := by
  unfold tailStep
  try dsimp -iota only
  with_reducible repeat' (first | assumption | apply updRing_inv | apply wr1_inv | apply rcptWritten_inv | simp only [InvQ.mk_state] | apply InvQ.kept | dsimp -iota only | split)

theorem tailAdvance_inv {s : State} {k : Nat} {x2 : Nat} (hs : InvQ wq s) : InvQ wq (tailAdvance s k x2) := by
  induction x2 generalizing s with
  | zero => assumption
  | succ n ih =>
    unfold tailAdvance
    try dsimp -iota only
    with_reducible repeat' (first | assumption | apply ih | apply tailStep_inv | dsimp -iota only | split)

theorem receiptAck_inv {s : State} {k : Nat} {slot : Nat} {item : Nat} {err : Nat} (hs : InvQ wq s) : InvQ wq (receiptAck s k slot item err) := by
  unfold receiptAck
  try dsimp -iota only
  with_reducible repeat' (first | assumption | apply withdrawReceipts_inv | apply flag1_inv | apply updRing_inv | apply tailAdvance_inv | simp only [InvQ.mk_state] | apply InvQ.kept | dsimp -iota only | split)

end Sys2Proof.Machine
end

