-- ==== Sys2Proof/Laws/InvStaging.lean ====
section
/-! SUPPORT. Every operation over the state keeps the invariant Sys2Proof.Machine.Inv: one lemma for each, in the order of
the definitions. -/

set_option linter.unusedTactic false
set_option linter.unreachableTactic false
set_option linter.unusedSimpArgs false

namespace Sys2Proof.Machine

variable {wq : List Instr}

theorem setMeta_inv {s : State} {n : Nat} {m : LineMeta} (hs : InvQ wq s) : InvQ wq (setMeta s n m) := by
  unfold setMeta
  try dsimp -iota only
  with_reducible repeat' (first | assumption | simp only [InvQ.mk_state] | apply InvQ.kept | dsimp -iota only)

theorem eccLog_inv {s : State} {b : Nat} {ln : Nat} {w : Nat} {bit_ : Nat} {ue : Bool} {scrub : Bool} (hs : InvQ wq s) : InvQ wq (eccLog s b ln w bit_ ue scrub) := by
  unfold eccLog
  try dsimp -iota only
  with_reducible repeat' (first | assumption | apply setR_inv | dsimp -iota only | split)

theorem eccCorrected_inv {s : State} {b : Nat} {ln : Nat} {w : Nat} {bit_ : Nat} {scrub : Bool} (hs : InvQ wq s) : InvQ wq (eccCorrected s b ln w bit_ scrub) := by
  unfold eccCorrected
  try dsimp -iota only
  with_reducible repeat' (first | assumption | apply tally_inv | apply eccLog_inv | apply flag0_inv | apply addSat_inv | dsimp -iota only)

theorem eccUncorrectable_inv {s : State} {b : Nat} {ln : Nat} {w : Nat} {scrub : Bool} (hs : InvQ wq s) : InvQ wq (eccUncorrectable s b ln w scrub) := by
  unfold eccUncorrectable
  try dsimp -iota only
  with_reducible repeat' (first | assumption | apply tally_inv | apply eccLog_inv | apply flag0_inv | apply addSat_inv | dsimp -iota only)

theorem takeFlip_inv {s : State} {b : Nat} (hs : InvQ wq s) : InvQ wq (takeFlip s b).2 := by
  unfold takeFlip
  try dsimp -iota only
  with_reducible repeat' (first | assumption | apply flag0_inv | apply wr0_inv | apply setR_inv | dsimp -iota only | split)
theorem takeFlip_inv_eq {s : State} {b : Nat} (hs : InvQ wq s) {a₁ : _} {t : State} (e : takeFlip s b = (a₁, t)) : InvQ wq t := by
  have := takeFlip_inv (s := s) (b := b) hs
  rw [e] at this
  exact this

theorem writeLine_inv {s : State} {b : Nat} {ln : Nat} {data : List Byte} {poison : Bool} (hs : InvQ wq s) : InvQ wq (writeLine s b ln data poison) := by
  have h := takeFlip_inv (b := b) hs
  unfold writeLine
  cases e : takeFlip s b with
  | mk fl s1 =>
    rw [e] at h
    exact ⟨Memory.writeList_wf h.mem, h.time, h.rdCred, h.wrCred, h.ids, h.aon, h.queue⟩

/-- The effect of one word's errors on a line read keeps the invariant. -/
theorem readWord_inv {b ln : Nat} {scrub : Bool} {r : LineRead} {f : Nat × W64 × Byte} (hs : InvQ wq r.st) :
    InvQ wq (readWord b ln scrub r f).st := by
  obtain ⟨w, d, c⟩ := f
  unfold readWord
  dsimp only
  by_cases h0 : popCount 64 d.toNat + popCount 8 c.toNat = 0
  · rw [if_pos h0]; exact hs
  rw [if_neg h0]
  by_cases h1 : popCount 64 d.toNat + popCount 8 c.toNat = 1
  · rw [if_pos h1]; exact eccCorrected_inv hs
  rw [if_neg h1]
  by_cases h2 : popCount 64 d.toNat + popCount 8 c.toNat = 2
  · rw [if_pos h2]; exact eccUncorrectable_inv hs
  rw [if_neg h2]
  have h3 := freeWord_inv (freeBit_inv hs)
  split
  · exact eccUncorrectable_inv h3
  · exact eccCorrected_inv (freeWord_inv h3)

theorem readWords_inv {b ln : Nat} {scrub : Bool} {l : List (Nat × W64 × Byte)} {r : LineRead} (hs : InvQ wq r.st) :
    InvQ wq (l.foldl (readWord b ln scrub) r).st := by
  induction l generalizing r with
  | nil => exact hs
  | cons f l ih => exact ih (readWord_inv hs)

theorem readLine_inv {s : State} {b ln : Nat} {scrub : Bool} (hs : InvQ wq s) : InvQ wq (readLine s b ln scrub).st := by
  unfold readLine
  dsimp -iota only
  split
  · exact readWords_inv hs
  · have h4 := freeWord_inv (freeBit_inv (freeBit_inv (freeBytes_inv (n := 64) hs)))
    dsimp only
    split
    · apply eccUncorrectable_inv
      split
      · exact eccCorrected_inv h4
      · exact h4
    · split
      · exact eccCorrected_inv h4
      · exact h4


theorem clearRow_inv {s : State} {b : Nat} {row : Nat} (hs : InvQ wq s) : InvQ wq (clearRow s b row) := by
  unfold clearRow
  try dsimp -iota only
  with_reducible repeat' (first | assumption | apply forNat_inv | apply setMeta_inv | apply foldl_inv | simp only [InvQ.mk_state] | apply InvQ.kept | dsimp -iota only | intro _)

theorem readLines_inv {s : State} {b ln n : Nat} (hs : InvQ wq s) : InvQ wq (readLines s b ln n).2.2 := by
  induction n with
  | zero => exact hs
  | succ n ih =>
    unfold readLines
    revert ih
    cases readLines s b ln n with
    | mk bs q => exact fun ih => readLine_inv ih
theorem readLines_inv_eq {s : State} {b ln n : Nat} (hs : InvQ wq s) {a₁ : _} {b₁ : _} {t : State} (e : readLines s b ln n = (a₁, b₁, t)) : InvQ wq t := by
  have := readLines_inv (b := b) (ln := ln) (n := n) hs
  rw [e] at this
  exact this


theorem readWritten_inv {s : State} {b ln n : Nat} (hs : InvQ wq s) : InvQ wq (readWritten s b ln n).2 := by
  induction n with
  | zero => exact hs
  | succ n ih =>
    unfold readWritten
    revert ih
    cases readWritten s b ln n with
    | mk bs q =>
      intro ih
      dsimp only
      split
      · exact readLine_inv ih
      · exact ih
theorem readWritten_inv_eq {s : State} {b ln n : Nat} (hs : InvQ wq s) {a₁ : _} {t : State} (e : readWritten s b ln n = (a₁, t)) : InvQ wq t := by
  have := readWritten_inv (b := b) (ln := ln) (n := n) hs
  rw [e] at this
  exact this


theorem writeLines_inv {s : State} {b : Nat} {ln : Nat} {data : List Byte} {ps : List Bool} (hs : InvQ wq s) : InvQ wq (writeLines s b ln data ps) := by
  unfold writeLines
  try dsimp -iota only
  with_reducible repeat' (first | assumption | apply forNat_inv | apply writeLine_inv | apply foldl_inv | dsimp -iota only | intro _)

theorem slotRead_inv {s : State} {sl : Nat} {off : Nat} {n : Nat} (hs : InvQ wq s) : InvQ wq (slotRead s sl off n).2.2 := by
  unfold slotRead
  try dsimp -iota only
  with_reducible repeat' (first | assumption | apply readLines_inv | (refine readLines_inv_eq ?_ (by assumption)) | dsimp -iota only)
theorem slotRead_inv_eq {s : State} {sl : Nat} {off : Nat} {n : Nat} (hs : InvQ wq s) {a₁ : _} {b₁ : _} {t : State} (e : slotRead s sl off n = (a₁, b₁, t)) : InvQ wq t := by
  have := slotRead_inv (s := s) (sl := sl) (off := off) (n := n) hs
  rw [e] at this
  exact this

theorem slotWrite_inv {s : State} {sl : Nat} {off : Nat} {data : List Byte} {ps : optParam (List Bool) []} (hs : InvQ wq s) : InvQ wq (slotWrite s sl off data ps) := by
  unfold slotWrite
  try dsimp -iota only
  with_reducible repeat' (first | assumption | apply writeLines_inv | dsimp -iota only)

theorem askSlots_inv {s : State} {id : Nat} {n : Nat} {soft : Bool} (hs : InvQ wq s) : InvQ wq (askSlots s id n soft) := by
  unfold askSlots
  try dsimp -iota only
  with_reducible repeat' (first | assumption | simp only [InvQ.mk_state] | apply InvQ.kept | dsimp -iota only | split)

theorem freeSlot_inv {s : State} {sl : Nat} (hs : InvQ wq s) : InvQ wq (freeSlot s sl) := by
  unfold freeSlot
  try dsimp -iota only
  with_reducible repeat' (first | assumption | simp only [InvQ.mk_state] | apply InvQ.kept | dsimp -iota only)

theorem freeSoft_inv {s : State} {id : Nat} (hs : InvQ wq s) : InvQ wq (freeSoft s id) := by
  unfold freeSoft
  try dsimp -iota only
  with_reducible repeat' (first | assumption | apply updItem_inv | apply freeSlot_inv | apply foldl_inv | simp only [InvQ.mk_state] | apply InvQ.kept | dsimp -iota only | split | intro _)

theorem scrubLine_inv {s : State} {b ln : Nat} (hs : InvQ wq s) : InvQ wq (scrubLine s b ln) := by
  have h0 := readLine_inv (b := b) (ln := ln) (scrub := true) hs
  unfold scrubLine
  dsimp only
  generalize e : (if (List.filter _ _).isEmpty = true then _ else _) = p
  have h : InvQ wq p.2 := by
    rw [← e]
    split
    · exact h0
    · exact takeFlip_inv h0
  obtain ⟨fl, s2⟩ := p
  exact tally_inv (setMeta_inv ⟨Memory.writeList_wf h.mem, h.time, h.rdCred, h.wrCred, h.ids, h.aon, h.queue⟩)


theorem scrubVisit_inv {s : State} (hs : InvQ wq s) : InvQ wq (scrubVisit s) := by
  unfold scrubVisit
  try dsimp -iota only
  with_reducible repeat' (first | assumption | apply scrubLine_inv | apply wr0_inv | simp only [InvQ.mk_state] | apply InvQ.kept | dsimp -iota only | split)

end Sys2Proof.Machine
end

