-- ==== Sys2Proof/Laws/InvFifos.lean ====
section
/-! SUPPORT. Every operation over the state keeps the invariant Sys2Proof.Machine.Inv: one lemma for each, in the order of
the definitions. -/

set_option linter.unusedTactic false
set_option linter.unreachableTactic false
set_option linter.unusedSimpArgs false

namespace Sys2Proof.Machine

variable {wq : List Instr}

theorem afterPops_inv {s : State} {f : Fifo} {b : List Byte} (hs : InvQ wq s) : InvQ wq (afterPops s f b).2 := by
  unfold afterPops
  try dsimp -iota only
  with_reducible repeat' (first | assumption | apply freeBytes_inv | (refine freeBytes_inv_eq ?_ (by assumption)) | dsimp -iota only | split)
theorem afterPops_inv_eq {s : State} {f : Fifo} {b : List Byte} (hs : InvQ wq s) {a₁ : _} {t : State} (e : afterPops s f b = (a₁, t)) : InvQ wq t := by
  have := afterPops_inv (s := s) (f := f) (b := b) hs
  rw [e] at this
  exact this

end Sys2Proof.Machine
end

