-- ==== Sys2Proof/Laws/InvCycles.lean ====
section
/-! SUPPORT. Every operation over the state keeps the invariant Sys2Proof.Machine.Inv: one lemma for each, in the order of
the definitions. -/

set_option linter.unusedTactic false
set_option linter.unreachableTactic false
set_option linter.unusedSimpArgs false

namespace Sys2Proof.Machine

variable {wq : List Instr}

theorem takeChFlip_inv {s : State} {ch : Nat} (hs : InvQ wq s) : InvQ wq (takeChFlip s ch).2 := by
  unfold takeChFlip
  try dsimp -iota only
  with_reducible repeat' (first | assumption | apply wr1_inv | apply setR_inv | dsimp -iota only | split)
theorem takeChFlip_inv_eq {s : State} {ch : Nat} (hs : InvQ wq s) {a₁ : _} {t : State} (e : takeChFlip s ch = (a₁, t)) : InvQ wq t := by
  have := takeChFlip_inv (s := s) (ch := ch) hs
  rw [e] at this
  exact this

theorem storedPage_inv {s : State} {p : Page} (hs : InvQ wq s) : InvQ wq (storedPage s p).2 := by
  unfold storedPage
  try dsimp -iota only
  with_reducible repeat' (first | assumption | apply slotRead_inv | (refine slotRead_inv_eq ?_ (by assumption)) | dsimp -iota only | split)
theorem storedPage_inv_eq {s : State} {p : Page} (hs : InvQ wq s) {a₁ : _} {t : State} (e : storedPage s p = (a₁, t)) : InvQ wq t := by
  have := storedPage_inv (s := s) (p := p) hs
  rw [e] at this
  exact this

theorem encodePage_inv {s : State} {it : Item} {p : Page} (hs : InvQ wq s) : InvQ wq (encodePage s it p).2 := by
  unfold encodePage
  try dsimp -iota only
  with_reducible repeat' (first | assumption | apply takeChFlip_inv | (refine takeChFlip_inv_eq ?_ (by assumption)) | apply storedPage_inv | (refine storedPage_inv_eq ?_ (by assumption)) | apply flag1_inv | dsimp -iota only | split)
theorem encodePage_inv_eq {s : State} {it : Item} {p : Page} (hs : InvQ wq s) {a₁ : _} {t : State} (e : encodePage s it p = (a₁, t)) : InvQ wq t := by
  have := encodePage_inv (s := s) (it := it) (p := p) hs
  rw [e] at this
  exact this

theorem outputPass_inv {s : State} {it : Item} {p : Page} (hs : InvQ wq s) : InvQ wq (outputPass s it p) := by
  unfold outputPass
  try dsimp -iota only
  with_reducible repeat' (first | assumption | apply encodePage_inv | (refine encodePage_inv_eq ?_ (by assumption)) | apply updFifo_inv | dsimp -iota only)

theorem dropFlashOut_inv {s : State} {ch : Nat} (hs : InvQ wq s) : InvQ wq (dropFlashOut s ch) := by
  unfold dropFlashOut
  try dsimp -iota only
  with_reducible repeat' (first | assumption | apply updCh_inv | apply updFifo_inv | simp only [InvQ.mk_state] | apply InvQ.kept | dsimp -iota only)

theorem flashOutImage_inv {s : State} {ch : Nat} {n : Nat} (hs : InvQ wq s) : InvQ wq (flashOutImage s ch n).2 := by
  unfold flashOutImage
  try dsimp -iota only
  with_reducible repeat' (first | assumption | apply afterPops_inv | (refine afterPops_inv_eq ?_ (by assumption)) | dsimp -iota only)
theorem flashOutImage_inv_eq {s : State} {ch : Nat} {n : Nat} (hs : InvQ wq s) {a₁ : _} {t : State} (e : flashOutImage s ch n = (a₁, t)) : InvQ wq t := by
  have := flashOutImage_inv (s := s) (ch := ch) (n := n) hs
  rw [e] at this
  exact this

theorem programCycles_inv {s : State} {it : Item} (hs : InvQ wq s) : InvQ wq (programCycles s it).2 := by
  unfold programCycles
  try dsimp -iota only
  with_reducible repeat' (first | assumption | apply updCh_inv | apply outputPass_inv | apply dropFlashOut_inv | apply flashOutImage_inv | (refine flashOutImage_inv_eq ?_ (by assumption)) | apply foldl_inv | apply foldl_inv_snd | apply foldl_inv_thd | simp only [InvQ.mk_state] | apply InvQ.kept | dsimp -iota only | split | intro _)
theorem programCycles_inv_eq {s : State} {it : Item} (hs : InvQ wq s) {a₁ : _} {t : State} (e : programCycles s it = (a₁, t)) : InvQ wq t := by
  have := programCycles_inv (s := s) (it := it) hs
  rw [e] at this
  exact this

theorem sendOn_inv {s : State} {ch : Nat} {ce : Nat} {cs : List BusCyc} (hs : InvQ wq s) : InvQ wq (sendOn s ch ce cs) := by
  unfold sendOn
  try dsimp -iota only
  with_reducible repeat' (first | assumption | apply updCh_inv | simp only [InvQ.mk_state] | apply InvQ.kept | dsimp -iota only)

theorem sendMore_inv {s : State} {ch : Nat} {cs : List BusCyc} (hs : InvQ wq s) : InvQ wq (sendMore s ch cs) := by
  unfold sendMore
  try dsimp -iota only
  with_reducible repeat' (first | assumption | apply updCh_inv | simp only [InvQ.mk_state] | apply InvQ.kept | dsimp -iota only)

theorem ceHigh_inv {s : State} {ch : Nat} (hs : InvQ wq s) : InvQ wq (ceHigh s ch) := by
  unfold ceHigh
  try dsimp -iota only
  with_reducible repeat' (first | assumption | apply updCh_inv | simp only [InvQ.mk_state] | apply InvQ.kept | dsimp -iota only | split)

theorem sendMoreOn_inv {s : State} {ch : Nat} {ce : Nat} {cs : List BusCyc} (hs : InvQ wq s) : InvQ wq (sendMoreOn s ch ce cs) := by
  unfold sendMoreOn
  try dsimp -iota only
  with_reducible repeat' (first | assumption | apply updCh_inv | simp only [InvQ.mk_state] | apply InvQ.kept | dsimp -iota only)

theorem deselect_inv {s : State} {ch : Nat} {cs : List BusCyc} (hs : InvQ wq s) : InvQ wq (deselect s ch cs) := by
  unfold deselect
  try dsimp -iota only
  with_reducible repeat' (first | assumption | apply updCh_inv | simp only [InvQ.mk_state] | apply InvQ.kept | dsimp -iota only | split)

end Sys2Proof.Machine
end

