-- ==== Sys2Proof/Laws/InvLedger.lean ====
section
/-! SUPPORT. Every operation over the state keeps the invariant Sys2Proof.Machine.Inv: one lemma for each, in the order of
the definitions. -/

set_option linter.unusedTactic false
set_option linter.unreachableTactic false
set_option linter.unusedSimpArgs false

namespace Sys2Proof.Machine

variable {wq : List Instr}

theorem addCoin_inv {s : State} {c : Coin} (hs : InvQ wq s) : InvQ wq (addCoin s c) := by
  unfold addCoin
  try dsimp -iota only
  with_reducible repeat' (first | assumption | simp only [InvQ.mk_state] | apply InvQ.kept | dsimp -iota only)

theorem dropCoins_inv {s : State} {p : Coin → Bool} (hs : InvQ wq s) : InvQ wq (dropCoins s p) := by
  unfold dropCoins
  try dsimp -iota only
  with_reducible repeat' (first | assumption | simp only [InvQ.mk_state] | apply InvQ.kept | dsimp -iota only)

theorem mapCoins_inv {s : State} {f : Coin → Coin} (hs : InvQ wq s) : InvQ wq (mapCoins s f) := by
  unfold mapCoins
  try dsimp -iota only
  with_reducible repeat' (first | assumption | simp only [InvQ.mk_state] | apply InvQ.kept | dsimp -iota only)

theorem chargeItem_inv {s : State} {id : Nat} (hs : InvQ wq s) : InvQ wq (chargeItem s id) := by
  unfold chargeItem
  try dsimp -iota only
  with_reducible repeat' (first | assumption | apply mapCoins_inv | simp only [InvQ.mk_state] | apply InvQ.kept | dsimp -iota only | split)

theorem chargeAside_inv {s : State} {id : Nat} (hs : InvQ wq s) : InvQ wq (chargeAside s id) := by
  unfold chargeAside
  try dsimp -iota only
  with_reducible repeat' (first | assumption | apply mapCoins_inv | simp only [InvQ.mk_state] | apply InvQ.kept | dsimp -iota only | split)

theorem releaseVcc_inv {s : State} {id : Nat} (hs : InvQ wq s) : InvQ wq (releaseVcc s id) := by
  unfold releaseVcc
  try dsimp -iota only
  with_reducible repeat' (first | assumption | apply dropCoins_inv | dsimp -iota only)

theorem releaseVccq_inv {s : State} {id : Nat} (hs : InvQ wq s) : InvQ wq (releaseVccq s id) := by
  unfold releaseVccq
  try dsimp -iota only
  with_reducible repeat' (first | assumption | apply dropCoins_inv | dsimp -iota only)

theorem releaseLun_inv {s : State} {l : Lun} (hs : InvQ wq s) : InvQ wq (releaseLun s l) := by
  unfold releaseLun
  try dsimp -iota only
  with_reducible repeat' (first | assumption | apply dropCoins_inv | dsimp -iota only)

theorem setCalState_inv {s : State} {g : Nat} {v : Nat} (hs : InvQ wq s) : InvQ wq (setCalState s g v) := by
  unfold setCalState
  try dsimp -iota only
  with_reducible repeat' (first | assumption | apply wr1_inv | simp only [InvQ.mk_state] | apply InvQ.kept | dsimp -iota only | split)

theorem returnUnused_inv {s : State} {id : Nat} (hs : InvQ wq s) : InvQ wq (returnUnused s id) := by
  unfold returnUnused
  try dsimp -iota only
  with_reducible repeat' (first | assumption | apply dropCoins_inv | dsimp -iota only)

end Sys2Proof.Machine
end

