-- ==== Sys2Proof/Laws/InvBus.lean ====
section
/-! SUPPORT. Every operation over the state keeps the invariant Sys2Proof.Machine.Inv: one lemma for each, in the order of
the definitions. -/

set_option linter.unusedTactic false
set_option linter.unreachableTactic false
set_option linter.unusedSimpArgs false

namespace Sys2Proof.Machine

variable {wq : List Instr}

theorem setPoll_inv {s : State} {l : Lun} {dt : Nat} (hs : InvQ wq s) : InvQ wq (setPoll s l dt) := by
  unfold setPoll
  try dsimp -iota only
  with_reducible repeat' (first | assumption | apply updLun_inv | simp only [InvQ.mk_state] | apply InvQ.kept | dsimp -iota only)

theorem startPhase_inv {s : State} {l : Lun} {a : Act} {firstPoll : Nat} (hs : InvQ wq s) : InvQ wq (startPhase s l a firstPoll) := by
  unfold startPhase
  try dsimp -iota only
  with_reducible repeat' (first | assumption | apply setPoll_inv | apply updLun_inv | simp only [InvQ.mk_state] | apply InvQ.kept | dsimp -iota only)

theorem startPass_inv {s : State} {it : Item} (hs : InvQ wq s) : InvQ wq (startPass s it) := by
  unfold startPass
  try dsimp -iota only
  with_reducible repeat' (first | assumption | apply updCh_inv | apply outputPass_inv | apply dropFlashOut_inv | simp only [InvQ.mk_state] | apply InvQ.kept | dsimp -iota only | split)

theorem forgetOffs_inv {s : State} {it : Item} (hs : InvQ wq s) : InvQ wq (forgetOffs s it) := by
  unfold forgetOffs
  try dsimp -iota only
  with_reducible repeat' (first | assumption | simp only [InvQ.mk_state] | apply InvQ.kept | dsimp -iota only | split)

theorem startItem_inv {s : State} {it : Item} (hs : InvQ wq s) : InvQ wq (startItem s it) := by
  unfold startItem
  try dsimp -iota only
  with_reducible repeat' (first | assumption | apply updItem_inv | apply updLun_inv | apply tallyC_inv | apply updCh_inv | simp only [InvQ.mk_state] | apply InvQ.kept | dsimp -iota only | split)

theorem beginLaunch_inv {s : State} {it : Item} (hs : InvQ wq s) : InvQ wq (beginLaunch s it) := by
  unfold beginLaunch
  try dsimp -iota only
  with_reducible repeat' (first | assumption | apply updLun_inv | apply startItem_inv | apply updItem_inv | apply chargeItem_inv | apply programCycles_inv | (refine programCycles_inv_eq ?_ (by assumption)) | apply sendMore_inv | simp only [InvQ.mk_state] | apply InvQ.kept | dsimp -iota only | split)

theorem beginOther_inv {s : State} {it : Item} (hs : InvQ wq s) : InvQ wq (beginOther s it) := by
  unfold beginOther
  try dsimp -iota only
  with_reducible repeat' (first | assumption | apply startItem_inv | apply forgetOffs_inv | apply updItem_inv | apply updLun_inv | simp only [InvQ.mk_state] | apply InvQ.kept | dsimp -iota only | split)

theorem beginSuspend_inv {s : State} {l : Lun} {ordered : Bool} (hs : InvQ wq s) : InvQ wq (beginSuspend s l ordered) := by
  unfold beginSuspend
  try dsimp -iota only
  with_reducible repeat' (first | assumption | apply updLun_inv | apply tallyC_inv | apply updItem_inv | simp only [InvQ.mk_state] | apply InvQ.kept | dsimp -iota only | split)

theorem beginData_inv {s : State} {t' : Tenure} {it : Item} (hs : InvQ wq s) : InvQ wq (beginData s t' it) := by
  unfold beginData
  try dsimp -iota only
  with_reducible repeat' (first | assumption | apply updItem_inv | apply updLun_inv | apply chargeItem_inv | apply tallyCW_inv | simp only [InvQ.mk_state] | apply InvQ.kept | dsimp -iota only | split)

theorem beginOffs_inv {s : State} {it : Item} {o : W32} (hs : InvQ wq s) : InvQ wq (beginOffs s it o) := by
  unfold beginOffs
  try dsimp -iota only
  with_reducible repeat' (first | assumption | apply updLun_inv | simp only [InvQ.mk_state] | apply InvQ.kept | dsimp -iota only | split)

theorem beginTenure_inv {s : State} {ch : Nat} {t' : Tenure} (hs : InvQ wq s) : InvQ wq (beginTenure s ch t') := by
  unfold beginTenure
  try dsimp -iota only
  with_reducible repeat' (first | assumption | apply updCh_inv | apply sendOn_inv | apply beginLaunch_inv | apply beginData_inv | apply beginSuspend_inv | apply updLun_inv | apply chargeItem_inv | apply beginOffs_inv | apply beginOther_inv | simp only [InvQ.mk_state] | apply InvQ.kept | dsimp -iota only | split)

theorem kickBus_inv {s : State} {ch : Nat} (hs : InvQ wq s) : InvQ wq (kickBus s ch) := by
  unfold kickBus
  try dsimp -iota only
  with_reducible repeat' (first | assumption | apply beginTenure_inv | apply updCh_inv | simp only [InvQ.mk_state] | apply InvQ.kept | dsimp -iota only | split)

theorem wantBus_inv {s : State} {t' : Tenure} (hs : InvQ wq s) : InvQ wq (wantBus s t') := by
  unfold wantBus
  try dsimp -iota only
  with_reducible repeat' (first | assumption | apply updCh_inv | simp only [InvQ.mk_state] | apply InvQ.kept | dsimp -iota only)

theorem askBus_inv {s : State} {t' : Tenure} (hs : InvQ wq s) : InvQ wq (askBus s t') := by
  unfold askBus
  try dsimp -iota only
  with_reducible repeat' (first | assumption | apply kickBus_inv | apply wantBus_inv | dsimp -iota only)

theorem askItem_inv {s : State} {k : TenKind} {it : Item} (hs : InvQ wq s) : InvQ wq (askItem s k it) := by
  unfold askItem
  try dsimp -iota only
  with_reducible repeat' (first | assumption | apply askBus_inv | dsimp -iota only)

theorem askLaunch_inv {s : State} {it : Item} (hs : InvQ wq s) : InvQ wq (askLaunch s it) := by
  unfold askLaunch
  try dsimp -iota only
  with_reducible repeat' (first | assumption | apply askBus_inv | dsimp -iota only)

theorem endTenureOf_inv {s : State} {l : Lun} (hs : InvQ wq s) : InvQ wq (endTenureOf s l) := by
  unfold endTenureOf
  try dsimp -iota only
  with_reducible repeat' (first | assumption | apply wantBus_inv | dsimp -iota only | split)

theorem freeLun_inv {s : State} {l : Lun} (hs : InvQ wq s) : InvQ wq (freeLun s l) := by
  unfold freeLun
  try dsimp -iota only
  with_reducible repeat' (first | assumption | apply updLun_inv | apply endTenureOf_inv | simp only [InvQ.mk_state] | apply InvQ.kept | dsimp -iota only | split)

theorem programConfirmed_inv {s : State} {it : Item} (hs : InvQ wq s) : InvQ wq (programConfirmed s it) := by
  unfold programConfirmed
  try dsimp -iota only
  with_reducible repeat' (first | assumption | apply releaseVccq_inv | apply chargeAside_inv | apply updItem_inv | apply sendMore_inv | apply setPoll_inv | apply updLun_inv | apply startPhase_inv | simp only [InvQ.mk_state] | apply InvQ.kept | dsimp -iota only | split)

theorem endLaunch_inv {s : State} {it : Item} (hs : InvQ wq s) : InvQ wq (endLaunch s it) := by
  unfold endLaunch
  try dsimp -iota only
  with_reducible repeat' (first | assumption | apply updItem_inv | apply setPoll_inv | apply updLun_inv | apply startPhase_inv | apply programConfirmed_inv | simp only [InvQ.mk_state] | apply InvQ.kept | dsimp -iota only | split)

theorem splitCoins_inv {s : State} {l : Lun} (hs : InvQ wq s) : InvQ wq (splitCoins s l) := by
  unfold splitCoins
  try dsimp -iota only
  with_reducible repeat' (first | assumption | apply addCoin_inv | apply mapCoins_inv | simp only [InvQ.mk_state] | apply InvQ.kept | dsimp -iota only | split)

theorem endResume_inv {s : State} {l : Lun} (hs : InvQ wq s) : InvQ wq (endResume s l) := by
  unfold endResume
  try dsimp -iota only
  with_reducible repeat' (first | assumption | apply updLun_inv | apply setPoll_inv | apply splitCoins_inv | simp only [InvQ.mk_state] | apply InvQ.kept | dsimp -iota only | split)

theorem endTenure_inv {s : State} {t' : Tenure} {data : List Byte} (hs : InvQ wq s) : InvQ wq (endTenure s t' data) := by
  unfold endTenure
  try dsimp -iota only
  with_reducible repeat' (first | assumption | apply endLaunch_inv | apply setPoll_inv | apply endResume_inv | apply endItem_inv | apply freeLun_inv | apply updItem_inv | apply updLun_inv | simp only [InvQ.mk_state] | apply InvQ.kept | dsimp -iota only | split)

theorem clearBus_inv {s : State} {ch : Nat} (hs : InvQ wq s) : InvQ wq (clearBus s ch) := by
  unfold clearBus
  try dsimp -iota only
  with_reducible repeat' (first | assumption | apply updGroup_inv | apply dropFlashOut_inv | apply updCh_inv | simp only [InvQ.mk_state] | apply InvQ.kept | dsimp -iota only | split)

theorem dropSusp_inv {s : State} {l : Lun} (hs : InvQ wq s) : InvQ wq (dropSusp s l) := by
  unfold dropSusp
  try dsimp -iota only
  with_reducible repeat' (first | assumption | apply updCh_inv | simp only [InvQ.mk_state] | apply InvQ.kept | dsimp -iota only)

theorem flashInPacket_inv {s : State} {ch : Nat} {b : List Byte} {disc : Bool} (hs : InvQ wq s) : InvQ wq (flashInPacket s ch b disc) := by
  unfold flashInPacket
  try dsimp -iota only
  with_reducible repeat' (first | assumption | apply updFifo_inv | simp only [InvQ.mk_state] | apply InvQ.kept | dsimp -iota only | split)

theorem flashIn_inv {s : State} {ch : Nat} {cut : Bool} {l : List Range} {b : List Byte} (hs : InvQ wq s) :
    InvQ wq (flashIn s ch cut l b) := by
  induction l generalizing s b with
  | nil => exact hs
  | cons r q ih =>
    unfold flashIn
    split
    · contradiction
    · exact flashInPacket_inv hs
    · rename_i e
      cases e
      exact ih (flashInPacket_inv hs)


theorem cutData_inv {s : State} {ch : Nat} {it : Item} (hs : InvQ wq s) : InvQ wq (cutData s ch it).2 := by
  unfold cutData
  try dsimp -iota only
  with_reducible repeat' (first | assumption | apply freeWord_inv | (refine freeWord_inv_eq ?_ (by assumption)) | apply freeBytes_inv | (refine freeBytes_inv_eq ?_ (by assumption)) | apply flashIn_inv | apply tally_inv | apply wr_inv | dsimp -iota only)
theorem cutData_inv_eq {s : State} {ch : Nat} {it : Item} (hs : InvQ wq s) {a₁ : _} {t : State} (e : cutData s ch it = (a₁, t)) : InvQ wq t := by
  have := cutData_inv (s := s) (ch := ch) (it := it) hs
  rw [e] at this
  exact this

theorem interruptData_inv {s : State} {ch : Nat} (hs : InvQ wq s) : InvQ wq (interruptData s ch) := by
  unfold interruptData
  try dsimp -iota only
  with_reducible repeat' (first | assumption | apply cutData_inv | (refine cutData_inv_eq ?_ (by assumption)) | apply updItem_inv | apply releaseVccq_inv | apply clearBus_inv | apply updLun_inv | simp only [InvQ.mk_state] | apply InvQ.kept | dsimp -iota only | split)

theorem abandonRun_inv {s : State} {g : Nat} (hs : InvQ wq s) : InvQ wq (abandonRun s g) := by
  unfold abandonRun
  try dsimp -iota only
  with_reducible repeat' (first | assumption | apply flag1_inv | apply wr1_inv | apply setCalState_inv | apply updGroup_inv | apply tally_inv | apply endAll_inv | simp only [InvQ.mk_state] | apply InvQ.kept | dsimp -iota only | split)

theorem issueFirst_inv {s : State} {t' : Tenure} (hs : InvQ wq s) : InvQ wq (issueFirst s t') := by
  unfold issueFirst
  try dsimp -iota only
  with_reducible repeat' (first | assumption | apply updCh_inv | simp only [InvQ.mk_state] | apply InvQ.kept | dsimp -iota only | split)

theorem issueOrdered_inv {s : State} {ch : Nat} (hs : InvQ wq s) : InvQ wq (issueOrdered s ch) := by
  unfold issueOrdered
  try dsimp -iota only
  with_reducible repeat' (first | assumption | apply interruptData_inv | apply abandonRun_inv | apply kickBus_inv | apply updCh_inv | simp only [InvQ.mk_state] | apply InvQ.kept | dsimp -iota only | split)

end Sys2Proof.Machine
end

