-- ==== Sys2Proof/Laws/InvSched.lean ====
section
/-! SUPPORT. Every operation over the state keeps the invariant Sys2Proof.Machine.Inv: one lemma for each, in the order of
the definitions. -/

set_option linter.unusedTactic false
set_option linter.unreachableTactic false
set_option linter.unusedSimpArgs false

namespace Sys2Proof.Machine

variable {wq : List Instr}

theorem setGate_inv {s : State} {ch : Nat} (hs : InvQ wq s) : InvQ wq (setGate s ch) := by
  unfold setGate
  try dsimp -iota only
  with_reducible repeat' (first | assumption | apply updCh_inv | simp only [InvQ.mk_state] | apply InvQ.kept | dsimp -iota only)

theorem disarm_inv {s : State} {it : Item} (hs : InvQ wq s) : InvQ wq (disarm s it) := by
  unfold disarm
  try dsimp -iota only
  with_reducible repeat' (first | assumption | apply dropCoins_inv | apply updItem_inv | apply setGate_inv | simp only [InvQ.mk_state] | apply InvQ.kept | dsimp -iota only)

theorem armOffs_inv {s : State} {it : Item} (hs : InvQ wq s) : InvQ wq (armOffs s it) := by
  unfold armOffs
  try dsimp -iota only
  with_reducible repeat' (first | assumption | apply wantBus_inv | dsimp -iota only | split)

theorem armedTurn_inv {s : State} (hs : InvQ wq s) : InvQ wq (armedTurn s) := by
  unfold armedTurn
  try dsimp -iota only
  with_reducible repeat' (first | assumption | apply disarm_inv | apply armOffs_inv | apply foldl_inv | dsimp -iota only | intro _)

theorem kickAllBuses_inv {s : State} (hs : InvQ wq s) : InvQ wq (kickAllBuses s) := by
  unfold kickAllBuses
  try dsimp -iota only
  with_reducible repeat' (first | assumption | apply kickBus_inv | apply foldl_inv | dsimp -iota only | intro _)

theorem refreshArmed_inv {s : State} (hs : InvQ wq s) : InvQ wq (refreshArmed s) := by
  unfold refreshArmed
  try dsimp -iota only
  with_reducible repeat' (first | assumption | apply kickAllBuses_inv | apply armedTurn_inv | dsimp -iota only)

theorem addWait_inv {s : State} {id : Nat} {dt : Nat} (hs : InvQ wq s) : InvQ wq (addWait s id dt) := by
  unfold addWait
  try dsimp -iota only
  with_reducible repeat' (first | assumption | apply updItem_inv | simp only [InvQ.mk_state] | apply InvQ.kept | dsimp -iota only)

theorem withdraw_inv {s : State} {a : Ask} (hs : InvQ wq s) : InvQ wq (withdraw s a) := by
  unfold withdraw
  try dsimp -iota only
  with_reducible repeat' (first | assumption | apply addWait_inv | dsimp -iota only | split)

theorem refreshAsks_inv {s : State} (hs : InvQ wq s) : InvQ wq (refreshAsks s) := by
  unfold refreshAsks
  try dsimp -iota only
  with_reducible repeat' (first | assumption | apply withdraw_inv | apply foldl_inv | simp only [InvQ.mk_state] | apply InvQ.kept | dsimp -iota only | split | intro _)

theorem present_inv {s : State} (hs : InvQ wq s) : InvQ wq (present s) := by
  unfold present
  try dsimp -iota only
  with_reducible repeat' (first | assumption | apply withdraw_inv | apply foldl_inv | simp only [InvQ.mk_state] | apply InvQ.kept | dsimp -iota only | split | intro _)

theorem tallyGrant_inv {s : State} {a : Ask} {wait : Nat} (hs : InvQ wq s) : InvQ wq (tallyGrant s a wait) := by
  unfold tallyGrant
  try dsimp -iota only
  with_reducible repeat' (first | assumption | apply coreCycles_inv | (refine coreCycles_inv_eq ?_ (by assumption)) | apply tallyCW_inv | apply tallyW_inv | apply tally_inv | dsimp -iota only | split)

theorem grantAsk_inv {s : State} {a : Ask} (hs : InvQ wq s) : InvQ wq (grantAsk s a) := by
  unfold grantAsk
  try dsimp -iota only
  with_reducible repeat' (first | assumption | apply tallyGrant_inv | apply addWait_inv | simp only [InvQ.mk_state] | apply InvQ.kept | dsimp -iota only | split)

theorem afterGrant_inv {s : State} {a : Ask} (hs : InvQ wq s) : InvQ wq (afterGrant s a) := by
  unfold afterGrant
  try dsimp -iota only
  with_reducible repeat' (first | assumption | apply startPass_inv | apply wantBus_inv | dsimp -iota only | split)

theorem roundStep_inv {r : Round} {a : Ask} (hs : InvQ wq r.s) : InvQ wq (roundStep r a).s := by
  unfold roundStep
  split
  · exact hs
  dsimp only
  split
  · exact grantAsk_inv hs
  split <;> exact hs

theorem roundSteps_inv {l : List Ask} {r : Round} (hs : InvQ wq r.s) : InvQ wq (l.foldl roundStep r).s := by
  induction l generalizing r with
  | nil => exact hs
  | cons f l ih => exact ih (roundStep_inv hs)

theorem ledgerRound_inv {s : State} (hs : InvQ wq s) : InvQ wq (ledgerRound s) := by
  unfold ledgerRound
  dsimp only
  exact kickAllBuses_inv (foldl_inv (roundSteps_inv (present_inv (refreshAsks_inv (armedTurn_inv hs)))) (fun _ _ h => afterGrant_inv h))


theorem lunActionRun_inv {s : State} {it : Item} (hs : InvQ wq s) : InvQ wq (lunActionRun s it) := by
  unfold lunActionRun
  try dsimp -iota only
  with_reducible repeat' (first | assumption | apply endItem_inv | apply updLun_inv | apply endAll_inv | simp only [InvQ.mk_state] | apply InvQ.kept | dsimp -iota only | split)

theorem launchOther_inv {s : State} {it : Item} (hs : InvQ wq s) : InvQ wq (launchOther s it) := by
  unfold launchOther
  try dsimp -iota only
  with_reducible repeat' (first | assumption | apply askBus_inv | apply askItem_inv | apply lunActionRun_inv | simp only [InvQ.mk_state] | apply InvQ.kept | dsimp -iota only | split)

theorem launchItem_inv {s : State} {it : Item} (hs : InvQ wq s) : InvQ wq (launchItem s it) := by
  unfold launchItem
  try dsimp -iota only
  with_reducible repeat' (first | assumption | apply launchOther_inv | apply askLaunch_inv | dsimp -iota only | split)

theorem pickFrom_inv {s : State} {budget : Nat} {x2 : List Lun} (hs : InvQ wq s) : InvQ wq (pickFrom s budget x2) := by
  induction x2 generalizing s with
  | nil => assumption
  | cons l r ih =>
    unfold pickFrom
    try dsimp -iota only
    with_reducible repeat' (first | assumption | apply ih | apply tally_inv | apply updLun_inv | dsimp -iota only | split)

theorem orderSuspends_inv {s : State} {budget : Nat} (hs : InvQ wq s) : InvQ wq (orderSuspends s budget) := by
  unfold orderSuspends
  try dsimp -iota only
  with_reducible repeat' (first | assumption | apply pickFrom_inv | apply issueOrdered_inv | apply raiseSeq_inv | apply foldl_inv | apply foldl_inv_snd | apply foldl_inv_thd | dsimp -iota only | intro _)

theorem repick_inv {s : State} (hs : InvQ wq s) : InvQ wq (repick s) := by
  unfold repick
  try dsimp -iota only
  with_reducible repeat' (first | assumption | apply orderSuspends_inv | dsimp -iota only | split)

theorem returnGrants_inv {s : State} (hs : InvQ wq s) : InvQ wq (returnGrants s) := by
  unfold returnGrants
  try dsimp -iota only
  with_reducible repeat' (first | assumption | apply disarm_inv | apply updItem_inv | apply dropCoins_inv | apply foldl_inv | apply foldl_inv_snd | apply foldl_inv_thd | simp only [InvQ.mk_state] | apply InvQ.kept | dsimp -iota only | split | intro _)

theorem altBegins_inv {s : State} (hs : InvQ wq s) : InvQ wq (altBegins s) := by
  unfold altBegins
  try dsimp -iota only
  with_reducible repeat' (first | assumption | apply orderSuspends_inv | apply returnGrants_inv | apply tally_inv | apply flag0_inv | dsimp -iota only)

end Sys2Proof.Machine
end

