-- ==== Sys2Proof/Laws/InvBootImage.lean ====
section
/-! SUPPORT. Every operation over the state keeps the invariant Sys2Proof.Machine.Inv: one lemma for each, in the order of
the definitions. -/

set_option linter.unusedTactic false
set_option linter.unreachableTactic false
set_option linter.unusedSimpArgs false

namespace Sys2Proof.Machine

variable {wq : List Instr}

theorem stagingLines_inv {s : State} {a n : Nat} (hs : InvQ wq s) : InvQ wq (stagingLines s a n).2 := by
  induction n with
  | zero => exact hs
  | succ n ih =>
    unfold stagingLines
    revert ih
    cases stagingLines s a n with
    | mk bs q => exact fun ih => readLine_inv ih
theorem stagingLines_inv_eq {s : State} {a n : Nat} (hs : InvQ wq s) {a₁ : _} {t : State} (e : stagingLines s a n = (a₁, t)) : InvQ wq t := by
  have := stagingLines_inv (a := a) (n := n) hs
  rw [e] at this
  exact this


theorem swapPage_inv {s : State} {w : Swap} (hs : InvQ wq s) : InvQ wq (swapPage s w).2 := by
  unfold swapPage
  try dsimp -iota only
  with_reducible repeat' (first | assumption | apply stagingLines_inv | (refine stagingLines_inv_eq ?_ (by assumption)) | dsimp -iota only | split)
theorem swapPage_inv_eq {s : State} {w : Swap} (hs : InvQ wq s) {a₁ : _} {t : State} (e : swapPage s w = (a₁, t)) : InvQ wq t := by
  have := swapPage_inv (s := s) (w := w) hs
  rw [e] at this
  exact this

theorem bootFill_inv {s : State} {it : Item} (hs : InvQ wq s) : InvQ wq (bootFill s it) := by
  unfold bootFill
  try dsimp -iota only
  with_reducible repeat' (first | assumption | apply swapPage_inv | (refine swapPage_inv_eq ?_ (by assumption)) | apply forNat_inv | apply slotWrite_inv | apply updItem_inv | apply foldl_inv | simp only [InvQ.mk_state] | apply InvQ.kept | dsimp -iota only | split | intro _)

end Sys2Proof.Machine
end

