-- ==== Sys2Proof/Laws/InvDma.lean ====
section
/-! SUPPORT. Every operation over the state keeps the invariant Sys2Proof.Machine.Inv: one lemma for each, in the order of
the definitions. -/

set_option linter.unusedTactic false
set_option linter.unreachableTactic false
set_option linter.unusedSimpArgs false

namespace Sys2Proof.Machine

variable {wq : List Instr}

theorem offLun_inv {s : State} {it : Item} (hs : InvQ wq s) : InvQ wq (offLun s it) := by
  unfold offLun
  try dsimp -iota only
  with_reducible repeat' (first | assumption | apply freeLun_inv | dsimp -iota only | split)

theorem leaveLun_inv {s : State} {it : Item} (hs : InvQ wq s) : InvQ wq (leaveLun s it) := by
  unfold leaveLun
  try dsimp -iota only
  with_reducible repeat' (first | assumption | apply kickBus_inv | apply freeLun_inv | dsimp -iota only | split)

theorem hostInRewind_inv {s : State} {ch : Nat} {d : Nat} (hs : InvQ wq s) : InvQ wq (hostInRewind s ch d) := by
  unfold hostInRewind
  try dsimp -iota only
  with_reducible repeat' (first | assumption | apply tally_inv | apply wr_inv | apply updFifo_inv | simp only [InvQ.mk_state] | apply InvQ.kept | dsimp -iota only | split)

theorem hostOutDrop_inv {s : State} {d : Nat} (hs : InvQ wq s) : InvQ wq (hostOutDrop s d) := by
  unfold hostOutDrop
  try dsimp -iota only
  with_reducible repeat' (first | assumption | simp only [InvQ.mk_state] | apply InvQ.kept | dsimp -iota only | split)

theorem dropCur_inv {s : State} {d : Nat} (hs : InvQ wq s) : InvQ wq (dropCur s d) := by
  unfold dropCur
  try dsimp -iota only
  with_reducible repeat' (first | assumption | apply updDma_inv | apply hostOutDrop_inv | simp only [InvQ.mk_state] | apply InvQ.kept | dsimp -iota only)

theorem dropCurOf_inv {s : State} {it : Item} (hs : InvQ wq s) : InvQ wq (dropCurOf s it) := by
  unfold dropCurOf
  try dsimp -iota only
  with_reducible repeat' (first | assumption | apply dropCur_inv | apply hostInRewind_inv | apply foldl_inv | dsimp -iota only | split | intro _)

theorem stopCore_inv {s : State} {id : Nat} {st : Status} (hs : InvQ wq s) : InvQ wq (stopCore s id st) := by
  unfold stopCore
  try dsimp -iota only
  with_reducible repeat' (first | assumption | apply dropCurOf_inv | apply hiForget_inv | apply leaveLun_inv | apply endWith_inv | simp only [InvQ.mk_state] | apply InvQ.kept | dsimp -iota only | split)

theorem listFails_inv {s : State} {d : Nat} {it : Item} {x3 : ListStop} (hs : InvQ wq s) : InvQ wq (listFails s d it x3).2 := by
  unfold listFails
  try dsimp -iota only
  with_reducible repeat' (first | assumption | apply tally_inv | apply flag1_inv | apply updItem_inv | dsimp -iota only | split)
theorem listFails_inv_eq {s : State} {d : Nat} {it : Item} {x3 : ListStop} (hs : InvQ wq s) {a₁ : _} {t : State} (e : listFails s d it x3 = (a₁, t)) : InvQ wq t := by
  have := listFails_inv (s := s) (d := d) (it := it) (x3 := x3) hs
  rw [e] at this
  exact this

theorem runSegs_inv {s : State} {d : Nat} {it : Item} {e' : Entry} {gs : List Seg} (hs : InvQ wq s) : InvQ wq (runSegs s d it e' gs) := by
  unfold runSegs
  try dsimp -iota only
  with_reducible repeat' (first | assumption | apply hiPump_inv | apply pumpSend_inv | dsimp -iota only | split)

theorem runEntry_inv {s : State} {d : Nat} {it : Item} {e' : Entry} (hs : InvQ wq s) : InvQ wq (runEntry s d it e') := by
  unfold runEntry
  try dsimp -iota only
  with_reducible repeat' (first | assumption | apply runSegs_inv | apply hiSend_inv | apply listFails_inv | (refine listFails_inv_eq ?_ (by assumption)) | apply stopCore_inv | apply updDma_inv | simp only [InvQ.mk_state] | apply InvQ.kept | dsimp -iota only | split)

theorem dmaNext_inv {s : State} {d : Nat} {x2 : Nat} (hs : InvQ wq s) : InvQ wq (dmaNext s d x2) := by
  induction x2 generalizing s with
  | zero => assumption
  | succ n ih =>
    unfold dmaNext
    try dsimp -iota only
    with_reducible repeat' (first | assumption | apply ih | apply updDma_inv | apply runEntry_inv | simp only [InvQ.mk_state] | apply InvQ.kept | dsimp -iota only | split)

theorem hostInLand_inv {s : State} {ch : Nat} {d : Nat} {off : Nat} {b : List Byte} {ps : List Bool} (hs : InvQ wq s) : InvQ wq (hostInLand s ch d off b ps) := by
  unfold hostInLand
  try dsimp -iota only
  with_reducible repeat' (first | assumption | apply updFifo_inv | apply foldl_inv | simp only [InvQ.mk_state] | apply InvQ.kept | dsimp -iota only | intro _)

theorem hostInTake_inv {s : State} {d : Nat} (hs : InvQ wq s) : InvQ wq (hostInTake s d) := by
  unfold hostInTake
  try dsimp -iota only
  with_reducible repeat' (first | assumption | apply hostInLand_inv | apply hiPump_inv | apply updDma_inv | apply foldl_inv | apply foldl_inv_snd | apply foldl_inv_thd | simp only [InvQ.mk_state] | apply InvQ.kept | dsimp -iota only | split | intro _)

theorem hostOutFill_inv {s : State} {ch : Nat} {upTo : Nat} (hs : InvQ wq s) : InvQ wq (hostOutFill s ch upTo) := by
  unfold hostOutFill
  try dsimp -iota only
  with_reducible repeat' (first | assumption | apply slotRead_inv | (refine slotRead_inv_eq ?_ (by assumption)) | apply updFifo_inv | simp only [InvQ.mk_state] | apply InvQ.kept | dsimp -iota only | split)

theorem hostOutStart_inv {s : State} {d : Nat} (hs : InvQ wq s) : InvQ wq (hostOutStart s d) := by
  unfold hostOutStart
  try dsimp -iota only
  with_reducible repeat' (first | assumption | apply hostOutFill_inv | apply updFifo_inv | simp only [InvQ.mk_state] | apply InvQ.kept | dsimp -iota only | split)

theorem dmaKick_inv {s : State} {d : Nat} (hs : InvQ wq s) : InvQ wq (dmaKick s d) := by
  unfold dmaKick
  try dsimp -iota only
  with_reducible repeat' (first | assumption | apply hostOutStart_inv | apply hostInTake_inv | apply dmaNext_inv | dsimp -iota only)

theorem placeEntry_inv {s : State} {e' : Entry} (hs : InvQ wq s) : InvQ wq (placeEntry s e') := by
  unfold placeEntry
  try dsimp -iota only
  with_reducible repeat' (first | assumption | apply stopCore_inv | apply dmaKick_inv | apply updDma_inv | apply updItem_inv | simp only [InvQ.mk_state] | apply InvQ.kept | dsimp -iota only | split)

theorem placeEntries_inv {s : State} {es : List Entry} (hs : InvQ wq s) : InvQ wq (placeEntries s es) := by
  unfold placeEntries
  try dsimp -iota only
  with_reducible repeat' (first | assumption | apply placeEntry_inv | apply foldl_inv | dsimp -iota only | intro _)

theorem retryEntries_inv {s : State} (hs : InvQ wq s) : InvQ wq (retryEntries s) := by
  unfold retryEntries
  try dsimp -iota only
  with_reducible repeat' (first | assumption | apply placeEntries_inv | simp only [InvQ.mk_state] | apply InvQ.kept | dsimp -iota only | split)

theorem dmaKickAll_inv {s : State} (hs : InvQ wq s) : InvQ wq (dmaKickAll s) := by
  unfold dmaKickAll
  try dsimp -iota only
  with_reducible repeat' (first | assumption | apply retryEntries_inv | apply dmaKick_inv | apply foldl_inv | dsimp -iota only | intro _)

theorem stopItem_inv {s : State} {id : Nat} {st : Status} (hs : InvQ wq s) : InvQ wq (stopItem s id st) := by
  unfold stopItem
  try dsimp -iota only
  with_reducible repeat' (first | assumption | apply dmaKickAll_inv | apply stopCore_inv | dsimp -iota only)

theorem entryEnds_inv {s : State} {d : Nat} (hs : InvQ wq s) : InvQ wq (entryEnds s d) := by
  unfold entryEnds
  try dsimp -iota only
  with_reducible repeat' (first | assumption | apply dmaKickAll_inv | apply dropCur_inv | dsimp -iota only)

theorem startProgram_inv {s : State} {it : Item} (hs : InvQ wq s) : InvQ wq (startProgram s it) := by
  unfold startProgram
  try dsimp -iota only
  with_reducible repeat' (first | assumption | apply placeEntries_inv | dsimp -iota only)

theorem meetSlots_inv {s : State} {a : SlotAsk} {b : Nat} (hs : InvQ wq s) : InvQ wq (meetSlots s a b) := by
  unfold meetSlots
  try dsimp -iota only
  with_reducible repeat' (first | assumption | apply updItem_inv | apply bootFill_inv | apply startProgram_inv | simp only [InvQ.mk_state] | apply InvQ.kept | dsimp -iota only | split)

theorem wantSlots_inv {s : State} {it : Item} {n : Nat} {soft : Bool} (hs : InvQ wq s) : InvQ wq (wantSlots s it n soft) := by
  unfold wantSlots
  try dsimp -iota only
  with_reducible repeat' (first | assumption | apply meetSlots_inv | apply askSlots_inv | dsimp -iota only | split)

theorem slotServe_inv {s : State} (hs : InvQ wq s) : InvQ wq (slotServe s) := by
  unfold slotServe
  try dsimp -iota only
  with_reducible repeat' (first | assumption | apply meetSlots_inv | simp only [InvQ.mk_state] | apply InvQ.kept | dsimp -iota only | split)

theorem quarterToSlot_inv {s : State} {it : Item} {e' : Entry} {b : List Byte} {ps : List Bool} (hs : InvQ wq s) : InvQ wq (quarterToSlot s it e' b ps) := by
  unfold quarterToSlot
  try dsimp -iota only
  with_reducible repeat' (first | assumption | apply slotWrite_inv | dsimp -iota only | split)

theorem progArrived_inv {s : State} {d : Nat} {it : Item} {e' : Entry} {b : List Byte} {ps : List Bool} (hs : InvQ wq s) : InvQ wq (progArrived s d it e' b ps) := by
  unfold progArrived
  try dsimp -iota only
  with_reducible repeat' (first | assumption | apply tallyW_inv | apply quarterToSlot_inv | apply updItem_inv | simp only [InvQ.mk_state] | apply InvQ.kept | dsimp -iota only | split)

theorem flushFifo_inv {s : State} {ch : Nat} {f : Nat} (hs : InvQ wq s) : InvQ wq (flushFifo s ch f) := by
  unfold flushFifo
  try dsimp -iota only
  with_reducible repeat' (first | assumption | apply updFifo_inv | apply wr1_inv | apply dmaKickAll_inv | apply stopCore_inv | apply foldl_inv | simp only [InvQ.mk_state] | apply InvQ.kept | dsimp -iota only | split | intro _)

theorem flushDue_inv {s : State} {ch : Nat} (hs : InvQ wq s) : InvQ wq (flushDue s ch) := by
  unfold flushDue
  try dsimp -iota only
  with_reducible repeat' (first | assumption | apply forNat_inv | apply flushFifo_inv | apply foldl_inv | dsimp -iota only | split | intro _)

theorem flushAll_inv {s : State} (hs : InvQ wq s) : InvQ wq (flushAll s) := by
  unfold flushAll
  try dsimp -iota only
  with_reducible repeat' (first | assumption | apply flushDue_inv | apply foldl_inv | dsimp -iota only | intro _)

theorem hostInCommit_inv {s : State} {ch : Nat} (hs : InvQ wq s) : InvQ wq (hostInCommit s ch) := by
  unfold hostInCommit
  try dsimp -iota only
  with_reducible repeat' (first | assumption | apply updFifo_inv | apply flushDue_inv | apply entryEnds_inv | apply progArrived_inv | simp only [InvQ.mk_state] | apply InvQ.kept | dsimp -iota only | split)

theorem progFailed_inv {s : State} {d : Nat} {item : Nat} (hs : InvQ wq s) : InvQ wq (progFailed s d item) := by
  unfold progFailed
  try dsimp -iota only
  with_reducible repeat' (first | assumption | apply tally_inv | apply flag1_inv | apply hostInRewind_inv | apply flushDue_inv | apply stopItem_inv | dsimp -iota only | split)

theorem progStops_inv {s : State} {d : Nat} {e' : Entry} (hs : InvQ wq s) : InvQ wq (progStops s d e') := by
  unfold progStops
  try dsimp -iota only
  with_reducible repeat' (first | assumption | apply stopItem_inv | dsimp -iota only | split)

theorem parityPage_inv {s : State} {st : Nat} {sl : Nat} (hs : InvQ wq s) : InvQ wq (parityPage s st sl).2 := by
  unfold parityPage
  try dsimp -iota only
  with_reducible repeat' (first | assumption | apply slotRead_inv | (refine slotRead_inv_eq ?_ (by assumption)) | apply slotWrite_inv | dsimp -iota only)
theorem parityPage_inv_eq {s : State} {st : Nat} {sl : Nat} (hs : InvQ wq s) {a₁ : _} {t : State} (e : parityPage s st sl = (a₁, t)) : InvQ wq t := by
  have := parityPage_inv (s := s) (st := st) (sl := sl) hs
  rw [e] at this
  exact this

theorem parityPasses_inv {s : State} {it : Item} (hs : InvQ wq s) : InvQ wq (parityPasses s it).2 := by
  unfold parityPasses
  try dsimp -iota only
  with_reducible repeat' (first | assumption | apply parityPage_inv | (refine parityPage_inv_eq ?_ (by assumption)) | apply foldl_inv | apply foldl_inv_snd | apply foldl_inv_thd | dsimp -iota only | split | intro _)
theorem parityPasses_inv_eq {s : State} {it : Item} (hs : InvQ wq s) {a₁ : _} {t : State} (e : parityPasses s it = (a₁, t)) : InvQ wq t := by
  have := parityPasses_inv (s := s) (it := it) hs
  rw [e] at this
  exact this

theorem updQuarter_inv {s : State} {id : Nat} {page : Nat} {q : Nat} {f : Quarter → Quarter} (hs : InvQ wq s) : InvQ wq (updQuarter s id page q f) := by
  unfold updQuarter
  try dsimp -iota only
  with_reducible repeat' (first | assumption | apply updItem_inv | simp only [InvQ.mk_state] | apply InvQ.kept | dsimp -iota only | split)

theorem hostOutMove_inv {s : State} {ch : Nat} {p : OutPkt} {it : Item} {e' : Entry} {gs : List Seg} (hs : InvQ wq s) : InvQ wq (hostOutMove s ch p it e' gs) := by
  unfold hostOutMove
  try dsimp -iota only
  with_reducible repeat' (first | assumption | apply afterPops_inv | (refine afterPops_inv_eq ?_ (by assumption)) | apply updFifo_inv | apply updDma_inv | apply mark_inv | apply updQuarter_inv | apply hiPump_inv | apply pumpSend_inv | apply hostOutStart_inv | apply foldl_inv | apply foldl_inv_snd | apply foldl_inv_thd | simp only [InvQ.mk_state] | apply InvQ.kept | dsimp -iota only | split | intro _)

theorem hostOutGo_inv {s : State} {ch : Nat} (hs : InvQ wq s) : InvQ wq (hostOutGo s ch) := by
  unfold hostOutGo
  try dsimp -iota only
  with_reducible repeat' (first | assumption | apply hostOutFill_inv | apply flushDue_inv | apply hostOutMove_inv | dsimp -iota only | split)

theorem freePage_inv {s : State} {id : Nat} {page : Nat} (hs : InvQ wq s) : InvQ wq (freePage s id page) := by
  unfold freePage
  try dsimp -iota only
  with_reducible repeat' (first | assumption | apply updItem_inv | apply freeSlot_inv | simp only [InvQ.mk_state] | apply InvQ.kept | dsimp -iota only | split)

theorem readMoved_inv {s : State} {d : Nat} {it : Item} {e' : Entry} (hs : InvQ wq s) : InvQ wq (readMoved s d it e') := by
  unfold readMoved
  try dsimp -iota only
  with_reducible repeat' (first | assumption | apply updQuarter_inv | apply tallyW_inv | apply freePage_inv | apply dropCur_inv | apply endItem_inv | apply leaveLun_inv | apply dmaKickAll_inv | simp only [InvQ.mk_state] | apply InvQ.kept | dsimp -iota only | split)

theorem readWriteFailed_inv {s : State} {d : Nat} {item : Nat} {page : Nat} {q : Nat} {tag : Nat} {pair : Nat} (hs : InvQ wq s) : InvQ wq (readWriteFailed s d item page q tag pair) := by
  unfold readWriteFailed
  try dsimp -iota only
  with_reducible repeat' (first | assumption | apply mark_inv | apply tally_inv | apply flag1_inv | apply updQuarter_inv | apply updDma_inv | apply wr1_inv | simp only [InvQ.mk_state] | apply InvQ.kept | dsimp -iota only | split)

theorem descStage_inv {s : State} {d : Nat} {off : Nat} {r : DescRun} {b : List Byte} {ps : List Bool} (hs : InvQ wq s) : InvQ wq (descStage s d off r b ps) := by
  unfold descStage
  try dsimp -iota only
  with_reducible repeat' (first | assumption | apply forNat_inv | apply writeLine_inv | apply updDma_inv | apply foldl_inv | simp only [InvQ.mk_state] | apply InvQ.kept | dsimp -iota only | split | intro _)

theorem descPut_inv {s : State} {d : Nat} {off : Nat} {r : DescRun} {b : List Byte} {ps : List Bool} (hs : InvQ wq s) : InvQ wq (descPut s d off r b ps) := by
  unfold descPut
  try dsimp -iota only
  with_reducible repeat' (first | assumption | apply descStage_inv | apply hiPump_inv | apply pumpSend_inv | apply hiSend_inv | dsimp -iota only | split)

theorem descDrain_inv {s : State} {d : Nat} {x2 : Nat} (hs : InvQ wq s) : InvQ wq (descDrain s d x2) := by
  induction x2 generalizing s with
  | zero => assumption
  | succ n ih =>
    unfold descDrain
    try dsimp -iota only
    with_reducible repeat' (first | assumption | apply ih | apply descPut_inv | apply updDma_inv | simp only [InvQ.mk_state] | apply InvQ.kept | dsimp -iota only | split)

theorem stgSource_inv {s : State} {a : Nat} {len : Nat} {fixed : Bool} (hs : InvQ wq s) : InvQ wq (stgSource s a len fixed).2.2 := by
  unfold stgSource
  try dsimp -iota only
  with_reducible repeat' (first | assumption | apply readLine_inv | apply foldl_inv | apply foldl_inv_snd | apply foldl_inv_thd | dsimp -iota only | split | intro _)
theorem stgSource_inv_eq {s : State} {a : Nat} {len : Nat} {fixed : Bool} (hs : InvQ wq s) {a₁ : _} {b₁ : _} {t : State} (e : stgSource s a len fixed = (a₁, b₁, t)) : InvQ wq t := by
  have := stgSource_inv (s := s) (a := a) (len := len) (fixed := fixed) hs
  rw [e] at this
  exact this

theorem descFromStg_inv {s : State} {d : Nat} {r : DescRun} (hs : InvQ wq s) : InvQ wq (descFromStg s d r) := by
  unfold descFromStg
  try dsimp -iota only
  with_reducible repeat' (first | assumption | apply stgSource_inv | (refine stgSource_inv_eq ?_ (by assumption)) | apply descDrain_inv | apply updDma_inv | simp only [InvQ.mk_state] | apply InvQ.kept | dsimp -iota only)

theorem descFromHost_inv {s : State} {d : Nat} {r : DescRun} (hs : InvQ wq s) : InvQ wq (descFromHost s d r) := by
  unfold descFromHost
  try dsimp -iota only
  with_reducible repeat' (first | assumption | apply updDma_inv | apply hiPump_inv | apply pumpSend_inv | simp only [InvQ.mk_state] | apply InvQ.kept | dsimp -iota only)

theorem descMove_inv {s : State} {d : Nat} (hs : InvQ wq s) : InvQ wq (descMove s d) := by
  unfold descMove
  try dsimp -iota only
  with_reducible repeat' (first | assumption | apply descFromStg_inv | apply descFromHost_inv | dsimp -iota only | split)

theorem descStart_inv {s : State} {d : Nat} {b : List Byte} (hs : InvQ wq s) : InvQ wq (descStart s d b) := by
  unfold descStart
  try dsimp -iota only
  with_reducible repeat' (first | assumption | apply updDma_inv | apply flag1_inv | apply tally_inv | apply descMove_inv | simp only [InvQ.mk_state] | apply InvQ.kept | dsimp -iota only | split)

theorem dmaUnpark_inv {s : State} (hs : InvQ wq s) : InvQ wq (dmaUnpark s) := by
  unfold dmaUnpark
  try dsimp -iota only
  with_reducible repeat' (first | assumption | apply hiPump_inv | apply descDrain_inv | apply descMove_inv | apply dmaKickAll_inv | apply foldl_inv | dsimp -iota only | split | intro _)

theorem descEnd_inv {s : State} {d : Nat} {r : DescRun} (hs : InvQ wq s) : InvQ wq (descEnd s d r) := by
  unfold descEnd
  try dsimp -iota only
  with_reducible repeat' (first | assumption | apply updDma_inv | apply hiSend_inv | simp only [InvQ.mk_state] | apply InvQ.kept | apply InvQ.kept_hi | dsimp -iota only | split)

theorem descFail_inv {s : State} {d : Nat} (hs : InvQ wq s) : InvQ wq (descFail s d) := by
  unfold descFail
  split
  · exact hs
  split
  · exact hs
  · exact tally_inv (flag1_inv (dropReads_inv (hiForget_inv (updDma_inv hs))))


theorem lateRing_inv {s : State} {d : Nat} {idx : Nat} (hs : InvQ wq s) : InvQ wq (lateRing s d idx) := by
  unfold lateRing
  try dsimp -iota only
  with_reducible repeat' (first | assumption | apply tally_inv | apply flag1_inv | apply wr1_inv | dsimp -iota only | split)

theorem dcEnable_inv {s : State} {d : Nat} (hs : InvQ wq s) : InvQ wq (dcEnable s d) := by
  unfold dcEnable
  try dsimp -iota only
  with_reducible repeat' (first | assumption | apply wr1_inv | apply ringKick_inv | apply dmaKickAll_inv | dsimp -iota only)

theorem dcEvict_inv {s : State} {d : Nat} (hs : InvQ wq s) : InvQ wq (dcEvict s d) := by
  unfold dcEvict
  try dsimp -iota only
  with_reducible repeat' (first | assumption | apply updDma_inv | apply dmaKickAll_inv | apply placeEntries_inv | simp only [InvQ.mk_state] | apply InvQ.kept | dsimp -iota only | split)

theorem dcWriteEnable_inv {s : State} {d : Nat} {e' : Bool} (hs : InvQ wq s) : InvQ wq (dcWriteEnable s d e') := by
  unfold dcWriteEnable
  try dsimp -iota only
  with_reducible repeat' (first | assumption | apply flag1_inv | apply dcEnable_inv | apply dcEvict_inv | apply wr1_inv | dsimp -iota only | split)

theorem dcDrained_inv {s : State} {d : Nat} (hs : InvQ wq s) : InvQ wq (dcDrained s d) := by
  unfold dcDrained
  try dsimp -iota only
  with_reducible repeat' (first | assumption | apply dcEnable_inv | apply wr1_inv | dsimp -iota only | split)

theorem dropParked_inv {s : State} {half : Nat} (hs : InvQ wq s) : InvQ wq (dropParked s half) := by
  unfold dropParked
  try dsimp -iota only
  with_reducible repeat' (first | assumption | simp only [InvQ.mk_state] | apply InvQ.kept | dsimp -iota only)

theorem dcStop_inv {s : State} {half : Nat} (hs : InvQ wq s) : InvQ wq (dcStop s half) := by
  unfold dcStop
  try dsimp -iota only
  with_reducible repeat' (first | assumption | apply hiForget_inv | apply hiDrop_inv | apply wr1_inv | apply dropParked_inv | apply stopCore_inv | apply flushAll_inv | apply dmaKickAll_inv | apply updDma_inv | apply foldl_inv | apply foldl_inv_snd | apply foldl_inv_thd | simp only [InvQ.mk_state] | apply InvQ.kept | dsimp -iota only | split | intro _)

end Sys2Proof.Machine
end

