-- ==== Sys2Proof/Laws/InvBootSwap.lean ====
section
/-! SUPPORT. Every operation over the state keeps the invariant Sys2Proof.Machine.Inv: one lemma for each, in the order of
the definitions. -/

set_option linter.unusedTactic false
set_option linter.unreachableTactic false
set_option linter.unusedSimpArgs false

namespace Sys2Proof.Machine

variable {wq : List Instr}

theorem enqueue_inv {s : State} {id : Nat} {l : Lun} (hs : InvQ wq s) : InvQ wq (enqueue s id l) := by
  unfold enqueue
  try dsimp -iota only
  with_reducible repeat' (first | assumption | apply updItem_inv | apply updLun_inv | simp only [InvQ.mk_state] | apply InvQ.kept | dsimp -iota only)

theorem swapIssue_inv {s : State} {w : Swap} (hs : InvQ wq s) : InvQ wq (swapIssue s w) := by
  unfold swapIssue
  try dsimp -iota only
  with_reducible repeat' (first | assumption | apply swapEnd_inv | apply enqueue_inv | apply wantSlots_inv | simp only [InvQ.mk_state] | apply InvQ.kept | dsimp -iota only | split)

theorem swapBegin_inv {s : State} {it : Item} (hs : InvQ wq s) : InvQ wq (swapBegin s it) := by
  unfold swapBegin
  try dsimp -iota only
  with_reducible repeat' (first | assumption | apply updItem_inv | apply endWith_inv | apply swapIssue_inv | simp only [InvQ.mk_state] | apply InvQ.kept | dsimp -iota only | split)

theorem swapTarget_inv {s : State} {w : Swap} {gen1 : Option Nat} (hs : InvQ wq s) : InvQ wq (swapTarget s w gen1) := by
  unfold swapTarget
  try dsimp -iota only
  with_reducible repeat' (first | assumption | apply stagingLines_inv | (refine stagingLines_inv_eq ?_ (by assumption)) | apply swapIssue_inv | simp only [InvQ.mk_state] | apply InvQ.kept | dsimp -iota only | split)

theorem swapRead_inv {s : State} {w : Swap} (hs : InvQ wq s) : InvQ wq (swapRead s w) := by
  unfold swapRead
  try dsimp -iota only
  with_reducible repeat' (first | assumption | apply swapEnd_inv | simp only [InvQ.mk_state] | apply InvQ.kept | dsimp -iota only | split)

theorem swapHeaderBack_inv {s : State} {w : Swap} {h : Option BootHdr} (hs : InvQ wq s) : InvQ wq (swapHeaderBack s w h) := by
  unfold swapHeaderBack
  try dsimp -iota only
  with_reducible repeat' (first | assumption | apply swapIssue_inv | apply swapEnd_inv | simp only [InvQ.mk_state] | apply InvQ.kept | dsimp -iota only | split)

theorem swapImageBack_inv {s : State} {w : Swap} {p : Nat} {unc : Bool} {b : List Byte} (hs : InvQ wq s) : InvQ wq (swapImageBack s w p unc b) := by
  unfold swapImageBack
  try dsimp -iota only
  with_reducible repeat' (first | assumption | apply swapEnd_inv | apply swapIssue_inv | apply swapRead_inv | simp only [InvQ.mk_state] | apply InvQ.kept | dsimp -iota only | split)

theorem pageUser_inv {s : State} {it : Item} (hs : InvQ wq s) : InvQ wq (pageUser s it).2 := by
  unfold pageUser
  try dsimp -iota only
  with_reducible repeat' (first | assumption | apply slotRead_inv | (refine slotRead_inv_eq ?_ (by assumption)) | apply foldl_inv | apply foldl_inv_snd | apply foldl_inv_thd | dsimp -iota only | split | intro _)
theorem pageUser_inv_eq {s : State} {it : Item} (hs : InvQ wq s) {a₁ : _} {t : State} (e : pageUser s it = (a₁, t)) : InvQ wq t := by
  have := pageUser_inv (s := s) (it := it) hs
  rw [e] at this
  exact this

theorem setLoad_inv {s : State} {l : Load} (hs : InvQ wq s) : InvQ wq (setLoad s l) := by
  unfold setLoad
  try dsimp -iota only
  with_reducible repeat' (first | assumption | simp only [InvQ.mk_state] | apply InvQ.kept | dsimp -iota only)

theorem loadIssue_inv {s : State} {l : Load} (hs : InvQ wq s) : InvQ wq (loadIssue s l) := by
  unfold loadIssue
  try dsimp -iota only
  with_reducible repeat' (first | assumption | apply setLoad_inv | apply enqueue_inv | simp only [InvQ.mk_state] | apply InvQ.kept | dsimp -iota only | split)

theorem loadBegin_inv {s : State} (hs : InvQ wq s) : InvQ wq (loadBegin s) := by
  unfold loadBegin
  try dsimp -iota only
  with_reducible repeat' (first | assumption | apply loadIssue_inv | simp only [InvQ.mk_state] | apply InvQ.kept | dsimp -iota only | split)

theorem loadImagePage_inv {s : State} {l : Load} {b : Nat} {p : Nat} {unc : Bool} {d : List Byte} (hs : InvQ wq s) : InvQ wq (loadImagePage s l b p unc d) := by
  unfold loadImagePage
  try dsimp -iota only
  with_reducible repeat' (first | assumption | apply loadIssue_inv | apply writeLines_inv | simp only [InvQ.mk_state] | apply InvQ.kept | dsimp -iota only | split)

theorem loadDecoded_inv {s : State} {it : Item} {l : Load} (hs : InvQ wq s) : InvQ wq (loadDecoded s it l) := by
  unfold loadDecoded
  try dsimp -iota only
  with_reducible repeat' (first | assumption | apply pageUser_inv | (refine pageUser_inv_eq ?_ (by assumption)) | apply endCore_inv | apply loadIssue_inv | apply loadImagePage_inv | simp only [InvQ.mk_state] | apply InvQ.kept | dsimp -iota only | split)

theorem bootDecoded_inv {s : State} {it : Item} (hs : InvQ wq s) : InvQ wq (bootDecoded s it) := by
  unfold bootDecoded
  try dsimp -iota only
  with_reducible repeat' (first | assumption | apply endItem_inv | apply loadDecoded_inv | apply pageUser_inv | (refine pageUser_inv_eq ?_ (by assumption)) | apply swapGather_inv | apply endCore_inv | apply swapIssue_inv | apply swapTarget_inv | apply swapHeaderBack_inv | apply swapImageBack_inv | simp only [InvQ.mk_state] | apply InvQ.kept | dsimp -iota only | split)

theorem bootProgrammed_inv {s : State} {it : Item} (hs : InvQ wq s) : InvQ wq (bootProgrammed s it) := by
  unfold bootProgrammed
  try dsimp -iota only
  with_reducible repeat' (first | assumption | apply endItem_inv | apply swapGather_inv | apply endCore_inv | apply swapIssue_inv | simp only [InvQ.mk_state] | apply InvQ.kept | dsimp -iota only | split)

end Sys2Proof.Machine
end

