-- ==== Sys2Proof/Laws/InvReading.lean ====
section
/-! SUPPORT. Every operation over the state keeps the invariant Sys2Proof.Machine.Inv: one lemma for each, in the order of
the definitions. -/

set_option linter.unusedTactic false
set_option linter.unreachableTactic false
set_option linter.unusedSimpArgs false

namespace Sys2Proof.Machine

variable {wq : List Instr}

theorem queueJob_inv {s : State} {it : Item} {page : Nat} {k : JobKind} (hs : InvQ wq s) : InvQ wq (queueJob s it page k) := by
  unfold queueJob
  try dsimp -iota only
  with_reducible repeat' (first | assumption | simp only [InvQ.mk_state] | apply InvQ.kept | dsimp -iota only)

theorem claimJob_inv {s : State} {e' : Nat} {j : Job} (hs : InvQ wq s) : InvQ wq (claimJob s e' j) := by
  unfold claimJob
  try dsimp -iota only
  with_reducible repeat' (first | assumption | apply tally_inv | simp only [InvQ.mk_state] | apply InvQ.kept | dsimp -iota only | split)

theorem releaseEngine_inv {s : State} {e' : Nat} {j : Job} {iters : Nat} (hs : InvQ wq s) : InvQ wq (releaseEngine s e' j iters) := by
  unfold releaseEngine
  try dsimp -iota only
  with_reducible repeat' (first | assumption | apply tallyCW_inv | simp only [InvQ.mk_state] | apply InvQ.kept | dsimp -iota only)

theorem updPage_inv {s : State} {id : Nat} {page : Nat} {f : Page → Page} (hs : InvQ wq s) : InvQ wq (updPage s id page f) := by
  unfold updPage
  try dsimp -iota only
  with_reducible repeat' (first | assumption | apply updItem_inv | simp only [InvQ.mk_state] | apply InvQ.kept | dsimp -iota only | split)

theorem parityPut_inv {s : State} {id : Nat} {page : Nat} {sl : Nat} {off : Nat} {b : List Byte} (hs : InvQ wq s) : InvQ wq (parityPut s id page sl off b) := by
  unfold parityPut
  try dsimp -iota only
  with_reducible repeat' (first | assumption | apply updPage_inv | apply slotWrite_inv | simp only [InvQ.mk_state] | apply InvQ.kept | apply InvQ.kept_hi | dsimp -iota only | split)

theorem segToSlot_inv {s : State} {id : Nat} {page : Nat} {st : Nat} {sl : Nat} {q : Nat} {b : List Byte} (hs : InvQ wq s) : InvQ wq (segToSlot s id page st sl q b) := by
  unfold segToSlot
  try dsimp -iota only
  with_reducible repeat' (first | assumption | apply parityPut_inv | apply slotWrite_inv | dsimp -iota only)

theorem sliceToSlot_inv {s : State} {id : Nat} {page : Nat} {st : Nat} {sl : Nat} {i : Nat} {b : List Byte} (hs : InvQ wq s) : InvQ wq (sliceToSlot s id page st sl i b) := by
  unfold sliceToSlot
  try dsimp -iota only
  with_reducible repeat' (first | assumption | apply parityPut_inv | dsimp -iota only)

theorem engineReads_inv {s : State} {sl : Nat} {rs : List (Nat × Nat)} (hs : InvQ wq s) : InvQ wq (engineReads s sl rs).2 := by
  unfold engineReads
  try dsimp -iota only
  with_reducible repeat' (first | assumption | apply readWritten_inv | (refine readWritten_inv_eq ?_ (by assumption)) | apply foldl_inv | apply foldl_inv_snd | apply foldl_inv_thd | dsimp -iota only | intro _)
theorem engineReads_inv_eq {s : State} {sl : Nat} {rs : List (Nat × Nat)} (hs : InvQ wq s) {a₁ : _} {t : State} (e : engineReads s sl rs = (a₁, t)) : InvQ wq t := by
  have := engineReads_inv (s := s) (sl := sl) (rs := rs) hs
  rw [e] at this
  exact this

theorem engineWrites_inv {s : State} {id : Nat} {page : Nat} {sl : Nat} {bs : List SlotBuf} {ps : List Nat} (hs : InvQ wq s) : InvQ wq (engineWrites s id page sl bs ps) := by
  unfold engineWrites
  try dsimp -iota only
  with_reducible repeat' (first | assumption | apply forNat_inv | apply slotWrite_inv | apply updPage_inv | apply foldl_inv | simp only [InvQ.mk_state] | apply InvQ.kept | dsimp -iota only | split | intro _)

theorem poisonQuarter_inv {s : State} {sl : Nat} {q : Nat} (hs : InvQ wq s) : InvQ wq (poisonQuarter s sl q) := by
  unfold poisonQuarter
  try dsimp -iota only
  with_reducible repeat' (first | assumption | apply slotRead_inv | (refine slotRead_inv_eq ?_ (by assumption)) | apply slotWrite_inv | dsimp -iota only)

theorem finalQuarter_inv {s : State} {it : Item} {page : Nat} {q : Nat} {st : QState} {grade : Nat} {corr : Nat} (hs : InvQ wq s) : InvQ wq (finalQuarter s it page q st grade corr) := by
  unfold finalQuarter
  try dsimp -iota only
  with_reducible repeat' (first | assumption | apply updPage_inv | apply tallyC_inv | simp only [InvQ.mk_state] | apply InvQ.kept | dsimp -iota only | split)

theorem uncQuarter_inv {s : State} {it : Item} {pq : Nat × Nat} (hs : InvQ wq s) : InvQ wq (uncQuarter s it pq) := by
  unfold uncQuarter
  try dsimp -iota only
  with_reducible repeat' (first | assumption | apply tallyC_inv | apply finalQuarter_inv | apply updPage_inv | apply poisonQuarter_inv | simp only [InvQ.mk_state] | apply InvQ.kept | dsimp -iota only | split)

theorem copyDecoded_inv {s : State} {it : Item} (hs : InvQ wq s) : InvQ wq (copyDecoded s it) := by
  unfold copyDecoded
  try dsimp -iota only
  with_reducible repeat' (first | assumption | apply endItem_inv | apply endWith_inv | apply enqueue_inv | apply updItem_inv | simp only [InvQ.mk_state] | apply InvQ.kept | dsimp -iota only | split)

theorem relocates_inv {s : State} {g : Nat} (hs : InvQ wq s) : InvQ wq (relocates s g).2 := by
  unfold relocates
  try dsimp -iota only
  with_reducible repeat' (first | assumption | apply freeBit_inv | (refine freeBit_inv_eq ?_ (by assumption)) | dsimp -iota only | split)
theorem relocates_inv_eq {s : State} {g : Nat} (hs : InvQ wq s) {a₁ : _} {t : State} (e : relocates s g = (a₁, t)) : InvQ wq t := by
  have := relocates_inv (s := s) (g := g) hs
  rw [e] at this
  exact this

theorem patrolDecoded_inv {s : State} {it : Item} (hs : InvQ wq s) : InvQ wq (patrolDecoded s it) := by
  unfold patrolDecoded
  try dsimp -iota only
  with_reducible repeat' (first | assumption | apply wr0_inv | apply tallyC_inv | apply tally_inv | apply relocWrite_inv | apply dropItem_inv | apply cleanup_inv | apply relocates_inv | (refine relocates_inv_eq ?_ (by assumption)) | apply updItem_inv | apply endItem_inv | simp only [InvQ.mk_state] | apply InvQ.kept | dsimp -iota only | split)

theorem deliver_inv {s : State} {id : Nat} (hs : InvQ wq s) : InvQ wq (deliver s id) := by
  unfold deliver
  try dsimp -iota only
  with_reducible repeat' (first | assumption | apply patrolDecoded_inv | apply bootDecoded_inv | apply copyDecoded_inv | apply updItem_inv | apply placeEntries_inv | apply foldl_inv | apply foldl_inv_snd | apply foldl_inv_thd | simp only [InvQ.mk_state] | apply InvQ.kept | dsimp -iota only | split | intro _)

theorem giveUp_inv {s : State} {it : Item} {why : Option Status} (hs : InvQ wq s) : InvQ wq (giveUp s it why) := by
  unfold giveUp
  try dsimp -iota only
  with_reducible repeat' (first | assumption | apply uncQuarter_inv | apply mark_inv | apply deliver_inv | apply foldl_inv | dsimp -iota only | split | intro _)

theorem toHead_inv {s : State} {it : Item} {k : SenseKind} (hs : InvQ wq s) : InvQ wq (toHead s it k) := by
  unfold toHead
  try dsimp -iota only
  with_reducible repeat' (first | assumption | apply updItem_inv | apply updLun_inv | simp only [InvQ.mk_state] | apply InvQ.kept | dsimp -iota only | split)

theorem escalate_inv {s : State} {it : Item} (hs : InvQ wq s) : InvQ wq (escalate s it) := by
  unfold escalate
  try dsimp -iota only
  with_reducible repeat' (first | assumption | apply giveUp_inv | apply leaveLun_inv | apply updItem_inv | apply toHead_inv | simp only [InvQ.mk_state] | apply InvQ.kept | dsimp -iota only | split)

theorem endLadder_inv {s : State} {it : Item} (hs : InvQ wq s) : InvQ wq (endLadder s it) := by
  unfold endLadder
  try dsimp -iota only
  with_reducible repeat' (first | assumption | apply updLun_inv | apply askBus_inv | simp only [InvQ.mk_state] | apply InvQ.kept | dsimp -iota only | split)

theorem nextStep_inv {s : State} {it : Item} {n : Nat} (hs : InvQ wq s) : InvQ wq (nextStep s it n) := by
  unfold nextStep
  try dsimp -iota only
  with_reducible repeat' (first | assumption | apply giveUp_inv | apply endLadder_inv | apply toHead_inv | dsimp -iota only | split)

theorem holdExpire_inv {s : State} {l : Lun} (hs : InvQ wq s) : InvQ wq (holdExpire s l) := by
  unfold holdExpire
  try dsimp -iota only
  with_reducible repeat' (first | assumption | apply tallyC_inv | apply updItem_inv | apply freeLun_inv | apply updCh_inv | apply returnUnused_inv | apply toHead_inv | simp only [InvQ.mk_state] | apply InvQ.kept | dsimp -iota only | split)

theorem landQuarter_inv {s : State} {it : Item} {page : Nat} {q : Nat} {raw : List Byte} {seg : List Byte} {toSlot : Bool} (hs : InvQ wq s) : InvQ wq (landQuarter s it page q raw seg toSlot) := by
  unfold landQuarter
  try dsimp -iota only
  with_reducible repeat' (first | assumption | apply slotWrite_inv | apply finalQuarter_inv | apply tallyC_inv | apply segToSlot_inv | apply queueJob_inv | apply updPage_inv | simp only [InvQ.mk_state] | apply InvQ.kept | dsimp -iota only | split)

theorem landFirst_inv {s : State} {it : Item} {page : Nat} {p : Page} {data : List Byte} (hs : InvQ wq s) : InvQ wq (landFirst s it page p data) := by
  unfold landFirst
  try dsimp -iota only
  with_reducible repeat' (first | assumption | apply landQuarter_inv | apply foldl_inv | dsimp -iota only | intro _)

theorem landEsc_inv {s : State} {it : Item} {page : Nat} {p : Page} {data : List Byte} (hs : InvQ wq s) : InvQ wq (landEsc s it page p data) := by
  unfold landEsc
  try dsimp -iota only
  with_reducible repeat' (first | assumption | apply updPage_inv | apply segToSlot_inv | apply sliceToSlot_inv | apply queueJob_inv | apply foldl_inv | apply foldl_inv_snd | apply foldl_inv_thd | simp only [InvQ.mk_state] | apply InvQ.kept | dsimp -iota only | split | intro _)

theorem landHard_inv {s : State} {it : Item} {page : Nat} {p : Page} {data : List Byte} (hs : InvQ wq s) : InvQ wq (landHard s it page p data) := by
  unfold landHard
  try dsimp -iota only
  with_reducible repeat' (first | assumption | apply updPage_inv | apply landQuarter_inv | apply foldl_inv | apply foldl_inv_snd | apply foldl_inv_thd | simp only [InvQ.mk_state] | apply InvQ.kept | dsimp -iota only | intro _)

theorem landSoft_inv {s : State} {it : Item} {j : Nat} {p : Page} {data : List Byte} (hs : InvQ wq s) : InvQ wq (landSoft s it j p data) := by
  unfold landSoft
  try dsimp -iota only
  with_reducible repeat' (first | assumption | apply slotWrite_inv | apply foldl_inv | apply foldl_inv_snd | apply foldl_inv_thd | dsimp -iota only | split | intro _)

theorem marginEnd_inv {s : State} {it : Item} (hs : InvQ wq s) : InvQ wq (marginEnd s it) := by
  unfold marginEnd
  try dsimp -iota only
  with_reducible repeat' (first | assumption | apply endWith_inv | apply endItem_inv | dsimp -iota only | split)

theorem readPassed_inv {s : State} {it : Item} (hs : InvQ wq s) : InvQ wq (readPassed s it) := by
  unfold readPassed
  try dsimp -iota only
  with_reducible repeat' (first | assumption | apply deliver_inv | apply endLadder_inv | apply leaveLun_inv | dsimp -iota only | split)

theorem cutDeliver_inv {s : State} {it : Item} (hs : InvQ wq s) : InvQ wq (cutDeliver s it).2 := by
  unfold cutDeliver
  try dsimp -iota only
  with_reducible repeat' (first | assumption | apply deliver_inv | dsimp -iota only | split)
theorem cutDeliver_inv_eq {s : State} {it : Item} (hs : InvQ wq s) {a₁ : _} {t : State} (e : cutDeliver s it = (a₁, t)) : InvQ wq t := by
  have := cutDeliver_inv (s := s) (it := it) hs
  rw [e] at this
  exact this

theorem settleLocal_inv {s : State} {id : Nat} (hs : InvQ wq s) : InvQ wq (settleLocal s id) := by
  unfold settleLocal
  try dsimp -iota only
  with_reducible repeat' (first | assumption | apply cutDeliver_inv | (refine cutDeliver_inv_eq ?_ (by assumption)) | apply marginEnd_inv | apply readPassed_inv | apply queueJob_inv | apply escalate_inv | apply foldl_inv | apply foldl_inv_snd | apply foldl_inv_thd | dsimp -iota only | split | intro _)

theorem globalFailed_inv {s : State} {it : Item} (hs : InvQ wq s) : InvQ wq (globalFailed s it) := by
  unfold globalFailed
  try dsimp -iota only
  with_reducible repeat' (first | assumption | apply nextStep_inv | apply giveUp_inv | apply endLadder_inv | apply toHead_inv | apply wantSlots_inv | dsimp -iota only | split)

theorem settleGlobal_inv {s : State} {id : Nat} (hs : InvQ wq s) : InvQ wq (settleGlobal s id) := by
  unfold settleGlobal
  try dsimp -iota only
  with_reducible repeat' (first | assumption | apply cutDeliver_inv | (refine cutDeliver_inv_eq ?_ (by assumption)) | apply readPassed_inv | apply globalFailed_inv | dsimp -iota only | split)

theorem settleSoft_inv {s : State} {id : Nat} (hs : InvQ wq s) : InvQ wq (settleSoft s id) := by
  unfold settleSoft
  try dsimp -iota only
  with_reducible repeat' (first | assumption | apply cutDeliver_inv | (refine cutDeliver_inv_eq ?_ (by assumption)) | apply freeSoft_inv | apply readPassed_inv | apply nextStep_inv | apply giveUp_inv | dsimp -iota only | split)

theorem decodeReads_inv {s : State} {it : Item} {page : Nat} {rs : List (Nat × Nat)} (hs : InvQ wq s) : InvQ wq (decodeReads s it page rs).2 := by
  unfold decodeReads
  try dsimp -iota only
  with_reducible repeat' (first | assumption | apply engineReads_inv | (refine engineReads_inv_eq ?_ (by assumption)) | dsimp -iota only | split)
theorem decodeReads_inv_eq {s : State} {it : Item} {page : Nat} {rs : List (Nat × Nat)} (hs : InvQ wq s) {a₁ : _} {t : State} (e : decodeReads s it page rs = (a₁, t)) : InvQ wq t := by
  have := decodeReads_inv (s := s) (it := it) (page := page) (rs := rs) hs
  rw [e] at this
  exact this

theorem localResult_inv {s : State} {it : Item} {page : Nat} {q : Nat} {r : DecodeResult} (hs : InvQ wq s) : InvQ wq (localResult s it page q r) := by
  unfold localResult
  try dsimp -iota only
  with_reducible repeat' (first | assumption | apply decodeReads_inv | (refine decodeReads_inv_eq ?_ (by assumption)) | apply updItem_inv | apply tallyCW_inv | apply finalQuarter_inv | apply segToSlot_inv | apply engineWrites_inv | apply updPage_inv | simp only [InvQ.mk_state] | apply InvQ.kept | dsimp -iota only | split)

theorem pagePassed_inv {s : State} {it : Item} {page : Nat} {soft : Bool} {fix : List Nat} {bs : List SlotBuf} (hs : InvQ wq s) : InvQ wq (pagePassed s it page soft fix bs) := by
  unfold pagePassed
  try dsimp -iota only
  with_reducible repeat' (first | assumption | apply finalQuarter_inv | apply segToSlot_inv | apply engineWrites_inv | apply foldl_inv | apply foldl_inv_snd | apply foldl_inv_thd | dsimp -iota only | split | intro _)

theorem softReads_inv {s : State} {it : Item} {page : Nat} (hs : InvQ wq s) : InvQ wq (softReads s it page) := by
  unfold softReads
  try dsimp -iota only
  with_reducible repeat' (first | assumption | apply engineReads_inv | (refine engineReads_inv_eq ?_ (by assumption)) | apply foldl_inv | apply foldl_inv_snd | apply foldl_inv_thd | dsimp -iota only | split | intro _)

theorem pageResult_inv {s : State} {it : Item} {page : Nat} {soft : Bool} {r : DecodeResult} (hs : InvQ wq s) : InvQ wq (pageResult s it page soft r) := by
  unfold pageResult
  try dsimp -iota only
  with_reducible repeat' (first | assumption | apply decodeReads_inv | (refine decodeReads_inv_eq ?_ (by assumption)) | apply softReads_inv | apply updItem_inv | apply tallyCW_inv | apply pagePassed_inv | apply uncQuarter_inv | apply mark_inv | apply foldl_inv | simp only [InvQ.mk_state] | apply InvQ.kept | dsimp -iota only | split | intro _)

end Sys2Proof.Machine
end

