-- ==== Sys2Proof/Laws/InvDecoding.lean ====
section
/-! SUPPORT. Every operation over the state keeps the invariant Sys2Proof.Machine.Inv: one lemma for each, in the order of
the definitions. -/

set_option linter.unusedTactic false
set_option linter.unreachableTactic false
set_option linter.unusedSimpArgs false

namespace Sys2Proof.Machine

variable {wq : List Instr}

theorem rawLanded_inv {s : State} {it : Item} {pd : List (Page × Nat × List Byte)} (hs : InvQ wq s) : InvQ wq (rawLanded s it pd) := by
  unfold rawLanded
  try dsimp -iota only
  with_reducible repeat' (first | assumption | apply slotWrite_inv | apply offLun_inv | apply updItem_inv | apply placeEntries_inv | apply foldl_inv | apply foldl_inv_snd | apply foldl_inv_thd | simp only [InvQ.mk_state] | apply InvQ.kept | dsimp -iota only | split | intro _)

theorem marginLanded_inv {s : State} {it : Item} {pd : List (Page × Nat × List Byte)} (hs : InvQ wq s) : InvQ wq (marginLanded s it pd) := by
  unfold marginLanded
  try dsimp -iota only
  with_reducible repeat' (first | assumption | apply settleLocal_inv | apply landFirst_inv | apply offLun_inv | apply foldl_inv | apply foldl_inv_snd | apply foldl_inv_thd | dsimp -iota only | intro _)

theorem hardLanded_inv {s : State} {it : Item} {pd : List (Page × Nat × List Byte)} (hs : InvQ wq s) : InvQ wq (hardLanded s it pd) := by
  unfold hardLanded
  try dsimp -iota only
  with_reducible repeat' (first | assumption | apply updLun_inv | apply offLun_inv | apply settleLocal_inv | apply landHard_inv | apply foldl_inv | apply foldl_inv_snd | apply foldl_inv_thd | simp only [InvQ.mk_state] | apply InvQ.kept | dsimp -iota only | intro _)

theorem softLanded_inv {s : State} {it : Item} {n : Nat} {j : Nat} {pd : List (Page × Nat × List Byte)} (hs : InvQ wq s) : InvQ wq (softLanded s it n j pd) := by
  unfold softLanded
  try dsimp -iota only
  with_reducible repeat' (first | assumption | apply landSoft_inv | apply offLun_inv | apply toHead_inv | apply updLun_inv | apply updItem_inv | apply queueJob_inv | apply foldl_inv | apply foldl_inv_snd | apply foldl_inv_thd | simp only [InvQ.mk_state] | apply InvQ.kept | dsimp -iota only | split | intro _)

theorem escLanded_inv {s : State} {it : Item} {pd : List (Page × Nat × List Byte)} (hs : InvQ wq s) : InvQ wq (escLanded s it pd) := by
  unfold escLanded
  try dsimp -iota only
  with_reducible repeat' (first | assumption | apply updItem_inv | apply offLun_inv | apply landEsc_inv | apply foldl_inv | apply foldl_inv_snd | apply foldl_inv_thd | simp only [InvQ.mk_state] | apply InvQ.kept | dsimp -iota only | intro _)

theorem firstLanded_inv {s : State} {it : Item} {pd : List (Page × Nat × List Byte)} (hs : InvQ wq s) : InvQ wq (firstLanded s it pd) := by
  unfold firstLanded
  try dsimp -iota only
  with_reducible repeat' (first | assumption | apply settleLocal_inv | apply landFirst_inv | apply holdExpire_inv | apply foldl_inv | apply foldl_inv_snd | apply foldl_inv_thd | dsimp -iota only | split | intro _)

theorem landData_inv {s : State} {it : Item} {data : List Byte} (hs : InvQ wq s) : InvQ wq (landData s it data) := by
  unfold landData
  try dsimp -iota only
  with_reducible repeat' (first | assumption | apply rawLanded_inv | apply marginLanded_inv | apply hardLanded_inv | apply softLanded_inv | apply escLanded_inv | apply firstLanded_inv | dsimp -iota only | split)

theorem dataOutEnds_inv {s : State} {ch : Nat} {it : Item} {data : List Byte} (hs : InvQ wq s) : InvQ wq (dataOutEnds s ch it data) := by
  unfold dataOutEnds
  try dsimp -iota only
  with_reducible repeat' (first | assumption | apply flashIn_inv | apply clearBus_inv | apply releaseVccq_inv | apply updItem_inv | apply updLun_inv | apply updFifo_inv | apply landData_inv | simp only [InvQ.mk_state] | apply InvQ.kept | dsimp -iota only | split)

theorem execTransferEnd_inv {ch : Fin 48} {data : List Byte} {s : State} (hs : InvQ wq s) : OutInv wq (execTransferEnd ch data s) := by
  unfold execTransferEnd
  try dsimp -iota only
  with_reducible repeat' (first | assumption | apply kickBus_inv | apply dataOutEnds_inv | apply freeLun_inv | apply clearBus_inv | exact OutInv.fault | apply OutInv.next | dsimp -iota only | split)

theorem holdEnds_inv {s : State} {l : Lun} {until_ : Nat} (hs : InvQ wq s) : OutInv wq (holdEnds s l until_) := by
  unfold holdEnds
  try dsimp -iota only
  with_reducible repeat' (first | assumption | apply lapse_inv | (refine lapse_inv_eq ?_ (by assumption)) | apply kickBus_inv | apply holdExpire_inv | exact OutInv.fault | apply OutInv.next | dsimp -iota only | split)

theorem execDecodeHoldExpiry_inv {l : LunSel} {s : State} (hs : InvQ wq s) : OutInv wq (execDecodeHoldExpiry l s) := by
  unfold execDecodeHoldExpiry
  try dsimp -iota only
  with_reducible repeat' (first | assumption | apply holdEnds_inv | exact OutInv.fault | apply OutInv.next | dsimp -iota only | split)

theorem execDecodeJobClaim_inv {e' : Fin 40} {s : State} (hs : InvQ wq s) : OutInv wq (execDecodeJobClaim e' s) := by
  unfold execDecodeJobClaim
  try dsimp -iota only
  with_reducible repeat' (first | assumption | apply claimJob_inv | exact OutInv.fault | apply OutInv.next | dsimp -iota only | split)

theorem execLocalDecodeEnd_inv {e' : Fin 40} {r : DecodeResult} {s : State} (hs : InvQ wq s) : OutInv wq (execLocalDecodeEnd e' r s) := by
  unfold execLocalDecodeEnd
  try dsimp -iota only
  with_reducible repeat' (first | assumption | apply releaseEngine_inv | apply settleLocal_inv | apply localResult_inv | exact OutInv.fault | apply OutInv.next | dsimp -iota only | split)

theorem execGlobalDecodeEnd_inv {e' : Fin 40} {r : DecodeResult} {s : State} (hs : InvQ wq s) : OutInv wq (execGlobalDecodeEnd e' r s) := by
  unfold execGlobalDecodeEnd
  try dsimp -iota only
  with_reducible repeat' (first | assumption | apply releaseEngine_inv | apply settleGlobal_inv | apply pageResult_inv | exact OutInv.fault | apply OutInv.next | dsimp -iota only | split)

theorem execSoftDecodeEnd_inv {e' : Fin 40} {r : DecodeResult} {s : State} (hs : InvQ wq s) : OutInv wq (execSoftDecodeEnd e' r s) := by
  unfold execSoftDecodeEnd
  try dsimp -iota only
  with_reducible repeat' (first | assumption | apply releaseEngine_inv | apply settleSoft_inv | apply pageResult_inv | exact OutInv.fault | apply OutInv.next | dsimp -iota only | split)

theorem execDecodeEngineFault_inv {e' : Fin 40} {s : State} (hs : InvQ wq s) : OutInv wq (execDecodeEngineFault e' s) := by
  unfold execDecodeEngineFault
  try dsimp -iota only
  with_reducible repeat' (first | assumption | apply wr1_inv | apply flag1_inv | apply tally_inv | exact OutInv.fault | apply OutInv.next | simp only [InvQ.mk_state] | apply InvQ.kept | dsimp -iota only | split)

theorem execEngineDrainEnd_inv {e' : Fin 40} {s : State} (hs : InvQ wq s) : OutInv wq (execEngineDrainEnd e' s) := by
  unfold execEngineDrainEnd
  try dsimp -iota only
  with_reducible repeat' (first | assumption | apply wr1_inv | exact OutInv.fault | apply OutInv.next | dsimp -iota only | split)

theorem execLadderStepBegin_inv {id : Nat} {s : State} (hs : InvQ wq s) : OutInv wq (execLadderStepBegin id s) := by
  unfold execLadderStepBegin
  try dsimp -iota only
  with_reducible repeat' (first | assumption | apply askLaunch_inv | apply updItem_inv | exact OutInv.fault | apply OutInv.next | dsimp -iota only | split)

theorem execMarginReadLaunch_inv {id : Nat} {s : State} (hs : InvQ wq s) : OutInv wq (execMarginReadLaunch id s) := by
  unfold execMarginReadLaunch
  try dsimp -iota only
  with_reducible repeat' (first | assumption | apply askLaunch_inv | exact OutInv.fault | apply OutInv.next | dsimp -iota only | split)

end Sys2Proof.Machine
end

