-- ==== Sys2Proof/Laws/InvLaunching.lean ====
section
/-! SUPPORT. Every operation over the state keeps the invariant Sys2Proof.Machine.Inv: one lemma for each, in the order of
the definitions. -/

set_option linter.unusedTactic false
set_option linter.unreachableTactic false
set_option linter.unusedSimpArgs false

namespace Sys2Proof.Machine

variable {wq : List Instr}

theorem execItemBecomesCandidate_inv {id : Nat} {s : State} (hs : InvQ wq s) : OutInv wq (execItemBecomesCandidate id s) := by
  unfold execItemBecomesCandidate
  try dsimp -iota only
  with_reducible repeat' (first | assumption | apply reach_inv | (refine reach_inv_eq ?_ (by assumption)) | exact OutInv.fault | apply OutInv.next | dsimp -iota only | split)

theorem armItem_inv {s : State} {it : Item} (hs : InvQ wq s) : InvQ wq (armItem s it) := by
  unfold armItem
  try dsimp -iota only
  with_reducible repeat' (first | assumption | apply kickBus_inv | apply armOffs_inv | apply setGate_inv | apply updItem_inv | simp only [InvQ.mk_state] | apply InvQ.kept | dsimp -iota only)

theorem execItemArm_inv {id : Nat} {s : State} (hs : InvQ wq s) : OutInv wq (execItemArm id s) := by
  unfold execItemArm
  try dsimp -iota only
  with_reducible repeat' (first | assumption | apply reach_inv | (refine reach_inv_eq ?_ (by assumption)) | apply armItem_inv | exact OutInv.fault | apply OutInv.next | dsimp -iota only | split)

theorem grantAside_inv {s : State} {it : Item} (hs : InvQ wq s) : InvQ wq (grantAside s it) := by
  unfold grantAside
  try dsimp -iota only
  with_reducible repeat' (first | assumption | apply tallyGrant_inv | apply mapCoins_inv | simp only [InvQ.mk_state] | apply InvQ.kept | dsimp -iota only | split)

theorem openGate_inv {s : State} {it : Item} (hs : InvQ wq s) : InvQ wq (openGate s it) := by
  unfold openGate
  try dsimp -iota only
  with_reducible repeat' (first | assumption | apply updItem_inv | apply setGate_inv | apply startPass_inv | apply grantAside_inv | apply launchItem_inv | simp only [InvQ.mk_state] | apply InvQ.kept | dsimp -iota only | split)

theorem execLaunchGateOpen_inv {ch : Fin 48} {s : State} (hs : InvQ wq s) : OutInv wq (execLaunchGateOpen ch s) := by
  unfold execLaunchGateOpen
  try dsimp -iota only
  with_reducible repeat' (first | assumption | apply reach_inv | (refine reach_inv_eq ?_ (by assumption)) | apply openGate_inv | apply kickBus_inv | apply disarm_inv | exact OutInv.fault | apply OutInv.next | dsimp -iota only | split)

theorem execItemLaunch_inv {l : LunSel} {s : State} (hs : InvQ wq s) : OutInv wq (execItemLaunch l s) := by
  unfold execItemLaunch
  try dsimp -iota only
  with_reducible repeat' (first | assumption | apply launchItem_inv | exact OutInv.fault | apply OutInv.next | dsimp -iota only | split)

theorem execLedgerGrant_inv {s : State} (hs : InvQ wq s) : OutInv wq (execLedgerGrant s) := by
  unfold execLedgerGrant
  try dsimp -iota only
  with_reducible repeat' (first | assumption | apply ledgerRound_inv | exact OutInv.fault | apply OutInv.next | dsimp -iota only | split)

theorem execSlotGrant_inv {s : State} (hs : InvQ wq s) : OutInv wq (execSlotGrant s) := by
  unfold execSlotGrant
  try dsimp -iota only
  with_reducible repeat' (first | assumption | apply slotServe_inv | exact OutInv.fault | apply OutInv.next | dsimp -iota only | split)

theorem execSuspendIssue_inv {l : LunSel} {s : State} (hs : InvQ wq s) : OutInv wq (execSuspendIssue l s) := by
  unfold execSuspendIssue
  try dsimp -iota only
  with_reducible repeat' (first | assumption | apply lapse_inv | (refine lapse_inv_eq ?_ (by assumption)) | apply askBus_inv | apply raiseSeq_inv | exact OutInv.fault | apply OutInv.next | simp only [InvQ.mk_state] | apply InvQ.kept | dsimp -iota only | split)

theorem execResumeIssue_inv {l : LunSel} {s : State} (hs : InvQ wq s) : OutInv wq (execResumeIssue l s) := by
  unfold execResumeIssue
  try dsimp -iota only
  with_reducible repeat' (first | assumption | apply askBus_inv | exact OutInv.fault | apply OutInv.next | simp only [InvQ.mk_state] | apply InvQ.kept | dsimp -iota only | split)

theorem altChange_inv {was : Bool} {asked : Bool} {s : State} (hs : InvQ wq s) : InvQ wq (altChange was asked s) := by
  unfold altChange
  try dsimp -iota only
  with_reducible repeat' (first | assumption | apply altBegins_inv | simp only [InvQ.mk_state] | apply InvQ.kept | dsimp -iota only | split)

theorem setCut_inv {s : State} {v : Bool} (hs : InvQ wq s) : InvQ wq (setCut s v) := by
  unfold setCut
  try dsimp -iota only
  with_reducible repeat' (first | assumption | apply altChange_inv | simp only [InvQ.mk_state] | apply InvQ.kept | dsimp -iota only | split)

theorem execLedgerCutRise_inv {s : State} (hs : InvQ wq s) : OutInv wq (execLedgerCutRise s) := by
  unfold execLedgerCutRise
  try dsimp -iota only
  with_reducible repeat' (first | assumption | apply setCut_inv | exact OutInv.fault | apply OutInv.next | dsimp -iota only)

theorem execLedgerCutFall_inv {s : State} (hs : InvQ wq s) : OutInv wq (execLedgerCutFall s) := by
  unfold execLedgerCutFall
  try dsimp -iota only
  with_reducible repeat' (first | assumption | apply setCut_inv | exact OutInv.fault | apply OutInv.next | dsimp -iota only)

theorem execCutHoldExpiry_inv {s : State} (hs : InvQ wq s) : OutInv wq (execCutHoldExpiry s) := by
  unfold execCutHoldExpiry
  try dsimp -iota only
  with_reducible repeat' (first | assumption | apply lapse_inv | (refine lapse_inv_eq ?_ (by assumption)) | exact OutInv.fault | apply OutInv.next | simp only [InvQ.mk_state] | apply InvQ.kept | dsimp -iota only | split)

theorem execQuietWindowStart_inv {j : Fin 8} {s : State} (hs : InvQ wq s) : OutInv wq (execQuietWindowStart j s) := by
  unfold execQuietWindowStart
  try dsimp -iota only
  with_reducible repeat' (first | assumption | apply reach_inv | (refine reach_inv_eq ?_ (by assumption)) | apply refreshArmed_inv | apply orderSuspends_inv | exact OutInv.fault | apply OutInv.next | dsimp -iota only | split)

theorem execQuietWindowEnd_inv {j : Fin 8} {s : State} (hs : InvQ wq s) : OutInv wq (execQuietWindowEnd j s) := by
  unfold execQuietWindowEnd
  try dsimp -iota only
  with_reducible repeat' (first | assumption | apply reach_inv | (refine reach_inv_eq ?_ (by assumption)) | apply wr1_inv | exact OutInv.fault | apply OutInv.next | dsimp -iota only | split)

end Sys2Proof.Machine
end

