-- ==== Sys2Proof/Laws/InvLunEvents.lean ====
section
/-! SUPPORT. Every operation over the state keeps the invariant Sys2Proof.Machine.Inv: one lemma for each, in the order of
the definitions. -/

set_option linter.unusedTactic false
set_option linter.unreachableTactic false
set_option linter.unusedSimpArgs false

namespace Sys2Proof.Machine

variable {wq : List Instr}

theorem askPoll_inv {s : State} {l : Lun} (hs : InvQ wq s) : InvQ wq (askPoll s l) := by
  unfold askPoll
  try dsimp -iota only
  with_reducible repeat' (first | assumption | apply askBus_inv | apply updLun_inv | simp only [InvQ.mk_state] | apply InvQ.kept | dsimp -iota only)

theorem execPollDue_inv {l : LunSel} {s : State} (hs : InvQ wq s) : OutInv wq (execPollDue l s) := by
  unfold execPollDue
  try dsimp -iota only
  with_reducible repeat' (first | assumption | apply lapse_inv | (refine lapse_inv_eq ?_ (by assumption)) | apply askPoll_inv | exact OutInv.fault | apply OutInv.next | dsimp -iota only | split)

theorem execRbNRise_inv {ch : Fin 48} {line : Fin 4} {s : State} (hs : InvQ wq s) : OutInv wq (execRbNRise ch line s) := by
  unfold execRbNRise
  try dsimp -iota only
  with_reducible repeat' (first | assumption | apply askPoll_inv | apply raiseSeq_inv | exact OutInv.fault | apply OutInv.next | apply foldl_inv | dsimp -iota only | split | intro _)

theorem pollAgain_inv {s : State} {l : Lun} (hs : InvQ wq s) : InvQ wq (pollAgain s l) := by
  unfold pollAgain
  try dsimp -iota only
  with_reducible repeat' (first | assumption | apply setPoll_inv | dsimp -iota only)

theorem idleLun_inv {s : State} {l : Lun} (hs : InvQ wq s) : InvQ wq (idleLun s l) := by
  unfold idleLun
  try dsimp -iota only
  with_reducible repeat' (first | assumption | apply updLun_inv | simp only [InvQ.mk_state] | apply InvQ.kept | dsimp -iota only)

theorem setDie_inv {s : State} {o : Option Nat} {st : Byte} (hs : InvQ wq s) : InvQ wq (setDie s o st) := by
  unfold setDie
  try dsimp -iota only
  with_reducible repeat' (first | assumption | apply updItem_inv | simp only [InvQ.mk_state] | apply InvQ.kept | dsimp -iota only | split)

theorem senseEnds_inv {s : State} {l : Lun} (hs : InvQ wq s) : InvQ wq (senseEnds s l) := by
  unfold senseEnds
  try dsimp -iota only
  with_reducible repeat' (first | assumption | apply updLun_inv | apply releaseVcc_inv | apply updItem_inv | apply endTenureOf_inv | apply wantSlots_inv | apply idleLun_inv | apply releaseLun_inv | simp only [InvQ.mk_state] | apply InvQ.kept | dsimp -iota only | split)

theorem releaseStale_inv {s : State} {l : Lun} (hs : InvQ wq s) : InvQ wq (releaseStale s l) := by
  unfold releaseStale
  try dsimp -iota only
  with_reducible repeat' (first | assumption | apply dropCoins_inv | dsimp -iota only)

theorem chainSenseEnds_inv {s : State} {l : Lun} (hs : InvQ wq s) : InvQ wq (chainSenseEnds s l) := by
  unfold chainSenseEnds
  try dsimp -iota only
  with_reducible repeat' (first | assumption | apply updLun_inv | apply releaseVcc_inv | apply updItem_inv | apply wantSlots_inv | simp only [InvQ.mk_state] | apply InvQ.kept | dsimp -iota only | split)

theorem toMargin_inv {s : State} {it : Item} (hs : InvQ wq s) : InvQ wq (toMargin s it) := by
  unfold toMargin
  try dsimp -iota only
  with_reducible repeat' (first | assumption | apply toHead_inv | apply updItem_inv | simp only [InvQ.mk_state] | apply InvQ.kept | dsimp -iota only | split)

theorem relocDone_inv {s : State} {id : Nat} (hs : InvQ wq s) : InvQ wq (relocDone s id) := by
  unfold relocDone
  try dsimp -iota only
  with_reducible repeat' (first | assumption | simp only [InvQ.mk_state] | apply InvQ.kept | dsimp -iota only | split)

theorem programResult_inv {s : State} {it : Item} {fail : Bool} (hs : InvQ wq s) : InvQ wq (programResult s it fail) := by
  unfold programResult
  try dsimp -iota only
  with_reducible repeat' (first | assumption | apply endWith_inv | apply relocDone_inv | apply bootProgrammed_inv | apply toMargin_inv | apply endItem_inv | dsimp -iota only | split)

theorem phaseEnds_inv {s : State} {l : Lun} {fail : Bool} (hs : InvQ wq s) : InvQ wq (phaseEnds s l fail) := by
  unfold phaseEnds
  try dsimp -iota only
  with_reducible repeat' (first | assumption | apply dropSusp_inv | apply idleLun_inv | apply releaseVcc_inv | apply programResult_inv | apply updLun_inv | apply releaseLun_inv | simp only [InvQ.mk_state] | apply InvQ.kept | dsimp -iota only | split)

theorem chainTurn_inv {s : State} {l : Lun} {fail : Bool} (hs : InvQ wq s) : InvQ wq (chainTurn s l fail) := by
  unfold chainTurn
  try dsimp -iota only
  with_reducible repeat' (first | assumption | apply releaseVcc_inv | apply updLun_inv | apply programResult_inv | simp only [InvQ.mk_state] | apply InvQ.kept | dsimp -iota only | split)

theorem programPoll_inv {s : State} {l : Lun} {st : Byte} (hs : InvQ wq s) : InvQ wq (programPoll s l st) := by
  unfold programPoll
  try dsimp -iota only
  with_reducible repeat' (first | assumption | apply setDie_inv | apply chainTurn_inv | apply phaseEnds_inv | apply pollAgain_inv | apply updLun_inv | simp only [InvQ.mk_state] | apply InvQ.kept | dsimp -iota only | split)

theorem interruptArray_inv {s : State} {l : Lun} (hs : InvQ wq s) : InvQ wq (interruptArray s l) := by
  unfold interruptArray
  try dsimp -iota only
  with_reducible repeat' (first | assumption | apply endAll_inv | apply updLun_inv | simp only [InvQ.mk_state] | apply InvQ.kept | dsimp -iota only | split)

theorem askReset_inv {s : State} {l : Lun} (hs : InvQ wq s) : InvQ wq (askReset s l) := by
  unfold askReset
  try dsimp -iota only
  with_reducible repeat' (first | assumption | apply askBus_inv | simp only [InvQ.mk_state] | apply InvQ.kept | dsimp -iota only | split)

theorem suspendEnds_inv {s : State} {l : Lun} (hs : InvQ wq s) : InvQ wq (suspendEnds s l) := by
  unfold suspendEnds
  try dsimp -iota only
  with_reducible repeat' (first | assumption | apply updLun_inv | apply idleLun_inv | apply releaseVcc_inv | apply askReset_inv | apply interruptArray_inv | apply releaseLun_inv | apply foldl_inv | simp only [InvQ.mk_state] | apply InvQ.kept | dsimp -iota only | split | intro _)

theorem resetEnds_inv {s : State} {l : Lun} (hs : InvQ wq s) : InvQ wq (resetEnds s l) := by
  unfold resetEnds
  try dsimp -iota only
  with_reducible repeat' (first | assumption | apply updLun_inv | apply idleLun_inv | apply releaseLun_inv | apply endItem_inv | simp only [InvQ.mk_state] | apply InvQ.kept | dsimp -iota only | split)

theorem offsetsWritten_inv {s : State} {l : Lun} (hs : InvQ wq s) : InvQ wq (offsetsWritten s l) := by
  unfold offsetsWritten
  try dsimp -iota only
  with_reducible repeat' (first | assumption | apply updLun_inv | apply askItem_inv | apply idleLun_inv | simp only [InvQ.mk_state] | apply InvQ.kept | dsimp -iota only | split)

theorem chainOffsWritten_inv {s : State} {l : Lun} (hs : InvQ wq s) : InvQ wq (chainOffsWritten s l) := by
  unfold chainOffsWritten
  try dsimp -iota only
  with_reducible repeat' (first | assumption | apply updLun_inv | apply askItem_inv | simp only [InvQ.mk_state] | apply InvQ.kept | dsimp -iota only | split)

theorem otherEnds_inv {s : State} {l : Lun} (hs : InvQ wq s) : InvQ wq (otherEnds s l) := by
  unfold otherEnds
  try dsimp -iota only
  with_reducible repeat' (first | assumption | apply resetEnds_inv | apply offsetsWritten_inv | apply askItem_inv | apply updLun_inv | apply endItem_inv | apply forgetOffs_inv | apply idleLun_inv | simp only [InvQ.mk_state] | apply InvQ.kept | dsimp -iota only | split)

theorem pollResult_inv {s : State} {l : Lun} {st : Byte} (hs : InvQ wq s) : InvQ wq (pollResult s l st) := by
  unfold pollResult
  try dsimp -iota only
  with_reducible repeat' (first | assumption | apply setDie_inv | apply releaseStale_inv | apply senseEnds_inv | apply pollAgain_inv | apply programPoll_inv | apply phaseEnds_inv | apply suspendEnds_inv | apply otherEnds_inv | apply updLun_inv | apply chainOffsWritten_inv | apply chainSenseEnds_inv | simp only [InvQ.mk_state] | apply InvQ.kept | dsimp -iota only | split)

theorem statusEnds_inv {s : State} {it : Item} {st : Byte} (hs : InvQ wq s) : InvQ wq (statusEnds s it st) := by
  unfold statusEnds
  try dsimp -iota only
  with_reducible repeat' (first | assumption | apply releaseStale_inv | apply endItem_inv | apply idleLun_inv | apply setDie_inv | dsimp -iota only | split)

theorem execPollComplete_inv {ch : Fin 48} {st : Byte} {s : State} (hs : InvQ wq s) : OutInv wq (execPollComplete ch st s) := by
  unfold execPollComplete
  try dsimp -iota only
  with_reducible repeat' (first | assumption | apply clearBus_inv | apply statusEnds_inv | apply pollResult_inv | apply kickBus_inv | apply issueOrdered_inv | exact OutInv.fault | apply OutInv.next | dsimp -iota only | split)

theorem dieTimeout_inv {s : State} {l : Lun} (hs : InvQ wq s) : InvQ wq (dieTimeout s l) := by
  unfold dieTimeout
  try dsimp -iota only
  with_reducible repeat' (first | assumption | apply dropSusp_inv | apply forgetOffs_inv | apply updLun_inv | apply raiseSeq_inv | apply updCh_inv | apply endAll_inv | simp only [InvQ.mk_state] | apply InvQ.kept | dsimp -iota only | split)

theorem execDieTimeoutExpiry_inv {l : LunSel} {s : State} (hs : InvQ wq s) : OutInv wq (execDieTimeoutExpiry l s) := by
  unfold execDieTimeoutExpiry
  try dsimp -iota only
  with_reducible repeat' (first | assumption | apply lapse_inv | (refine lapse_inv_eq ?_ (by assumption)) | apply kickBus_inv | apply dieTimeout_inv | exact OutInv.fault | apply OutInv.next | dsimp -iota only | split)

theorem execBusTenureEnd_inv {ch : Fin 48} {data : List Byte} {s : State} (hs : InvQ wq s) : OutInv wq (execBusTenureEnd ch data s) := by
  unfold execBusTenureEnd
  try dsimp -iota only
  with_reducible repeat' (first | assumption | apply endTenure_inv | apply clearBus_inv | apply updLun_inv | apply repick_inv | apply kickBus_inv | apply issueOrdered_inv | apply issueFirst_inv | exact OutInv.fault | apply OutInv.next | simp only [InvQ.mk_state] | apply InvQ.kept | dsimp -iota only | split)

theorem routineOff_inv {s : State} {ch : Nat} {l : Lun} (hs : InvQ wq s) : InvQ wq (routineOff s ch l) := by
  unfold routineOff
  try dsimp -iota only
  with_reducible repeat' (first | assumption | apply updLun_inv | apply idleLun_inv | apply updCh_inv | apply clearBus_inv | simp only [InvQ.mk_state] | apply InvQ.kept | dsimp -iota only | split)

theorem afterRun_inv {s : State} {r : RoutineRun} (hs : InvQ wq s) : InvQ wq (afterRun s r) := by
  unfold afterRun
  try dsimp -iota only
  with_reducible repeat' (first | assumption | simp only [InvQ.mk_state] | apply InvQ.kept | dsimp -iota only)

theorem microNow_inv {s : State} {j : Nat} {e' : Nat} (hs : InvQ wq s) : InvQ wq (microNow s j e').2 := by
  unfold microNow
  try dsimp -iota only
  with_reducible repeat' (first | assumption | apply microByRom_inv | apply freeWord_inv | (refine freeWord_inv_eq ?_ (by assumption)) | apply afterRun_inv | simp only [InvQ.mk_state] | apply InvQ.kept | dsimp -iota only | split)
theorem microNow_inv_eq {s : State} {j : Nat} {e' : Nat} (hs : InvQ wq s) {a₁ : _} {t : State} (e : microNow s j e' = (a₁, t)) : InvQ wq t := by
  have := microNow_inv (s := s) (j := j) (e' := e') hs
  rw [e] at this
  exact this

theorem trapEntry_inv {s : State} {j : Nat} {e' : Nat} {c : Nat} (hs : InvQ wq s) : InvQ wq (trapEntry s j e' c) := by
  unfold trapEntry
  try dsimp -iota only
  with_reducible repeat' (first | assumption | apply microNow_inv | (refine microNow_inv_eq ?_ (by assumption)) | apply updMicro_inv | apply saveFrame_inv | simp only [InvQ.mk_state] | apply InvQ.kept | dsimp -iota only)

theorem tallyEvents_inv {s : State} {eng : Nat} {evts : List Nat} (hs : InvQ wq s) : InvQ wq (tallyEvents s eng evts) := by
  unfold tallyEvents
  try dsimp -iota only
  with_reducible repeat' (first | assumption | apply tallyQ_inv | apply foldl_inv | dsimp -iota only | intro _)

theorem execRoutineTimeout_inv {ch : Fin 48} {s : State} (hs : InvQ wq s) : OutInv wq (execRoutineTimeout ch s) := by
  unfold execRoutineTimeout
  try dsimp -iota only
  with_reducible repeat' (first | assumption | apply lapse_inv | (refine lapse_inv_eq ?_ (by assumption)) | apply updLun_inv | apply routineOff_inv | apply raiseSeq_inv | apply kickBus_inv | apply endWith_inv | exact OutInv.fault | apply OutInv.next | simp only [InvQ.mk_state] | apply InvQ.kept | dsimp -iota only | split)

end Sys2Proof.Machine
end

