-- ==== Sys2Proof/Laws/InvDmaCmds.lean ====
section
/-! SUPPORT. Every operation over the state keeps the invariant Sys2Proof.Machine.Inv: one lemma for each, in the order of
the definitions. -/

set_option linter.unusedTactic false
set_option linter.unreachableTactic false
set_option linter.unusedSimpArgs false

namespace Sys2Proof.Machine

variable {wq : List Instr}

theorem execHostInCommit_inv {ch : Fin 48} {s : State} (hs : InvQ wq s) : OutInv wq (execHostInCommit ch s) := by
  unfold execHostInCommit
  try dsimp -iota only
  with_reducible repeat' (first | assumption | apply hostInCommit_inv | exact OutInv.fault | apply OutInv.next | dsimp -iota only)

theorem execParityPassEnd_inv {id : Nat} {s : State} (hs : InvQ wq s) : OutInv wq (execParityPassEnd id s) := by
  unfold execParityPassEnd
  try dsimp -iota only
  with_reducible repeat' (first | assumption | apply parityPasses_inv | (refine parityPasses_inv_eq ?_ (by assumption)) | apply stopItem_inv | apply updItem_inv | exact OutInv.fault | apply OutInv.next | simp only [InvQ.mk_state] | apply InvQ.kept | dsimp -iota only | split)

theorem execHostOutThreshold_inv {ch : Fin 48} {s : State} (hs : InvQ wq s) : OutInv wq (execHostOutThreshold ch s) := by
  unfold execHostOutThreshold
  try dsimp -iota only
  with_reducible repeat' (first | assumption | apply hostOutGo_inv | exact OutInv.fault | apply OutInv.next | dsimp -iota only)

theorem execDmaMoveComplete_inv {d : Fin 32} {s : State} (hs : InvQ wq s) : OutInv wq (execDmaMoveComplete d s) := by
  unfold execDmaMoveComplete
  try dsimp -iota only
  with_reducible repeat' (first | assumption | apply descEnd_inv | apply flushDue_inv | apply stopItem_inv | apply readMoved_inv | apply flushAll_inv | apply entryEnds_inv | exact OutInv.fault | apply OutInv.next | dsimp -iota only | split)

theorem execDmaChannelDrainEnd_inv {d : Fin 32} {s : State} (hs : InvQ wq s) : OutInv wq (execDmaChannelDrainEnd d s) := by
  unfold execDmaChannelDrainEnd
  try dsimp -iota only
  with_reducible repeat' (first | assumption | apply dcDrained_inv | exact OutInv.fault | apply OutInv.next | dsimp -iota only | split)

theorem ringStops_inv {s : State} {d : Nat} (hs : InvQ wq s) : InvQ wq (ringStops s d) := by
  unfold ringStops
  try dsimp -iota only
  with_reducible repeat' (first | assumption | apply flag1_inv | apply ringKick_inv | apply wr1_inv | apply updDma_inv | simp only [InvQ.mk_state] | apply InvQ.kept | dsimp -iota only | split)

theorem execRingDescFetchReturn_inv {d : Fin 32} {desc : List Byte} {err : Bool} {poison : Bool} {s : State} (hs : InvQ wq s) : OutInv wq (execRingDescFetchReturn d desc err poison s) := by
  unfold execRingDescFetchReturn
  try dsimp -iota only
  with_reducible repeat' (first | assumption | apply fetchErr_inv | apply readDone_inv | apply ringStops_inv | apply tally_inv | apply flag1_inv | apply descStart_inv | exact OutInv.fault | apply OutInv.next | dsimp -iota only | split)

theorem execDescListFetchReturn_inv {d : Fin 32} {es : List (List Byte)} {flaw : FetchFlaw} {s : State} (hs : InvQ wq s) : OutInv wq (execDescListFetchReturn d es flaw s) := by
  unfold execDescListFetchReturn
  try dsimp -iota only
  with_reducible repeat' (first | assumption | apply fetchErr_inv | apply readDone_inv | apply stopItem_inv | apply tally_inv | apply flag1_inv | apply runEntry_inv | apply updDma_inv | apply dmaKickAll_inv | exact OutInv.fault | apply OutInv.next | dsimp -iota only | split)

theorem readOff_inv {s : State} {r : HiReq} (hs : InvQ wq s) : InvQ wq (readOff s r) :=
  ⟨hs.mem, hs.time, hs.rdCred, hs.wrCred, hs.ids.sublist ((List.erase_sublist.filter _).map _), hs.aon, hs.queue⟩


theorem readHeld_inv {s : State} {r : HiReq} (hs : InvQ wq s) : InvQ wq (readHeld s r) :=
  mapReads_inv hs (fun q => by
    split
    · rename_i e; rw [e]
    · rfl) (fun q hq => by
    split
    · rfl
    · exact hq)


theorem readArrived_inv {s : State} {r : HiReq} (hs : InvQ wq s) : InvQ wq (readArrived s r) := by
  unfold readArrived
  try dsimp -iota only
  with_reducible repeat' (first | assumption | apply readOff_inv | apply hiPump_inv | apply progFailed_inv | apply progStops_inv | apply hostInTake_inv | apply updDma_inv | apply descFail_inv | apply descDrain_inv | apply readDone_inv | apply flag1_inv | apply readHeld_inv | simp only [InvQ.mk_state] | apply InvQ.kept | dsimp -iota only | split)

theorem spoiled_inv {l : List HiReq} {s : State} (hs : InvQ wq s) : InvQ wq (spoiled l s).2 := by
  induction l generalizing s with
  | nil => exact hs
  | cons r q ih =>
    unfold spoiled
    dsimp only
    exact ih (freeBytes_inv hs)

theorem spoiled_ids {l : List HiReq} {s : State} : ((spoiled l s).1.filter (fun r => !r.done)).map (fun r => r.id)
    = (l.filter (fun r => !r.done)).map (fun r => r.id) := by
  induction l generalizing s with
  | nil => rfl
  | cons r q ih =>
    unfold spoiled
    dsimp only
    rw [List.filter_cons, List.filter_cons]
    cases e : r.done <;> simp [ih]


theorem hiSpoil_inv {s : State} (hs : InvQ wq s) : InvQ wq (hiSpoil s) := by
  have h := freeBit_inv hs
  unfold hiSpoil
  dsimp only
  split
  · have h2 := spoiled_inv (l := (freeBit s).2.hi.reads) h
    refine ⟨h2.mem, h2.time, h2.rdCred, h2.wrCred, ?_, h2.aon, h2.queue⟩
    unfold HiSt.openIds
    rw [spoiled_ids]
    exact h.ids
  · exact h


theorem wrongBeats_inv {s : State} {r : HiReq} (hs : InvQ wq s) : InvQ wq (wrongBeats s r).2 := freeWord_inv (freeBytes_inv hs)

theorem wrongBeats_id {s : State} {r : HiReq} : (wrongBeats s r).1.id = r.id := rfl

theorem wrongBeats_done {s : State} {r : HiReq} : (wrongBeats s r).1.done = r.done := rfl


/-- A read that takes a beat keeps its ID. -/
theorem readTakes_inv {s : State} {r r1 : HiReq} (hs : InvQ wq s) (h : r1.id = r.id) (hd : r.done = true → r1.done = true) :
    InvQ wq { s with hi := { s.hi with reads := s.hi.reads.map (fun q => if q = r then r1 else q) } } :=
  mapReads_inv hs (fun q => by
    split
    · rename_i e; rw [h, e]
    · rfl) (fun q hq => by
    split
    · rename_i e; exact hd (e ▸ hq)
    · exact hq)

theorem execHiReadDataBeat_inv {id : BitVec 10} {data : List Byte} {poison : BitVec 16} {err : BitVec 2} {last : Bool} {s : State}
    (hs : InvQ wq s) : OutInv wq (execHiReadDataBeat id data poison err last s) := by
  unfold execHiReadDataBeat
  dsimp -iota only
  split
  · exact OutInv.fault
  split
  · exact OutInv.next (hiSpoil_inv hs)
  rename_i r _
  generalize beatPart r r.beats data poison = bp
  obtain ⟨b, ps⟩ := bp
  dsimp only
  have h2 : ∀ r1 : HiReq, r1.id = r.id → r1.done = r.done → InvQ wq (if err ≠ 0 then
      hiLogErr { s with hi := { s.hi with reads := s.hi.reads.map (fun q => if q = r then r1 else q) } } id.toNat err.toNat 0
      else { s with hi := { s.hi with reads := s.hi.reads.map (fun q => if q = r then r1 else q) } }) := by
    intro r1 e e2
    split
    · exact hiLogErr_inv (readTakes_inv hs e (fun h => e2 ▸ h))
    · exact readTakes_inv hs e (fun h => e2 ▸ h)
  split
  · split
    · exact OutInv.next (readArrived_inv (h2 _ rfl rfl))
    · exact OutInv.next (readArrived_inv (readTakes_inv (wrongBeats_inv (h2 _ rfl rfl)) wrongBeats_id (fun h => h)))
  · exact OutInv.next (h2 _ rfl rfl)


theorem writeAnswered_inv {s : State} {r : HiReq} {err : Bool} (hs : InvQ wq s) : InvQ wq (writeAnswered s r err) := by
  unfold writeAnswered
  try dsimp -iota only
  with_reducible repeat' (first | assumption | apply receiptAck_inv | apply readWriteFailed_inv | apply lateRing_inv | apply descFail_inv | dsimp -iota only | split)

theorem writeResponse_inv {s : State} {r : HiReq} {err : BitVec 2} (hs : InvQ wq s) : InvQ wq (writeResponse s r err) := by
  unfold writeResponse
  try dsimp -iota only
  with_reducible repeat' (first | assumption | apply writeAnswered_inv | apply hiLogErr_inv | simp only [InvQ.mk_state] | apply InvQ.kept | apply InvQ.kept_hi | dsimp -iota only | split)

theorem execHiWriteResponse_inv {id : BitVec 10} {err : BitVec 2} {s : State} (hs : InvQ wq s) : OutInv wq (execHiWriteResponse id err s) := by
  unfold execHiWriteResponse
  try dsimp -iota only
  with_reducible repeat' (first | assumption | apply writeResponse_inv | apply freeBit_inv | (refine freeBit_inv_eq ?_ (by assumption)) | exact OutInv.fault | apply OutInv.next | dsimp -iota only | split)

theorem addCredit_inv {s : State} {old n : Nat} (hs : InvQ wq s) : InvQ wq (addCredit s old n).2 := by
  unfold addCredit
  split
  · exact hs
  · exact freeWord_inv hs

theorem addCredit_le {s : State} {old n : Nat} : (addCredit s old n).1 ≤ 255 := by
  unfold addCredit
  split
  · assumption
  · dsimp only
    omega


theorem execHiCreditReturn_inv {rd wr : BitVec 2} {s : State} (hs : InvQ wq s) : OutInv wq (execHiCreditReturn rd wr s) := by
  unfold execHiCreditReturn
  split
  · exact OutInv.next hs
  · have h := addCredit_inv (old := (addCredit s s.hi.rdCred rd.toNat).2.hi.wrCred) (n := wr.toNat)
      (addCredit_inv (old := s.hi.rdCred) (n := rd.toNat) hs)
    exact OutInv.next (hiPump_inv ⟨h.mem, h.time, addCredit_le, addCredit_le, h.ids, h.aon, h.queue⟩)


end Sys2Proof.Machine
end

