-- ==== Sys2Proof/Laws/InvChannel.lean ====
section
/-! SUPPORT. Every operation over the state keeps the invariant Sys2Proof.Machine.Inv: one lemma for each, in the order of
the definitions. -/

set_option linter.unusedTactic false
set_option linter.unreachableTactic false
set_option linter.unusedSimpArgs false

namespace Sys2Proof.Machine

variable {wq : List Instr}

theorem setBusState_inv {s : State} {ch : Nat} {n : Nat} (hs : InvQ wq s) : InvQ wq (setBusState s ch n) := by
  unfold setBusState
  try dsimp -iota only
  with_reducible repeat' (first | assumption | apply wr1_inv | dsimp -iota only)

theorem kickGroup_inv {s : State} {g : Nat} (hs : InvQ wq s) : InvQ wq (kickGroup s g) := by
  unfold kickGroup
  try dsimp -iota only
  with_reducible repeat' (first | assumption | apply kickBus_inv | apply issueOrdered_inv | apply foldl_inv | dsimp -iota only | intro _)

theorem leavesRun_inv {s : State} {ch : Nat} (hs : InvQ wq s) : InvQ wq (leavesRun s ch) := by
  unfold leavesRun
  try dsimp -iota only
  with_reducible repeat' (first | assumption | apply updGroup_inv | simp only [InvQ.mk_state] | apply InvQ.kept | dsimp -iota only | split)

theorem dropEmptyRun_inv {s : State} {g : Nat} (hs : InvQ wq s) : InvQ wq (dropEmptyRun s g) := by
  unfold dropEmptyRun
  try dsimp -iota only
  with_reducible repeat' (first | assumption | apply updGroup_inv | apply setCalState_inv | apply kickGroup_inv | apply endAll_inv | simp only [InvQ.mk_state] | apply InvQ.kept | dsimp -iota only | split)

theorem abandonAny_inv {s : State} {g : Nat} (hs : InvQ wq s) : InvQ wq (abandonAny s g) := by
  unfold abandonAny
  try dsimp -iota only
  with_reducible repeat' (first | assumption | apply abandonRun_inv | apply setCalState_inv | dsimp -iota only | split)

theorem dropTrigger_inv {s : State} {g : Nat} (hs : InvQ wq s) : InvQ wq (dropTrigger s g) := by
  unfold dropTrigger
  try dsimp -iota only
  with_reducible repeat' (first | assumption | apply endAll_inv | apply updGroup_inv | apply setCalState_inv | simp only [InvQ.mk_state] | apply InvQ.kept | dsimp -iota only | split)

theorem ctlSettleOf_inv {s : State} {g : Nat} {p : Item → Bool} (hs : InvQ wq s) : InvQ wq (ctlSettleOf s g p) := by
  unfold ctlSettleOf
  try dsimp -iota only
  with_reducible repeat' (first | assumption | apply endWith_inv | apply foldl_inv | dsimp -iota only | split | intro _)

theorem ctlSettle_inv {s : State} {g : Nat} (hs : InvQ wq s) : InvQ wq (ctlSettle s g) := by
  unfold ctlSettle
  try dsimp -iota only
  with_reducible repeat' (first | assumption | apply ctlSettleOf_inv | dsimp -iota only)

theorem startDrain_inv {s : State} {ch : Nat} (hs : InvQ wq s) : InvQ wq (startDrain s ch) := by
  unfold startDrain
  try dsimp -iota only
  with_reducible repeat' (first | assumption | apply stopItem_inv | apply leavesRun_inv | apply wr1_inv | apply raiseSeq_inv | apply foldl_inv | dsimp -iota only | intro _)

theorem enableCh_inv {s : State} {ch : Nat} (hs : InvQ wq s) : InvQ wq (enableCh s ch) := by
  unfold enableCh
  try dsimp -iota only
  with_reducible repeat' (first | assumption | apply flag1_inv | apply wr1_inv | dsimp -iota only | split)

theorem disableCh_inv {s : State} {ch : Nat} (hs : InvQ wq s) : InvQ wq (disableCh s ch) := by
  unfold disableCh
  try dsimp -iota only
  with_reducible repeat' (first | assumption | apply startDrain_inv | apply wr1_inv | apply leavesRun_inv | dsimp -iota only | split)

theorem fenceCh_inv {s : State} {ch : Nat} (hs : InvQ wq s) : InvQ wq (fenceCh s ch) := by
  unfold fenceCh
  try dsimp -iota only
  with_reducible repeat' (first | assumption | apply startDrain_inv | apply wr1_inv | apply leavesRun_inv | dsimp -iota only | split)

theorem unfenceCh_inv {s : State} {ch : Nat} (hs : InvQ wq s) : InvQ wq (unfenceCh s ch) := by
  unfold unfenceCh
  try dsimp -iota only
  with_reducible repeat' (first | assumption | apply wr1_inv | apply flag1_inv | dsimp -iota only | split)

theorem chSettle_inv {s : State} {g : Nat} (hs : InvQ wq s) : InvQ wq (chSettle s g) := by
  unfold chSettle
  try dsimp -iota only
  with_reducible repeat' (first | assumption | apply dropEmptyRun_inv | apply ctlSettle_inv | dsimp -iota only)

theorem setFence_inv {s : State} {g : Nat} {on : Bool} (hs : InvQ wq s) : InvQ wq (setFence s g on) := by
  unfold setFence
  try dsimp -iota only
  with_reducible repeat' (first | assumption | apply wr1_inv | apply chSettle_inv | apply fenceCh_inv | apply unfenceCh_inv | apply foldl_inv | dsimp -iota only | split | intro _)

theorem drainEnd_inv {s : State} {ch : Nat} (hs : InvQ wq s) : InvQ wq (drainEnd s ch) := by
  unfold drainEnd
  try dsimp -iota only
  with_reducible repeat' (first | assumption | apply ctlSettleOf_inv | apply wr1_inv | apply chSettle_inv | dsimp -iota only | split)

theorem execChannelDrainEnd_inv {ch : Fin 48} {s : State} (hs : InvQ wq s) : OutInv wq (execChannelDrainEnd ch s) := by
  unfold execChannelDrainEnd
  try dsimp -iota only
  with_reducible repeat' (first | assumption | apply drainEnd_inv | exact OutInv.fault | apply OutInv.next | dsimp -iota only)

theorem ctlBegin_inv {s : State} {it : Item} (hs : InvQ wq s) : InvQ wq (ctlBegin s it) := by
  unfold ctlBegin
  try dsimp -iota only
  with_reducible repeat' (first | assumption | apply endWith_inv | apply updItem_inv | apply chSettle_inv | apply enableCh_inv | apply disableCh_inv | apply ctlSettle_inv | apply setFence_inv | apply endItem_inv | apply foldl_inv | simp only [InvQ.mk_state] | apply InvQ.kept | dsimp -iota only | split | intro _)

theorem cutTenure_inv {s : State} {ch : Nat} (hs : InvQ wq s) : InvQ wq (cutTenure s ch) := by
  unfold cutTenure
  try dsimp -iota only
  with_reducible repeat' (first | assumption | apply cutData_inv | (refine cutData_inv_eq ?_ (by assumption)) | apply tally_inv | apply wr_inv | apply dropFlashOut_inv | dsimp -iota only | split)

theorem loseItem_inv {s : State} {id : Nat} (hs : InvQ wq s) : InvQ wq (loseItem s id) := by
  unfold loseItem
  try dsimp -iota only
  with_reducible repeat' (first | assumption | apply stopItem_inv | apply updItem_inv | apply giveUp_inv | simp only [InvQ.mk_state] | apply InvQ.kept | dsimp -iota only | split)

theorem clearChannel_inv {s : State} {ch : Nat} (hs : InvQ wq s) : InvQ wq (clearChannel s ch) := by
  unfold clearChannel
  try dsimp -iota only
  with_reducible repeat' (first | assumption | simp only [InvQ.mk_state] | apply InvQ.kept | dsimp -iota only | split)

theorem loseChannel_inv {s : State} {ch : Nat} (hs : InvQ wq s) : InvQ wq (loseChannel s ch) := by
  unfold loseChannel
  try dsimp -iota only
  with_reducible repeat' (first | assumption | apply clearChannel_inv | apply cutTenure_inv | apply loseItem_inv | apply raiseSeq_inv | apply wr1_inv | apply foldl_inv | dsimp -iota only | split | intro _)

theorem groupInert_inv {s : State} {g : Nat} {flag : Bool} (hs : InvQ wq s) : InvQ wq (groupInert s g flag) := by
  unfold groupInert
  try dsimp -iota only
  with_reducible repeat' (first | assumption | apply flag1_inv | apply setBusState_inv | apply wr1_inv | apply updGroup_inv | apply foldl_inv | simp only [InvQ.mk_state] | apply InvQ.kept | dsimp -iota only | split | intro _)

theorem loseGroup_inv {s : State} {g : Nat} {flag : Bool} (hs : InvQ wq s) : InvQ wq (loseGroup s g flag) := by
  unfold loseGroup
  try dsimp -iota only
  with_reducible repeat' (first | assumption | apply chSettle_inv | apply loseChannel_inv | apply groupInert_inv | apply abandonAny_inv | apply foldl_inv | dsimp -iota only | intro _)

theorem setSupply_inv {s : State} {j : Nat} {v : Bool} (hs : InvQ wq s) : InvQ wq (setSupply s j v) := by
  unfold setSupply
  try dsimp -iota only
  with_reducible repeat' (first | assumption | simp only [InvQ.mk_state] | apply InvQ.kept | dsimp -iota only | split)

theorem vddqFalls_inv {s : State} {g : Nat} (hs : InvQ wq s) : InvQ wq (vddqFalls s g) := by
  unfold vddqFalls
  try dsimp -iota only
  with_reducible repeat' (first | assumption | apply setSupply_inv | apply loseGroup_inv | simp only [InvQ.mk_state] | apply InvQ.kept | dsimp -iota only | split)

theorem execVddqLoss_inv {g : Fin 12} {s : State} (hs : InvQ wq s) : OutInv wq (execVddqLoss g s) := by
  unfold execVddqLoss
  try dsimp -iota only
  with_reducible repeat' (first | assumption | apply vddqFalls_inv | exact OutInv.fault | apply OutInv.next | dsimp -iota only)

theorem inertReturn_inv {s : State} {g : Nat} (hs : InvQ wq s) : InvQ wq (inertReturn s g) := by
  unfold inertReturn
  try dsimp -iota only
  with_reducible repeat' (first | assumption | apply deselect_inv | apply groupInert_inv | apply wr1_inv | apply foldl_inv | dsimp -iota only | split | intro _)

theorem inertOn_inv {s : State} {g : Nat} (hs : InvQ wq s) : InvQ wq (inertOn s g) := by
  unfold inertOn
  try dsimp -iota only
  with_reducible repeat' (first | assumption | apply flag1_inv | apply chSettle_inv | apply inertReturn_inv | dsimp -iota only | split)

theorem bringupDone_inv {s : State} {g : Nat} {state : Nat → Nat} {n : Nat} (hs : InvQ wq s) : InvQ wq (bringupDone s g state n) := by
  unfold bringupDone
  try dsimp -iota only
  with_reducible repeat' (first | assumption | apply setBusState_inv | apply ceHigh_inv | apply updGroup_inv | apply wr1_inv | apply dropEmptyRun_inv | apply foldl_inv | simp only [InvQ.mk_state] | apply InvQ.kept | dsimp -iota only | split | intro _)

theorem bringupEnds_inv {s : State} {g : Nat} {b : Bringup} (hs : InvQ wq s) : InvQ wq (bringupEnds s g b) := by
  unfold bringupEnds
  try dsimp -iota only
  with_reducible repeat' (first | assumption | apply bringupDone_inv | dsimp -iota only)

theorem bootOpens_inv {s : State} {g : Nat} (hs : InvQ wq s) : InvQ wq (bootOpens s g) := by
  unfold bootOpens
  try dsimp -iota only
  with_reducible repeat' (first | assumption | apply setBusState_inv | apply wr1_inv | apply updCh_inv | simp only [InvQ.mk_state] | apply InvQ.kept | dsimp -iota only | split)

theorem stepSends_inv {s : State} {n : Nat} {e' : Nat × List Nat} (hs : InvQ wq s) : InvQ wq (stepSends s n e') := by
  unfold stepSends
  try dsimp -iota only
  with_reducible repeat' (first | assumption | apply sendOn_inv | dsimp -iota only | split)

theorem stepOut_inv {s : State} {b : Bringup} {n : Nat} (hs : InvQ wq s) : InvQ wq (stepOut s b n) := by
  unfold stepOut
  try dsimp -iota only
  with_reducible repeat' (first | assumption | apply setBusState_inv | apply updCh_inv | apply deselect_inv | apply stepSends_inv | apply foldl_inv | simp only [InvQ.mk_state] | apply InvQ.kept | dsimp -iota only | split | intro _)

theorem exitWrites_inv {s : State} {b : Bringup} (hs : InvQ wq s) : InvQ wq (exitWrites s b) := by
  unfold exitWrites
  try dsimp -iota only
  with_reducible repeat' (first | assumption | apply sendMoreOn_inv | apply foldl_inv | apply foldl_inv_snd | apply foldl_inv_thd | dsimp -iota only | intro _)

theorem stepBegin_inv {s : State} {g : Nat} {b : Bringup} {n : Nat} (hs : InvQ wq s) : InvQ wq (stepBegin s g b n) := by
  unfold stepBegin
  try dsimp -iota only
  with_reducible repeat' (first | assumption | apply updGroup_inv | apply stepOut_inv | apply wr1_inv | apply bringupEnds_inv | simp only [InvQ.mk_state] | apply InvQ.kept | dsimp -iota only | split)

theorem bringupFinish_inv {s : State} {g : Nat} {b : Bringup} {n : Nat} (hs : InvQ wq s) : InvQ wq (bringupFinish s g b n) := by
  unfold bringupFinish
  try dsimp -iota only
  with_reducible repeat' (first | assumption | apply bringupDone_inv | apply bringupEnds_inv | apply wr1_inv | dsimp -iota only | split)

theorem stepGo_inv {s : State} {g : Nat} {b : Bringup} {x3 : Nat} {x4 : Nat} (hs : InvQ wq s) : InvQ wq (stepGo s g b x3 x4) := by
  induction x3 generalizing s b x4 with
  | zero => assumption
  | succ n ih =>
    unfold stepGo
    try dsimp -iota only
    with_reducible repeat' (first | assumption | apply ih | apply bringupFinish_inv | apply stepBegin_inv | dsimp -iota only | split)

theorem bringupResume_inv {s : State} {g : Nat} (hs : InvQ wq s) : InvQ wq (bringupResume s g) := by
  unfold bringupResume
  try dsimp -iota only
  with_reducible repeat' (first | assumption | apply stepBegin_inv | apply stepGo_inv | dsimp -iota only | split)

theorem initStart_inv {s : State} {g : Nat} (hs : InvQ wq s) : InvQ wq (initStart s g) := by
  unfold initStart
  try dsimp -iota only
  with_reducible repeat' (first | assumption | apply flag1_inv | apply wr1_inv | apply setBusState_inv | apply dropTrigger_inv | apply updGroup_inv | apply bringupDone_inv | apply stepBegin_inv | apply stepGo_inv | apply foldl_inv | simp only [InvQ.mk_state] | apply InvQ.kept | dsimp -iota only | split | intro _)

theorem ceFails_inv {s : State} {ch : Nat} {k : Nat} {n : Nat} (hs : InvQ wq s) : InvQ wq (ceFails s ch k n) := by
  unfold ceFails
  try dsimp -iota only
  with_reducible repeat' (first | assumption | apply wr1_inv | dsimp -iota only | split)

theorem groupFails_inv {s : State} {g : Nat} {b : Bringup} {n : Nat} (hs : InvQ wq s) : InvQ wq (groupFails s g b n) := by
  unfold groupFails
  try dsimp -iota only
  with_reducible repeat' (first | assumption | apply wr1_inv | apply bringupDone_inv | apply foldl_inv | dsimp -iota only | split | intro _)

theorem putTrims_inv {s : State} {g : Nat} {c : Nat} {t' : Trims} (hs : InvQ wq s) : InvQ wq (putTrims s g c t') := by
  unfold putTrims
  try dsimp -iota only
  with_reducible repeat' (first | assumption | apply setR_inv | dsimp -iota only)

theorem putPpage_inv {s : State} {ch : Nat} {k : Nat} {b : List Byte} (hs : InvQ wq s) : InvQ wq (putPpage s ch k b) := by
  unfold putPpage
  try dsimp -iota only
  with_reducible repeat' (first | assumption | apply forNat_inv | apply setR_inv | apply foldl_inv | dsimp -iota only | intro _)

theorem cePasses_inv {s : State} {g : Nat} {ch : Nat} {k : Nat} {n : Nat} {r : BringResult} (hs : InvQ wq s) : InvQ wq (cePasses s g ch k n r) := by
  unfold cePasses
  try dsimp -iota only
  with_reducible repeat' (first | assumption | apply setR_inv | apply putPpage_inv | apply putTrims_inv | simp only [InvQ.mk_state] | apply InvQ.kept | dsimp -iota only | split)

theorem copiesRead_inv {s : State} {ch : Nat} {ok : Bool} (hs : InvQ wq s) : InvQ wq (copiesRead s ch ok) := by
  unfold copiesRead
  try dsimp -iota only
  with_reducible repeat' (first | assumption | apply freeWord_inv | (refine freeWord_inv_eq ?_ (by assumption)) | apply sendMore_inv | dsimp -iota only | split)

theorem ceEnds_inv {s : State} {g : Nat} {b : Bringup} {ch : Nat} {k : Nat} {r : BringResult} (hs : InvQ wq s) : InvQ wq (ceEnds s g b ch k r) := by
  unfold ceEnds
  try dsimp -iota only
  with_reducible repeat' (first | assumption | apply copiesRead_inv | apply putPpage_inv | apply cePasses_inv | apply ceFails_inv | apply updGroup_inv | apply groupFails_inv | apply bringupEnds_inv | apply exitWrites_inv | apply wr1_inv | apply stepGo_inv | apply stepSends_inv | simp only [InvQ.mk_state] | apply InvQ.kept | dsimp -iota only | split)

theorem groupEnds_inv {s : State} {g : Nat} {b : Bringup} {ok : Bool} (hs : InvQ wq s) : InvQ wq (groupEnds s g b ok) := by
  unfold groupEnds
  try dsimp -iota only
  with_reducible repeat' (first | assumption | apply groupFails_inv | apply stepGo_inv | apply updGroup_inv | simp only [InvQ.mk_state] | apply InvQ.kept | dsimp -iota only | split)

theorem execBringupStepEnd_inv {g : Fin 12} {r : BringResult} {s : State} (hs : InvQ wq s) : OutInv wq (execBringupStepEnd g r s) := by
  unfold execBringupStepEnd
  try dsimp -iota only
  with_reducible repeat' (first | assumption | apply groupEnds_inv | apply ceEnds_inv | exact OutInv.fault | apply OutInv.next | dsimp -iota only | split)

end Sys2Proof.Machine
end

