-- ==== Sys2Proof/Laws/InvCal.lean ====
section
/-! SUPPORT. Every operation over the state keeps the invariant Sys2Proof.Machine.Inv: one lemma for each, in the order of
the definitions. -/

set_option linter.unusedTactic false
set_option linter.unreachableTactic false
set_option linter.unusedSimpArgs false

namespace Sys2Proof.Machine

variable {wq : List Instr}

theorem calOrder_inv {s : State} {g : Nat} (hs : InvQ wq s) : InvQ wq (calOrder s g) := by
  unfold calOrder
  try dsimp -iota only
  with_reducible repeat' (first | assumption | apply updGroup_inv | apply setCalState_inv | simp only [InvQ.mk_state] | apply InvQ.kept | dsimp -iota only | split)

theorem calEval_inv {s : State} {g : Nat} (hs : InvQ wq s) : InvQ wq (calEval s g) := by
  unfold calEval
  try dsimp -iota only
  with_reducible repeat' (first | assumption | apply calOrder_inv | apply raiseTrap_inv | dsimp -iota only | split)

theorem alertUpd_inv {s : State} (hs : InvQ wq s) : InvQ wq (alertUpd s) := by
  unfold alertUpd
  try dsimp -iota only
  with_reducible repeat' (first | assumption | simp only [InvQ.mk_state] | apply InvQ.kept | dsimp -iota only | split)

theorem execTempUpdate_inv {g : Fin 12} {t' : BitVec 12} {s : State} (hs : InvQ wq s) : OutInv wq (execTempUpdate g t' s) := by
  unfold execTempUpdate
  try dsimp -iota only
  with_reducible repeat' (first | assumption | apply wr1_inv | apply calEval_inv | apply alertUpd_inv | exact OutInv.fault | apply OutInv.next | dsimp -iota only | split)

theorem execCalRetryExpiry_inv {g : Fin 12} {s : State} (hs : InvQ wq s) : OutInv wq (execCalRetryExpiry g s) := by
  unfold execCalRetryExpiry
  try dsimp -iota only
  with_reducible repeat' (first | assumption | apply lapse_inv | (refine lapse_inv_eq ?_ (by assumption)) | apply calEval_inv | apply updGroup_inv | exact OutInv.fault | apply OutInv.next | simp only [InvQ.mk_state] | apply InvQ.kept | dsimp -iota only | split)

theorem calForce_inv {s : State} {g : Nat} (hs : InvQ wq s) : InvQ wq (calForce s g) := by
  unfold calForce
  try dsimp -iota only
  with_reducible repeat' (first | assumption | apply tally_inv | apply setCalState_inv | dsimp -iota only)

theorem execCalForcingTimeout_inv {g : Fin 12} {s : State} (hs : InvQ wq s) : OutInv wq (execCalForcingTimeout g s) := by
  unfold execCalForcingTimeout
  try dsimp -iota only
  with_reducible repeat' (first | assumption | apply lapse_inv | (refine lapse_inv_eq ?_ (by assumption)) | apply calForce_inv | exact OutInv.fault | apply OutInv.next | dsimp -iota only | split)

theorem applyStaged_inv {s : State} {g : Nat} (hs : InvQ wq s) : InvQ wq (applyStaged s g) := by
  unfold applyStaged
  try dsimp -iota only
  with_reducible repeat' (first | assumption | apply setR_inv | apply endAll_inv | apply updGroup_inv | apply wr1_inv | apply foldl_inv | apply foldl_inv_snd | apply foldl_inv_thd | simp only [InvQ.mk_state] | apply InvQ.kept | dsimp -iota only | split | intro _)

theorem atBoundary_inv {s : State} {g : Nat} (hs : InvQ wq s) : InvQ wq (atBoundary s g) := by
  unfold atBoundary
  try dsimp -iota only
  with_reducible repeat' (first | assumption | apply applyStaged_inv | apply tally_inv | apply updGroup_inv | apply setCalState_inv | simp only [InvQ.mk_state] | apply InvQ.kept | dsimp -iota only | split)

theorem settleEnd_inv {s : State} {g : Nat} (hs : InvQ wq s) : InvQ wq (settleEnd s g) := by
  unfold settleEnd
  try dsimp -iota only
  with_reducible repeat' (first | assumption | apply kickGroup_inv | apply updGroup_inv | simp only [InvQ.mk_state] | apply InvQ.kept | dsimp -iota only | split)

theorem execCalBoundary_inv {g : Fin 12} {s : State} (hs : InvQ wq s) : OutInv wq (execCalBoundary g s) := by
  unfold execCalBoundary
  try dsimp -iota only
  with_reducible repeat' (first | assumption | apply lapse_inv | (refine lapse_inv_eq ?_ (by assumption)) | apply atBoundary_inv | exact OutInv.fault | apply OutInv.next | dsimp -iota only | split)

theorem calReject_inv {s : State} {g : Nat} {c : Nat} {t' : TrimCode} (hs : InvQ wq s) : InvQ wq (calReject s g c t') := by
  unfold calReject
  try dsimp -iota only
  with_reducible repeat' (first | assumption | apply wr1_inv | apply flag1_inv | dsimp -iota only | split)

theorem calChannel_inv {s : State} {g : Nat} {c : Nat} {t' : Trims} (hs : InvQ wq s) : InvQ wq (calChannel s g c t') := by
  unfold calChannel
  try dsimp -iota only
  with_reducible repeat' (first | assumption | apply calReject_inv | apply putTrims_inv | dsimp -iota only | split)

theorem calFinish_inv {s : State} {g : Nat} {r : List Trims} (hs : InvQ wq s) : InvQ wq (calFinish s g r) := by
  unfold calFinish
  try dsimp -iota only
  with_reducible repeat' (first | assumption | apply calChannel_inv | apply wr1_inv | apply tally_inv | apply setCalState_inv | apply updGroup_inv | apply calEval_inv | apply endAll_inv | apply kickGroup_inv | apply calForce_inv | apply foldl_inv | simp only [InvQ.mk_state] | apply InvQ.kept | dsimp -iota only | split | intro _)

theorem execCalRunEnd_inv {g : Fin 12} {r : List Trims} {s : State} (hs : InvQ wq s) : OutInv wq (execCalRunEnd g r s) := by
  unfold execCalRunEnd
  try dsimp -iota only
  with_reducible repeat' (first | assumption | apply lapse_inv | (refine lapse_inv_eq ?_ (by assumption)) | apply calFinish_inv | exact OutInv.fault | apply OutInv.next | dsimp -iota only | split)

theorem trimPut_inv {s : State} {g : Nat} {c : Nat} {reg : Nat} {n : RegName} {v : W64} (hs : InvQ wq s) : InvQ wq (trimPut s g c reg n v) := by
  unfold trimPut
  try dsimp -iota only
  with_reducible repeat' (first | assumption | apply wr1_inv | apply updGroup_inv | apply flag1_inv | apply setR_inv | simp only [InvQ.mk_state] | apply InvQ.kept | dsimp -iota only | split)

theorem calBegin_inv {s : State} {it : Item} (hs : InvQ wq s) : InvQ wq (calBegin s it) := by
  unfold calBegin
  try dsimp -iota only
  with_reducible repeat' (first | assumption | apply endWith_inv | apply updItem_inv | apply updGroup_inv | apply calOrder_inv | apply calForce_inv | apply endItem_inv | apply wr1_inv | simp only [InvQ.mk_state] | apply InvQ.kept | dsimp -iota only | split)

theorem calWarn_inv {s : State} {g : Nat} (hs : InvQ wq s) : InvQ wq (calWarn s g) := by
  unfold calWarn
  try dsimp -iota only
  with_reducible repeat' (first | assumption | apply kickGroup_inv | apply abandonRun_inv | apply updGroup_inv | apply setCalState_inv | apply endAll_inv | simp only [InvQ.mk_state] | apply InvQ.kept | dsimp -iota only | split)

theorem calStops_inv {s : State} {g : Nat} (hs : InvQ wq s) : InvQ wq (calStops s g) := by
  unfold calStops
  try dsimp -iota only
  with_reducible repeat' (first | assumption | apply updGroup_inv | apply setCalState_inv | apply kickGroup_inv | apply endAll_inv | simp only [InvQ.mk_state] | apply InvQ.kept | dsimp -iota only)

end Sys2Proof.Machine
end

