-- ==== Sys2Proof/Laws/InvPatrol.lean ====
section
/-! SUPPORT. Every operation over the state keeps the invariant Sys2Proof.Machine.Inv: one lemma for each, in the order of
the definitions. -/

set_option linter.unusedTactic false
set_option linter.unreachableTactic false
set_option linter.unusedSimpArgs false

namespace Sys2Proof.Machine

variable {wq : List Instr}

theorem scrubStart_inv {s : State} {p : Packet} (hs : InvQ wq s) : InvQ wq (scrubStart s p) := by
  unfold scrubStart
  try dsimp -iota only
  with_reducible repeat' (first | assumption | apply wr0_inv | simp only [InvQ.mk_state] | apply InvQ.kept | dsimp -iota only)

theorem scrubStop_inv {s : State} (hs : InvQ wq s) : InvQ wq (scrubStop s) := by
  unfold scrubStop
  try dsimp -iota only
  with_reducible repeat' (first | assumption | apply wr0_inv | dsimp -iota only)

theorem scrubClear_inv {s : State} {c : Nat} (hs : InvQ wq s) : InvQ wq (scrubClear s c) := by
  unfold scrubClear
  try dsimp -iota only
  with_reducible repeat' (first | assumption | simp only [InvQ.mk_state] | apply InvQ.kept | dsimp -iota only)

theorem scrubEffect_inv {s : State} {p : Packet} (hs : InvQ wq s) : InvQ wq (scrubEffect s p) := by
  unfold scrubEffect
  try dsimp -iota only
  with_reducible repeat' (first | assumption | apply scrubStop_inv | apply scrubStart_inv | apply scrubClear_inv | dsimp -iota only | split)

theorem poolAdd_inv {s : State} {w : W64} (hs : InvQ wq s) : InvQ wq (poolAdd s w) := by
  unfold poolAdd
  try dsimp -iota only
  with_reducible repeat' (first | assumption | apply flag0_inv | simp only [InvQ.mk_state] | apply InvQ.kept | dsimp -iota only | split)

theorem poolAddAll_inv {s : State} {p : Packet} (hs : InvQ wq s) : InvQ wq (poolAddAll s p) := by
  unfold poolAddAll
  try dsimp -iota only
  with_reducible repeat' (first | assumption | apply poolAdd_inv | apply foldl_inv | dsimp -iota only | intro _)

theorem patrolAdvance_inv {s : State} (hs : InvQ wq s) : InvQ wq (patrolAdvance s) := by
  unfold patrolAdvance
  try dsimp -iota only
  with_reducible repeat' (first | assumption | apply wr0_inv | simp only [InvQ.mk_state] | apply InvQ.kept | dsimp -iota only | split)

theorem patrolIssue_inv {s : State} {n : Nat} (hs : InvQ wq s) : InvQ wq (patrolIssue s n) := by
  unfold patrolIssue
  try dsimp -iota only
  with_reducible repeat' (first | assumption | apply enqueue_inv | simp only [InvQ.mk_state] | apply InvQ.kept | dsimp -iota only)

theorem execPatrolReadLaunch_inv {s : State} (hs : InvQ wq s) : OutInv wq (execPatrolReadLaunch s) := by
  unfold execPatrolReadLaunch
  try dsimp -iota only
  with_reducible repeat' (first | assumption | apply lapse_inv | (refine lapse_inv_eq ?_ (by assumption)) | apply patrolAdvance_inv | apply patrolIssue_inv | exact OutInv.fault | apply OutInv.next | dsimp -iota only | split)

theorem relocGo_inv {s : State} {it : Item} {e' : PoolEnt} {rest : List PoolEnt} (hs : InvQ wq s) : InvQ wq (relocGo s it e' rest) := by
  unfold relocGo
  try dsimp -iota only
  with_reducible repeat' (first | assumption | apply tallyC_inv | apply tally_inv | apply enqueue_inv | apply updItem_inv | simp only [InvQ.mk_state] | apply InvQ.kept | dsimp -iota only)

theorem execRelocationStart_inv {id : Nat} {s : State} (hs : InvQ wq s) : OutInv wq (execRelocationStart id s) := by
  unfold execRelocationStart
  try dsimp -iota only
  with_reducible repeat' (first | assumption | apply relocWrite_inv | apply dropItem_inv | apply cleanup_inv | apply tally_inv | apply flag1_inv | apply relocGo_inv | exact OutInv.fault | apply OutInv.next | dsimp -iota only | split)

theorem execRelocReceiptWrite_inv {s : State} (hs : InvQ wq s) : OutInv wq (execRelocReceiptWrite s) := by
  unfold execRelocReceiptWrite
  try dsimp -iota only
  with_reducible repeat' (first | assumption | apply relocNext_inv | apply writeOne_inv | exact OutInv.fault | apply OutInv.next | simp only [InvQ.mk_state] | apply InvQ.kept | dsimp -iota only | split)

theorem execSramScrubVisit_inv {s : State} (hs : InvQ wq s) : OutInv wq (execSramScrubVisit s) := by
  unfold execSramScrubVisit
  try dsimp -iota only
  with_reducible repeat' (first | assumption | apply scrubVisit_inv | exact OutInv.fault | apply OutInv.next | dsimp -iota only | split)

end Sys2Proof.Machine
end

