-- ==== Sys2Proof/Laws/InvLedgerSet.lean ====
section
/-! SUPPORT. Every operation over the state keeps the invariant Sys2Proof.Machine.Inv: one lemma for each, in the order of
the definitions. -/

set_option linter.unusedTactic false
set_option linter.unreachableTactic false
set_option linter.unusedSimpArgs false

namespace Sys2Proof.Machine

variable {wq : List Instr}

theorem setVccAlt_inv {s : State} {v : Nat} (hs : InvQ wq s) : InvQ wq (setVccAlt s v) := by
  unfold setVccAlt
  try dsimp -iota only
  with_reducible repeat' (first | assumption | apply wr0_inv | apply orderSuspends_inv | dsimp -iota only | split)

theorem ledgerApply_inv {s : State} {p : Packet} (hs : InvQ wq s) : InvQ wq (ledgerApply s p) := by
  unfold ledgerApply
  try dsimp -iota only
  with_reducible repeat' (first | assumption | apply wr0_inv | apply setVccAlt_inv | apply wr1_inv | dsimp -iota only | split)

theorem quietPut_inv {s : State} {j : Nat} {a : Nat} {b : Nat} (hs : InvQ wq s) : InvQ wq (quietPut s j a b) := by
  unfold quietPut
  try dsimp -iota only
  with_reducible repeat' (first | assumption | apply wr1_inv | dsimp -iota only)

theorem quietBegins_inv {was : Bool} {s : State} (hs : InvQ wq s) : InvQ wq (quietBegins was s) := by
  unfold quietBegins
  try dsimp -iota only
  with_reducible repeat' (first | assumption | apply refreshArmed_inv | apply orderSuspends_inv | dsimp -iota only | split)

theorem quietEnter_inv {s : State} {start : Nat} {len : Nat} (hs : InvQ wq s) : InvQ wq (quietEnter s start len) := by
  unfold quietEnter
  try dsimp -iota only
  with_reducible repeat' (first | assumption | apply wr1_inv | apply quietBegins_inv | apply quietPut_inv | apply flag0_inv | apply foldl_inv | dsimp -iota only | split | intro _)

theorem packetEffect_inv {s : State} {p : Packet} (hs : InvQ wq s) : InvQ wq (packetEffect s p) := by
  unfold packetEffect
  try dsimp -iota only
  with_reducible repeat' (first | assumption | apply quietEnter_inv | apply ledgerApply_inv | apply tallySnapshot_inv | apply scrubEffect_inv | dsimp -iota only | split)

theorem effectNow_inv {s : State} {p : Packet} (hs : InvQ wq s) : InvQ wq (effectNow s p) := by
  unfold effectNow
  try dsimp -iota only
  with_reducible repeat' (first | assumption | apply packetEffect_inv | simp only [InvQ.mk_state] | apply InvQ.kept | dsimp -iota only | split)

theorem effectEnds_inv {s : State} {it : Item} (hs : InvQ wq s) : InvQ wq (effectEnds s it) := by
  unfold effectEnds
  try dsimp -iota only
  with_reducible repeat' (first | assumption | apply endItem_inv | apply packetEffect_inv | dsimp -iota only)

theorem effectRun_inv {s : State} {it : Item} (hs : InvQ wq s) : InvQ wq (effectRun s it) := by
  unfold effectRun
  try dsimp -iota only
  with_reducible repeat' (first | assumption | apply updItem_inv | apply effectEnds_inv | simp only [InvQ.mk_state] | apply InvQ.kept | dsimp -iota only | split)

theorem effectLate_inv {s : State} {it : Item} (hs : InvQ wq s) : InvQ wq (effectLate s it) := by
  unfold effectLate
  try dsimp -iota only
  with_reducible repeat' (first | assumption | apply effectRun_inv | apply mark_inv | dsimp -iota only | split)

theorem unlaunch_inv {s : State} {it : Item} (hs : InvQ wq s) : InvQ wq (unlaunch s it) := by
  unfold unlaunch
  try dsimp -iota only
  with_reducible repeat' (first | assumption | apply updCh_inv | apply updItem_inv | apply returnUnused_inv | simp only [InvQ.mk_state] | apply InvQ.kept | dsimp -iota only)

theorem retime_inv {s0 : State} (hs0 : InvQ wq s0) : InvQ wq (retime s0) := by
  unfold retime
  try dsimp -iota only
  with_reducible repeat' (first | assumption | apply unlaunch_inv | apply effectLate_inv | apply effectRun_inv | apply refreshArmed_inv | apply foldl_inv | simp only [InvQ.mk_state] | apply InvQ.kept | dsimp -iota only | split | intro _)

end Sys2Proof.Machine
end

