-- ==== Sys2Proof/Laws/InvRingOps.lean ====
section
/-! SUPPORT. Every operation over the state keeps the invariant Sys2Proof.Machine.Inv: one lemma for each, in the order of
the definitions. -/

set_option linter.unusedTactic false
set_option linter.unreachableTactic false
set_option linter.unusedSimpArgs false

namespace Sys2Proof.Machine

variable {wq : List Instr}

theorem setXr_inv {s : State} {n : Nat} (hs : InvQ wq s) : InvQ wq (setXr s n) := by
  unfold setXr
  try dsimp -iota only
  with_reducible repeat' (first | assumption | apply wr0_inv | dsimp -iota only)

theorem frameDrop_inv {s : State} (hs : InvQ wq s) : InvQ wq (frameDrop s) := by
  unfold frameDrop
  try dsimp -iota only
  with_reducible repeat' (first | assumption | apply tally_inv | dsimp -iota only)

theorem ringPass_inv {s : State} {h : FrameHdr} {body : TxFrame} (hs : InvQ wq s) : InvQ wq (ringPass s h body) := by
  unfold ringPass
  try dsimp -iota only
  with_reducible repeat' (first | assumption | apply frameDrop_inv | apply ringPut_inv | simp only [InvQ.mk_state] | apply InvQ.kept | dsimp -iota only | split)

theorem setCredits_inv {s : State} {dst : Nat} {n : Nat} (hs : InvQ wq s) : InvQ wq (setCredits s dst n) := by
  unfold setCredits
  try dsimp -iota only
  with_reducible repeat' (first | assumption | apply updPort_inv | simp only [InvQ.mk_state] | apply InvQ.kept | dsimp -iota only)

theorem updFwd_inv {s : State} {id : Nat} {f : FwdOut → FwdOut} (hs : InvQ wq s) : InvQ wq (updFwd s id f) := by
  unfold updFwd
  try dsimp -iota only
  with_reducible repeat' (first | assumption | apply updPort_inv | simp only [InvQ.mk_state] | apply InvQ.kept | dsimp -iota only | split)

theorem sendOne_inv {s : State} {w : FwdOut} (hs : InvQ wq s) : InvQ wq (sendOne s w) := by
  unfold sendOne
  try dsimp -iota only
  with_reducible repeat' (first | assumption | apply nextSeq_inv | (refine nextSeq_inv_eq ?_ (by assumption)) | apply setCredits_inv | apply ringSend_inv | apply updFwd_inv | simp only [InvQ.mk_state] | apply InvQ.kept | dsimp -iota only | split)

theorem sendForwards_inv {s : State} {dst : Nat} (hs : InvQ wq s) : InvQ wq (sendForwards s dst) := by
  unfold sendForwards
  try dsimp -iota only
  with_reducible repeat' (first | assumption | apply sendOne_inv | apply foldl_inv | dsimp -iota only | split | intro _)

theorem forwardFail_inv {s : State} {id : Nat} {unknown : Bool} (hs : InvQ wq s) : InvQ wq (forwardFail s id unknown) := by
  unfold forwardFail
  try dsimp -iota only
  with_reducible repeat' (first | assumption | apply endWith_inv | apply updItem_inv | simp only [InvQ.mk_state] | apply InvQ.kept | dsimp -iota only)

theorem forwardItem_inv {s : State} {it : Item} (hs : InvQ wq s) : InvQ wq (forwardItem s it) := by
  unfold forwardItem
  try dsimp -iota only
  with_reducible repeat' (first | assumption | apply tally_inv | apply updItem_inv | apply sendForwards_inv | apply updPort_inv | apply forwardFail_inv | simp only [InvQ.mk_state] | apply InvQ.kept | dsimp -iota only | split)

theorem unitLeft_inv {s : State} {k : Nat} (hs : InvQ wq s) : InvQ wq (unitLeft s k) := by
  unfold unitLeft
  try dsimp -iota only
  with_reducible repeat' (first | assumption | apply updPort_inv | apply forwardFail_inv | apply tallyN_inv | apply foldl_inv | simp only [InvQ.mk_state] | apply InvQ.kept | dsimp -iota only | intro _)

theorem setPresent_inv {s : State} {m : Nat} (hs : InvQ wq s) : InvQ wq (setPresent s m) := by
  unfold setPresent
  try dsimp -iota only
  with_reducible repeat' (first | assumption | apply unitLeft_inv | apply wr0_inv | apply foldl_inv | dsimp -iota only | intro _)

theorem allLeave_inv {s : State} (hs : InvQ wq s) : InvQ wq (allLeave s) := by
  unfold allLeave
  try dsimp -iota only
  with_reducible repeat' (first | assumption | apply unitLeft_inv | apply foldl_inv | dsimp -iota only | intro _)

theorem seqTaken_inv {s : State} {src : Nat} (hs : InvQ wq s) : InvQ wq (seqTaken s src) := by
  unfold seqTaken
  try dsimp -iota only
  with_reducible repeat' (first | assumption | apply updPort_inv | simp only [InvQ.mk_state] | apply InvQ.kept | dsimp -iota only)

theorem updLedger_inv {s : State} {f : Ledger → Ledger} (hs : InvQ wq s) : InvQ wq (updLedger s f) := by
  unfold updLedger
  try dsimp -iota only
  with_reducible repeat' (first | assumption | simp only [InvQ.mk_state] | apply InvQ.kept | dsimp -iota only)

theorem exchangePart_inv {s : State} {n : Nat} (hs : InvQ wq s) : InvQ wq (exchangePart s n).2 := by
  unfold exchangePart
  try dsimp -iota only
  with_reducible repeat' (first | assumption | apply updLedger_inv | apply wr0_inv | apply updPort_inv | simp only [InvQ.mk_state] | apply InvQ.kept | dsimp -iota only | split)
theorem exchangePart_inv_eq {s : State} {n : Nat} (hs : InvQ wq s) {a₁ : _} {t : State} (e : exchangePart s n = (a₁, t)) : InvQ wq t := by
  have := exchangePart_inv (s := s) (n := n) hs
  rw [e] at this
  exact this

theorem takeAllot_inv {s : State} {n : Nat} {c : Nat} (hs : InvQ wq s) : InvQ wq (takeAllot s n c) := by
  unfold takeAllot
  try dsimp -iota only
  with_reducible repeat' (first | assumption | apply updPort_inv | apply wr0_inv | simp only [InvQ.mk_state] | apply InvQ.kept | dsimp -iota only)

end Sys2Proof.Machine
end

