-- ==== Sys2Proof/Laws/InvTeller.lean ====
section
/-! SUPPORT. Every operation over the state keeps the invariant Sys2Proof.Machine.Inv: one lemma for each, in the order of
the definitions. -/

set_option linter.unusedTactic false
set_option linter.unreachableTactic false
set_option linter.unusedSimpArgs false

namespace Sys2Proof.Machine

variable {wq : List Instr}

theorem kickFetch_inv {s : State} {k : Nat} (hs : InvQ wq s) : InvQ wq (kickFetch s k) := by
  unfold kickFetch
  try dsimp -iota only
  with_reducible repeat' (first | assumption | apply hiSend_inv | dsimp -iota only | split)

theorem stopFetch_inv {s : State} {k : Nat} (hs : InvQ wq s) : InvQ wq (stopFetch s k) := by
  unfold stopFetch
  have h := dropReads_inv (p := fun r => r.use = .packetFetch k) (u := .fetchDropped k)
    (updRing_inv (k := k) (f := fun r => { r with wait := none }) hs)
  exact ⟨h.mem, h.time, h.rdCred, h.wrCred, h.ids, h.aon, h.queue⟩


theorem takeFetch_inv {s : State} {k : Nat} (hs : InvQ wq s) : OptInv wq (takeFetch s k) := by
  unfold takeFetch
  cases (fetchOut s k).filter (fun r => !r.spoilt) with
  | none => exact OptInv.none
  | some r => exact OptInv.some (readDone_inv hs)

theorem takeFetch_inv_eq {s t : State} {k : Nat} (hs : InvQ wq s) (e : takeFetch s k = some t) : InvQ wq t := by
  have := takeFetch_inv (k := k) hs
  rw [e] at this
  exact this


theorem fetchFails_inv {s : State} {k : Nat} {r : HiReq} (hs : InvQ wq s) : InvQ wq (fetchFails s k r) := by
  unfold fetchFails
  try dsimp -iota only
  with_reducible repeat' (first | assumption | apply readDone_inv | apply flag1_inv | apply freeBit_inv | (refine freeBit_inv_eq ?_ (by assumption)) | apply fetchErr_inv | dsimp -iota only | split)

theorem dropFetch_inv {s : State} {k : Nat} (hs : InvQ wq s) : InvQ wq (dropFetch s k) := by
  unfold dropFetch
  try dsimp -iota only
  with_reducible repeat' (first | assumption | apply hiDrop_inv | apply updRing_inv | simp only [InvQ.mk_state] | apply InvQ.kept | dsimp -iota only)

theorem addItem_inv {s : State} {it : Item} (hs : InvQ wq s) : InvQ wq (addItem s it) := by
  unfold addItem
  try dsimp -iota only
  with_reducible repeat' (first | assumption | simp only [InvQ.mk_state] | apply InvQ.kept | dsimp -iota only)

theorem storeTakes_inv {s : State} {it : Item} (hs : InvQ wq s) : InvQ wq (storeTakes s it) := by
  unfold storeTakes
  try dsimp -iota only
  with_reducible repeat' (first | assumption | apply enqueue_inv | apply updItem_inv | apply wantSlots_inv | simp only [InvQ.mk_state] | apply InvQ.kept | dsimp -iota only | split)

theorem joinQueue_inv {s : State} {it : Item} (hs : InvQ wq s) : InvQ wq (joinQueue s it) := by
  unfold joinQueue
  try dsimp -iota only
  with_reducible repeat' (first | assumption | apply endWith_inv | apply storeTakes_inv | apply updItem_inv | simp only [InvQ.mk_state] | apply InvQ.kept | dsimp -iota only | split)

theorem carryQueue_inv {s : State} {it : Item} (hs : InvQ wq s) : InvQ wq (carryQueue s it) := by
  unfold carryQueue
  try dsimp -iota only
  with_reducible repeat' (first | assumption | apply endWith_inv | apply joinQueue_inv | dsimp -iota only | split)

theorem sendWide_inv {s : State} {p : Packet} (hs : InvQ wq s) : InvQ wq (sendWide s p) := by
  unfold sendWide
  try dsimp -iota only
  with_reducible repeat' (first | assumption | apply ringSend_inv | dsimp -iota only | split)

theorem carryTimed_inv {s : State} {it : Item} (hs : InvQ wq s) : InvQ wq (carryTimed s it) := by
  unfold carryTimed
  try dsimp -iota only
  with_reducible repeat' (first | assumption | apply effectRun_inv | apply sendWide_inv | apply updItem_inv | apply effectLate_inv | simp only [InvQ.mk_state] | apply InvQ.kept | dsimp -iota only | split)

theorem abortItem_inv {s : State} {id : Nat} (hs : InvQ wq s) : InvQ wq (abortItem s id) := by
  unfold abortItem
  try dsimp -iota only
  with_reducible repeat' (first | assumption | apply stopItem_inv | simp only [InvQ.mk_state] | apply InvQ.kept | dsimp -iota only)

theorem fenceBegin_inv {s : State} {it : Item} (hs : InvQ wq s) : InvQ wq (fenceBegin s it) := by
  unfold fenceBegin
  try dsimp -iota only
  with_reducible repeat' (first | assumption | apply endItem_inv | apply updItem_inv | apply abortItem_inv | apply endFences_inv | apply foldl_inv | simp only [InvQ.mk_state] | apply InvQ.kept | dsimp -iota only | split | intro _)

theorem refuse_inv {s : State} {it : Item} {n : Nat} (hs : InvQ wq s) : InvQ wq (refuse s it n) := by
  unfold refuse
  try dsimp -iota only
  with_reducible repeat' (first | assumption | apply endWith_inv | apply updItem_inv | simp only [InvQ.mk_state] | apply InvQ.kept | dsimp -iota only)

theorem hkBegin_inv {s : State} {it : Item} (hs : InvQ wq s) : InvQ wq (hkBegin s it) := by
  unfold hkBegin
  try dsimp -iota only
  with_reducible repeat' (first | assumption | apply calBegin_inv | apply swapBegin_inv | apply ctlBegin_inv | apply updItem_inv | simp only [InvQ.mk_state] | apply InvQ.kept | dsimp -iota only | split)

theorem carryOut_inv {s : State} {it : Item} (hs : InvQ wq s) : InvQ wq (carryOut s it) := by
  unfold carryOut
  try dsimp -iota only
  with_reducible repeat' (first | assumption | apply carryQueue_inv | apply carryTimed_inv | apply fenceBegin_inv | apply effectRun_inv | apply endItem_inv | apply poolAddAll_inv | apply hkBegin_inv | dsimp -iota only | split)

theorem execute_inv {s : State} {it : Item} (hs : InvQ wq s) : InvQ wq (execute s it) := by
  unfold execute
  try dsimp -iota only
  with_reducible repeat' (first | assumption | apply refuse_inv | apply carryOut_inv | dsimp -iota only | split)

theorem dispatch_inv {s : State} {it : Item} (hs : InvQ wq s) : InvQ wq (dispatch s it) := by
  unfold dispatch
  try dsimp -iota only
  with_reducible repeat' (first | assumption | apply refuse_inv | apply forwardItem_inv | apply execute_inv | dsimp -iota only | split)

theorem routePacket_inv {s : State} {k : Nat} {p : Packet} (hs : InvQ wq s) : InvQ wq (routePacket s k p) := by
  unfold routePacket
  try dsimp -iota only
  with_reducible repeat' (first | assumption | apply wr1_inv | apply addItem_inv | apply updRing_inv | apply tally_inv | apply kickFetch_inv | apply dispatch_inv | simp only [InvQ.mk_state] | apply InvQ.kept | dsimp -iota only | split)

theorem routeTurn_inv {s : State} {k : Nat} (hs : InvQ wq s) : InvQ wq (routeTurn s k) := by
  unfold routeTurn
  try dsimp -iota only
  with_reducible repeat' (first | assumption | apply routePacket_inv | dsimp -iota only | split)

theorem packetArrives_inv {s : State} {k : Nat} {p : Packet} (hs : InvQ wq s) : InvQ wq (packetArrives s k p) := by
  unfold packetArrives
  try dsimp -iota only
  with_reducible repeat' (first | assumption | apply takeFetch_inv | (refine takeFetch_inv_eq ?_ (by assumption)) | apply routeTurn_inv | apply updRing_inv | apply fetchFails_inv | simp only [InvQ.mk_state] | apply InvQ.kept | dsimp -iota only | split)

theorem storeRetry_inv {s : State} {t' : Nat} (hs : InvQ wq s) : InvQ wq (storeRetry s t') := by
  unfold storeRetry
  try dsimp -iota only
  with_reducible repeat' (first | assumption | apply joinQueue_inv | dsimp -iota only | split)

theorem swapRetry_inv {s : State} (hs : InvQ wq s) : InvQ wq (swapRetry s) := by
  unfold swapRetry
  try dsimp -iota only
  with_reducible repeat' (first | assumption | apply hkBegin_inv | dsimp -iota only | split)

theorem tellerGoesOn_inv {s : State} {k : Nat} (hs : InvQ wq s) : InvQ wq (tellerGoesOn s k) := by
  unfold tellerGoesOn
  try dsimp -iota only
  with_reducible repeat' (first | assumption | apply kickFetch_inv | apply routeTurn_inv | apply swapRetry_inv | apply storeRetry_inv | dsimp -iota only)

theorem kickAll_inv {s : State} (hs : InvQ wq s) : InvQ wq (kickAll s) := by
  unfold kickAll
  try dsimp -iota only
  with_reducible repeat' (first | assumption | apply kickFetch_inv | apply foldl_inv | dsimp -iota only | intro _)

end Sys2Proof.Machine
end

