-- ==== Sys2Proof/Laws/InvPackets.lean ====
section
/-! SUPPORT. Every operation over the state keeps the invariant Sys2Proof.Machine.Inv: one lemma for each, in the order of
the definitions. -/

set_option linter.unusedTactic false
set_option linter.unreachableTactic false
set_option linter.unusedSimpArgs false

namespace Sys2Proof.Machine

variable {wq : List Instr}

theorem packetRow_inv {k : Fin 256} {p : Packet} {ok : Bool} {s : State} (hs : InvQ wq s) : OutInv wq (packetRow k p ok s) := by
  unfold packetRow
  try dsimp -iota only
  with_reducible repeat' (first | assumption | apply packetArrives_inv | exact OutInv.fault | apply OutInv.next | dsimp -iota only | split)

theorem execRead_inv {k : Fin 256} {p : Packet} {s : State} (hs : InvQ wq s) : OutInv wq (execRead k p s) := by
  unfold execRead
  try dsimp -iota only
  with_reducible repeat' (first | assumption | apply packetRow_inv | exact OutInv.fault | apply OutInv.next | dsimp -iota only)

theorem execReadMulti_inv {k : Fin 256} {p : Packet} {s : State} (hs : InvQ wq s) : OutInv wq (execReadMulti k p s) := by
  unfold execReadMulti
  try dsimp -iota only
  with_reducible repeat' (first | assumption | apply packetRow_inv | exact OutInv.fault | apply OutInv.next | dsimp -iota only)

theorem execReadRaw_inv {k : Fin 256} {p : Packet} {s : State} (hs : InvQ wq s) : OutInv wq (execReadRaw k p s) := by
  unfold execReadRaw
  try dsimp -iota only
  with_reducible repeat' (first | assumption | apply packetRow_inv | exact OutInv.fault | apply OutInv.next | dsimp -iota only)

theorem execProgram_inv {k : Fin 256} {p : Packet} {s : State} (hs : InvQ wq s) : OutInv wq (execProgram k p s) := by
  unfold execProgram
  try dsimp -iota only
  with_reducible repeat' (first | assumption | apply packetRow_inv | exact OutInv.fault | apply OutInv.next | dsimp -iota only)

theorem execProgramMulti_inv {k : Fin 256} {p : Packet} {s : State} (hs : InvQ wq s) : OutInv wq (execProgramMulti k p s) := by
  unfold execProgramMulti
  try dsimp -iota only
  with_reducible repeat' (first | assumption | apply packetRow_inv | exact OutInv.fault | apply OutInv.next | dsimp -iota only)

theorem execErase_inv {k : Fin 256} {p : Packet} {s : State} (hs : InvQ wq s) : OutInv wq (execErase k p s) := by
  unfold execErase
  try dsimp -iota only
  with_reducible repeat' (first | assumption | apply packetRow_inv | exact OutInv.fault | apply OutInv.next | dsimp -iota only)

theorem execEraseMulti_inv {k : Fin 256} {p : Packet} {s : State} (hs : InvQ wq s) : OutInv wq (execEraseMulti k p s) := by
  unfold execEraseMulti
  try dsimp -iota only
  with_reducible repeat' (first | assumption | apply packetRow_inv | exact OutInv.fault | apply OutInv.next | dsimp -iota only)

theorem execCopy_inv {k : Fin 256} {p : Packet} {s : State} (hs : InvQ wq s) : OutInv wq (execCopy k p s) := by
  unfold execCopy
  try dsimp -iota only
  with_reducible repeat' (first | assumption | apply packetRow_inv | exact OutInv.fault | apply OutInv.next | dsimp -iota only)

theorem execStatus_inv {k : Fin 256} {p : Packet} {s : State} (hs : InvQ wq s) : OutInv wq (execStatus k p s) := by
  unfold execStatus
  try dsimp -iota only
  with_reducible repeat' (first | assumption | apply packetRow_inv | exact OutInv.fault | apply OutInv.next | dsimp -iota only)

theorem execSetFeature_inv {k : Fin 256} {p : Packet} {s : State} (hs : InvQ wq s) : OutInv wq (execSetFeature k p s) := by
  unfold execSetFeature
  try dsimp -iota only
  with_reducible repeat' (first | assumption | apply packetRow_inv | exact OutInv.fault | apply OutInv.next | dsimp -iota only)

theorem execGetFeature_inv {k : Fin 256} {p : Packet} {s : State} (hs : InvQ wq s) : OutInv wq (execGetFeature k p s) := by
  unfold execGetFeature
  try dsimp -iota only
  with_reducible repeat' (first | assumption | apply packetRow_inv | exact OutInv.fault | apply OutInv.next | dsimp -iota only)

theorem execResetLun_inv {k : Fin 256} {p : Packet} {s : State} (hs : InvQ wq s) : OutInv wq (execResetLun k p s) := by
  unfold execResetLun
  try dsimp -iota only
  with_reducible repeat' (first | assumption | apply packetRow_inv | exact OutInv.fault | apply OutInv.next | dsimp -iota only)

theorem execSequence_inv {k : Fin 256} {p : Packet} {s : State} (hs : InvQ wq s) : OutInv wq (execSequence k p s) := by
  unfold execSequence
  try dsimp -iota only
  with_reducible repeat' (first | assumption | apply packetRow_inv | exact OutInv.fault | apply OutInv.next | dsimp -iota only)

theorem execLedgerSetBudget_inv {k : Fin 256} {p : Packet} {s : State} (hs : InvQ wq s) : OutInv wq (execLedgerSetBudget k p s) := by
  unfold execLedgerSetBudget
  try dsimp -iota only
  with_reducible repeat' (first | assumption | apply packetRow_inv | exact OutInv.fault | apply OutInv.next | dsimp -iota only)

theorem execLedgerSetCost_inv {k : Fin 256} {p : Packet} {s : State} (hs : InvQ wq s) : OutInv wq (execLedgerSetCost k p s) := by
  unfold execLedgerSetCost
  try dsimp -iota only
  with_reducible repeat' (first | assumption | apply packetRow_inv | exact OutInv.fault | apply OutInv.next | dsimp -iota only)

theorem execLedgerSetQuiet_inv {k : Fin 256} {p : Packet} {s : State} (hs : InvQ wq s) : OutInv wq (execLedgerSetQuiet k p s) := by
  unfold execLedgerSetQuiet
  try dsimp -iota only
  with_reducible repeat' (first | assumption | apply packetRow_inv | exact OutInv.fault | apply OutInv.next | dsimp -iota only)

theorem execTimeMark_inv {k : Fin 256} {p : Packet} {s : State} (hs : InvQ wq s) : OutInv wq (execTimeMark k p s) := by
  unfold execTimeMark
  try dsimp -iota only
  with_reducible repeat' (first | assumption | apply packetRow_inv | exact OutInv.fault | apply OutInv.next | dsimp -iota only)

theorem execFence_inv {k : Fin 256} {p : Packet} {s : State} (hs : InvQ wq s) : OutInv wq (execFence k p s) := by
  unfold execFence
  try dsimp -iota only
  with_reducible repeat' (first | assumption | apply packetRow_inv | exact OutInv.fault | apply OutInv.next | dsimp -iota only)

theorem execScrubStop_inv {k : Fin 256} {p : Packet} {s : State} (hs : InvQ wq s) : OutInv wq (execScrubStop k p s) := by
  unfold execScrubStop
  try dsimp -iota only
  with_reducible repeat' (first | assumption | apply packetRow_inv | exact OutInv.fault | apply OutInv.next | dsimp -iota only)

theorem execScrubStart_inv {k : Fin 256} {p : Packet} {s : State} (hs : InvQ wq s) : OutInv wq (execScrubStart k p s) := by
  unfold execScrubStart
  try dsimp -iota only
  with_reducible repeat' (first | assumption | apply packetRow_inv | exact OutInv.fault | apply OutInv.next | dsimp -iota only)

theorem execScrubClearPool_inv {k : Fin 256} {p : Packet} {s : State} (hs : InvQ wq s) : OutInv wq (execScrubClearPool k p s) := by
  unfold execScrubClearPool
  try dsimp -iota only
  with_reducible repeat' (first | assumption | apply packetRow_inv | exact OutInv.fault | apply OutInv.next | dsimp -iota only)

theorem execCalibrateRun_inv {k : Fin 256} {p : Packet} {s : State} (hs : InvQ wq s) : OutInv wq (execCalibrateRun k p s) := by
  unfold execCalibrateRun
  try dsimp -iota only
  with_reducible repeat' (first | assumption | apply packetRow_inv | exact OutInv.fault | apply OutInv.next | dsimp -iota only)

theorem execCalibrateRunForced_inv {k : Fin 256} {p : Packet} {s : State} (hs : InvQ wq s) : OutInv wq (execCalibrateRunForced k p s) := by
  unfold execCalibrateRunForced
  try dsimp -iota only
  with_reducible repeat' (first | assumption | apply packetRow_inv | exact OutInv.fault | apply OutInv.next | dsimp -iota only)

theorem execCalibrateRebase_inv {k : Fin 256} {p : Packet} {s : State} (hs : InvQ wq s) : OutInv wq (execCalibrateRebase k p s) := by
  unfold execCalibrateRebase
  try dsimp -iota only
  with_reducible repeat' (first | assumption | apply packetRow_inv | exact OutInv.fault | apply OutInv.next | dsimp -iota only)

theorem execCalibrateApply_inv {k : Fin 256} {p : Packet} {s : State} (hs : InvQ wq s) : OutInv wq (execCalibrateApply k p s) := by
  unfold execCalibrateApply
  try dsimp -iota only
  with_reducible repeat' (first | assumption | apply packetRow_inv | exact OutInv.fault | apply OutInv.next | dsimp -iota only)

theorem execRelocPoolAdd_inv {k : Fin 256} {p : Packet} {s : State} (hs : InvQ wq s) : OutInv wq (execRelocPoolAdd k p s) := by
  unfold execRelocPoolAdd
  try dsimp -iota only
  with_reducible repeat' (first | assumption | apply packetRow_inv | exact OutInv.fault | apply OutInv.next | dsimp -iota only)

theorem execBootSwap_inv {k : Fin 256} {p : Packet} {s : State} (hs : InvQ wq s) : OutInv wq (execBootSwap k p s) := by
  unfold execBootSwap
  try dsimp -iota only
  with_reducible repeat' (first | assumption | apply packetRow_inv | exact OutInv.fault | apply OutInv.next | dsimp -iota only)

theorem execChannelCtlNone_inv {k : Fin 256} {p : Packet} {s : State} (hs : InvQ wq s) : OutInv wq (execChannelCtlNone k p s) := by
  unfold execChannelCtlNone
  try dsimp -iota only
  with_reducible repeat' (first | assumption | apply packetRow_inv | exact OutInv.fault | apply OutInv.next | dsimp -iota only)

theorem execChannelCtlEnable_inv {k : Fin 256} {p : Packet} {s : State} (hs : InvQ wq s) : OutInv wq (execChannelCtlEnable k p s) := by
  unfold execChannelCtlEnable
  try dsimp -iota only
  with_reducible repeat' (first | assumption | apply packetRow_inv | exact OutInv.fault | apply OutInv.next | dsimp -iota only)

theorem execChannelCtlDisable_inv {k : Fin 256} {p : Packet} {s : State} (hs : InvQ wq s) : OutInv wq (execChannelCtlDisable k p s) := by
  unfold execChannelCtlDisable
  try dsimp -iota only
  with_reducible repeat' (first | assumption | apply packetRow_inv | exact OutInv.fault | apply OutInv.next | dsimp -iota only)

theorem execFenceGroup_inv {k : Fin 256} {p : Packet} {s : State} (hs : InvQ wq s) : OutInv wq (execFenceGroup k p s) := by
  unfold execFenceGroup
  try dsimp -iota only
  with_reducible repeat' (first | assumption | apply packetRow_inv | exact OutInv.fault | apply OutInv.next | dsimp -iota only)

theorem execUnfenceGroup_inv {k : Fin 256} {p : Packet} {s : State} (hs : InvQ wq s) : OutInv wq (execUnfenceGroup k p s) := by
  unfold execUnfenceGroup
  try dsimp -iota only
  with_reducible repeat' (first | assumption | apply packetRow_inv | exact OutInv.fault | apply OutInv.next | dsimp -iota only)

theorem execUnhaltLun_inv {k : Fin 256} {p : Packet} {s : State} (hs : InvQ wq s) : OutInv wq (execUnhaltLun k p s) := by
  unfold execUnhaltLun
  try dsimp -iota only
  with_reducible repeat' (first | assumption | apply packetRow_inv | exact OutInv.fault | apply OutInv.next | dsimp -iota only)

theorem execFlushLun_inv {k : Fin 256} {p : Packet} {s : State} (hs : InvQ wq s) : OutInv wq (execFlushLun k p s) := by
  unfold execFlushLun
  try dsimp -iota only
  with_reducible repeat' (first | assumption | apply packetRow_inv | exact OutInv.fault | apply OutInv.next | dsimp -iota only)

theorem execNop_inv {k : Fin 256} {p : Packet} {s : State} (hs : InvQ wq s) : OutInv wq (execNop k p s) := by
  unfold execNop
  try dsimp -iota only
  with_reducible repeat' (first | assumption | apply packetRow_inv | exact OutInv.fault | apply OutInv.next | dsimp -iota only)

theorem execPacketFetchError_inv {k : Fin 256} {s : State} (hs : InvQ wq s) : OutInv wq (execPacketFetchError k s) := by
  unfold execPacketFetchError
  try dsimp -iota only
  with_reducible repeat' (first | assumption | apply fetchFails_inv | exact OutInv.fault | apply OutInv.next | dsimp -iota only | split)

theorem execRoutingResume_inv {k : Fin 256} {s : State} (hs : InvQ wq s) : OutInv wq (execRoutingResume k s) := by
  unfold execRoutingResume
  try dsimp -iota only
  with_reducible repeat' (first | assumption | apply tellerGoesOn_inv | exact OutInv.fault | apply OutInv.next | dsimp -iota only)

theorem execTickEffect_inv {id : Nat} {s : State} (hs : InvQ wq s) : OutInv wq (execTickEffect id s) := by
  unfold execTickEffect
  try dsimp -iota only
  with_reducible repeat' (first | assumption | apply reach_inv | (refine reach_inv_eq ?_ (by assumption)) | apply effectRun_inv | apply updItem_inv | exact OutInv.fault | apply OutInv.next | simp only [InvQ.mk_state] | apply InvQ.kept | dsimp -iota only | split)

end Sys2Proof.Machine
end

