-- ==== Sys2Proof/Laws/InvWarn.lean ====
section
/-! SUPPORT. Every operation over the state keeps the invariant Sys2Proof.Machine.Inv: one lemma for each, in the order of
the definitions. -/

set_option linter.unusedTactic false
set_option linter.unreachableTactic false
set_option linter.unusedSimpArgs false

namespace Sys2Proof.Machine

variable {wq : List Instr}

theorem raisePower_inv {s : State} (hs : InvQ wq s) : InvQ wq (raisePower s) := by
  unfold raisePower
  try dsimp -iota only
  with_reducible repeat' (first | assumption | apply raiseTrap_inv | apply foldl_inv | dsimp -iota only | intro _)

theorem cutLaunch_inv {s : State} {it : Item} (hs : InvQ wq s) : InvQ wq (cutLaunch s it) := by
  unfold cutLaunch
  try dsimp -iota only
  with_reducible repeat' (first | assumption | apply dropCoins_inv | apply clearBus_inv | apply freeLun_inv | dsimp -iota only | split)

theorem warnEscalating_inv {s : State} {it : Item} (hs : InvQ wq s) : InvQ wq (warnEscalating s it) := by
  unfold warnEscalating
  try dsimp -iota only
  with_reducible repeat' (first | assumption | apply updLun_inv | apply leaveLun_inv | apply cutLaunch_inv | apply updCh_inv | apply returnUnused_inv | apply giveUp_inv | apply endLadder_inv | simp only [InvQ.mk_state] | apply InvQ.kept | dsimp -iota only | split)

theorem warnSensing_inv {s : State} {it : Item} (hs : InvQ wq s) : InvQ wq (warnSensing s it) := by
  unfold warnSensing
  try dsimp -iota only
  with_reducible repeat' (first | assumption | apply warnEscalating_inv | apply stopItem_inv | apply cutLaunch_inv | dsimp -iota only | split)

theorem warnNeedXfer_inv {s : State} {it : Item} (hs : InvQ wq s) : InvQ wq (warnNeedXfer s it) := by
  unfold warnNeedXfer
  try dsimp -iota only
  with_reducible repeat' (first | assumption | apply stopItem_inv | apply warnSensing_inv | dsimp -iota only | split)

theorem warnArray_inv {s : State} {it : Item} (hs : InvQ wq s) : InvQ wq (warnArray s it) := by
  unfold warnArray
  try dsimp -iota only
  with_reducible repeat' (first | assumption | apply interruptArray_inv | apply mark_inv | dsimp -iota only | split)

theorem warnRoutine_inv {s : State} {it : Item} (hs : InvQ wq s) : InvQ wq (warnRoutine s it) := by
  unfold warnRoutine
  try dsimp -iota only
  with_reducible repeat' (first | assumption | apply updMicro_inv | apply trapEntry_inv | apply endWith_inv | apply routineOff_inv | simp only [InvQ.mk_state] | apply InvQ.kept | dsimp -iota only | split)

theorem warnItem_inv {s : State} {it : Item} (hs : InvQ wq s) : InvQ wq (warnItem s it) := by
  unfold warnItem
  try dsimp -iota only
  with_reducible repeat' (first | assumption | apply stopItem_inv | apply cutLaunch_inv | apply warnSensing_inv | apply warnNeedXfer_inv | apply mark_inv | apply leaveLun_inv | apply warnArray_inv | apply warnRoutine_inv | apply endWith_inv | dsimp -iota only | split)

theorem warnOne_inv {s : State} {id : Nat} (hs : InvQ wq s) : InvQ wq (warnOne s id) := by
  unfold warnOne
  try dsimp -iota only
  with_reducible repeat' (first | assumption | apply warnItem_inv | dsimp -iota only | split)

theorem warnLun_inv {s : State} {l : Lun} (hs : InvQ wq s) : InvQ wq (warnLun s l) := by
  unfold warnLun
  try dsimp -iota only
  with_reducible repeat' (first | assumption | apply updCh_inv | apply updLun_inv | simp only [InvQ.mk_state] | apply InvQ.kept | dsimp -iota only | split)

theorem dropResumes_inv {s : State} (hs : InvQ wq s) : InvQ wq (dropResumes s) := by
  unfold dropResumes
  try dsimp -iota only
  with_reducible repeat' (first | assumption | simp only [InvQ.mk_state] | apply InvQ.kept | dsimp -iota only)

theorem warnRises_inv {s : State} (hs : InvQ wq s) : InvQ wq (warnRises s) := by
  unfold warnRises
  try dsimp -iota only
  with_reducible repeat' (first | assumption | apply dropResumes_inv | apply raisePower_inv | apply warnOne_inv | apply warnLun_inv | apply kickBus_inv | apply issueOrdered_inv | apply calWarn_inv | apply foldl_inv | simp only [InvQ.mk_state] | apply InvQ.kept | dsimp -iota only | split | intro _)

theorem warnFalls_inv {s : State} (hs : InvQ wq s) : InvQ wq (warnFalls s) := by
  unfold warnFalls
  try dsimp -iota only
  with_reducible repeat' (first | assumption | apply askReset_inv | apply kickBus_inv | apply kickAll_inv | apply bringupResume_inv | apply foldl_inv | simp only [InvQ.mk_state] | apply InvQ.kept | dsimp -iota only | intro _)

end Sys2Proof.Machine
end

