-- ==== Sys2Proof/Laws/InvRingCmds.lean ====
section
/-! SUPPORT. Every operation over the state keeps the invariant Sys2Proof.Machine.Inv: one lemma for each, in the order of
the definitions. -/

set_option linter.unusedTactic false
set_option linter.unreachableTactic false
set_option linter.unusedSimpArgs false

namespace Sys2Proof.Machine

variable {wq : List Instr}

theorem trapHk3_inv {s : State} (hs : InvQ wq s) : InvQ wq (trapHk3 s) := by
  unfold trapHk3
  try dsimp -iota only
  with_reducible repeat' (first | assumption | apply raiseTrap_inv | dsimp -iota only)

theorem takeAddr_inv {s : State} {a : Nat} (hs : InvQ wq s) : InvQ wq (takeAddr s a) := by
  unfold takeAddr
  try dsimp -iota only
  with_reducible repeat' (first | assumption | apply flag0_inv | apply wr0_inv | dsimp -iota only | split)

theorem forgetUnits_inv {s : State} (hs : InvQ wq s) : InvQ wq (forgetUnits s) := by
  unfold forgetUnits
  try dsimp -iota only
  with_reducible repeat' (first | assumption | apply wr0_inv | apply allLeave_inv | apply updPort_inv | simp only [InvQ.mk_state] | apply InvQ.kept | dsimp -iota only)

theorem commitAddr_inv {s : State} (hs : InvQ wq s) : InvQ wq (commitAddr s) := by
  unfold commitAddr
  try dsimp -iota only
  with_reducible repeat' (first | assumption | apply updPort_inv | apply takeAddr_inv | simp only [InvQ.mk_state] | apply InvQ.kept | dsimp -iota only | split)

theorem enumBegin_inv {s : State} (hs : InvQ wq s) : InvQ wq (enumBegin s) := by
  unfold enumBegin
  try dsimp -iota only
  with_reducible repeat' (first | assumption | apply freeWord_inv | (refine freeWord_inv_eq ?_ (by assumption)) | apply wr0_inv | apply setXr_inv | apply forgetUnits_inv | apply ringSend_inv | apply updPort_inv | simp only [InvQ.mk_state] | apply InvQ.kept | dsimp -iota only)

theorem portTrained_inv {s : State} (hs : InvQ wq s) : InvQ wq (portTrained s) := by
  unfold portTrained
  try dsimp -iota only
  with_reducible repeat' (first | assumption | apply enumBegin_inv | apply setXr_inv | dsimp -iota only | split)

theorem becomeMaster_inv {s : State} {elected : Bool} (hs : InvQ wq s) : InvQ wq (becomeMaster s elected) := by
  unfold becomeMaster
  try dsimp -iota only
  with_reducible repeat' (first | assumption | apply wr0_inv | apply updPort_inv | apply tally_inv | simp only [InvQ.mk_state] | apply InvQ.kept | dsimp -iota only | split)

theorem portOff_inv {s : State} (hs : InvQ wq s) : InvQ wq (portOff s) := by
  unfold portOff
  try dsimp -iota only
  with_reducible repeat' (first | assumption | apply setXr_inv | apply forgetUnits_inv | apply wr0_inv | apply updPort_inv | simp only [InvQ.mk_state] | apply InvQ.kept | dsimp -iota only)

theorem portEnable_inv {s : State} {on : Bool} (hs : InvQ wq s) : InvQ wq (portEnable s on) := by
  unfold portEnable
  try dsimp -iota only
  with_reducible repeat' (first | assumption | apply wr0_inv | apply setXr_inv | apply portOff_inv | dsimp -iota only | split)

theorem reenum_inv {s : State} (hs : InvQ wq s) : InvQ wq (reenum s) := by
  unfold reenum
  try dsimp -iota only
  with_reducible repeat' (first | assumption | apply enumBegin_inv | dsimp -iota only | split)

theorem updRx_inv {s : State} {lane : Nat} {f : RxLane → RxLane} (hs : InvQ wq s) : InvQ wq (updRx s lane f) := by
  unfold updRx
  try dsimp -iota only
  with_reducible repeat' (first | assumption | apply updPort_inv | simp only [InvQ.mk_state] | apply InvQ.kept | dsimp -iota only)

theorem laneRises_inv {s : State} {lane : Nat} (hs : InvQ wq s) : InvQ wq (laneRises s lane) := by
  unfold laneRises
  try dsimp -iota only
  with_reducible repeat' (first | assumption | apply updPort_inv | apply wr0_inv | simp only [InvQ.mk_state] | apply InvQ.kept | dsimp -iota only | split)

theorem frameSeen_inv {s : State} {lane : Nat} (hs : InvQ wq s) : InvQ wq (frameSeen s lane) := by
  unfold frameSeen
  try dsimp -iota only
  with_reducible repeat' (first | assumption | apply portTrained_inv | apply laneRises_inv | apply updRx_inv | simp only [InvQ.mk_state] | apply InvQ.kept | dsimp -iota only)

theorem execLaneUp_inv {lane : Fin 2} {s : State} (hs : InvQ wq s) : OutInv wq (execLaneUp lane s) := by
  unfold execLaneUp
  try dsimp -iota only
  with_reducible repeat' (first | assumption | apply portTrained_inv | apply laneRises_inv | apply updRx_inv | exact OutInv.fault | apply OutInv.next | simp only [InvQ.mk_state] | apply InvQ.kept | dsimp -iota only | split)

theorem laneFalls_inv {s : State} {lane : Nat} (hs : InvQ wq s) : InvQ wq (laneFalls s lane) := by
  unfold laneFalls
  try dsimp -iota only
  with_reducible repeat' (first | assumption | apply updPort_inv | apply wr0_inv | apply tally_inv | apply portTrained_inv | apply flag0_inv | simp only [InvQ.mk_state] | apply InvQ.kept | dsimp -iota only | split)

theorem laneLoses_inv {s : State} {lane : Nat} {c : LaneCause} (hs : InvQ wq s) : InvQ wq (laneLoses s lane c) := by
  unfold laneLoses
  try dsimp -iota only
  with_reducible repeat' (first | assumption | apply updRx_inv | simp only [InvQ.mk_state] | apply InvQ.kept | dsimp -iota only | split)

theorem execLaneDown_inv {fall : LaneFall} {s : State} (hs : InvQ wq s) : OutInv wq (execLaneDown fall s) := by
  unfold execLaneDown
  try dsimp -iota only
  with_reducible repeat' (first | assumption | apply lapse_inv | (refine lapse_inv_eq ?_ (by assumption)) | apply laneFalls_inv | apply laneLoses_inv | exact OutInv.fault | apply OutInv.next | dsimp -iota only | split)

theorem laneWatch_inv {s : State} (hs : InvQ wq s) : InvQ wq (laneWatch s) := by
  unfold laneWatch
  try dsimp -iota only
  with_reducible repeat' (first | assumption | apply laneFalls_inv | apply foldl_inv | dsimp -iota only | split | intro _)

theorem heal_inv {s : State} (hs : InvQ wq s) : InvQ wq (heal s) := by
  unfold heal
  try dsimp -iota only
  with_reducible repeat' (first | assumption | apply updPort_inv | apply tally_inv | apply flag0_inv | apply wr0_inv | simp only [InvQ.mk_state] | apply InvQ.kept | dsimp -iota only | split)

theorem execHealHoldExpiry_inv {s : State} (hs : InvQ wq s) : OutInv wq (execHealHoldExpiry s) := by
  unfold execHealHoldExpiry
  try dsimp -iota only
  with_reducible repeat' (first | assumption | apply lapse_inv | (refine lapse_inv_eq ?_ (by assumption)) | apply heal_inv | exact OutInv.fault | apply OutInv.next | apply foldl_inv | dsimp -iota only | split | intro _)

theorem frameIn_inv {s : State} {h : FrameHdr} {body : TxFrame} {act : State → State} (hs : InvQ wq s) (hact : ∀ s, InvQ wq s → InvQ wq (act s)) : InvQ wq (frameIn s h body act) := by
  unfold frameIn
  try dsimp -iota only
  with_reducible repeat' (first | assumption | apply hact | apply frameDrop_inv | apply updRx_inv | apply flag0_inv | apply frameSeen_inv | apply ringPass_inv | simp only [InvQ.mk_state] | apply InvQ.kept | dsimp -iota only | split | intro _)

theorem bcastIn_inv {s : State} {h : FrameHdr} {body : TxFrame} {back : State → State} {act : State → State} (hs : InvQ wq s) (hback : ∀ s, InvQ wq s → InvQ wq (back s)) (hact : ∀ s, InvQ wq s → InvQ wq (act s)) : InvQ wq (bcastIn s h body back act) := by
  unfold bcastIn
  try dsimp -iota only
  with_reducible repeat' (first | assumption | apply hback | apply hact | apply frameIn_inv | apply ringPass_inv | dsimp -iota only | split | intro _)

theorem addrIn_inv {s : State} {h : FrameHdr} {body : TxFrame} {act : State → State} (hs : InvQ wq s) (hact : ∀ s, InvQ wq s → InvQ wq (act s)) : InvQ wq (addrIn s h body act) := by
  unfold addrIn
  try dsimp -iota only
  with_reducible repeat' (first | assumption | apply hact | apply frameIn_inv | apply ringPass_inv | dsimp -iota only | split | intro _)

theorem enumHead_inv {s : State} {addr : Nat} {nonce : Nat} {count : Nat} (hs : InvQ wq s) : InvQ wq (enumHead s addr nonce count) := by
  unfold enumHead
  try dsimp -iota only
  with_reducible repeat' (first | assumption | apply flag0_inv | apply setXr_inv | apply wr0_inv | apply commitAddr_inv | apply becomeMaster_inv | apply updPort_inv | simp only [InvQ.mk_state] | apply InvQ.kept | dsimp -iota only | split)

theorem enumUnit_inv {s : State} {h : FrameHdr} {addr : Nat} {nonce : Nat} {count : Nat} (hs : InvQ wq s) : InvQ wq (enumUnit s h addr nonce count) := by
  unfold enumUnit
  try dsimp -iota only
  with_reducible repeat' (first | assumption | apply ringPass_inv | apply flag0_inv | apply setXr_inv | apply updPort_inv | apply forgetUnits_inv | apply wr0_inv | simp only [InvQ.mk_state] | apply InvQ.kept | dsimp -iota only | split)

theorem execEnumFrame_inv {h : FrameHdr} {addr : Byte} {nonce : BitVec 16} {count : Byte} {s : State} (hs : InvQ wq s) : OutInv wq (execEnumFrame h addr nonce count s) := by
  unfold execEnumFrame
  try dsimp -iota only
  with_reducible repeat' (first | assumption | apply frameIn_inv | apply ringPass_inv | apply enumHead_inv | apply trapHk3_inv | apply enumUnit_inv | exact OutInv.fault | apply OutInv.next | dsimp -iota only | split | intro _)

theorem mapIn_inv {s : State} {m : Nat} {k : Nat} (hs : InvQ wq s) : InvQ wq (mapIn s m k) := by
  unfold mapIn
  try dsimp -iota only
  with_reducible repeat' (first | assumption | apply updPort_inv | apply setPresent_inv | simp only [InvQ.mk_state] | apply InvQ.kept | dsimp -iota only)

theorem slews_inv {s : State} (hs : InvQ wq s) : InvQ wq (slews s) := by
  unfold slews
  try dsimp -iota only
  with_reducible repeat' (first | assumption | apply wr0_inv | apply flag0_inv | dsimp -iota only)

theorem follow_inv {s : State} {m : Nat} {slew : Bool} {judge : Bool} (hs : InvQ wq s) : InvQ wq (follow s m slew judge) := by
  unfold follow
  try dsimp -iota only
  with_reducible repeat' (first | assumption | apply wr0_inv | apply updLedger_inv | apply updPort_inv | apply slews_inv | simp only [InvQ.mk_state] | apply InvQ.kept | dsimp -iota only | split)

theorem hearMaster_inv {s : State} {m : Nat} {old : Nat} (hs : InvQ wq s) : InvQ wq (hearMaster s m old) := by
  unfold hearMaster
  try dsimp -iota only
  with_reducible repeat' (first | assumption | apply wr0_inv | apply setXr_inv | apply updPort_inv | apply follow_inv | simp only [InvQ.mk_state] | apply InvQ.kept | dsimp -iota only | split)

theorem hearStart_inv {s : State} (hs : InvQ wq s) : InvQ wq (hearStart s) := by
  unfold hearStart
  try dsimp -iota only
  with_reducible repeat' (first | assumption | apply wr0_inv | apply updPort_inv | apply updLedger_inv | simp only [InvQ.mk_state] | apply InvQ.kept | dsimp -iota only | split)

theorem hearExchange_inv {s : State} {n : Nat} (hs : InvQ wq s) : InvQ wq (hearExchange s n).2 := by
  unfold hearExchange
  try dsimp -iota only
  with_reducible repeat' (first | assumption | apply flag0_inv | apply exchangePart_inv | (refine exchangePart_inv_eq ?_ (by assumption)) | apply updPort_inv | apply updLedger_inv | simp only [InvQ.mk_state] | apply InvQ.kept | dsimp -iota only | split)
theorem hearExchange_inv_eq {s : State} {n : Nat} (hs : InvQ wq s) {a₁ : _} {t : State} (e : hearExchange s n = (a₁, t)) : InvQ wq t := by
  have := hearExchange_inv (s := s) (n := n) hs
  rw [e] at this
  exact this

theorem presencePass_inv {s : State} {h : FrameHdr} {p : Presence} (hs : InvQ wq s) : InvQ wq (presencePass s h p) := by
  unfold presencePass
  try dsimp -iota only
  with_reducible repeat' (first | assumption | apply commitAddr_inv | apply hearMaster_inv | apply mapIn_inv | apply updLedger_inv | apply hearStart_inv | apply hearExchange_inv | (refine hearExchange_inv_eq ?_ (by assumption)) | apply ringPass_inv | simp only [InvQ.mk_state] | apply InvQ.kept | dsimp -iota only | split)

theorem allotRun_inv {s : State} {p : Presence} (hs : InvQ wq s) : InvQ wq (allotRun s p) := by
  unfold allotRun
  try dsimp -iota only
  with_reducible repeat' (first | assumption | apply ringSend_inv | apply wr0_inv | apply takeAllot_inv | apply foldl_inv | apply foldl_inv_snd | apply foldl_inv_thd | dsimp -iota only | intro _)

theorem presenceBack_inv {s : State} {p : Presence} (hs : InvQ wq s) : InvQ wq (presenceBack s p) := by
  unfold presenceBack
  try dsimp -iota only
  with_reducible repeat' (first | assumption | apply mapIn_inv | apply becomeMaster_inv | apply allotRun_inv | dsimp -iota only | split)

theorem foldHeard_inv {s : State} {lane : Nat} (hs : InvQ wq s) : InvQ wq (foldHeard s lane) := by
  unfold foldHeard
  try dsimp -iota only
  with_reducible repeat' (first | assumption | apply updPort_inv | simp only [InvQ.mk_state] | apply InvQ.kept | dsimp -iota only | split)

theorem execPresenceFrame_inv {h : FrameHdr} {p : Presence} {s : State} (hs : InvQ wq s) : OutInv wq (execPresenceFrame h p s) := by
  unfold execPresenceFrame
  try dsimp -iota only
  with_reducible repeat' (first | assumption | apply frameIn_inv | apply foldHeard_inv | apply ringPass_inv | apply presenceBack_inv | apply trapHk3_inv | apply presencePass_inv | exact OutInv.fault | apply OutInv.next | dsimp -iota only | split | intro _)

theorem sendPresence_inv {s : State} {exch : Option (Nat × Nat × Nat)} (hs : InvQ wq s) : InvQ wq (sendPresence s exch) := by
  unfold sendPresence
  try dsimp -iota only
  with_reducible repeat' (first | assumption | apply updPort_inv | apply ringSend_inv | simp only [InvQ.mk_state] | apply InvQ.kept | dsimp -iota only)

theorem execPresenceSendTick_inv {s : State} (hs : InvQ wq s) : OutInv wq (execPresenceSendTick s) := by
  unfold execPresenceSendTick
  try dsimp -iota only
  with_reducible repeat' (first | assumption | apply sendPresence_inv | exact OutInv.fault | apply OutInv.next | dsimp -iota only | split)

theorem execMasterLost_inv {s : State} (hs : InvQ wq s) : OutInv wq (execMasterLost s) := by
  unfold execMasterLost
  try dsimp -iota only
  with_reducible repeat' (first | assumption | apply lapse_inv | (refine lapse_inv_eq ?_ (by assumption)) | apply updPort_inv | exact OutInv.fault | apply OutInv.next | simp only [InvQ.mk_state] | apply InvQ.kept | dsimp -iota only | split)

theorem ringStart_inv {s : State} (hs : InvQ wq s) : InvQ wq (ringStart s) := by
  unfold ringStart
  try dsimp -iota only
  with_reducible repeat' (first | assumption | apply freeWord_inv | (refine freeWord_inv_eq ?_ (by assumption)) | apply freeBit_inv | (refine freeBit_inv_eq ?_ (by assumption)) | apply flag0_inv | apply wr0_inv | apply updPort_inv | apply updLedger_inv | simp only [InvQ.mk_state] | apply InvQ.kept | dsimp -iota only | split)

theorem execLedgerExchangeTick_inv {s : State} (hs : InvQ wq s) : OutInv wq (execLedgerExchangeTick s) := by
  unfold execLedgerExchangeTick
  try dsimp -iota only
  with_reducible repeat' (first | assumption | apply reach_inv | (refine reach_inv_eq ?_ (by assumption)) | apply flag0_inv | apply exchangePart_inv | (refine exchangePart_inv_eq ?_ (by assumption)) | apply updPort_inv | apply updLedger_inv | apply sendPresence_inv | exact OutInv.fault | apply OutInv.next | simp only [InvQ.mk_state] | apply InvQ.kept | dsimp -iota only | split)

theorem execAllotFrame_inv {h : FrameHdr} {exch : BitVec 16} {allot : List (BitVec 16)} {s : State} (hs : InvQ wq s) : OutInv wq (execAllotFrame h exch allot s) := by
  unfold execAllotFrame
  try dsimp -iota only
  with_reducible repeat' (first | assumption | apply bcastIn_inv | apply takeAllot_inv | apply ringPass_inv | apply trapHk3_inv | exact OutInv.fault | apply OutInv.next | dsimp -iota only | split | intro _)

theorem execTimeExchangeTick_inv {s : State} (hs : InvQ wq s) : OutInv wq (execTimeExchangeTick s) := by
  unfold execTimeExchangeTick
  try dsimp -iota only
  with_reducible repeat' (first | assumption | apply updPort_inv | apply ringSend_inv | exact OutInv.fault | apply OutInv.next | simp only [InvQ.mk_state] | apply InvQ.kept | dsimp -iota only | split)

theorem execTimeReqFrame_inv {h : FrameHdr} {s : State} (hs : InvQ wq s) : OutInv wq (execTimeReqFrame h s) := by
  unfold execTimeReqFrame
  try dsimp -iota only
  with_reducible repeat' (first | assumption | apply frameIn_inv | apply ringSend_inv | apply trapHk3_inv | exact OutInv.fault | apply OutInv.next | dsimp -iota only | intro _)

theorem stepTime_inv {s : State} {d : Int} (hs : InvQ wq s) : InvQ wq (stepTime s d) := by
  unfold stepTime
  apply retime_inv
  apply updPort_inv
  refine ⟨hs.mem, ?_, hs.rdCred, hs.wrCred, hs.ids, hs.aon, hs.queue⟩
  show (((s.tb : Int) + d) % 2 ^ 80).toNat < 2 ^ 80
  have h1 : ((s.tb : Int) + d) % 2 ^ 80 < 2 ^ 80 := Int.emod_lt_of_pos _ (by decide)
  have h2 : 0 ≤ ((s.tb : Int) + d) % 2 ^ 80 := Int.emod_nonneg _ (by decide)
  omega


theorem freeCorr_inv {s : State} (hs : InvQ wq s) : InvQ wq (freeCorr s) := by
  unfold freeCorr
  try dsimp -iota only
  with_reducible repeat' (first | assumption | apply freeWord_inv | (refine freeWord_inv_eq ?_ (by assumption)) | apply updPort_inv | simp only [InvQ.mk_state] | apply InvQ.kept | dsimp -iota only)

theorem measured_inv {s : State} {off : Int} (hs : InvQ wq s) : InvQ wq (measured s off) := by
  unfold measured
  try dsimp -iota only
  with_reducible repeat' (first | assumption | apply updPort_inv | apply slews_inv | apply wr0_inv | apply freeCorr_inv | simp only [InvQ.mk_state] | apply InvQ.kept | dsimp -iota only | split)

theorem joinStep_inv {s : State} {theta : Int} (hs : InvQ wq s) : InvQ wq (joinStep s theta) := by
  unfold joinStep
  try dsimp -iota only
  with_reducible repeat' (first | assumption | apply stepTime_inv | apply updPort_inv | simp only [InvQ.mk_state] | apply InvQ.kept | dsimp -iota only | split)

theorem timeRsp_inv {s : State} {hop : Nat} {t2 : BitVec 80} {t3 : BitVec 40} {poff : Int} {dist : Nat} (hs : InvQ wq s) : InvQ wq (timeRsp s hop t2 t3 poff dist) := by
  unfold timeRsp
  try dsimp -iota only
  with_reducible repeat' (first | assumption | apply updPort_inv | apply wr0_inv | apply stepTime_inv | apply joinStep_inv | apply measured_inv | simp only [InvQ.mk_state] | apply InvQ.kept | dsimp -iota only | split)

theorem execTimeRspFrame_inv {h : FrameHdr} {t2 : BitVec 80} {t3 : BitVec 40} {offset : W64} {dist : Byte} {s : State} (hs : InvQ wq s) : OutInv wq (execTimeRspFrame h t2 t3 offset dist s) := by
  unfold execTimeRspFrame
  try dsimp -iota only
  with_reducible repeat' (first | assumption | apply frameIn_inv | apply timeRsp_inv | apply trapHk3_inv | exact OutInv.fault | apply OutInv.next | dsimp -iota only | intro _)

theorem execStepFrame_inv {h : FrameHdr} {step : W64} {s : State} (hs : InvQ wq s) : OutInv wq (execStepFrame h step s) := by
  unfold execStepFrame
  try dsimp -iota only
  with_reducible repeat' (first | assumption | apply bcastIn_inv | apply updPort_inv | apply ringPass_inv | apply trapHk3_inv | exact OutInv.fault | apply OutInv.next | simp only [InvQ.mk_state] | apply InvQ.kept | dsimp -iota only | split | intro _)

theorem bcastTake_inv {s : State} {p : Packet} (hs : InvQ wq s) : InvQ wq (bcastTake s p) := by
  unfold bcastTake
  try dsimp -iota only
  with_reducible repeat' (first | assumption | apply effectNow_inv | apply updPort_inv | simp only [InvQ.mk_state] | apply InvQ.kept | dsimp -iota only | split)

theorem execBcastFrame_inv {h : FrameHdr} {p : Packet} {s : State} (hs : InvQ wq s) : OutInv wq (execBcastFrame h p s) := by
  unfold execBcastFrame
  try dsimp -iota only
  with_reducible repeat' (first | assumption | apply bcastIn_inv | apply ringPass_inv | apply bcastTake_inv | apply trapHk3_inv | exact OutInv.fault | apply OutInv.next | dsimp -iota only | split | intro _)

theorem execBcastTickApply_inv {i : Nat} {s : State} (hs : InvQ wq s) : OutInv wq (execBcastTickApply i s) := by
  unfold execBcastTickApply
  try dsimp -iota only
  with_reducible repeat' (first | assumption | apply reach_inv | (refine reach_inv_eq ?_ (by assumption)) | apply effectNow_inv | apply updPort_inv | exact OutInv.fault | apply OutInv.next | simp only [InvQ.mk_state] | apply InvQ.kept | dsimp -iota only | split)

theorem execFwdPktFrame_inv {h : FrameHdr} {p : Packet} {handle : W32} {level : BitVec 2} {s : State} (hs : InvQ wq s) : OutInv wq (execFwdPktFrame h p handle level s) := by
  unfold execFwdPktFrame
  try dsimp -iota only
  with_reducible repeat' (first | assumption | apply addrIn_inv | apply trapHk3_inv | apply updPort_inv | apply seqTaken_inv | apply ringSend_inv | exact OutInv.fault | apply OutInv.next | simp only [InvQ.mk_state] | apply InvQ.kept | dsimp -iota only | split | intro _)

theorem execIntakeToTeller_inv {s : State} (hs : InvQ wq s) : OutInv wq (execIntakeToTeller s) := by
  unfold execIntakeToTeller
  try dsimp -iota only
  with_reducible repeat' (first | assumption | apply addItem_inv | apply updPort_inv | apply execute_inv | apply ringSend_inv | apply tally_inv | exact OutInv.fault | apply OutInv.next | simp only [InvQ.mk_state] | apply InvQ.kept | dsimp -iota only | split)

theorem execFwdAckFrame_inv {h : FrameHdr} {handle : W32} {s : State} (hs : InvQ wq s) : OutInv wq (execFwdAckFrame h handle s) := by
  unfold execFwdAckFrame
  try dsimp -iota only
  with_reducible repeat' (first | assumption | apply addrIn_inv | apply trapHk3_inv | apply updFwd_inv | apply sendForwards_inv | apply setCredits_inv | exact OutInv.fault | apply OutInv.next | simp only [InvQ.mk_state] | apply InvQ.kept | dsimp -iota only | split | intro _)

theorem forwardEnds_inv {s : State} {w : FwdOut} {it : Item} {b : List Byte} (hs : InvQ wq s) : InvQ wq (forwardEnds s w it b) := by
  unfold forwardEnds
  try dsimp -iota only
  with_reducible repeat' (first | assumption | apply updPort_inv | apply setCredits_inv | apply tallyC_inv | apply dropItem_inv | apply cleanup_inv | apply sendForwards_inv | apply holdPut_inv | simp only [InvQ.mk_state] | apply InvQ.kept | dsimp -iota only | split)

theorem execFwdRcptFrame_inv {h : FrameHdr} {handle : W32} {rcpt : List Byte} {s : State} (hs : InvQ wq s) : OutInv wq (execFwdRcptFrame h handle rcpt s) := by
  unfold execFwdRcptFrame
  try dsimp -iota only
  with_reducible repeat' (first | assumption | apply addrIn_inv | apply trapHk3_inv | apply ringSend_inv | apply seqTaken_inv | apply forwardEnds_inv | apply tally_inv | exact OutInv.fault | apply OutInv.next | dsimp -iota only | split | intro _)

theorem execRcptAckFrame_inv {h : FrameHdr} {handle : W32} {s : State} (hs : InvQ wq s) : OutInv wq (execRcptAckFrame h handle s) := by
  unfold execRcptAckFrame
  try dsimp -iota only
  with_reducible repeat' (first | assumption | apply addrIn_inv | apply updPort_inv | apply trapHk3_inv | exact OutInv.fault | apply OutInv.next | simp only [InvQ.mk_state] | apply InvQ.kept | dsimp -iota only | intro _)

theorem resendFwd_inv {s : State} {w : FwdOut} {it : Item} (hs : InvQ wq s) : InvQ wq (resendFwd s w it) := by
  unfold resendFwd
  try dsimp -iota only
  with_reducible repeat' (first | assumption | apply tally_inv | apply ringSend_inv | apply updFwd_inv | simp only [InvQ.mk_state] | apply InvQ.kept | dsimp -iota only)

theorem resendRcpt_inv {s : State} {x : RcptOut} (hs : InvQ wq s) : InvQ wq (resendRcpt s x) := by
  unfold resendRcpt
  try dsimp -iota only
  with_reducible repeat' (first | assumption | apply tally_inv | apply ringSend_inv | apply updPort_inv | simp only [InvQ.mk_state] | apply InvQ.kept | dsimp -iota only | split)

theorem execFwdRetransmitExpiry_inv {handle : W32} {s : State} (hs : InvQ wq s) : OutInv wq (execFwdRetransmitExpiry handle s) := by
  unfold execFwdRetransmitExpiry
  try dsimp -iota only
  with_reducible repeat' (first | assumption | apply resendFwd_inv | apply lapse_inv | (refine lapse_inv_eq ?_ (by assumption)) | apply resendRcpt_inv | exact OutInv.fault | apply OutInv.next | dsimp -iota only | split)

end Sys2Proof.Machine
end

