-- ==== Sys2Proof/Laws/InvReads.lean ====
section
/-! SUPPORT. Every operation over the state keeps the invariant Sys2Proof.Machine.Inv: one lemma for each, in the order of
the definitions. -/

set_option linter.unusedTactic false
set_option linter.unreachableTactic false
set_option linter.unusedSimpArgs false

namespace Sys2Proof.Machine

variable {wq : List Instr}

theorem readEffect_inv {s : State} {r : Reg} (hs : InvQ wq s) : InvQ wq (readEffect s r) := by
  unfold readEffect
  try dsimp -iota only
  with_reducible repeat' (first | assumption | apply wr0_inv | apply irqClaim_inv | (refine irqClaim_inv_eq ?_ (by assumption)) | dsimp -iota only | split)

theorem fifoPop_inv {s : State} {ch : Nat} {f : Nat} (hs : InvQ wq s) : InvQ wq (fifoPop s ch f).2 := by
  unfold fifoPop
  try dsimp -iota only
  with_reducible repeat' (first | assumption | apply wr_inv | apply updFifo_inv | simp only [InvQ.mk_state] | apply InvQ.kept | dsimp -iota only | split)
theorem fifoPop_inv_eq {s : State} {ch : Nat} {f : Nat} (hs : InvQ wq s) {a₁ : _} {t : State} (e : fifoPop s ch f = (a₁, t)) : InvQ wq t := by
  have := fifoPop_inv (s := s) (ch := ch) (f := f) hs
  rw [e] at this
  exact this

theorem readAll_inv {s : State} {r : Reg} (hs : InvQ wq s) : InvQ wq (readAll s r).2 := by
  unfold readAll
  try dsimp -iota only
  with_reducible repeat' (first | assumption | apply freeWord_inv | (refine freeWord_inv_eq ?_ (by assumption)) | apply fifoPop_inv | (refine fifoPop_inv_eq ?_ (by assumption)) | apply readEffect_inv | dsimp -iota only | split)
theorem readAll_inv_eq {s : State} {r : Reg} (hs : InvQ wq s) {a₁ : _} {t : State} (e : readAll s r = (a₁, t)) : InvQ wq t := by
  have := readAll_inv (s := s) (r := r) hs
  rw [e] at this
  exact this

end Sys2Proof.Machine
end

