-- ==== Sys2Proof/Laws/InvSharedWrites.lean ====
section
/-! SUPPORT. Every operation over the state keeps the invariant Sys2Proof.Machine.Inv: one lemma for each, in the order of
the definitions. -/

set_option linter.unusedTactic false
set_option linter.unreachableTactic false
set_option linter.unusedSimpArgs false

namespace Sys2Proof.Machine

variable {wq : List Instr}

theorem RegWrite.plain_inv {w : RegWrite} {s : State} (hs : InvQ wq s) : InvQ wq (RegWrite.plain w s) := by
  unfold RegWrite.plain
  try dsimp -iota only
  with_reducible repeat' (first | assumption | apply setR_inv | dsimp -iota only)

theorem writeSnap_inv {s : State} {w : RegWrite} (hs : InvQ wq s) : InvQ wq (writeSnap s w) := by
  unfold writeSnap
  try dsimp -iota only
  with_reducible repeat' (first | assumption | apply RegWrite.plain_inv | apply tallySnapshot_inv | dsimp -iota only | split)

theorem writeBudget_inv {s : State} {w : RegWrite} (hs : InvQ wq s) : InvQ wq (writeBudget s w) := by
  unfold writeBudget
  try dsimp -iota only
  with_reducible repeat' (first | assumption | apply setVccAlt_inv | apply RegWrite.plain_inv | dsimp -iota only | split)

theorem writeLgCtl_inv {s : State} {w : RegWrite} (hs : InvQ wq s) : InvQ wq (writeLgCtl s w) := by
  unfold writeLgCtl
  try dsimp -iota only
  with_reducible repeat' (first | assumption | apply RegWrite.plain_inv | apply altChange_inv | dsimp -iota only | split)

theorem writeLgRing_inv {s : State} {w : RegWrite} (hs : InvQ wq s) : InvQ wq (writeLgRing s w) := by
  unfold writeLgRing
  try dsimp -iota only
  with_reducible repeat' (first | assumption | apply RegWrite.plain_inv | apply ringStart_inv | dsimp -iota only | split)

theorem writeTbSet_inv {s : State} {w : RegWrite} (hs : InvQ wq s) : InvQ wq (writeTbSet s w) := by
  unfold writeTbSet
  try dsimp -iota only
  with_reducible repeat' (first | assumption | apply flag0_inv | simp only [InvQ.mk_state] | apply InvQ.kept | dsimp -iota only | split)

theorem writeXrCtl_inv {s : State} {w : RegWrite} (hs : InvQ wq s) : InvQ wq (writeXrCtl s w) := by
  unfold writeXrCtl
  try dsimp -iota only
  with_reducible repeat' (first | assumption | apply RegWrite.plain_inv | apply portEnable_inv | apply reenum_inv | dsimp -iota only | split)

theorem sharedWrite_inv {s : State} {w : RegWrite} (hs : InvQ wq s) : InvQ wq (sharedWrite s w) := by
  unfold sharedWrite
  try dsimp -iota only
  with_reducible repeat' (first | assumption | apply irqSrcWrite_inv | apply irqComplete_inv | apply writeSnap_inv | apply writeBudget_inv | apply writeLgCtl_inv | apply writeLgRing_inv | apply writeTbSet_inv | apply writeXrCtl_inv | apply RegWrite.plain_inv | dsimp -iota only | split)

end Sys2Proof.Machine
end

