-- ==== Sys2Proof/Laws/InvAnswer.lean ====
section
/-! SUPPORT. Every operation over the state keeps the invariant Sys2Proof.Machine.Inv: one lemma for each, in the order of
the definitions. -/

set_option linter.unusedTactic false
set_option linter.unreachableTactic false
set_option linter.unusedSimpArgs false

namespace Sys2Proof.Machine

variable {wq : List Instr}

theorem tgtLogErr_inv {s : State} {q : HostAccess} {code : Nat} (hs : InvQ wq s) : InvQ wq (tgtLogErr s q code) := by
  unfold tgtLogErr
  try dsimp -iota only
  with_reducible repeat' (first | assumption | apply wr0_inv | apply flag0_inv | apply addSat_inv | apply foldl_inv | apply foldl_inv_snd | apply foldl_inv_thd | dsimp -iota only | split | intro _)

theorem putRsp_inv {s : State} {sl : RspSlot} {r : TgtRsp} (hs : InvQ wq s) : InvQ wq (putRsp s sl r) := by
  unfold putRsp
  try dsimp -iota only
  with_reducible repeat' (first | assumption | simp only [InvQ.mk_state] | apply InvQ.kept | dsimp -iota only | split)

theorem answer_inv {s : State} {q : HostAccess} {sl : RspSlot} {err : Nat} {data : optParam W64 0} {poison : optParam Bool Bool.false} (hs : InvQ wq s) : InvQ wq (answer s q sl err data poison) := by
  unfold answer
  try dsimp -iota only
  with_reducible repeat' (first | assumption | apply tgtLogErr_inv | apply putRsp_inv | simp only [InvQ.mk_state] | apply InvQ.kept | dsimp -iota only | split)

theorem holdRsp_inv {s : State} (hs : InvQ wq s) : InvQ wq (holdRsp s).2 := by
  unfold holdRsp
  try dsimp -iota only
  with_reducible repeat' (first | assumption | simp only [InvQ.mk_state] | apply InvQ.kept | dsimp -iota only)
theorem holdRsp_inv_eq {s : State} (hs : InvQ wq s) {a₁ : _} {t : State} (e : holdRsp s = (a₁, t)) : InvQ wq t := by
  have := holdRsp_inv (s := s) hs
  rw [e] at this
  exact this

theorem fixedFetch_inv {s : State} {late : Bool} (hs : InvQ wq s) : InvQ wq (fixedFetch s late) := by
  unfold fixedFetch
  try dsimp -iota only
  with_reducible repeat' (first | assumption | apply coreMhz_inv | (refine coreMhz_inv_eq ?_ (by assumption)) | apply flag0_inv | apply freeBit_inv | (refine freeBit_inv_eq ?_ (by assumption)) | dsimp -iota only | split)

theorem windowAnswer_inv {s : State} {q : HostAccess} {sl : RspSlot} (hs : InvQ wq s) : InvQ wq (windowAnswer s q sl) := by
  unfold windowAnswer
  try dsimp -iota only
  with_reducible repeat' (first | assumption | apply answer_inv | apply fixedFetch_inv | apply readLine_inv | dsimp -iota only | split)

theorem windowHold_inv {s : State} {q : HostAccess} {i : Nat} (hs : InvQ wq s) : InvQ wq (windowHold s q i) := by
  unfold windowHold
  try dsimp -iota only
  with_reducible repeat' (first | assumption | simp only [InvQ.mk_state] | apply InvQ.kept | dsimp -iota only)

theorem windowAccess_inv {s : State} {q : HostAccess} (hs : InvQ wq s) : InvQ wq (windowAccess s q) := by
  unfold windowAccess
  try dsimp -iota only
  with_reducible repeat' (first | assumption | apply holdRsp_inv | (refine holdRsp_inv_eq ?_ (by assumption)) | apply windowHold_inv | apply windowAnswer_inv | dsimp -iota only | split)

theorem windowRelease_inv {s : State} (hs : InvQ wq s) : InvQ wq (windowRelease s) := by
  unfold windowRelease
  try dsimp -iota only
  with_reducible repeat' (first | assumption | apply windowAnswer_inv | apply foldl_inv | apply foldl_inv_snd | apply foldl_inv_thd | simp only [InvQ.mk_state] | apply InvQ.kept | dsimp -iota only | intro _)

theorem windowFail_inv {s : State} (hs : InvQ wq s) : InvQ wq (windowFail s) := by
  unfold windowFail
  try dsimp -iota only
  with_reducible repeat' (first | assumption | apply answer_inv | apply foldl_inv | apply foldl_inv_snd | apply foldl_inv_thd | simp only [InvQ.mk_state] | apply InvQ.kept | dsimp -iota only | intro _)

end Sys2Proof.Machine
end

