-- ==== Sys2Proof/Laws/InvOwner.lean ====
section
/-! SUPPORT. Every operation over the state keeps the invariant Sys2Proof.Machine.Inv: one lemma for each, in the order of
the definitions. -/

set_option linter.unusedTactic false
set_option linter.unreachableTactic false
set_option linter.unusedSimpArgs false

namespace Sys2Proof.Machine

variable {wq : List Instr}

theorem highHalf_inv {s : State} {rid : Nat} {g : Nat} (hs : InvQ wq s) : InvQ wq (highHalf s rid g).2 := by
  unfold highHalf
  try dsimp -iota only
  with_reducible repeat' (first | assumption | apply freeWord_inv | (refine freeWord_inv_eq ?_ (by assumption)) | dsimp -iota only | split)
theorem highHalf_inv_eq {s : State} {rid : Nat} {g : Nat} (hs : InvQ wq s) {a₁ : _} {t : State} (e : highHalf s rid g = (a₁, t)) : InvQ wq t := by
  have := highHalf_inv (s := s) (rid := rid) (g := g) hs
  rw [e] at this
  exact this

theorem readPart_inv {s : State} {q : HostAccess} {t' : Reg × Part} (hs : InvQ wq s) : InvQ wq (readPart s q t').2 := by
  unfold readPart
  try dsimp -iota only
  with_reducible repeat' (first | assumption | apply readAll_inv | (refine readAll_inv_eq ?_ (by assumption)) | apply highHalf_inv | (refine highHalf_inv_eq ?_ (by assumption)) | simp only [InvQ.mk_state] | apply InvQ.kept | dsimp -iota only | split)
theorem readPart_inv_eq {s : State} {q : HostAccess} {t' : Reg × Part} (hs : InvQ wq s) {a₁ : _} {t : State} (e : readPart s q t' = (a₁, t)) : InvQ wq t := by
  have := readPart_inv (s := s) (q := q) (t' := t') hs
  rw [e] at this
  exact this

theorem readAccess_inv {s : State} {q : HostAccess} (hs : InvQ wq s) : InvQ wq (readAccess s q).2 := by
  unfold readAccess
  try dsimp -iota only
  with_reducible repeat' (first | assumption | apply readPart_inv | (refine readPart_inv_eq ?_ (by assumption)) | apply foldl_inv | apply foldl_inv_snd | apply foldl_inv_thd | dsimp -iota only | intro _)
theorem readAccess_inv_eq {s : State} {q : HostAccess} (hs : InvQ wq s) {a₁ : _} {t : State} (e : readAccess s q = (a₁, t)) : InvQ wq t := by
  have := readAccess_inv (s := s) (q := q) hs
  rw [e] at this
  exact this

theorem sharedAccess_inv {s : State} {q : HostAccess} {sl : RspSlot} (hs : InvQ wq s) : InvQ wq (sharedAccess s q sl) := by
  unfold sharedAccess
  try dsimp -iota only
  with_reducible repeat' (first | assumption | apply answer_inv | apply sharedWrite_inv | apply readAccess_inv | (refine readAccess_inv_eq ?_ (by assumption)) | apply foldl_inv | dsimp -iota only | split | intro _)

theorem applyHeldOne_inv {s : State} {h : HeldReq} (hs : InvQ wq s) : InvQ wq (applyHeldOne s h) := by
  unfold applyHeldOne
  try dsimp -iota only
  with_reducible repeat' (first | assumption | apply sharedAccess_inv | apply effectEnds_inv | apply packetEffect_inv | simp only [InvQ.mk_state] | apply InvQ.kept | dsimp -iota only | split)

theorem applyHeld_inv {s : State} (hs : InvQ wq s) : InvQ wq (applyHeld s) := by
  unfold applyHeld
  try dsimp -iota only
  with_reducible repeat' (first | assumption | apply applyHeldOne_inv | apply foldl_inv | simp only [InvQ.mk_state] | apply InvQ.kept | dsimp -iota only | intro _)

theorem holdAccess_inv {s : State} {q : HostAccess} (hs : InvQ wq s) : InvQ wq (holdAccess s q) := by
  unfold holdAccess
  try dsimp -iota only
  with_reducible repeat' (first | assumption | apply answer_inv | apply holdRsp_inv | (refine holdRsp_inv_eq ?_ (by assumption)) | simp only [InvQ.mk_state] | apply InvQ.kept | dsimp -iota only | split)

theorem failHeld_inv {s : State} (hs : InvQ wq s) : InvQ wq (failHeld s) := by
  unfold failHeld
  try dsimp -iota only
  with_reducible repeat' (first | assumption | apply answer_inv | apply foldl_inv | simp only [InvQ.mk_state] | apply InvQ.kept | dsimp -iota only | split | intro _)

theorem raiseHandover_inv {s : State} (hs : InvQ wq s) : InvQ wq (raiseHandover s) := by
  unfold raiseHandover
  try dsimp -iota only
  with_reducible repeat' (first | assumption | apply raiseTeller_inv | apply foldl_inv | dsimp -iota only | intro _)

theorem setOwner_inv {s : State} {h : Nat} (hs : InvQ wq s) : InvQ wq (setOwner s h) := by
  unfold setOwner
  try dsimp -iota only
  with_reducible repeat' (first | assumption | apply raiseHandover_inv | apply wr0_inv | dsimp -iota only)

theorem endHandover_inv {s : State} (hs : InvQ wq s) : InvQ wq (endHandover s) := by
  unfold endHandover
  try dsimp -iota only
  with_reducible repeat' (first | assumption | apply wr0_inv | simp only [InvQ.mk_state] | apply InvQ.kept | dsimp -iota only)

theorem refuseHandover_inv {s : State} (hs : InvQ wq s) : InvQ wq (refuseHandover s) := by
  unfold refuseHandover
  try dsimp -iota only
  with_reducible repeat' (first | assumption | apply flag0_inv | apply endHandover_inv | dsimp -iota only)

theorem handoverAsked_inv {s : State} (hs : InvQ wq s) : InvQ wq (handoverAsked s) := by
  unfold handoverAsked
  try dsimp -iota only
  with_reducible repeat' (first | assumption | apply flag0_inv | apply wr0_inv | simp only [InvQ.mk_state] | apply InvQ.kept | dsimp -iota only | split)

theorem yields_inv {s : State} {f : Fld} {h : Nat} (hs : InvQ wq s) : InvQ wq (yields s f h) := by
  unfold yields
  try dsimp -iota only
  with_reducible repeat' (first | assumption | apply wr0_inv | apply flag0_inv | dsimp -iota only)

theorem invertOwner_inv {s : State} (hs : InvQ wq s) : InvQ wq (invertOwner s) := by
  unfold invertOwner
  try dsimp -iota only
  with_reducible repeat' (first | assumption | apply yields_inv | apply applyHeld_inv | apply endHandover_inv | apply setOwner_inv | dsimp -iota only | split)

theorem execHandoverInvert_inv {s : State} (hs : InvQ wq s) : OutInv wq (execHandoverInvert s) := by
  unfold execHandoverInvert
  try dsimp -iota only
  with_reducible repeat' (first | assumption | apply invertOwner_inv | exact OutInv.fault | apply OutInv.next | dsimp -iota only | split)

theorem ownerAfterStop_inv {s : State} {h : Nat} (hs : InvQ wq s) : InvQ wq (ownerAfterStop s h) := by
  unfold ownerAfterStop
  try dsimp -iota only
  with_reducible repeat' (first | assumption | apply refuseHandover_inv | apply applyHeld_inv | apply yields_inv | apply setOwner_inv | simp only [InvQ.mk_state] | apply InvQ.kept | dsimp -iota only | split)

theorem dropFetches_inv {s : State} {h : Nat} (hs : InvQ wq s) : InvQ wq (dropFetches s h) := by
  unfold dropFetches
  try dsimp -iota only
  with_reducible repeat' (first | assumption | apply dropFetch_inv | apply foldl_inv | dsimp -iota only | split | intro _)

theorem feStop_inv {s : State} {h : Nat} (hs : InvQ wq s) : InvQ wq (feStop s h) := by
  unfold feStop
  try dsimp -iota only
  with_reducible repeat' (first | assumption | apply ownerAfterStop_inv | apply dcStop_inv | apply dropFetches_inv | apply wr0_inv | dsimp -iota only | split)

theorem ownerAfterUp_inv {s : State} {h : Nat} (hs : InvQ wq s) : InvQ wq (ownerAfterUp s h) := by
  unfold ownerAfterUp
  try dsimp -iota only
  with_reducible repeat' (first | assumption | apply wr0_inv | apply applyHeld_inv | apply setOwner_inv | apply freeBit_inv | (refine freeBit_inv_eq ?_ (by assumption)) | simp only [InvQ.mk_state] | apply InvQ.kept | dsimp -iota only | split)

theorem feBecomesUp_inv {s : State} {h : Nat} (hs : InvQ wq s) : InvQ wq (feBecomesUp s h) := by
  unfold feBecomesUp
  try dsimp -iota only
  with_reducible repeat' (first | assumption | apply tellerResume_inv | apply hiPump_inv | apply ownerAfterUp_inv | apply kickFetch_inv | apply foldl_inv | dsimp -iota only | split | intro _)

theorem setFeFences_inv {s : State} {a : Bool} {b : Bool} (hs : InvQ wq s) : InvQ wq (setFeFences s a b) := by
  unfold setFeFences
  try dsimp -iota only
  with_reducible repeat' (first | assumption | apply flag0_inv | apply feStop_inv | apply wr0_inv | apply raiseTeller_inv | apply feBecomesUp_inv | apply foldl_inv | dsimp -iota only | split | intro _)

end Sys2Proof.Machine
end

