-- ==== Sys2Proof/Laws/InvDomains.lean ====
section
/-! SUPPORT. Every operation over the state keeps the invariant Sys2Proof.Machine.Inv: one lemma for each, in the order of
the definitions. -/

set_option linter.unusedTactic false
set_option linter.unreachableTactic false
set_option linter.unusedSimpArgs false

namespace Sys2Proof.Machine

variable {wq : List Instr}

theorem updPower_inv {s : State} {f : Power → Power} (hs : InvQ wq s) (hf : ∀ p, (f p).pswEn = p.pswEn) : InvQ wq (updPower s f) :=
  ⟨hs.mem, hs.time, hs.rdCred, hs.wrCred, hs.ids, by
    show (f s.power).pswEn.getLsbD 0 = true
    rw [hf]; exact hs.aon, hs.queue⟩

/-- Bit 0 of a domain mask stays while another bit takes a value. -/
theorem setBit_zero {w : BitVec 20} {d : Nat} {v : Bool} (h : w.getLsbD 0 = true) (hd : d ≠ 0 ∨ v = true) :
    (setBit w d v).getLsbD 0 = true := by
  unfold setBit
  cases v
  · have h1 : d ≠ 0 := by simpa using hd
    have h2 : (1#20 <<< d).getLsbD 0 = false := by
      simp [Nat.pos_of_ne_zero h1]
    simp only [Bool.false_eq_true, if_false, BitVec.getLsbD_and, BitVec.getLsbD_not, h, h2]
    decide
  · simp only [if_true, BitVec.getLsbD_or, h, Bool.true_or]


theorem setEn_inv {s : State} {d : Nat} {v : Bool} (hs : InvQ wq s) (hd : d ≠ 0 ∨ v = true) : InvQ wq (setEn s d v) := by
  unfold setEn
  split
  · exact hs
  · exact ⟨hs.mem, hs.time, hs.rdCred, hs.wrCred, hs.ids, setBit_zero hs.aon hd, hs.queue⟩


theorem setAck_inv {s : State} {d : Nat} {v : Bool} (hs : InvQ wq s) : InvQ wq (setAck s d v) := by
  unfold setAck
  try dsimp -iota only
  with_reducible repeat' (first | assumption | apply updPower_inv | (intro _; rfl) | simp only [InvQ.mk_state] | apply InvQ.kept | dsimp -iota only)

theorem clampOf_inv {s : State} {d : Nat} (hs : InvQ wq s) : InvQ wq (clampOf s d) := by
  unfold clampOf
  try dsimp -iota only
  with_reducible repeat' (first | assumption | apply updPower_inv | (intro _; rfl) | simp only [InvQ.mk_state] | apply InvQ.kept | dsimp -iota only)

theorem loseCg_inv {s : State} {g : Nat} (hs : InvQ wq s) : InvQ wq (loseCg s g) := by
  unfold loseCg
  try dsimp -iota only
  with_reducible repeat' (first | assumption | apply loseGroup_inv | apply alertUpd_inv | apply resetMicro_inv | apply resetRegs_inv | apply clampOf_inv | simp only [InvQ.mk_state] | apply InvQ.kept | dsimp -iota only)

theorem loseFeState_inv {s : State} {h : Nat} (hs : InvQ wq s) : InvQ wq (loseFeState s h) := by
  unfold loseFeState
  try dsimp -iota only
  with_reducible repeat' (first | assumption | apply hiDrop_inv | apply resetMicro_inv | apply resetRegs_inv | simp only [InvQ.mk_state] | apply InvQ.kept | apply InvQ.kept_hi | dsimp -iota only | split)

theorem loseFe_inv {s : State} {h : Nat} (hs : InvQ wq s) : InvQ wq (loseFe s h) := by
  unfold loseFe
  try dsimp -iota only
  with_reducible repeat' (first | assumption | apply clampOf_inv | apply loseFeState_inv | apply feStop_inv | dsimp -iota only)

theorem loseDp_inv {s : State} {p : Nat} (hs : InvQ wq s) : InvQ wq (loseDp s p) := by
  unfold loseDp
  try dsimp -iota only
  with_reducible repeat' (first | assumption | apply resetRegs_inv | apply clampOf_inv | simp only [InvQ.mk_state] | apply InvQ.kept | dsimp -iota only)

theorem shadowLost_inv {s : State} (hs : InvQ wq s) : InvQ wq (shadowLost s) := by
  unfold shadowLost
  try dsimp -iota only
  with_reducible repeat' (first | assumption | apply windowFail_inv | apply swapEnd_inv | simp only [InvQ.mk_state] | apply InvQ.kept | dsimp -iota only | split)

theorem loseSm_inv {s : State} {h : Nat} (hs : InvQ wq s) : InvQ wq (loseSm s h) := by
  have h1 : InvQ wq (if h = 1 then shadowLost s else s) := by
    split
    · exact shadowLost_inv hs
    · exact hs
  unfold loseSm
  generalize (if h = 1 then shadowLost s else s) = s1 at h1
  dsimp -iota only
  apply resetRegs_inv
  exact ⟨Memory.filter_wf h1.mem, h1.time, h1.rdCred, h1.wrCred, h1.ids, h1.aon, h1.queue⟩


theorem discardAll_inv {s : State} (hs : InvQ wq s) : InvQ wq (discardAll s) :=
  ⟨hs.mem, hs.time, Nat.zero_le _, Nat.zero_le _, List.nodup_nil, hs.aon, hs.queue⟩


theorem loseHk_inv {s : State} (hs : InvQ wq s) : InvQ wq (loseHk s) := by
  unfold loseHk
  try dsimp -iota only
  with_reducible repeat' (first | assumption | apply resetMicro_inv | apply resetRegs_inv | apply clampOf_inv | apply discardAll_inv | apply windowFail_inv | apply failHeld_inv | dsimp -iota only)

theorem loseDomain_inv {s : State} {d : Nat} (hs : InvQ wq s) : InvQ wq (loseDomain s d) := by
  unfold loseDomain
  try dsimp -iota only
  with_reducible repeat' (first | assumption | apply loseHk_inv | apply loseFe_inv | apply loseDp_inv | apply loseSm_inv | apply loseCg_inv | dsimp -iota only | split)

theorem powerDown_inv {s : State} {d : Nat} (hs : InvQ wq s) (hd : d ≠ 0) : InvQ wq (powerDown s d) := by
  unfold powerDown
  apply setEn_inv _ (Or.inl hd)
  split
  · exact loseDomain_inv hs
  · exact clampOf_inv hs


theorem unitDown_inv {s : State} (hs : InvQ wq s) : InvQ wq (unitDown s) := by
  have h0 : InvQ wq (wr0 (wr0 (wr0 (wr0 ((List.range' 1 19).foldl resetRegs (discardAll (endHandover (windowFail (failHeld s)))))
      (feUpFld 0) 0) (feUpFld 1) 0) F.ckCoreCtlFallbackReady 0) F.ckCoreCtlSwitching 0) :=
    wr0_inv (wr0_inv (wr0_inv (wr0_inv (foldl_inv (discardAll_inv (endHandover_inv (windowFail_inv (failHeld_inv hs))))
      (fun _ _ h => resetRegs_inv h)))))
  have h := foldl_inv_mem (l := List.range' 1 19) (f := fun s d => setEn s d false) h0
    (fun _ d hd h => setEn_inv h (Or.inl (by simp [List.mem_range'] at hd; omega)))
  unfold unitDown
  dsimp -iota only
  generalize (List.range' 1 19).foldl (fun s d => setEn s d false) (wr0 (wr0 (wr0 (wr0 ((List.range' 1 19).foldl resetRegs
    (discardAll (endHandover (windowFail (failHeld s))))) (feUpFld 0) 0) (feUpFld 1) 0) F.ckCoreCtlFallbackReady 0)
      F.ckCoreCtlSwitching 0) = s4 at h
  exact ⟨rfl, h.time, h.rdCred, h.wrCred, h.ids, h.aon, h.queue⟩


theorem domainComesUp_inv {s : State} {d : Nat} (hs : InvQ wq s) : InvQ wq (domainComesUp s d) := by
  unfold domainComesUp
  try dsimp -iota only
  with_reducible repeat' (first | assumption | apply updPower_inv | (intro _; rfl) | apply resetRegs_inv | apply feBecomesUp_inv | apply wr0_inv | apply alertUpd_inv | apply bootOpens_inv | simp only [InvQ.mk_state] | apply InvQ.kept | dsimp -iota only | split)

theorem powerNext_inv {s : State} (hs : InvQ wq s) : InvQ wq (powerNext s) := by
  unfold powerNext
  split
  · split
    · exact setEn_inv hs (Or.inr rfl)
    · exact hs
  · exact hs


theorem powerUpAll_inv {s : State} {ds : List Nat} (hs : InvQ wq s) : InvQ wq (powerUpAll s ds) := by
  unfold powerUpAll
  try dsimp -iota only
  with_reducible repeat' (first | assumption | apply powerNext_inv | apply updPower_inv | (intro _; rfl) | simp only [InvQ.mk_state] | apply InvQ.kept | dsimp -iota only)

theorem unqueue_inv {s : State} {d : Nat} (hs : InvQ wq s) : InvQ wq (unqueue s d) := by
  unfold unqueue
  try dsimp -iota only
  with_reducible repeat' (first | assumption | apply powerNext_inv | apply updPower_inv | (intro _; rfl) | simp only [InvQ.mk_state] | apply InvQ.kept | dsimp -iota only)

end Sys2Proof.Machine
end

