-- ==== Sys2Proof/Laws/InvBoot.lean ====
section
/-! SUPPORT. Every operation over the state keeps the invariant Sys2Proof.Machine.Inv: one lemma for each, in the order of
the definitions. -/

set_option linter.unusedTactic false
set_option linter.unreachableTactic false
set_option linter.unusedSimpArgs false

namespace Sys2Proof.Machine

variable {wq : List Instr}

theorem startUpLoad_inv {s : State} {g : Nat} (hs : InvQ wq s) : InvQ wq (startUpLoad s g) := by
  unfold startUpLoad
  try dsimp -iota only
  with_reducible repeat' (first | assumption | apply updPower_inv | (intro _; rfl) | apply bootOpens_inv | apply powerUpAll_inv | simp only [InvQ.mk_state] | apply InvQ.kept | dsimp -iota only | split)

theorem reloadGo_inv {s : State} (hs : InvQ wq s) : InvQ wq (reloadGo s) := by
  unfold reloadGo
  try dsimp -iota only
  with_reducible repeat' (first | assumption | apply loadIssue_inv | apply loadBegin_inv | apply wr0_inv | dsimp -iota only | split)

theorem execBootLoadStart_inv {s : State} (hs : InvQ wq s) : OutInv wq (execBootLoadStart s) := by
  unfold execBootLoadStart
  try dsimp -iota only
  with_reducible repeat' (first | assumption | apply reloadGo_inv | apply startUpLoad_inv | exact OutInv.fault | apply OutInv.next | dsimp -iota only | split)

theorem startImages_inv {r : BootLoadResult} {n : Nat} {s : State} {l : Load} (hs : InvQ wq s) : InvQ wq (startImages r n s l).2 := by
  induction n generalizing s l with
  | zero => exact hs
  | succ n ih =>
    unfold startImages
    split
    · split
      · exact ih (writeLines_inv hs)
      · exact hs
    · exact hs
theorem startImages_inv_eq {r : BootLoadResult} {n : Nat} {s : State} {l : Load} (hs : InvQ wq s) {a₁ : _} {t : State} (e : startImages r n s l = (a₁, t)) : InvQ wq t := by
  have := startImages_inv (r := r) (n := n) (l := l) hs
  rw [e] at this
  exact this


theorem shadowFill_inv {s : State} {l : Load} (hs : InvQ wq s) : InvQ wq (shadowFill s l) := by
  unfold shadowFill
  try dsimp -iota only
  with_reducible repeat' (first | assumption | apply forNat_inv | apply writeLine_inv | apply foldl_inv | dsimp -iota only | split | intro _)

theorem loadFields_inv {s : State} {l : Load} (hs : InvQ wq s) : InvQ wq (loadFields s l) := by
  unfold loadFields
  try dsimp -iota only
  with_reducible repeat' (first | assumption | apply wr0_inv | apply wr1_inv | apply flag0_inv | dsimp -iota only | split)

theorem bootBringup_inv {s : State} {ch : Nat} {brought : Bool} (hs : InvQ wq s) : InvQ wq (bootBringup s ch brought) := by
  unfold bootBringup
  try dsimp -iota only
  with_reducible repeat' (first | assumption | apply setR_inv | apply forNat_inv | apply freeWord_inv | (refine freeWord_inv_eq ?_ (by assumption)) | apply wr1_inv | apply foldl_inv | simp only [InvQ.mk_state] | apply InvQ.kept | dsimp -iota only | split | intro _)

theorem bootRelease_inv {s : State} {g : Nat} {brought : Bool} (hs : InvQ wq s) : InvQ wq (bootRelease s g brought) := by
  have h1 : InvQ wq (updPower s (fun p => { p with bootGroup := false })) := updPower_inv hs (fun _ => rfl)
  have hd : dCg g ≠ 0 := by show 8 + g ≠ 0; omega
  unfold bootRelease
  generalize updPower s (fun p => { p with bootGroup := false }) = s1 at h1
  dsimp -iota only
  split
  · exact setEn_inv (unqueue_inv h1) (Or.inl hd)
  split
  · exact powerDown_inv h1 hd
  · exact inertReturn_inv (bootBringup_inv h1)


theorem loadEnds_inv {s : State} {g : Nat} {l : Load} (hs : InvQ wq s) : InvQ wq (loadEnds s g l) := by
  unfold loadEnds
  try dsimp -iota only
  with_reducible repeat' (first | assumption | apply loadFields_inv | apply shadowFill_inv | apply windowRelease_inv | apply bootRelease_inv | apply swapEnd_inv | simp only [InvQ.mk_state] | apply InvQ.kept | dsimp -iota only | split)

theorem loadFailed_inv {s : State} {g : Nat} (hs : InvQ wq s) : InvQ wq (loadFailed s g) := by
  unfold loadFailed
  try dsimp -iota only
  with_reducible repeat' (first | assumption | apply loadEnds_inv | simp only [InvQ.mk_state] | apply InvQ.kept | dsimp -iota only)

theorem startLoadEnds_inv {s : State} {g : Nat} {r : BootLoadResult} (hs : InvQ wq s) : OutInv wq (startLoadEnds s g r) := by
  unfold startLoadEnds
  try dsimp -iota only
  with_reducible repeat' (first | assumption | apply startImages_inv | (refine startImages_inv_eq ?_ (by assumption)) | apply loadEnds_inv | exact OutInv.fault | apply OutInv.next | dsimp -iota only | split)

theorem execBootLoadEnd_inv {r : BootLoadResult} {s : State} (hs : InvQ wq s) : OutInv wq (execBootLoadEnd r s) := by
  unfold execBootLoadEnd
  try dsimp -iota only
  with_reducible repeat' (first | assumption | apply loadEnds_inv | apply startLoadEnds_inv | exact OutInv.fault | apply OutInv.next | dsimp -iota only | split)

theorem reloadAsked_inv {s : State} (hs : InvQ wq s) : InvQ wq (reloadAsked s) := by
  unfold reloadAsked
  try dsimp -iota only
  with_reducible repeat' (first | assumption | apply wr0_inv | apply flag0_inv | simp only [InvQ.mk_state] | apply InvQ.kept | dsimp -iota only | split)

theorem releaseShadow_inv {s : State} (hs : InvQ wq s) : InvQ wq (releaseShadow s) := by
  unfold releaseShadow
  try dsimp -iota only
  with_reducible repeat' (first | assumption | apply wr0_inv | apply wr1_inv | dsimp -iota only)

end Sys2Proof.Machine
end

