-- ==== Sys2Proof/Laws/InvRingWrites.lean ====
section
/-! SUPPORT. Every operation over the state keeps the invariant Sys2Proof.Machine.Inv: one lemma for each, in the order of
the definitions. -/

set_option linter.unusedTactic false
set_option linter.unreachableTactic false
set_option linter.unusedSimpArgs false

namespace Sys2Proof.Machine

variable {wq : List Instr}

theorem writeSqTail_inv {s : State} {w : RegWrite} (hs : InvQ wq s) : InvQ wq (writeSqTail s w) := by
  unfold writeSqTail
  try dsimp -iota only
  with_reducible repeat' (first | assumption | apply flag1_inv | apply kickFetch_inv | apply raiseTeller_inv | apply wr1_inv | dsimp -iota only | split)

theorem writeRqHead_inv {s : State} {w : RegWrite} (hs : InvQ wq s) : InvQ wq (writeRqHead s w) := by
  unfold writeRqHead
  try dsimp -iota only
  with_reducible repeat' (first | assumption | apply updRing_inv | apply wr1_inv | apply tellerGoesOn_inv | apply writeReceipts_inv | simp only [InvQ.mk_state] | apply InvQ.kept | dsimp -iota only)

theorem pairFresh_inv {s : State} {k : Nat} (hs : InvQ wq s) : InvQ wq (pairFresh s k) := by
  unfold pairFresh
  try dsimp -iota only
  with_reducible repeat' (first | assumption | apply wr1_inv | apply updRing_inv | simp only [InvQ.mk_state] | apply InvQ.kept | dsimp -iota only)

theorem pairEnable_inv {s : State} {k : Nat} (hs : InvQ wq s) : InvQ wq (pairEnable s k) := by
  unfold pairEnable
  try dsimp -iota only
  with_reducible repeat' (first | assumption | apply flag1_inv | apply wr1_inv | apply tellerGoesOn_inv | apply pairFresh_inv | dsimp -iota only | split)

theorem writeRingCfg_inv {s : State} {w : RegWrite} (hs : InvQ wq s) : InvQ wq (writeRingCfg s w) := by
  unfold writeRingCfg
  try dsimp -iota only
  with_reducible repeat' (first | assumption | apply flag1_inv | apply RegWrite.plain_inv | apply coalCount_inv | apply rebindReceipts_inv | apply pairEnable_inv | apply stopFetch_inv | dsimp -iota only | split)

theorem writeIrqCoal_inv {s : State} {w : RegWrite} (hs : InvQ wq s) : InvQ wq (writeIrqCoal s w) := by
  unfold writeIrqCoal
  try dsimp -iota only
  with_reducible repeat' (first | assumption | apply coalCount_inv | apply RegWrite.plain_inv | dsimp -iota only)

theorem writeBase_inv {s : State} {w : RegWrite} {f : Fld} (hs : InvQ wq s) : InvQ wq (writeBase s w f) := by
  unfold writeBase
  try dsimp -iota only
  with_reducible repeat' (first | assumption | apply flag1_inv | apply RegWrite.plain_inv | dsimp -iota only | split)

theorem writeRingStatus_inv {s : State} {w : RegWrite} (hs : InvQ wq s) : InvQ wq (writeRingStatus s w) := by
  unfold writeRingStatus
  try dsimp -iota only
  with_reducible repeat' (first | assumption | apply RegWrite.plain_inv | apply updRing_inv | apply kickFetch_inv | apply writeReceipts_inv | apply rewriteReceipts_inv | simp only [InvQ.mk_state] | apply InvQ.kept | dsimp -iota only | split)

end Sys2Proof.Machine
end

