-- ==== Sys2Proof/Laws/InvDmaWrites.lean ====
section
/-! SUPPORT. Every operation over the state keeps the invariant Sys2Proof.Machine.Inv: one lemma for each, in the order of
the definitions. -/

set_option linter.unusedTactic false
set_option linter.unreachableTactic false
set_option linter.unusedSimpArgs false

namespace Sys2Proof.Machine

variable {wq : List Instr}

theorem writeDcCtl_inv {s : State} {w : RegWrite} (hs : InvQ wq s) : InvQ wq (writeDcCtl s w) := by
  unfold writeDcCtl
  try dsimp -iota only
  with_reducible repeat' (first | assumption | apply RegWrite.plain_inv | apply dcWriteEnable_inv | apply flag1_inv | dsimp -iota only | split)

theorem dcRewind_inv {s : State} {d : Nat} (hs : InvQ wq s) : InvQ wq (dcRewind s d) := by
  unfold dcRewind
  try dsimp -iota only
  with_reducible repeat' (first | assumption | apply wr1_inv | dsimp -iota only)

theorem writeDcRing_inv {s : State} {w : RegWrite} {f : Fld} (hs : InvQ wq s) : InvQ wq (writeDcRing s w f) := by
  unfold writeDcRing
  try dsimp -iota only
  with_reducible repeat' (first | assumption | apply flag1_inv | apply RegWrite.plain_inv | apply dcRewind_inv | dsimp -iota only | split)

theorem writeDcKick_inv {s : State} {w : RegWrite} (hs : InvQ wq s) : InvQ wq (writeDcKick s w) := by
  unfold writeDcKick
  try dsimp -iota only
  with_reducible repeat' (first | assumption | apply updDma_inv | apply ringKick_inv | apply wr1_inv | simp only [InvQ.mk_state] | apply InvQ.kept | dsimp -iota only | split)

theorem takeParked_inv {s : State} {f : Fifo} {n : Nat} {p : Parked} (hs : InvQ wq s) : InvQ wq (takeParked s f n p) := by
  unfold takeParked
  try dsimp -iota only
  with_reducible repeat' (first | assumption | apply afterPops_inv | (refine afterPops_inv_eq ?_ (by assumption)) | apply progArrived_inv | apply landData_inv | dsimp -iota only | split)

theorem reattach_inv {s : State} {ch : Nat} {f : Nat} (hs : InvQ wq s) : InvQ wq (reattach s ch f) := by
  unfold reattach
  try dsimp -iota only
  with_reducible repeat' (first | assumption | apply kickBus_inv | apply dmaKickAll_inv | apply takeParked_inv | apply updFifo_inv | apply foldl_inv | simp only [InvQ.mk_state] | apply InvQ.kept | dsimp -iota only | split | intro _)

theorem askFlush_inv {s : State} {ch : Nat} {f : Nat} (hs : InvQ wq s) : InvQ wq (askFlush s ch f) := by
  unfold askFlush
  try dsimp -iota only
  with_reducible repeat' (first | assumption | apply wr1_inv | apply flushFifo_inv | dsimp -iota only | split)

theorem writeFifoCtl_inv {s : State} {w : RegWrite} (hs : InvQ wq s) : InvQ wq (writeFifoCtl s w) := by
  unfold writeFifoCtl
  try dsimp -iota only
  with_reducible repeat' (first | assumption | apply wr1_inv | apply RegWrite.plain_inv | apply flag1_inv | apply forNat_inv | apply askFlush_inv | apply reattach_inv | apply foldl_inv | dsimp -iota only | split | intro _)

theorem writeBank_inv {s : State} {w : RegWrite} (hs : InvQ wq s) : InvQ wq (writeBank s w) := by
  unfold writeBank
  try dsimp -iota only
  with_reducible repeat' (first | assumption | apply flag1_inv | apply RegWrite.plain_inv | apply slotServe_inv | apply wr1_inv | dsimp -iota only | split)

theorem writeRemap_inv {s : State} {w : RegWrite} (hs : InvQ wq s) : InvQ wq (writeRemap s w) := by
  unfold writeRemap
  try dsimp -iota only
  with_reducible repeat' (first | assumption | apply RegWrite.plain_inv | apply clearRow_inv | apply flag1_inv | dsimp -iota only | split)

theorem writeArm_inv {s : State} {w : RegWrite} {f : Fld} (hs : InvQ wq s) : InvQ wq (writeArm s w f) := by
  unfold writeArm
  try dsimp -iota only
  with_reducible repeat' (first | assumption | apply RegWrite.plain_inv | apply wr1_inv | dsimp -iota only | split)

theorem engineOn_inv {s : State} {e' : Nat} (hs : InvQ wq s) : InvQ wq (engineOn s e') := by
  unfold engineOn
  try dsimp -iota only
  with_reducible repeat' (first | assumption | apply wr1_inv | dsimp -iota only | split)

theorem engineOff_inv {s : State} {e' : Nat} (hs : InvQ wq s) : InvQ wq (engineOff s e') := by
  unfold engineOff
  try dsimp -iota only
  with_reducible repeat' (first | assumption | apply wr1_inv | dsimp -iota only | split)

theorem writeEngine_inv {s : State} {w : RegWrite} (hs : InvQ wq s) : InvQ wq (writeEngine s w) := by
  unfold writeEngine
  try dsimp -iota only
  with_reducible repeat' (first | assumption | apply RegWrite.plain_inv | apply engineOn_inv | apply engineOff_inv | dsimp -iota only | split)

end Sys2Proof.Machine
end

