-- ==== Sys2Proof/Laws/InvChannelWrites.lean ====
section
/-! SUPPORT. Every operation over the state keeps the invariant Sys2Proof.Machine.Inv: one lemma for each, in the order of
the definitions. -/

set_option linter.unusedTactic false
set_option linter.unreachableTactic false
set_option linter.unusedSimpArgs false

namespace Sys2Proof.Machine

variable {wq : List Instr}

theorem writeTiming_inv {s : State} {w : RegWrite} (hs : InvQ wq s) : InvQ wq (writeTiming s w) := by
  unfold writeTiming
  try dsimp -iota only
  with_reducible repeat' (first | assumption | apply flag1_inv | apply RegWrite.plain_inv | dsimp -iota only | split)

theorem writeGuarded_inv {s : State} {w : RegWrite} {fs : List Fld} (hs : InvQ wq s) : InvQ wq (writeGuarded s w fs) := by
  unfold writeGuarded
  try dsimp -iota only
  with_reducible repeat' (first | assumption | apply flag1_inv | apply RegWrite.plain_inv | apply foldl_inv | dsimp -iota only | split | intro _)

theorem writeBusCtl_inv {s : State} {w : RegWrite} (hs : InvQ wq s) : InvQ wq (writeBusCtl s w) := by
  unfold writeBusCtl
  try dsimp -iota only
  with_reducible repeat' (first | assumption | apply writeGuarded_inv | apply updCh_inv | simp only [InvQ.mk_state] | apply InvQ.kept | dsimp -iota only | split)

theorem writeSched_inv {s : State} {w : RegWrite} (hs : InvQ wq s) : InvQ wq (writeSched s w) := by
  unfold writeSched
  try dsimp -iota only
  with_reducible repeat' (first | assumption | apply writeGuarded_inv | dsimp -iota only)

theorem writeChCtl_inv {s : State} {w : RegWrite} (hs : InvQ wq s) : InvQ wq (writeChCtl s w) := by
  unfold writeChCtl
  try dsimp -iota only
  with_reducible repeat' (first | assumption | apply chSettle_inv | apply enableCh_inv | apply disableCh_inv | dsimp -iota only | split)

theorem writeFence_inv {s : State} {w : RegWrite} (hs : InvQ wq s) : InvQ wq (writeFence s w) := by
  unfold writeFence
  try dsimp -iota only
  with_reducible repeat' (first | assumption | apply setFence_inv | dsimp -iota only | split)

theorem writeInert_inv {s : State} {g : Nat} {w : RegWrite} (hs : InvQ wq s) : InvQ wq (writeInert s g w) := by
  unfold writeInert
  try dsimp -iota only
  with_reducible repeat' (first | assumption | apply inertOn_inv | apply wr1_inv | dsimp -iota only | split)

theorem writePhy_inv {s : State} {w : RegWrite} (hs : InvQ wq s) : InvQ wq (writePhy s w) := by
  unfold writePhy
  try dsimp -iota only
  with_reducible repeat' (first | assumption | apply writeInert_inv | apply RegWrite.plain_inv | apply initStart_inv | dsimp -iota only | split)

theorem writeCalCtl_inv {s : State} {w : RegWrite} (hs : InvQ wq s) : InvQ wq (writeCalCtl s w) := by
  unfold writeCalCtl
  try dsimp -iota only
  with_reducible repeat' (first | assumption | apply calEval_inv | apply RegWrite.plain_inv | dsimp -iota only)

theorem writeCalAlert_inv {s : State} {w : RegWrite} (hs : InvQ wq s) : InvQ wq (writeCalAlert s w) := by
  unfold writeCalAlert
  try dsimp -iota only
  with_reducible repeat' (first | assumption | apply alertUpd_inv | apply forNat_inv | apply wr1_inv | apply RegWrite.plain_inv | apply foldl_inv | dsimp -iota only | split | intro _)

theorem writeTrim_inv {s : State} {w : RegWrite} (hs : InvQ wq s) : InvQ wq (writeTrim s w) := by
  unfold writeTrim
  try dsimp -iota only
  with_reducible repeat' (first | assumption | apply trimPut_inv | dsimp -iota only)

end Sys2Proof.Machine
end

