-- ==== Sys2Proof/Laws/InvTest.lean ====
section
/-! SUPPORT. Every operation over the state keeps the invariant Sys2Proof.Machine.Inv: one lemma for each, in the order of
the definitions. -/

set_option linter.unusedTactic false
set_option linter.unreachableTactic false
set_option linter.unusedSimpArgs false

namespace Sys2Proof.Machine

variable {wq : List Instr}

theorem frontEndDown_inv {s : State} {h : Nat} (hs : InvQ wq s) : InvQ wq (frontEndDown s h) := by
  unfold frontEndDown
  try dsimp -iota only
  with_reducible repeat' (first | assumption | apply ownerAfterStop_inv | apply wr0_inv | dsimp -iota only | split)

theorem frontEndsDown_inv {s : State} (hs : InvQ wq s) : InvQ wq (frontEndsDown s) := by
  unfold frontEndsDown
  try dsimp -iota only
  with_reducible repeat' (first | assumption | apply frontEndDown_inv | dsimp -iota only)

theorem planDown_inv {s : State} {d : Nat} (hs : InvQ wq s) (hd : d ≠ 0) : InvQ wq (planDown s d) := by
  unfold planDown
  apply powerDown_inv _ hd
  split
  · exact frontEndDown_inv hs
  · exact hs

/-- The groups and the pools power down, the last one first. -/
theorem planDowns_inv {s : State} (hs : InvQ wq s) :
    InvQ wq (((List.range' 8 12).reverse ++ [5, 4]).foldl (fun s d => if s.power.pswEn.getLsbD d then planDown s d else s) s) := by
  refine foldl_inv_mem hs (fun s d hd h => ?_)
  split
  · have : d ≠ 0 := by
      intro e; subst e; revert hd; decide
    exact planDown_inv h this
  · exact h


theorem enterOff_inv {s : State} (hs : InvQ wq s) : InvQ wq (enterOff s) := by
  unfold enterOff
  try dsimp -iota only
  with_reducible repeat' (first | assumption | apply updPower_inv | (intro _; rfl) | apply wr0_inv | apply unitDown_inv | apply frontEndsDown_inv | simp only [InvQ.mk_state] | apply InvQ.kept | dsimp -iota only)

theorem bistClear_inv {s : State} (hs : InvQ wq s) : InvQ wq (bistClear s) := by
  unfold bistClear
  try dsimp -iota only
  with_reducible repeat' (first | assumption | apply wr0_inv | simp only [InvQ.mk_state] | apply InvQ.kept | dsimp -iota only)

theorem sliceResult_inv {s : State} {p : Nat} {code : Nat} {elapsed : Nat} (hs : InvQ wq s) : InvQ wq (sliceResult s p code elapsed) := by
  unfold sliceResult
  try dsimp -iota only
  with_reducible repeat' (first | assumption | apply wr1_inv | dsimp -iota only | split)

theorem bistEnd_inv {s : State} (hs : InvQ wq s) : InvQ wq (bistEnd s) := by
  unfold bistEnd
  try dsimp -iota only
  with_reducible repeat' (first | assumption | apply wr0_inv | apply flag0_inv | apply enterOff_inv | simp only [InvQ.mk_state] | apply InvQ.kept | dsimp -iota only | split)

theorem bistRun_inv {s : State} {l : List Nat} (hs : InvQ wq s) : InvQ wq (bistRun s l) := by
  induction l generalizing s with
  | nil => exact bistEnd_inv hs
  | cons p r ih =>
    unfold bistRun
    split
    · exact ih (sliceResult_inv hs)
    · exact powerUpAll_inv (wr0_inv (wr0_inv hs))


theorem bistBegin_inv {s : State} {shutdown : Bool} (hs : InvQ wq s) : InvQ wq (bistBegin s shutdown) := by
  unfold bistBegin
  try dsimp -iota only
  with_reducible repeat' (first | assumption | apply bistRun_inv | apply wr0_inv | apply bistClear_inv | dsimp -iota only)

theorem stepDown_inv {s : State} {p : Nat} (hs : InvQ wq s) : InvQ wq (stepDown s p) := by
  unfold stepDown
  dsimp -iota only
  refine foldl_inv_mem (updPower_inv hs (fun _ => rfl)) (fun s d hd h => planDown_inv h ?_)
  simp only [List.mem_filter, List.mem_reverse] at hd
  have h1 := hd.1
  unfold stepDomains at h1
  split at h1
  · simp only [List.mem_range'] at h1
    omega
  split at h1
  · cases h1
  · simp only [List.mem_singleton] at h1
    omega


theorem bistNext_inv {s : State} {p : Nat} (hs : InvQ wq s) : InvQ wq (bistNext s p) := by
  unfold bistNext
  try dsimp -iota only
  with_reducible repeat' (first | assumption | apply bistRun_inv | apply stepDown_inv | dsimp -iota only)

theorem bistAbort_inv {s : State} (hs : InvQ wq s) : InvQ wq (bistAbort s) := by
  unfold bistAbort
  try dsimp -iota only
  with_reducible repeat' (first | assumption | apply bistEnd_inv | apply flag0_inv | apply stepDown_inv | apply sliceResult_inv | dsimp -iota only | split)

theorem enterTest_inv {s : State} (hs : InvQ wq s) : InvQ wq (enterTest s) := by
  unfold enterTest
  try dsimp -iota only
  with_reducible repeat' (first | assumption | apply wr0_inv | apply updPower_inv | (intro _; rfl) | apply ringOff_inv | apply bistBegin_inv | simp only [InvQ.mk_state] | apply InvQ.kept | dsimp -iota only)

theorem shutDown_inv {s : State} (hs : InvQ wq s) : InvQ wq (shutDown s) := by
  unfold shutDown
  try dsimp -iota only
  with_reducible repeat' (first | assumption | apply bistBegin_inv | apply updPower_inv | (intro _; rfl) | apply ringOff_inv | apply enterOff_inv | simp only [InvQ.mk_state] | apply InvQ.kept | dsimp -iota only | split)

theorem bistWord_inv {s : State} {n : RegName} {i : Nat} {j : Nat} {w : W64} (hs : InvQ wq s) : InvQ wq (bistWord s n i j w) := by
  unfold bistWord
  try dsimp -iota only
  with_reducible repeat' (first | assumption | apply setR_inv | dsimp -iota only)

theorem memResults_inv {s : State} {r : BistResult} (hs : InvQ wq s) : InvQ wq (memResults s r) := by
  unfold memResults
  try dsimp -iota only
  with_reducible repeat' (first | assumption | apply forNat_inv | apply bistWord_inv | apply foldl_inv | dsimp -iota only | intro _)

theorem logicResult_inv {s : State} {p : Nat} {r : BistResult} (hs : InvQ wq s) : InvQ wq (logicResult s p r) := by
  unfold logicResult
  try dsimp -iota only
  with_reducible repeat' (first | assumption | apply sliceResult_inv | apply wr1_inv | dsimp -iota only | split)

theorem execBistStepEnd_inv {r : BistResult} {s : State} (hs : InvQ wq s) : OutInv wq (execBistStepEnd r s) := by
  unfold execBistStepEnd
  try dsimp -iota only
  with_reducible repeat' (first | assumption | apply bistNext_inv | apply memResults_inv | apply logicResult_inv | exact OutInv.fault | apply OutInv.next | dsimp -iota only | split)

theorem budgetResult_inv {s : State} {p : Nat} (hs : InvQ wq s) : InvQ wq (budgetResult s p) := by
  unfold budgetResult
  try dsimp -iota only
  with_reducible repeat' (first | assumption | apply freeBit_inv | (refine freeBit_inv_eq ?_ (by assumption)) | apply sliceResult_inv | dsimp -iota only | split)

theorem execBistBudgetExpiry_inv {s : State} (hs : InvQ wq s) : OutInv wq (execBistBudgetExpiry s) := by
  unfold execBistBudgetExpiry
  try dsimp -iota only
  with_reducible repeat' (first | assumption | apply lapse_inv | (refine lapse_inv_eq ?_ (by assumption)) | apply bistNext_inv | apply budgetResult_inv | exact OutInv.fault | apply OutInv.next | dsimp -iota only | split)

theorem wrapper_inv {s : State} {f : State → State} (hs : InvQ wq s) (hf : ∀ s, InvQ wq s → InvQ wq (f s)) : InvQ wq (wrapper s f) := by
  unfold wrapper
  try dsimp -iota only
  with_reducible repeat' (first | assumption | apply hf | dsimp -iota only | split | intro _)

theorem setWrapper_inv {s : State} {wir : Nat} {w : W64} (hs : InvQ wq s) : InvQ wq (setWrapper s wir w) := by
  unfold setWrapper
  try dsimp -iota only
  with_reducible repeat' (first | assumption | simp only [InvQ.mk_state] | apply InvQ.kept | dsimp -iota only)

theorem execWsBypass_inv {s : State} (hs : InvQ wq s) : OutInv wq (execWsBypass s) := by
  unfold execWsBypass
  try dsimp -iota only
  with_reducible repeat' (first | assumption | apply wrapper_inv | apply setWrapper_inv | exact OutInv.fault | apply OutInv.next | dsimp -iota only | intro _)

theorem execWsExtest_inv {s : State} (hs : InvQ wq s) : OutInv wq (execWsExtest s) := by
  unfold execWsExtest
  try dsimp -iota only
  with_reducible repeat' (first | assumption | apply wrapper_inv | apply freeWord_inv | (refine freeWord_inv_eq ?_ (by assumption)) | apply setWrapper_inv | exact OutInv.fault | apply OutInv.next | dsimp -iota only | intro _)

theorem scanSlice_inv {s : State} {i : Nat} (hs : InvQ wq s) : InvQ wq (scanSlice s i) := by
  unfold scanSlice
  try dsimp -iota only
  with_reducible repeat' (first | assumption | apply setWrapper_inv | apply powerUpAll_inv | simp only [InvQ.mk_state] | apply InvQ.kept | dsimp -iota only | split)

theorem execScanSlice_inv {slice : BitVec 5} {s : State} (hs : InvQ wq s) : OutInv wq (execScanSlice slice s) := by
  unfold execScanSlice
  try dsimp -iota only
  with_reducible repeat' (first | assumption | apply wrapper_inv | apply scanSlice_inv | exact OutInv.fault | apply OutInv.next | dsimp -iota only | intro _)

theorem resultNext_inv {s : State} (hs : InvQ wq s) : InvQ wq (resultNext s) := by
  unfold resultNext
  try dsimp -iota only
  with_reducible repeat' (first | assumption | apply setWrapper_inv | simp only [InvQ.mk_state] | apply InvQ.kept | dsimp -iota only | split)

theorem execResultRead_inv {s : State} (hs : InvQ wq s) : OutInv wq (execResultRead s) := by
  unfold execResultRead
  try dsimp -iota only
  with_reducible repeat' (first | assumption | apply wrapper_inv | apply resultNext_inv | exact OutInv.fault | apply OutInv.next | dsimp -iota only | intro _)

theorem execLcRead_inv {s : State} (hs : InvQ wq s) : OutInv wq (execLcRead s) := by
  unfold execLcRead
  try dsimp -iota only
  with_reducible repeat' (first | assumption | apply wrapper_inv | apply setWrapper_inv | exact OutInv.fault | apply OutInv.next | dsimp -iota only | intro _)

theorem execScanShift_inv {x0 : Bool} {x1 : W64} {s : State} (hs : InvQ wq s) : OutInv wq (execScanShift x0 x1 s) := by
  unfold execScanShift
  try dsimp -iota only
  with_reducible repeat' (first | assumption | apply freeWord_inv | (refine freeWord_inv_eq ?_ (by assumption)) | exact OutInv.fault | apply OutInv.next | simp only [InvQ.mk_state] | apply InvQ.kept | dsimp -iota only | split)

end Sys2Proof.Machine
end

