-- ==== Sys2Proof/Laws/InvPatch.lean ====
section
/-! SUPPORT. Every operation over the state keeps the invariant Sys2Proof.Machine.Inv: one lemma for each, in the order of
the definitions. -/

set_option linter.unusedTactic false
set_option linter.unreachableTactic false
set_option linter.unusedSimpArgs false

namespace Sys2Proof.Machine

variable {wq : List Instr}

theorem setEng_inv {s : State} {j : Nat} {e' : Nat} {n : Nat} (hs : InvQ wq s) : InvQ wq (setEng s j e' n) := by
  unfold setEng
  try dsimp -iota only
  with_reducible repeat' (first | assumption | apply wr_inv | dsimp -iota only)

theorem setEngines_inv {s : State} {j : Nat} {n : Nat} (hs : InvQ wq s) : InvQ wq (setEngines s j n) := by
  unfold setEngines
  try dsimp -iota only
  with_reducible repeat' (first | assumption | apply forNat_inv | apply setEng_inv | apply foldl_inv | dsimp -iota only | split | intro _)

theorem seqStarts_inv {s : State} {ch : Nat} (hs : InvQ wq s) : InvQ wq (seqStarts s ch) := by
  unfold seqStarts
  try dsimp -iota only
  with_reducible repeat' (first | assumption | apply kickBus_inv | apply askReset_inv | apply foldl_inv | dsimp -iota only | intro _)

theorem tellerStarts_inv {s : State} {t' : Nat} (hs : InvQ wq s) : InvQ wq (tellerStarts s t') := by
  unfold tellerStarts
  try dsimp -iota only
  with_reducible repeat' (first | assumption | apply kickFetch_inv | apply tellerResume_inv | apply foldl_inv | dsimp -iota only | split | intro _)

theorem hkStarts_inv {s : State} {e' : Nat} (hs : InvQ wq s) : InvQ wq (hkStarts s e') := by
  unfold hkStarts
  try dsimp -iota only
  with_reducible repeat' (first | assumption | apply hkBegin_inv | apply foldl_inv | dsimp -iota only | intro _)

theorem hk3Starts_inv {s : State} (hs : InvQ wq s) : InvQ wq (hk3Starts s) := by
  unfold hk3Starts
  try dsimp -iota only
  with_reducible repeat' (first | assumption | apply portEnable_inv | dsimp -iota only | split)

theorem engineStarts_inv {s : State} {j : Nat} {e' : Nat} (hs : InvQ wq s) : InvQ wq (engineStarts s j e') := by
  unfold engineStarts
  try dsimp -iota only
  with_reducible repeat' (first | assumption | apply seqStarts_inv | apply tellerStarts_inv | apply swapRetry_inv | apply hkStarts_inv | apply calEval_inv | apply hk3Starts_inv | apply foldl_inv | dsimp -iota only | split | intro _)

theorem releaseEngines_inv {s : State} {j : Nat} (hs : InvQ wq s) : InvQ wq (releaseEngines s j) := by
  unfold releaseEngines
  try dsimp -iota only
  with_reducible repeat' (first | assumption | apply forNat_inv | apply engineStarts_inv | apply setEngines_inv | apply foldl_inv | dsimp -iota only | split | intro _)

theorem execPatchRamClearEnd_inv {j : Fin 15} {s : State} (hs : InvQ wq s) : OutInv wq (execPatchRamClearEnd j s) := by
  unfold execPatchRamClearEnd
  try dsimp -iota only
  with_reducible repeat' (first | assumption | apply releaseEngines_inv | apply wr1_inv | exact OutInv.fault | apply OutInv.next | dsimp -iota only | split)

theorem mcheckChannel_inv {s : State} {ch : Nat} (hs : InvQ wq s) : InvQ wq (mcheckChannel s ch) := by
  unfold mcheckChannel
  try dsimp -iota only
  with_reducible repeat' (first | assumption | simp only [InvQ.mk_state] | apply InvQ.kept | dsimp -iota only | split)

theorem seqStops_inv {s : State} {ch : Nat} (hs : InvQ wq s) : InvQ wq (seqStops s ch) := by
  unfold seqStops
  try dsimp -iota only
  with_reducible repeat' (first | assumption | apply mcheckChannel_inv | apply clearBus_inv | apply cutTenure_inv | apply leavesRun_inv | apply wr1_inv | apply chSettle_inv | apply stopItem_inv | apply foldl_inv | dsimp -iota only | intro _)

theorem tellerStops_inv {s : State} {t' : Nat} (hs : InvQ wq s) : InvQ wq (tellerStops s t') := by
  unfold tellerStops
  try dsimp -iota only
  with_reducible repeat' (first | assumption | apply dropFetch_inv | apply foldl_inv | dsimp -iota only | split | intro _)

theorem swapStops_inv {s : State} (hs : InvQ wq s) : InvQ wq (swapStops s) := by
  unfold swapStops
  try dsimp -iota only
  with_reducible repeat' (first | assumption | apply endCore_inv | apply leaveLun_inv | apply swapEnd_inv | apply foldl_inv | simp only [InvQ.mk_state] | apply InvQ.kept | dsimp -iota only | split | intro _)

theorem hk0Stops_inv {s : State} (hs : InvQ wq s) : InvQ wq (hk0Stops s) := by
  unfold hk0Stops
  try dsimp -iota only
  with_reducible repeat' (first | assumption | apply wr0_inv | apply endAll_inv | apply swapStops_inv | apply loadFailed_inv | dsimp -iota only | split)

theorem hk3Stops_inv {s : State} (hs : InvQ wq s) : InvQ wq (hk3Stops s) := by
  unfold hk3Stops
  try dsimp -iota only
  with_reducible repeat' (first | assumption | apply wr0_inv | apply updPort_inv | simp only [InvQ.mk_state] | apply InvQ.kept | dsimp -iota only)

theorem engineStops_inv {s : State} {j : Nat} {e' : Nat} (hs : InvQ wq s) : InvQ wq (engineStops s j e') := by
  unfold engineStops
  try dsimp -iota only
  with_reducible repeat' (first | assumption | apply seqStops_inv | apply tellerStops_inv | apply hk0Stops_inv | apply calStops_inv | apply bistAbort_inv | apply hk3Stops_inv | apply foldl_inv | dsimp -iota only | split | intro _)

theorem machineCheckIn_inv {s : State} {j : Nat} {e' : Nat} {cause : Nat} {par : Nat} {m : Micro} (hs : InvQ wq s) : InvQ wq (machineCheckIn s j e' cause par m) := by
  unfold machineCheckIn
  try dsimp -iota only
  with_reducible repeat' (first | assumption | apply updMicro_inv | apply saveFrame_inv | apply wr_inv | apply setEng_inv | apply engineStops_inv | simp only [InvQ.mk_state] | apply InvQ.kept | dsimp -iota only)

theorem microAt_inv {s : State} {j : Nat} {e' : Nat} {cause : Nat} {par : Nat} (hs : InvQ wq s) : InvQ wq (microAt s j e' cause par).2 := by
  unfold microAt
  try dsimp -iota only
  with_reducible repeat' (first | assumption | apply microNow_inv | (refine microNow_inv_eq ?_ (by assumption)) | apply freeWord_inv | (refine freeWord_inv_eq ?_ (by assumption)) | simp only [InvQ.mk_state] | apply InvQ.kept | dsimp -iota only | split)
theorem microAt_inv_eq {s : State} {j : Nat} {e' : Nat} {cause : Nat} {par : Nat} (hs : InvQ wq s) {a₁ : _} {t : State} (e : microAt s j e' cause par = (a₁, t)) : InvQ wq t := by
  have := microAt_inv (s := s) (j := j) (e' := e') (cause := cause) (par := par) hs
  rw [e] at this
  exact this

theorem machineCheck_inv {s : State} {j : Nat} {e' : Nat} {cause : Nat} {par : Nat} (hs : InvQ wq s) : InvQ wq (machineCheck s j e' cause par) := by
  unfold machineCheck
  try dsimp -iota only
  with_reducible repeat' (first | assumption | apply microAt_inv | (refine microAt_inv_eq ?_ (by assumption)) | apply machineCheckIn_inv | dsimp -iota only)

theorem execMachineCheck_inv {j : Fin 15} {e' : Fin 4} {cause : Fin 16} {par : Byte} {s : State} (hs : InvQ wq s) : OutInv wq (execMachineCheck j e' cause par s) := by
  unfold execMachineCheck
  try dsimp -iota only
  with_reducible repeat' (first | assumption | apply machineCheck_inv | exact OutInv.fault | apply OutInv.next | dsimp -iota only | split)

theorem execRoutineEnd_inv {ch : Fin 48} {s : State} (hs : InvQ wq s) : OutInv wq (execRoutineEnd ch s) := by
  unfold execRoutineEnd
  try dsimp -iota only
  with_reducible repeat' (first | assumption | apply microByRom_inv | apply updMicro_inv | apply tallyEvents_inv | apply afterRun_inv | apply freeByte_inv | (refine freeByte_inv_eq ?_ (by assumption)) | apply updItem_inv | apply routineOff_inv | apply kickBus_inv | apply endItem_inv | apply machineCheckIn_inv | exact OutInv.fault | apply OutInv.next | simp only [InvQ.mk_state] | apply InvQ.kept | dsimp -iota only | split)

theorem restart_inv {s : State} {j : Nat} {e' : Nat} (hs : InvQ wq s) : InvQ wq (restart s j e') := by
  unfold restart
  try dsimp -iota only
  with_reducible repeat' (first | assumption | apply updMicro_inv | apply wr_inv | apply setEng_inv | apply wr0_inv | apply updPort_inv | apply engineStarts_inv | simp only [InvQ.mk_state] | apply InvQ.kept | dsimp -iota only | split)

theorem writeMcEng_inv {s : State} {w : RegWrite} (hs : InvQ wq s) : InvQ wq (writeMcEng s w) := by
  unfold writeMcEng
  try dsimp -iota only
  with_reducible repeat' (first | assumption | apply RegWrite.plain_inv | apply restart_inv | dsimp -iota only | split)

theorem execMicroTrapEntry_inv {j : Fin 15} {e' : Fin 4} {s : State} (hs : InvQ wq s) : OutInv wq (execMicroTrapEntry j e' s) := by
  unfold execMicroTrapEntry
  try dsimp -iota only
  with_reducible repeat' (first | assumption | apply trapEntry_inv | exact OutInv.fault | apply OutInv.next | simp only [InvQ.mk_state] | apply InvQ.kept | dsimp -iota only | split)

theorem execTrapReturn_inv {j : Fin 15} {e' : Fin 4} {s : State} (hs : InvQ wq s) : OutInv wq (execTrapReturn j e' s) := by
  unfold execTrapReturn
  try dsimp -iota only
  with_reducible repeat' (first | assumption | apply updMicro_inv | exact OutInv.fault | apply OutInv.next | simp only [InvQ.mk_state] | apply InvQ.kept | dsimp -iota only | split)

theorem holdEngines_inv {s : State} {j : Nat} (hs : InvQ wq s) : InvQ wq (holdEngines s j) := by
  unfold holdEngines
  try dsimp -iota only
  with_reducible repeat' (first | assumption | apply setEngines_inv | apply forNat_inv | apply microByRom_inv | apply foldl_inv | dsimp -iota only | split | intro _)

theorem setWriteEn_inv {s : State} {j : Nat} {ring : Nat} {v : Bool} (hs : InvQ wq s) : InvQ wq (setWriteEn s j ring v) := by
  unfold setWriteEn
  try dsimp -iota only
  with_reducible repeat' (first | assumption | apply holdEngines_inv | apply wr1_inv | apply flag1_inv | apply releaseEngines_inv | dsimp -iota only | split)

theorem setPatchEn_inv {s : State} {j : Nat} {v : Bool} (hs : InvQ wq s) : InvQ wq (setPatchEn s j v) := by
  unfold setPatchEn
  try dsimp -iota only
  with_reducible repeat' (first | assumption | apply wr1_inv | apply flag1_inv | dsimp -iota only | split)

theorem writeMcCtl_inv {s : State} {w : RegWrite} {ring : Nat} (hs : InvQ wq s) : InvQ wq (writeMcCtl s w ring) := by
  unfold writeMcCtl
  try dsimp -iota only
  with_reducible repeat' (first | assumption | apply flag1_inv | apply RegWrite.plain_inv | apply setPatchEn_inv | apply setWriteEn_inv | dsimp -iota only | split)

theorem writePatch_inv {s : State} {w : RegWrite} (hs : InvQ wq s) : InvQ wq (writePatch s w) := by
  unfold writePatch
  try dsimp -iota only
  with_reducible repeat' (first | assumption | apply RegWrite.plain_inv | dsimp -iota only | split)

end Sys2Proof.Machine
end

