-- ==== Sys2Proof/Laws/InvPower.lean ====
section
/-! SUPPORT. Every operation over the state keeps the invariant Sys2Proof.Machine.Inv: one lemma for each, in the order of
the definitions. -/

set_option linter.unusedTactic false
set_option linter.unreachableTactic false
set_option linter.unusedSimpArgs false

namespace Sys2Proof.Machine

variable {wq : List Instr}

theorem setPhase_inv {s : State} {p : Option Phase} (hs : InvQ wq s) : InvQ wq (setPhase s p) := by
  unfold setPhase
  try dsimp -iota only
  with_reducible repeat' (first | assumption | apply updPower_inv | (intro _; rfl) | simp only [InvQ.mk_state] | apply InvQ.kept | dsimp -iota only)

theorem setMode_inv {s : State} {m : Mode} (hs : InvQ wq s) : InvQ wq (setMode s m) := by
  unfold setMode
  try dsimp -iota only
  with_reducible repeat' (first | assumption | apply updPower_inv | (intro _; rfl) | simp only [InvQ.mk_state] | apply InvQ.kept | dsimp -iota only)

theorem unpark_inv {s : State} (hs : InvQ wq s) : InvQ wq (unpark s) := by
  unfold unpark
  try dsimp -iota only
  with_reducible repeat' (first | assumption | apply bringupResume_inv | apply kickBus_inv | apply sendForwards_inv | apply dmaUnpark_inv | apply calEval_inv | apply foldl_inv | dsimp -iota only | intro _)

theorem runFrom_inv {s : State} {src : Nat} (hs : InvQ wq s) : InvQ wq (runFrom s src) := by
  unfold runFrom
  try dsimp -iota only
  with_reducible repeat' (first | assumption | apply wr0_inv | apply unpark_inv | dsimp -iota only | split)

theorem askSource_inv {s : State} {src : Nat} (hs : InvQ wq s) : InvQ wq (askSource s src) := by
  unfold askSource
  try dsimp -iota only
  with_reducible repeat' (first | assumption | apply flag0_inv | apply updPower_inv | (intro _; rfl) | apply wr0_inv | simp only [InvQ.mk_state] | apply InvQ.kept | dsimp -iota only | split)

theorem askPll_inv {s : State} {mult : Nat} {en : Bool} (hs : InvQ wq s) : InvQ wq (askPll s mult en) := by
  unfold askPll
  try dsimp -iota only
  with_reducible repeat' (first | assumption | apply flag0_inv | apply wr0_inv | dsimp -iota only | split)

theorem writeCore_inv {s : State} {w : RegWrite} (hs : InvQ wq s) : InvQ wq (writeCore s w) := by
  unfold writeCore
  try dsimp -iota only
  with_reducible repeat' (first | assumption | apply RegWrite.plain_inv | apply askSource_inv | apply askPll_inv | dsimp -iota only)

theorem endSwitch_inv {s : State} (hs : InvQ wq s) : InvQ wq (endSwitch s) := by
  unfold endSwitch
  try dsimp -iota only
  with_reducible repeat' (first | assumption | apply updPower_inv | (intro _; rfl) | apply wr0_inv | simp only [InvQ.mk_state] | apply InvQ.kept | dsimp -iota only)

theorem execClockSwitchDone_inv {s : State} (hs : InvQ wq s) : OutInv wq (execClockSwitchDone s) := by
  unfold execClockSwitchDone
  try dsimp -iota only
  with_reducible repeat' (first | assumption | apply runFrom_inv | apply endSwitch_inv | exact OutInv.fault | apply OutInv.next | dsimp -iota only | split)

theorem coreTrip_inv {s : State} {src : Nat} (hs : InvQ wq s) : InvQ wq (coreTrip s src) := by
  unfold coreTrip
  try dsimp -iota only
  with_reducible repeat' (first | assumption | apply flag0_inv | apply endSwitch_inv | apply wr0_inv | apply runFrom_inv | dsimp -iota only | split)

theorem execCoreClockTrip_inv {s : State} (hs : InvQ wq s) : OutInv wq (execCoreClockTrip s) := by
  unfold execCoreClockTrip
  try dsimp -iota only
  with_reducible repeat' (first | assumption | apply coreTrip_inv | exact OutInv.fault | apply OutInv.next | dsimp -iota only | split)

theorem phyTrip_inv {s : State} {g : Nat} (hs : InvQ wq s) : InvQ wq (phyTrip s g) := by
  unfold phyTrip
  try dsimp -iota only
  with_reducible repeat' (first | assumption | apply wr0_inv | apply loseGroup_inv | dsimp -iota only)

theorem execPhyPllTrip_inv {g : Fin 12} {s : State} (hs : InvQ wq s) : OutInv wq (execPhyPllTrip g s) := by
  unfold execPhyPllTrip
  try dsimp -iota only
  with_reducible repeat' (first | assumption | apply phyTrip_inv | exact OutInv.fault | apply OutInv.next | dsimp -iota only | split)

theorem preferredOwner_inv {s : State} (hs : InvQ wq s) : InvQ wq (preferredOwner s) := by
  unfold preferredOwner
  try dsimp -iota only
  with_reducible repeat' (first | assumption | apply setOwner_inv | dsimp -iota only | split)

theorem readyEntered_inv {s : State} (hs : InvQ wq s) : InvQ wq (readyEntered s) := by
  unfold readyEntered
  try dsimp -iota only
  with_reducible repeat' (first | assumption | apply kickAll_inv | apply wr0_inv | apply setPhase_inv | apply setMode_inv | apply preferredOwner_inv | dsimp -iota only)

theorem startUp_inv {s : State} {retained : Bool} (hs : InvQ wq s) : InvQ wq (startUp s retained) := by
  unfold startUp
  try dsimp -iota only
  with_reducible repeat' (first | assumption | apply setPhase_inv | apply setMode_inv | apply wr0_inv | dsimp -iota only)

theorem startStep3_inv {s : State} (hs : InvQ wq s) : InvQ wq (startStep3 s) := by
  unfold startStep3
  try dsimp -iota only
  with_reducible repeat' (first | assumption | apply setPhase_inv | apply updPower_inv | (intro _; rfl) | simp only [InvQ.mk_state] | apply InvQ.kept | dsimp -iota only)

theorem startStep4_inv {s : State} (hs : InvQ wq s) : InvQ wq (startStep4 s) := by
  unfold startStep4
  try dsimp -iota only
  with_reducible repeat' (first | assumption | apply powerUpAll_inv | apply setPhase_inv | apply runFrom_inv | dsimp -iota only)

theorem startStep5_inv {s : State} (hs : InvQ wq s) : InvQ wq (startStep5 s) := by
  unfold startStep5
  try dsimp -iota only
  with_reducible repeat' (first | assumption | apply readyEntered_inv | apply runFrom_inv | apply flag0_inv | apply setPhase_inv | dsimp -iota only | split)

theorem goActive_inv {s : State} (hs : InvQ wq s) : InvQ wq (goActive s) := by
  unfold goActive
  try dsimp -iota only
  with_reducible repeat' (first | assumption | apply kickAll_inv | apply wr0_inv | apply setPhase_inv | apply setMode_inv | apply powerUpAll_inv | dsimp -iota only | split)

theorem dropJobs_inv {s : State} (hs : InvQ wq s) : InvQ wq (dropJobs s) := by
  unfold dropJobs
  try dsimp -iota only
  with_reducible repeat' (first | assumption | apply stopItem_inv | apply foldl_inv | simp only [InvQ.mk_state] | apply InvQ.kept | dsimp -iota only | intro _)

theorem drainDone_inv {s : State} (hs : InvQ wq s) : InvQ wq (drainDone s) := by
  refine setPhase_inv (powerUpAll_inv (wr0_inv (foldl_inv_mem (dropJobs_inv (updPower_inv hs (fun _ => rfl))) (fun s d hd h => ?_))))
  split
  · have : d ≠ 0 := by
      intro e; subst e; revert hd; decide
    exact planDown_inv h this
  · exact h


theorem modeProgress_inv {s : State} (hs : InvQ wq s) : InvQ wq (modeProgress s) := by
  unfold modeProgress
  try dsimp -iota only
  with_reducible repeat' (first | assumption | apply startUp_inv | apply startStep3_inv | apply startStep5_inv | apply goActive_inv | apply drainDone_inv | apply readyEntered_inv | apply enterTest_inv | dsimp -iota only | split)

theorem refuseMode_inv {s : State} {reason : Nat} (hs : InvQ wq s) : InvQ wq (refuseMode s reason) := by
  unfold refuseMode
  try dsimp -iota only
  with_reducible repeat' (first | assumption | apply wr0_inv | apply flag0_inv | dsimp -iota only)

theorem acceptMode_inv {s : State} {t' : Nat} {ph : Option Phase} (hs : InvQ wq s) : InvQ wq (acceptMode s t' ph) := by
  unfold acceptMode
  try dsimp -iota only
  with_reducible repeat' (first | assumption | apply setPhase_inv | apply wr0_inv | dsimp -iota only)

theorem goOff_inv {s : State} (hs : InvQ wq s) : InvQ wq (goOff s) := shutDown_inv (planDowns_inv hs)


theorem goStandby_inv {s : State} (hs : InvQ wq s) : InvQ wq (goStandby s) := by
  unfold goStandby
  try dsimp -iota only
  with_reducible repeat' (first | assumption | apply setPhase_inv | apply setMode_inv | apply wr0_inv | apply unitDown_inv | dsimp -iota only)

theorem setTarget_inv {s : State} {t' : Nat} (hs : InvQ wq s) : InvQ wq (setTarget s t') := by
  unfold setTarget
  try dsimp -iota only
  with_reducible repeat' (first | assumption | apply refuseMode_inv | apply modeProgress_inv | apply startUp_inv | apply acceptMode_inv | apply enterOff_inv | apply goStandby_inv | apply frontEndsDown_inv | apply goOff_inv | apply unitDown_inv | dsimp -iota only | split)

theorem writeMode_inv {s : State} {w : RegWrite} (hs : InvQ wq s) : InvQ wq (writeMode s w) := by
  unfold writeMode
  try dsimp -iota only
  with_reducible repeat' (first | assumption | apply setTarget_inv | apply RegWrite.plain_inv | dsimp -iota only)

theorem setReq_inv {s : State} {d : Nat} {v : Bool} (hs : InvQ wq s) : InvQ wq (setReq s d v) := by
  unfold setReq
  try dsimp -iota only
  with_reducible repeat' (first | assumption | apply wr0_inv | dsimp -iota only)

theorem reqSet_inv {s : State} {d : Nat} (hs : InvQ wq s) : InvQ wq (reqSet s d) := by
  unfold reqSet
  try dsimp -iota only
  with_reducible repeat' (first | assumption | apply setReq_inv | apply powerUpAll_inv | dsimp -iota only | split)

theorem reqClear_inv {s : State} {d : Nat} (hs : InvQ wq s) (hd : d ≠ 0) : InvQ wq (reqClear s d) := by
  unfold reqClear
  split
  · split
    · exact flag0_inv hs
    · exact setReq_inv hs
  split
  · exact flag0_inv hs
  split
  · exact setReq_inv hs
  · exact powerDown_inv (unqueue_inv (setReq_inv hs)) hd


theorem writePwrReq_inv {s : State} {w : RegWrite} (hs : InvQ wq s) : InvQ wq (writePwrReq s w) := by
  unfold writePwrReq
  generalize (w.next s).toNat = new
  refine foldl_inv (foldl_inv_mem hs (fun s d hd h => ?_)) (fun s d h => ?_)
  · have : d ≠ 0 := by
      intro e; subst e; revert hd; decide
    split
    · exact reqClear_inv h this
    · exact h
  · split
    · exact reqSet_inv h
    · exact h


theorem sourceUp_inv {s : State} {src : ClockSel} (hs : InvQ wq s) : InvQ wq (sourceUp s src) := by
  unfold sourceUp
  try dsimp -iota only
  with_reducible repeat' (first | assumption | apply wr0_inv | apply startStep4_inv | apply startStep5_inv | apply wr1_inv | dsimp -iota only | split)

theorem execClockSourceReady_inv {src : ClockSel} {s : State} (hs : InvQ wq s) : OutInv wq (execClockSourceReady src s) := by
  unfold execClockSourceReady
  try dsimp -iota only
  with_reducible repeat' (first | assumption | apply sourceUp_inv | exact OutInv.fault | apply OutInv.next | dsimp -iota only)

theorem execCorePllLockTimeout_inv {s : State} (hs : InvQ wq s) : OutInv wq (execCorePllLockTimeout s) := by
  unfold execCorePllLockTimeout
  try dsimp -iota only
  with_reducible repeat' (first | assumption | apply lapse_inv | (refine lapse_inv_eq ?_ (by assumption)) | apply startStep5_inv | exact OutInv.fault | apply OutInv.next | dsimp -iota only | split)

theorem poreset_inv {s : State} (hs : InvQ wq s) : InvQ wq (poreset s) :=
  ⟨rfl, (by decide : 0 < 2 ^ 80), Nat.zero_le _, Nat.zero_le _, List.nodup_nil, (by decide : (1#20).getLsbD 0 = true), hs.queue⟩


theorem execPoresetAssert_inv {s : State} (hs : InvQ wq s) : OutInv wq (execPoresetAssert s) := by
  unfold execPoresetAssert
  try dsimp -iota only
  with_reducible repeat' (first | assumption | apply poreset_inv | exact OutInv.fault | apply OutInv.next | dsimp -iota only)

theorem execPoresetRelease_inv {s : State} (hs : InvQ wq s) : OutInv wq (execPoresetRelease s) := by
  unfold execPoresetRelease
  try dsimp -iota only
  with_reducible repeat' (first | assumption | apply updPower_inv | (intro _; rfl) | apply modeProgress_inv | apply startUp_inv | apply setPhase_inv | exact OutInv.fault | apply OutInv.next | simp only [InvQ.mk_state] | apply InvQ.kept | dsimp -iota only | split)

theorem resetDown_inv {s : State} (hs : InvQ wq s) : InvQ wq (resetDown s) := by
  unfold resetDown
  try dsimp -iota only
  with_reducible repeat' (first | assumption | apply goStandby_inv | apply bistAbort_inv | apply setPhase_inv | dsimp -iota only)

theorem sysresetDown_inv {s : State} (hs : InvQ wq s) : InvQ wq (sysresetDown s) := by
  unfold sysresetDown
  try dsimp -iota only
  with_reducible repeat' (first | assumption | apply updPower_inv | (intro _; rfl) | apply flag0_inv | apply wr0_inv | apply resetDown_inv | simp only [InvQ.mk_state] | apply InvQ.kept | dsimp -iota only | split)

theorem execSysresetAssert_inv {s : State} (hs : InvQ wq s) : OutInv wq (execSysresetAssert s) := by
  unfold execSysresetAssert
  try dsimp -iota only
  with_reducible repeat' (first | assumption | apply sysresetDown_inv | exact OutInv.fault | apply OutInv.next | dsimp -iota only)

theorem execSysresetRelease_inv {s : State} (hs : InvQ wq s) : OutInv wq (execSysresetRelease s) := by
  unfold execSysresetRelease
  try dsimp -iota only
  with_reducible repeat' (first | assumption | apply updPower_inv | (intro _; rfl) | apply modeProgress_inv | apply startUp_inv | apply flag0_inv | exact OutInv.fault | apply OutInv.next | simp only [InvQ.mk_state] | apply InvQ.kept | dsimp -iota only | split)

theorem bootSupplied_inv {s : State} {g : Nat} (hs : InvQ wq s) : InvQ wq (bootSupplied s g) := by
  unfold bootSupplied
  try dsimp -iota only
  with_reducible repeat' (first | assumption | simp only [InvQ.mk_state] | apply InvQ.kept | dsimp -iota only | split)

theorem execSupplyOkRise_inv {j : Fin 17} {s : State} (hs : InvQ wq s) : OutInv wq (execSupplyOkRise j s) := by
  unfold execSupplyOkRise
  try dsimp -iota only
  with_reducible repeat' (first | assumption | apply setSupply_inv | apply bootSupplied_inv | apply modeProgress_inv | apply powerNext_inv | exact OutInv.fault | apply OutInv.next | dsimp -iota only | split)

theorem brownOut_inv {s : State} (hs : InvQ wq s) : InvQ wq (brownOut s) := by
  unfold brownOut
  try dsimp -iota only
  with_reducible repeat' (first | assumption | apply flag0_inv | apply resetDown_inv | dsimp -iota only)

theorem pllFalls_inv {s : State} (hs : InvQ wq s) : InvQ wq (pllFalls s) := by
  unfold pllFalls
  try dsimp -iota only
  with_reducible repeat' (first | assumption | apply wr0_inv | apply flag0_inv | apply runFrom_inv | apply endSwitch_inv | apply phyTrip_inv | apply foldl_inv | dsimp -iota only | split | intro _)

theorem ringSupplyFalls_inv {s : State} (hs : InvQ wq s) : InvQ wq (ringSupplyFalls s) := by
  unfold ringSupplyFalls
  try dsimp -iota only
  with_reducible repeat' (first | assumption | apply laneFalls_inv | apply laneLoses_inv | apply ringOff_inv | apply flag0_inv | apply foldl_inv | dsimp -iota only | split | intro _)

theorem supplyFalls_inv {s : State} {j : Nat} (hs : InvQ wq s) : InvQ wq (supplyFalls s j) := by
  unfold supplyFalls
  try dsimp -iota only
  with_reducible repeat' (first | assumption | apply setSupply_inv | apply poreset_inv | apply brownOut_inv | apply pllFalls_inv | apply ringSupplyFalls_inv | apply vddqFalls_inv | dsimp -iota only | split)

theorem execSupplyOkFall_inv {j : Fin 17} {s : State} (hs : InvQ wq s) : OutInv wq (execSupplyOkFall j s) := by
  unfold execSupplyOkFall
  try dsimp -iota only
  with_reducible repeat' (first | assumption | apply supplyFalls_inv | exact OutInv.fault | apply OutInv.next | dsimp -iota only)

theorem execPwrWarnRise_inv {s : State} (hs : InvQ wq s) : OutInv wq (execPwrWarnRise s) := by
  unfold execPwrWarnRise
  try dsimp -iota only
  with_reducible repeat' (first | assumption | apply bistAbort_inv | apply warnRises_inv | exact OutInv.fault | apply OutInv.next | dsimp -iota only | split)

theorem execPwrWarnFall_inv {s : State} (hs : InvQ wq s) : OutInv wq (execPwrWarnFall s) := by
  unfold execPwrWarnFall
  try dsimp -iota only
  with_reducible repeat' (first | assumption | apply modeProgress_inv | apply powerNext_inv | apply warnFalls_inv | exact OutInv.fault | apply OutInv.next | dsimp -iota only)

theorem comesUp_inv {s : State} {d : Nat} (hs : InvQ wq s) : InvQ wq (comesUp s d) := by
  unfold comesUp
  try dsimp -iota only
  with_reducible repeat' (first | assumption | apply modeProgress_inv | apply unqueue_inv | apply domainComesUp_inv | dsimp -iota only)

theorem execPswAckRise_inv {i : Fin 20} {s : State} (hs : InvQ wq s) : OutInv wq (execPswAckRise i s) := by
  unfold execPswAckRise
  try dsimp -iota only
  with_reducible repeat' (first | assumption | apply setAck_inv | apply modeProgress_inv | apply comesUp_inv | exact OutInv.fault | apply OutInv.next | dsimp -iota only | split)

theorem pswDrops_inv {s : State} {d : Nat} (hs : InvQ wq s) : InvQ wq (pswDrops s d) := by
  unfold pswDrops
  try dsimp -iota only
  with_reducible repeat' (first | assumption | apply setAck_inv | apply loseDomain_inv | apply flag0_inv | dsimp -iota only | split)

theorem execPswAckUnplannedFall_inv {i : Fin 20} {s : State} (hs : InvQ wq s) : OutInv wq (execPswAckUnplannedFall i s) := by
  unfold execPswAckUnplannedFall
  try dsimp -iota only
  with_reducible repeat' (first | assumption | apply pswDrops_inv | exact OutInv.fault | apply OutInv.next | dsimp -iota only)

theorem execPswHandshakeTimeout_inv {i : Fin 20} {s : State} (hs : InvQ wq s) : OutInv wq (execPswHandshakeTimeout i s) := by
  unfold execPswHandshakeTimeout
  try dsimp -iota only
  with_reducible repeat' (first | assumption | apply lapse_inv | (refine lapse_inv_eq ?_ (by assumption)) | apply flag0_inv | exact OutInv.fault | apply OutInv.next | dsimp -iota only | split)

theorem execStrapChange_inv {s : State} (hs : InvQ wq s) : OutInv wq (execStrapChange s) := by
  unfold execStrapChange
  try dsimp -iota only
  with_reducible repeat' (first | assumption | apply updPower_inv | (intro _; rfl) | apply flag0_inv | exact OutInv.fault | apply OutInv.next | simp only [InvQ.mk_state] | apply InvQ.kept | dsimp -iota only | split)

theorem execFrontEndUp_inv {half : Fin 2} {s : State} (hs : InvQ wq s) : OutInv wq (execFrontEndUp half s) := by
  unfold execFrontEndUp
  try dsimp -iota only
  with_reducible repeat' (first | assumption | apply feBecomesUp_inv | apply domainComesUp_inv | exact OutInv.fault | apply OutInv.next | dsimp -iota only | split)

theorem frontEndStops_inv {s : State} {h : Nat} {cause : StopCause} (hs : InvQ wq s) : InvQ wq (frontEndStops s h cause) := by
  unfold frontEndStops
  try dsimp -iota only
  with_reducible repeat' (first | assumption | apply pswDrops_inv | apply loseFe_inv | apply setFeFences_inv | dsimp -iota only | split)

theorem execFrontEndStop_inv {half : Fin 2} {cause : StopCause} {s : State} (hs : InvQ wq s) : OutInv wq (execFrontEndStop half cause s) := by
  unfold execFrontEndStop
  try dsimp -iota only
  with_reducible repeat' (first | assumption | apply frontEndStops_inv | exact OutInv.fault | apply OutInv.next | dsimp -iota only)

theorem cyclesPerAon_inv {s : State} (hs : InvQ wq s) : InvQ wq (cyclesPerAon s).2 := by
  unfold cyclesPerAon
  try dsimp -iota only
  with_reducible repeat' (first | assumption | apply coreMhz_inv | (refine coreMhz_inv_eq ?_ (by assumption)) | dsimp -iota only)
theorem cyclesPerAon_inv_eq {s : State} (hs : InvQ wq s) {a₁ : _} {t : State} (e : cyclesPerAon s = (a₁, t)) : InvQ wq t := by
  have := cyclesPerAon_inv (s := s) hs
  rw [e] at this
  exact this

theorem tallyCycles_inv {s : State} (hs : InvQ wq s) : InvQ wq (tallyCycles s) := by
  unfold tallyCycles
  try dsimp -iota only
  with_reducible repeat' (first | assumption | apply cyclesPerAon_inv | (refine cyclesPerAon_inv_eq ?_ (by assumption)) | apply tallyN_inv | apply tally_inv | dsimp -iota only | split)

theorem takeSet_inv {s : State} (hs : InvQ wq s) : InvQ wq (takeSet s) := by
  unfold takeSet
  try dsimp -iota only
  with_reducible repeat' (first | assumption | apply aonTick_inv | apply ringSend_inv | apply retime_inv | dsimp -iota only | split)

theorem ringTick_inv {s : State} (hs : InvQ wq s) : InvQ wq (ringTick s) := by
  unfold ringTick
  try dsimp -iota only
  with_reducible repeat' (first | assumption | apply laneWatch_inv | apply ringDrain_inv | dsimp -iota only | split)

theorem wpTick_inv {s : State} (hs : InvQ wq s) : InvQ wq (wpTick s) := by
  unfold wpTick
  try dsimp -iota only
  with_reducible repeat' (first | assumption | simp only [InvQ.mk_state] | apply InvQ.kept | dsimp -iota only)

theorem settleTick_inv {s : State} (hs : InvQ wq s) : InvQ wq (settleTick s) := by
  unfold settleTick
  try dsimp -iota only
  with_reducible repeat' (first | assumption | apply settleEnd_inv | apply foldl_inv | dsimp -iota only | intro _)

theorem tick_inv {s : State} (hs : InvQ wq s) : InvQ wq (tick s) := by
  unfold tick
  try dsimp -iota only
  with_reducible repeat' (first | assumption | apply modeProgress_inv | apply powerNext_inv | apply settleTick_inv | apply wpTick_inv | apply ringTick_inv | apply tallyCycles_inv | apply takeSet_inv | dsimp -iota only)

end Sys2Proof.Machine
end

