-- ==== Sys2Proof/Laws/InvLocalWrites.lean ====
section
/-! SUPPORT. Every operation over the state keeps the invariant Sys2Proof.Machine.Inv: one lemma for each, in the order of
the definitions. -/

set_option linter.unusedTactic false
set_option linter.unreachableTactic false
set_option linter.unusedSimpArgs false

namespace Sys2Proof.Machine

variable {wq : List Instr}

theorem writeOwner_inv {s : State} {w : RegWrite} (hs : InvQ wq s) : InvQ wq (writeOwner s w) := by
  unfold writeOwner
  try dsimp -iota only
  with_reducible repeat' (first | assumption | apply RegWrite.plain_inv | apply flag0_inv | apply handoverAsked_inv | dsimp -iota only | split)

theorem writeFeFences_inv {s : State} {w : RegWrite} (hs : InvQ wq s) : InvQ wq (writeFeFences s w) := by
  unfold writeFeFences
  try dsimp -iota only
  with_reducible repeat' (first | assumption | apply setFeFences_inv | apply RegWrite.plain_inv | dsimp -iota only)

theorem writeKey_inv {s : State} {w : RegWrite} (hs : InvQ wq s) : InvQ wq (writeKey s w) := by
  unfold writeKey
  try dsimp -iota only
  with_reducible repeat' (first | assumption | apply RegWrite.plain_inv | dsimp -iota only | split)

theorem writeBootCtl_inv {s : State} {w : RegWrite} (hs : InvQ wq s) : InvQ wq (writeBootCtl s w) := by
  unfold writeBootCtl
  try dsimp -iota only
  with_reducible repeat' (first | assumption | apply RegWrite.plain_inv | apply reloadAsked_inv | apply slotServe_inv | apply releaseShadow_inv | dsimp -iota only | split)

theorem writeBist_inv {s : State} {w : RegWrite} (hs : InvQ wq s) : InvQ wq (writeBist s w) := by
  unfold writeBist
  try dsimp -iota only
  with_reducible repeat' (first | assumption | apply RegWrite.plain_inv | dsimp -iota only | split)

theorem localWrite_inv {s : State} {w : RegWrite} {ring : Nat} (hs : InvQ wq s) : InvQ wq (localWrite s w ring) := by
  unfold localWrite
  try dsimp -iota only
  with_reducible repeat' (first | assumption | apply writeOwner_inv | apply writeFeFences_inv | apply writeKey_inv | apply writeBase_inv | apply writeRingCfg_inv | apply writeIrqCoal_inv | apply writeSqTail_inv | apply writeRqHead_inv | apply writeRingStatus_inv | apply writeTiming_inv | apply writeBusCtl_inv | apply writeSched_inv | apply writeChCtl_inv | apply writeFence_inv | apply writePhy_inv | apply writeArm_inv | apply writeEngine_inv | apply writeDcCtl_inv | apply writeDcRing_inv | apply writeDcKick_inv | apply writeFifoCtl_inv | apply writeBank_inv | apply writeRemap_inv | apply writeBootCtl_inv | apply writeMcEng_inv | apply writeMcCtl_inv | apply writePatch_inv | apply writeCore_inv | apply writeMode_inv | apply writePwrReq_inv | apply writeBist_inv | apply writeCalCtl_inv | apply writeCalAlert_inv | apply writeTrim_inv | apply RegWrite.plain_inv | dsimp -iota only | split)

end Sys2Proof.Machine
end

