-- ==== Sys2Proof/Laws/InvAccess.lean ====
section
/-! SUPPORT. Every operation over the state keeps the invariant Sys2Proof.Machine.Inv: one lemma for each, in the order of
the definitions. -/

set_option linter.unusedTactic false
set_option linter.unreachableTactic false
set_option linter.unusedSimpArgs false

namespace Sys2Proof.Machine

variable {wq : List Instr}

theorem regWrite_inv {q : HostAccess} {s : State} {t' : Reg × Part} (hs : InvQ wq s) : InvQ wq (regWrite q s t') := by
  unfold regWrite
  try dsimp -iota only
  with_reducible repeat' (first | assumption | apply sharedWrite_inv | apply localWrite_inv | dsimp -iota only | split)

theorem writeParts_inv {s : State} {q : HostAccess} (hs : InvQ wq s) : InvQ wq (writeParts s q) := by
  unfold writeParts
  try dsimp -iota only
  with_reducible repeat' (first | assumption | apply regWrite_inv | apply foldl_inv | dsimp -iota only | intro _)

theorem plainWrite_inv {s : State} {q : HostAccess} (hs : InvQ wq s) : InvQ wq (plainWrite s q) := by
  unfold plainWrite
  try dsimp -iota only
  with_reducible repeat' (first | assumption | apply writeParts_inv | dsimp -iota only | split)

theorem stopRun_inv {s : State} {c : Instr} (hs : InvQ wq s) : OptInv wq (stopRun s c) := by
  unfold stopRun
  split
  · exact OptInv.some (frontEndStops_inv hs)
  · exact OptInv.some (pswDrops_inv hs)
  · exact OptInv.some (sysresetDown_inv hs)
  · exact OptInv.some (supplyFalls_inv hs)
  · cases stopAccess c with
    | none => exact OptInv.none
    | some q => exact OptInv.some (plainWrite_inv hs)
theorem stopRun_inv_eq {s : State} {c : Instr} (hs : InvQ wq s) {t : State} (e : stopRun s c = some t) : InvQ wq t := by
  have := stopRun_inv hs (c := c)
  rw [e] at this
  exact this


theorem postedAccess_inv {s : State} {q : HostAccess} (hs : InvQ wq s) : InvQ wq (postedAccess s q) := by
  unfold postedAccess
  try dsimp -iota only
  with_reducible repeat' (first | assumption | apply freeBit_inv | (refine freeBit_inv_eq ?_ (by assumption)) | apply writeParts_inv | dsimp -iota only | split)

theorem applyAccess_inv {s : State} {q : HostAccess} (hs : InvQ wq s) : InvQ wq (applyAccess s q) := by
  unfold applyAccess
  try dsimp -iota only
  with_reducible repeat' (first | assumption | apply postedAccess_inv | apply answer_inv | apply readAccess_inv | (refine readAccess_inv_eq ?_ (by assumption)) | dsimp -iota only | split)

theorem hostAccess_inv {s : State} {q : HostAccess} (hs : InvQ wq s) : InvQ wq (hostAccess s q) := by
  unfold hostAccess
  try dsimp -iota only
  with_reducible repeat' (first | assumption | apply answer_inv | apply holdAccess_inv | apply windowAccess_inv | apply applyAccess_inv | dsimp -iota only | split)

theorem applyLate_inv {s : State} {q : HostAccess} {sl : RspSlot} (hs : InvQ wq s) : InvQ wq (applyLate s q sl) := by
  unfold applyLate
  try dsimp -iota only
  with_reducible repeat' (first | assumption | apply answer_inv | apply windowHold_inv | apply windowAnswer_inv | apply writeParts_inv | apply readAccess_inv | (refine readAccess_inv_eq ?_ (by assumption)) | dsimp -iota only | split)

theorem drainOne_inv {s : State} {h : HeldReq} (hs : InvQ wq s) : InvQ wq (drainOne s h) := by
  unfold drainOne
  try dsimp -iota only
  with_reducible repeat' (first | assumption | apply applyLate_inv | apply applyHeldOne_inv | simp only [InvQ.mk_state] | apply InvQ.kept | dsimp -iota only | split)

theorem drainHeld_inv {s : State} (hs : InvQ wq s) : InvQ wq (drainHeld s) := by
  unfold drainHeld
  try dsimp -iota only
  with_reducible repeat' (first | assumption | apply drainOne_inv | apply foldl_inv | simp only [InvQ.mk_state] | apply InvQ.kept | dsimp -iota only | intro _)

theorem idle_inv {s : State} (hs : InvQ wq s) : InvQ wq (idle s) := by
  unfold idle
  try dsimp -iota only
  with_reducible repeat' (first | assumption | apply drainHeld_inv | apply tick_inv | dsimp -iota only | split)

theorem writeRow_inv {a : Acc} {r : Reg} {v : W64} {ok : Bool} {s : State} (hs : InvQ wq s) : OutInv wq (writeRow a r v ok s) := by
  unfold writeRow
  try dsimp -iota only
  with_reducible repeat' (first | assumption | apply hostAccess_inv | exact OutInv.fault | apply OutInv.next | dsimp -iota only | split)

theorem writeRow32_inv {a : Acc} {r : Reg} {v : W32} {ok : Bool} {s : State} (hs : InvQ wq s) : OutInv wq (writeRow32 a r v ok s) := by
  unfold writeRow32
  try dsimp -iota only
  with_reducible repeat' (first | assumption | apply writeRow_inv | exact OutInv.fault | apply OutInv.next | dsimp -iota only)

end Sys2Proof.Machine
end

