-- ==== Sys2Proof/Laws/InvHostCmds.lean ====
section
/-! SUPPORT. Every operation over the state keeps the invariant Sys2Proof.Machine.Inv: one lemma for each, in the order of
the definitions. -/

set_option linter.unusedTactic false
set_option linter.unreachableTactic false
set_option linter.unusedSimpArgs false

namespace Sys2Proof.Machine

variable {wq : List Instr}

theorem execSqTailDoorbell_inv {a : Acc} {k : Fin 256} {v : W32} {s : State} (hs : InvQ wq s) : OutInv wq (execSqTailDoorbell a k v s) := by
  unfold execSqTailDoorbell
  try dsimp -iota only
  with_reducible repeat' (first | assumption | apply writeRow32_inv | exact OutInv.fault | apply OutInv.next | dsimp -iota only)

theorem execRqHeadWrite_inv {a : Acc} {k : Fin 256} {v : W32} {s : State} (hs : InvQ wq s) : OutInv wq (execRqHeadWrite a k v s) := by
  unfold execRqHeadWrite
  try dsimp -iota only
  with_reducible repeat' (first | assumption | apply writeRow32_inv | exact OutInv.fault | apply OutInv.next | dsimp -iota only)

theorem execRingEnable_inv {a : Acc} {k : Fin 256} {v : W32} {s : State} (hs : InvQ wq s) : OutInv wq (execRingEnable a k v s) := by
  unfold execRingEnable
  try dsimp -iota only
  with_reducible repeat' (first | assumption | apply writeRow32_inv | exact OutInv.fault | apply OutInv.next | dsimp -iota only)

theorem execRingDisable_inv {a : Acc} {k : Fin 256} {v : W32} {s : State} (hs : InvQ wq s) : OutInv wq (execRingDisable a k v s) := by
  unfold execRingDisable
  try dsimp -iota only
  with_reducible repeat' (first | assumption | apply writeRow32_inv | exact OutInv.fault | apply OutInv.next | dsimp -iota only)

theorem execRingCfgWrite_inv {a : Acc} {k : Fin 256} {v : W32} {s : State} (hs : InvQ wq s) : OutInv wq (execRingCfgWrite a k v s) := by
  unfold execRingCfgWrite
  try dsimp -iota only
  with_reducible repeat' (first | assumption | apply writeRow32_inv | exact OutInv.fault | apply OutInv.next | dsimp -iota only)

theorem execFetchErrClear_inv {a : Acc} {k : Fin 256} {v : W32} {s : State} (hs : InvQ wq s) : OutInv wq (execFetchErrClear a k v s) := by
  unfold execFetchErrClear
  try dsimp -iota only
  with_reducible repeat' (first | assumption | apply writeRow32_inv | exact OutInv.fault | apply OutInv.next | dsimp -iota only)

theorem execRcptErrClear_inv {a : Acc} {k : Fin 256} {v : W32} {s : State} (hs : InvQ wq s) : OutInv wq (execRcptErrClear a k v s) := by
  unfold execRcptErrClear
  try dsimp -iota only
  with_reducible repeat' (first | assumption | apply writeRow32_inv | exact OutInv.fault | apply OutInv.next | dsimp -iota only)

theorem execForceAltWrite_inv {a : Acc} {v : W32} {s : State} (hs : InvQ wq s) : OutInv wq (execForceAltWrite a v s) := by
  unfold execForceAltWrite
  try dsimp -iota only
  with_reducible repeat' (first | assumption | apply writeRow32_inv | exact OutInv.fault | apply OutInv.next | dsimp -iota only)

theorem execHandoverRequest_inv {a : Acc} {v : W32} {s : State} (hs : InvQ wq s) : OutInv wq (execHandoverRequest a v s) := by
  unfold execHandoverRequest
  try dsimp -iota only
  with_reducible repeat' (first | assumption | apply writeRow32_inv | exact OutInv.fault | apply OutInv.next | dsimp -iota only)

theorem execTbSetWrite_inv {a : Acc} {v : W64} {s : State} (hs : InvQ wq s) : OutInv wq (execTbSetWrite a v s) := by
  unfold execTbSetWrite
  try dsimp -iota only
  with_reducible repeat' (first | assumption | apply writeRow_inv | exact OutInv.fault | apply OutInv.next | dsimp -iota only)

theorem execRandKeyWrite_inv {a : Acc} {v : W32} {s : State} (hs : InvQ wq s) : OutInv wq (execRandKeyWrite a v s) := by
  unfold execRandKeyWrite
  try dsimp -iota only
  with_reducible repeat' (first | assumption | apply writeRow32_inv | exact OutInv.fault | apply OutInv.next | dsimp -iota only)

theorem execRingStartWrite_inv {a : Acc} {v : W64} {s : State} (hs : InvQ wq s) : OutInv wq (execRingStartWrite a v s) := by
  unfold execRingStartWrite
  try dsimp -iota only
  with_reducible repeat' (first | assumption | apply writeRow_inv | exact OutInv.fault | apply OutInv.next | dsimp -iota only)

theorem execReenumWrite_inv {a : Acc} {v : W32} {s : State} (hs : InvQ wq s) : OutInv wq (execReenumWrite a v s) := by
  unfold execReenumWrite
  try dsimp -iota only
  with_reducible repeat' (first | assumption | apply writeRow32_inv | exact OutInv.fault | apply OutInv.next | dsimp -iota only)

theorem execRingPortEnable_inv {a : Acc} {v : W32} {s : State} (hs : InvQ wq s) : OutInv wq (execRingPortEnable a v s) := by
  unfold execRingPortEnable
  try dsimp -iota only
  with_reducible repeat' (first | assumption | apply writeRow32_inv | exact OutInv.fault | apply OutInv.next | dsimp -iota only)

theorem execInitWrite_inv {a : Acc} {g : Fin 12} {v : W64} {s : State} (hs : InvQ wq s) : OutInv wq (execInitWrite a g v s) := by
  unfold execInitWrite
  try dsimp -iota only
  with_reducible repeat' (first | assumption | apply writeRow_inv | exact OutInv.fault | apply OutInv.next | dsimp -iota only)

theorem execInertWrite_inv {a : Acc} {g : Fin 12} {v : W64} {s : State} (hs : InvQ wq s) : OutInv wq (execInertWrite a g v s) := by
  unfold execInertWrite
  try dsimp -iota only
  with_reducible repeat' (first | assumption | apply writeRow_inv | exact OutInv.fault | apply OutInv.next | dsimp -iota only)

theorem execChEnableWrite_inv {a : Acc} {ch : Fin 48} {v : W32} {s : State} (hs : InvQ wq s) : OutInv wq (execChEnableWrite a ch v s) := by
  unfold execChEnableWrite
  try dsimp -iota only
  with_reducible repeat' (first | assumption | apply writeRow32_inv | exact OutInv.fault | apply OutInv.next | dsimp -iota only)

theorem execChDisableWrite_inv {a : Acc} {ch : Fin 48} {v : W32} {s : State} (hs : InvQ wq s) : OutInv wq (execChDisableWrite a ch v s) := by
  unfold execChDisableWrite
  try dsimp -iota only
  with_reducible repeat' (first | assumption | apply writeRow32_inv | exact OutInv.fault | apply OutInv.next | dsimp -iota only)

theorem execCgFenceWrite_inv {a : Acc} {g : Fin 12} {v : W32} {s : State} (hs : InvQ wq s) : OutInv wq (execCgFenceWrite a g v s) := by
  unfold execCgFenceWrite
  try dsimp -iota only
  with_reducible repeat' (first | assumption | apply writeRow32_inv | exact OutInv.fault | apply OutInv.next | dsimp -iota only)

theorem execDeCtlWrite_inv {a : Acc} {e' : Fin 40} {v : W32} {s : State} (hs : InvQ wq s) : OutInv wq (execDeCtlWrite a e' v s) := by
  unfold execDeCtlWrite
  try dsimp -iota only
  with_reducible repeat' (first | assumption | apply writeRow32_inv | exact OutInv.fault | apply OutInv.next | dsimp -iota only)

theorem execPoolFenceWrite_inv {a : Acc} {v : W32} {s : State} (hs : InvQ wq s) : OutInv wq (execPoolFenceWrite a v s) := by
  unfold execPoolFenceWrite
  try dsimp -iota only
  with_reducible repeat' (first | assumption | apply writeRow32_inv | exact OutInv.fault | apply OutInv.next | dsimp -iota only)

theorem execDcEnableWrite_inv {a : Acc} {d : Fin 32} {v : W32} {s : State} (hs : InvQ wq s) : OutInv wq (execDcEnableWrite a d v s) := by
  unfold execDcEnableWrite
  try dsimp -iota only
  with_reducible repeat' (first | assumption | apply writeRow32_inv | exact OutInv.fault | apply OutInv.next | dsimp -iota only)

theorem execDcDisableWrite_inv {a : Acc} {d : Fin 32} {v : W32} {s : State} (hs : InvQ wq s) : OutInv wq (execDcDisableWrite a d v s) := by
  unfold execDcDisableWrite
  try dsimp -iota only
  with_reducible repeat' (first | assumption | apply writeRow32_inv | exact OutInv.fault | apply OutInv.next | dsimp -iota only)

theorem execDcKickWrite_inv {a : Acc} {d : Fin 32} {v : W32} {s : State} (hs : InvQ wq s) : OutInv wq (execDcKickWrite a d v s) := by
  unfold execDcKickWrite
  try dsimp -iota only
  with_reducible repeat' (first | assumption | apply writeRow32_inv | exact OutInv.fault | apply OutInv.next | dsimp -iota only)

theorem execFifoFlushWrite_inv {a : Acc} {ch : Fin 48} {v : W32} {s : State} (hs : InvQ wq s) : OutInv wq (execFifoFlushWrite a ch v s) := by
  unfold execFifoFlushWrite
  try dsimp -iota only
  with_reducible repeat' (first | assumption | apply writeRow32_inv | exact OutInv.fault | apply OutInv.next | dsimp -iota only)

theorem execFifoDbgEnableWrite_inv {a : Acc} {ch : Fin 48} {v : W32} {s : State} (hs : InvQ wq s) : OutInv wq (execFifoDbgEnableWrite a ch v s) := by
  unfold execFifoDbgEnableWrite
  try dsimp -iota only
  with_reducible repeat' (first | assumption | apply writeRow32_inv | exact OutInv.fault | apply OutInv.next | dsimp -iota only)

theorem execFifoDbgPop_inv {a : Acc} {ch : Fin 48} {f : Fin 4} {size64 : Bool} {s : State} (hs : InvQ wq s) : OutInv wq (execFifoDbgPop a ch f size64 s) := by
  unfold execFifoDbgPop
  try dsimp -iota only
  with_reducible repeat' (first | assumption | apply hostAccess_inv | exact OutInv.fault | apply OutInv.next | simp only [InvQ.mk_state] | apply InvQ.kept | dsimp -iota only)

theorem execIcClaimRead_inv {a : Acc} {t' : Fin 8} {s : State} (hs : InvQ wq s) : OutInv wq (execIcClaimRead a t' s) := by
  unfold execIcClaimRead
  try dsimp -iota only
  with_reducible repeat' (first | assumption | apply hostAccess_inv | exact OutInv.fault | apply OutInv.next | dsimp -iota only)

theorem execIcCompleteWrite_inv {a : Acc} {t' : Fin 8} {v : W32} {s : State} (hs : InvQ wq s) : OutInv wq (execIcCompleteWrite a t' v s) := by
  unfold execIcCompleteWrite
  try dsimp -iota only
  with_reducible repeat' (first | assumption | apply writeRow32_inv | exact OutInv.fault | apply OutInv.next | dsimp -iota only)

theorem execIcForceWrite_inv {a : Acc} {n : Fin 512} {v : W32} {s : State} (hs : InvQ wq s) : OutInv wq (execIcForceWrite a n v s) := by
  unfold execIcForceWrite
  try dsimp -iota only
  with_reducible repeat' (first | assumption | apply writeRow32_inv | exact OutInv.fault | apply OutInv.next | dsimp -iota only)

theorem execIcSenseWrite_inv {a : Acc} {n : Fin 512} {v : W32} {s : State} (hs : InvQ wq s) : OutInv wq (execIcSenseWrite a n v s) := by
  unfold execIcSenseWrite
  try dsimp -iota only
  with_reducible repeat' (first | assumption | apply writeRow32_inv | exact OutInv.fault | apply OutInv.next | dsimp -iota only)

theorem execSnapNowWrite_inv {a : Acc} {v : W32} {s : State} (hs : InvQ wq s) : OutInv wq (execSnapNowWrite a v s) := by
  unfold execSnapNowWrite
  try dsimp -iota only
  with_reducible repeat' (first | assumption | apply writeRow32_inv | exact OutInv.fault | apply OutInv.next | dsimp -iota only)

theorem execTallyCountWrite_inv {a : Acc} {i : Fin 64} {v : W64} {s : State} (hs : InvQ wq s) : OutInv wq (execTallyCountWrite a i v s) := by
  unfold execTallyCountWrite
  try dsimp -iota only
  with_reducible repeat' (first | assumption | apply writeRow_inv | exact OutInv.fault | apply OutInv.next | dsimp -iota only)

theorem execSmBankFenceWrite_inv {a : Acc} {b : Fin 16} {v : W32} {s : State} (hs : InvQ wq s) : OutInv wq (execSmBankFenceWrite a b v s) := by
  unfold execSmBankFenceWrite
  try dsimp -iota only
  with_reducible repeat' (first | assumption | apply writeRow32_inv | exact OutInv.fault | apply OutInv.next | dsimp -iota only)

theorem execSmRetireWrite_inv {a : Acc} {b : Fin 16} {v : W32} {s : State} (hs : InvQ wq s) : OutInv wq (execSmRetireWrite a b v s) := by
  unfold execSmRetireWrite
  try dsimp -iota only
  with_reducible repeat' (first | assumption | apply writeRow32_inv | exact OutInv.fault | apply OutInv.next | dsimp -iota only)

theorem execItemSlotsWrite_inv {a : Acc} {b : Fin 16} {v : W32} {s : State} (hs : InvQ wq s) : OutInv wq (execItemSlotsWrite a b v s) := by
  unfold execItemSlotsWrite
  try dsimp -iota only
  with_reducible repeat' (first | assumption | apply writeRow32_inv | exact OutInv.fault | apply OutInv.next | dsimp -iota only)

theorem execSmRemapWrite_inv {a : Acc} {b : Fin 16} {e' : Fin 8} {v : W32} {s : State} (hs : InvQ wq s) : OutInv wq (execSmRemapWrite a b e' v s) := by
  unfold execSmRemapWrite
  try dsimp -iota only
  with_reducible repeat' (first | assumption | apply writeRow32_inv | exact OutInv.fault | apply OutInv.next | dsimp -iota only)

theorem execSmFlipArm_inv {a : Acc} {v : W32} {s : State} (hs : InvQ wq s) : OutInv wq (execSmFlipArm a v s) := by
  unfold execSmFlipArm
  try dsimp -iota only
  with_reducible repeat' (first | assumption | apply writeRow32_inv | exact OutInv.fault | apply OutInv.next | dsimp -iota only)

theorem execChFlipArm_inv {a : Acc} {ch : Fin 48} {v : W32} {s : State} (hs : InvQ wq s) : OutInv wq (execChFlipArm a ch v s) := by
  unfold execChFlipArm
  try dsimp -iota only
  with_reducible repeat' (first | assumption | apply writeRow32_inv | exact OutInv.fault | apply OutInv.next | dsimp -iota only)

theorem execWinEnRelease_inv {a : Acc} {v : W32} {s : State} (hs : InvQ wq s) : OutInv wq (execWinEnRelease a v s) := by
  unfold execWinEnRelease
  try dsimp -iota only
  with_reducible repeat' (first | assumption | apply writeRow32_inv | exact OutInv.fault | apply OutInv.next | dsimp -iota only)

theorem execBootReloadWrite_inv {a : Acc} {v : W32} {s : State} (hs : InvQ wq s) : OutInv wq (execBootReloadWrite a v s) := by
  unfold execBootReloadWrite
  try dsimp -iota only
  with_reducible repeat' (first | assumption | apply writeRow32_inv | exact OutInv.fault | apply OutInv.next | dsimp -iota only)

theorem execBootWindowRead_inv {a : Acc} {offset : BitVec 21} {size64 : Bool} {s : State} (hs : InvQ wq s) : OutInv wq (execBootWindowRead a offset size64 s) := by
  unfold execBootWindowRead
  try dsimp -iota only
  with_reducible repeat' (first | assumption | apply hostAccess_inv | exact OutInv.fault | apply OutInv.next | dsimp -iota only)

theorem execBootWindowFetch_inv {a : Acc} {offset : BitVec 21} {size64 : Bool} {s : State} (hs : InvQ wq s) : OutInv wq (execBootWindowFetch a offset size64 s) := by
  unfold execBootWindowFetch
  try dsimp -iota only
  with_reducible repeat' (first | assumption | apply hostAccess_inv | exact OutInv.fault | apply OutInv.next | dsimp -iota only)

theorem execModeTargetReady_inv {a : Acc} {v : W32} {s : State} (hs : InvQ wq s) : OutInv wq (execModeTargetReady a v s) := by
  unfold execModeTargetReady
  try dsimp -iota only
  with_reducible repeat' (first | assumption | apply writeRow32_inv | exact OutInv.fault | apply OutInv.next | dsimp -iota only)

theorem execModeTargetActive_inv {a : Acc} {v : W32} {s : State} (hs : InvQ wq s) : OutInv wq (execModeTargetActive a v s) := by
  unfold execModeTargetActive
  try dsimp -iota only
  with_reducible repeat' (first | assumption | apply writeRow32_inv | exact OutInv.fault | apply OutInv.next | dsimp -iota only)

theorem execModeTargetStandby_inv {a : Acc} {v : W32} {s : State} (hs : InvQ wq s) : OutInv wq (execModeTargetStandby a v s) := by
  unfold execModeTargetStandby
  try dsimp -iota only
  with_reducible repeat' (first | assumption | apply writeRow32_inv | exact OutInv.fault | apply OutInv.next | dsimp -iota only)

theorem execModeTargetOff_inv {a : Acc} {v : W32} {s : State} (hs : InvQ wq s) : OutInv wq (execModeTargetOff a v s) := by
  unfold execModeTargetOff
  try dsimp -iota only
  with_reducible repeat' (first | assumption | apply writeRow32_inv | exact OutInv.fault | apply OutInv.next | dsimp -iota only)

theorem execModeTargetTest_inv {a : Acc} {v : W32} {s : State} (hs : InvQ wq s) : OutInv wq (execModeTargetTest a v s) := by
  unfold execModeTargetTest
  try dsimp -iota only
  with_reducible repeat' (first | assumption | apply writeRow32_inv | exact OutInv.fault | apply OutInv.next | dsimp -iota only)

theorem execPwrReqWrite_inv {a : Acc} {v : W32} {s : State} (hs : InvQ wq s) : OutInv wq (execPwrReqWrite a v s) := by
  unfold execPwrReqWrite
  try dsimp -iota only
  with_reducible repeat' (first | assumption | apply writeRow32_inv | exact OutInv.fault | apply OutInv.next | dsimp -iota only)

theorem execCkSrcWrite_inv {a : Acc} {v : W32} {s : State} (hs : InvQ wq s) : OutInv wq (execCkSrcWrite a v s) := by
  unfold execCkSrcWrite
  try dsimp -iota only
  with_reducible repeat' (first | assumption | apply writeRow32_inv | exact OutInv.fault | apply OutInv.next | dsimp -iota only)

theorem execCkPllWrite_inv {a : Acc} {v : W32} {s : State} (hs : InvQ wq s) : OutInv wq (execCkPllWrite a v s) := by
  unfold execCkPllWrite
  try dsimp -iota only
  with_reducible repeat' (first | assumption | apply writeRow32_inv | exact OutInv.fault | apply OutInv.next | dsimp -iota only)

theorem execMcWriteEnWrite_inv {a : Acc} {j : Fin 15} {v : W64} {s : State} (hs : InvQ wq s) : OutInv wq (execMcWriteEnWrite a j v s) := by
  unfold execMcWriteEnWrite
  try dsimp -iota only
  with_reducible repeat' (first | assumption | apply writeRow_inv | exact OutInv.fault | apply OutInv.next | dsimp -iota only)

theorem execMcPatchEnWrite_inv {a : Acc} {j : Fin 15} {v : W64} {s : State} (hs : InvQ wq s) : OutInv wq (execMcPatchEnWrite a j v s) := by
  unfold execMcPatchEnWrite
  try dsimp -iota only
  with_reducible repeat' (first | assumption | apply writeRow_inv | exact OutInv.fault | apply OutInv.next | dsimp -iota only)

theorem execMcRestartWrite_inv {a : Acc} {j : Fin 15} {e' : Fin 4} {v : W64} {s : State} (hs : InvQ wq s) : OutInv wq (execMcRestartWrite a j e' v s) := by
  unfold execMcRestartWrite
  try dsimp -iota only
  with_reducible repeat' (first | assumption | apply writeRow_inv | exact OutInv.fault | apply OutInv.next | dsimp -iota only)

theorem execSvcFeFenceWrite_inv {a : Acc} {v : W32} {s : State} (hs : InvQ wq s) : OutInv wq (execSvcFeFenceWrite a v s) := by
  unfold execSvcFeFenceWrite
  try dsimp -iota only
  with_reducible repeat' (first | assumption | apply writeRow32_inv | exact OutInv.fault | apply OutInv.next | dsimp -iota only)

theorem execTrimWrite_inv {a : Acc} {t' : TrimSel} {v : W64} {s : State} (hs : InvQ wq s) : OutInv wq (execTrimWrite a t' v s) := by
  unfold execTrimWrite
  try dsimp -iota only
  with_reducible repeat' (first | assumption | apply writeRow_inv | exact OutInv.fault | apply OutInv.next | dsimp -iota only)

theorem execHalfRead_inv {a : Acc} {addr : BitVec 24} {s : State} (hs : InvQ wq s) : OutInv wq (execHalfRead a addr s) := by
  unfold execHalfRead
  try dsimp -iota only
  with_reducible repeat' (first | assumption | apply hostAccess_inv | exact OutInv.fault | apply OutInv.next | dsimp -iota only)

theorem execReadClearAccess_inv {a : Acc} {addr : BitVec 24} {size64 : Bool} {s : State} (hs : InvQ wq s) : OutInv wq (execReadClearAccess a addr size64 s) := by
  unfold execReadClearAccess
  try dsimp -iota only
  with_reducible repeat' (first | assumption | apply hostAccess_inv | exact OutInv.fault | apply OutInv.next | dsimp -iota only)

theorem execRegisterWrite_inv {a : Acc} {addr : BitVec 24} {size64 : Bool} {v : W64} {s : State} (hs : InvQ wq s) : OutInv wq (execRegisterWrite a addr size64 v s) := by
  unfold execRegisterWrite
  try dsimp -iota only
  with_reducible repeat' (first | assumption | apply hostAccess_inv | exact OutInv.fault | apply OutInv.next | simp only [InvQ.mk_state] | apply InvQ.kept | dsimp -iota only)

theorem execErrorResponse_inv {q : HostAccess} {s : State} (hs : InvQ wq s) : OutInv wq (execErrorResponse q s) := by
  unfold execErrorResponse
  try dsimp -iota only
  with_reducible repeat' (first | assumption | apply hostAccess_inv | exact OutInv.fault | apply OutInv.next | dsimp -iota only)

end Sys2Proof.Machine
end

