-- ==== Sys2Proof/Laws/InvIrq.lean ====
section
/-! SUPPORT. Every operation over the state keeps the invariant Sys2Proof.Machine.Inv: one lemma for each, in the order of
the definitions. -/

set_option linter.unusedTactic false
set_option linter.unreachableTactic false
set_option linter.unusedSimpArgs false

namespace Sys2Proof.Machine

variable {wq : List Instr}

theorem execInterruptInputChange_inv {n : Fin 512} {level : Bool} {s : State} (hs : InvQ wq s) : OutInv wq (execInterruptInputChange n level s) := by
  unfold execInterruptInputChange
  try dsimp -iota only
  with_reducible repeat' (first | assumption | apply irqSample_inv | exact OutInv.fault | apply OutInv.next | dsimp -iota only | split)

theorem execCoalTimeExpiry_inv {k : Fin 256} {s : State} (hs : InvQ wq s) : OutInv wq (execCoalTimeExpiry k s) := by
  unfold execCoalTimeExpiry
  try dsimp -iota only
  with_reducible repeat' (first | assumption | apply lapse_inv | (refine lapse_inv_eq ?_ (by assumption)) | apply flag1_inv | exact OutInv.fault | apply OutInv.next | dsimp -iota only | split)

end Sys2Proof.Machine
end

