-- ==== Sys2Proof/Laws/Regs.lean ====
section
/-! SUPPORT. Laws of tables, bit fields and registers: a read after a write (R7). -/

namespace Sys2Proof.Machine

/-! ### Tables -/

theorem Tab.get_set_same {κ α : Type} [DecidableEq κ] (t : Tab κ α) (k : κ) (a d : α) :
    Tab.get (Tab.set t k a) k d = a := by
  induction t with
  | nil => simp [Tab.set, Tab.get]
  | cons e r ih =>
    obtain ⟨k', a'⟩ := e
    by_cases h : k' = k <;> simp [Tab.set, Tab.get, h, ih]

theorem Tab.get_set_other {κ α : Type} [DecidableEq κ] (t : Tab κ α) (k k' : κ) (a d : α) (h : k' ≠ k) :
    Tab.get (Tab.set t k a) k' d = Tab.get t k' d := by
  induction t with
  | nil => simp [Tab.set, Tab.get, Ne.symm h]
  | cons e r ih =>
    obtain ⟨j, b⟩ := e
    by_cases h1 : j = k
    · subst h1; simp [Tab.set, Tab.get, Ne.symm h]
    · by_cases h2 : j = k'
      · subst h2; simp [Tab.set, Tab.get, h1]
      · simp [Tab.set, Tab.get, h1, h2, ih]

@[simp] theorem Tab.get_set {κ α : Type} [DecidableEq κ] (t : Tab κ α) (k k' : κ) (a d : α) :
    Tab.get (Tab.set t k a) k' d = if k' = k then a else Tab.get t k' d := by
  by_cases h : k' = k
  · subst h; simp [Tab.get_set_same]
  · simp [Tab.get_set_other, h]

/-! ### Bit fields -/

theorem getLsbD_fmask (lo len i : Nat) : (fmask lo len).getLsbD i = (decide (i < 64) && decide (lo ≤ i) && decide (i < lo + len)) := by
  simp only [fmask, BitVec.getLsbD_shiftLeft, BitVec.getLsbD_ofNat, Nat.testBit_two_pow_sub_one]
  rw [Bool.eq_iff_iff]
  simp
  omega

theorem getLsbD_fset (w : W64) (lo len v i : Nat) :
    (fset w lo len v).getLsbD i = if lo ≤ i ∧ i < lo + len ∧ i < 64 then v.testBit (i - lo) else w.getLsbD i := by
  simp only [fset, BitVec.getLsbD_or, BitVec.getLsbD_and, BitVec.getLsbD_not, getLsbD_fmask, BitVec.getLsbD_shiftLeft,
    BitVec.getLsbD_ofNat]
  by_cases h1 : i < 64
  · by_cases h2 : lo ≤ i
    · by_cases h3 : i < lo + len
      · have h4 : i - lo < 64 := by omega
        have h5 : ¬ i < lo := by omega
        simp [h1, h2, h3, h4, h5]
      · simp [h1, h2, h3]
    · simp [h1, h2]
  · have h2 : 64 ≤ i := by omega
    simp [h1, BitVec.getLsbD_of_ge w i h2]

theorem testBit_fget (w : W64) (lo len i : Nat) : (fget w lo len).testBit i = (decide (i < len) && w.getLsbD (lo + i)) := by
  simp [fget, Nat.testBit_mod_two_pow, BitVec.testBit_toNat]

theorem fget_lt (w : W64) (lo len : Nat) : fget w lo len < 2 ^ len := Nat.mod_lt _ (Nat.two_pow_pos len)

/-- A field that was just written holds the low bits of what was written. -/
theorem fget_fset_same (w : W64) (lo len v : Nat) (h : lo + len ≤ 64) : fget (fset w lo len v) lo len = v % 2 ^ len := by
  apply Nat.eq_of_testBit_eq
  intro i
  rw [testBit_fget, getLsbD_fset, Nat.testBit_mod_two_pow]
  by_cases h1 : i < len
  · simp [h1]; omega
  · simp [h1]

/-- A field that shares no bit with the one written keeps its value. -/
theorem fget_fset_other (w : W64) (lo len v lo' len' : Nat) (h : lo' + len' ≤ lo ∨ lo + len ≤ lo') :
    fget (fset w lo len v) lo' len' = fget w lo' len' := by
  apply Nat.eq_of_testBit_eq
  intro i
  rw [testBit_fget, testBit_fget, getLsbD_fset]
  by_cases h1 : i < len'
  · simp only [h1, decide_true, Bool.true_and]
    rw [if_neg]; omega
  · simp [h1]

/-! ### Registers -/

@[simp] theorem getR_setR (s : State) (n n' : RegName) (i j k i' j' k' : Nat) (v : W64) :
    getR (setR s n i j k v) n' i' j' k' = if n' = n ∧ i' = i ∧ j' = j ∧ k' = k then v else getR s n' i' j' k' := by
  simp [getR, setR]

theorem rd_wr_same (s : State) (f : Fld) (i j k v : Nat) (h : f.lo + f.len ≤ 64) :
    rd (wr s f i j k v) f i j k = v % 2 ^ f.len := by
  simp [rd, wr, fget_fset_same, h]

/-- A field of another register, or of another instance, keeps its value. -/
theorem rd_wr_reg (s : State) (f g : Fld) (i j k i' j' k' v : Nat) (h : g.reg ≠ f.reg ∨ i' ≠ i ∨ j' ≠ j ∨ k' ≠ k) :
    rd (wr s f i j k v) g i' j' k' = rd s g i' j' k' := by
  have : ¬ (g.reg = f.reg ∧ i' = i ∧ j' = j ∧ k' = k) := by tauto
  simp [rd, wr, this]

/-- Another field of the same register keeps its value. -/
theorem rd_wr_fld (s : State) (f g : Fld) (i j k i' j' k' v : Nat) (h : g.lo + g.len ≤ f.lo ∨ f.lo + f.len ≤ g.lo) :
    rd (wr s f i j k v) g i' j' k' = rd s g i' j' k' := by
  by_cases h1 : g.reg = f.reg ∧ i' = i ∧ j' = j ∧ k' = k
  · obtain ⟨h1, rfl, rfl, rfl⟩ := h1
    simp [rd, wr, h1, fget_fset_other, h]
  · simp [rd, wr, h1]

/-- A register that `wr` does not name keeps its stored value. -/
theorem getR_wr (s : State) (f : Fld) (n : RegName) (i j k i' j' k' v : Nat) (h : n ≠ f.reg) :
    getR (wr s f i j k v) n i' j' k' = getR s n i' j' k' := by
  simp [wr, h]

end Sys2Proof.Machine
end

