-- ==== Sys2Proof/Laws/State.lean ====
section
/-! SUPPORT. What each update of the state leaves alone, field by field. -/

namespace Sys2Proof.Machine

@[simp] theorem setR_pending (s : State) (n : RegName) (i j k : Nat) (v : W64) : (setR s n i j k v).pending = s.pending := rfl
@[simp] theorem setR_tb (s : State) (n : RegName) (i j k : Nat) (v : W64) : (setR s n i j k v).tb = s.tb := rfl
@[simp] theorem setR_fine (s : State) (n : RegName) (i j k : Nat) (v : W64) : (setR s n i j k v).fine = s.fine := rfl
@[simp] theorem setR_clk (s : State) (n : RegName) (i j k : Nat) (v : W64) : (setR s n i j k v).clk = s.clk := rfl
@[simp] theorem setR_tbNext (s : State) (n : RegName) (i j k : Nat) (v : W64) : (setR s n i j k v).tbNext = s.tbNext := rfl
@[simp] theorem setR_freeCtr (s : State) (n : RegName) (i j k : Nat) (v : W64) : (setR s n i j k v).freeCtr = s.freeCtr := rfl
@[simp] theorem setR_nextId (s : State) (n : RegName) (i j k : Nat) (v : W64) : (setR s n i j k v).nextId = s.nextId := rfl
@[simp] theorem setR_items (s : State) (n : RegName) (i j k : Nat) (v : W64) : (setR s n i j k v).items = s.items := rfl
@[simp] theorem setR_rings (s : State) (n : RegName) (i j k : Nat) (v : W64) : (setR s n i j k v).rings = s.rings := rfl
@[simp] theorem setR_hold (s : State) (n : RegName) (i j k : Nat) (v : W64) : (setR s n i j k v).hold = s.hold := rfl
@[simp] theorem setR_fences (s : State) (n : RegName) (i j k : Nat) (v : W64) : (setR s n i j k v).fences = s.fences := rfl
@[simp] theorem setR_served (s : State) (n : RegName) (i j k : Nat) (v : W64) : (setR s n i j k v).served = s.served := rfl
@[simp] theorem setR_luns (s : State) (n : RegName) (i j k : Nat) (v : W64) : (setR s n i j k v).luns = s.luns := rfl
@[simp] theorem setR_chans (s : State) (n : RegName) (i j k : Nat) (v : W64) : (setR s n i j k v).chans = s.chans := rfl
@[simp] theorem setR_ledger (s : State) (n : RegName) (i j k : Nat) (v : W64) : (setR s n i j k v).ledger = s.ledger := rfl
@[simp] theorem setR_jobs (s : State) (n : RegName) (i j k : Nat) (v : W64) : (setR s n i j k v).jobs = s.jobs := rfl
@[simp] theorem setR_engines (s : State) (n : RegName) (i j k : Nat) (v : W64) : (setR s n i j k v).engines = s.engines := rfl
@[simp] theorem setR_dma (s : State) (n : RegName) (i j k : Nat) (v : W64) : (setR s n i j k v).dma = s.dma := rfl
@[simp] theorem setR_entryWait (s : State) (n : RegName) (i j k : Nat) (v : W64) : (setR s n i j k v).entryWait = s.entryWait := rfl
@[simp] theorem setR_fifos (s : State) (n : RegName) (i j k : Nat) (v : W64) : (setR s n i j k v).fifos = s.fifos := rfl
@[simp] theorem setR_hi (s : State) (n : RegName) (i j k : Nat) (v : W64) : (setR s n i j k v).hi = s.hi := rfl
@[simp] theorem setR_hiSeq (s : State) (n : RegName) (i j k : Nat) (v : W64) : (setR s n i j k v).hiSeq = s.hiSeq := rfl
@[simp] theorem setR_staging (s : State) (n : RegName) (i j k : Nat) (v : W64) : (setR s n i j k v).staging = s.staging := rfl
@[simp] theorem setR_patrol (s : State) (n : RegName) (i j k : Nat) (v : W64) : (setR s n i j k v).patrol = s.patrol := rfl
@[simp] theorem setR_boot (s : State) (n : RegName) (i j k : Nat) (v : W64) : (setR s n i j k v).boot = s.boot := rfl
@[simp] theorem setR_micro (s : State) (n : RegName) (i j k : Nat) (v : W64) : (setR s n i j k v).micro = s.micro := rfl
@[simp] theorem setR_ring (s : State) (n : RegName) (i j k : Nat) (v : W64) : (setR s n i j k v).ring = s.ring := rfl
@[simp] theorem setR_ringTx (s : State) (n : RegName) (i j k : Nat) (v : W64) : (setR s n i j k v).ringTx = s.ringTx := rfl
@[simp] theorem setR_host (s : State) (n : RegName) (i j k : Nat) (v : W64) : (setR s n i j k v).host = s.host := rfl
@[simp] theorem setR_power (s : State) (n : RegName) (i j k : Nat) (v : W64) : (setR s n i j k v).power = s.power := rfl
@[simp] theorem setR_groups (s : State) (n : RegName) (i j k : Nat) (v : W64) : (setR s n i j k v).groups = s.groups := rfl
@[simp] theorem setR_test (s : State) (n : RegName) (i j k : Nat) (v : W64) : (setR s n i j k v).test = s.test := rfl

@[simp] theorem wr_pending (s : State) (f : Fld) (i j k v : Nat) : (wr s f i j k v).pending = s.pending := rfl
@[simp] theorem wr_tb (s : State) (f : Fld) (i j k v : Nat) : (wr s f i j k v).tb = s.tb := rfl
@[simp] theorem wr_fine (s : State) (f : Fld) (i j k v : Nat) : (wr s f i j k v).fine = s.fine := rfl
@[simp] theorem wr_clk (s : State) (f : Fld) (i j k v : Nat) : (wr s f i j k v).clk = s.clk := rfl
@[simp] theorem wr_tbNext (s : State) (f : Fld) (i j k v : Nat) : (wr s f i j k v).tbNext = s.tbNext := rfl
@[simp] theorem wr_freeCtr (s : State) (f : Fld) (i j k v : Nat) : (wr s f i j k v).freeCtr = s.freeCtr := rfl
@[simp] theorem wr_nextId (s : State) (f : Fld) (i j k v : Nat) : (wr s f i j k v).nextId = s.nextId := rfl
@[simp] theorem wr_items (s : State) (f : Fld) (i j k v : Nat) : (wr s f i j k v).items = s.items := rfl
@[simp] theorem wr_rings (s : State) (f : Fld) (i j k v : Nat) : (wr s f i j k v).rings = s.rings := rfl
@[simp] theorem wr_hold (s : State) (f : Fld) (i j k v : Nat) : (wr s f i j k v).hold = s.hold := rfl
@[simp] theorem wr_fences (s : State) (f : Fld) (i j k v : Nat) : (wr s f i j k v).fences = s.fences := rfl
@[simp] theorem wr_served (s : State) (f : Fld) (i j k v : Nat) : (wr s f i j k v).served = s.served := rfl
@[simp] theorem wr_luns (s : State) (f : Fld) (i j k v : Nat) : (wr s f i j k v).luns = s.luns := rfl
@[simp] theorem wr_chans (s : State) (f : Fld) (i j k v : Nat) : (wr s f i j k v).chans = s.chans := rfl
@[simp] theorem wr_ledger (s : State) (f : Fld) (i j k v : Nat) : (wr s f i j k v).ledger = s.ledger := rfl
@[simp] theorem wr_jobs (s : State) (f : Fld) (i j k v : Nat) : (wr s f i j k v).jobs = s.jobs := rfl
@[simp] theorem wr_engines (s : State) (f : Fld) (i j k v : Nat) : (wr s f i j k v).engines = s.engines := rfl
@[simp] theorem wr_dma (s : State) (f : Fld) (i j k v : Nat) : (wr s f i j k v).dma = s.dma := rfl
@[simp] theorem wr_entryWait (s : State) (f : Fld) (i j k v : Nat) : (wr s f i j k v).entryWait = s.entryWait := rfl
@[simp] theorem wr_fifos (s : State) (f : Fld) (i j k v : Nat) : (wr s f i j k v).fifos = s.fifos := rfl
@[simp] theorem wr_hi (s : State) (f : Fld) (i j k v : Nat) : (wr s f i j k v).hi = s.hi := rfl
@[simp] theorem wr_hiSeq (s : State) (f : Fld) (i j k v : Nat) : (wr s f i j k v).hiSeq = s.hiSeq := rfl
@[simp] theorem wr_staging (s : State) (f : Fld) (i j k v : Nat) : (wr s f i j k v).staging = s.staging := rfl
@[simp] theorem wr_patrol (s : State) (f : Fld) (i j k v : Nat) : (wr s f i j k v).patrol = s.patrol := rfl
@[simp] theorem wr_boot (s : State) (f : Fld) (i j k v : Nat) : (wr s f i j k v).boot = s.boot := rfl
@[simp] theorem wr_micro (s : State) (f : Fld) (i j k v : Nat) : (wr s f i j k v).micro = s.micro := rfl
@[simp] theorem wr_ring (s : State) (f : Fld) (i j k v : Nat) : (wr s f i j k v).ring = s.ring := rfl
@[simp] theorem wr_ringTx (s : State) (f : Fld) (i j k v : Nat) : (wr s f i j k v).ringTx = s.ringTx := rfl
@[simp] theorem wr_host (s : State) (f : Fld) (i j k v : Nat) : (wr s f i j k v).host = s.host := rfl
@[simp] theorem wr_power (s : State) (f : Fld) (i j k v : Nat) : (wr s f i j k v).power = s.power := rfl
@[simp] theorem wr_groups (s : State) (f : Fld) (i j k v : Nat) : (wr s f i j k v).groups = s.groups := rfl
@[simp] theorem wr_test (s : State) (f : Fld) (i j k v : Nat) : (wr s f i j k v).test = s.test := rfl

@[simp] theorem wr0_pending (s : State) (f : Fld) (v : Nat) : (wr0 s f v).pending = s.pending := rfl
@[simp] theorem wr0_tb (s : State) (f : Fld) (v : Nat) : (wr0 s f v).tb = s.tb := rfl
@[simp] theorem wr0_fine (s : State) (f : Fld) (v : Nat) : (wr0 s f v).fine = s.fine := rfl
@[simp] theorem wr0_clk (s : State) (f : Fld) (v : Nat) : (wr0 s f v).clk = s.clk := rfl
@[simp] theorem wr0_tbNext (s : State) (f : Fld) (v : Nat) : (wr0 s f v).tbNext = s.tbNext := rfl
@[simp] theorem wr0_freeCtr (s : State) (f : Fld) (v : Nat) : (wr0 s f v).freeCtr = s.freeCtr := rfl
@[simp] theorem wr0_nextId (s : State) (f : Fld) (v : Nat) : (wr0 s f v).nextId = s.nextId := rfl
@[simp] theorem wr0_items (s : State) (f : Fld) (v : Nat) : (wr0 s f v).items = s.items := rfl
@[simp] theorem wr0_rings (s : State) (f : Fld) (v : Nat) : (wr0 s f v).rings = s.rings := rfl
@[simp] theorem wr0_hold (s : State) (f : Fld) (v : Nat) : (wr0 s f v).hold = s.hold := rfl
@[simp] theorem wr0_fences (s : State) (f : Fld) (v : Nat) : (wr0 s f v).fences = s.fences := rfl
@[simp] theorem wr0_served (s : State) (f : Fld) (v : Nat) : (wr0 s f v).served = s.served := rfl
@[simp] theorem wr0_luns (s : State) (f : Fld) (v : Nat) : (wr0 s f v).luns = s.luns := rfl
@[simp] theorem wr0_chans (s : State) (f : Fld) (v : Nat) : (wr0 s f v).chans = s.chans := rfl
@[simp] theorem wr0_ledger (s : State) (f : Fld) (v : Nat) : (wr0 s f v).ledger = s.ledger := rfl
@[simp] theorem wr0_jobs (s : State) (f : Fld) (v : Nat) : (wr0 s f v).jobs = s.jobs := rfl
@[simp] theorem wr0_engines (s : State) (f : Fld) (v : Nat) : (wr0 s f v).engines = s.engines := rfl
@[simp] theorem wr0_dma (s : State) (f : Fld) (v : Nat) : (wr0 s f v).dma = s.dma := rfl
@[simp] theorem wr0_entryWait (s : State) (f : Fld) (v : Nat) : (wr0 s f v).entryWait = s.entryWait := rfl
@[simp] theorem wr0_fifos (s : State) (f : Fld) (v : Nat) : (wr0 s f v).fifos = s.fifos := rfl
@[simp] theorem wr0_hi (s : State) (f : Fld) (v : Nat) : (wr0 s f v).hi = s.hi := rfl
@[simp] theorem wr0_hiSeq (s : State) (f : Fld) (v : Nat) : (wr0 s f v).hiSeq = s.hiSeq := rfl
@[simp] theorem wr0_staging (s : State) (f : Fld) (v : Nat) : (wr0 s f v).staging = s.staging := rfl
@[simp] theorem wr0_patrol (s : State) (f : Fld) (v : Nat) : (wr0 s f v).patrol = s.patrol := rfl
@[simp] theorem wr0_boot (s : State) (f : Fld) (v : Nat) : (wr0 s f v).boot = s.boot := rfl
@[simp] theorem wr0_micro (s : State) (f : Fld) (v : Nat) : (wr0 s f v).micro = s.micro := rfl
@[simp] theorem wr0_ring (s : State) (f : Fld) (v : Nat) : (wr0 s f v).ring = s.ring := rfl
@[simp] theorem wr0_ringTx (s : State) (f : Fld) (v : Nat) : (wr0 s f v).ringTx = s.ringTx := rfl
@[simp] theorem wr0_host (s : State) (f : Fld) (v : Nat) : (wr0 s f v).host = s.host := rfl
@[simp] theorem wr0_power (s : State) (f : Fld) (v : Nat) : (wr0 s f v).power = s.power := rfl
@[simp] theorem wr0_groups (s : State) (f : Fld) (v : Nat) : (wr0 s f v).groups = s.groups := rfl
@[simp] theorem wr0_test (s : State) (f : Fld) (v : Nat) : (wr0 s f v).test = s.test := rfl

@[simp] theorem wr1_pending (s : State) (f : Fld) (i v : Nat) : (wr1 s f i v).pending = s.pending := rfl
@[simp] theorem wr1_tb (s : State) (f : Fld) (i v : Nat) : (wr1 s f i v).tb = s.tb := rfl
@[simp] theorem wr1_fine (s : State) (f : Fld) (i v : Nat) : (wr1 s f i v).fine = s.fine := rfl
@[simp] theorem wr1_clk (s : State) (f : Fld) (i v : Nat) : (wr1 s f i v).clk = s.clk := rfl
@[simp] theorem wr1_tbNext (s : State) (f : Fld) (i v : Nat) : (wr1 s f i v).tbNext = s.tbNext := rfl
@[simp] theorem wr1_freeCtr (s : State) (f : Fld) (i v : Nat) : (wr1 s f i v).freeCtr = s.freeCtr := rfl
@[simp] theorem wr1_nextId (s : State) (f : Fld) (i v : Nat) : (wr1 s f i v).nextId = s.nextId := rfl
@[simp] theorem wr1_items (s : State) (f : Fld) (i v : Nat) : (wr1 s f i v).items = s.items := rfl
@[simp] theorem wr1_rings (s : State) (f : Fld) (i v : Nat) : (wr1 s f i v).rings = s.rings := rfl
@[simp] theorem wr1_hold (s : State) (f : Fld) (i v : Nat) : (wr1 s f i v).hold = s.hold := rfl
@[simp] theorem wr1_fences (s : State) (f : Fld) (i v : Nat) : (wr1 s f i v).fences = s.fences := rfl
@[simp] theorem wr1_served (s : State) (f : Fld) (i v : Nat) : (wr1 s f i v).served = s.served := rfl
@[simp] theorem wr1_luns (s : State) (f : Fld) (i v : Nat) : (wr1 s f i v).luns = s.luns := rfl
@[simp] theorem wr1_chans (s : State) (f : Fld) (i v : Nat) : (wr1 s f i v).chans = s.chans := rfl
@[simp] theorem wr1_ledger (s : State) (f : Fld) (i v : Nat) : (wr1 s f i v).ledger = s.ledger := rfl
@[simp] theorem wr1_jobs (s : State) (f : Fld) (i v : Nat) : (wr1 s f i v).jobs = s.jobs := rfl
@[simp] theorem wr1_engines (s : State) (f : Fld) (i v : Nat) : (wr1 s f i v).engines = s.engines := rfl
@[simp] theorem wr1_dma (s : State) (f : Fld) (i v : Nat) : (wr1 s f i v).dma = s.dma := rfl
@[simp] theorem wr1_entryWait (s : State) (f : Fld) (i v : Nat) : (wr1 s f i v).entryWait = s.entryWait := rfl
@[simp] theorem wr1_fifos (s : State) (f : Fld) (i v : Nat) : (wr1 s f i v).fifos = s.fifos := rfl
@[simp] theorem wr1_hi (s : State) (f : Fld) (i v : Nat) : (wr1 s f i v).hi = s.hi := rfl
@[simp] theorem wr1_hiSeq (s : State) (f : Fld) (i v : Nat) : (wr1 s f i v).hiSeq = s.hiSeq := rfl
@[simp] theorem wr1_staging (s : State) (f : Fld) (i v : Nat) : (wr1 s f i v).staging = s.staging := rfl
@[simp] theorem wr1_patrol (s : State) (f : Fld) (i v : Nat) : (wr1 s f i v).patrol = s.patrol := rfl
@[simp] theorem wr1_boot (s : State) (f : Fld) (i v : Nat) : (wr1 s f i v).boot = s.boot := rfl
@[simp] theorem wr1_micro (s : State) (f : Fld) (i v : Nat) : (wr1 s f i v).micro = s.micro := rfl
@[simp] theorem wr1_ring (s : State) (f : Fld) (i v : Nat) : (wr1 s f i v).ring = s.ring := rfl
@[simp] theorem wr1_ringTx (s : State) (f : Fld) (i v : Nat) : (wr1 s f i v).ringTx = s.ringTx := rfl
@[simp] theorem wr1_host (s : State) (f : Fld) (i v : Nat) : (wr1 s f i v).host = s.host := rfl
@[simp] theorem wr1_power (s : State) (f : Fld) (i v : Nat) : (wr1 s f i v).power = s.power := rfl
@[simp] theorem wr1_groups (s : State) (f : Fld) (i v : Nat) : (wr1 s f i v).groups = s.groups := rfl
@[simp] theorem wr1_test (s : State) (f : Fld) (i v : Nat) : (wr1 s f i v).test = s.test := rfl

@[simp] theorem flag0_pending (s : State) (f : Fld) : (flag0 s f).pending = s.pending := rfl
@[simp] theorem flag0_tb (s : State) (f : Fld) : (flag0 s f).tb = s.tb := rfl
@[simp] theorem flag0_fine (s : State) (f : Fld) : (flag0 s f).fine = s.fine := rfl
@[simp] theorem flag0_clk (s : State) (f : Fld) : (flag0 s f).clk = s.clk := rfl
@[simp] theorem flag0_tbNext (s : State) (f : Fld) : (flag0 s f).tbNext = s.tbNext := rfl
@[simp] theorem flag0_freeCtr (s : State) (f : Fld) : (flag0 s f).freeCtr = s.freeCtr := rfl
@[simp] theorem flag0_nextId (s : State) (f : Fld) : (flag0 s f).nextId = s.nextId := rfl
@[simp] theorem flag0_items (s : State) (f : Fld) : (flag0 s f).items = s.items := rfl
@[simp] theorem flag0_rings (s : State) (f : Fld) : (flag0 s f).rings = s.rings := rfl
@[simp] theorem flag0_hold (s : State) (f : Fld) : (flag0 s f).hold = s.hold := rfl
@[simp] theorem flag0_fences (s : State) (f : Fld) : (flag0 s f).fences = s.fences := rfl
@[simp] theorem flag0_served (s : State) (f : Fld) : (flag0 s f).served = s.served := rfl
@[simp] theorem flag0_luns (s : State) (f : Fld) : (flag0 s f).luns = s.luns := rfl
@[simp] theorem flag0_chans (s : State) (f : Fld) : (flag0 s f).chans = s.chans := rfl
@[simp] theorem flag0_ledger (s : State) (f : Fld) : (flag0 s f).ledger = s.ledger := rfl
@[simp] theorem flag0_jobs (s : State) (f : Fld) : (flag0 s f).jobs = s.jobs := rfl
@[simp] theorem flag0_engines (s : State) (f : Fld) : (flag0 s f).engines = s.engines := rfl
@[simp] theorem flag0_dma (s : State) (f : Fld) : (flag0 s f).dma = s.dma := rfl
@[simp] theorem flag0_entryWait (s : State) (f : Fld) : (flag0 s f).entryWait = s.entryWait := rfl
@[simp] theorem flag0_fifos (s : State) (f : Fld) : (flag0 s f).fifos = s.fifos := rfl
@[simp] theorem flag0_hi (s : State) (f : Fld) : (flag0 s f).hi = s.hi := rfl
@[simp] theorem flag0_hiSeq (s : State) (f : Fld) : (flag0 s f).hiSeq = s.hiSeq := rfl
@[simp] theorem flag0_staging (s : State) (f : Fld) : (flag0 s f).staging = s.staging := rfl
@[simp] theorem flag0_patrol (s : State) (f : Fld) : (flag0 s f).patrol = s.patrol := rfl
@[simp] theorem flag0_boot (s : State) (f : Fld) : (flag0 s f).boot = s.boot := rfl
@[simp] theorem flag0_micro (s : State) (f : Fld) : (flag0 s f).micro = s.micro := rfl
@[simp] theorem flag0_ring (s : State) (f : Fld) : (flag0 s f).ring = s.ring := rfl
@[simp] theorem flag0_ringTx (s : State) (f : Fld) : (flag0 s f).ringTx = s.ringTx := rfl
@[simp] theorem flag0_host (s : State) (f : Fld) : (flag0 s f).host = s.host := rfl
@[simp] theorem flag0_power (s : State) (f : Fld) : (flag0 s f).power = s.power := rfl
@[simp] theorem flag0_groups (s : State) (f : Fld) : (flag0 s f).groups = s.groups := rfl
@[simp] theorem flag0_test (s : State) (f : Fld) : (flag0 s f).test = s.test := rfl

@[simp] theorem flag1_pending (s : State) (f : Fld) (i : Nat) : (flag1 s f i).pending = s.pending := rfl
@[simp] theorem flag1_tb (s : State) (f : Fld) (i : Nat) : (flag1 s f i).tb = s.tb := rfl
@[simp] theorem flag1_fine (s : State) (f : Fld) (i : Nat) : (flag1 s f i).fine = s.fine := rfl
@[simp] theorem flag1_clk (s : State) (f : Fld) (i : Nat) : (flag1 s f i).clk = s.clk := rfl
@[simp] theorem flag1_tbNext (s : State) (f : Fld) (i : Nat) : (flag1 s f i).tbNext = s.tbNext := rfl
@[simp] theorem flag1_freeCtr (s : State) (f : Fld) (i : Nat) : (flag1 s f i).freeCtr = s.freeCtr := rfl
@[simp] theorem flag1_nextId (s : State) (f : Fld) (i : Nat) : (flag1 s f i).nextId = s.nextId := rfl
@[simp] theorem flag1_items (s : State) (f : Fld) (i : Nat) : (flag1 s f i).items = s.items := rfl
@[simp] theorem flag1_rings (s : State) (f : Fld) (i : Nat) : (flag1 s f i).rings = s.rings := rfl
@[simp] theorem flag1_hold (s : State) (f : Fld) (i : Nat) : (flag1 s f i).hold = s.hold := rfl
@[simp] theorem flag1_fences (s : State) (f : Fld) (i : Nat) : (flag1 s f i).fences = s.fences := rfl
@[simp] theorem flag1_served (s : State) (f : Fld) (i : Nat) : (flag1 s f i).served = s.served := rfl
@[simp] theorem flag1_luns (s : State) (f : Fld) (i : Nat) : (flag1 s f i).luns = s.luns := rfl
@[simp] theorem flag1_chans (s : State) (f : Fld) (i : Nat) : (flag1 s f i).chans = s.chans := rfl
@[simp] theorem flag1_ledger (s : State) (f : Fld) (i : Nat) : (flag1 s f i).ledger = s.ledger := rfl
@[simp] theorem flag1_jobs (s : State) (f : Fld) (i : Nat) : (flag1 s f i).jobs = s.jobs := rfl
@[simp] theorem flag1_engines (s : State) (f : Fld) (i : Nat) : (flag1 s f i).engines = s.engines := rfl
@[simp] theorem flag1_dma (s : State) (f : Fld) (i : Nat) : (flag1 s f i).dma = s.dma := rfl
@[simp] theorem flag1_entryWait (s : State) (f : Fld) (i : Nat) : (flag1 s f i).entryWait = s.entryWait := rfl
@[simp] theorem flag1_fifos (s : State) (f : Fld) (i : Nat) : (flag1 s f i).fifos = s.fifos := rfl
@[simp] theorem flag1_hi (s : State) (f : Fld) (i : Nat) : (flag1 s f i).hi = s.hi := rfl
@[simp] theorem flag1_hiSeq (s : State) (f : Fld) (i : Nat) : (flag1 s f i).hiSeq = s.hiSeq := rfl
@[simp] theorem flag1_staging (s : State) (f : Fld) (i : Nat) : (flag1 s f i).staging = s.staging := rfl
@[simp] theorem flag1_patrol (s : State) (f : Fld) (i : Nat) : (flag1 s f i).patrol = s.patrol := rfl
@[simp] theorem flag1_boot (s : State) (f : Fld) (i : Nat) : (flag1 s f i).boot = s.boot := rfl
@[simp] theorem flag1_micro (s : State) (f : Fld) (i : Nat) : (flag1 s f i).micro = s.micro := rfl
@[simp] theorem flag1_ring (s : State) (f : Fld) (i : Nat) : (flag1 s f i).ring = s.ring := rfl
@[simp] theorem flag1_ringTx (s : State) (f : Fld) (i : Nat) : (flag1 s f i).ringTx = s.ringTx := rfl
@[simp] theorem flag1_host (s : State) (f : Fld) (i : Nat) : (flag1 s f i).host = s.host := rfl
@[simp] theorem flag1_power (s : State) (f : Fld) (i : Nat) : (flag1 s f i).power = s.power := rfl
@[simp] theorem flag1_groups (s : State) (f : Fld) (i : Nat) : (flag1 s f i).groups = s.groups := rfl
@[simp] theorem flag1_test (s : State) (f : Fld) (i : Nat) : (flag1 s f i).test = s.test := rfl

@[simp] theorem updItem_pending (s : State) (id : Nat) (f : Item → Item) : (updItem s id f).pending = s.pending := rfl
@[simp] theorem updItem_regs (s : State) (id : Nat) (f : Item → Item) : (updItem s id f).regs = s.regs := rfl
@[simp] theorem updItem_tb (s : State) (id : Nat) (f : Item → Item) : (updItem s id f).tb = s.tb := rfl
@[simp] theorem updItem_fine (s : State) (id : Nat) (f : Item → Item) : (updItem s id f).fine = s.fine := rfl
@[simp] theorem updItem_clk (s : State) (id : Nat) (f : Item → Item) : (updItem s id f).clk = s.clk := rfl
@[simp] theorem updItem_tbNext (s : State) (id : Nat) (f : Item → Item) : (updItem s id f).tbNext = s.tbNext := rfl
@[simp] theorem updItem_freeCtr (s : State) (id : Nat) (f : Item → Item) : (updItem s id f).freeCtr = s.freeCtr := rfl
@[simp] theorem updItem_nextId (s : State) (id : Nat) (f : Item → Item) : (updItem s id f).nextId = s.nextId := rfl
@[simp] theorem updItem_rings (s : State) (id : Nat) (f : Item → Item) : (updItem s id f).rings = s.rings := rfl
@[simp] theorem updItem_hold (s : State) (id : Nat) (f : Item → Item) : (updItem s id f).hold = s.hold := rfl
@[simp] theorem updItem_fences (s : State) (id : Nat) (f : Item → Item) : (updItem s id f).fences = s.fences := rfl
@[simp] theorem updItem_served (s : State) (id : Nat) (f : Item → Item) : (updItem s id f).served = s.served := rfl
@[simp] theorem updItem_luns (s : State) (id : Nat) (f : Item → Item) : (updItem s id f).luns = s.luns := rfl
@[simp] theorem updItem_chans (s : State) (id : Nat) (f : Item → Item) : (updItem s id f).chans = s.chans := rfl
@[simp] theorem updItem_ledger (s : State) (id : Nat) (f : Item → Item) : (updItem s id f).ledger = s.ledger := rfl
@[simp] theorem updItem_jobs (s : State) (id : Nat) (f : Item → Item) : (updItem s id f).jobs = s.jobs := rfl
@[simp] theorem updItem_engines (s : State) (id : Nat) (f : Item → Item) : (updItem s id f).engines = s.engines := rfl
@[simp] theorem updItem_dma (s : State) (id : Nat) (f : Item → Item) : (updItem s id f).dma = s.dma := rfl
@[simp] theorem updItem_entryWait (s : State) (id : Nat) (f : Item → Item) : (updItem s id f).entryWait = s.entryWait := rfl
@[simp] theorem updItem_fifos (s : State) (id : Nat) (f : Item → Item) : (updItem s id f).fifos = s.fifos := rfl
@[simp] theorem updItem_hi (s : State) (id : Nat) (f : Item → Item) : (updItem s id f).hi = s.hi := rfl
@[simp] theorem updItem_hiSeq (s : State) (id : Nat) (f : Item → Item) : (updItem s id f).hiSeq = s.hiSeq := rfl
@[simp] theorem updItem_staging (s : State) (id : Nat) (f : Item → Item) : (updItem s id f).staging = s.staging := rfl
@[simp] theorem updItem_patrol (s : State) (id : Nat) (f : Item → Item) : (updItem s id f).patrol = s.patrol := rfl
@[simp] theorem updItem_boot (s : State) (id : Nat) (f : Item → Item) : (updItem s id f).boot = s.boot := rfl
@[simp] theorem updItem_micro (s : State) (id : Nat) (f : Item → Item) : (updItem s id f).micro = s.micro := rfl
@[simp] theorem updItem_ring (s : State) (id : Nat) (f : Item → Item) : (updItem s id f).ring = s.ring := rfl
@[simp] theorem updItem_ringTx (s : State) (id : Nat) (f : Item → Item) : (updItem s id f).ringTx = s.ringTx := rfl
@[simp] theorem updItem_host (s : State) (id : Nat) (f : Item → Item) : (updItem s id f).host = s.host := rfl
@[simp] theorem updItem_power (s : State) (id : Nat) (f : Item → Item) : (updItem s id f).power = s.power := rfl
@[simp] theorem updItem_groups (s : State) (id : Nat) (f : Item → Item) : (updItem s id f).groups = s.groups := rfl
@[simp] theorem updItem_test (s : State) (id : Nat) (f : Item → Item) : (updItem s id f).test = s.test := rfl

@[simp] theorem dropItem_pending (s : State) (id : Nat) : (dropItem s id).pending = s.pending := rfl
@[simp] theorem dropItem_regs (s : State) (id : Nat) : (dropItem s id).regs = s.regs := rfl
@[simp] theorem dropItem_tb (s : State) (id : Nat) : (dropItem s id).tb = s.tb := rfl
@[simp] theorem dropItem_fine (s : State) (id : Nat) : (dropItem s id).fine = s.fine := rfl
@[simp] theorem dropItem_clk (s : State) (id : Nat) : (dropItem s id).clk = s.clk := rfl
@[simp] theorem dropItem_tbNext (s : State) (id : Nat) : (dropItem s id).tbNext = s.tbNext := rfl
@[simp] theorem dropItem_freeCtr (s : State) (id : Nat) : (dropItem s id).freeCtr = s.freeCtr := rfl
@[simp] theorem dropItem_nextId (s : State) (id : Nat) : (dropItem s id).nextId = s.nextId := rfl
@[simp] theorem dropItem_rings (s : State) (id : Nat) : (dropItem s id).rings = s.rings := rfl
@[simp] theorem dropItem_hold (s : State) (id : Nat) : (dropItem s id).hold = s.hold := rfl
@[simp] theorem dropItem_fences (s : State) (id : Nat) : (dropItem s id).fences = s.fences := rfl
@[simp] theorem dropItem_served (s : State) (id : Nat) : (dropItem s id).served = s.served := rfl
@[simp] theorem dropItem_luns (s : State) (id : Nat) : (dropItem s id).luns = s.luns := rfl
@[simp] theorem dropItem_chans (s : State) (id : Nat) : (dropItem s id).chans = s.chans := rfl
@[simp] theorem dropItem_ledger (s : State) (id : Nat) : (dropItem s id).ledger = s.ledger := rfl
@[simp] theorem dropItem_jobs (s : State) (id : Nat) : (dropItem s id).jobs = s.jobs := rfl
@[simp] theorem dropItem_engines (s : State) (id : Nat) : (dropItem s id).engines = s.engines := rfl
@[simp] theorem dropItem_dma (s : State) (id : Nat) : (dropItem s id).dma = s.dma := rfl
@[simp] theorem dropItem_entryWait (s : State) (id : Nat) : (dropItem s id).entryWait = s.entryWait := rfl
@[simp] theorem dropItem_fifos (s : State) (id : Nat) : (dropItem s id).fifos = s.fifos := rfl
@[simp] theorem dropItem_hi (s : State) (id : Nat) : (dropItem s id).hi = s.hi := rfl
@[simp] theorem dropItem_hiSeq (s : State) (id : Nat) : (dropItem s id).hiSeq = s.hiSeq := rfl
@[simp] theorem dropItem_staging (s : State) (id : Nat) : (dropItem s id).staging = s.staging := rfl
@[simp] theorem dropItem_patrol (s : State) (id : Nat) : (dropItem s id).patrol = s.patrol := rfl
@[simp] theorem dropItem_boot (s : State) (id : Nat) : (dropItem s id).boot = s.boot := rfl
@[simp] theorem dropItem_micro (s : State) (id : Nat) : (dropItem s id).micro = s.micro := rfl
@[simp] theorem dropItem_ring (s : State) (id : Nat) : (dropItem s id).ring = s.ring := rfl
@[simp] theorem dropItem_ringTx (s : State) (id : Nat) : (dropItem s id).ringTx = s.ringTx := rfl
@[simp] theorem dropItem_host (s : State) (id : Nat) : (dropItem s id).host = s.host := rfl
@[simp] theorem dropItem_power (s : State) (id : Nat) : (dropItem s id).power = s.power := rfl
@[simp] theorem dropItem_groups (s : State) (id : Nat) : (dropItem s id).groups = s.groups := rfl
@[simp] theorem dropItem_test (s : State) (id : Nat) : (dropItem s id).test = s.test := rfl

@[simp] theorem updLun_pending (s : State) (l : Lun) (f : LunSt → LunSt) : (updLun s l f).pending = s.pending := rfl
@[simp] theorem updLun_regs (s : State) (l : Lun) (f : LunSt → LunSt) : (updLun s l f).regs = s.regs := rfl
@[simp] theorem updLun_tb (s : State) (l : Lun) (f : LunSt → LunSt) : (updLun s l f).tb = s.tb := rfl
@[simp] theorem updLun_fine (s : State) (l : Lun) (f : LunSt → LunSt) : (updLun s l f).fine = s.fine := rfl
@[simp] theorem updLun_clk (s : State) (l : Lun) (f : LunSt → LunSt) : (updLun s l f).clk = s.clk := rfl
@[simp] theorem updLun_tbNext (s : State) (l : Lun) (f : LunSt → LunSt) : (updLun s l f).tbNext = s.tbNext := rfl
@[simp] theorem updLun_freeCtr (s : State) (l : Lun) (f : LunSt → LunSt) : (updLun s l f).freeCtr = s.freeCtr := rfl
@[simp] theorem updLun_nextId (s : State) (l : Lun) (f : LunSt → LunSt) : (updLun s l f).nextId = s.nextId := rfl
@[simp] theorem updLun_items (s : State) (l : Lun) (f : LunSt → LunSt) : (updLun s l f).items = s.items := rfl
@[simp] theorem updLun_rings (s : State) (l : Lun) (f : LunSt → LunSt) : (updLun s l f).rings = s.rings := rfl
@[simp] theorem updLun_hold (s : State) (l : Lun) (f : LunSt → LunSt) : (updLun s l f).hold = s.hold := rfl
@[simp] theorem updLun_fences (s : State) (l : Lun) (f : LunSt → LunSt) : (updLun s l f).fences = s.fences := rfl
@[simp] theorem updLun_served (s : State) (l : Lun) (f : LunSt → LunSt) : (updLun s l f).served = s.served := rfl
@[simp] theorem updLun_luns (s : State) (l : Lun) (f : LunSt → LunSt) : (updLun s l f).luns = Tab.set s.luns l (f (getLun s l)) := rfl
@[simp] theorem updLun_chans (s : State) (l : Lun) (f : LunSt → LunSt) : (updLun s l f).chans = s.chans := rfl
@[simp] theorem updLun_ledger (s : State) (l : Lun) (f : LunSt → LunSt) : (updLun s l f).ledger = s.ledger := rfl
@[simp] theorem updLun_jobs (s : State) (l : Lun) (f : LunSt → LunSt) : (updLun s l f).jobs = s.jobs := rfl
@[simp] theorem updLun_engines (s : State) (l : Lun) (f : LunSt → LunSt) : (updLun s l f).engines = s.engines := rfl
@[simp] theorem updLun_dma (s : State) (l : Lun) (f : LunSt → LunSt) : (updLun s l f).dma = s.dma := rfl
@[simp] theorem updLun_entryWait (s : State) (l : Lun) (f : LunSt → LunSt) : (updLun s l f).entryWait = s.entryWait := rfl
@[simp] theorem updLun_fifos (s : State) (l : Lun) (f : LunSt → LunSt) : (updLun s l f).fifos = s.fifos := rfl
@[simp] theorem updLun_hi (s : State) (l : Lun) (f : LunSt → LunSt) : (updLun s l f).hi = s.hi := rfl
@[simp] theorem updLun_hiSeq (s : State) (l : Lun) (f : LunSt → LunSt) : (updLun s l f).hiSeq = s.hiSeq := rfl
@[simp] theorem updLun_staging (s : State) (l : Lun) (f : LunSt → LunSt) : (updLun s l f).staging = s.staging := rfl
@[simp] theorem updLun_patrol (s : State) (l : Lun) (f : LunSt → LunSt) : (updLun s l f).patrol = s.patrol := rfl
@[simp] theorem updLun_boot (s : State) (l : Lun) (f : LunSt → LunSt) : (updLun s l f).boot = s.boot := rfl
@[simp] theorem updLun_micro (s : State) (l : Lun) (f : LunSt → LunSt) : (updLun s l f).micro = s.micro := rfl
@[simp] theorem updLun_ring (s : State) (l : Lun) (f : LunSt → LunSt) : (updLun s l f).ring = s.ring := rfl
@[simp] theorem updLun_ringTx (s : State) (l : Lun) (f : LunSt → LunSt) : (updLun s l f).ringTx = s.ringTx := rfl
@[simp] theorem updLun_host (s : State) (l : Lun) (f : LunSt → LunSt) : (updLun s l f).host = s.host := rfl
@[simp] theorem updLun_power (s : State) (l : Lun) (f : LunSt → LunSt) : (updLun s l f).power = s.power := rfl
@[simp] theorem updLun_groups (s : State) (l : Lun) (f : LunSt → LunSt) : (updLun s l f).groups = s.groups := rfl
@[simp] theorem updLun_test (s : State) (l : Lun) (f : LunSt → LunSt) : (updLun s l f).test = s.test := rfl

@[simp] theorem updCh_pending (s : State) (ch : Nat) (f : ChanSt → ChanSt) : (updCh s ch f).pending = s.pending := rfl
@[simp] theorem updCh_regs (s : State) (ch : Nat) (f : ChanSt → ChanSt) : (updCh s ch f).regs = s.regs := rfl
@[simp] theorem updCh_tb (s : State) (ch : Nat) (f : ChanSt → ChanSt) : (updCh s ch f).tb = s.tb := rfl
@[simp] theorem updCh_fine (s : State) (ch : Nat) (f : ChanSt → ChanSt) : (updCh s ch f).fine = s.fine := rfl
@[simp] theorem updCh_clk (s : State) (ch : Nat) (f : ChanSt → ChanSt) : (updCh s ch f).clk = s.clk := rfl
@[simp] theorem updCh_tbNext (s : State) (ch : Nat) (f : ChanSt → ChanSt) : (updCh s ch f).tbNext = s.tbNext := rfl
@[simp] theorem updCh_freeCtr (s : State) (ch : Nat) (f : ChanSt → ChanSt) : (updCh s ch f).freeCtr = s.freeCtr := rfl
@[simp] theorem updCh_nextId (s : State) (ch : Nat) (f : ChanSt → ChanSt) : (updCh s ch f).nextId = s.nextId := rfl
@[simp] theorem updCh_items (s : State) (ch : Nat) (f : ChanSt → ChanSt) : (updCh s ch f).items = s.items := rfl
@[simp] theorem updCh_rings (s : State) (ch : Nat) (f : ChanSt → ChanSt) : (updCh s ch f).rings = s.rings := rfl
@[simp] theorem updCh_hold (s : State) (ch : Nat) (f : ChanSt → ChanSt) : (updCh s ch f).hold = s.hold := rfl
@[simp] theorem updCh_fences (s : State) (ch : Nat) (f : ChanSt → ChanSt) : (updCh s ch f).fences = s.fences := rfl
@[simp] theorem updCh_served (s : State) (ch : Nat) (f : ChanSt → ChanSt) : (updCh s ch f).served = s.served := rfl
@[simp] theorem updCh_luns (s : State) (ch : Nat) (f : ChanSt → ChanSt) : (updCh s ch f).luns = s.luns := rfl
@[simp] theorem updCh_chans (s : State) (ch : Nat) (f : ChanSt → ChanSt) : (updCh s ch f).chans = Tab.set s.chans ch (f (getCh s ch)) := rfl
@[simp] theorem updCh_ledger (s : State) (ch : Nat) (f : ChanSt → ChanSt) : (updCh s ch f).ledger = s.ledger := rfl
@[simp] theorem updCh_jobs (s : State) (ch : Nat) (f : ChanSt → ChanSt) : (updCh s ch f).jobs = s.jobs := rfl
@[simp] theorem updCh_engines (s : State) (ch : Nat) (f : ChanSt → ChanSt) : (updCh s ch f).engines = s.engines := rfl
@[simp] theorem updCh_dma (s : State) (ch : Nat) (f : ChanSt → ChanSt) : (updCh s ch f).dma = s.dma := rfl
@[simp] theorem updCh_entryWait (s : State) (ch : Nat) (f : ChanSt → ChanSt) : (updCh s ch f).entryWait = s.entryWait := rfl
@[simp] theorem updCh_fifos (s : State) (ch : Nat) (f : ChanSt → ChanSt) : (updCh s ch f).fifos = s.fifos := rfl
@[simp] theorem updCh_hi (s : State) (ch : Nat) (f : ChanSt → ChanSt) : (updCh s ch f).hi = s.hi := rfl
@[simp] theorem updCh_hiSeq (s : State) (ch : Nat) (f : ChanSt → ChanSt) : (updCh s ch f).hiSeq = s.hiSeq := rfl
@[simp] theorem updCh_staging (s : State) (ch : Nat) (f : ChanSt → ChanSt) : (updCh s ch f).staging = s.staging := rfl
@[simp] theorem updCh_patrol (s : State) (ch : Nat) (f : ChanSt → ChanSt) : (updCh s ch f).patrol = s.patrol := rfl
@[simp] theorem updCh_boot (s : State) (ch : Nat) (f : ChanSt → ChanSt) : (updCh s ch f).boot = s.boot := rfl
@[simp] theorem updCh_micro (s : State) (ch : Nat) (f : ChanSt → ChanSt) : (updCh s ch f).micro = s.micro := rfl
@[simp] theorem updCh_ring (s : State) (ch : Nat) (f : ChanSt → ChanSt) : (updCh s ch f).ring = s.ring := rfl
@[simp] theorem updCh_ringTx (s : State) (ch : Nat) (f : ChanSt → ChanSt) : (updCh s ch f).ringTx = s.ringTx := rfl
@[simp] theorem updCh_host (s : State) (ch : Nat) (f : ChanSt → ChanSt) : (updCh s ch f).host = s.host := rfl
@[simp] theorem updCh_power (s : State) (ch : Nat) (f : ChanSt → ChanSt) : (updCh s ch f).power = s.power := rfl
@[simp] theorem updCh_groups (s : State) (ch : Nat) (f : ChanSt → ChanSt) : (updCh s ch f).groups = s.groups := rfl
@[simp] theorem updCh_test (s : State) (ch : Nat) (f : ChanSt → ChanSt) : (updCh s ch f).test = s.test := rfl

@[simp] theorem updRing_pending (s : State) (k : Nat) (f : RingSt → RingSt) : (updRing s k f).pending = s.pending := rfl
@[simp] theorem updRing_regs (s : State) (k : Nat) (f : RingSt → RingSt) : (updRing s k f).regs = s.regs := rfl
@[simp] theorem updRing_tb (s : State) (k : Nat) (f : RingSt → RingSt) : (updRing s k f).tb = s.tb := rfl
@[simp] theorem updRing_fine (s : State) (k : Nat) (f : RingSt → RingSt) : (updRing s k f).fine = s.fine := rfl
@[simp] theorem updRing_clk (s : State) (k : Nat) (f : RingSt → RingSt) : (updRing s k f).clk = s.clk := rfl
@[simp] theorem updRing_tbNext (s : State) (k : Nat) (f : RingSt → RingSt) : (updRing s k f).tbNext = s.tbNext := rfl
@[simp] theorem updRing_freeCtr (s : State) (k : Nat) (f : RingSt → RingSt) : (updRing s k f).freeCtr = s.freeCtr := rfl
@[simp] theorem updRing_nextId (s : State) (k : Nat) (f : RingSt → RingSt) : (updRing s k f).nextId = s.nextId := rfl
@[simp] theorem updRing_items (s : State) (k : Nat) (f : RingSt → RingSt) : (updRing s k f).items = s.items := rfl
@[simp] theorem updRing_rings (s : State) (k : Nat) (f : RingSt → RingSt) : (updRing s k f).rings = Tab.set s.rings k (f (getRing s k)) := rfl
@[simp] theorem updRing_hold (s : State) (k : Nat) (f : RingSt → RingSt) : (updRing s k f).hold = s.hold := rfl
@[simp] theorem updRing_fences (s : State) (k : Nat) (f : RingSt → RingSt) : (updRing s k f).fences = s.fences := rfl
@[simp] theorem updRing_served (s : State) (k : Nat) (f : RingSt → RingSt) : (updRing s k f).served = s.served := rfl
@[simp] theorem updRing_luns (s : State) (k : Nat) (f : RingSt → RingSt) : (updRing s k f).luns = s.luns := rfl
@[simp] theorem updRing_chans (s : State) (k : Nat) (f : RingSt → RingSt) : (updRing s k f).chans = s.chans := rfl
@[simp] theorem updRing_ledger (s : State) (k : Nat) (f : RingSt → RingSt) : (updRing s k f).ledger = s.ledger := rfl
@[simp] theorem updRing_jobs (s : State) (k : Nat) (f : RingSt → RingSt) : (updRing s k f).jobs = s.jobs := rfl
@[simp] theorem updRing_engines (s : State) (k : Nat) (f : RingSt → RingSt) : (updRing s k f).engines = s.engines := rfl
@[simp] theorem updRing_dma (s : State) (k : Nat) (f : RingSt → RingSt) : (updRing s k f).dma = s.dma := rfl
@[simp] theorem updRing_entryWait (s : State) (k : Nat) (f : RingSt → RingSt) : (updRing s k f).entryWait = s.entryWait := rfl
@[simp] theorem updRing_fifos (s : State) (k : Nat) (f : RingSt → RingSt) : (updRing s k f).fifos = s.fifos := rfl
@[simp] theorem updRing_hi (s : State) (k : Nat) (f : RingSt → RingSt) : (updRing s k f).hi = s.hi := rfl
@[simp] theorem updRing_hiSeq (s : State) (k : Nat) (f : RingSt → RingSt) : (updRing s k f).hiSeq = s.hiSeq := rfl
@[simp] theorem updRing_staging (s : State) (k : Nat) (f : RingSt → RingSt) : (updRing s k f).staging = s.staging := rfl
@[simp] theorem updRing_patrol (s : State) (k : Nat) (f : RingSt → RingSt) : (updRing s k f).patrol = s.patrol := rfl
@[simp] theorem updRing_boot (s : State) (k : Nat) (f : RingSt → RingSt) : (updRing s k f).boot = s.boot := rfl
@[simp] theorem updRing_micro (s : State) (k : Nat) (f : RingSt → RingSt) : (updRing s k f).micro = s.micro := rfl
@[simp] theorem updRing_ring (s : State) (k : Nat) (f : RingSt → RingSt) : (updRing s k f).ring = s.ring := rfl
@[simp] theorem updRing_ringTx (s : State) (k : Nat) (f : RingSt → RingSt) : (updRing s k f).ringTx = s.ringTx := rfl
@[simp] theorem updRing_host (s : State) (k : Nat) (f : RingSt → RingSt) : (updRing s k f).host = s.host := rfl
@[simp] theorem updRing_power (s : State) (k : Nat) (f : RingSt → RingSt) : (updRing s k f).power = s.power := rfl
@[simp] theorem updRing_groups (s : State) (k : Nat) (f : RingSt → RingSt) : (updRing s k f).groups = s.groups := rfl
@[simp] theorem updRing_test (s : State) (k : Nat) (f : RingSt → RingSt) : (updRing s k f).test = s.test := rfl

@[simp] theorem updDma_pending (s : State) (d : Nat) (f : DmaSt → DmaSt) : (updDma s d f).pending = s.pending := rfl
@[simp] theorem updDma_regs (s : State) (d : Nat) (f : DmaSt → DmaSt) : (updDma s d f).regs = s.regs := rfl
@[simp] theorem updDma_tb (s : State) (d : Nat) (f : DmaSt → DmaSt) : (updDma s d f).tb = s.tb := rfl
@[simp] theorem updDma_fine (s : State) (d : Nat) (f : DmaSt → DmaSt) : (updDma s d f).fine = s.fine := rfl
@[simp] theorem updDma_clk (s : State) (d : Nat) (f : DmaSt → DmaSt) : (updDma s d f).clk = s.clk := rfl
@[simp] theorem updDma_tbNext (s : State) (d : Nat) (f : DmaSt → DmaSt) : (updDma s d f).tbNext = s.tbNext := rfl
@[simp] theorem updDma_freeCtr (s : State) (d : Nat) (f : DmaSt → DmaSt) : (updDma s d f).freeCtr = s.freeCtr := rfl
@[simp] theorem updDma_nextId (s : State) (d : Nat) (f : DmaSt → DmaSt) : (updDma s d f).nextId = s.nextId := rfl
@[simp] theorem updDma_items (s : State) (d : Nat) (f : DmaSt → DmaSt) : (updDma s d f).items = s.items := rfl
@[simp] theorem updDma_rings (s : State) (d : Nat) (f : DmaSt → DmaSt) : (updDma s d f).rings = s.rings := rfl
@[simp] theorem updDma_hold (s : State) (d : Nat) (f : DmaSt → DmaSt) : (updDma s d f).hold = s.hold := rfl
@[simp] theorem updDma_fences (s : State) (d : Nat) (f : DmaSt → DmaSt) : (updDma s d f).fences = s.fences := rfl
@[simp] theorem updDma_served (s : State) (d : Nat) (f : DmaSt → DmaSt) : (updDma s d f).served = s.served := rfl
@[simp] theorem updDma_luns (s : State) (d : Nat) (f : DmaSt → DmaSt) : (updDma s d f).luns = s.luns := rfl
@[simp] theorem updDma_chans (s : State) (d : Nat) (f : DmaSt → DmaSt) : (updDma s d f).chans = s.chans := rfl
@[simp] theorem updDma_ledger (s : State) (d : Nat) (f : DmaSt → DmaSt) : (updDma s d f).ledger = s.ledger := rfl
@[simp] theorem updDma_jobs (s : State) (d : Nat) (f : DmaSt → DmaSt) : (updDma s d f).jobs = s.jobs := rfl
@[simp] theorem updDma_engines (s : State) (d : Nat) (f : DmaSt → DmaSt) : (updDma s d f).engines = s.engines := rfl
@[simp] theorem updDma_dma (s : State) (d : Nat) (f : DmaSt → DmaSt) : (updDma s d f).dma = Tab.set s.dma d (f (getDma s d)) := rfl
@[simp] theorem updDma_entryWait (s : State) (d : Nat) (f : DmaSt → DmaSt) : (updDma s d f).entryWait = s.entryWait := rfl
@[simp] theorem updDma_fifos (s : State) (d : Nat) (f : DmaSt → DmaSt) : (updDma s d f).fifos = s.fifos := rfl
@[simp] theorem updDma_hi (s : State) (d : Nat) (f : DmaSt → DmaSt) : (updDma s d f).hi = s.hi := rfl
@[simp] theorem updDma_hiSeq (s : State) (d : Nat) (f : DmaSt → DmaSt) : (updDma s d f).hiSeq = s.hiSeq := rfl
@[simp] theorem updDma_staging (s : State) (d : Nat) (f : DmaSt → DmaSt) : (updDma s d f).staging = s.staging := rfl
@[simp] theorem updDma_patrol (s : State) (d : Nat) (f : DmaSt → DmaSt) : (updDma s d f).patrol = s.patrol := rfl
@[simp] theorem updDma_boot (s : State) (d : Nat) (f : DmaSt → DmaSt) : (updDma s d f).boot = s.boot := rfl
@[simp] theorem updDma_micro (s : State) (d : Nat) (f : DmaSt → DmaSt) : (updDma s d f).micro = s.micro := rfl
@[simp] theorem updDma_ring (s : State) (d : Nat) (f : DmaSt → DmaSt) : (updDma s d f).ring = s.ring := rfl
@[simp] theorem updDma_ringTx (s : State) (d : Nat) (f : DmaSt → DmaSt) : (updDma s d f).ringTx = s.ringTx := rfl
@[simp] theorem updDma_host (s : State) (d : Nat) (f : DmaSt → DmaSt) : (updDma s d f).host = s.host := rfl
@[simp] theorem updDma_power (s : State) (d : Nat) (f : DmaSt → DmaSt) : (updDma s d f).power = s.power := rfl
@[simp] theorem updDma_groups (s : State) (d : Nat) (f : DmaSt → DmaSt) : (updDma s d f).groups = s.groups := rfl
@[simp] theorem updDma_test (s : State) (d : Nat) (f : DmaSt → DmaSt) : (updDma s d f).test = s.test := rfl

@[simp] theorem updGroup_pending (s : State) (g : Nat) (f : Group → Group) : (updGroup s g f).pending = s.pending := rfl
@[simp] theorem updGroup_regs (s : State) (g : Nat) (f : Group → Group) : (updGroup s g f).regs = s.regs := rfl
@[simp] theorem updGroup_tb (s : State) (g : Nat) (f : Group → Group) : (updGroup s g f).tb = s.tb := rfl
@[simp] theorem updGroup_fine (s : State) (g : Nat) (f : Group → Group) : (updGroup s g f).fine = s.fine := rfl
@[simp] theorem updGroup_clk (s : State) (g : Nat) (f : Group → Group) : (updGroup s g f).clk = s.clk := rfl
@[simp] theorem updGroup_tbNext (s : State) (g : Nat) (f : Group → Group) : (updGroup s g f).tbNext = s.tbNext := rfl
@[simp] theorem updGroup_freeCtr (s : State) (g : Nat) (f : Group → Group) : (updGroup s g f).freeCtr = s.freeCtr := rfl
@[simp] theorem updGroup_nextId (s : State) (g : Nat) (f : Group → Group) : (updGroup s g f).nextId = s.nextId := rfl
@[simp] theorem updGroup_items (s : State) (g : Nat) (f : Group → Group) : (updGroup s g f).items = s.items := rfl
@[simp] theorem updGroup_rings (s : State) (g : Nat) (f : Group → Group) : (updGroup s g f).rings = s.rings := rfl
@[simp] theorem updGroup_hold (s : State) (g : Nat) (f : Group → Group) : (updGroup s g f).hold = s.hold := rfl
@[simp] theorem updGroup_fences (s : State) (g : Nat) (f : Group → Group) : (updGroup s g f).fences = s.fences := rfl
@[simp] theorem updGroup_served (s : State) (g : Nat) (f : Group → Group) : (updGroup s g f).served = s.served := rfl
@[simp] theorem updGroup_luns (s : State) (g : Nat) (f : Group → Group) : (updGroup s g f).luns = s.luns := rfl
@[simp] theorem updGroup_chans (s : State) (g : Nat) (f : Group → Group) : (updGroup s g f).chans = s.chans := rfl
@[simp] theorem updGroup_ledger (s : State) (g : Nat) (f : Group → Group) : (updGroup s g f).ledger = s.ledger := rfl
@[simp] theorem updGroup_jobs (s : State) (g : Nat) (f : Group → Group) : (updGroup s g f).jobs = s.jobs := rfl
@[simp] theorem updGroup_engines (s : State) (g : Nat) (f : Group → Group) : (updGroup s g f).engines = s.engines := rfl
@[simp] theorem updGroup_dma (s : State) (g : Nat) (f : Group → Group) : (updGroup s g f).dma = s.dma := rfl
@[simp] theorem updGroup_entryWait (s : State) (g : Nat) (f : Group → Group) : (updGroup s g f).entryWait = s.entryWait := rfl
@[simp] theorem updGroup_fifos (s : State) (g : Nat) (f : Group → Group) : (updGroup s g f).fifos = s.fifos := rfl
@[simp] theorem updGroup_hi (s : State) (g : Nat) (f : Group → Group) : (updGroup s g f).hi = s.hi := rfl
@[simp] theorem updGroup_hiSeq (s : State) (g : Nat) (f : Group → Group) : (updGroup s g f).hiSeq = s.hiSeq := rfl
@[simp] theorem updGroup_staging (s : State) (g : Nat) (f : Group → Group) : (updGroup s g f).staging = s.staging := rfl
@[simp] theorem updGroup_patrol (s : State) (g : Nat) (f : Group → Group) : (updGroup s g f).patrol = s.patrol := rfl
@[simp] theorem updGroup_boot (s : State) (g : Nat) (f : Group → Group) : (updGroup s g f).boot = s.boot := rfl
@[simp] theorem updGroup_micro (s : State) (g : Nat) (f : Group → Group) : (updGroup s g f).micro = s.micro := rfl
@[simp] theorem updGroup_ring (s : State) (g : Nat) (f : Group → Group) : (updGroup s g f).ring = s.ring := rfl
@[simp] theorem updGroup_ringTx (s : State) (g : Nat) (f : Group → Group) : (updGroup s g f).ringTx = s.ringTx := rfl
@[simp] theorem updGroup_host (s : State) (g : Nat) (f : Group → Group) : (updGroup s g f).host = s.host := rfl
@[simp] theorem updGroup_power (s : State) (g : Nat) (f : Group → Group) : (updGroup s g f).power = s.power := rfl
@[simp] theorem updGroup_groups (s : State) (g : Nat) (f : Group → Group) : (updGroup s g f).groups = Tab.set s.groups g (f (getGroup s g)) := rfl
@[simp] theorem updGroup_test (s : State) (g : Nat) (f : Group → Group) : (updGroup s g f).test = s.test := rfl

@[simp] theorem updFifo_pending (s : State) (ch q : Nat) (f : Fifo → Fifo) : (updFifo s ch q f).pending = s.pending := rfl
@[simp] theorem updFifo_regs (s : State) (ch q : Nat) (f : Fifo → Fifo) : (updFifo s ch q f).regs = s.regs := rfl
@[simp] theorem updFifo_tb (s : State) (ch q : Nat) (f : Fifo → Fifo) : (updFifo s ch q f).tb = s.tb := rfl
@[simp] theorem updFifo_fine (s : State) (ch q : Nat) (f : Fifo → Fifo) : (updFifo s ch q f).fine = s.fine := rfl
@[simp] theorem updFifo_clk (s : State) (ch q : Nat) (f : Fifo → Fifo) : (updFifo s ch q f).clk = s.clk := rfl
@[simp] theorem updFifo_tbNext (s : State) (ch q : Nat) (f : Fifo → Fifo) : (updFifo s ch q f).tbNext = s.tbNext := rfl
@[simp] theorem updFifo_freeCtr (s : State) (ch q : Nat) (f : Fifo → Fifo) : (updFifo s ch q f).freeCtr = s.freeCtr := rfl
@[simp] theorem updFifo_nextId (s : State) (ch q : Nat) (f : Fifo → Fifo) : (updFifo s ch q f).nextId = s.nextId := rfl
@[simp] theorem updFifo_items (s : State) (ch q : Nat) (f : Fifo → Fifo) : (updFifo s ch q f).items = s.items := rfl
@[simp] theorem updFifo_rings (s : State) (ch q : Nat) (f : Fifo → Fifo) : (updFifo s ch q f).rings = s.rings := rfl
@[simp] theorem updFifo_hold (s : State) (ch q : Nat) (f : Fifo → Fifo) : (updFifo s ch q f).hold = s.hold := rfl
@[simp] theorem updFifo_fences (s : State) (ch q : Nat) (f : Fifo → Fifo) : (updFifo s ch q f).fences = s.fences := rfl
@[simp] theorem updFifo_served (s : State) (ch q : Nat) (f : Fifo → Fifo) : (updFifo s ch q f).served = s.served := rfl
@[simp] theorem updFifo_luns (s : State) (ch q : Nat) (f : Fifo → Fifo) : (updFifo s ch q f).luns = s.luns := rfl
@[simp] theorem updFifo_chans (s : State) (ch q : Nat) (f : Fifo → Fifo) : (updFifo s ch q f).chans = s.chans := rfl
@[simp] theorem updFifo_ledger (s : State) (ch q : Nat) (f : Fifo → Fifo) : (updFifo s ch q f).ledger = s.ledger := rfl
@[simp] theorem updFifo_jobs (s : State) (ch q : Nat) (f : Fifo → Fifo) : (updFifo s ch q f).jobs = s.jobs := rfl
@[simp] theorem updFifo_engines (s : State) (ch q : Nat) (f : Fifo → Fifo) : (updFifo s ch q f).engines = s.engines := rfl
@[simp] theorem updFifo_dma (s : State) (ch q : Nat) (f : Fifo → Fifo) : (updFifo s ch q f).dma = s.dma := rfl
@[simp] theorem updFifo_entryWait (s : State) (ch q : Nat) (f : Fifo → Fifo) : (updFifo s ch q f).entryWait = s.entryWait := rfl
@[simp] theorem updFifo_fifos (s : State) (ch q : Nat) (f : Fifo → Fifo) : (updFifo s ch q f).fifos = Tab.set s.fifos (ch, q) (f (getFifo s ch q)) := rfl
@[simp] theorem updFifo_hi (s : State) (ch q : Nat) (f : Fifo → Fifo) : (updFifo s ch q f).hi = s.hi := rfl
@[simp] theorem updFifo_hiSeq (s : State) (ch q : Nat) (f : Fifo → Fifo) : (updFifo s ch q f).hiSeq = s.hiSeq := rfl
@[simp] theorem updFifo_staging (s : State) (ch q : Nat) (f : Fifo → Fifo) : (updFifo s ch q f).staging = s.staging := rfl
@[simp] theorem updFifo_patrol (s : State) (ch q : Nat) (f : Fifo → Fifo) : (updFifo s ch q f).patrol = s.patrol := rfl
@[simp] theorem updFifo_boot (s : State) (ch q : Nat) (f : Fifo → Fifo) : (updFifo s ch q f).boot = s.boot := rfl
@[simp] theorem updFifo_micro (s : State) (ch q : Nat) (f : Fifo → Fifo) : (updFifo s ch q f).micro = s.micro := rfl
@[simp] theorem updFifo_ring (s : State) (ch q : Nat) (f : Fifo → Fifo) : (updFifo s ch q f).ring = s.ring := rfl
@[simp] theorem updFifo_ringTx (s : State) (ch q : Nat) (f : Fifo → Fifo) : (updFifo s ch q f).ringTx = s.ringTx := rfl
@[simp] theorem updFifo_host (s : State) (ch q : Nat) (f : Fifo → Fifo) : (updFifo s ch q f).host = s.host := rfl
@[simp] theorem updFifo_power (s : State) (ch q : Nat) (f : Fifo → Fifo) : (updFifo s ch q f).power = s.power := rfl
@[simp] theorem updFifo_groups (s : State) (ch q : Nat) (f : Fifo → Fifo) : (updFifo s ch q f).groups = s.groups := rfl
@[simp] theorem updFifo_test (s : State) (ch q : Nat) (f : Fifo → Fifo) : (updFifo s ch q f).test = s.test := rfl

@[simp] theorem updPower_pending (s : State) (f : Power → Power) : (updPower s f).pending = s.pending := rfl
@[simp] theorem updPower_regs (s : State) (f : Power → Power) : (updPower s f).regs = s.regs := rfl
@[simp] theorem updPower_tb (s : State) (f : Power → Power) : (updPower s f).tb = s.tb := rfl
@[simp] theorem updPower_fine (s : State) (f : Power → Power) : (updPower s f).fine = s.fine := rfl
@[simp] theorem updPower_clk (s : State) (f : Power → Power) : (updPower s f).clk = s.clk := rfl
@[simp] theorem updPower_tbNext (s : State) (f : Power → Power) : (updPower s f).tbNext = s.tbNext := rfl
@[simp] theorem updPower_freeCtr (s : State) (f : Power → Power) : (updPower s f).freeCtr = s.freeCtr := rfl
@[simp] theorem updPower_nextId (s : State) (f : Power → Power) : (updPower s f).nextId = s.nextId := rfl
@[simp] theorem updPower_items (s : State) (f : Power → Power) : (updPower s f).items = s.items := rfl
@[simp] theorem updPower_rings (s : State) (f : Power → Power) : (updPower s f).rings = s.rings := rfl
@[simp] theorem updPower_hold (s : State) (f : Power → Power) : (updPower s f).hold = s.hold := rfl
@[simp] theorem updPower_fences (s : State) (f : Power → Power) : (updPower s f).fences = s.fences := rfl
@[simp] theorem updPower_served (s : State) (f : Power → Power) : (updPower s f).served = s.served := rfl
@[simp] theorem updPower_luns (s : State) (f : Power → Power) : (updPower s f).luns = s.luns := rfl
@[simp] theorem updPower_chans (s : State) (f : Power → Power) : (updPower s f).chans = s.chans := rfl
@[simp] theorem updPower_ledger (s : State) (f : Power → Power) : (updPower s f).ledger = s.ledger := rfl
@[simp] theorem updPower_jobs (s : State) (f : Power → Power) : (updPower s f).jobs = s.jobs := rfl
@[simp] theorem updPower_engines (s : State) (f : Power → Power) : (updPower s f).engines = s.engines := rfl
@[simp] theorem updPower_dma (s : State) (f : Power → Power) : (updPower s f).dma = s.dma := rfl
@[simp] theorem updPower_entryWait (s : State) (f : Power → Power) : (updPower s f).entryWait = s.entryWait := rfl
@[simp] theorem updPower_fifos (s : State) (f : Power → Power) : (updPower s f).fifos = s.fifos := rfl
@[simp] theorem updPower_hi (s : State) (f : Power → Power) : (updPower s f).hi = s.hi := rfl
@[simp] theorem updPower_hiSeq (s : State) (f : Power → Power) : (updPower s f).hiSeq = s.hiSeq := rfl
@[simp] theorem updPower_staging (s : State) (f : Power → Power) : (updPower s f).staging = s.staging := rfl
@[simp] theorem updPower_patrol (s : State) (f : Power → Power) : (updPower s f).patrol = s.patrol := rfl
@[simp] theorem updPower_boot (s : State) (f : Power → Power) : (updPower s f).boot = s.boot := rfl
@[simp] theorem updPower_micro (s : State) (f : Power → Power) : (updPower s f).micro = s.micro := rfl
@[simp] theorem updPower_ring (s : State) (f : Power → Power) : (updPower s f).ring = s.ring := rfl
@[simp] theorem updPower_ringTx (s : State) (f : Power → Power) : (updPower s f).ringTx = s.ringTx := rfl
@[simp] theorem updPower_host (s : State) (f : Power → Power) : (updPower s f).host = s.host := rfl
@[simp] theorem updPower_power (s : State) (f : Power → Power) : (updPower s f).power = f s.power := rfl
@[simp] theorem updPower_groups (s : State) (f : Power → Power) : (updPower s f).groups = s.groups := rfl
@[simp] theorem updPower_test (s : State) (f : Power → Power) : (updPower s f).test = s.test := rfl

@[simp] theorem updPort_pending (s : State) (f : RingPort → RingPort) : (updPort s f).pending = s.pending := rfl
@[simp] theorem updPort_regs (s : State) (f : RingPort → RingPort) : (updPort s f).regs = s.regs := rfl
@[simp] theorem updPort_tb (s : State) (f : RingPort → RingPort) : (updPort s f).tb = s.tb := rfl
@[simp] theorem updPort_fine (s : State) (f : RingPort → RingPort) : (updPort s f).fine = s.fine := rfl
@[simp] theorem updPort_clk (s : State) (f : RingPort → RingPort) : (updPort s f).clk = s.clk := rfl
@[simp] theorem updPort_tbNext (s : State) (f : RingPort → RingPort) : (updPort s f).tbNext = s.tbNext := rfl
@[simp] theorem updPort_freeCtr (s : State) (f : RingPort → RingPort) : (updPort s f).freeCtr = s.freeCtr := rfl
@[simp] theorem updPort_nextId (s : State) (f : RingPort → RingPort) : (updPort s f).nextId = s.nextId := rfl
@[simp] theorem updPort_items (s : State) (f : RingPort → RingPort) : (updPort s f).items = s.items := rfl
@[simp] theorem updPort_rings (s : State) (f : RingPort → RingPort) : (updPort s f).rings = s.rings := rfl
@[simp] theorem updPort_hold (s : State) (f : RingPort → RingPort) : (updPort s f).hold = s.hold := rfl
@[simp] theorem updPort_fences (s : State) (f : RingPort → RingPort) : (updPort s f).fences = s.fences := rfl
@[simp] theorem updPort_served (s : State) (f : RingPort → RingPort) : (updPort s f).served = s.served := rfl
@[simp] theorem updPort_luns (s : State) (f : RingPort → RingPort) : (updPort s f).luns = s.luns := rfl
@[simp] theorem updPort_chans (s : State) (f : RingPort → RingPort) : (updPort s f).chans = s.chans := rfl
@[simp] theorem updPort_ledger (s : State) (f : RingPort → RingPort) : (updPort s f).ledger = s.ledger := rfl
@[simp] theorem updPort_jobs (s : State) (f : RingPort → RingPort) : (updPort s f).jobs = s.jobs := rfl
@[simp] theorem updPort_engines (s : State) (f : RingPort → RingPort) : (updPort s f).engines = s.engines := rfl
@[simp] theorem updPort_dma (s : State) (f : RingPort → RingPort) : (updPort s f).dma = s.dma := rfl
@[simp] theorem updPort_entryWait (s : State) (f : RingPort → RingPort) : (updPort s f).entryWait = s.entryWait := rfl
@[simp] theorem updPort_fifos (s : State) (f : RingPort → RingPort) : (updPort s f).fifos = s.fifos := rfl
@[simp] theorem updPort_hi (s : State) (f : RingPort → RingPort) : (updPort s f).hi = s.hi := rfl
@[simp] theorem updPort_hiSeq (s : State) (f : RingPort → RingPort) : (updPort s f).hiSeq = s.hiSeq := rfl
@[simp] theorem updPort_staging (s : State) (f : RingPort → RingPort) : (updPort s f).staging = s.staging := rfl
@[simp] theorem updPort_patrol (s : State) (f : RingPort → RingPort) : (updPort s f).patrol = s.patrol := rfl
@[simp] theorem updPort_boot (s : State) (f : RingPort → RingPort) : (updPort s f).boot = s.boot := rfl
@[simp] theorem updPort_micro (s : State) (f : RingPort → RingPort) : (updPort s f).micro = s.micro := rfl
@[simp] theorem updPort_ring (s : State) (f : RingPort → RingPort) : (updPort s f).ring = f s.ring := rfl
@[simp] theorem updPort_ringTx (s : State) (f : RingPort → RingPort) : (updPort s f).ringTx = s.ringTx := rfl
@[simp] theorem updPort_host (s : State) (f : RingPort → RingPort) : (updPort s f).host = s.host := rfl
@[simp] theorem updPort_power (s : State) (f : RingPort → RingPort) : (updPort s f).power = s.power := rfl
@[simp] theorem updPort_groups (s : State) (f : RingPort → RingPort) : (updPort s f).groups = s.groups := rfl
@[simp] theorem updPort_test (s : State) (f : RingPort → RingPort) : (updPort s f).test = s.test := rfl

@[simp] theorem updLedger_pending (s : State) (f : Ledger → Ledger) : (updLedger s f).pending = s.pending := rfl
@[simp] theorem updLedger_regs (s : State) (f : Ledger → Ledger) : (updLedger s f).regs = s.regs := rfl
@[simp] theorem updLedger_tb (s : State) (f : Ledger → Ledger) : (updLedger s f).tb = s.tb := rfl
@[simp] theorem updLedger_fine (s : State) (f : Ledger → Ledger) : (updLedger s f).fine = s.fine := rfl
@[simp] theorem updLedger_clk (s : State) (f : Ledger → Ledger) : (updLedger s f).clk = s.clk := rfl
@[simp] theorem updLedger_tbNext (s : State) (f : Ledger → Ledger) : (updLedger s f).tbNext = s.tbNext := rfl
@[simp] theorem updLedger_freeCtr (s : State) (f : Ledger → Ledger) : (updLedger s f).freeCtr = s.freeCtr := rfl
@[simp] theorem updLedger_nextId (s : State) (f : Ledger → Ledger) : (updLedger s f).nextId = s.nextId := rfl
@[simp] theorem updLedger_items (s : State) (f : Ledger → Ledger) : (updLedger s f).items = s.items := rfl
@[simp] theorem updLedger_rings (s : State) (f : Ledger → Ledger) : (updLedger s f).rings = s.rings := rfl
@[simp] theorem updLedger_hold (s : State) (f : Ledger → Ledger) : (updLedger s f).hold = s.hold := rfl
@[simp] theorem updLedger_fences (s : State) (f : Ledger → Ledger) : (updLedger s f).fences = s.fences := rfl
@[simp] theorem updLedger_served (s : State) (f : Ledger → Ledger) : (updLedger s f).served = s.served := rfl
@[simp] theorem updLedger_luns (s : State) (f : Ledger → Ledger) : (updLedger s f).luns = s.luns := rfl
@[simp] theorem updLedger_chans (s : State) (f : Ledger → Ledger) : (updLedger s f).chans = s.chans := rfl
@[simp] theorem updLedger_ledger (s : State) (f : Ledger → Ledger) : (updLedger s f).ledger = f s.ledger := rfl
@[simp] theorem updLedger_jobs (s : State) (f : Ledger → Ledger) : (updLedger s f).jobs = s.jobs := rfl
@[simp] theorem updLedger_engines (s : State) (f : Ledger → Ledger) : (updLedger s f).engines = s.engines := rfl
@[simp] theorem updLedger_dma (s : State) (f : Ledger → Ledger) : (updLedger s f).dma = s.dma := rfl
@[simp] theorem updLedger_entryWait (s : State) (f : Ledger → Ledger) : (updLedger s f).entryWait = s.entryWait := rfl
@[simp] theorem updLedger_fifos (s : State) (f : Ledger → Ledger) : (updLedger s f).fifos = s.fifos := rfl
@[simp] theorem updLedger_hi (s : State) (f : Ledger → Ledger) : (updLedger s f).hi = s.hi := rfl
@[simp] theorem updLedger_hiSeq (s : State) (f : Ledger → Ledger) : (updLedger s f).hiSeq = s.hiSeq := rfl
@[simp] theorem updLedger_staging (s : State) (f : Ledger → Ledger) : (updLedger s f).staging = s.staging := rfl
@[simp] theorem updLedger_patrol (s : State) (f : Ledger → Ledger) : (updLedger s f).patrol = s.patrol := rfl
@[simp] theorem updLedger_boot (s : State) (f : Ledger → Ledger) : (updLedger s f).boot = s.boot := rfl
@[simp] theorem updLedger_micro (s : State) (f : Ledger → Ledger) : (updLedger s f).micro = s.micro := rfl
@[simp] theorem updLedger_ring (s : State) (f : Ledger → Ledger) : (updLedger s f).ring = s.ring := rfl
@[simp] theorem updLedger_ringTx (s : State) (f : Ledger → Ledger) : (updLedger s f).ringTx = s.ringTx := rfl
@[simp] theorem updLedger_host (s : State) (f : Ledger → Ledger) : (updLedger s f).host = s.host := rfl
@[simp] theorem updLedger_power (s : State) (f : Ledger → Ledger) : (updLedger s f).power = s.power := rfl
@[simp] theorem updLedger_groups (s : State) (f : Ledger → Ledger) : (updLedger s f).groups = s.groups := rfl
@[simp] theorem updLedger_test (s : State) (f : Ledger → Ledger) : (updLedger s f).test = s.test := rfl

end Sys2Proof.Machine
end

