-- ==== Sys2Proof/Laws/Wire.lean ====
section
/-! SUPPORT. Laws of what crosses a wire or a clock: a frame comes out of the descrambler as it went into the scrambler (R240),
and a FIFO's other side has the pointer that was published (R298). -/

namespace Sys2Proof.Machine

/-- The descrambler undoes the scrambler when both begin with the same bits (R240). -/
theorem descramble_scramble (bs : List Bool) (st : W64) : descramble st (scramble st bs).1 = bs := by
  induction bs generalizing st with
  | nil => rfl
  | cons b bs ih =>
    simp only [scramble, scrambleBit, descramble, ih, List.cons.injEq, and_true]
    cases b <;> cases st.getLsbD 38 <;> cases st.getLsbD 57 <;> rfl

/-- A receiver with block lock has the octets that were sent (R240). -/
theorem received_eq (st : W64) (b : List Byte) : received st b = octetBits b := descramble_scramble _ _

/-- A pointer comes back from its Gray code (R298). -/
theorem ungray_gray (p : BitVec 10) : ungray (gray p) = p := by
  revert p
  decide +kernel

/-- The consumer has the producer's commit pointer, and the producer the consumer's pointer (R298, R300). -/
theorem Fifo.seenProd_eq (f : Fifo) : f.seenProd = f.commit := ungray_gray _
theorem Fifo.seenCons_eq (f : Fifo) : f.seenCons = f.cons := ungray_gray _

end Sys2Proof.Machine
end

