-- ==== Sys2Proof/Machine/Pins.lean ====
section
/-! DEFINITION. The outputs of the block's pad ports (R11, R155, R166, R167, R250, R389, R391): the pins of a channel, CGn_ZQ,
the ring outputs, and when H_INI issues a request. -/

namespace Sys2Proof.Machine

/-- What drives a pin: nothing; nothing but the weak internal pull-up or pull-down, which act while VDDQ_CGk is present
(R391); a level; or the bus cycles in progress. -/
inductive Drive where
  | hiZ | pullUp | pullDown | low | high | cycles
  deriving DecidableEq, Repr

/-- The pins of a channel: DQ and DQS; WE_N and RE_T; RE_C, CLE and ALE; the CE_N of a chip enable; WP_N; and whether
CHn_RB_N is heeded. -/
structure ChPins where
  data : Drive
  strobesN : Drive
  strobes : Drive
  ce : List Drive
  wp : Drive
  rbHeeded : Bool
  deriving DecidableEq, Repr

/-- A pad with a pull, by SUPPLY_OK of its VDDQ. -/
def pulled (s : State) (g : Nat) (d : Drive) : Drive := if vddqOk s g then d else .hiZ

/-- The pins of a channel in the inert state (R166, R391): every die is deselected and write-protected while VDDQ is
present. -/
def inertPins (s : State) (g : Nat) : ChPins :=
  { data := .hiZ, strobesN := .hiZ, strobes := .hiZ, ce := List.replicate 16 (pulled s g .pullUp), wp := pulled s g .pullDown,
    rbHeeded := false }

/-- The level of CE_N of a chip enable: low on the one that is selected (R147). -/
def ceLevel (s : State) (ch k : Nat) : Drive := if (getCh s ch).ce = some k then .low else .high

/-- WP_N is high while the bus is TRAINED and WP_RELEASE is 1; a write takes effect after the bus cycle in progress
(R155). -/
def wpLevel (s : State) (ch : Nat) : Drive :=
  if trained s ch && (getCh s ch).wpHeld.getD (rdB s F.chBusCtlWpRelease ch) then .high else .low

/-- The pins of a channel: inert, or driven at their idle levels but for the bus cycles of a tenure (R147, R166, R167). -/
def chPins (s : State) (ch : Nat) : ChPins :=
  if channelInert s ch then inertPins s (ch / 4)
  else
    let busy := (getCh s ch).ce.isSome
    { data := if busy then .cycles else .hiZ, strobesN := if busy then .cycles else .high,
      strobes := if busy then .cycles else .low, ce := (List.range 16).map (ceLevel s ch), wp := wpLevel s ch, rbHeeded := true }

/-- CGn_ZQ draws current only while a channel of its group is not inert (R166, R389). -/
def zqDriven (s : State) (g : Nat) : Bool := (chansOf g).any (fun ch => !channelInert s ch)

/-- PSW_EN: every core output is at 0 V while VDD_AON is absent (R388). -/
def pswEnPins (s : State) : BitVec 20 := if s.power.supply.getLsbD 0 then s.power.pswEn else 0

/-- The ring outputs are in electrical idle (R11, R250). -/
def ringIdle (s : State) : Bool := !portDrives s

/-- H_INI issues a request: one that waits has a credit and an ID (R11, R364). -/
def hiIssues (s : State) : Bool := domUp s dHk && s.hi.waiting.any (hiCan s)

/-- The request channel of H_INI (R363, R365). -/
structure HiReqPins where
  write : Bool
  addr : BitVec 64
  id : BitVec 10
  len : BitVec 4
  size : BitVec 2
  ring : BitVec 2
  attr : BitVec 8
  deriving DecidableEq, Repr

/-- What a request shows on the request channel. -/
def hiReqPins (r : HiReq) : HiReqPins :=
  { write := r.write, addr := BitVec.ofNat 64 r.addr, id := BitVec.ofNat 10 r.id, len := BitVec.ofNat 4 (reqLen r.addr r.len),
    size := BitVec.ofNat 2 (reqSize r.addr r.len), ring := BitVec.ofNat 2 r.ring, attr := BitVec.ofNat 8 r.attr }

/-- A beat of write data: HI_WD_DATA, byte by byte, HI_WD_POISON and HI_WD_LAST. -/
structure WdBeat where
  data : List Byte
  poison : BitVec 16
  last : Bool
  deriving DecidableEq, Repr

/-- The write data of a request, beat by beat (R366, R367): bytes outside its range are 0 with poison 0, and the eight poison bits
of a line are alike. -/
def writeBeats (r : HiReq) : List WdBeat :=
  let n := reqLen r.addr r.len + 1
  let all := List.replicate (r.addr % 128) 0 ++ padTo (128 * n - r.addr % 128) r.data
  let line := fun (i : Nat) => r.addr % 128 / 64 ≤ i && r.poison.getD (i - r.addr % 128 / 64) false
  (List.range n).map (fun k =>
    { data := slice all (128 * k) 128,
      poison := (if line (2 * k) then 0x00ff#16 else 0) ||| (if line (2 * k + 1) then 0xff00#16 else 0),
      last := k + 1 = n })

end Sys2Proof.Machine
end

