-- ==== Sys2Proof/Tests/Slice0.lean ====
section
/-! SUPPORT. The model's own tests: the encodings and worked examples of the spec on small states, the smoke test of
WellFormed, and for every statement with hypotheses a state and operands that meet them. -/

namespace Sys2Proof.Tests

/- One theorem at a time: a kernel evaluation waits for those before it, and each that waits holds a thread. -/
set_option Elab.async false

open Sys2Proof Sys2Proof.Machine

/-! ### Small states -/

/-- A requester of ring 0. -/
def acc : Acc := ⟨0, 0⟩

/-- Every engine RUNNING (MC_ENG), both front ends up (OWNER_CTL). -/
def engines : Tab Reg W64 :=
  (⟨.ownerCtl, 0, 0, 0⟩, 0x600) :: (List.range 60).map (fun n => (⟨.mcEng, n / 4, n % 4, 0⟩, 1))

/-- Every domain is up, every supply is there, every engine runs, both front ends are up. -/
def on (m : Mode) : State :=
  let p : Power := { poreset := false, mode := m, pswEn := ~~~0, pswAck := ~~~0, up := ~~~0, supply := ~~~0 }
  { State.reset with power := p, regs := engines }

/-- In ACTIVE with channel 0 ENABLED, TRAINED, one chip enable on it, and DMA channel 0 ENABLED in item mode. -/
def act : State :=
  { on .active with regs := [(⟨.chCtl, 0, 0, 0⟩, 0x31), (⟨.chBusStatus, 0, 0, 0⟩, 3),
      (⟨.chBusCtl, 0, 0, 0⟩, 0x300001), (⟨.dcCtl, 0, 0, 0⟩, 0x8007303)] ++ engines }

/-- Pair 0 is enabled with 16 slots each way, and its packet at slot 0 is being fetched. -/
def pairUp : State :=
  { act with
    regs := [(⟨.ringCfg, 0, 0, 0⟩, 0x40401), (⟨.sqTail, 0, 0, 0⟩, 1)] ++ act.regs,
    hi := { reads := [{ write := false, src := 0, addr := 0, len := 64, ring := 0, attr := 0, use := .packetFetch 0 }] } }

def pkt (op : Byte) (row : W64) : Packet := { emptyPacket with opcode := op, row := row }

/-- An item on LUN 0 of channel 0, and a state that holds it alone. -/
def item (op : Byte) (st : Stage) : Item :=
  { id := 7, origin := .host 0, pkt := pkt op 0, level := 0, teller := 0, lun := ⟨0, 0, 0⟩, launchRef := 0, strength := 0,
    ladder := none, cls := 0, costSet := 0, stage := st }

def having (s : State) (it : Item) : State := { s with items := [it] }

/-- A state with the stored words of some registers. -/
def regs (s : State) (l : List (RegName × Nat × W64)) : State :=
  { s with regs := l.map (fun x => (reg1 x.1 x.2.1, x.2.2)) ++ s.regs }

/-- LUN 0 of chip enable 0 of channel 0. -/
def l0 : LunSel := ⟨0, 0, 0⟩

/-- A LUN with a state of its own, and a channel likewise. -/
def withLun (s : State) (x : LunSt) : State := { s with luns := [(⟨0, 0, 0⟩, x)] }
def withCh (s : State) (x : ChanSt) : State := { s with chans := [(0, x)] }

/-- The next state of an outcome, if there is one. -/
def after (o : Host.Outcome State Fault Refusal) : Option State :=
  match o with
  | .next s => some s
  | _ => none

def faults (o : Host.Outcome State Fault Refusal) (f : Fault) : Bool :=
  match o with
  | .fault g => g = f
  | _ => false

/-! ### The premises as Booleans -/

def passesB (s : State) (q : HostAccess) : Bool :=
  portTakes s && !accessErr s q && !inWindow q.addr && (touched q).all (fun t => ringMay s q t.1 && !waitsOwner s t.1)
    && !behind s s.host.held q

theorem passes_of (s : State) (q : HostAccess) (h : passesB s q = true) : Passes s q := by
  simp only [passesB, Bool.and_eq_true, Bool.not_eq_true', List.all_eq_true] at h
  exact ⟨h.1.1.1.1, h.1.1.1.2, h.1.1.2, fun t m => (h.1.2 t m).1, fun t m => (h.1.2 t m).2, h.2⟩

def takesB (s : State) (q : HostAccess) : Bool := passesB s q && !(q.write && ownerStopsNext (answer s q .fresh rOkay))

theorem takes_of (s : State) (q : HostAccess) (h : takesB s q = true) : Takes s q := by
  simp only [takesB, Bool.and_eq_true, Bool.not_eq_true', Bool.and_eq_false_iff] at h
  exact ⟨passes_of s q h.1, fun w => h.2.resolve_left (by simp [w])⟩

def routesB (s : State) (k : Nat) (p : Packet) : Bool :=
  (takeFetch s k).isSome && nextPair (arrived s k p) (tellerOf (arrived s k p) k) = some k
    && (!p.forward || p.unit.toNat = hereAddr (routed s k p))
    && firstCheck (routed s k p) (hereAddr (routed s k p)) (newItem s k p).level p = none

theorem routes_of (s : State) (k : Nat) (p : Packet) (h : routesB s k p = true) : Routes s k p := by
  simp only [routesB, Bool.and_eq_true, decide_eq_true_eq, Bool.or_eq_true, Bool.not_eq_true'] at h
  exact ⟨h.1.1.1, h.1.1.2, fun f => h.1.2.resolve_left (by simp [f]), h.2⟩

def storeB (s : State) (it : Item) : Bool :=
  (!opMoves it.pkt.op || eligibleDma s it ≠ []) && domUp s (dCg (it.lun.ch / 4)) && chEnabled s it.lun.ch && storeRoom s it

theorem store_of (s : State) (it : Item) (h : storeB s it = true) : StoreTakes s it := by
  simp only [storeB, Bool.and_eq_true, Bool.or_eq_true, Bool.not_eq_true', decide_eq_true_eq] at h
  exact ⟨fun f => h.1.1.1.resolve_left (by simp [f]), h.1.1.2, h.1.2, h.2⟩

/-- A frame as a unit seals it has its LEN and its CRC-32 right. -/
theorem frameOk_sealFrame (h : FrameHdr) (f : TxFrame) (l : Nat) : frameOk (sealFrame h f l) f = true := by
  have k : f.len < 256 := by cases f <;> simp [TxFrame.len]
  simp [frameOk, sealFrame, frameCrc, headerOctets, Nat.mod_eq_of_lt k]

def hearsB (s : State) (h : FrameHdr) : Bool :=
  domUp s dHk && xrState s ≠ 0 && xrState (frameSeen s h.lane.val) ≠ 4 && locked s h.lane.val && h.ctl = none && h.named = h.lane
    && engRunning (frameSeen s h.lane.val) 14 3

theorem hears_of (s : State) (h : FrameHdr) (b : TxFrame) (x : hearsB s h = true) (g : frameOk h b = true) : Hears s h b := by
  simp only [hearsB, Bool.and_eq_true, decide_eq_true_eq] at x
  exact ⟨x.1.1.1.1.1.1, ⟨x.1.1.1.1.1.2, x.1.1.1.1.2⟩, x.1.1.1.2, x.1.1.2, g, x.1.2, x.2⟩

/-! ### WellFormed: a term that each check refuses -/

/-- The header of a frame. -/
def aHdr : FrameHdr :=
  { src := 0, dst := 0, bcast := true, retry := false, seq := 0, hops := 0, lane := 0, named := 0, len := 0, blocks := 0, crc := 0 }

/-- Ill-formed register commands. -/
def illFormedWrites : List Instr :=
  [.ringEnable acc 0 0, .chEnableWrite acc 0 0, .dcEnableWrite acc 0 0, .snapNowWrite acc 0,
   .ringDisable acc 0 1, .chDisableWrite acc 0 1, .dcDisableWrite acc 0 1, .winEnRelease acc 1,
   .fetchErrClear acc 0 16, .rcptErrClear acc 0 8, .handoverRequest acc 1, .reenumWrite acc 1, .ringStartWrite acc 1,
   .initWrite acc 0 (1 <<< 53), .inertWrite acc 0 (1 <<< 48), .fifoFlushWrite acc 0 0xff, .icForceWrite acc 0 3,
   .smFlipArm acc 0xfff, .chFlipArm acc 0 0xffff, .bootReloadWrite acc 1, .mcRestartWrite acc 0 0 0xff,
   .modeTargetReady acc 3, .modeTargetActive acc 2, .modeTargetStandby acc 0, .modeTargetOff acc 1, .modeTargetTest acc 4]

/-- Ill-formed packets. -/
def illFormedPackets : List Instr :=
  [.read 0 (pkt 2 0), .readMulti 0 (pkt 1 0), .readRaw 0 (pkt 1 0), .program 0 (pkt 5 0), .programMulti 0 (pkt 4 0),
   .erase 0 (pkt 7 0), .eraseMulti 0 (pkt 6 0), .copy 0 (pkt 1 0), .status 0 (pkt 1 0), .setFeature 0 (pkt 0xb 0),
   .getFeature 0 (pkt 0xa 0), .resetLun 0 (pkt 0xd 0), .sequence 0 (pkt 0xc 0), .ledgerSetBudget 0 (pkt 0x10 4),
   .ledgerSetCost 0 (pkt 0x10 5), .ledgerSetQuiet 0 (pkt 0x10 4), .timeMark 0 (pkt 0x10 0), .fence 0 (pkt 0x11 0),
   .scrubStart 0 (pkt 0x13 0), .scrubStop 0 (pkt 0x13 1), .scrubClearPool 0 (pkt 0x13 1), .calibrateRun 0 (pkt 0x14 1),
   .calibrateRunForced 0 (pkt 0x14 0), .calibrateRebase 0 (pkt 0x14 3), .calibrateApply 0 (pkt 0x14 2)]

/-- Ill-formed packets that act on the unit, returns, frames and ends of work. -/
def illFormedOthers : List Instr :=
  [.relocPoolAdd 0 (pkt 0x14 0), .bootSwap 0 (pkt 0x15 0), .channelCtlNone 0 (pkt 0x17 1), .channelCtlEnable 0 (pkt 0x17 2),
   .channelCtlDisable 0 (pkt 0x17 1), .fenceGroup 0 (pkt 0x17 4), .unfenceGroup 0 (pkt 0x17 3), .unhaltLun 0 (pkt 0x17 6),
   .flushLun 0 (pkt 0x17 5), .nop 0 (pkt 1 0), .ringDescFetchReturn 0 [] false false, .hiReadDataBeat 0 [] 0 0 false,
   .presenceFrame aHdr ⟨0, 0, false, false, 0, []⟩, .allotFrame aHdr 0 [],
   .fwdRcptFrame aHdr 0 [], .bringupStepEnd 0 ⟨0, true, 0, List.replicate 257 0, 0, 0, ⟨0, 0, 0, 0⟩⟩,
   .calRunEnd 0 [], .bootLoadEnd ⟨true, ⟨some [], [], false⟩, ⟨none, [], false⟩⟩, .bistStepEnd ⟨1, false, 0, 0, 0, List.replicate 17 0, 0, []⟩,
   .machineCheck 12 2 1 1 ]

/-- An ill-formed command for every check of Instr.wellFormed. -/
def illFormed : List Instr := illFormedWrites ++ illFormedPackets ++ illFormedOthers

/-- WellFormed refuses each of them, and exec faults on it. -/
theorem test_illFormed : illFormed.all (fun c => !c.wellFormed && faults (exec c State.reset) .illFormed) = true := by
  decide +kernel

/-! ### Premises: the queue, the port and its registers -/

/-- An access with every attribute 0 but those given. -/
def access (a : Acc) (addr : BitVec 24) (wide write fetch : Bool) : HostAccess :=
  { acc := a, addr := addr, size64 := wide, write := write, fetch := fetch, data := 0 }

theorem witness_EmptyQueueIsAonTick : State.reset.power.poreset = true ∧ (on .ready).pending = []
    ∧ (on .ready).power.poreset = false ∧ (on .ready).power.retention = false ∧ (on .ready).tbNext = none := by decide +kernel

theorem witness_StepKeepsInvariant : Inv (on .ready) ∧ after (step { on .ready with pending := [.poresetAssert] }) ≠ none :=
  ⟨⟨by decide +kernel, by decide +kernel, by decide +kernel, by decide +kernel, by decide +kernel, by decide +kernel⟩,
    by decide +kernel⟩

theorem witness_CommandsLeaveTheQueue : after (exec (.sysresetAssert) (on .standby)) ≠ none := by decide +kernel

theorem witness_IllFormedCommandsFault : (Instr.ringEnable acc 0 0).wellFormed = false
    ∧ faults (exec (.descListFetchReturn 31 [] ⟨false, false⟩)
      { act with hi := { reads := [{ write := false, src := 0, addr := 0, len := 64, ring := 0, attr := 0, use := .listFetch 31 7 }] } })
        .illFormed = true := by decide +kernel

theorem witness_WellFormedCommandsAnswer : Instr.slotGrant.wellFormed = true := by decide +kernel

theorem witness_ErrorAnswersHaveNoEffect : portTakes act = true ∧ accessErr act (access acc 1 false false false) = true
    ∧ accessErr act (access ⟨1, 0⟩ 0x10 false true false) = false ∧ inWindow 0x10 = false
    ∧ ringMay act (access ⟨1, 0⟩ 0x10 false true false) (reg0 .ownerCtl) = false
    ∧ (touched (access ⟨1, 0⟩ 0x10 false true false)).map (fun x => x.1) = [reg0 .ownerCtl]
    ∧ rspWaiting { act with host := { act.host with rsp := List.replicate 32 none } } = 32 := by decide +kernel

theorem witness_FetchOutsideTheBootWindow : portTakes act = true ∧ inWindow 0x7ffff8 = false ∧ inWindow 0xa00000 = false := by
  decide +kernel

theorem witness_RegisterRowsWriteTheirRegister :
    (rowWrite (.chEnableWrite acc 47 1)).isSome = true ∧ Takes act (accessOf acc (reg1 .chCtl 47) true 1)
    ∧ (let s := { act with pending := [.frontEndStop 0 .fence] }
       (rowWrite (.forceAltWrite acc 1)).isSome = true ∧ Passes s (accessOf acc (reg0 .lgCtl) true 1) ∧ ownerStopsNext s = true
       ∧ inShared (regAddr (reg0 .lgCtl)) = true) :=
  ⟨by decide +kernel, takes_of _ _ (by decide +kernel), by decide +kernel, passes_of _ _ (by decide +kernel), by decide +kernel⟩

/-- A 64-bit register whole, and the low and the high half of it. -/
theorem witness_RegisterWriteByAddress :
    Takes act (access acc 0x90100 true true false) ∧ Takes act (access acc 0x90100 false true false)
    ∧ touched (access acc 0x90100 false true false) = [(reg1 .bistSlice 0, .low)]
    ∧ Takes act (access acc 0x90104 false true false)
    ∧ touched (access acc 0x90104 false true false) = [(reg1 .bistSlice 0, .high)] :=
  ⟨takes_of _ _ (by decide +kernel), takes_of _ _ (by decide +kernel), by decide +kernel, takes_of _ _ (by decide +kernel),
    by decide +kernel⟩

theorem witness_SplitReadsUseTheShadow :
    Takes act (readAt acc 0x90104 false) ∧ touched (readAt acc 0x90104 false) = [(reg1 .bistSlice 0, .high)]
    ∧ Takes act (readAt acc 0x90100 false) ∧ touched (readAt acc 0x90100 false) = [(reg1 .bistSlice 0, .low)]
    ∧ Takes act (readAt acc 0x90100 true) ∧ touched (readAt acc 0x90100 true) = [(reg1 .bistSlice 0, .all 0)] :=
  ⟨takes_of _ _ (by decide +kernel), by decide +kernel, takes_of _ _ (by decide +kernel), by decide +kernel,
    takes_of _ _ (by decide +kernel), by decide +kernel⟩

/-! ### Premises: ring pairs, packets and items -/

theorem witness_DoorbellTakesTailOrIsRefused : Takes pairUp (accessOf acc (reg1 .sqTail 0) true 15)
    ∧ 15 < 2 ^ rd pairUp F.ringCfgSqLog2 0 ∧ rdB pairUp F.ringCfgEnable 0 = true
    ∧ Takes pairUp (accessOf acc (reg1 .sqTail 255) true 16) ∧ rdB pairUp F.ringCfgEnable 255 = false :=
  ⟨takes_of _ _ (by decide +kernel), by decide +kernel, by decide +kernel, takes_of _ _ (by decide +kernel), by decide +kernel⟩

theorem witness_ReceiptSlotsReturnByRqHead : Takes pairUp (accessOf acc (reg1 .rqHead 0) true 15) :=
  takes_of _ _ (by decide +kernel)

theorem witness_PairConfigurationLocks : Takes pairUp (accessOf acc (reg1 .ringCfg 0) true 0x40501)
    ∧ rdB pairUp F.ringCfgEnable 0 = true
    ∧ (whole (reg1 .ringCfg 0) 0x40501).changes pairUp F.ringCfgSqLog2 = true :=
  ⟨takes_of _ _ (by decide +kernel), by decide +kernel, by decide +kernel⟩

theorem witness_PairEnableAndDisable :
    (Takes act (accessOf acc (reg1 .ringCfg 0) true 0x100401) ∧ cfgLocked act (whole (reg1 .ringCfg 0) 0x100401) = false
      ∧ (whole (reg1 .ringCfg 0) 0x100401).changes act F.ringCfgTeller = false ∧ rdB act F.ringCfgEnable 0 = false
      ∧ rd ((whole (reg1 .ringCfg 0) 0x100401).plain act) F.ringCfgSqLog2 0 = 4
      ∧ rd ((whole (reg1 .ringCfg 0) 0x100401).plain act) F.ringCfgRqLog2 0 = 16)
    ∧ (Takes act (accessOf acc (reg1 .ringCfg 0) true 0x110301) ∧ cfgLocked act (whole (reg1 .ringCfg 0) 0x110301) = false)
    ∧ (Takes pairUp (accessOf acc (reg1 .ringCfg 0) true 0x40400) ∧ cfgLocked pairUp (whole (reg1 .ringCfg 0) 0x40400) = false)
    ∧ (Takes pairUp (accessOf acc (reg1 .ringCfg 0) true 0x1040401) ∧ cfgLocked pairUp (whole (reg1 .ringCfg 0) 0x1040401) = false
      ∧ (whole (reg1 .ringCfg 0) 0x1040401).changes pairUp F.ringCfgEnable = false) :=
  ⟨⟨takes_of _ _ (by decide +kernel), by decide +kernel⟩, ⟨takes_of _ _ (by decide +kernel), by decide +kernel⟩,
    ⟨takes_of _ _ (by decide +kernel), by decide +kernel⟩, takes_of _ _ (by decide +kernel), by decide +kernel⟩

theorem witness_ClearingFetchAndReceiptErrors :
    let s := flag1 (flag1 pairUp F.ringStatusFetchErr 0) F.ringStatusRcptErr 0
    Takes s (accessOf acc (reg1 .ringStatus 0) true 8) ∧ Takes s (accessOf acc (reg1 .ringStatus 0) true 16)
    ∧ rdB s F.ringStatusFetchErr 0 = true ∧ rdB s F.ringStatusRcptErr 0 = true
    ∧ (s.hi.reads.find? (fun r => r.use = .packetFetch 0)).isSome = true
    ∧ s.hi.reads.find? (fun r => r.use = .packetFetch 1) = none :=
  ⟨takes_of _ _ (by decide +kernel), takes_of _ _ (by decide +kernel), by decide +kernel⟩

theorem witness_ReceiptCarriesTheFirstStatus : ({ item 1 .hold with marks := [.okLate, .ok] } : Item).marks ≠ [] := by decide

/-- A read of quarter 0 to 3 of row 0. -/
def readPkt : Packet := { pkt 1 0 with qmask := 0xf, ladder := 0xff, strength := 0xff }

theorem witness_TellerTakesThePairWhoseTurnItIs : nextPair (arrived pairUp 0 readPkt) 0 = some 0 := by decide +kernel

theorem witness_PacketsArriveAndAreRouted : (takeFetch pairUp 0).isSome = true ∧ takeFetch act 0 = none
    ∧ (Instr.read 0 readPkt).wellFormed = true
    ∧ nextPair (arrived { pairUp with fences := [⟨9, 1, 0, 0, []⟩] } 0 readPkt) 0 ≠ some 0 := by decide +kernel

theorem witness_FirstFailingCheckRefuses :
    firstCheck act (hereAddr act) 0 (pkt 0xff 0) = some 1 ∧ firstCheck act (hereAddr act) 0 (pkt 0x18 0) = none ∧ firstCheck act (hereAddr act) 0 (pkt 1 0) = some 7
    ∧ firstCheck act (hereAddr act) 0 { readPkt with unit := 16, flags := 8 } = some 3 := by decide +kernel

theorem witness_FlashRowsJoinTheirQueue : Routes pairUp 0 readPkt ∧ StoreTakes (routed pairUp 0 readPkt) (newItem pairUp 0 readPkt)
    ∧ Routes pairUp 0 { pkt 6 0 with strength := 0xff }
    ∧ eligibleDma (on .active) (item 1 .queued) = [] ∧ chEnabled (on .active) 0 = false ∧ eligibleDma act (item 1 .queued) ≠ [] :=
  ⟨routes_of _ _ _ (by decide +kernel), store_of _ _ (by decide +kernel), routes_of _ _ _ (by decide +kernel), by decide +kernel⟩

/-- The premises on the packet of the rows without LUN queue, each with its packet. -/
theorem witness_packet_rows :
    (∀ p ∈ [pkt 0x10 0, pkt 0x10 4, pkt 0x11 1, pkt 0x18 0, pkt 0x10 5, pkt 0x12 0, pkt 0x12 3, pkt 0x13 0, pkt 0x13 1, pkt 0x13 2,
        pkt 0x14 0, pkt 0x14 1, pkt 0x14 2, pkt 0x14 3, pkt 0x15 0, pkt 0x16 0, pkt 0x17 0, pkt 0x17 1, pkt 0x17 2, pkt 0x17 3,
        pkt 0x17 4], Routes pairUp 0 p)
    ∧ linkHeld (routed pairUp 0 (pkt 0x10 5)) = false
    ∧ linkHeld (sendWide (routed pairUp 0 (pkt 0x10 0)) (pkt 0x10 0)) = false := by
  refine ⟨fun p h => routes_of _ _ _ ?_, by decide +kernel⟩
  revert p h
  decide +kernel

theorem witness_QuietWindowsRow :
    quietTouch act 100 200 = [] ∧ quietLive act 0 = false ∧ fineTick act < 100 + 100
    ∧ (let s := wr1 (wr1 act F.lgQuietW1Valid 7 1) F.lgQuietW1Length 7 1
       rdB s F.lgQuietW1Valid 7 = true ∧ (reach s (nsU * 1)).isSome = true ∧ quietHolds s 7 0 = true)
    ∧ (∀ j ∈ List.range 8, quietLive ((List.range 8).foldl (fun s j => wr1 (wr1 s F.lgQuietW1Valid j 1) F.lgQuietW1Length j 9) act) j
        = true) := by decide +kernel

theorem witness_RelocPoolAddRow :
    (0x01000000000000#64).getLsbD 56 = false ∧ (0x12f000000000000#64).getLsbD 56 = true
    ∧ ((0x12f000000000000#64) >>> 48).toNat % 256 = 47 ∧ ((0x130000000000000#64) >>> 48).toNat % 256 = 48 := by decide

theorem witness_CalibrateRows : domUp act (dCg 0) = true ∧ (chansOf 0).any (trained act) = true
    ∧ domUp (on .active) (dCg 11) = true ∧ (chansOf 11).any (trained (on .active)) = false
    ∧ domUp { act with power := { act.power with up := 0 } } (dCg 0) = false := by decide +kernel

theorem witness_BootSwapRow : act.boot.swap = none ∧ bootChannel act = none
    ∧ bootChannel { act with power := { act.power with straps := 2 } } = some 0
    ∧ bootChannel { act with power := { act.power with straps := 24 } } = some 44 ∧ rd act F.chCtlState 0 = 3 := by decide +kernel

theorem witness_ChannelCtlRows :
    let s := wr1 act F.cgFenceFence 4 1
    rd act F.chCtlState 47 = 2 ∧ cgFenced act 11 = false ∧ trained act 47 = false
    ∧ trained (wr1 act F.chBusStatusBusState 47 3) 47 = true ∧ cgFenced s 1 = true ∧ rd s F.chCtlState 4 = 2
    ∧ rd (wr1 s F.chCtlState 4 1) F.chCtlState 4 = 1 ∧ rd (wr1 act F.chCtlState 47 1) F.chCtlState 47 = 1
    ∧ rd act F.chCtlState 0 = 3 := by decide +kernel

theorem witness_ForwardedPacketsAndTimedItems :
    (let p := { pkt 1 0 with flags := 8, unit := 15 }
     p.forward = true ∧ p.unit.toNat ≤ 15 ∧ p.unit.toNat ≠ hereAddr act ∧ ringLive act = false)
    ∧ (let s := wr0 (wr0 act F.xrStatusState 3) F.xrStatusPresent 0x8000
       ringLive s = true ∧ xrPresent s 15 = true)
    ∧ (findItem (having act (item 0x11 .timed)) 7).isSome = true ∧ (reach act (nsU * 0)).isSome = true
    ∧ reach act (nsU * 1000000) = none := by decide +kernel

/-! ### Premises: the host half -/

theorem witness_TimeBaseSet : Takes act (accessOf acc (reg0 .tbSet) true (~~~0)) ∧ ringAlone act = true
    ∧ (let s := wr0 (wr0 (wr0 act F.xrStatusState 3) F.xrStatusPresent 0xffff) F.xrCtlEnable 1
       Takes s (accessOf acc (reg0 .tbSet) true 0) ∧ isMaster s = false ∧ ringAlone s = false) :=
  ⟨takes_of _ _ (by decide +kernel), by decide +kernel, takes_of _ _ (by decide +kernel), by decide +kernel⟩

theorem witness_RandKeyTakenOnlyWithNoChannelEnabled : Takes act (accessOf acc (reg0 .randKey) true 1)
    ∧ domUp act (dCg 0) = true ∧ countsEnabled act 0 = true
    ∧ (let s := on .active
       Takes s (accessOf acc (reg0 .randKey) true 1) ∧ ∀ ch ∈ List.range 48, countsEnabled s ch = false) :=
  ⟨takes_of _ _ (by decide +kernel), by decide +kernel, by decide +kernel, takes_of _ _ (by decide +kernel), by decide +kernel⟩

theorem witness_AlternateBudgets : Takes act (accessOf acc (reg0 .lgCtl) true 2) ∧ altAsked act = false
    ∧ altAsked (wr0 act F.lgCtlForceAlt 1) = true
    ∧ altActive { act with ledger := { act.ledger with holdEnd := some 0 } } = true ∧ (lapse act 0).isSome = true :=
  ⟨takes_of _ _ (by decide +kernel), by decide +kernel⟩

theorem witness_RingPortRows : Takes act (accessOf acc (reg0 .xrCtl) true 3) ∧ hk3Up act = true ∧ xrState act = 0
    ∧ (let s := wr0 { act with power := { act.power with straps := 1 } } F.xrStatusState 3
       isHead s = true ∧ ringOn s = true)
    ∧ Takes act (accessOf acc (reg0 .lgRingCtl) true 0x200000000)
    ∧ (let s := wr0 (wr0 (wr0 act F.tbStatusMaster 1) F.lgRingCtlRingEn 1) F.lgRingCtlFloor 1
       isMaster s = true ∧ ringEn s = true ∧ (∀ k ∈ List.range 16, xrPresent s k = true → k = hereAddr s)
       ∧ rd s F.lgRingCtlRingBudget < rd s F.lgRingCtlFloor ∧ vccHeld s ≤ rd s F.lgRingCtlFloor) :=
  ⟨takes_of _ _ (by decide +kernel), by decide +kernel, by decide +kernel, by decide +kernel, takes_of _ _ (by decide +kernel),
    by decide +kernel⟩

theorem witness_HandoverOfOwnership : Takes act (accessOf acc (reg0 .ownerCtl) true 2) ∧ act.host.handover = false
    ∧ feUp act (1 - owner act) = true ∧ (on .standby).power.mode = .standby
    ∧ Takes (on .standby) (accessOf acc (reg0 .ownerCtl) true 2)
    ∧ Takes (wr0 act F.ownerCtlFeBUp 0) (accessOf acc (reg0 .ownerCtl) true 2)
    ∧ feUp (wr0 act F.ownerCtlFeBUp 0) (1 - owner act) = false :=
  ⟨takes_of _ _ (by decide +kernel), by decide +kernel, by decide +kernel, by decide +kernel, takes_of _ _ (by decide +kernel),
    takes_of _ _ (by decide +kernel), by decide +kernel⟩

theorem witness_FrontEndsStopAndComeUp : Takes act (accessOf acc (reg0 .svcFeCtl) true 2) ∧ domUp act (dFe 1) = true
    ∧ powered act (dFe 0) = true ∧ dFe 0 ∉ act.power.queue ∧ feUp act 0 = true ∧ act.host.handover = false
    ∧ owner act = 0 ∧ feUp act 1 = true
    ∧ feUp (wr0 act F.ownerCtlFeAUp 0) 0 = false ∧ feUp (wr0 (wr0 act F.ownerCtlFeAUp 0) F.ownerCtlFeBUp 0) 1 = false :=
  ⟨takes_of _ _ (by decide +kernel), by decide +kernel⟩

/-! ### Premises: interrupts, staging, channels and calibration -/

theorem witness_InterruptsAndTallies :
    (Takes act (accessOf acc (reg1 .icClaim 7) false 0) ∧ irqLowest act 7 = 0x3ff
      ∧ irqLowest (regs act [(.icSrc, 511, 0x18000)]) 7 = 511)
    ∧ (Takes act (accessOf acc (reg1 .icComplete 7) true 511)
      ∧ rd (regs act [(.icTgtStatus, 7, 511)]) F.icTgtStatusInService 7 = 511 ∧ rd act F.icTgtStatusInService 7 = 0x3ff)
    ∧ Takes act (accessOf acc (reg1 .icSrc 511) true 0x80101)
    ∧ (irqDrive act 511 = false ∧ irqDrive (regs act [(.portStatus, 0, 0x20)]) 5 = true ∧ domUp act dHk = true)
    ∧ (let s := { regs act [(.ringCfg, 255, 0x4040401), (.irqCoal, 255, 0x10000)] with rings := [(255, { firstAt := some 0 })] }
       rdB s F.ringCfgIrqEvery 255 = true ∧ rd s F.irqCoalCoalTime 255 = 1 ∧ (lapse { s with clk := usU } usU).isSome = true)
    ∧ Takes act (accessOf acc (reg1 .tallyVal 63) true (~~~0)) ∧ Takes act (accessOf acc (reg0 .tallySnapCtl) true 1) :=
  ⟨⟨takes_of _ _ (by decide +kernel), by decide +kernel⟩, ⟨takes_of _ _ (by decide +kernel), by decide +kernel⟩,
    takes_of _ _ (by decide +kernel), by decide +kernel, by decide +kernel, takes_of _ _ (by decide +kernel),
    takes_of _ _ (by decide +kernel)⟩

theorem witness_StagingMemoryReadsWhatWasWritten :
    act.staging.mem.wf = true ∧ rdB act F.smFlipCtlArm = false ∧ (List.replicate 64 (0xff : Byte)).length = 64 := by decide +kernel

theorem witness_StagingRegisterRows :
    Takes act (accessOf acc (reg1 .smBankCtl 15) true 2) ∧ (whole (reg1 .smBankCtl 15) 2).changes act F.smBankCtlRetire = true
    ∧ rdB act F.smBankCtlFence 15 = false
    ∧ Takes act (accessOf acc ⟨.smRemap, 15, 7, 0⟩ true 0x80000000) ∧ bankQuiet act 15 = false
    ∧ bankQuiet (regs act [(.smBankCtl, 15, 1)]) 15 = true
    ∧ Takes act (accessOf acc (reg0 .smFlipCtl) true 0x1000) ∧ Takes act (accessOf acc (reg1 .chFlipCtl 47) true 0x10000)
    ∧ domUp act dHk = true ∧ scrubOn (wr0 act F.smScrubLinesPerUs 1) = true ∧ parked act = false :=
  ⟨takes_of _ _ (by decide +kernel), by decide +kernel, by decide +kernel, takes_of _ _ (by decide +kernel), by decide +kernel,
    by decide +kernel, takes_of _ _ (by decide +kernel), takes_of _ _ (by decide +kernel), by decide +kernel⟩

theorem witness_ChannelAndGroupRows :
    Takes act (accessOf acc (reg1 .chCtl 47) true 1) ∧ Takes act (accessOf acc (reg1 .cgFence 44) true 1)
    ∧ act.power.phase ≠ some .toReadyDrain
    ∧ Takes { act with power := { act.power with phase := some .toReadyDrain } } (accessOf acc (reg1 .chCtl 0) true 1)
    ∧ (let s := regs act [(.chCtl, 0, 0x90)]
       rd s F.chCtlState 0 = 1 ∧ s.items.any (drainsFor 0) = false)
    ∧ Takes act (accessOf acc (reg1 .cgPhy 44) true (1 <<< 48)) ∧ Takes act (accessOf acc (reg1 .cgPhy 44) true (1 <<< 53))
    ∧ (rdB (regs act [(.cgPhy, 0, 0)]) F.cgPhyInert 0 = false ∧ (chansOf 0).any (countsEnabled act) = true)
    ∧ ((chansOf 11).any (countsEnabled act) = false ∧ (getGroup act 11).bringup = none ∧ rdB (regs act [(.cgPhy, 44, 0)]) F.cgPhyInert 44 = false)
    ∧ (let s := { act with groups := [(11, { bringup := some { step := 3, part := [44], left := [(44, [0])] } })] }
       (getGroup s 11).bringup.isSome = true ∧ engRunning s 11 0 = true
       ∧ [(44, [0])].find? (fun e : Nat × List Nat => e.1 = 4 * 11 + 0) = some (44, [0])) :=
  ⟨takes_of _ _ (by decide +kernel), takes_of _ _ (by decide +kernel), by decide +kernel, takes_of _ _ (by decide +kernel),
    by decide +kernel, takes_of _ _ (by decide +kernel), takes_of _ _ (by decide +kernel), by decide +kernel, by decide +kernel,
    by decide +kernel⟩

/-- Group 0 with a run pending, 1 ms after the start. -/
def calPend : State := { act with groups := [(0, { calPending := true })], clk := 1000 * usU }

theorem witness_CalibrationEvents :
    domUp act (dCg 0) = true ∧ calWants act 0 = false ∧ hk1Up act = true ∧ retryOver act 0 = true
    ∧ calWants (regs act [(.calGrpStatus, 0, 0x7ff)]) 0 = true
    ∧ (calWaits calPend 0 = true ∧ warn calPend = false ∧ bringingUp calPend 0 = false ∧ calState calPend 0 < 2
      ∧ (lapse calPend (500 * usU)).isSome = true ∧ boundaryFree calPend 0 = true ∧ (lapse calPend usU).isSome = true)
    ∧ (lapse { act with groups := [(0, { retryUntil := some 0 })] } 0).isSome = true
    ∧ calState (wr1 calPend F.calGrpStatusState 0 3) 0 = 3
    ∧ (Instr.calRunEnd 0 (List.replicate 4 ⟨0, 0, 0, 0⟩)).wellFormed = true
    ∧ (∀ x ∈ trimCodes act 1 3 ⟨getR act .calDqRd 1 3, getR act .calDqWr 1 3, getR act .calDqs 1 3, getR act .calDrv 1 3⟩, x.pass = true)
    ∧ (∃ x ∈ trimCodes act 0 0 ⟨0, 0, 0, 0⟩, x.pass = false) := by decide +kernel

theorem witness_CalibrationEvents_trims :
    Takes act (accessOf acc ⟨.calDqRd, 0, 0, 0⟩ true 1) ∧ busState act 0 = 3 ∧ (getGroup act 0).staged = []
    ∧ Takes act (accessOf acc ⟨.calDrv, 11, 3, 0⟩ true 1) ∧ busState act 47 = 0
    ∧ busState (wr1 act F.chBusStatusBusState 47 1) 47 = 1 :=
  ⟨takes_of _ _ (by decide +kernel), by decide +kernel, by decide +kernel, takes_of _ _ (by decide +kernel), by decide +kernel⟩

/-! ### Premises: scheduling, buses, decoding and data movement -/

/-- An item that waits for tick 9,000, at tick 1,000 or at tick 8,999. -/
def timedItem : Item := { item 9 .queued with pkt := { pkt 9 0 with launchTick := 9000 } }
def waitingAt (tick : Nat) : State :=
  { withLun (having act timedItem) { queue := [7] } with fine := nsU * tick, tb := nsU * tick }

theorem witness_LaunchRows :
    (findItem (waitingAt 1000) 7 = some timedItem ∧ (reach (waitingAt 1000) (nsU * (9000 - tickLead (waitingAt 1000) timedItem))).isSome
      = true)
    ∧ ((reach (waitingAt 8999) (nsU * (9000 - tickArm act))).isSome = true ∧ fineTick (waitingAt 8999) < 9000
      ∧ (offered (waitingAt 8999) ⟨0, 0, 0⟩).map (fun o => o.id) = some 7 ∧ lunFree (waitingAt 8999) ⟨0, 0, 0⟩ timedItem = true
      ∧ mayLaunch (waitingAt 8999) 0 = true ∧ tickQuiet (waitingAt 8999) timedItem = false ∧ busyWant (waitingAt 8999) timedItem = false)
    ∧ (let s := withCh (waitingAt 9000) { gate := some 7 }
       (getCh s 0).gate.bind (findItem s) = some timedItem ∧ (reach s (nsU * 9000)).isSome = true)
    ∧ (offered (waitingAt 9000) (lunOf l0) = some timedItem ∧ mayLaunchItem (waitingAt 9000) timedItem = true
      ∧ launchFree (waitingAt 9000) (lunOf l0) timedItem = true ∧ tickReached (waitingAt 9000) timedItem = true
      ∧ timedItem.phase = .none ∧ offered act (lunOf l0) = none ∧ tickReached (waitingAt 8999) timedItem = false) := by decide +kernel

theorem witness_LaunchRows_suspends :
    (let s := regs (withLun { having act (item 4 .program) with ledger := { coins := [⟨⟨0, 0, 0⟩, some 7, .granted, false, 1⟩] } }
        { susp := 1, array := some 7 }) [(.chSched, 0, 0)]
     arrayItem s (lunOf l0) = some (item 4 .program) ∧ resumeDue s (lunOf l0) = true ∧ hasCoin s 7 .granted = true
     ∧ busyWant s (item 4 .program) = false)
    ∧ (let b : Item := { item 1 .queued with id := 8, pkt := { readPkt with flags := 1, deadline := 9 } }
       let s := regs (withLun { act with items := [item 4 .program, b] } { act := .program, array := some 7, queue := [8] })
         [(.chSched, 0, 0xffffffff)]
       (lapse s (0 + usU * 0)).isSome = true ∧ suspendDue s (lunOf l0) = true ∧ suspendDue act (lunOf l0) = false) := by
  decide +kernel

theorem witness_LunAndBusRows :
    (lapse (withLun act { pollAt := some 0 }) 0).isSome = true ∧ domUp act (dCg 0) = true
    ∧ (let s := withCh (having act (item 9 .launch)) { bus := some { kind := .poll, lun := ⟨0, 0, 0⟩, item := some 7, cls := 1 } }
       (getCh s 0).bus.isSome = true ∧ (findItem (clearBus s 0) 7).isSome = true)
    ∧ (timeoutAt (withLun act { act := .erase }) (lunOf l0)).isSome = true
    ∧ (lapse { act with clk := 70000 * usU } (usU * 65536)).isSome = true
    ∧ ((getCh (withCh act { bus := some { kind := .getData, lun := ⟨0, 0, 0⟩, cls := 1 } }) 0).bus.map (fun t => t.kind)) = some .getData
    ∧ (let s := withCh (having act (item 1 .xfer)) { bus := some { kind := .dataOut, lun := ⟨0, 0, 0⟩, item := some 7, cls := 1 } }
       ((getCh s 0).bus.bind (fun t => t.item)).bind (findItem s) = some (item 1 .xfer) ∧ xferLen s (item 1 .xfer) = 0)
    ∧ (let s := withLun (having act (item 1 .decode)) { act := .hold, holdStart := some 0, cur := some 7 }
       (getLun s (lunOf l0)).cur.bind (findItem s) = some (item 1 .decode) ∧ (lapse { s with clk := usU * 255 }
         (0 + usU * rd s F.classCfg1HoldUs 0)).isSome = true)
    ∧ (let s := withCh (having act (item 0xd .other)) { routine := some 7 }
       (getCh s 0).routine.bind (findItem s) = some (item 0xd .other)) := by decide +kernel

/-- A decode job of item 7 on engine 39, and one that waits. -/
def aJob (k : JobKind) : Job := { kind := k, item := 7, page := 0, cls := 1, poolB := true }

theorem witness_DecodeEngineRows :
    Takes act (accessOf acc (reg1 .deCtl 39) true 1) ∧ Takes act (accessOf acc (reg0 .decCtl) true 3) ∧ domUp act (dDp 1) = true
    ∧ (let s := regs act [(.deCtl, 39, 0x80)]
       engineJob s 39 = none ∧ engineJob { s with engines := [(39, aJob .glob)] } 39 = some (aJob .glob))
    ∧ claimOf act 39 = none ∧ parked act = false
    ∧ resultOk act (aJob .glob) ⟨true, 0, []⟩ = true ∧ resultOk (having act (item 1 .decode)) (aJob .glob) ⟨true, 0, [40000000]⟩ = false
    ∧ jobsOpen (having act (item 1 .decode)) 7 = false ∧ failingOf (item 1 .decode) = []
    ∧ (findItem (having act (item 1 .decode)) 7).isSome = true :=
  ⟨takes_of _ _ (by decide +kernel), takes_of _ _ (by decide +kernel), by decide +kernel⟩

theorem witness_DmaRegisterRows :
    Takes act (accessOf acc (reg1 .dcCtl 31) true 3) ∧ dcConfigurable act 0 = false ∧ dcState act 31 = 2 ∧ dcMode act 31 = 0
    ∧ dcState act 0 = 3 ∧ dcState (regs act [(.dcCtl, 31, 0x100)]) 31 = 1 ∧ dcBusy act 31 = false ∧ dmaUp act 31 = true
    ∧ Takes act (accessOf acc (reg1 .dcKick 31) true 1) ∧ descFetching act 31 = false
    ∧ descFetching { act with hi := { reads := [{ write := false, src := 0, addr := 0, len := 32, ring := 0, attr := 0, use := .descFetch 31 }] } } 31
        = true
    ∧ Takes act (accessOf acc (reg1 .chFifoCtl 47) true 0xf100) ∧ rd act F.chCtlState 47 = 2
    ∧ Takes act (accessOf acc (reg1 .chFifoCtl 0) true 0xf100) ∧ rd act F.chCtlState 0 ≠ 2
    ∧ Takes act (accessOf acc ⟨.chFifoDbg, 47, 3, 0⟩ false 0)
    ∧ Takes act { accessOf acc ⟨.chFifoDbg, 47, 3, 0⟩ false 0 with size64 := false }
    ∧ (let s := wr1 { act with fifos := [((47, 3), { wr := 1, commit := 1 })] } F.chFifoCtlDbgEn 47 8
       bitOf (rd s F.chFifoCtlDbgEn 47) 3 = true ∧ (getFifo s 47 3).commit ≠ (getFifo s 47 3).cons ∧ fifoItems s 47 3 = []
       ∧ packetOpen s 47 3 = false ∧ packetOpen { act with fifos := [((47, 0), { holder := some 0 })] } 47 0 = true) :=
  ⟨takes_of _ _ (by decide +kernel), by decide +kernel, by decide +kernel, by decide +kernel, by decide +kernel, by decide +kernel,
    by decide +kernel, by decide +kernel, takes_of _ _ (by decide +kernel), by decide +kernel, by decide +kernel,
    takes_of _ _ (by decide +kernel), by decide +kernel, takes_of _ _ (by decide +kernel), by decide +kernel,
    takes_of _ _ (by decide +kernel), takes_of _ _ (by decide +kernel), by decide +kernel⟩

/-- One outstanding read of H_INI. -/
def reading (u : HiUse) (len : Nat) : HiReq :=
  { write := false, src := 0, addr := 0, len := len, ring := 0, attr := 0, use := u }

theorem witness_DataMovementRows :
    (let s := { having act (item 4 .queued) with
        dma := [(0, { cur := some ⟨7, 0, 0⟩ })], fifos := [((0, 0), { wr := 65, holder := some 0 })] }
     hostInDma s 0 = some (0, item 4 .queued, ⟨7, 0, 0⟩) ∧ ((getFifo s 0 0).wr - (getFifo s 0 0).commit).toNat = 65
     ∧ readsOpen s 7 ⟨7, 0, 0⟩ = false)
    ∧ ((item 4 .queued).phase = .program ∧ dataCommitted (item 4 .queued) = true ∧ hasSlots (item 4 .queued) = true)
    ∧ (let e : Entry := ⟨7, 0, 0⟩
       let s := { having act (item 1 .deliver) with
         dma := [(31, { cur := some e })], fifos := [((0, 3), { pkt := some { dma := 31, item := 7, page := 0, q := 0, start := 0, made := 0 } })] }
       (hostOutDma s 0).isSome = true ∧ hostOutHeld s 0 = false ∧ (entrySegs s 31 (item 1 .deliver) e).2 = none
       ∧ hostOutDma act 0 = none ∧ rd act F.chFifoCtlFlush 0 = 0)
    ∧ (let r := reading (.descFetch 0) 32
       r.spoilt = false ∧ ({ r with err := true } : HiReq).spoilt = true ∧ dcState act 0 = 3 ∧ dcState act 31 ≠ 3)
    ∧ (let s := { having act (item 1 .deliver) with dma := [(31, { cur := some ⟨7, 0, 0⟩, going := true })] }
       (getDma s 31).desc = none ∧ writesWait s 7 ⟨7, 0, 0⟩ = false ∧ dmaUp s 31 = true)
    ∧ (descDone act 0 { bytes := [], result := some 0 } = true)
    ∧ ((List.replicate 31 (0 : Byte) ++ [0x80]).length = 32 ∧ ((List.replicate 31 (0 : Byte) ++ [0x80]).getD 31 0).getLsbD 7 = true)
    ∧ (let s := { having act (item 2 .deliver) with
        dma := [(31, { cur := some ⟨7, 0, 0⟩ })], hi := { reads := [reading (.listFetch 31 7) 64] } }
       32 * (List.replicate 2 (List.replicate 32 (0 : Byte))).length = 64
       ∧ (s.hi.reads.map (fun r => r.use.item.bind (findItem s))) = [some (item 2 .deliver)])
    ∧ ((reading (.packetFetch 0) 64).beats + 1 = (reading (.packetFetch 0) 64).beatCount
      ∧ (reading (.packetFetch 0) 256).beats + 1 ≠ (reading (.packetFetch 0) 256).beatCount)
    ∧ domUp act dHk = true := by decide +kernel

/-! ### Premises: boot, power, clocks, microcode, patrol, ring and test -/

theorem witness_BootWindowRows :
    Takes act (accessOf acc (reg0 .bootCtl) true 4) ∧ reloadOk act = false
    ∧ reloadOk (regs { act with power := { act.power with straps := 2 } } [(.smBankCtl, 15, 1)]) = true
    ∧ accessErr act (windowAt acc 0x1ffff8 true true) = false ∧ portTakes act = true ∧ rd act F.bootStatusState = 0
    ∧ rdB act F.bootCtlWinEn = false ∧ rdB (regs act [(.bootCtl, 0, 1)]) F.bootCtlWinEn = true
    ∧ execOnly (regs act [(.bootXo, 0, 0x80000000)]) 0 = true ∧ execOnly act 511 = false
    ∧ (let s := regs { act with power := { act.power with straps := 24, bootGroup := true } } [(.bootStatus, 0, 1)]
       loadInHand s = some 11 ∧ hk0Up s = true ∧ warn s = false ∧ reloading s = false
       ∧ loadCanRead { s with boot := { upAt := some 0, vddqAt := some 0 } } 11 = true
       ∧ (let r : BootLoadResult := ⟨true, ⟨none, [], false⟩, ⟨some (List.replicate 32 0), [], false⟩⟩
          (Instr.bootLoadEnd r).wellFormed = true ∧ imageFits (startHeaders s 44 r) r 0 = true ∧ imageFits (startHeaders s 44 r) r 1 = true))
    ∧ (let s := regs { act with power := { act.power with straps := 2 }, boot := { reload := true, load := some { step := .done } } } [(.bootStatus, 0, 1)]
       loadInHand s = some 0 ∧ reloading s = true ∧ loading s = true
       ∧ loadMayStart { s with boot := { s.boot with load := some {} } } = true)
    ∧ loadMayStart (regs { act with power := { act.power with straps := 2 } } [(.bootStatus, 0, 1)]) = true
    ∧ behind act act.host.held (windowAt acc 0x1ffff8 true true) = false :=
  ⟨takes_of _ _ (by decide +kernel), by decide +kernel⟩

theorem witness_ModeAndPowerRequests :
    Takes (on .ready) (accessOf acc (reg0 .modeCtl) true 3) ∧ modeCode (on .ready) = 2 ∧ rdB (on .ready) F.modeCtlBusy = false
    ∧ channelsQuiet (on .ready) = true ∧ unitIdle (on .ready) = true ∧ channelsQuiet act = false
    ∧ lcTest { on .ready with power := { (on .ready).power with straps := 1 <<< 5 } } = true
    ∧ Takes act (accessOf acc (reg0 .pwrReq) true 0xfff3f) ∧ steady act = true ∧ hkOwns act 19 = false ∧ mayClear act 8 = false
    ∧ mayClear act 19 = true ∧ steady (on .ready) = false :=
  ⟨takes_of _ _ (by decide +kernel), by decide +kernel, by decide +kernel, by decide +kernel, by decide +kernel, by decide +kernel,
    by decide +kernel, takes_of _ _ (by decide +kernel), by decide +kernel⟩

theorem witness_ResetsSuppliesAndSwitches :
    State.reset.power.poreset = true ∧ aonLive act = true ∧ aonLive State.reset = false
    ∧ ({ act with power := { act.power with sysreset := true } } : State).power.sysreset = true ∧ act.power.poreset = false
    ∧ act.power.retention = false ∧ act.power.pswEn.getLsbD 19 = true ∧ act.power.pswAck.getLsbD 19 = true
    ∧ ({ act with power := { act.power with pswAck := 1 } } : State).power.pswAck.getLsbD 19 = false
    ∧ (let s := { act with clk := 100 * usU, power := { act.power with pswAck := 1 } }
       dueClk s (100 * usU + Tab.get s.power.pswAt 19 0) = true)
    ∧ ({ State.reset with power := { State.reset.power with pswAck := 0 } } : State).power.pswAck.getLsbD 0 = false := by decide +kernel

theorem witness_ClockRows :
    Takes act (accessOf acc (reg0 .ckCoreCtl) true 0x3002) ∧ rd act F.ckCoreCtlSrc = 1 ∧ sourceReady act 2 = true
    ∧ sourceReady act 0 = false ∧ switching act = false
    ∧ switching { act with power := { act.power with switchFrom := some 1 } } = true
    ∧ domUp act dHk = true ∧ monitored act ≠ 2 ∧ parked act = false ∧ phyRuns { act with groups := [(11, { pll := true })] } 11 = true
    ∧ supplyOk act 3 = true ∧ rdB act F.ckCoreCtlPllEn = true
    ∧ (lapse { act with power := { act.power with phase := some .step5 }, clk := 100 * usU } (100 * usU + 0)).isSome
        = true :=
  ⟨takes_of _ _ (by decide +kernel), by decide +kernel⟩

theorem witness_MicrocodeRows :
    Takes act (accessOf acc (reg1 .mcCtl 14) true 1) ∧ rdB act F.mcCtlWriteEn 14 = false ∧ storeFree act 14 1 = false
    ∧ storeFree (regs act [(.mcCtl, 11, 0), (.svcFeCtl, 0, 1)]) 11 0 = true
    ∧ Takes act (accessOf acc ⟨.mcEng, 14, 3, 0⟩ true 0x100)
    ∧ (let s := regs { act with regs := (⟨.mcEng, 11, 3, 0⟩, 2) :: act.regs } [(.cgFence, 44, 1)]
       isMcheck s 11 3 = true ∧ outOfService s 11 = true ∧ rdB s F.mcCtlWriteEn 11 = false)
    ∧ domUp act (storeDom 14) = true ∧ rdB act F.mcCtlClearing 14 = true
    ∧ (Instr.machineCheck 14 3 5 0).wellFormed = true ∧ engRunning act 14 3 = true
    ∧ (getMicro { act with micro := [((14, 3), { pend := [9, 1] })] } 14 3).pend = [9, 1]
    ∧ (getMicro act 14 3).masked = false ∧ (getMicro act 14 3).handler = false
    ∧ (getMicro { act with micro := [((14, 3), { handler := true })] } 14 3).handler = true
    ∧ canCheck act 14 3 5 0 = true ∧ canCheck act 14 3 2 1 = false
    ∧ ({} : Micro).stack.length ≤ 4 ∧ ({} : Micro).lc.length = 4 ∧ ({} : Micro).s.length = 8 :=
  ⟨takes_of _ _ (by decide +kernel), by decide +kernel, by decide +kernel, by decide +kernel, takes_of _ _ (by decide +kernel),
    by decide +kernel⟩

theorem witness_PatrolAndRelocationRows :
    patrolRuns (wr0 act F.psStatusRun 1) = true ∧ (lapse act 0).isSome = true
    ∧ patrolNext (wr0 (wr1 act F.psClassInclude 0 1) F.psCfgChMask 1) 0 2 0 = some 0 ∧ patrolNext act 0 2 6142 = none
    ∧ (let it : Item := { item 1 .group with origin := .patrol }
       findItem (having act it) 7 = some it ∧ it.isPatrol = true ∧ hk0Up act = true)
    ∧ (0 < freeSlots pairUp 0 ∧ mayWrite pairUp 0 = true) ∧ act.patrol.waiting = [] ∧ act.patrol.receipts.length < 64 := by decide +kernel

/-- The unit at address 2 of a ring, its lanes up. -/
def ringUp : State :=
  let s := wr0 (wr0 (wr0 act F.xrStatusState 3) F.xrAddrAddr 2) F.xrAddrAddrValid 1
  { wr0 (wr0 s F.xrStatusIn0Up 1) F.xrStatusIn1Up 1 with ring := { rx := [(0, { lock := true }), (1, { lock := true })] } }

/-- A frame from unit 1 to unit 2, on lane 0. -/
def hdr (bcast : Bool) (f : TxFrame) : FrameHdr :=
  sealFrame { src := 1, dst := 2, bcast := bcast, retry := false, seq := 0, hops := 1, lane := 0, named := 0, len := 0, blocks := 0, crc := 0 }
    f 0

theorem ringUp_hears (b : Bool) (f : TxFrame) : Hears ringUp (hdr b f) f :=
  hears_of _ _ _ (by
    have k : hearsB ringUp { aHdr with lane := 0, named := 0, ctl := none } = true := by decide +kernel
    exact k) (frameOk_sealFrame _ _ _)

def aPresence : Presence := { master := 1, exch := 0, hasExch := false, present := 6, slots := List.replicate 16 (0, 0) }

theorem witness_RingPortAndTimeRows :
    (∀ f : TxFrame, Hears ringUp (hdr true f) f) ∧ aPresence.slots.length = 16 ∧ hopOf (hdr true (.timeReq 0)) = 0 ∧ actsOn (frameSeen ringUp 0) 0 = true ∧ sentHere (frameSeen ringUp 0) (hdr true (.step 5)) = false
    ∧ sentHere (wr0 (frameSeen ringUp 0) F.xrAddrAddr 1) (hdr true (.step 5)) = true
    ∧ hereAddr ringUp = 2 ∧ hk3Up ringUp = true ∧ xrState ringUp = 3 ∧ ringOn ringUp = true ∧ ringLive ringUp = true
    ∧ isMaster ringUp = false ∧ ringUp.ring.claim = false ∧ ringSends ringUp = true ∧ isMaster (wr0 ringUp F.tbStatusMaster 1) = true
    ∧ laneUp ringUp 0 = true ∧ laneUp ringUp 1 = true
    ∧ (lapse { ringUp with clk := 4 * usU } (4 * usU)).isSome = true
    ∧ (let s := { ringUp with ledger := { ringRun := true } }
       (reach s (1000 * nsU * max s.ledger.exchAt (ceilDiv s.fine (1000 * nsU)))).isSome = true) :=
  ⟨fun f => ringUp_hears true f, by decide +kernel⟩

theorem witness_RingPortAndTimeRows_lanes :
    (laneUp act 0 = false ∧ laneUp act 1 = false)
    ∧ (let s := laneFalls (wr0 ringUp F.xrCtlHealHoldUs 0) 1
       wrapped s = true ∧ s.ring.lost = [1] ∧ laneUp s 1 = false
       ∧ (let x := wr0 s F.xrStatusIn1Up 1
          laneUp x 1 = true ∧ ringOn x = true ∧ (lapse x (Tab.get x.ring.upAt 1 0 + usU * rd x F.xrCtlHealHoldUs)).isSome = true)) := by
  decide +kernel

theorem witness_BroadcastAndForwardRows :
    (∀ f : TxFrame, Hears ringUp (hdr false f) f ∧ EndsHere ringUp (hdr false f)) ∧ Hears ringUp (hdr true (.bcast readPkt)) (.bcast readPkt)
    ∧ actsOn (frameSeen ringUp 0) 0 = true
    ∧ folded (frameSeen ringUp 0) = false ∧ sentHere (frameSeen ringUp 0) (hdr true (.bcast readPkt)) = false
    ∧ seqPlace ringUp 1 0 = .next ∧ seqPlace ringUp 1 127 = .ahead ∧ seqPlace ringUp 1 128 = .old
    ∧ tellerMay act 0 = true ∧ linkHeld act = false ∧ fenced act 257 0 = false
    ∧ (let w : FwdOut := { item := 7, dst := 1, sent := true }
       let s := { having (wr0 ringUp F.xrStatusPresent 2) (item 1 .forwarded) with ring := { ringUp.ring with fwd := [w] } }
       s.ring.fwd.find? (fun w => w.item % 2 ^ 32 = 7 && w.dst = 1 && w.sent && !w.acked) = some w ∧ xrPresent s 1 = true ∧ fwdDue s 7 = some w
       ∧ rcptDue s 7 = none ∧ ringSends s = true
       ∧ (findItem s 7).isSome = true ∧ (lapse { s with clk := 20 * usU } (20 * usU + 0)).isSome = true)
    ∧ (let x : RcptOut := { handle := 7, dst := 1, seq := 0, bytes := [], at_ := 0 }
       let s := { wr0 ringUp F.xrStatusPresent 2 with ring := { rcpts := [x] } }
       rcptDue s 7 = some x ∧ fwdDue s 7 = none ∧ ringSends s = true)
    ∧ (reach act (nsU * 0)).isSome = true :=
  ⟨fun f => ⟨ringUp_hears false f, ⟨by
      have k : (2 : BitVec 4).toNat = hereAddr (frameSeen ringUp 0) := by decide +kernel
      exact k, .inl rfl⟩⟩, ringUp_hears true _, by decide +kernel⟩

theorem witness_PowerWarningAndTestRows :
    warn act = false
    ∧ (let s := regs { on .test with test := { plan := [1] } } [(.bistStatus, 0, 1)]
       bistRunning s = true ∧ stepReady s 1 = true ∧ s.power.phase ≠ some .offBist
       ∧ (lapse { s with clk := 65536 * usU } (0 + usU * 65536)).isSome = true)
    ∧ (Instr.bistStepEnd ⟨1, false, 0, 0, 0, [], 0, []⟩).wellFormed = true
    ∧ (let s := { act with power := { act.power with straps := 1 <<< 5 } }
       lcScan s = true ∧ s.power.poreset = false ∧ s.power.mode ≠ .off) := by decide +kernel

/-! ### Worked examples of the spec -/

/-- 00_scope.md: a 32-bit read of address 0 returns 0xE430_0301; 01_architecture.md: EPM_GEOM reads 0x4428_3430. -/
theorem test_identity : (readAll act (reg0 .epmId)).1 = 0xE4300301 ∧ (readAll act (reg0 .epmGeom)).1 = 0x44283430 := by
  decide +kernel

/-- 03_page_code.md: the seed of row 0x01_0700_1240 under RAND_KEY 0x5A3C_0F11, and its first four stream bytes. -/
theorem test_randomizer : seed 0x5A3C0F11 0x0107001240 = 0x5C3C1D51
    ∧ stream 0x5A3C0F11 0x0107001240 0 4 = [0x3a, 0x3c, 0xb8, 0x8a] := by decide +kernel

/-- 03_page_code.md: the columns of the S6 image. -/
theorem test_page_columns : [segCol 6 0, sliceCol 6 0, segCol 6 1, sliceCol 6 1, segCol 6 2, sliceCol 6 2, segCol 6 3]
    = [0, 4368, 4592, 8960, 9184, 13552, 13776] := by decide +kernel

/-- 04_channel_interface.md: the example die at 3,600 MT/s: a column change takes 300 ns, a status poll 190.6 ns, the
suspend tenure of 05_die_scheduling.md 5 × 10 + 100 ns, the feature tenure of 06_ledger_and_ticks.md 314.4 ns, the Q1 transfer
1,231.1 ns after its column change. The model rounds up to whole ns. -/
theorem test_bus_times :
    let s := { regs act [(.chBusCtl, 0, 0x300001)] with groups := [(0, { rate := 36 })] }
    let s := wr1 (wr1 (wr1 (wr1 s F.chTiming0TCa 0 10) F.chTiming0TCcs 0 200) F.chTiming0TAdl 0 150) F.chTiming0TWhr 0 80
    let s := wr1 (wr1 (wr1 (wr1 s F.chTiming1TRhw 0 40) F.chTiming1TPre 0 30) F.chTiming1TWpre 0 30) F.chTiming1TWb 0 100
    (columnNs s 0 3, pollNs s 0 3, suspendNs s 0 3, featureNs s 0, dataOutNs s 0 3 1 4432) = (300, 191, 150, 315, 1532) := by decide +kernel

/-- 11_host_port_and_processors.md: requests B and F. -/
theorem test_request_shape : (reqLen 0x300000400 1024, reqSize 0x300000400 1024) = (7, 3)
    ∧ (reqLen 0x300001000 64, reqSize 0x300001000 64) = (0, 1) := by decide +kernel

/-- 11_host_port_and_processors.md: the receipt of slot 35 of a ring at 0x4_0000_0000 goes to 0x4_0000_0460. -/
theorem test_receipt_address : (receiptReq (wr1 act F.rqBaseBase 5 0x400000) ⟨5, 0, [], false, none, false⟩ 35 true).addr
    = 0x400000460 := by decide +kernel

/-- 02_commands_and_receipts.md: pair 5 at ring level 2 with SQ_LOG2 = 10 accepts TAIL 300 from ring 2, not from ring 3. -/
theorem test_doorbell : let s := regs act [(.ringCfg, 5, 0x80AA1)]
    ((after (exec (.sqTailDoorbell ⟨2, 0⟩ 5 300) s)).map (fun x => rd x F.sqTailTail 5)) = some 300
    ∧ ((after (exec (.sqTailDoorbell ⟨3, 0⟩ 5 300) s)).map (fun x => rd x F.sqTailTail 5)) = some 0 := by decide +kernel

/-- 14_calibration.md: Vref 49 against 40 in force exceeds VREF_LIM = 6: CHANNEL 2, FIELD 8, OLD 0x28, NEW 0x31. -/
theorem test_calibration_reject :
    let w := getR act .calDrv 2 2
    let s := calChannel act 2 2 ⟨getR act .calDqRd 2 2, getR act .calDqWr 2 2, getR act .calDqs 2 2, fset w 24 7 49⟩
    rd act F.calDrvVref 2 2 = 40 ∧ (rd s F.calRejInfoChannel 2, rd s F.calRejInfoField 2, rd s F.calRejInfoOld 2, rd s F.calRejInfoNew 2)
      = (2, 8, 0x28, 0x31) ∧ rd s F.calGrpStatusRejectMask 2 = 4 := by decide +kernel

/-- 14_calibration.md: 47.25 °C against 41.00 °C asks for a run. -/
theorem test_calibration_trigger : calWants (regs act [(.calGrpStatus, 2, 0x00A400BD)]) 2 = true
    ∧ calWants (regs act [(.calGrpStatus, 2, 0x00A400A5)]) 2 = false := by decide +kernel

/-- 15_interrupts_and_tallies.md: sources 8 and 229 are pending for target 1: the claim returns 8; with 8 in service target 0
has nothing pending. -/
theorem test_interrupt_claims :
    let s := regs act [(.icSrc, 8, 0x50300), (.icSrc, 229, 0x50200)]
    irqLowest s 1 = 8 ∧ irqLowest s 0 = 8
    ∧ ((after (exec (.icClaimRead acc 1) s)).map (fun x => (irqLowest x 0, rdB x F.icSrcInService 8, rdB x F.icSrcPending 8,
        rd x F.icTgtStatusInService 1))) = some (0x3ff, true, false, 8) := by decide +kernel

/-- 15_interrupts_and_tallies.md: the completion of 8 while its level input is still 1 makes it pending again. -/
theorem test_interrupt_completes :
    let s := regs act [(.icSrc, 8, 0x60300), (.icSrc, 229, 0x50200), (.icTgtStatus, 1, 8)]
    ((after (exec (.icCompleteWrite acc 1 8) s)).map (fun x => (irqLowest x 1, rd x F.icTgtStatusInService 1)))
      = some (8, 0x3ff) := by decide +kernel

/-- 16_test_lifecycle_service.md: BIST_SLICE 12 reads 0x0000_0584_04B4_0256. -/
theorem test_bist_slice : getR (logicResult (wr0 act F.bistCtlDiag 1) 12 ⟨2, true, 37, 1204, 1412, [], 0, []⟩) .bistSlice 12
    = 0x0000058404B40256 := by decide +kernel

/-- 10_sequencer_microcode.md: the return word 0x01_0A38 has parity byte 0xFF; with parity 0 its fetch fails. -/
theorem test_parity : parityFails 0x10A38 0xFF = 0 ∧ parityFails 0x10A38 0 ≠ 0 := by decide +kernel

/-- 10_sequencer_microcode.md: CG3 is fenced; MC_CTL takes 0x5103_0100_0000_0001, then …03. -/
theorem test_patch_load :
    let s := regs act [(.cgFence, 12, 1), (.mcCtl, 3, 0)]
    ((after (exec (.mcWriteEnWrite acc 3 0x5103010000000001) s)).map (fun x => (rdB x F.mcCtlWriteEn 3, rd x F.mcEngState 3 0)))
      = some (true, 0)
    ∧ (((after (exec (.mcWriteEnWrite acc 3 0x5103010000000001) s)).bind (fun x => after (exec (.mcPatchEnWrite acc 3 0x5103010000000003) x))).map
        (fun x => (rdB x F.mcCtlPatchEn 3, rdB x F.mcCtlRefused 3))) = some (true, false) := by decide +kernel

/-- CRC-32 of IEEE 802.3 (09_staging_scrub_boot.md) over the nine digits has the standard's check value. -/
theorem test_crc : crc32 [0x31, 0x32, 0x33, 0x34, 0x35, 0x36, 0x37, 0x38, 0x39] = 0xCBF43926 := by decide +kernel

/-- 13_clocks_power_reset.md: with the supplies of steps 2 and 3 there, the release of PORESET_N starts the fallback
oscillator; its READY begins step 4, and PSW_EN[1] rises. -/
theorem test_start_up :
    let s := { State.reset with power := { State.reset.power with supply := 0xf } }
    let run := fun (c : Instr) (o : Option State) => o.bind (fun x => after (exec c x))
    ((run .poresetRelease (some s)).map (fun x => (x.power.mode, x.power.phase, rdB x F.modeCtlBusy, x.power.fallbackRun)))
      = some (.standby, some .step3, true, true)
    ∧ ((run (.clockSourceReady .fallback) (run .poresetRelease (some s))).map (fun x => (x.power.phase, x.power.pswEn, rd x F.ckCoreCtlSrc)))
      = some (some .step4, 3, 1) := by decide +kernel

/-- 06_ledger_and_ticks.md: an AON cycle adds 40 ns to the time base. -/
theorem test_aon_tick : (aonTick act).tb = 40 * nsU ∧ fineTick (aonTick act) = 40 := by decide +kernel

/-- 01_architecture.md, R24 and R25: a claim during a handover leaves ownership with OWNER_PREF. -/
theorem test_claim_in_handover :
    let s := { act with host := { act.host with handover := true, claims := true } }
    ((after (exec .handoverInvert s)).map (fun x => (owner x, rdB x F.ownerCtlOwnerConflict, rd x F.ownerCtlYieldedHalf, faultPin x)))
      = some (0, true, 1, true) := by decide +kernel

/-- 09_staging_scrub_boot.md: staging address 0x0040_0000 lies in SB2. -/
theorem test_staging_bank : bankOf 0x00400000 = 2 ∧ bankOf 0x007C2000 = 3 := by decide +kernel

end Sys2Proof.Tests
end

section
/-! The plain register write: its stored word bit by bit, and its frame (R7, R8). -/

namespace Sys2Proof.Machine

/-- The stored word of a plain write, at one bit: a W1C bit written 1 is cleared, an RW bit that is written takes the
written value, and any other bit stays (R7). -/
theorem RegWrite.getLsbD_next (w : RegWrite) (s : State) {b : Nat} (hb : b < 64) :
    (w.next s).getLsbD b =
      if (accMask w.reg.name .w1c).getLsbD b && w.mask.getLsbD b && w.val.getLsbD b then false
      else if (accMask w.reg.name .rw).getLsbD b && w.mask.getLsbD b then w.val.getLsbD b
      else (getR s w.reg.name w.reg.i w.reg.j w.reg.k).getLsbD b := by
  simp only [RegWrite.next, BitVec.getLsbD_and, BitVec.getLsbD_or, BitVec.getLsbD_not, hb, decide_true, Bool.true_and]
  cases hmask : w.mask.getLsbD b with
  | false => simp
  | true =>
    cases hval : w.val.getLsbD b with
    | false => cases hrw : (accMask w.reg.name .rw).getLsbD b <;> simp
    | true =>
      cases hclear : (accMask w.reg.name .w1c).getLsbD b with
      | false => cases hrw : (accMask w.reg.name .rw).getLsbD b <;> simp
      | true => simp

/-- A plain write stores the register's next word. -/
theorem RegWrite.getR_plain_same (w : RegWrite) (s : State) :
    getR (w.plain s) w.reg.name w.reg.i w.reg.j w.reg.k = w.next s := by
  simp [RegWrite.plain]

/-- A plain write leaves every other register, and every other instance of the same register, as it was. -/
theorem RegWrite.getR_plain_other (w : RegWrite) (s : State) {n : RegName} {i j k : Nat}
    (h : (⟨n, i, j, k⟩ : Reg) ≠ w.reg) : getR (w.plain s) n i j k = getR s n i j k := by
  have hkey : ¬ (n = w.reg.name ∧ i = w.reg.i ∧ j = w.reg.j ∧ k = w.reg.k) := by
    rintro ⟨rfl, rfl, rfl, rfl⟩
    exact h rfl
  simp [RegWrite.plain, hkey]

/-- A plain write changes nothing but the register table. -/
theorem RegWrite.plain_frame (w : RegWrite) (s : State) : w.plain s = { s with regs := (w.plain s).regs } := rfl

/-- Settles O11, from the bitwise form of the stored word and the two frame lemmas of a plain write. -/
theorem plainRegistersFollowTheirFieldTypes : Obligations.PlainRegistersFollowTheirFieldTypes := by
  intro w s
  refine ⟨fun b hb => ?_, fun n i j k h => w.getR_plain_other s h, w.plain_frame s⟩
  rw [w.getR_plain_same s, w.getLsbD_next s hb]

end Sys2Proof.Machine
end

section
/-! The block at reset: the invariant, and every register at its table's value (R11, R39, R429). -/

namespace Sys2Proof.Machine

/-- At reset every register has the value of its table. -/
@[simp] theorem getR_reset (n : RegName) (i j k : Nat) : getR State.reset n i j k = resetVal ⟨n, i, j, k⟩ := rfl

/-- The block at reset meets the invariant: its staging memory and its list of reads are empty, its time base and its
credits are 0, and PSW_EN holds PD_AON's switch alone. -/
theorem inv_reset : Inv State.reset where
  mem := rfl
  time := Nat.two_pow_pos 80
  rdCred := Nat.zero_le 255
  wrCred := Nat.zero_le 255
  ids := List.nodup_nil
  aon := rfl

/-- Settles O3: the invariant at reset, and two register values from the register tables. -/
theorem invariantAtReset : Obligations.InvariantAtReset := by
  have hgeom : resetVal ⟨.epmGeom, 0, 0, 0⟩ = 0x44283430#64 := by decide
  have howner : resetVal ⟨.ownerCtl, 0, 0, 0⟩ = 0 := by decide
  exact ⟨inv_reset, rfl, rfl, (getR_reset ..).trans hgeom, (getR_reset ..).trans howner, rfl, rfl, rfl⟩

end Sys2Proof.Machine
end

section
/-! Register writes on H_TGT that are taken: the effect of a row that writes one register whole (R376, R381), and the
fields that a plain write cannot reach (R7). -/

namespace Sys2Proof.Machine

/-! ### The answered state: a response more, and nothing else -/

@[simp] theorem answered_power (s : State) (a : Acc) (r : Reg) (v : W64) : (answered s a r v).power = s.power := rfl
@[simp] theorem answered_handover (s : State) (a : Acc) (r : Reg) (v : W64) :
    (answered s a r v).host.handover = s.host.handover := rfl
@[simp] theorem answered_held (s : State) (a : Acc) (r : Reg) (v : W64) : (answered s a r v).host.held = s.host.held := rfl
@[simp] theorem owner_answered (s : State) (a : Acc) (r : Reg) (v : W64) : owner (answered s a r v) = owner s := rfl
@[simp] theorem feUp_answered (s : State) (a : Acc) (r : Reg) (v : W64) (h : Nat) : feUp (answered s a r v) h = feUp s h := rfl

/-! ### The access -/

/-- An access to a 32-bit register in the low lanes touches that register alone, when it is made at the register's width. -/
theorem touched_accessOf_narrow (a : Acc) (r : Reg) (write : Bool) (v : W64) (hat : regAt (regAddr r) = some r)
    (hnarrow : r.name.row.wide = false) (hlow : regAddr r % 8 = 0) (hfits : regAddr r < 2 ^ 24) :
    touched (accessOf a r write v) = [(r, .all 0)] := by
  have haddr : (accessOf a r write v).addr.toNat = regAddr r := Nat.mod_eq_of_lt hfits
  have hword : regAddr r / 8 * 8 = regAddr r := Nat.div_mul_cancel (Nat.dvd_of_mod_eq_zero hlow)
  simp [touched, haddr, hword, hat, hnarrow, show (accessOf a r write v).size64 = false from hnarrow]

/-- The write that such an access makes is the write of the whole register. -/
theorem partWrite_accessOf (a : Acc) (r : Reg) (v : W64) (hlow : regAddr r % 8 = 0) :
    partWrite (accessOf a r true v) (r, .all 0) = whole r v := by
  simp [partWrite, accessOf, whole, hlow]

/-- A write that is taken is answered, and then its parts take effect. -/
theorem hostAccess_of_takes {s : State} {q : HostAccess} (h : Takes s q) (hwrite : q.write = true) :
    hostAccess s q = writeParts (answer s q .fresh rOkay) q := by
  have hmay : (touched q).any (fun t => !ringMay s q t.1) = false := by simpa using fun r p ht => h.may (r, p) ht
  have hgoes : waits s q = false := by
    have hfree : (touched q).any (fun t => waitsOwner s t.1) = false := by simpa using fun r p ht => h.free (r, p) ht
    simp [waits, hfree, h.first]
  have hstays : ¬(sharedAcc q = true ∧ ownerStopsNext (answer s q .fresh rOkay) = true) := by
    rw [h.stays hwrite]
    simp
  have happlies : hostAccess s q = applyAccess s q := by simp [hostAccess, h.taken, h.ok, h.outside, hmay, hgoes]
  rw [happlies, applyAccess, if_pos hwrite, postedAccess, if_neg hstays]

/-- A row that writes a 32-bit register in the low lanes, when its access is taken, answers it and makes the write. -/
theorem writeRow_of_takes {a : Acc} {r : Reg} {v : W64} {s : State} (h : Takes s (accessOf a r true v))
    (hat : regAt (regAddr r) = some r) (hnarrow : r.name.row.wide = false) (hlow : regAddr r % 8 = 0)
    (hfits : regAddr r < 2 ^ 24) : writeRow a r v true s = .next (written a (answered s a r v) (whole r v)) := by
  have hparts : writeParts (answered s a r v) (accessOf a r true v) = written a (answered s a r v) (whole r v) := by
    simp only [writeParts, touched_accessOf_narrow a r true v hat hnarrow hlow hfits, List.foldl_cons, List.foldl_nil,
      regWrite, partWrite_accessOf a r v hlow]
    rfl
  rw [← hparts]
  exact congrArg Host.Outcome.next (hostAccess_of_takes h rfl)

/-! ### Fields in a write -/

/-- A one-bit field is its bit. -/
theorem fget_one (w : W64) (b : Nat) : fget w b 1 = (w.getLsbD b).toNat := by
  simp [fget, BitVec.getLsbD, Nat.toNat_testBit, Nat.shiftRight_eq_div_pow]

/-- A write of a 32-bit value to a whole register writes a one-bit field of its low half with the value's bit. -/
theorem one_whole (r : Reg) (v : W32) (f : Fld) (hlow : f.lo < 32) :
    (whole r (v.setWidth 64)).one f = v.getLsbD f.lo := by
  have hmask : (whole r (v.setWidth 64)).mask.getLsbD f.lo = true := by
    have hnarrow : ∀ b, b < 32 → (0xffffffff#64).getLsbD b = true := by decide
    have hwide : ∀ b, b < 32 → (~~~0#64).getLsbD b = true := by decide
    rw [whole]
    split
    · exact hwide f.lo hlow
    · exact hnarrow f.lo hlow
  have hval : (whole r (v.setWidth 64)).val.getLsbD f.lo = v.getLsbD f.lo := by
    rw [whole, BitVec.getLsbD_setWidth, decide_eq_true (by omega), Bool.true_and]
  cases hb : v.getLsbD f.lo <;> simp [RegWrite.one, fget_one, hmask, hval, hb]

/-- A plain write leaves every field without a writable bit, in any register, as it was. -/
theorem RegWrite.rd_plain_readOnly (w : RegWrite) (s : State) (f : Fld) (i j k : Nat) (hfits : f.lo + f.len ≤ 64)
    (hro : ∀ b, f.lo ≤ b → b < f.lo + f.len →
      (accMask w.reg.name .rw).getLsbD b = false ∧ (accMask w.reg.name .w1c).getLsbD b = false) :
    rd (w.plain s) f i j k = rd s f i j k := by
  by_cases hreg : (⟨f.reg, i, j, k⟩ : Reg) = w.reg
  · apply Nat.eq_of_testBit_eq
    intro n
    have hsame : getR (w.plain s) f.reg i j k = w.next s := by
      have := w.getR_plain_same s
      rwa [← hreg] at this
    have hold : getR s w.reg.name w.reg.i w.reg.j w.reg.k = getR s f.reg i j k := by rw [← hreg]
    rw [rd, rd, testBit_fget, testBit_fget, hsame]
    by_cases hn : n < f.len
    · obtain ⟨hrw, hw1c⟩ := hro (f.lo + n) (by omega) (by omega)
      rw [w.getLsbD_next s (by omega), hrw, hw1c, hold]
      simp
    · simp [hn]
  · rw [rd, rd, w.getR_plain_other s hreg]

end Sys2Proof.Machine
end

section
/-! Ownership: a write of 1 to HANDOVER, and the arbiter's inversion of OWNER (R21–R25, R36). -/

namespace Sys2Proof.Machine

/-! ### Registers across the ownership operations -/

/-- Fields depend on the register table alone. -/
theorem rd_congr {s t : State} (h : t.regs = s.regs) (f : Fld) (i j k : Nat) : rd t f i j k = rd s f i j k := by
  rw [rd, rd, getR, getR, h]

/-- What `wr0` writes to a field is read back, cut to the field's width. -/
theorem rd_wr0_same (s : State) (f : Fld) (v : Nat) (h : f.lo + f.len ≤ 64) : rd (wr0 s f v) f = v % 2 ^ f.len :=
  rd_wr_same s f 0 0 0 v h

/-- `wr0` leaves the fields that share no bit with the one written. -/
theorem rd_wr0_other (s : State) (f g : Fld) (v : Nat) (h : g.lo + g.len ≤ f.lo ∨ f.lo + f.len ≤ g.lo) :
    rd (wr0 s f v) g = rd s g :=
  rd_wr_fld s f g 0 0 0 0 0 0 v h

/-- A trap raised on an engine changes its micro-state alone. -/
@[simp] theorem raiseTeller_regs (s : State) (t c : Nat) : (raiseTeller s t c).regs = s.regs := by
  rw [raiseTeller, raiseTrap]
  split <;> rfl

/-- Trap HANDOVER changes no register. -/
@[simp] theorem raiseHandover_regs (s : State) : (raiseHandover s).regs = s.regs :=
  List.foldlRecOn (motive := fun t => t.regs = s.regs) (List.range 4) _ rfl fun t ht n _ => (raiseTeller_regs t n 8).trans ht

/-- OWNER reads the half that it was set to. -/
theorem owner_setOwner (s : State) {h : Nat} (hh : h < 2) : owner (setOwner s h) = h := by
  rw [owner, setOwner, rd_congr (raiseHandover_regs _), rd_wr0_same _ _ _ (by decide)]
  exact Nat.mod_eq_of_lt hh

/-- Setting OWNER leaves the fields beside it. -/
theorem rd_setOwner_other (s : State) (h : Nat) (f : Fld) (hf : f.lo + f.len ≤ 8 ∨ 9 ≤ f.lo) :
    rd (setOwner s h) f = rd s f := by
  rw [setOwner, rd_congr (raiseHandover_regs _), rd_wr0_other _ _ _ _ hf]

/-- The end of a handover leaves the fields beside HANDOVER. -/
theorem rd_endHandover_other (s : State) (f : Fld) (hf : f.lo + f.len ≤ 1 ∨ 2 ≤ f.lo) : rd (endHandover s) f = rd s f :=
  (rd_congr rfl f 0 0 0).trans (rd_wr0_other s F.ownerCtlHandover f 0 hf)

/-- HANDOVER reads 0 once the handover has ended. -/
theorem rdB_handover_endHandover (s : State) : rdB (endHandover s) F.ownerCtlHandover = false := by
  have hzero : rd (endHandover s) F.ownerCtlHandover = 0 := rd_wr0_same s F.ownerCtlHandover 0 (by decide)
  simp [rdB, hzero]

@[simp] theorem endHandover_handover (s : State) : (endHandover s).host.handover = false := rfl

@[simp] theorem owner_endHandover (s : State) : owner (endHandover s) = owner s :=
  rd_endHandover_other s F.ownerCtlOwner (by decide)

/-- A half that yields in a conflict: OWNER_CONFLICT is set and YIELDED_HALF names it. -/
theorem rd_yields_conflict (s : State) {h : Nat} (hh : h < 2) :
    rd (yields s F.ownerCtlOwnerConflict h) F.ownerCtlOwnerConflict = 1
      ∧ rd (yields s F.ownerCtlOwnerConflict h) F.ownerCtlYieldedHalf = h := by
  constructor
  · rw [yields, rd_wr0_other _ _ _ _ (by decide), flag0, rd_wr0_same _ _ _ (by decide)]
    rfl
  · rw [yields, rd_wr0_same _ _ _ (by decide)]
    exact Nat.mod_eq_of_lt hh

/-- Yielding in a conflict leaves OWNER. -/
theorem owner_yields_conflict (s : State) (h : Nat) : owner (yields s F.ownerCtlOwnerConflict h) = owner s := by
  rw [owner, yields, rd_wr0_other _ _ _ _ (by decide), flag0, rd_wr0_other _ _ _ _ (by decide), owner]

/-- FAULT is high while OWNER_CONFLICT is 1 (R27). -/
theorem faultPin_of_conflict {s : State} (h : rd s F.ownerCtlOwnerConflict = 1) : faultPin s = true := by
  simp [faultPin, ownerFault, rdB, h]

/-! ### A write of 1 to HANDOVER -/

/-- A write of OWNER_CTL leaves the fields in bits 8 to 10, which are read-only: OWNER, FE_A_UP and FE_B_UP (R21). -/
theorem rd_plain_ownerStatus (w : RegWrite) (s : State) (f : Fld) (hreg : w.reg = reg0 .ownerCtl) (h8 : 8 ≤ f.lo)
    (h11 : f.lo + f.len ≤ 11) : rd (w.plain s) f = rd s f := by
  have hmask : ∀ b, 8 ≤ b → b < 11 → (accMask .ownerCtl .rw).getLsbD b = false ∧ (accMask .ownerCtl .w1c).getLsbD b = false := by
    decide
  refine w.rd_plain_readOnly s f 0 0 0 (by omega) fun b hlo hhi => ?_
  rw [hreg]
  exact hmask b (by omega) (by omega)

/-- A write of OWNER_CTL leaves OWNER. -/
theorem owner_plain (w : RegWrite) (s : State) (hreg : w.reg = reg0 .ownerCtl) : owner (w.plain s) = owner s :=
  rd_plain_ownerStatus w s F.ownerCtlOwner hreg (by decide) (by decide)

/-- A write of OWNER_CTL leaves FE_A_UP and FE_B_UP. -/
theorem feUp_plain (w : RegWrite) (s : State) (h : Nat) (hreg : w.reg = reg0 .ownerCtl) : feUp (w.plain s) h = feUp s h := by
  have hfld (f : Fld) (h8 : 8 ≤ f.lo) (h11 : f.lo + f.len ≤ 11) : rdB (w.plain s) f = rdB s f :=
    congrArg (fun n => decide (n = 1)) (rd_plain_ownerStatus w s f hreg h8 h11)
  rw [feUp, feUp]
  split
  · exact hfld _ (by decide) (by decide)
  · exact hfld _ (by decide) (by decide)

/-- HANDOVER_REQUEST, when its access is taken: answered, the write is made, and in STANDBY HANDOVER_REFUSED is set, else
the arbiter is asked for a handover. -/
theorem execHandoverRequest_of_takes {a : Acc} {v : W32} {s : State}
    (h : Takes s (accessOf a (reg0 .ownerCtl) true (v.setWidth 64))) (hone : v.getLsbD 1 = true) :
    exec (.handoverRequest a v) s =
      .next (let y := (whole (reg0 .ownerCtl) (v.setWidth 64)).plain (answered s a (reg0 .ownerCtl) (v.setWidth 64))
        if s.power.mode = .standby then flag0 y F.ownerCtlHandoverRefused else handoverAsked y) := by
  have hwrite := writeRow_of_takes h (by decide +kernel) rfl rfl (by decide)
  have hasks : (whole (reg0 .ownerCtl) (v.setWidth 64)).one F.ownerCtlHandover = true :=
    (one_whole _ v F.ownerCtlHandover (by decide)).trans hone
  calc exec (.handoverRequest a v) s
      = writeRow a (reg0 .ownerCtl) (v.setWidth 64) (v.getLsbD 1) s := rfl
    _ = .next (written a (answered s a (reg0 .ownerCtl) (v.setWidth 64)) (whole (reg0 .ownerCtl) (v.setWidth 64))) := by
      rw [hone, hwrite]
    _ = .next (writeOwner (answered s a (reg0 .ownerCtl) (v.setWidth 64)) (whole (reg0 .ownerCtl) (v.setWidth 64))) := rfl
    _ = _ := by rw [writeOwner, if_neg (not_not_intro hasks), answered_power]

/-- A handover that the arbiter takes: HANDOVER reads 1, OWNER and what is held stay (R23). -/
theorem handoverAsked_begins {s : State} (hnone : s.host.handover = false) (hup : feUp s (1 - owner s) = true) :
    rdB (handoverAsked s) F.ownerCtlHandover = true ∧ (handoverAsked s).host.handover = true
      ∧ owner (handoverAsked s) = owner s ∧ (handoverAsked s).host.held = s.host.held := by
  have hbegins : handoverAsked s =
      { wr0 s F.ownerCtlHandover 1 with host := { s.host with handover := true, ownerStopped := false, claims := false } } := by
    simp [handoverAsked, hnone, hup]
  rw [hbegins]
  refine ⟨?_, rfl, ?_, rfl⟩
  · have hset : rd (wr0 s F.ownerCtlHandover 1) F.ownerCtlHandover = 1 := rd_wr0_same s _ 1 (by decide)
    exact decide_eq_true ((rd_congr rfl ..).trans hset)
  · exact (rd_congr rfl ..).trans (rd_wr0_other s F.ownerCtlHandover F.ownerCtlOwner 1 (by decide))

/-! ### The inversion of OWNER -/

/-- HANDOVER_INVERT during a handover inverts OWNER. -/
theorem execHandoverInvert_of_handover {s : State} (h : s.host.handover = true) :
    exec .handoverInvert s = .next (invertOwner s) :=
  congrArg Host.Outcome.next (if_pos h)

/-- The inversion when the old owner does not claim (R23). -/
theorem invertOwner_of_no_claim {s : State} (h : s.host.claims = false) :
    invertOwner s = applyHeld (endHandover (setOwner s (1 - owner s))) := by
  have hother : 1 - owner s ≠ owner s := by omega
  simp [invertOwner, h, hother]

/-- The state in which the winner of a conflict applies what was held: the half that OWNER_PREF does not name has yielded,
and OWNER has moved if it has to (R25). -/
def conflictDecided (s : State) : State :=
  let y := yields s F.ownerCtlOwnerConflict (1 - rd s F.ownerCtlOwnerPref)
  endHandover (if rd s F.ownerCtlOwnerPref = owner s then y else setOwner y (rd s F.ownerCtlOwnerPref))

/-- The inversion when the old owner claims at that moment (R25). -/
theorem invertOwner_of_claim {s : State} (h : s.host.claims = true) : invertOwner s = applyHeld (conflictDecided s) := by
  simp only [invertOwner, conflictDecided, h, if_true]

/-- A conflict gives OWNER to the half that OWNER_PREF names. -/
theorem owner_conflictDecided (s : State) : owner (conflictDecided s) = rd s F.ownerCtlOwnerPref := by
  rw [conflictDecided, owner_endHandover]
  split
  next hpref => rw [owner_yields_conflict, hpref]
  next => exact owner_setOwner _ (fget_lt _ _ _)

/-- A conflict leaves the fields above OWNER as the yielding made them. -/
theorem rd_conflictDecided (s : State) (f : Fld) (hf : 9 ≤ f.lo) :
    rd (conflictDecided s) f = rd (yields s F.ownerCtlOwnerConflict (1 - rd s F.ownerCtlOwnerPref)) f := by
  rw [conflictDecided, rd_endHandover_other _ f (by omega)]
  split
  next => rfl
  next => exact rd_setOwner_other _ _ f (.inr hf)

/-- Settles O40: HANDOVER_REQUEST by what the arbiter is asked, HANDOVER_INVERT by whether the old owner claims. -/
theorem handoverOfOwnership : Obligations.HandoverOfOwnership := by
  refine ⟨fun a v s htakes hone => ?_, fun s => ⟨fun hnone => ?_, fun hgoing hclaim => ?_, fun hgoing hclaim => ?_⟩⟩
  · have hexec := execHandoverRequest_of_takes htakes hone
    intro y
    have howner : owner y = owner s := (owner_plain _ _ rfl).trans (owner_answered ..)
    have hup : feUp y (1 - owner y) = feUp s (1 - owner s) := by
      rw [howner]
      exact (feUp_plain _ _ _ rfl).trans (feUp_answered ..)
    have hbusy : y.host.handover = s.host.handover := answered_handover ..
    refine ⟨fun hstandby => ?_, fun hmode hgoing => ?_, fun hmode hnone hdown => ?_, fun hmode hnone hfollower => ?_⟩
    · rw [hexec, if_pos hstandby]
    · rw [hexec, if_neg hmode, handoverAsked, if_pos (hbusy.trans hgoing)]
    · have hrefused : handoverAsked y = flag0 y F.ownerCtlHandoverRefused := by
        simp [handoverAsked, hbusy.trans hnone, hup.trans hdown]
      rw [hexec, if_neg hmode, hrefused]
    · obtain ⟨hreads, hgoing, hsame, hheld⟩ := handoverAsked_begins (hbusy.trans hnone) (hup.trans hfollower)
      refine ⟨handoverAsked y, by rw [hexec, if_neg hmode], hreads, hgoing, hsame.trans howner,
        hheld.trans (answered_held ..), fun r hr => ?_⟩
      rw [waitsOwner, hgoing, hr, Bool.and_self]
  · exact congrArg Host.Outcome.next (if_neg (by simp [hnone]))
  · rw [execHandoverInvert_of_handover hgoing, invertOwner_of_no_claim hclaim, owner_endHandover]
    exact ⟨rfl, owner_setOwner s (by omega)⟩
  · obtain ⟨hconflict, hyielded⟩ := rd_yields_conflict s (h := 1 - rd s F.ownerCtlOwnerPref) (by omega)
    have hset : rd (conflictDecided s) F.ownerCtlOwnerConflict = 1 := (rd_conflictDecided s _ (by decide)).trans hconflict
    refine ⟨conflictDecided s, by rw [execHandoverInvert_of_handover hgoing, invertOwner_of_claim hclaim], owner_conflictDecided s,
      decide_eq_true hset, (rd_conflictDecided s _ (by decide)).trans hyielded, rdB_handover_endHandover _,
      endHandover_handover _, faultPin_of_conflict hset⟩

end Sys2Proof.Machine
end

section
/-! The 64 bytes of a packet and the 32 bytes of a receipt (R9, R53, R66). -/

namespace Sys2Proof.Machine

/-! ### Little-endian bytes -/

/-- Bytes written little-endian spell the number again, cut to their width. -/
theorem leNat_leBytes (n v : Nat) : leNat (leBytes n v) = v % 2 ^ (8 * n) := by
  induction n generalizing v with
  | zero => simp [leBytes, leNat, Nat.mod_one]
  | succ n ih =>
    rw [leBytes, leNat, ih, BitVec.toNat_ofNat, Nat.mul_succ, Nat.add_comm (8 * n), Nat.pow_add, Nat.mod_mul]

/-- The little-endian bytes of a word spell the word. -/
theorem leNat_leBytes_toNat {w : Nat} (n : Nat) (v : BitVec w) (h : w = 8 * n) : leNat (leBytes n v.toNat) = v.toNat := by
  subst h
  rw [leNat_leBytes, Nat.mod_eq_of_lt v.isLt]

/-- A number that fits its bytes is spelt by them. -/
theorem leNat_leBytes_of_lt {n v : Nat} (h : v < 2 ^ (8 * n)) : leNat (leBytes n v) = v := by
  rw [leNat_leBytes, Nat.mod_eq_of_lt h]

/-- What bytes spell fits their width. -/
theorem leNat_lt (b : List Byte) : leNat b < 2 ^ (8 * b.length) := by
  induction b with
  | nil => exact Nat.one_pos
  | cons x r ih =>
    have hx : x.toNat < 256 := x.isLt
    rw [leNat, List.length_cons, Nat.mul_succ, Nat.pow_add]
    omega

/-- The bytes of what bytes spell are those bytes. -/
theorem leBytes_leNat (b : List Byte) : leBytes b.length (leNat b) = b := by
  induction b with
  | nil => rfl
  | cons x r ih =>
    have hx : x.toNat < 256 := x.isLt
    have hlow : BitVec.ofNat 8 (leNat (x :: r)) = x := by
      apply BitVec.eq_of_toNat_eq
      rw [leNat, BitVec.toNat_ofNat]
      omega
    have hrest : leNat (x :: r) / 256 = leNat r := by rw [leNat]; omega
    rw [List.length_cons, leBytes, hlow, hrest, ih]

/-! ### Slices -/

/-- Adjoining slices make one slice. -/
theorem slice_append_slice (b : List Byte) {i j m : Nat} (n : Nat) (h : j = i + m) :
    slice b i m ++ slice b j n = slice b i (m + n) := by
  subst h
  rw [slice, slice, slice, List.take_add, List.drop_drop]

/-- One byte is a slice of length one. -/
theorem singleton_getD (b : List Byte) {i : Nat} (h : i < b.length) : [b.getD i 0] = slice b i 1 := by
  rw [slice, List.take_one_drop_eq_of_lt_length h, List.getD_eq_getElem _ _ h]; rfl

theorem length_slice {b : List Byte} {i n : Nat} (h : i + n ≤ b.length) : (slice b i n).length = n := by
  rw [slice, List.length_take, List.length_drop]
  omega

/-- A slice read as a word of its width, and written again. -/
theorem leBytes_leNat_slice {b : List Byte} (i n w : Nat) (hw : w = 8 * n) (h : i + n ≤ b.length) :
    leBytes n (BitVec.ofNat w (leNat (slice b i n))).toNat = slice b i n := by
  have hlen := length_slice h
  have hfits : leNat (slice b i n) < 2 ^ w := by
    have := leNat_lt (slice b i n)
    rwa [hlen, ← hw] at this
  have hagain := leBytes_leNat (slice b i n)
  rw [hlen] at hagain
  rw [BitVec.toNat_ofNat, Nat.mod_eq_of_lt hfits, hagain]

/-! ### The packet -/

theorem length_packetBytes (p : Packet) : (packetBytes p).length = 64 := rfl

/-- A packet is read back from its bytes, field by field. -/
theorem packetOfBytes_packetBytes (p : Packet) : packetOfBytes (packetBytes p) = p := by
  have h16 (v : BitVec 16) : BitVec.ofNat 16 (leNat (leBytes 2 v.toNat)) = v := by
    rw [leNat_leBytes_toNat 2 v rfl, BitVec.ofNat_toNat, BitVec.setWidth_eq]
  have h32 (v : BitVec 32) : BitVec.ofNat 32 (leNat (leBytes 4 v.toNat)) = v := by
    rw [leNat_leBytes_toNat 4 v rfl, BitVec.ofNat_toNat, BitVec.setWidth_eq]
  have h64 (v : BitVec 64) : BitVec.ofNat 64 (leNat (leBytes 8 v.toNat)) = v := by
    rw [leNat_leBytes_toNat 8 v rfl, BitVec.ofNat_toNat, BitVec.setWidth_eq]
  calc packetOfBytes (packetBytes p)
      = { p with
          tag := BitVec.ofNat 16 (leNat (leBytes 2 p.tag.toNat)), row := BitVec.ofNat 64 (leNat (leBytes 8 p.row.toNat)),
          launchTick := BitVec.ofNat 64 (leNat (leBytes 8 p.launchTick.toNat)),
          deadline := BitVec.ofNat 32 (leNat (leBytes 4 p.deadline.toNat)),
          b0 := BitVec.ofNat 64 (leNat (leBytes 8 p.b0.toNat)), b1 := BitVec.ofNat 64 (leNat (leBytes 8 p.b1.toNat)),
          b2 := BitVec.ofNat 64 (leNat (leBytes 8 p.b2.toNat)), b3 := BitVec.ofNat 64 (leNat (leBytes 8 p.b3.toNat)) } := rfl
    _ = p := by simp only [h16, h32, h64]

/-- Bytes whose reserved byte is 0 are the bytes of the packet read from them: field by field, each is the slice that it was
read from, and the slices follow one another. -/
theorem packetBytes_packetOfBytes {b : List Byte} (hlen : b.length = 64) (hres : b.getD 31 0 = 0) :
    packetBytes (packetOfBytes b) = b := by
  have hbyte (i : Nat) (hi : i < 64) : [b.getD i 0] = slice b i 1 := singleton_getD b (by omega)
  have hword (i n w : Nat) (hw : w = 8 * n) (hi : i + n ≤ 64) :
      leBytes n (BitVec.ofNat w (leNat (slice b i n))).toNat = slice b i n := leBytes_leNat_slice i n w hw (by omega)
  have hzero : [(0 : Byte)] = slice b 31 1 := by rw [← hbyte 31 (by decide), hres]
  calc packetBytes (packetOfBytes b)
      = [b.getD 0 0] ++ [b.getD 1 0] ++ leBytes 2 (BitVec.ofNat 16 (leNat (slice b 2 2))).toNat
        ++ [b.getD 4 0] ++ [b.getD 5 0] ++ [b.getD 6 0] ++ [b.getD 7 0]
        ++ leBytes 8 (BitVec.ofNat 64 (leNat (slice b 8 8))).toNat ++ leBytes 8 (BitVec.ofNat 64 (leNat (slice b 16 8))).toNat
        ++ leBytes 4 (BitVec.ofNat 32 (leNat (slice b 24 4))).toNat
        ++ [b.getD 28 0] ++ [b.getD 29 0] ++ [b.getD 30 0] ++ [0]
        ++ leBytes 8 (BitVec.ofNat 64 (leNat (slice b 32 8))).toNat ++ leBytes 8 (BitVec.ofNat 64 (leNat (slice b 40 8))).toNat
        ++ leBytes 8 (BitVec.ofNat 64 (leNat (slice b 48 8))).toNat ++ leBytes 8 (BitVec.ofNat 64 (leNat (slice b 56 8))).toNat := rfl
    _ = slice b 0 64 := by simp (disch := decide) only [hbyte, hword, hzero, slice_append_slice, Nat.reduceAdd]
    _ = b := by rw [slice, List.drop_zero, ← hlen, List.take_length]

/-- Settles O20: a packet's bytes spell its fields, each in its place, and bytes are the slices that the fields were read from. -/
theorem packetRoundTrip : Obligations.PacketRoundTrip :=
  ⟨fun p => ⟨length_packetBytes p, packetOfBytes_packetBytes p⟩, fun _ hlen hres => packetBytes_packetOfBytes hlen hres,
    fun p => ⟨rfl, rfl, leNat_leBytes_toNat 2 p.tag rfl, leNat_leBytes_toNat 8 p.row rfl,
      leNat_leBytes_toNat 8 p.launchTick rfl, leNat_leBytes_toNat 4 p.deadline rfl⟩⟩

/-! ### The receipt -/

/-- Settles O21: each field of a receipt is the slice of its bytes in that place. -/
theorem receiptLayout : Obligations.ReceiptLayout := by
  intro r
  have hsat16 (n : Nat) : leNat (leBytes 2 (sat 65535 n)) = min 65535 n := by
    rw [sat, Nat.min_comm]
    exact leNat_leBytes_of_lt (by omega)
  have hsat8 : (BitVec.ofNat 8 (sat 255 r.suspends)).toNat = min 255 r.suspends := by
    rw [BitVec.toNat_ofNat, sat, Nat.min_comm]
    omega
  exact ⟨rfl, leNat_leBytes_toNat 2 r.tag rfl, rfl, rfl, leNat_leBytes_toNat 4 r.word rfl, hsat16 r.iters, rfl, rfl, rfl,
    hsat8, hsat16 r.ledgerWait, leNat_leBytes 8 r.tick, leNat_leBytes 4 r.launchLo, rfl, rfl, rfl, rfl⟩

/-- Byte 2 of a receipt is the code of its status. -/
theorem Receipt.getD_bytes_status (r : Receipt) : r.bytes.getD 2 0 = BitVec.ofNat 8 r.status := rfl

/-- Byte 31 of a receipt is its CHECK. -/
theorem Receipt.getD_bytes_check (r : Receipt) : r.bytes.getD 31 0 = BitVec.ofNat 8 r.check := rfl

/-! ### The status of a receipt (R70) -/

/-- Every status has its place in the order of R70. -/
theorem mem_statusOrder (st : Status) : st ∈ statusOrder := by cases st <;> decide

/-- Of the statuses that apply, the receipt's comes first in the order of R70. -/
theorem statusOf_first {ms : List Status} (h : ms ≠ []) :
    ∃ before after, statusOrder = before ++ statusOf ms :: after ∧ statusOf ms ∈ ms ∧ ∀ x ∈ before, x ∉ ms := by
  obtain ⟨m, hm⟩ := List.exists_mem_of_ne_nil ms h
  obtain ⟨st, hfind⟩ : ∃ st, statusOrder.find? (fun st => st ∈ ms) = some st :=
    Option.isSome_iff_exists.mp (List.find?_isSome.mpr ⟨m, mem_statusOrder m, decide_eq_true hm⟩)
  have hst : statusOf ms = st := by rw [statusOf, hfind, Option.getD_some]
  obtain ⟨hmem, before, after, horder, hnone⟩ := List.find?_eq_some_iff_append.mp hfind
  refine ⟨before, after, by rw [hst]; exact horder, hst ▸ of_decide_eq_true hmem, fun x hx => ?_⟩
  simpa using hnone x hx

/-- Settles O22, by the first status in the order of R70. -/
theorem receiptCarriesTheFirstStatus : Obligations.ReceiptCarriesTheFirstStatus := by
  intro s it hmarks
  obtain ⟨before, after, horder, hmem, hnone⟩ := statusOf_first hmarks
  have hcodes := congrArg (List.map Status.code) horder
  rw [List.map_append, List.map_cons] at hcodes
  exact ⟨before, statusOf it.marks, after, horder, hcodes, hmem, hnone, rfl, rfl⟩

/-- An item to which MISALIGNED applies has that status, whatever else applies (R70). -/
theorem statusOf_of_misaligned {ms : List Status} (h : Status.misaligned ∈ ms) : statusOf ms = .misaligned := by
  simp [statusOf, statusOrder, h]

end Sys2Proof.Machine
end

section
/-! The turn of a pair (R42, R43, R72–R74): what a packet needs to be routed, and which pair a teller serves next. -/

namespace Sys2Proof.Machine

/-- A key without an entry holds the default. -/
theorem Tab.get_of_not_mem {κ α : Type} [DecidableEq κ] {t : Tab κ α} {k : κ} {d : α} (h : k ∉ t.map (fun e => e.1)) :
    Tab.get t k d = d := by
  induction t with
  | nil => rfl
  | cons e r ih =>
    rw [List.map_cons, List.mem_cons, not_or] at h
    rw [Tab.get, if_neg (Ne.symm h.1), ih h.2]

/-- What has to hold for a pair's waiting packet to be routed (R42–R44, R72–R74, R81, R171). -/
theorem mayRoute_iff (s : State) (k : Nat) :
    mayRoute s k = true ↔
      rdB s F.ringCfgEnable k = true ∧ sqHead s k ≠ sqTail s k ∧ tellerMay s (tellerOf s k) = true ∧ 0 < freeSlots s k
      ∧ tellerLoad s (tellerOf s k) < 4096 ∧ (getRing s k).fenceAfter = none ∧ fenced s k (tellerOf s k) = false
      ∧ ∃ p, (getRing s k).wait = some p ∧ (p.fenceBefore = true → inFlight s k = 0) := by
  cases hwait : (getRing s k).wait with
  | none => simp [mayRoute, hwait]
  | some p => cases hbefore : p.fenceBefore <;> simp [mayRoute, hwait, hbefore, and_assoc]

/-- A fence in effect on a pair's ring stops its routing (R74). -/
theorem mayRoute_of_fenced {s : State} {k : Nat} (h : fenced s k (tellerOf s k) = true) : mayRoute s k = false := by
  simp [mayRoute, h]

/-- A pair that may route has a packet waiting, so it stands in the table of pairs. -/
theorem mem_rings_of_mayRoute {s : State} {k : Nat} (h : mayRoute s k = true) : k ∈ s.rings.map (fun e => e.1) := by
  by_contra hk
  obtain ⟨-, -, -, -, -, -, -, p, hwait, -⟩ := (mayRoute_iff s k).mp h
  rw [getRing, Tab.get_of_not_mem hk] at hwait
  cases hwait

/-- The places from the pair that a teller served last, less one, to pair `k`, around the 256 pairs (R72). -/
def turnsAfter (s : State) (t k : Nat) : Nat := (k + 255 - Tab.get s.served t 255) % 256

/-- The next pair of a teller is that with the fewest places from the pair served last. -/
theorem nextPair_eq_argmin (s : State) (t : Nat) :
    nextPair s t = List.argmin (turnsAfter s t)
      ((s.rings.map (fun e => e.1)).filter (fun k => tellerOf s k = t && mayRoute s k)) := by
  rw [nextPair, List.argmin]
  congr 1
  funext o k
  cases o <;> rfl

/-- The next pair of a teller is bound to it, may route, and comes first among those that do (R72). -/
theorem nextPair_spec {s : State} {t k : Nat} (h : nextPair s t = some k) :
    tellerOf s k = t ∧ mayRoute s k = true
      ∧ ∀ j, tellerOf s j = t → mayRoute s j = true → turnsAfter s t k ≤ turnsAfter s t j := by
  rw [nextPair_eq_argmin] at h
  have hmem := List.argmin_mem h
  simp only [List.mem_filter, Bool.and_eq_true, decide_eq_true_eq] at hmem
  obtain ⟨-, hteller, hmay⟩ := hmem
  refine ⟨hteller, hmay, fun j hj hjmay => List.le_of_mem_argmin ?_ h⟩
  simp only [List.mem_filter, Bool.and_eq_true, decide_eq_true_eq]
  exact ⟨mem_rings_of_mayRoute hjmay, hj, hjmay⟩

/-- Settles O23, by what routing needs and the least distance from the pair served last. -/
theorem tellerTakesThePairWhoseTurnItIs : Obligations.TellerTakesThePairWhoseTurnItIs := by
  intro s t k hnext
  obtain ⟨hteller, hmay, hfirst⟩ := nextPair_spec hnext
  obtain ⟨henable, -, -, hslots, hload, hafter, hfence, p, hwait, hbefore⟩ := (mayRoute_iff s k).mp hmay
  rw [hteller] at hload hfence
  refine ⟨hteller, henable, by rw [hwait]; rfl, hslots, hload, hafter, hfence, fun q hq hqb => ?_, hfirst⟩
  obtain rfl : p = q := Option.some.inj (hwait.symm.trans hq)
  exact hbefore hqb

end Sys2Proof.Machine
end

section
/-! Writes of a ring pair's registers that are taken (R44–R51): the access of each row, the value of a field after the write,
and what the write of each register does. -/

namespace Sys2Proof.Machine

/-! ### The answered state -/

@[simp] theorem getR_answered (s : State) (a : Acc) (r : Reg) (v : W64) (n : RegName) (i j k : Nat) :
    getR (answered s a r v) n i j k = getR s n i j k := rfl

/-! ### The access to a register in the high lanes -/

/-- An access to a 32-bit register in the high lanes of a group of two touches that register alone. -/
theorem touched_accessOf_high (a : Acc) (r low : Reg) (write : Bool) (v : W64) (hat : regAt (regAddr r) = some r)
    (hlow : regAt (regAddr r - 4) = some low) (hnarrow : r.name.row.wide = false) (hpair : low.name.row.wide = false)
    (hhigh : regAddr r % 8 = 4) (hfits : regAddr r < 2 ^ 24) :
    touched (accessOf a r write v) = [(r, .all 32)] := by
  have haddr : (accessOf a r write v).addr.toNat = regAddr r := Nat.mod_eq_of_lt hfits
  have hword : regAddr r / 8 * 8 = regAddr r - 4 := by omega
  have hnext : regAddr r - 4 + 4 = regAddr r := by omega
  have hother : regAddr r ≠ regAddr r - 4 := by omega
  simp [touched, haddr, hword, hlow, hpair, hnext, hat, hother, show (accessOf a r write v).size64 = false from hnarrow]

/-- The write that such an access makes of a 32-bit value is the write of the whole register. -/
theorem partWrite_accessOf_high (a : Acc) (r : Reg) (v : W32) (hhigh : regAddr r % 8 = 4) :
    partWrite (accessOf a r true (v.setWidth 64)) (r, .all 32) = whole r (v.setWidth 64) := by
  have hshift : (v.setWidth 64 <<< 32) >>> 32 = v.setWidth 64 := by
    ext b hb
    simp only [BitVec.getElem_ushiftRight, BitVec.getLsbD_shiftLeft, BitVec.getElem_setWidth, BitVec.getLsbD_setWidth]
    by_cases h : b < 32
    · simp [show 32 + b < 64 by omega]
      omega
    · simp [BitVec.getLsbD_of_ge v b (by omega)]
  simp [partWrite, accessOf, whole, hhigh, hshift]

/-- A row that writes a 32-bit register in the high lanes, when its access is taken, answers it and makes the write. -/
theorem writeRow_of_takes_high {a : Acc} {r low : Reg} {v : W32} {s : State} (h : Takes s (accessOf a r true (v.setWidth 64)))
    (hat : regAt (regAddr r) = some r) (hlow : regAt (regAddr r - 4) = some low) (hnarrow : r.name.row.wide = false)
    (hpair : low.name.row.wide = false) (hhigh : regAddr r % 8 = 4) (hfits : regAddr r < 2 ^ 24) :
    writeRow a r (v.setWidth 64) true s = .next (written a (answered s a r (v.setWidth 64)) (whole r (v.setWidth 64))) := by
  have hparts : writeParts (answered s a r (v.setWidth 64)) (accessOf a r true (v.setWidth 64))
      = written a (answered s a r (v.setWidth 64)) (whole r (v.setWidth 64)) := by
    simp only [writeParts, touched_accessOf_high a r low true _ hat hlow hnarrow hpair hhigh hfits, List.foldl_cons,
      List.foldl_nil, regWrite, partWrite_accessOf_high a r v hhigh]
    rfl
  rw [← hparts]
  exact congrArg Host.Outcome.next (hostAccess_of_takes h rfl)

/-! ### The rows of a pair's registers -/

/-- A register of a pair lies in no shared region: its front end writes it (R19). -/
theorem written_pair {n : RegName} (a : Acc) (k : Nat) (s : State) (v : W64) {base : Nat}
    (haddr : regAddr (reg1 n k) = base + 0x1000 * k) (hbase : 0x70000 ≤ base) :
    written a s (whole (reg1 n k) v) = localWrite s (whole (reg1 n k) v) a.ring.toNat := by
  have hlocal : inShared (regAddr (whole (reg1 n k) v).reg) = false := by
    rw [show (whole (reg1 n k) v).reg = reg1 n k from rfl, haddr]
    simp only [inShared, Bool.and_eq_false_imp, decide_eq_true_eq, decide_eq_false_iff_not]
    omega
  rw [written, hlocal]
  rfl

/-- RING_CFG, SQ_TAIL and RING_STATUS of a pair stand in the low lanes of their groups. -/
theorem writeRow_pairLow {n : RegName} (hn : n ∈ [RegName.ringCfg, .sqTail, .ringStatus]) {a : Acc} {k : Fin 256} {v : W64}
    {s : State} (h : Takes s (accessOf a (reg1 n k.val) true v)) :
    writeRow a (reg1 n k.val) v true s
      = .next (localWrite (answered s a (reg1 n k.val) v) (whole (reg1 n k.val) v) a.ring.toNat) := by
  have hat : ∀ n ∈ [RegName.ringCfg, .sqTail, .ringStatus], ∀ k : Fin 256,
      regAt (regAddr (reg1 n k.val)) = some (reg1 n k.val) ∧ n.row.wide = false
      ∧ regAddr (reg1 n k.val) % 8 = 0 ∧ regAddr (reg1 n k.val) < 2 ^ 24 := by decide +kernel
  obtain ⟨hreg, hnarrow, hlow, hfits⟩ := hat n hn k
  have haddr : regAddr (reg1 n k.val) = n.row.base + 0x1000 * k.val ∧ 0x70000 ≤ n.row.base := by
    fin_cases hn <;> exact ⟨rfl, by decide⟩
  rw [writeRow_of_takes h hreg hnarrow hlow hfits, written_pair a k.val _ v haddr.1 haddr.2]

/-- RQ_HEAD of a pair stands in the high lanes beside RQ_TAIL. -/
theorem writeRow_rqHead {a : Acc} {k : Fin 256} {v : W32} {s : State}
    (h : Takes s (accessOf a (reg1 .rqHead k.val) true (v.setWidth 64))) :
    writeRow a (reg1 .rqHead k.val) (v.setWidth 64) true s
      = .next (writeRqHead (answered s a (reg1 .rqHead k.val) (v.setWidth 64)) (whole (reg1 .rqHead k.val) (v.setWidth 64))) := by
  have hat : ∀ k : Fin 256, regAt (regAddr (reg1 .rqHead k.val)) = some (reg1 .rqHead k.val)
      ∧ regAt (regAddr (reg1 .rqHead k.val) - 4) = some (reg1 .rqTail k.val)
      ∧ regAddr (reg1 .rqHead k.val) % 8 = 4 ∧ regAddr (reg1 .rqHead k.val) < 2 ^ 24 := by decide +kernel
  obtain ⟨hreg, hlow, hhigh, hfits⟩ := hat k
  rw [writeRow_of_takes_high h hreg hlow rfl rfl hhigh hfits, written_pair (base := 0x100024) a k.val _ _ rfl (by decide)]
  rfl

/-! ### Fields after a write -/

/-- A write of a whole register writes all of its low half. -/
theorem getLsbD_mask_whole (r : Reg) (v : W64) {b : Nat} (hb : b < 32) : (whole r v).mask.getLsbD b = true := by
  have hnarrow : ∀ b, b < 32 → (0xffffffff#64).getLsbD b = true := by decide
  have hwide : ∀ b, b < 32 → (~~~0#64).getLsbD b = true := by decide
  rw [whole]
  split
  · exact hwide b hb
  · exact hnarrow b hb

/-- The value that a field takes when its register is written with a 32-bit value: an RW field takes the value's bits (R7). -/
theorem get_whole_rw (r : Reg) (v : W32) (s : State) (f : Fld) (hlow : f.lo + f.len ≤ 32)
    (hrw : ∀ b, f.lo ≤ b → b < f.lo + f.len → (accMask r.name .rw).getLsbD b = true ∧ (accMask r.name .w1c).getLsbD b = false) :
    (whole r (v.setWidth 64)).get s f = v.toNat / 2 ^ f.lo % 2 ^ f.len := by
  apply Nat.eq_of_testBit_eq
  intro n
  rw [RegWrite.get, testBit_fget, Nat.testBit_mod_two_pow, Nat.testBit_div_two_pow]
  by_cases hn : n < f.len
  · obtain ⟨hset, hkeep⟩ := hrw (f.lo + n) (by omega) (by omega)
    have hmask := getLsbD_mask_whole r (v.setWidth 64) (b := f.lo + n) (by omega)
    rw [RegWrite.getLsbD_next _ _ (by omega), hmask, show (whole r (v.setWidth 64)).reg = r from rfl, hset, hkeep,
      show (whole r (v.setWidth 64)).val = v.setWidth 64 from rfl, BitVec.getLsbD_setWidth]
    simp [hn, show n + f.lo < 64 by omega, BitVec.testBit_toNat, Nat.add_comm]
  · simp [hn]

/-- After a plain write, a field of the register reads the value that the write gives it. -/
theorem rd_plain (w : RegWrite) (s : State) (f : Fld) (h : w.reg.name = f.reg) :
    rd (w.plain s) f w.reg.i w.reg.j w.reg.k = w.get s f := by
  rw [rd, ← h, w.getR_plain_same s, RegWrite.get]

/-- A register that `wr1` does not write keeps its stored value. -/
theorem getR_wr1_other (s : State) (f : Fld) (k v : Nat) {n : RegName} {i j l : Nat} (h : ¬(n = f.reg ∧ i = k ∧ j = 0 ∧ l = 0)) :
    getR (wr1 s f k v) n i j l = getR s n i j l := by
  rw [wr1, wr, getR_setR, if_neg h]

/-- A flag that is set reads 1. -/
theorem rdB_flag1_same (s : State) (f : Fld) (k : Nat) (hlen : f.len = 1) (hlo : f.lo < 64) : rdB (flag1 s f k) f k = true := by
  have hone : rd (flag1 s f k) f k = 1 := by
    rw [flag1, wr1, rd_wr_same _ _ _ _ _ _ (by omega), hlen]; rfl
  exact decide_eq_true hone

/-! ### The doorbell (R44) -/

/-- TAIL of a doorbell is the low half of its value. -/
theorem get_sqTail (k : Nat) (v : W32) (s : State) :
    (whole (reg1 .sqTail k) (v.setWidth 64)).get s F.sqTailTail = v.toNat % 65536 := by
  have hrw : ∀ b, b < 16 → (accMask .sqTail .rw).getLsbD b = true ∧ (accMask .sqTail .w1c).getLsbD b = false := by
    decide +kernel
  have hget := get_whole_rw (reg1 .sqTail k) v s F.sqTailTail (by decide) fun b _ hb => hrw b hb
  rw [hget]
  simp

/-- A doorbell that is taken: a TAIL inside the ring of an enabled pair is stored, any other sets DB_ERR (R44). -/
theorem execSqTailDoorbell_of_takes {a : Acc} {k : Fin 256} {v : W32} {s : State}
    (h : Takes s (accessOf a (reg1 .sqTail k.val) true (v.setWidth 64))) :
    exec (.sqTailDoorbell a k v) s =
      .next (let s0 := answered s a (reg1 .sqTail k.val) (v.setWidth 64)
        let tail := v.toNat % 65536
        if sqSize s k.val ≤ tail ∨ ¬ rdB s F.ringCfgEnable k.val then flag1 s0 F.ringStatusDbErr k.val
        else kickFetch (raiseTeller (wr1 s0 F.sqTailTail k.val tail) (tellerOf s k.val) 7) k.val) := by
  have hrow := writeRow_pairLow (n := .sqTail) (by decide) h
  calc exec (.sqTailDoorbell a k v) s = writeRow a (reg1 .sqTail k.val) (v.setWidth 64) true s := rfl
    _ = .next (writeSqTail (answered s a (reg1 .sqTail k.val) (v.setWidth 64)) (whole (reg1 .sqTail k.val) (v.setWidth 64))) := hrow
    _ = _ := by rw [writeSqTail, get_sqTail]; rfl

/-- Settles O15, by the two outcomes of a doorbell. -/
theorem doorbellTakesTailOrIsRefused : Obligations.DoorbellTakesTailOrIsRefused := by
  intro a k v s htakes
  have hexec := execSqTailDoorbell_of_takes htakes
  intro s0 tail
  refine ⟨fun hinside henable => ⟨?_, ?_⟩, fun hbad => ?_⟩
  · rw [hexec, if_neg (by rw [sqSize, henable]; simp only [not_true_eq_false, or_false]; exact Nat.not_le.mpr hinside)]
  · rw [wr1, rd_wr_same _ _ _ _ _ _ (by decide)]
    exact Nat.mod_eq_of_lt (Nat.mod_lt _ (by decide))
  · have hrefused : sqSize s k.val ≤ tail ∨ ¬ rdB s F.ringCfgEnable k.val = true := hbad.imp id (by simp)
    refine ⟨flag1 s0 F.ringStatusDbErr k.val, by rw [hexec, if_pos hrefused], rdB_flag1_same _ _ _ rfl (by decide),
      fun n i j l hother => getR_wr1_other s0 F.ringStatusDbErr k.val 1 hother, rfl⟩

/-! ### RQ_HEAD (R45) -/

/-- HEAD of a write of RQ_HEAD is the low half of its value. -/
theorem get_rqHead (k : Nat) (v : W32) (s : State) :
    (whole (reg1 .rqHead k) (v.setWidth 64)).get s F.rqHeadHead = v.toNat % 65536 := by
  have hrw : ∀ b, b < 16 → (accMask .rqHead .rw).getLsbD b = true ∧ (accMask .rqHead .w1c).getLsbD b = false := by
    decide +kernel
  have hget := get_whole_rw (reg1 .rqHead k) v s F.rqHeadHead (by decide) fun b _ hb => hrw b hb
  rw [hget]
  simp

/-- Settles O16, by the slots that a write of RQ_HEAD returns. -/
theorem receiptSlotsReturnByRqHead : Obligations.ReceiptSlotsReturnByRqHead := by
  intro a k v s htakes s0 h x n back
  constructor
  · calc exec (.rqHeadWrite a k v) s
        = writeRow a (reg1 .rqHead k.val) (v.setWidth 64) true s := rfl
      _ = .next (writeRqHead s0 (whole (reg1 .rqHead k.val) (v.setWidth 64))) := writeRow_rqHead htakes
      _ = _ := by rw [writeRqHead, get_rqHead]; rfl
  · rw [wr1, rd_wr_same _ _ _ _ _ _ (by decide)]
    exact Nat.mod_eq_of_lt (Nat.mod_lt _ (by decide))

end Sys2Proof.Machine
end

section
/-! RING_CFG and RING_STATUS of a pair (R47, R49–R51): what a write is refused for, what enabling and disabling do, and what
clearing an error starts again. -/

namespace Sys2Proof.Machine

/-! ### The rows -/

/-- The rows that write RING_CFG, when their access is taken, all make that write (R49, R50). -/
theorem execRingCfgWrite_of_takes {a : Acc} {k : Fin 256} {v : W32} {s : State}
    (h : Takes s (accessOf a (reg1 .ringCfg k.val) true (v.setWidth 64))) :
    exec (.ringCfgWrite a k v) s = .next (writeRingCfg (answered s a (reg1 .ringCfg k.val) (v.setWidth 64))
      (whole (reg1 .ringCfg k.val) (v.setWidth 64))) :=
  (show exec (.ringCfgWrite a k v) s = writeRow a (reg1 .ringCfg k.val) (v.setWidth 64) true s from rfl).trans
    (writeRow_pairLow (n := .ringCfg) (by decide) h)

/-- RING_ENABLE is that write with ENABLE 1. -/
theorem execRingEnable_eq (a : Acc) (k : Fin 256) {v : W32} (s : State) (hv : v.getLsbD 0 = true) :
    exec (.ringEnable a k v) s = exec (.ringCfgWrite a k v) s := by
  show writeRow a (reg1 .ringCfg k.val) (v.setWidth 64) (v.getLsbD 0) s = _
  rw [hv]
  rfl

/-- RING_DISABLE is that write with ENABLE 0. -/
theorem execRingDisable_eq (a : Acc) (k : Fin 256) {v : W32} (s : State) (hv : v.getLsbD 0 = false) :
    exec (.ringDisable a k v) s = exec (.ringCfgWrite a k v) s := by
  show writeRow a (reg1 .ringCfg k.val) (v.setWidth 64) (!v.getLsbD 0) s = _
  rw [hv]
  rfl

/-! ### RING_CFG (R49, R50) -/

/-- What a write of RING_CFG is refused for does not depend on the response to it. -/
theorem cfgLocked_answered (s : State) (a : Acc) (r : Reg) (v : W64) (w : RegWrite) :
    cfgLocked (answered s a r v) w = cfgLocked s w := rfl

/-- A write that would change a locked field only sets CFG_ERR (R49). -/
theorem writeRingCfg_of_locked {s : State} {w : RegWrite} (h : cfgLocked s w = true) :
    writeRingCfg s w = flag1 s F.ringStatusCfgErr w.reg.i := by
  rw [writeRingCfg, if_pos h]

/-- Settles O17: each of the three rows makes the same write, and the write is refused. -/
theorem pairConfigurationLocks : Obligations.PairConfigurationLocks := by
  intro a k v s htakes w locked hlocked c hc
  have hrefused : cfgLocked s w = true := by
    rw [cfgLocked, pairLocked]
    exact hlocked
  have hcfg : exec (.ringCfgWrite a k v) s
      = .next (flag1 (answered s a (reg1 .ringCfg k.val) (v.setWidth 64)) F.ringStatusCfgErr k.val) := by
    rw [execRingCfgWrite_of_takes htakes, writeRingCfg_of_locked ((cfgLocked_answered ..).trans hrefused)]
    rfl
  have hrow : exec c s = exec (.ringCfgWrite a k v) s := by
    simp only [List.mem_cons, List.not_mem_nil, or_false] at hc
    rcases hc with rfl | rfl
    · rfl
    · cases hv : v.getLsbD 0
      · exact execRingDisable_eq a k s hv
      · exact execRingEnable_eq a k s hv
  exact ⟨_, hrow.trans hcfg, rdB_flag1_same _ _ _ rfl (by decide), fun n i j l hother =>
    (getR_wr1_other _ F.ringStatusCfgErr k.val 1 hother).trans (getR_answered ..), rfl⟩

/-- The state after a write of RING_CFG that changes neither a locked field nor TELLER, before ENABLE takes effect: the
fields are stored, and the condition of R47 has been tested. -/
def cfgStored (s : State) (w : RegWrite) : State := coalCount (w.plain s) w.reg.i

section
variable {s : State} {w : RegWrite} (hlock : cfgLocked s w = false) (hteller : w.changes s F.ringCfgTeller = false)
include hlock hteller

/-- A write that sets ENABLE of a disabled pair. -/
theorem writeRingCfg_enables (hwas : rdB s F.ringCfgEnable w.reg.i = false)
    (hnow : rdB (w.plain s) F.ringCfgEnable w.reg.i = true) : writeRingCfg s w = pairEnable (cfgStored s w) w.reg.i := by
  simp [writeRingCfg, hlock, hteller, hwas, hnow, cfgStored]

/-- A write that clears ENABLE of an enabled pair. -/
theorem writeRingCfg_disables (hwas : rdB s F.ringCfgEnable w.reg.i = true)
    (hnow : rdB (w.plain s) F.ringCfgEnable w.reg.i = false) : writeRingCfg s w = stopFetch (cfgStored s w) w.reg.i := by
  simp [writeRingCfg, hlock, hteller, hwas, hnow, cfgStored]

/-- A write that leaves ENABLE. -/
theorem writeRingCfg_keeps (hsame : rdB (w.plain s) F.ringCfgEnable w.reg.i = rdB s F.ringCfgEnable w.reg.i) :
    writeRingCfg s w = cfgStored s w := by
  cases hwas : rdB s F.ringCfgEnable w.reg.i <;>
    simp [writeRingCfg, hlock, hteller, hwas, hsame.trans hwas, cfgStored]

end

/-- Testing the condition of R47 writes RING_STATUS alone. -/
theorem rd_coalCount (s : State) (k : Nat) (f : Fld) (i : Nat) (h : f.reg ≠ .ringStatus) : rd (coalCount s k) f i = rd s f i := by
  rw [coalCount]
  split
  · exact rd_wr_reg _ _ _ _ _ _ _ _ _ _ (.inl h)
  · rfl

/-- Testing the condition of R47 leaves the items in flight. -/
theorem inFlight_coalCount (s : State) (k j : Nat) : inFlight (coalCount s k) j = inFlight s j := by
  rw [coalCount]
  split <;> rfl

/-- Enabling with sizes in range: the pointers start anew if nothing is in flight, and the teller goes on (R50). -/
theorem pairEnable_of_sizes {s : State} {k : Nat} (hsq : 4 ≤ rd s F.ringCfgSqLog2 k) (hsq' : rd s F.ringCfgSqLog2 k ≤ 16)
    (hrq : 4 ≤ rd s F.ringCfgRqLog2 k) (hrq' : rd s F.ringCfgRqLog2 k ≤ 16) :
    pairEnable s k = tellerGoesOn (if inFlight s k = 0 then pairFresh s k else s) k := by
  rw [pairEnable, if_neg]
  simp only [Bool.or_eq_true, decide_eq_true_eq]
  omega

/-- Enabling with a size out of range: ENABLE stays 0 and CFG_ERR is set (R49). -/
theorem pairEnable_of_bad_sizes {s : State} {k : Nat}
    (h : ¬(4 ≤ rd s F.ringCfgSqLog2 k ∧ rd s F.ringCfgSqLog2 k ≤ 16 ∧ 4 ≤ rd s F.ringCfgRqLog2 k ∧ rd s F.ringCfgRqLog2 k ≤ 16)) :
    pairEnable s k = flag1 (wr1 s F.ringCfgEnable k 0) F.ringStatusCfgErr k := by
  rw [pairEnable, if_pos]
  simp only [Bool.or_eq_true, decide_eq_true_eq]
  omega

/-- The pointers of a pair that starts at slot 0 (R50). -/
theorem rd_pairFresh (s : State) (k : Nat) :
    (∀ f ∈ [F.sqHeadHead, F.sqTailTail, F.rqTailTail, F.rqHeadHead], rd (pairFresh s k) f k = 0)
      ∧ rd (pairFresh s k) F.rqTailPhase k = 1 := by
  have hregs (f : Fld) : rd (pairFresh s k) f k = rd (wr1 (wr1 (wr1 (wr1 (wr1 s F.sqHeadHead k 0) F.sqTailTail k 0)
      F.rqTailTail k 0) F.rqHeadHead k 0) F.rqTailPhase k 1) f k := rd_congr rfl f k 0 0
  simp only [hregs]
  simp [rd, wr1, wr, fget_fset_same, fget_fset_other]

/-- ENABLE after a write of RING_CFG is bit 0 of the value. -/
theorem rdB_enable_plain (k : Nat) (v : W32) (s : State) :
    rdB ((whole (reg1 .ringCfg k) (v.setWidth 64)).plain s) F.ringCfgEnable k = v.getLsbD 0 := by
  have hrw : ∀ b, b < 1 → (accMask .ringCfg .rw).getLsbD b = true ∧ (accMask .ringCfg .w1c).getLsbD b = false := by
    decide +kernel
  have hget := get_whole_rw (reg1 .ringCfg k) v s F.ringCfgEnable (by decide) fun b _ hb => hrw b hb
  have hrd : rd ((whole (reg1 .ringCfg k) (v.setWidth 64)).plain s) F.ringCfgEnable k = v.toNat % 2 :=
    (rd_plain _ s F.ringCfgEnable rfl).trans (hget.trans (by simp))
  rw [rdB, hrd, ← BitVec.testBit_toNat, Nat.testBit_zero]

/-- Settles O18: ENABLE before and after the write decides what follows. -/
theorem pairEnableAndDisable : Obligations.PairEnableAndDisable := by
  intro a k v s htakes w s0 s1 sizesOk hlock hteller
  have hcfg : exec (.ringCfgWrite a k v) s = .next (writeRingCfg s0 w) := execRingCfgWrite_of_takes htakes
  have hlock0 : cfgLocked s0 w = false := hlock
  have hteller0 : w.changes s0 F.ringCfgTeller = false := hteller
  have hnow : rdB (w.plain s0) F.ringCfgEnable k.val = v.getLsbD 0 := rdB_enable_plain k.val v s0
  have henable : rdB s1 F.ringCfgEnable k.val = v.getLsbD 0 := by
    rw [← hnow, rdB, rdB, rd_coalCount _ _ _ _ (by decide)]
  have hflight : inFlight s1 k.val = inFlight s k.val := (inFlight_coalCount ..).trans rfl
  refine ⟨fun hv hwas hsizes => ⟨?_, (rd_pairFresh s1 k.val).1, (rd_pairFresh s1 k.val).2, henable.trans hv⟩,
    fun hv hwas hsizes => ?_, fun hv hwas => ⟨?_, henable.trans hv⟩, fun hsame => ?_⟩
  · obtain ⟨hsq, hsq', hrq, hrq'⟩ := hsizes
    rw [execRingEnable_eq a k s hv, hcfg, writeRingCfg_enables hlock0 hteller0 hwas (hnow.trans hv)]
    exact congrArg Host.Outcome.next ((pairEnable_of_sizes hsq hsq' hrq hrq').trans (by rw [hflight]))
  · rw [execRingEnable_eq a k s hv, hcfg, writeRingCfg_enables hlock0 hteller0 hwas (hnow.trans hv)]
    exact congrArg Host.Outcome.next (pairEnable_of_bad_sizes hsizes)
  · rw [execRingDisable_eq a k s hv, hcfg, writeRingCfg_disables hlock0 hteller0 hwas (hnow.trans hv)]
    rfl
  · have hget : w.get s0 F.ringCfgEnable = rd s0 F.ringCfgEnable k.val := Decidable.not_not.mp (of_decide_eq_false hsame)
    have hkeeps : rdB (w.plain s0) F.ringCfgEnable k.val = rdB s0 F.ringCfgEnable k.val :=
      congrArg (fun n => decide (n = 1)) ((rd_plain w s0 F.ringCfgEnable rfl).trans hget)
    rw [hcfg, writeRingCfg_keeps hlock0 hteller0 hkeeps]
    rfl

/-! ### RING_STATUS (R51) -/

/-- A write of RING_STATUS that clears FETCH_ERR alone lets the pair fetch. -/
theorem writeRingStatus_clears_fetchErr {s : State} {w : RegWrite} (hirq : w.clears s F.ringStatusIrqPend = false)
    (hfetch : w.clears s F.ringStatusFetchErr = true) (hrcpt : w.clears s F.ringStatusRcptErr = false) :
    writeRingStatus s w = kickFetch (w.plain s) w.reg.i := by
  simp [writeRingStatus, hirq, hfetch, hrcpt]

/-- A write of RING_STATUS that clears RCPT_ERR alone writes the receipts again. -/
theorem writeRingStatus_clears_rcptErr {s : State} {w : RegWrite} (hirq : w.clears s F.ringStatusIrqPend = false)
    (hfetch : w.clears s F.ringStatusFetchErr = false) (hrcpt : w.clears s F.ringStatusRcptErr = true) :
    writeRingStatus s w = writeReceipts (rewriteReceipts (w.plain s) w.reg.i) w.reg.i := by
  simp [writeRingStatus, hirq, hfetch, hrcpt]

/-- A write of a flag's bit clears the flag if it was set; another bit's does not. -/
theorem clears_whole (k : Nat) (v : W32) (s : State) (f : Fld) (hlow : f.lo < 32) :
    (whole (reg1 .ringStatus k) (v.setWidth 64)).clears s f = (v.getLsbD f.lo && rdB s f k) := by
  rw [RegWrite.clears, one_whole _ v f hlow]
  rfl

/-- A W1C bit that is written 1 reads 0. -/
theorem rdB_plain_w1c (w : RegWrite) (s : State) (f : Fld) (hreg : w.reg.name = f.reg) (hlen : f.len = 1) (hlo : f.lo < 64)
    (hclear : (accMask f.reg .w1c).getLsbD f.lo = true) (hmask : w.mask.getLsbD f.lo = true) (hval : w.val.getLsbD f.lo = true) :
    rdB (w.plain s) f w.reg.i w.reg.j w.reg.k = false := by
  have hbit : (w.next s).getLsbD f.lo = false := by
    rw [w.getLsbD_next s hlo, hreg, hclear, hmask, hval]
    rfl
  have hrd : rd (w.plain s) f w.reg.i w.reg.j w.reg.k = 0 := by
    rw [rd_plain w s f hreg, RegWrite.get, hlen, fget_one, hbit]
    rfl
  simp [rdB, hrd]

/-- The state after the write of one W1C flag of RING_STATUS: the flag is 0, and no other register has changed. -/
theorem plain_ringStatus_clears (a : Acc) (k : Nat) (v : W32) (s : State) (f : Fld) (hreg : f.reg = .ringStatus)
    (hlen : f.len = 1) (hlo : f.lo < 32) (hclear : (accMask .ringStatus .w1c).getLsbD f.lo = true) (hval : v.getLsbD f.lo = true) :
    let s0 := answered s a (reg1 .ringStatus k) (v.setWidth 64)
    let s1 := (whole (reg1 .ringStatus k) (v.setWidth 64)).plain s0
    rdB s1 f k = false ∧ s1 = { s0 with regs := s1.regs }
      ∧ ∀ n i j l, ¬(n = .ringStatus ∧ i = k ∧ j = 0 ∧ l = 0) → getR s1 n i j l = getR s n i j l := by
  intro s0 s1
  have hwide : (v.setWidth 64).getLsbD f.lo = true := by
    rw [BitVec.getLsbD_setWidth, hval, decide_eq_true (by omega), Bool.and_self]
  refine ⟨rdB_plain_w1c _ s0 f hreg.symm hlen (by omega) (hreg ▸ hclear) (getLsbD_mask_whole _ _ hlo) hwide, rfl,
    fun n i j l hother => RegWrite.getR_plain_other _ s0 fun heq => hother ?_⟩
  obtain ⟨rfl, rfl, rfl, rfl⟩ := Reg.mk.inj heq
  exact ⟨rfl, rfl, rfl, rfl⟩

/-! ### Fetches that fail (R51) -/

/-- The end of a fetch whose beats showed an error or poison. -/
theorem fetchFails_of_spoilt {r : HiReq} (s : State) (k : Nat) (h : r.spoilt = true) :
    fetchFails s k r = flag1 (readDone s r) F.ringStatusFetchErr k := by
  rw [fetchFails, if_pos h]

/-- The end of a fetch none of whose beats told of the error: a free bit and a free code (log entry 53). -/
theorem fetchFails_of_clean {r : HiReq} (s : State) (k : Nat) (h : r.spoilt = false) :
    fetchFails s k r = flag1 (let y := readDone s r
      if Config.freeBit y.freeCtr
      then hiLogErr { y with freeCtr := y.freeCtr + 2 } r.id (1 + (Config.freeWord (y.freeCtr + 1)).toNat % 3) 0
      else { y with freeCtr := y.freeCtr + 1 }) F.ringStatusFetchErr k := by
  have herr : r.err = false := (Bool.or_eq_false_iff.mp h).1
  simp only [fetchFails, h, freeBit, fetchErr, herr, freeWord, Bool.not_false, Bool.and_true, Bool.false_eq_true, if_false]

/-- Settles O19: each flag's write by what it clears, and a failed fetch by whether its beats told of the error. -/
theorem clearingFetchAndReceiptErrors : Obligations.ClearingFetchAndReceiptErrors := by
  intro a k s
  refine ⟨fun htakes hset => ?_, fun htakes hset => ?_, fun r hr => ?_, fun hout hgone => ?_, rfl⟩
  · obtain ⟨hzero, hframe, hregs⟩ := plain_ringStatus_clears a k.val 8 s F.ringStatusFetchErr rfl rfl (by decide)
      (by decide +kernel) (by decide)
    refine ⟨_, ?_, hzero, hframe, hregs⟩
    calc exec (.fetchErrClear a k 8) s
        = writeRow a (reg1 .ringStatus k.val) ((8#32).setWidth 64) true s := rfl
      _ = .next (writeRingStatus (answered s a (reg1 .ringStatus k.val) ((8#32).setWidth 64))
            (whole (reg1 .ringStatus k.val) ((8#32).setWidth 64))) := writeRow_pairLow (n := .ringStatus) (by decide) htakes
      _ = _ := by
        rw [writeRingStatus_clears_fetchErr (by rw [clears_whole _ _ _ _ (by decide)]; rfl)
          (by rw [clears_whole _ _ _ _ (by decide)]; exact hset) (by rw [clears_whole _ _ _ _ (by decide)]; rfl)]
        rfl
  · obtain ⟨hzero, hframe, hregs⟩ := plain_ringStatus_clears a k.val 16 s F.ringStatusRcptErr rfl rfl (by decide)
      (by decide +kernel) (by decide)
    refine ⟨_, ?_, hzero, hframe, hregs⟩
    calc exec (.rcptErrClear a k 16) s
        = writeRow a (reg1 .ringStatus k.val) ((16#32).setWidth 64) true s := rfl
      _ = .next (writeRingStatus (answered s a (reg1 .ringStatus k.val) ((16#32).setWidth 64))
            (whole (reg1 .ringStatus k.val) ((16#32).setWidth 64))) := writeRow_pairLow (n := .ringStatus) (by decide) htakes
      _ = _ := by
        rw [writeRingStatus_clears_rcptErr (by rw [clears_whole _ _ _ _ (by decide)]; rfl)
          (by rw [clears_whole _ _ _ _ (by decide)]; rfl) (by rw [clears_whole _ _ _ _ (by decide)]; exact hset)]
        rfl
  · have hread : (fetchOut s k.val).or (fetchGone s k.val) = some r := by
      rcases hr with hout | ⟨hout, hgone⟩
      · rw [hout, Option.some_or]
      · rw [hout, Option.none_or, hgone]
    have hexec : exec (.packetFetchError k) s = .next (fetchFails s k.val r) := by
      show execPacketFetchError k s = _
      rw [execPacketFetchError, hread]
    cases hspoilt : r.spoilt with
    | true => exact ⟨_, hexec.trans (congrArg _ (fetchFails_of_spoilt s k.val hspoilt)), fun _ => rfl, nofun⟩
    | false => exact ⟨_, hexec.trans (congrArg _ (fetchFails_of_clean s k.val hspoilt)), nofun, fun _ => rfl⟩
  · show execPacketFetchError k s = _
    rw [execPacketFetchError, hout, hgone]
    rfl

end Sys2Proof.Machine
end

section
/-! The rows that carry a packet (R41, R44, R57, R63, R77): its arrival, its routing, its checks, and where its item goes. -/

namespace Sys2Proof.Machine

/-! ### What counting an event leaves -/

/-- A tally that counts an event changes registers alone. -/
theorem tallyAdd_frame (s : State) (i n : Nat) : tallyAdd s i n = { s with regs := (tallyAdd s i n).regs } := by
  rw [tallyAdd]
  split <;> rfl

/-- A tally that counts an event writes the registers of tallies alone. -/
theorem getR_tallyAdd (s : State) (i n : Nat) {r : RegName} (hval : r ≠ .tallyVal) (hcfg : r ≠ .tallyCfg) (a b c : Nat) :
    getR (tallyAdd s i n) r a b c = getR s r a b c := by
  rw [tallyAdd]
  split
  · exact getR_wr _ _ _ _ _ _ _ _ _ _ hval
  · exact (getR_wr _ _ _ _ _ _ _ _ _ _ hcfg).trans (getR_wr _ _ _ _ _ _ _ _ _ _ hval)

/-- Counting an event changes registers alone. -/
theorem tally_frame (s : State) (src : Nat) : tally s src = { s with regs := (tally s src).regs } := by
  rw [tally, tallyQ]
  refine List.foldlRecOn (motive := fun t : State => t = { s with regs := t.regs }) _ _ rfl fun t ht i _ => ?_
  split
  · rw [tallyAdd_frame, ht]
  · exact ht

/-- Counting an event writes the registers of tallies alone. -/
theorem getR_tally (s : State) (src : Nat) {r : RegName} (hval : r ≠ .tallyVal) (hcfg : r ≠ .tallyCfg) (a b c : Nat) :
    getR (tally s src) r a b c = getR s r a b c := by
  rw [tally, tallyQ]
  refine List.foldlRecOn (motive := fun t => getR t r a b c = getR s r a b c) _ _ rfl fun t ht i _ => ?_
  split
  · exact (getR_tallyAdd t i _ hval hcfg a b c).trans ht
  · exact ht

/-- A field outside the registers of tallies is not touched by an event that is counted. -/
theorem rd_tally (s : State) (src : Nat) (f : Fld) (i j k : Nat) (hval : f.reg ≠ .tallyVal) (hcfg : f.reg ≠ .tallyCfg) :
    rd (tally s src) f i j k = rd s f i j k := by
  rw [rd, rd, getR_tally s src hval hcfg]

@[simp] theorem tally_items (s : State) (src : Nat) : (tally s src).items = s.items := by rw [tally_frame]
@[simp] theorem tally_rings (s : State) (src : Nat) : (tally s src).rings = s.rings := by rw [tally_frame]
@[simp] theorem tally_power (s : State) (src : Nat) : (tally s src).power = s.power := by rw [tally_frame]

/-! ### Ring pairs -/

/-- A pair reads what it was changed to. -/
theorem getRing_updRing_same (s : State) (k : Nat) (f : RingSt → RingSt) : getRing (updRing s k f) k = f (getRing s k) :=
  Tab.get_set_same s.rings k _ _

/-! ### A packet arrives (R44) -/

/-- A row that carries a packet is the arrival of the packet, if it is the row's. -/
theorem exec_eq_packetRow {c : Instr} {k : Fin 256} {p : Packet} (s : State) (h : packetOf c = some (k, p)) :
    exec c s = packetRow k p c.wellFormed s := by
  cases c <;> cases h <;> rfl

theorem exec_packet {c : Instr} {k : Fin 256} {p : Packet} (s : State) (hwf : c.wellFormed = true)
    (h : packetOf c = some (k, p)) : exec c s = .next (packetArrives s k.val p) := by
  rw [exec_eq_packetRow s h, packetRow, if_pos hwf]

/-- Byte 8 of a packet selects the target or the action of its opcode. -/
theorem Packet.selector_eq_opByte (p : Packet) : p.selector = p.opByte 8 := rfl

/-- With no fetch of the pair outstanding there is nothing to take. -/
theorem packetArrives_of_no_fetch {s : State} {k : Nat} (p : Packet) (h : fetchOut s k = none) : packetArrives s k p = s := by
  simp [packetArrives, takeFetch, h]

/-- A packet whose beats showed an error or poison fails. -/
theorem packetArrives_of_spoilt {s : State} {k : Nat} {r : HiReq} (p : Packet) (h : fetchOut s k = some r)
    (hspoilt : r.spoilt = true) : packetArrives s k p = fetchFails s k r := by
  simp [packetArrives, takeFetch, h, hspoilt, Option.filter]

/-- A packet that was being fetched waits with the teller of its pair, which routes it if it is the pair's turn. -/
theorem packetArrives_of_fetched {s : State} {k : Nat} (p : Packet) (h : (takeFetch s k).isSome = true) :
    packetArrives s k p = routeTurn (arrived s k p) k := by
  obtain ⟨t, ht⟩ := Option.isSome_iff_exists.mp h
  simp [packetArrives, arrived, ht]

/-- The packet that has arrived waits. -/
theorem arrived_wait (s : State) (k : Nat) (p : Packet) : (getRing (arrived s k p) k).wait = some p :=
  congrArg RingSt.wait (getRing_updRing_same ..)

/-- When it is not the pair's turn the packet goes on waiting. -/
theorem routeTurn_of_not_turn {s : State} {k : Nat} (h : nextPair s (tellerOf s k) ≠ some k) : routeTurn s k = s := by
  rw [routeTurn, if_neg h]

/-- When it is the pair's turn the packet becomes an item, the teller decides where it goes, and fetches the next packet. -/
theorem routeTurn_arrived {s : State} {k : Nat} {p : Packet}
    (h : nextPair (arrived s k p) (tellerOf (arrived s k p) k) = some k) :
    routeTurn (arrived s k p) k = kickFetch (dispatch (routed s k p) (newItem s k p)) k := by
  rw [routeTurn, if_pos h, arrived_wait]
  rfl

/-! ### The state in which an item has been routed -/

theorem routed_items (s : State) (k : Nat) (p : Packet) :
    (routed s k p).items = (arrived s k p).items ++ [newItem s k p] := by
  rw [routed, tally_items]
  rfl

theorem routed_wait (s : State) (k : Nat) (p : Packet) : (getRing (routed s k p) k).wait = none := by
  rw [routed, getRing, tally_rings]
  simp [updRing]

/-- SQ_HEAD goes one slot on around the ring (R41). -/
theorem rd_sqHead_routed (s : State) (k : Nat) (p : Packet) (h : rd (arrived s k p) F.ringCfgSqLog2 k ≤ 16) :
    rd (routed s k p) F.sqHeadHead k
      = (rd (arrived s k p) F.sqHeadHead k + 1) % 2 ^ rd (arrived s k p) F.ringCfgSqLog2 k := by
  have hsize : 2 ^ rd (arrived s k p) F.ringCfgSqLog2 k ≤ 2 ^ 16 := Nat.pow_le_pow_right (by decide) h
  have hmod := Nat.mod_lt (rd (arrived s k p) F.sqHeadHead k + 1) (Nat.two_pow_pos (rd (arrived s k p) F.ringCfgSqLog2 k))
  rw [routed, rd_tally _ _ _ _ _ _ (by decide) (by decide)]
  exact (rd_wr_same _ F.sqHeadHead k 0 0 _ (by decide)).trans (Nat.mod_eq_of_lt (Nat.lt_of_lt_of_le hmod hsize))

/-- Settles O24: no fetch, a spoilt fetch, a packet that waits, and a packet that is routed. -/
theorem packetsArriveAndAreRouted : Obligations.PacketsArriveAndAreRouted := by
  intro c k p s hwf hpacket
  have hexec := exec_packet s hwf hpacket
  refine ⟨fun hnone => ?_, fun r hout hspoilt => ?_, fun hfetched => ⟨arrived_wait .., fun hother => ?_, fun hturn => ⟨?_,
    routed_items .., rfl, rfl, rfl, rfl, routed_wait .., rd_sqHead_routed s k.val p⟩⟩⟩
  · rw [hexec, packetArrives_of_no_fetch p hnone]
  · rw [hexec, packetArrives_of_spoilt p hout hspoilt]
  · rw [hexec, packetArrives_of_fetched p hfetched, routeTurn_of_not_turn hother]
  · rw [hexec, packetArrives_of_fetched p hfetched, routeTurn_arrived hturn]

/-! ### The checks (R63) -/

/-- The first check that fails is one of the fourteen, and every check before it passes. -/
theorem firstCheck_eq_some {s : State} {here lvl n : Nat} {p : Packet} (h : firstCheck s here lvl p = some n) :
    1 ≤ n ∧ n ≤ 14 ∧ checkFails s here lvl p n = true ∧ ∀ m, 1 ≤ m → m < n → checkFails s here lvl p m = false := by
  obtain ⟨hfails, hmem, hbefore⟩ := List.find?_range'_eq_some.mp h
  obtain ⟨hlow, hhigh⟩ := List.mem_range'_1.mp hmem
  exact ⟨hlow, by omega, hfails, fun m h1 hm => by simpa using hbefore m h1 hm⟩

/-- When none fails first, none fails. -/
theorem checkFails_of_firstCheck_none {s : State} {here lvl n : Nat} {p : Packet} (h : firstCheck s here lvl p = none)
    (h1 : 1 ≤ n) (h14 : n ≤ 14) : checkFails s here lvl p n = false := by
  have hmem : n ∈ List.range' 1 14 := List.mem_range'_1.mpr ⟨h1, by omega⟩
  simpa using List.find?_eq_none.mp h n hmem

/-- An item whose packet fails a check is refused with the first that fails. -/
theorem execute_of_firstCheck_some {s : State} {it : Item} {n : Nat} (h : firstCheck s (hereAddr s) it.level it.pkt = some n) :
    execute s it = refuse s it n := by
  simp [execute, h]

/-- An item whose packet passes every check is carried out. -/
theorem execute_of_firstCheck_none {s : State} {it : Item} (h : firstCheck s (hereAddr s) it.level it.pkt = none) :
    execute s it = carryOut s it := by
  simp [execute, h]

/-- Settles O25: the first check that fails, the check of UNIT before forwarding, and the two bytes of the receipt. -/
theorem firstFailingCheckRefuses : Obligations.FirstFailingCheckRefuses := by
  intro s it
  refine ⟨fun n hfirst => ⟨execute_of_firstCheck_some hfirst, firstCheck_eq_some hfirst⟩, fun hforward hunit => ?_,
    fun hmark hcheck => ?_⟩
  · rw [dispatch, if_pos ⟨hforward, hunit⟩]
    rfl
  · have hst := statusOf_of_misaligned hmark
    have hstatus : (receiptOf s it).status = 11 := congrArg Status.code hst
    have hnum : (receiptOf s it).check = it.check := if_pos hst
    rw [Receipt.getD_bytes_status, Receipt.getD_bytes_check, hstatus, hnum, BitVec.toNat_ofNat]
    exact ⟨rfl, Nat.mod_eq_of_lt hcheck⟩

/-! ### Where an item goes (R77) -/

/-- An item for this unit is checked and carried out here. -/
theorem dispatch_of_here {s : State} {it : Item} (hunit : it.pkt.forward = true → it.pkt.unit.toNat ≤ 15)
    (hhere : it.pkt.forward = true → it.pkt.unit.toNat = hereAddr s) : dispatch s it = execute s it := by
  have hrange : ¬(it.pkt.forward = true ∧ 15 < it.pkt.unit.toNat) := fun h => absurd (hunit h.1) (Nat.not_le.mpr h.2)
  rw [dispatch, if_neg hrange, if_neg fun h => h.2 (hhere h.1)]

/-- An item for another unit is forwarded. -/
theorem dispatch_of_elsewhere {s : State} {it : Item} (hforward : it.pkt.forward = true) (hunit : it.pkt.unit.toNat ≤ 15)
    (hother : it.pkt.unit.toNat ≠ hereAddr s) : dispatch s it = forwardItem s it := by
  rw [dispatch, if_neg fun h => absurd hunit (Nat.not_le.mpr h.2), if_pos ⟨hforward, hother⟩]

/-- A packet that is routed to this unit and passes every check: its item is carried out. -/
theorem exec_of_routes {c : Instr} {k : Fin 256} {p : Packet} {s : State} (hwf : c.wellFormed = true)
    (hpacket : packetOf c = some (k, p)) (h : Routes s k.val p) :
    exec c s = .next (kickFetch (carryOut (routed s k.val p) (newItem s k.val p)) k.val) := by
  have hunit : p.unit.toNat ≤ 15 := by
    have hpass := checkFails_of_firstCheck_none h.checks (n := 3) (by decide) (by decide)
    simp only [checkFails, Bool.or_eq_false_iff, decide_eq_false_iff_not] at hpass
    omega
  have hdispatch : dispatch (routed s k.val p) (newItem s k.val p) = carryOut (routed s k.val p) (newItem s k.val p) :=
    (dispatch_of_here (fun _ => hunit) h.here).trans (execute_of_firstCheck_none h.checks)
  rw [exec_packet s hwf hpacket, packetArrives_of_fetched p h.fetched, routeTurn_arrived h.turn, hdispatch]

/-! ### LUN queues (R79, R171, R287) -/

/-- An item that occupies a LUN queue goes to its sequencer. -/
theorem carryOut_of_usesQueue {s : State} {it : Item} (h : it.pkt.usesQueue = true) : carryOut s it = carryQueue s it := by
  rw [carryOut, if_pos h]

/-- The packet of a flash row, of UNHALT_LUN or of FLUSH_LUN occupies a LUN queue (R57, R204). -/
theorem usesQueue_of_flashRow {c : Instr} {k : Fin 256} {p : Packet}
    (h : c ∈ [.read k p, .readMulti k p, .readRaw k p, .program k p, .programMulti k p, .erase k p, .eraseMulti k p,
      .copy k p, .status k p, .setFeature k p, .getFeature k p, .resetLun k p, .sequence k p, .unhaltLun k p, .flushLun k p])
    (hwf : c.wellFormed = true) : packetOf c = some (k, p) ∧ p.usesQueue = true := by
  have hqueue (n : Nat) (hop : p.has n = true) (hn : opQueue n = true) : p.usesQueue = true := by
    rw [Packet.usesQueue, show p.op = n from of_decide_eq_true hop, hn, Bool.true_or]
  have hlun (n : Nat) (hop : (p.has 0x17 && decide (p.selector = n)) = true) (hn : n = 5 ∨ n = 6) : p.usesQueue = true := by
    obtain ⟨hctl, hact⟩ := Bool.and_eq_true_iff.mp hop
    rw [Packet.usesQueue, lunAction, show p.op = 0x17 from of_decide_eq_true hctl, ← Packet.selector_eq_opByte,
      of_decide_eq_true hact]
    rcases hn with rfl | rfl <;> rfl
  simp only [List.mem_cons, List.not_mem_nil, or_false] at h
  rcases h with rfl | rfl | rfl | rfl | rfl | rfl | rfl | rfl | rfl | rfl | rfl | rfl | rfl | rfl | rfl
  iterate 13 exact ⟨rfl, hqueue _ hwf rfl⟩
  · exact ⟨rfl, hlun 5 hwf (.inl rfl)⟩
  · exact ⟨rfl, hlun 6 hwf (.inr rfl)⟩

/-- An item that moves host data with no DMA channel eligible ends DMA_FAULT (R287). -/
theorem carryQueue_of_no_dma {s : State} {it : Item} (hmoves : opMoves it.pkt.op = true) (hnone : eligibleDma s it = []) :
    carryQueue s it = endWith s it.id .dmaFault := by
  simp [carryQueue, hmoves, hnone]

/-- Every other item reaches its LUN queue. -/
theorem carryQueue_of_dma {s : State} {it : Item} (h : opMoves it.pkt.op = true → eligibleDma s it ≠ []) :
    carryQueue s it = joinQueue s it := by
  rw [carryQueue, if_neg]
  simpa using h

/-- With the group unpowered or the channel not enabled the item ends CHANNEL_FENCED (R79). -/
theorem joinQueue_of_fenced {s : State} {it : Item} (h : domUp s (dCg (it.lun.ch / 4)) = false ∨ chEnabled s it.lun.ch = false) :
    joinQueue s it = endWith s it.id .channelFenced := by
  rw [joinQueue, if_pos (by simpa using h)]

section
variable {s : State} {it : Item} (hup : domUp s (dCg (it.lun.ch / 4)) = true) (henabled : chEnabled s it.lun.ch = true)
include hup henabled

/-- The store takes an item that it has room for (R171). -/
theorem joinQueue_of_room (h : storeRoom s it = true) : joinQueue s it = storeTakes s it := by
  simp [joinQueue, hup, henabled, h]

/-- While the store has no room the teller holds the item (R171). -/
theorem joinQueue_of_full (h : storeRoom s it = false) : joinQueue s it = updItem s it.id (fun i => { i with stage := .waitStore }) := by
  simp [joinQueue, hup, henabled, h]

end

/-- An item joins its LUN queue at the tail. -/
theorem queue_enqueue (s : State) (id : Nat) (l : Lun) :
    (getLun (enqueue s id l) l).queue = (getLun s l).queue ++ [id] :=
  congrArg LunSt.queue (Tab.get_set_same s.luns l _ _)

/-- Settles O26: the item that the store takes, and the three other ends of an item for a LUN queue. -/
theorem flashRowsJoinTheirQueue : Obligations.FlashRowsJoinTheirQueue := by
  refine ⟨fun c k p s hrow hwf hroutes hstore => ⟨?_, fun x it id => ⟨queue_enqueue x id it.lun, rfl⟩⟩,
    fun s it => ⟨carryQueue_of_no_dma, fun hdma => ⟨fun hfenced => ?_, fun hup henabled hfull => ?_⟩⟩⟩
  · obtain ⟨hpacket, hqueue⟩ := usesQueue_of_flashRow hrow hwf
    rw [exec_of_routes hwf hpacket hroutes, carryOut_of_usesQueue hqueue, carryQueue_of_dma hstore.moves,
      joinQueue_of_room hstore.up hstore.enabled hstore.room]
  · rw [carryQueue_of_dma hdma, joinQueue_of_fenced hfenced]
  · rw [carryQueue_of_dma hdma, joinQueue_of_full hup henabled hfull]

end Sys2Proof.Machine
end

section
/-! Items without LUN queue: LEDGER_SET, TIME_MARK and NOP (R58, R216, R236), and quiet windows (R223, R224). -/

namespace Sys2Proof.Machine

/-! ### What the ring port leaves (R19, R23, R244) -/

/-- What decides whether shared-state requests wait at the half link: the registers and the host side. -/
def linkView (s : State) : Tab Reg W64 × HostPort := (s.regs, s.host)

theorem linkHeld_congr {s t : State} (h : linkView t = linkView s) : linkHeld t = linkHeld s := by
  have hregs : t.regs = s.regs := congrArg Prod.fst h
  have hhost : t.host = s.host := congrArg Prod.snd h
  have hfield (f : Fld) : rd t f = rd s f := rd_congr hregs f 0 0 0
  have hup (h : Nat) : feUp t h = feUp s h := congrArg (fun n => decide (n = 1)) (hfield _)
  rw [linkHeld, linkHeld, hhost, hup, show owner t = owner s from hfield _]

theorem linkView_sendTx (s : State) (w : TxWait) : linkView (sendTx s w) = linkView s := by
  have hstamp (t : State) (n : Nat) (f : TxFrame) : linkView (stamped t n f).2 = linkView t := by cases f <;> rfl
  have hscr (t : State) (l n : Nat) : linkView (scrAt t l n).2 = linkView t := by
    rw [scrAt]
    split <;> rfl
  exact (hscr _ _ _).trans (hstamp s _ w.body)

theorem linkView_drainLane (lane n : Nat) (s : State) : linkView (drainLane lane n s) = linkView s := by
  induction n generalizing s with
  | zero => rfl
  | succ n ih =>
    rw [drainLane]
    split
    · split
      · exact (ih _).trans (linkView_sendTx s _)
      · rfl
    · rfl

theorem linkView_ringDrain (s : State) : linkView (ringDrain s) = linkView s := by
  simp only [ringDrain]
  split
  · exact (linkView_drainLane ..).trans (linkView_drainLane ..)
  · rfl

/-- A frame that the unit puts on the ring leaves registers and host side. -/
theorem linkView_ringSend (s : State) (f : TxFrame) : linkView (ringSend s f) = linkView s := by
  have hput (l : Nat) (c : TxClass) (h : FrameHdr) : linkView (ringPut s l c h f) = linkView s := by
    rw [ringPut]
    split
    · exact (linkView_ringDrain _).trans (linkView_ringDrain s)
    · rfl
  rw [ringSend]
  split
  · rfl
  · exact hput ..

theorem linkView_sendWide (s : State) (p : Packet) : linkView (sendWide s p) = linkView s := by
  rw [sendWide]
  split
  · exact linkView_ringSend ..
  · rfl

/-! ### The effect of an item (R19, R216, R236) -/

/-- An effect that the half link does not hold is made, and the item ends. -/
theorem effectRun_of_free {s : State} {it : Item} (h : linkHeld s = false ∨ sharedEffect it.pkt = false) :
    effectRun s it = endItem (packetEffect s it.pkt) it.id := by
  rw [effectRun, if_neg, effectEnds]
  rintro ⟨hheld, hshared⟩
  rcases h with h | h
  · exact absurd hheld (by simp [h])
  · exact absurd hshared (by simp [h])

/-- LEDGER_SET, TIME_MARK and NOP are carried out by time. -/
theorem carryOut_of_timed {s : State} {it : Item} (h : it.pkt.op = 0x10 ∨ it.pkt.op = 0x11 ∨ it.pkt.op = 0x18) :
    carryOut s it = carryTimed s it := by
  rcases h with h | h | h <;> simp [carryOut, Packet.usesQueue, lunAction, opQueue, h]

/-- With LAUNCH_TICK 0, and no quiet window, the item takes effect when it is routed. -/
theorem carryTimed_of_now {s : State} {it : Item} (hquiet : isQuiet it.pkt = false) (htick : it.pkt.launchTick = 0) :
    carryTimed s it = effectRun (sendWide s it.pkt) it := by
  simp [carryTimed, hquiet, htick]

/-- A row of LEDGER_SET, TIME_MARK or NOP with LAUNCH_TICK 0, routed to this unit. -/
theorem exec_of_routes_now {c : Instr} {k : Fin 256} {p : Packet} {s : State} (hroutes : Routes s k.val p)
    (htick : p.launchTick = 0) (hwf : c.wellFormed = true) (hpacket : packetOf c = some (k, p))
    (hop : p.op = 0x10 ∨ p.op = 0x11 ∨ p.op = 0x18) (hquiet : isQuiet p = false)
    (hfree : linkHeld (sendWide (routed s k.val p) p) = false ∨ sharedEffect p = false) :
    exec c s = .next (kickFetch (endItem (packetEffect (sendWide (routed s k.val p) p) p) (newItem s k.val p).id) k.val) := by
  have htimed : carryOut (routed s k.val p) (newItem s k.val p) = carryTimed (routed s k.val p) (newItem s k.val p) :=
    carryOut_of_timed hop
  have hnow : carryTimed (routed s k.val p) (newItem s k.val p) = effectRun (sendWide (routed s k.val p) p) (newItem s k.val p) :=
    carryTimed_of_now hquiet htick
  have hends : effectRun (sendWide (routed s k.val p) p) (newItem s k.val p)
      = endItem (packetEffect (sendWide (routed s k.val p) p) p) (newItem s k.val p).id := effectRun_of_free hfree
  rw [exec_of_routes hwf hpacket hroutes, htimed, hnow, hends]

/-- A packet is for a quiet window only under LEDGER_SET with target 5. -/
theorem isQuiet_of_op_ne {p : Packet} (h : p.op ≠ 0x10) : isQuiet p = false := by simp [isQuiet, h]
theorem isQuiet_of_target_ne {p : Packet} (h : p.opByte 8 ≠ 5) : isQuiet p = false := by simp [isQuiet, h]

theorem packetEffect_ledgerSet {s : State} {p : Packet} (hop : p.op = 0x10) (hquiet : isQuiet p = false) :
    packetEffect s p = ledgerApply s p := by simp [packetEffect, hop, hquiet]

theorem packetEffect_timeMark {s : State} {p : Packet} (hop : p.op = 0x11) :
    packetEffect s p = if p.opByte 8 % 2 = 1 then tallySnapshot s else s := by simp [packetEffect, hop]

theorem packetEffect_nop {s : State} {p : Packet} (hop : p.op = 0x18) : packetEffect s p = s := by simp [packetEffect, hop]

/-- A packet of the row of NOP that passes the checks is a NOP. -/
theorem op_of_nop {k : Fin 256} {p : Packet} {s : State} (hwf : (Instr.nop k p).wellFormed = true) (h : Routes s k.val p) :
    p.op = 0x18 := by
  have hknown : opKnown p.op = true := by
    have hpass := checkFails_of_firstCheck_none h.checks (n := 1) (by decide) (by decide)
    simpa [checkFails] using hpass
  have hrow : (decide (p.op = 0x18) || !opKnown p.op) = true := hwf
  simpa [hknown] using hrow

/-! ### LEDGER_SET (R58, R216) -/

theorem coins_lt (p : Packet) : Packet.coins p < 2 ^ 16 := by
  have hbyte (i : Nat) : p.opByte i < 256 := (byteOf p.row.toNat (i - 8)).isLt
  have hlow := hbyte 12
  have hhigh := hbyte 13
  rw [Packet.coins]
  omega

/-- A budget reads the coins that were written to it. -/
theorem rd_wr0_coins (s : State) (p : Packet) (f : Fld) (hlen : f.len = 16) (hlo : f.lo ≤ 48) :
    rd (wr0 s f (Packet.coins p)) f = Packet.coins p := by
  rw [rd_wr0_same _ _ _ (by omega), hlen, Nat.mod_eq_of_lt (coins_lt p)]

section
variable {p : Packet} (s : State)

theorem ledgerApply_vccNormal (h : p.opByte 8 = 0) : ledgerApply s p = wr0 s F.lgBudgetVccNormal (Packet.coins p) := by
  simp [ledgerApply, h]

theorem ledgerApply_vccAlt (h : p.opByte 8 = 1) : ledgerApply s p = setVccAlt s (Packet.coins p) := by simp [ledgerApply, h]

theorem ledgerApply_vccqNormal (h : p.opByte 8 = 2) : ledgerApply s p = wr0 s F.lgBudgetVccqNormal (Packet.coins p) := by
  simp [ledgerApply, h]

theorem ledgerApply_vccqAlt (h : p.opByte 8 = 3) : ledgerApply s p = wr0 s F.lgBudgetVccqAlt (Packet.coins p) := by
  simp [ledgerApply, h]

theorem ledgerApply_cost (h : p.opByte 8 = 4) (hi : p.opByte 9 < 32) :
    ledgerApply s p = wr1 s F.lgCostCoins (p.opByte 9) (Packet.coins p) := by simp [ledgerApply, h, hi]

theorem ledgerApply_cost_outside (h : p.opByte 8 = 4) (hi : 32 ≤ p.opByte 9) : ledgerApply s p = s := by
  simp [ledgerApply, h, Nat.not_lt.mpr hi]

theorem ledgerApply_other (h : 5 < p.opByte 8) : ledgerApply s p = s := by
  obtain ⟨n, hn⟩ : ∃ n, p.opByte 8 = n + 6 := ⟨p.opByte 8 - 6, by omega⟩
  simp [ledgerApply, hn]

end

/-- A budget that is written does not decide which budgets are in force (R217). -/
theorem altActive_wr0_budget (s : State) (f : Fld) (v : Nat) (hf : f.reg = .lgBudget) : altActive (wr0 s f v) = altActive s := by
  have hfield (g : Fld) (hg : g.reg = .lgCtl) : rdB (wr0 s f v) g = rdB s g := by
    rw [rdB, rdB, wr0, rd_wr_reg _ _ _ _ _ _ _ _ _ _ (.inl (by rw [hf, hg]; decide))]
  rw [altActive, altActive, cutOn, cutOn, hfield _ rfl, hfield _ rfl]
  rfl

/-- Writing a budget leaves every other register. -/
theorem getR_wr0_budget (s : State) (f : Fld) (v : Nat) (hf : f.reg = .lgBudget) (n : RegName) (i j l : Nat) (h : n ≠ .lgBudget) :
    getR (wr0 s f v) n i j l = getR s n i j l := getR_wr s f n 0 0 0 i j l v (hf ▸ h)

/-- Settles O27: the rows by what they carry out, the targets by what they write. -/
theorem ledgerSetRows : Obligations.LedgerSetRows := by
  refine ⟨fun k p s hroutes htick => ?_, fun s p => ?_⟩
  · intro x
    refine ⟨fun hwf hlink => ?_, fun hwf hlink => ?_, fun hwf hsnap hlink => ?_, fun hwf hsnap => ?_, fun hwf => ?_⟩
    · have hrow : (decide (p.op = 0x10) && decide (p.opByte 8 ≠ 4) && decide (p.opByte 8 ≠ 5)) = true := hwf
      simp only [Bool.and_eq_true, decide_eq_true_eq] at hrow
      obtain ⟨⟨hop, -⟩, htarget⟩ := hrow
      have hquiet := isQuiet_of_target_ne htarget
      rw [exec_of_routes_now hroutes htick hwf rfl (.inl hop) hquiet (.inl hlink), packetEffect_ledgerSet hop hquiet]
    · have hrow : (decide (p.op = 0x10) && decide (p.opByte 8 = 4)) = true := hwf
      simp only [Bool.and_eq_true, decide_eq_true_eq] at hrow
      obtain ⟨hop, htarget⟩ := hrow
      have hquiet := isQuiet_of_target_ne (p := p) (by omega)
      rw [exec_of_routes_now hroutes htick hwf rfl (.inl hop) hquiet (.inl hlink), packetEffect_ledgerSet hop hquiet]
    · have hop : p.op = 0x11 := of_decide_eq_true hwf
      have hquiet := isQuiet_of_op_ne (p := p) (by omega)
      rw [exec_of_routes_now hroutes htick hwf rfl (.inr (.inl hop)) hquiet (.inl hlink), packetEffect_timeMark hop, if_pos hsnap]
    · have hop : p.op = 0x11 := of_decide_eq_true hwf
      have hquiet := isQuiet_of_op_ne (p := p) (by omega)
      have hlocal : sharedEffect p = false := by simp [sharedEffect, hop, hsnap]
      rw [exec_of_routes_now hroutes htick hwf rfl (.inr (.inl hop)) hquiet (.inr hlocal), packetEffect_timeMark hop,
        if_neg (by omega)]
    · have hop := op_of_nop hwf hroutes
      have hquiet := isQuiet_of_op_ne (p := p) (by omega)
      have hlocal : sharedEffect p = false := by simp [sharedEffect, hop]
      rw [exec_of_routes_now hroutes htick hwf rfl (.inr (.inr hop)) hquiet (.inr hlocal), packetEffect_nop hop]
  · intro v
    refine ⟨fun h => ?_, fun h hoff => ?_, fun h hon => ?_, fun h => ?_, fun h => ?_, fun h => ?_, fun h hi => ?_,
      ledgerApply_cost_outside s, ledgerApply_other s⟩
    · rw [ledgerApply_vccNormal s h]
      exact rd_wr0_coins s p F.lgBudgetVccNormal rfl (by decide)
    · have hstays : altActive (wr0 s F.lgBudgetVccAlt (Packet.coins p)) = false := (altActive_wr0_budget s _ _ rfl).trans hoff
      rw [ledgerApply_vccAlt s h, setVccAlt, hstays]
      exact rd_wr0_coins s p F.lgBudgetVccAlt rfl (by decide)
    · have hstays : altActive (wr0 s F.lgBudgetVccAlt (Packet.coins p)) = true := (altActive_wr0_budget s _ _ rfl).trans hon
      refine ⟨wr0 s F.lgBudgetVccAlt (Packet.coins p), ?_, rd_wr0_coins s p F.lgBudgetVccAlt rfl (by decide), rfl,
        getR_wr0_budget s _ _ rfl⟩
      rw [ledgerApply_vccAlt s h, setVccAlt, hstays]
      rfl
    · rw [ledgerApply_vccqNormal s h]
      exact rd_wr0_coins s p F.lgBudgetVccqNormal rfl (by decide)
    · rw [ledgerApply_vccqAlt s h]
      exact rd_wr0_coins s p F.lgBudgetVccqAlt rfl (by decide)
    · simp only [List.mem_cons, List.not_mem_nil, or_false] at h
      rcases h with h | h | h
      · rw [ledgerApply_vccNormal s h]
        exact ⟨rfl, getR_wr0_budget s _ _ rfl⟩
      · rw [ledgerApply_vccqNormal s h]
        exact ⟨rfl, getR_wr0_budget s _ _ rfl⟩
      · rw [ledgerApply_vccqAlt s h]
        exact ⟨rfl, getR_wr0_budget s _ _ rfl⟩
    · rw [ledgerApply_cost s h hi]
      refine ⟨?_, rfl, fun n i j l hother => getR_wr1_other s F.lgCostCoins (p.opByte 9) _ hother⟩
      exact (rd_wr_same s F.lgCostCoins (p.opByte 9) 0 0 _ (by decide)).trans (Nat.mod_eq_of_lt (coins_lt p))

/-! ### Quiet windows (R223, R224) -/

/-- The packet of a quiet window as it is entered: a LAUNCH_TICK of 0 is the tick of its routing (R223). -/
def quietPacket (s : State) (p : Packet) : Packet :=
  { p with launchTick := if p.launchTick = 0 then BitVec.ofNat 64 (fineTick s) else p.launchTick }

theorem quietPacket_eq_ite (s : State) (p : Packet) :
    (if p.launchTick.toNat = 0 then { p with launchTick := BitVec.ofNat 64 (fineTick s) } else p) = quietPacket s p := by
  by_cases hzero : p.launchTick = 0
  · simp [quietPacket, hzero]
  · have htick : p.launchTick.toNat ≠ 0 := fun h => hzero (BitVec.eq_of_toNat_eq h)
    rw [if_neg htick, quietPacket, if_neg hzero]

/-- A quiet window is entered when it is routed. -/
theorem carryTimed_of_quiet {s : State} {it : Item} (h : isQuiet it.pkt = true) :
    carryTimed s it = effectRun
      (sendWide (updItem s it.id (fun i => { i with pkt := quietPacket s it.pkt })) (quietPacket s it.pkt))
      { it with pkt := quietPacket s it.pkt } := by
  simp only [carryTimed, h, if_true, quietPacket_eq_ite]

theorem packetEffect_quiet {s : State} {p : Packet} (h : isQuiet p = true) :
    packetEffect s p = quietEnter s p.launchTick.toNat p.deadline.toNat := by
  have hop : p.op = 0x10 := of_decide_eq_true (Bool.and_eq_true_iff.mp h).1
  simp [packetEffect, hop, h]

/-- LEDGER_SET of a quiet window, routed to this unit while the half link is free. -/
theorem exec_ledgerSetQuiet {k : Fin 256} {p : Packet} {s : State} (hwf : (Instr.ledgerSetQuiet k p).wellFormed = true)
    (hroutes : Routes s k.val p) (hlink : linkHeld (routed s k.val p) = false) :
    let q := quietPacket (routed s k.val p) p
    exec (.ledgerSetQuiet k p) s = .next (kickFetch (endItem (quietEnter
      (sendWide (updItem (routed s k.val p) (newItem s k.val p).id (fun i => { i with pkt := q })) q)
      q.launchTick.toNat q.deadline.toNat) (newItem s k.val p).id) k.val) := by
  intro q
  have hquiet : isQuiet p = true := hwf
  have hop : p.op = 0x10 := of_decide_eq_true (Bool.and_eq_true_iff.mp hquiet).1
  have htimed : carryOut (routed s k.val p) (newItem s k.val p) = carryTimed (routed s k.val p) (newItem s k.val p) :=
    carryOut_of_timed (.inl hop)
  have hfree : linkHeld (sendWide (updItem (routed s k.val p) (newItem s k.val p).id (fun i => { i with pkt := q })) q) = false :=
    (linkHeld_congr (linkView_sendWide ..)).trans hlink
  have hquiet' : carryTimed (routed s k.val p) (newItem s k.val p) = effectRun
      (sendWide (updItem (routed s k.val p) (newItem s k.val p).id (fun i => { i with pkt := q })) q)
      { newItem s k.val p with pkt := q } := carryTimed_of_quiet hquiet
  rw [exec_of_routes hwf rfl hroutes, htimed, hquiet', effectRun_of_free (.inl hfree)]
  exact congrArg (fun y => Host.Outcome.next (kickFetch (endItem y (newItem s k.val p).id) k.val))
    (packetEffect_quiet (p := q) hquiet)

section
variable {s : State} {a n : Nat} (hlen : 0 < n) (hahead : fineTick s < a + n) (htouch : quietTouch s a (a + n) = [])
include hlen hahead htouch

/-- A window that overlaps and abuts none takes the lowest free slot. -/
theorem quietEnter_of_free {j : Nat} (hj : j < 8) (hfree : quietLive s j = false) (hlow : ∀ i, i < j → quietLive s i = true) :
    quietEnter s a n = quietBegins (quietActive s) (quietPut s j a (a + n)) := by
  have hfind : (List.range 8).find? (fun j => !quietLive s j) = some j :=
    List.find?_range_eq_some.mpr ⟨by simp [hfree], List.mem_range.mpr hj, fun i hi => by simp [hlow i hi]⟩
  rw [quietEnter, if_neg (by omega)]
  simp only [htouch, List.foldl_nil, hfind]

/-- With no free slot QUIET_FULL is set. -/
theorem quietEnter_of_full (hfull : ∀ j, j < 8 → quietLive s j = true) : quietEnter s a n = flag0 s F.lgStatusQuietFull := by
  have hfind : (List.range 8).find? (fun j => !quietLive s j) = none :=
    List.find?_eq_none.mpr fun j hj => by simp [hfull j (List.mem_range.mp hj)]
  rw [quietEnter, if_neg (by omega)]
  simp only [htouch, List.foldl_nil, hfind]

end

/-- The slot of a window holds its start, its length and VALID. -/
theorem rd_quietPut {s : State} {j a n : Nat} (ha : a < 2 ^ 64) (hn : n < 2 ^ 32) :
    rd (quietPut s j a (a + n)) F.lgQuietW0Start j = a ∧ rd (quietPut s j a (a + n)) F.lgQuietW1Length j = n
      ∧ rdB (quietPut s j a (a + n)) F.lgQuietW1Valid j = true := by
  have hsat : sat (2 ^ 32 - 1) (a + n - a) = n := by
    rw [sat]
    omega
  refine ⟨?_, ?_, rdB_flag1_same _ F.lgQuietW1Valid j rfl (by decide)⟩
  · rw [quietPut, wr1, wr1, wr1, rd_wr_reg _ _ _ _ _ _ _ _ _ _ (.inl (by decide)),
      rd_wr_reg _ _ _ _ _ _ _ _ _ _ (.inl (by decide)), rd_wr_same _ _ _ _ _ _ (by decide), Nat.mod_eq_of_lt ha]
  · rw [quietPut, wr1, wr1, rd_wr_fld _ _ _ _ _ _ _ _ _ _ (by decide), rd_wr_same _ _ _ _ _ _ (by decide), hsat,
      Nat.mod_eq_of_lt hn]

/-- A field that is written 0 reads 0. -/
theorem rdB_wr1_zero (s : State) (f : Fld) (j : Nat) (h : f.lo + f.len ≤ 64) : rdB (wr1 s f j 0) f j = false := by
  have hzero : rd (wr1 s f j 0) f j = 0 := (rd_wr_same s f j 0 0 0 h).trans (Nat.zero_mod _)
  simp [rdB, hzero]

/-- Settles O28: the row, the slot that a window takes, and the window's end and start. -/
theorem quietWindowsRow : Obligations.QuietWindowsRow := by
  refine ⟨fun k p s hwf hroutes hlink => ⟨quietPacket (routed s k.val p) p, rfl, exec_ledgerSetQuiet hwf hroutes hlink⟩,
    fun s a n => ⟨fun hnone => by rw [quietEnter, if_pos hnone], fun hlen hahead htouch => ⟨fun j hj hfree hlow ha hn =>
      ⟨quietEnter_of_free hlen hahead htouch hj hfree hlow, rd_quietPut ha hn⟩, quietEnter_of_full hlen hahead htouch⟩⟩,
    fun j s s1 hvalid hreach => ⟨?_, rdB_wr1_zero s1 F.lgQuietW1Valid j.val (by decide)⟩,
    fun j s s1 hvalid hreach hholds => ?_⟩
  · show execQuietWindowEnd j s = _
    simp [execQuietWindowEnd, hvalid, hreach]
  · show execQuietWindowStart j s = _
    simp [execQuietWindowStart, hvalid, hreach, hholds]

end Sys2Proof.Machine
end

section
/-! FENCE (R57, R74–R76), CALIBRATE (R455), and items that are forwarded or wait for their tick (R77, R78, R236). -/

namespace Sys2Proof.Machine

/-! ### FENCE (R74–R76) -/

theorem carryOut_of_fence {s : State} {it : Item} (h : it.pkt.op = 0x12) : carryOut s it = fenceBegin s it := by
  simp [carryOut, Packet.usesQueue, lunAction, opQueue, h]

/-- The items in the scope of the FENCE of an item (R74). -/
def fenceMine (s : State) (it : Item) : List Item :=
  s.items.filter (fun i => i.id ≠ it.id && inScope s (it.pkt.opByte 8) (ringKey it.origin) it.teller i)

/-- The FENCE of an item, as it takes effect (R74). -/
def fenceOf (s : State) (it : Item) : FenceRun :=
  { item := it.id, scope := it.pkt.opByte 8, pair := ringKey it.origin, teller := it.teller,
    waits := (fenceMine s it).map (fun i => i.id)
      ++ (s.hold.filter (heldInScope s (it.pkt.opByte 8) (ringKey it.origin) it.teller)).map (fun h => h.item) }

/-- The state in which the FENCE is in effect, before it aborts. -/
def fenceInEffect (s : State) (it : Item) : State :=
  { updItem s it.id (fun i => { i with stage := .fence }) with fences := s.fences ++ [fenceOf s it] }

/-- A FENCE of a scope above 2 ends at once. -/
theorem fenceBegin_of_no_scope {s : State} {it : Item} (h : 2 < it.pkt.opByte 8) : fenceBegin s it = endItem s it.id := by
  rw [fenceBegin, if_pos h]

section
variable {s : State} {it : Item} (hscope : it.pkt.opByte 8 ≤ 2)
include hscope

/-- A FENCE without abort waits. -/
theorem fenceBegin_of_wait (h : it.pkt.opByte 9 % 2 = 0) : fenceBegin s it = endFences (fenceInEffect s it) := by
  rw [fenceBegin, if_neg (Nat.not_lt.mpr hscope)]
  simp only [h, Nat.zero_ne_one, if_false]
  rfl

/-- A FENCE with abort ends every item of its scope that has not launched and not begun (R76). -/
theorem fenceBegin_of_abort (h : it.pkt.opByte 9 % 2 = 1) : fenceBegin s it
    = endFences (((fenceMine s it).filter (aborts s)).foldl (fun s i => abortItem s i.id) (fenceInEffect s it)) := by
  rw [fenceBegin, if_neg (Nat.not_lt.mpr hscope)]
  simp only [h, if_true]
  rfl

end

/-- No FENCE lies in the scope of a FENCE. -/
theorem op_ne_of_inScope {s : State} {scope key t : Nat} {x : Item} (h : inScope s scope key t x = true) : x.pkt.op ≠ 0x12 := by
  simp only [inScope, Bool.and_eq_true, decide_eq_true_eq] at h
  exact h.1.1

/-- An item of a host ring or of another unit that is no FENCE lies in a scope by its ring, by its teller, or always. -/
theorem inScope_of_origin {s : State} {scope key t : Nat} {x : Item}
    (horigin : (∃ o, x.origin = .host o ∨ ∃ h, x.origin = .fwd o h)) (hop : x.pkt.op ≠ 0x12)
    (hscope : scope = 0 ∧ ringKey x.origin = key ∨ scope = 1 ∧ atTeller s t x = true ∨ scope = 2) :
    inScope s scope key t x = true := by
  rcases hscope with ⟨rfl, rfl⟩ | ⟨rfl, hteller⟩ | rfl
  · obtain ⟨o, ho | ⟨h, ho⟩⟩ := horigin <;> simp [inScope, hop, ho]
  · obtain ⟨o, ho | ⟨h, ho⟩⟩ := horigin <;> simp [inScope, hop, ho, hteller]
  · obtain ⟨o, ho | ⟨h, ho⟩⟩ := horigin <;> simp [inScope, hop, ho]

theorem fenced_of_covers {s : State} {it : Item} {key t : Nat} (h : (fenceOf s it).covers key t = true) :
    fenced (fenceInEffect s it) key t = true :=
  List.any_eq_true.mpr ⟨fenceOf s it, List.mem_append_right _ (List.mem_singleton_self _), h⟩

/-- What waits with a teller, in a LUN queue, for its tick or for HK0 or HK1, and has not launched, is aborted (R76). -/
theorem aborts_of_waiting {s : State} {i : Item} (hlaunched : i.launched = false) (horigin : ∀ o h, i.origin ≠ .fwd o h)
    (hstage : i.stage ∈ [Stage.waitStore, .queued, .timed, .waitHk]) : aborts s i = true := by
  simp only [List.mem_cons, List.not_mem_nil, or_false] at hstage
  cases ho : i.origin with
  | fwd o h => exact absurd ho (horigin o h)
  | _ => rcases hstage with hs | hs | hs | hs <;> simp [aborts, hlaunched, ho, hs]

/-- An item that another unit forwarded here is not aborted (R76). -/
theorem aborts_of_forwarded {s : State} {i : Item} {o h : Nat} (horigin : i.origin = .fwd o h) : aborts s i = false := by
  simp [aborts, horigin]

/-- Settles O29: the row, what the FENCE waits for, what it stops, and what it aborts. -/
theorem fenceRow : Obligations.FenceRow := by
  refine ⟨fun k p s hwf hroutes => ?_, fun s it => fenceBegin_of_no_scope, fun s it hscope => ⟨fenceOf s it, rfl, rfl, rfl, rfl,
      fun x hx hid horigin hop hin => ?_, fun h hh hin => ?_, fun x => op_ne_of_inScope, fun key t => fenced_of_covers,
      fenceBegin_of_wait hscope, fenceBegin_of_abort hscope⟩,
    fun s i => aborts_of_waiting, fun s i o h => aborts_of_forwarded, fun s id => ⟨_, rfl, rfl, rfl⟩, fun s k => mayRoute_of_fenced⟩
  · have hfence : carryOut (routed s k.val p) (newItem s k.val p) = fenceBegin (routed s k.val p) (newItem s k.val p) :=
      carryOut_of_fence (of_decide_eq_true hwf)
    rw [exec_of_routes hwf rfl hroutes, hfence]
  · have hscoped : inScope s (it.pkt.opByte 8) (ringKey it.origin) it.teller x = true := inScope_of_origin horigin hop hin
    have hmine : x ∈ fenceMine s it := List.mem_filter.mpr ⟨hx, by simp [hid, hscoped]⟩
    exact List.mem_append_left _ (List.mem_map_of_mem hmine)
  · exact List.mem_append_right _ (List.mem_map_of_mem (List.mem_filter.mpr ⟨hh, hin⟩))

/-! ### CALIBRATE (R455) -/

/-- HK1 carries out a CALIBRATE, or, stopped, leaves it waiting (R351). -/
theorem carryOut_of_calibrate {s : State} {it : Item} (h : it.pkt.op = 0x14) :
    carryOut s it = if engRunning s 14 1 then calBegin s it else updItem s it.id (fun i => { i with stage := .waitHk }) := by
  simp [carryOut, Packet.usesQueue, lunAction, opQueue, hkBegin, hkOf, h]

/-- The packets of the four rows of CALIBRATE. -/
theorem op_of_calibrateRow {c : Instr} {k : Fin 256} {p : Packet}
    (h : c ∈ [.calibrateRun k p, .calibrateRunForced k p, .calibrateRebase k p, .calibrateApply k p]) (hwf : c.wellFormed = true) :
    packetOf c = some (k, p) ∧ p.op = 0x14 := by
  have hrow (b : Bool) (hb : (decide (p.op = 0x14) && b) = true) : p.op = 0x14 :=
    of_decide_eq_true (Bool.and_eq_true_iff.mp hb).1
  simp only [List.mem_cons, List.not_mem_nil, or_false] at h
  rcases h with rfl | rfl | rfl | rfl <;> exact ⟨rfl, hrow _ hwf⟩

/-- A CALIBRATE of an unpowered group ends CHANNEL_FENCED. -/
theorem calBegin_of_unpowered {s : State} {it : Item} (h : domUp s (dCg (it.pkt.channel.toNat / 4)) = false) :
    calBegin s it = endWith s it.id .channelFenced := by
  rw [calBegin, if_pos (by simp [h])]

/-- RUN, RUN_FORCED and APPLY of a group with no trained channel end CHANNEL_FENCED. -/
theorem calBegin_of_untrained {s : State} {it : Item} (hact : it.pkt.opByte 8 ∈ [0, 1, 3])
    (h : (chansOf (it.pkt.channel.toNat / 4)).any (trained s) = false) : calBegin s it = endWith s it.id .channelFenced := by
  simp only [List.mem_cons, List.not_mem_nil, or_false] at hact
  simp only [calBegin, h]
  split
  · rfl
  · rw [if_pos ⟨hact, by simp⟩]

/-- Of a powered group, a CALIBRATE whose action needs a trained channel only if there is one is not fenced. -/
theorem calBegin_not_fenced {s : State} {it : Item} (hup : domUp s (dCg (it.pkt.channel.toNat / 4)) = true)
    (htrained : it.pkt.opByte 8 ∈ [0, 1, 3] → (chansOf (it.pkt.channel.toNat / 4)).any (trained s) = true) :
    ¬(¬ domUp s (dCg (it.pkt.channel.toNat / 4)) = true)
      ∧ ¬((it.pkt.opByte 8 = 0 ∨ it.pkt.opByte 8 = 1 ∨ it.pkt.opByte 8 = 3)
          ∧ ¬ (chansOf (it.pkt.channel.toNat / 4)).any (trained s) = true) :=
  ⟨not_not_intro hup, fun h => h.2 (htrained (by simpa using h.1))⟩

/-- Settles O32: the rows, the group's power and training, and the actions one by one. -/
theorem calibrateRows : Obligations.CalibrateRows := by
  refine ⟨fun c k p s hrow hwf hroutes => ?_, fun s it => ?_⟩
  · obtain ⟨hpacket, hop⟩ := op_of_calibrateRow hrow hwf
    have hcarry : carryOut (routed s k.val p) (newItem s k.val p) = if engRunning (routed s k.val p) 14 1
        then calBegin (routed s k.val p) (newItem s k.val p)
        else updItem (routed s k.val p) (newItem s k.val p).id (fun i => { i with stage := .waitHk }) := carryOut_of_calibrate hop
    rw [exec_of_routes hwf hpacket hroutes, hcarry]
  · intro g y ordered joins
    refine ⟨calBegin_of_unpowered, calBegin_of_untrained, fun hup htrained => ?_, fun hup hact => ⟨?_, ?_⟩, fun hup hact => ?_⟩
    · obtain ⟨hpower, hready⟩ := calBegin_not_fenced hup fun _ => htrained
      rw [calBegin, if_neg hpower, if_neg hready]
      refine ⟨fun hact => ?_, fun hact => ?_, fun hact hnone => ?_, fun hact hsome => ?_⟩
      · simp only [hact]
        rfl
      · simp only [hact]
        rfl
      · simp only [hact]
        exact if_pos (List.isEmpty_iff.mpr hnone)
      · simp only [hact]
        exact if_neg (fun h => hsome (List.isEmpty_iff.mp h))
    · obtain ⟨hpower, hready⟩ := calBegin_not_fenced hup fun h => absurd h (by simp [hact])
      rw [calBegin, if_neg hpower, if_neg hready]
      simp only [hact]
      rfl
    · exact (rd_wr_same y F.calGrpStatusRefTemp g 0 0 _ (by decide)).trans (Nat.mod_eq_of_lt (fget_lt _ _ _))
    · obtain ⟨n, hn⟩ : ∃ n, it.pkt.opByte 8 = n + 4 := ⟨it.pkt.opByte 8 - 4, by omega⟩
      obtain ⟨hpower, hready⟩ := calBegin_not_fenced hup fun h => absurd h (by simp [hn])
      rw [calBegin, if_neg hpower, if_neg hready]
      simp only [hn]
      rfl

/-! ### Forwarded items and items that wait for their tick (R77, R78, R236) -/

/-- Counting an item and setting its stage change nothing that the ring port goes by. -/
theorem ringLive_tally_updItem (s : State) (id src : Nat) (f : Item → Item) : ringLive (tally (updItem s id f) src) = ringLive s := by
  have hfield (g : Fld) (i j : Nat) (hval : g.reg ≠ .tallyVal) (hcfg : g.reg ≠ .tallyCfg) :
      rd (tally (updItem s id f) src) g i j = rd s g i j := rd_tally _ _ g i j 0 hval hcfg
  have hruns : engRunning (tally (updItem s id f) src) 14 3 = engRunning s 14 3 :=
    congrArg (fun n => decide (n = 1)) (hfield F.mcEngState 14 3 (by decide) (by decide))
  have hstate : xrState (tally (updItem s id f) src) = xrState s := hfield F.xrStatusState 0 0 (by decide) (by decide)
  rw [ringLive, ringLive, ringOn, ringOn, hk3Up, hk3Up, domUp, domUp, hruns, hstate, tally_power, updItem_power]

theorem xrPresent_tally_updItem (s : State) (id src d : Nat) (f : Item → Item) :
    xrPresent (tally (updItem s id f) src) d = xrPresent s d :=
  congrArg (fun n => bitOf n d) (rd_tally _ _ F.xrStatusPresent 0 0 0 (by decide) (by decide))

/-- Settles O35: forwarding by the ring and the present map, and an item's tick by what the time base can reach. -/
theorem forwardedPacketsAndTimedItems : Obligations.ForwardedPacketsAndTimedItems := by
  refine ⟨fun s it hforward hunit hother => ⟨dispatch_of_elsewhere hforward hunit hother, ?_⟩,
    fun id s it hfind hstage hup => ⟨fun s1 hreach => ?_, fun hreach => ?_⟩⟩
  · intro d y
    have hlive : ringLive y = ringLive s := ringLive_tally_updItem ..
    have hpresent : xrPresent y d = xrPresent s d := xrPresent_tally_updItem ..
    refine ⟨fun hring hunitPresent => ?_, fun hgone => ?_⟩
    · exact if_pos ⟨hlive.trans hring, hpresent.trans hunitPresent⟩
    · refine if_neg fun ⟨hring, hunitPresent⟩ => ?_
      rcases hgone with h | h
      · exact Bool.false_ne_true (h.symm.trans (hlive.symm.trans hring))
      · exact Bool.false_ne_true (h.symm.trans (hpresent.symm.trans hunitPresent))
  · show execTickEffect id s = _
    simp [execTickEffect, hfind, hstage, hup, hreach]
  · show execTickEffect id s = _
    simp [execTickEffect, hfind, hstage, hup, hreach]

end Sys2Proof.Machine
end

section
/-! Writes of a 32-bit register outside the shared regions, in the low lanes of its group (R7, R19, R376), and RAND_KEY (R93). -/

namespace Sys2Proof.Machine

/-! ### The rows -/

/-- A row that writes such a register, when its access is taken, answers it and lets the register's front end write. -/
theorem writeRow_local_of_takes {a : Acc} {r : Reg} {v : W64} {s : State} (h : Takes s (accessOf a r true v))
    (hat : regAt (regAddr r) = some r) (hnarrow : r.name.row.wide = false) (hlow : regAddr r % 8 = 0)
    (hfits : regAddr r < 2 ^ 24) (hlocal : inShared (regAddr r) = false) :
    writeRow a r v true s = .next (localWrite (answered s a r v) (whole r v) a.ring.toNat) := by
  rw [writeRow_of_takes h hat hnarrow hlow hfits, written, if_neg]
  exact Bool.eq_false_iff.mp hlocal

/-- After the write of a whole register, a one-bit RW field of its low half holds the value's bit. -/
theorem rdB_plain_whole (r : Reg) (v : W32) (s : State) (f : Fld) (hreg : r.name = f.reg) (hlen : f.len = 1) (hlow : f.lo < 32)
    (hset : (accMask f.reg .rw).getLsbD f.lo = true) (hkeep : (accMask f.reg .w1c).getLsbD f.lo = false) :
    rdB ((whole r (v.setWidth 64)).plain s) f r.i r.j r.k = v.getLsbD f.lo := by
  have hbit : ((whole r (v.setWidth 64)).next s).getLsbD f.lo = v.getLsbD f.lo := by
    rw [RegWrite.getLsbD_next _ _ (by omega), getLsbD_mask_whole _ _ hlow, show (whole r (v.setWidth 64)).reg.name = f.reg from hreg,
      hset, hkeep, show (whole r (v.setWidth 64)).val = v.setWidth 64 from rfl, BitVec.getLsbD_setWidth, decide_eq_true (by omega)]
    simp
  have hrd : rd ((whole r (v.setWidth 64)).plain s) f r.i r.j r.k = (v.getLsbD f.lo).toNat := by
    rw [show rd _ f r.i r.j r.k = _ from rd_plain (whole r (v.setWidth 64)) s f hreg, RegWrite.get, hlen, fget_one, hbit]
  rw [rdB, hrd]
  cases v.getLsbD f.lo <;> rfl

/-! ### RAND_KEY (R93) -/

/-- A write of RAND_KEY that is taken is the write of R93. -/
theorem execRandKeyWrite_of_takes {a : Acc} {v : W32} {s : State} (h : Takes s (accessOf a (reg0 .randKey) true (v.setWidth 64))) :
    exec (.randKeyWrite a v) s
      = .next (writeKey (answered s a (reg0 .randKey) (v.setWidth 64)) (whole (reg0 .randKey) (v.setWidth 64))) :=
  (show exec (.randKeyWrite a v) s = writeRow a (reg0 .randKey) (v.setWidth 64) true s from rfl).trans
    (writeRow_local_of_takes h (by decide +kernel) rfl rfl (by decide) (by decide))

/-- The key is taken while no channel of a powered group counts as enabled. -/
theorem writeKey_of_none_enabled {s : State} (w : RegWrite)
    (h : ∀ ch, ch < 48 → domUp s (dCg (ch / 4)) = true → countsEnabled s ch = false) : writeKey s w = w.plain s := by
  rw [writeKey, if_neg]
  simp only [List.any_eq_true, List.mem_range, Bool.and_eq_true]
  rintro ⟨ch, hch, hup, hon⟩
  exact Bool.false_ne_true ((h ch hch hup).symm.trans hon)

/-- One enabled channel keeps the key. -/
theorem writeKey_of_enabled {s : State} (w : RegWrite) {ch : Nat} (hch : ch < 48) (hup : domUp s (dCg (ch / 4)) = true)
    (hon : countsEnabled s ch = true) : writeKey s w = s := by
  rw [writeKey, if_pos]
  exact List.any_eq_true.mpr ⟨ch, List.mem_range.mpr hch, Bool.and_eq_true_iff.mpr ⟨hup, hon⟩⟩

/-- KEY after a plain write of the whole register. -/
theorem rd_randKey_plain (v : W32) (s : State) :
    rd ((whole (reg0 .randKey) (v.setWidth 64)).plain s) F.randKeyKey = v.toNat := by
  have hrw : ∀ b, b < 32 → (accMask .randKey .rw).getLsbD b = true ∧ (accMask .randKey .w1c).getLsbD b = false := by
    decide +kernel
  have hget := get_whole_rw (reg0 .randKey) v s F.randKeyKey (by decide) fun b _ hb => hrw b hb
  rw [show rd _ F.randKeyKey = _ from rd_plain (whole (reg0 .randKey) (v.setWidth 64)) s F.randKeyKey rfl, hget, Nat.pow_zero,
    Nat.div_one, Nat.mod_eq_of_lt v.isLt]

/-- Settles O37: the write is plain, or changes nothing, by the channels that count as enabled. -/
theorem randKeyTakenOnlyWithNoChannelEnabled : Obligations.RandKeyTakenOnlyWithNoChannelEnabled := by
  intro a v s htakes s0
  have hexec := execRandKeyWrite_of_takes htakes
  refine ⟨fun hnone => ⟨(whole (reg0 .randKey) (v.setWidth 64)).plain s0, ?_, rd_randKey_plain v s0, RegWrite.plain_frame _ _,
    fun n i j l hother => RegWrite.getR_plain_other _ s0 fun heq => hother ?_⟩, fun ch hch hup hon => ?_⟩
  · exact hexec.trans (congrArg Host.Outcome.next (writeKey_of_none_enabled (s := s0) _ hnone))
  · obtain ⟨rfl, rfl, rfl, rfl⟩ := Reg.mk.inj heq
    exact ⟨rfl, rfl, rfl, rfl⟩
  · exact hexec.trans (congrArg Host.Outcome.next (writeKey_of_enabled (s := s0) _ hch hup hon))

end Sys2Proof.Machine
end

section
/-! Decode engines and their jobs (R132–R136): DE_CTL and DEC_CTL, the end of a drain, a fault, a claim. -/

namespace Sys2Proof.Machine

/-! ### DE_CTL (R135) -/

/-- A write of DE_CTL that is taken is the write of R135. -/
theorem execDeCtlWrite_of_takes {a : Acc} {e : Fin 40} {v : W32} {s : State}
    (h : Takes s (accessOf a (reg1 .deCtl e.val) true (v.setWidth 64))) :
    exec (.deCtlWrite a e v) s = .next (writeEngine (answered s a (reg1 .deCtl e.val) (v.setWidth 64))
      (whole (reg1 .deCtl e.val) (v.setWidth 64))) := by
  have hat : ∀ e : Fin 40, regAt (regAddr (reg1 .deCtl e.val)) = some (reg1 .deCtl e.val) ∧ regAddr (reg1 .deCtl e.val) % 8 = 0
      ∧ regAddr (reg1 .deCtl e.val) < 2 ^ 24 ∧ inShared (regAddr (reg1 .deCtl e.val)) = false := by decide +kernel
  obtain ⟨hreg, hlow, hfits, hlocal⟩ := hat e
  exact (show exec (.deCtlWrite a e v) s = writeRow a (reg1 .deCtl e.val) (v.setWidth 64) true s from rfl).trans
    (writeRow_local_of_takes h hreg rfl hlow hfits hlocal)

/-- STATE and PENDING of DE_CTL are not written by the host (R7). -/
theorem rd_deCtl_plain (e : Nat) (v : W64) (s : State) (f : Fld) (hf : f ∈ [F.deCtlState, F.deCtlPending]) :
    rd ((whole (reg1 .deCtl e) v).plain s) f e = rd s f e := by
  have hro : ∀ b, b < 8 → 4 ≤ b → (accMask .deCtl .rw).getLsbD b = false ∧ (accMask .deCtl .w1c).getLsbD b = false := by
    decide +kernel
  have hbits : 4 ≤ f.lo ∧ f.lo + f.len ≤ 8 := by fin_cases hf <;> decide
  exact RegWrite.rd_plain_readOnly _ s f e 0 0 (by omega) fun b hb hb' => hro b (by omega) (by omega)

/-- Turning an engine on changes STATE and PENDING alone. -/
theorem engineOn_frame (s : State) (e : Nat) : engineOn s e = { s with regs := (engineOn s e).regs } := by
  rw [engineOn]
  split <;> rfl

theorem rdB_engineOn_other (s : State) (e : Nat) (f : Fld) (hf : f.lo + f.len ≤ 4) : rdB (engineOn s e) f e = rdB s f e := by
  have hrd : rd (engineOn s e) f e = rd s f e := by
    rw [engineOn]
    split
    · exact rd_wr_fld _ _ _ _ _ _ _ _ _ _ (.inl hf)
    · exact rd_wr_fld _ _ _ _ _ _ _ _ _ _ (.inl (hf.trans (by decide)))
    · rfl
  rw [rdB, hrd, rdB]

/-- Turning an engine off changes STATE and PENDING alone. -/
theorem engineOff_frame (s : State) (e : Nat) : engineOff s e = { s with regs := (engineOff s e).regs } := by
  rw [engineOff]
  split <;> rfl

theorem rdB_engineOff_other (s : State) (e : Nat) (f : Fld) (hf : f.lo + f.len ≤ 4) : rdB (engineOff s e) f e = rdB s f e := by
  have hpending : rd (wr1 s F.deCtlPending e 0) f e = rd s f e := rd_wr_fld _ _ _ _ _ _ _ _ _ _ (.inl (hf.trans (by decide)))
  have hrd : rd (engineOff s e) f e = rd s f e := by
    rw [engineOff]
    split
    · exact (rd_wr_fld _ _ _ _ _ _ _ _ _ _ (.inl hf)).trans hpending
    · exact hpending
  rw [rdB, hrd, rdB]

/-- A READY engine is turned on at once. -/
theorem rd_state_engineOn_of_ready {s : State} {e : Nat} (h : rd s F.deCtlState e = 2) : rd (engineOn s e) F.deCtlState e = 3 := by
  rw [engineOn, h]
  exact rd_wr_same _ _ _ _ _ _ (by decide)

/-- A draining engine goes on draining, and is to be turned on after it. -/
theorem engineOn_of_draining {s : State} {e : Nat} (h : rd s F.deCtlState e = 1) :
    rd (engineOn s e) F.deCtlState e = 1 ∧ rdB (engineOn s e) F.deCtlPending e = true := by
  rw [engineOn, h]
  exact ⟨(rd_wr_fld _ _ _ _ _ _ _ _ _ _ (.inl (by decide))).trans h, rdB_flag1_same s F.deCtlPending e rfl (by decide)⟩

/-- An engine that is turned off is not to be turned on after its drain. -/
theorem rdB_pending_engineOff (s : State) (e : Nat) : rdB (engineOff s e) F.deCtlPending e = false := by
  have hzero : rdB (wr1 s F.deCtlPending e 0) F.deCtlPending e = false := rdB_wr1_zero s F.deCtlPending e (by decide)
  rw [engineOff]
  split
  · rw [rdB, wr1, rd_wr_fld _ _ _ _ _ _ _ _ _ _ (.inr (by decide))]
    exact hzero
  · exact hzero

/-- An engine has a job just when the table lists one. -/
theorem any_engines_eq (s : State) (e : Nat) : s.engines.any (fun x => x.1 = e) = (engineJob s e).isSome := by
  rw [engineJob, Option.isSome_map, Bool.eq_iff_iff, List.any_eq_true, List.find?_isSome]

/-- An ENABLED engine that is turned off drains while it has a job. -/
theorem rd_state_engineOff_of_enabled {s : State} {e : Nat} (h : rd s F.deCtlState e = 3) :
    rd (engineOff s e) F.deCtlState e = if (engineJob s e).isSome then 1 else 2 := by
  rw [engineOff, if_pos h, any_engines_eq, wr1, rd_wr_same _ _ _ _ _ _ (by decide)]
  split <;> rfl

/-- Turning off leaves the STATE of any other engine. -/
theorem rd_state_engineOff_of_other {s : State} {e : Nat} (h : rd s F.deCtlState e ≠ 3) :
    rd (engineOff s e) F.deCtlState e = rd s F.deCtlState e := by
  rw [engineOff, if_neg h]
  exact rd_wr_fld _ _ _ _ _ _ _ _ _ _ (.inl (by decide))

/-- What the bits of the value do: ENABLE 1 with FENCE 0 turns the engine on, any other value turns it off (R135). -/
theorem writeEngine_whole (e : Nat) (v : W32) (s : State) :
    let w := whole (reg1 .deCtl e) (v.setWidth 64)
    rdB (w.plain s) F.deCtlEnable e = v.getLsbD 0 ∧ rdB (w.plain s) F.deCtlFence e = v.getLsbD 1
    ∧ writeEngine s w = if v.getLsbD 0 && !v.getLsbD 1 then engineOn (w.plain s) e else engineOff (w.plain s) e := by
  intro w
  have henable : rdB (w.plain s) F.deCtlEnable e = v.getLsbD 0 :=
    rdB_plain_whole (reg1 .deCtl e) v s F.deCtlEnable rfl rfl (by decide) (by decide +kernel) (by decide +kernel)
  have hfence : rdB (w.plain s) F.deCtlFence e = v.getLsbD 1 :=
    rdB_plain_whole (reg1 .deCtl e) v s F.deCtlFence rfl rfl (by decide) (by decide +kernel) (by decide +kernel)
  refine ⟨henable, hfence, ?_⟩
  rw [← henable, ← hfence]
  rfl

/-- DE_CTL after a write that is taken, by what the value turns the engine to (R135). -/
theorem execDeCtlWrite_spec {a : Acc} {e : Fin 40} {v : W32} {s : State}
    (htakes : Takes s (accessOf a (reg1 .deCtl e.val) true (v.setWidth 64))) :
    let y := (whole (reg1 .deCtl e.val) (v.setWidth 64)).plain (answered s a (reg1 .deCtl e.val) (v.setWidth 64))
    let on := v.getLsbD 0 && !v.getLsbD 1
    ∃ x, exec (.deCtlWrite a e v) s = .next x ∧ x = { y with regs := x.regs }
      ∧ rdB x F.deCtlEnable e.val = v.getLsbD 0 ∧ rdB x F.deCtlFence e.val = v.getLsbD 1
      ∧ (on = true → rd s F.deCtlState e.val = 2 → rd x F.deCtlState e.val = 3)
      ∧ (on = true → rd s F.deCtlState e.val = 1 → rd x F.deCtlState e.val = 1 ∧ rdB x F.deCtlPending e.val = true)
      ∧ (on = false → rdB x F.deCtlPending e.val = false
        ∧ (rd s F.deCtlState e.val = 3 → rd x F.deCtlState e.val = (if (engineJob s e.val).isSome then 1 else 2))
        ∧ (rd s F.deCtlState e.val ≠ 3 → rd x F.deCtlState e.val = rd s F.deCtlState e.val)) := by
  intro y on
  obtain ⟨henable, hfence, hwrite⟩ := writeEngine_whole e.val v (answered s a (reg1 .deCtl e.val) (v.setWidth 64))
  have hstate : rd y F.deCtlState e.val = rd s F.deCtlState e.val := rd_deCtl_plain e.val _ _ _ (by decide)
  have hexec : exec (.deCtlWrite a e v) s = .next (if on then engineOn y e.val else engineOff y e.val) :=
    (execDeCtlWrite_of_takes htakes).trans (congrArg Host.Outcome.next hwrite)
  cases hon : on with
  | true =>
    refine ⟨engineOn y e.val, by rw [hexec, hon, if_pos rfl], engineOn_frame y e.val, ?_, ?_,
      fun _ hready => rd_state_engineOn_of_ready (hstate.trans hready),
      fun _ hdrains => engineOn_of_draining (hstate.trans hdrains), nofun⟩
    · exact (rdB_engineOn_other y e.val F.deCtlEnable (by decide)).trans henable
    · exact (rdB_engineOn_other y e.val F.deCtlFence (by decide)).trans hfence
  | false =>
    refine ⟨engineOff y e.val, by rw [hexec, hon]; rfl, engineOff_frame y e.val, ?_, ?_, nofun, nofun,
      fun _ => ⟨rdB_pending_engineOff y e.val, fun henabled => rd_state_engineOff_of_enabled (hstate.trans henabled),
        fun hother => (rd_state_engineOff_of_other fun h => hother (hstate.symm.trans h)).trans hstate⟩⟩
    · exact (rdB_engineOff_other y e.val F.deCtlEnable (by decide)).trans henable
    · exact (rdB_engineOff_other y e.val F.deCtlFence (by decide)).trans hfence

/-! ### DEC_CTL (R132, R135) -/

/-- A write of DEC_CTL that is taken is plain. -/
theorem execPoolFenceWrite_of_takes {a : Acc} {v : W32} {s : State} (h : Takes s (accessOf a (reg0 .decCtl) true (v.setWidth 64))) :
    exec (.poolFenceWrite a v) s
      = .next ((whole (reg0 .decCtl) (v.setWidth 64)).plain (answered s a (reg0 .decCtl) (v.setWidth 64))) :=
  (show exec (.poolFenceWrite a v) s = writeRow a (reg0 .decCtl) (v.setWidth 64) true s from rfl).trans
    (writeRow_local_of_takes h (by decide +kernel) rfl rfl (by decide) (by decide))

/-- DEC_CTL after a write that is taken: the two fences are the value's bits, and nothing else changes. -/
theorem execPoolFenceWrite_spec {a : Acc} {v : W32} {s : State} (htakes : Takes s (accessOf a (reg0 .decCtl) true (v.setWidth 64))) :
    ∃ x, exec (.poolFenceWrite a v) s = .next x ∧ poolFenced x 0 = v.getLsbD 0 ∧ poolFenced x 1 = v.getLsbD 1
      ∧ x = { answered s a (reg0 .decCtl) (v.setWidth 64) with regs := x.regs }
      ∧ ∀ n i j l, n ≠ .decCtl → getR x n i j l = getR s n i j l := by
  have hfence (f : Fld) (hf : f ∈ [F.decCtlPoolAFence, F.decCtlPoolBFence]) (t : State) :
      rdB ((whole (reg0 .decCtl) (v.setWidth 64)).plain t) f = v.getLsbD f.lo := by
    have hbits : f.reg = .decCtl ∧ f.len = 1 ∧ f.lo < 32 ∧ (accMask .decCtl .rw).getLsbD f.lo = true
        ∧ (accMask .decCtl .w1c).getLsbD f.lo = false := by fin_cases hf <;> decide +kernel
    obtain ⟨hreg, hlen, hlow, hset, hkeep⟩ := hbits
    exact rdB_plain_whole (reg0 .decCtl) v t f hreg.symm hlen hlow (hreg ▸ hset) (hreg ▸ hkeep)
  exact ⟨_, execPoolFenceWrite_of_takes htakes, hfence F.decCtlPoolAFence (by decide) _, hfence F.decCtlPoolBFence (by decide) _,
    RegWrite.plain_frame _ _, fun n i j l hother => RegWrite.getR_plain_other _ _ fun heq => hother (Reg.mk.inj heq).1⟩

/-! ### What counting an event leaves -/

/-- Counting an event, with its qualifier and its weight, changes registers alone. -/
theorem tallyQ_frame (s : State) (src : Nat) (q : Option (Nat × Nat)) (w : Option Nat) :
    tallyQ s src q w = { s with regs := (tallyQ s src q w).regs } := by
  rw [tallyQ]
  refine List.foldlRecOn (motive := fun t : State => t = { s with regs := t.regs }) _ _ rfl fun t ht i _ => ?_
  split
  · rw [tallyAdd_frame, ht]
  · exact ht

@[simp] theorem tally_engines (s : State) (src : Nat) : (tally s src).engines = s.engines := by rw [tally_frame]
@[simp] theorem tally_jobs (s : State) (src : Nat) : (tally s src).jobs = s.jobs := by rw [tally_frame]
@[simp] theorem tallyC_items (s : State) (src cls : Nat) : (tallyC s src cls).items = s.items := by rw [tallyC, tallyQ_frame]
@[simp] theorem tallyCW_items (s : State) (src cls w : Nat) : (tallyCW s src cls w).items = s.items := by rw [tallyCW, tallyQ_frame]
@[simp] theorem tallyCW_engines (s : State) (src cls w : Nat) : (tallyCW s src cls w).engines = s.engines := by
  rw [tallyCW, tallyQ_frame]

/-! ### The job of an engine -/

theorem engineJob_congr {s t : State} (h : t.engines = s.engines) (e : Nat) : engineJob t e = engineJob s e := by
  rw [engineJob, engineJob, h]

/-- The entry of a key that has been set is the first of its key. -/
theorem Tab.find?_set {κ α : Type} [DecidableEq κ] (t : Tab κ α) (k : κ) (a : α) :
    (Tab.set t k a).find? (fun x => x.1 = k) = some (k, a) := by
  induction t with
  | nil => simp [Tab.set]
  | cons e r ih => by_cases h : e.1 = k <;> simp [Tab.set, h, ih]

/-- An engine that was taken out of the table has no job. -/
theorem engineJob_of_dropped {s t : State} {e : Nat} (h : t.engines = Tab.drop s.engines (fun k => k = e)) : engineJob t e = none := by
  have hnone : t.engines.find? (fun x => x.1 = e) = none := by
    rw [h, List.find?_eq_none]
    intro x hx
    have hkept := (List.mem_filter.mp hx).2
    simpa using hkept
  rw [engineJob, hnone, Option.map_none]

/-- A claim takes the job out of the jobs and into the engine (R132). -/
theorem claimJob_spec (s : State) (e : Nat) (j : Job) :
    engineJob (claimJob s e j) e = some j ∧ (claimJob s e j).jobs = s.jobs.erase j := by
  have hset : engineJob { s with jobs := s.jobs.erase j, engines := Tab.set s.engines e j } e = some j := by
    rw [engineJob, Tab.find?_set, Option.map_some]
  rw [claimJob]
  split
  · exact ⟨hset, rfl⟩
  · exact ⟨(engineJob_congr (tally_engines ..) e).trans hset, tally_jobs ..⟩

/-- Ending its job frees an engine. -/
theorem engineJob_releaseEngine (s : State) (e : Nat) (j : Job) (n : Nat) : engineJob (releaseEngine s e j n) e = none :=
  engineJob_of_dropped (tallyCW_engines ..)

/-! ### A drain ends, and a fault (R135, R136) -/

/-- The state in which the drain of an engine has ended: READY, or ENABLED if an enable was waiting (R135). -/
def drainEnds (s : State) (e : Nat) : State :=
  if rdB s F.deCtlPending e then wr1 (wr1 s F.deCtlPending e 0) F.deCtlState e 3 else wr1 s F.deCtlState e 2

theorem drainEnds_spec (s : State) (e : Nat) : drainEnds s e = { s with regs := (drainEnds s e).regs }
    ∧ rdB (drainEnds s e) F.deCtlPending e = false
    ∧ rd (drainEnds s e) F.deCtlState e = if rdB s F.deCtlPending e then 3 else 2 := by
  have hkeeps (t : State) (v : Nat) : rdB (wr1 t F.deCtlState e v) F.deCtlPending e = rdB t F.deCtlPending e := by
    rw [rdB, wr1, rd_wr_fld _ _ _ _ _ _ _ _ _ _ (.inr (by decide)), rdB]
  rw [drainEnds]
  cases hpending : rdB s F.deCtlPending e with
  | true => exact ⟨rfl, (hkeeps ..).trans (rdB_wr1_zero s F.deCtlPending e (by decide)), rd_wr_same _ _ _ _ _ _ (by decide)⟩
  | false => exact ⟨rfl, (hkeeps ..).trans hpending, rd_wr_same _ _ _ _ _ _ (by decide)⟩

/-- ENGINE_DRAIN_END of a draining engine without a job. -/
theorem execEngineDrainEnd_of_drained {e : Fin 40} {s : State} (hup : domUp s (dDp (e.val / 20)) = true)
    (hdrains : rd s F.deCtlState e.val = 1) (hjob : engineJob s e.val = none) :
    exec (.engineDrainEnd e) s = .next (drainEnds s e.val) := by
  show execEngineDrainEnd e s = _
  rw [execEngineDrainEnd, if_pos ⟨hup, hdrains, by rw [hjob]; rfl⟩, drainEnds]
  split <;> rfl

/-- The state with the job of a faulting engine back at the head of the jobs (R136). -/
def abandoned (s : State) (e : Nat) : State :=
  match engineJob s e with
  | some j => { s with jobs := j :: s.jobs, engines := Tab.drop s.engines (fun k => k = e) }
  | none => s

theorem abandoned_spec (s : State) (e : Nat) : engineJob (abandoned s e) e = none
    ∧ (∀ j, engineJob s e = some j → (abandoned s e).jobs = j :: s.jobs) ∧ (abandoned s e).items = s.items := by
  rw [abandoned]
  cases hjob : engineJob s e with
  | some j =>
    refine ⟨engineJob_of_dropped rfl, fun i hi => ?_, rfl⟩
    rw [Option.some.inj hi]
  | none => exact ⟨hjob, nofun, rfl⟩

/-- DE_CTL of an engine that has faulted (R136). -/
def faultShown (s : State) (e : Nat) : State :=
  wr1 (wr1 (wr1 (flag1 s F.deCtlFault e) F.deCtlEnable e 0) F.deCtlPending e 0) F.deCtlState e 2

theorem faultShown_spec (s : State) (e : Nat) : rd (faultShown s e) F.deCtlFault e = 1 ∧ rd (faultShown s e) F.deCtlEnable e = 0
    ∧ rd (faultShown s e) F.deCtlPending e = 0 ∧ rd (faultShown s e) F.deCtlState e = 2 := by
  simp [faultShown, flag1, wr1, wr, rd, fget_fset_same, fget_fset_other]

/-- The state after the fault of an engine: its job is back, DE_CTL tells of the fault, and two events are counted (R136). -/
def engineFaults (s : State) (e : Nat) : State := tally (tally (faultShown (abandoned s e) e) 0x2e) (0x340 + e)

/-- Counting the fault leaves DE_CTL. -/
theorem rd_engineFaults (s : State) (e : Nat) (f : Fld) (hf : f.reg = .deCtl) :
    rd (engineFaults s e) f e = rd (faultShown (abandoned s e) e) f e :=
  (rd_tally _ _ f e 0 0 (by rw [hf]; decide) (by rw [hf]; decide)).trans
    (rd_tally _ _ f e 0 0 (by rw [hf]; decide) (by rw [hf]; decide))

/-- After a fault DE_CTL shows it with the engine off, its job is the head of the jobs, and no item has changed (R136). -/
theorem engineFaults_spec (s : State) (e : Nat) : rdB (engineFaults s e) F.deCtlFault e = true
    ∧ rdB (engineFaults s e) F.deCtlEnable e = false ∧ rdB (engineFaults s e) F.deCtlPending e = false
    ∧ rd (engineFaults s e) F.deCtlState e = 2 ∧ engineJob (engineFaults s e) e = none
    ∧ (∀ j, engineJob s e = some j → (engineFaults s e).jobs = j :: s.jobs) ∧ (engineFaults s e).items = s.items := by
  obtain ⟨hfault, henable, hpending, hstate⟩ := faultShown_spec (abandoned s e) e
  obtain ⟨hfree, hback, hitems⟩ := abandoned_spec s e
  refine ⟨?_, ?_, ?_, (rd_engineFaults s e F.deCtlState rfl).trans hstate, ?_, fun j hj => ?_, ?_⟩
  · rw [rdB, rd_engineFaults s e F.deCtlFault rfl, hfault, decide_eq_true rfl]
  · rw [rdB, rd_engineFaults s e F.deCtlEnable rfl, henable, decide_eq_false Nat.zero_ne_one]
  · rw [rdB, rd_engineFaults s e F.deCtlPending rfl, hpending, decide_eq_false Nat.zero_ne_one]
  · exact (engineJob_congr ((tally_engines ..).trans (tally_engines ..)) e).trans hfree
  · exact ((tally_jobs ..).trans (tally_jobs ..)).trans (hback j hj)
  · exact ((tally_items ..).trans (tally_items ..)).trans hitems

/-- DECODE_ENGINE_FAULT of an engine with power. -/
theorem execDecodeEngineFault_of_up {e : Fin 40} {s : State} (hup : domUp s (dDp (e.val / 20)) = true) :
    exec (.decodeEngineFault e) s = .next (engineFaults s e.val) := by
  show execDecodeEngineFault e s = _
  rw [execDecodeEngineFault, if_pos hup]
  rfl

end Sys2Proof.Machine
end

section
/-! The ends of decode jobs (R106, R107, R112, R119): what an engine's result does to the items, and how an item settles. -/

namespace Sys2Proof.Machine

/-! ### Items and their counts -/

/-- Of each item in order: its number, whether a decode of it has ended, and the iterations of its decodes. -/
def decodeCounts (s : State) : List (Nat × Bool × Nat) := s.items.map (fun i => (i.id, i.decoded, i.iters))

theorem decodeCounts_congr {s t : State} (h : t.items = s.items) : decodeCounts t = decodeCounts s := by
  rw [decodeCounts, decodeCounts, h]

/-- A change of items that keeps their numbers and counts. -/
theorem decodeCounts_updItem (s : State) (id : Nat) {f : Item → Item} (hid : ∀ i, (f i).id = i.id)
    (hdecoded : ∀ i, (f i).decoded = i.decoded) (hiters : ∀ i, (f i).iters = i.iters) :
    decodeCounts (updItem s id f) = decodeCounts s := by
  rw [decodeCounts, updItem, List.map_map, decodeCounts]
  refine List.map_congr_left fun i _ => ?_
  rw [Function.comp_apply]
  split
  · rw [hid, hdecoded, hiters]
  · rfl

/-- The item found under a number has the counts listed for it. -/
theorem map_findItem (s : State) (id : Nat) :
    (findItem s id).map (fun i => (i.id, i.decoded, i.iters)) = (decodeCounts s).find? (fun c => c.1 = id) := by
  rw [findItem, decodeCounts, List.find?_map]
  rfl

theorem id_of_findItem {s : State} {id : Nat} {it : Item} (h : findItem s id = some it) : it.id = id :=
  of_decide_eq_true (List.find?_some (p := fun i : Item => decide (i.id = id)) h)

/-- A changed item is found under its number. -/
theorem findItem_updItem_same (s : State) (id : Nat) {f : Item → Item} (hid : ∀ i, (f i).id = i.id) :
    findItem (updItem s id f) id = (findItem s id).map f := by
  have hsame : (fun i : Item => decide (i.id = id)) ∘ (fun i => if i.id = id then f i else i) = fun i => decide (i.id = id) := by
    funext i
    rw [Function.comp_apply]
    split
    · rw [hid]
    · rfl
  rw [findItem, updItem, List.find?_map, hsame, findItem]
  cases hfind : s.items.find? (fun i => decide (i.id = id)) with
  | none => rfl
  | some i => exact congrArg some (if_pos (id_of_findItem hfind))

/-- Marks the item as decoded, and adds the iterations of a decode to the item's (R106, R112, R119). -/
def decodeEnded (s : State) (id n : Nat) : State := updItem s id (fun i => { i with decoded := true, iters := i.iters + n })

/-- Where the counts are those of an ended decode, the item is marked and its iterations are added. -/
theorem counted_of_decodeEnded {s t : State} {it : Item} {n : Nat} (hfind : findItem s it.id = some it)
    (h : decodeCounts t = decodeCounts (decodeEnded s it.id n)) (i : Item) (hi : findItem t it.id = some i) :
    i.decoded = true ∧ i.iters = it.iters + n := by
  have hended : findItem (decodeEnded s it.id n) it.id = some { it with decoded := true, iters := it.iters + n } := by
    rw [decodeEnded, findItem_updItem_same s it.id (f := fun i => { i with decoded := true, iters := i.iters + n }) fun _ => rfl,
      hfind, Option.map_some]
  have hcounts := map_findItem t it.id
  rw [h, ← map_findItem, hi, hended] at hcounts
  obtain ⟨_, hdecoded, hiters⟩ : i.id = it.id ∧ i.decoded = true ∧ i.iters = it.iters + n := by simpa using hcounts
  exact ⟨hdecoded, hiters⟩

/-! ### The staging memory leaves the items -/

/-- What each step keeps, a fold of steps keeps. -/
theorem foldl_keeps {σ α β : Type} (g : σ → β) {f : σ → α → σ} (hf : ∀ s a, g (f s a) = g s) (l : List α) (s : σ) :
    g (l.foldl f s) = g s :=
  List.foldlRecOn (motive := fun t => g t = g s) l f rfl fun t ht a _ => (hf t a).trans ht

theorem forNat_keeps {β : Type} (g : State → β) {f : State → Nat → State} (hf : ∀ s i, g (f s i) = g s) (n : Nat) (s : State) :
    g (forNat n f s) = g s := foldl_keeps g hf _ s

@[simp] theorem eccLog_items (s : State) (b ln w bit_ : Nat) (ue scrub : Bool) : (eccLog s b ln w bit_ ue scrub).items = s.items := by
  rw [eccLog]
  split <;> rfl

@[simp] theorem eccCorrected_items (s : State) (b ln w bit_ : Nat) (scrub : Bool) :
    (eccCorrected s b ln w bit_ scrub).items = s.items := by
  rw [eccCorrected, tally_items, eccLog_items]
  rfl

@[simp] theorem eccUncorrectable_items (s : State) (b ln w : Nat) (scrub : Bool) :
    (eccUncorrectable s b ln w scrub).items = s.items := by
  rw [eccUncorrectable, tally_items, eccLog_items]
  rfl

@[simp] theorem freeBytes_items (s : State) (n : Nat) : (freeBytes s n).2.items = s.items := by
  induction n with
  | zero => rfl
  | succ n ih => exact ih

theorem readWord_items (b ln : Nat) (scrub : Bool) (r : LineRead) (f : Nat × W64 × Byte) :
    (readWord b ln scrub r f).st.items = r.st.items := by
  obtain ⟨w, d, c⟩ := f
  simp only [readWord]
  split
  · rfl
  split
  · exact eccCorrected_items ..
  split
  · exact eccUncorrectable_items ..
  split
  · exact eccUncorrectable_items ..
  · exact eccCorrected_items ..

@[simp] theorem readLine_items (s : State) (b ln : Nat) (scrub : Bool) : (readLine s b ln scrub).st.items = s.items := by
  rw [readLine]
  split
  · exact foldl_keeps (fun r : LineRead => r.st.items) (readWord_items b ln scrub) _ _
  · have hfree : (freeBytes s 64).2.items = s.items := freeBytes_items s 64
    dsimp only
    split
    · refine (eccUncorrectable_items ..).trans ?_
      split
      · exact (eccCorrected_items ..).trans hfree
      · exact hfree
    · split
      · exact (eccCorrected_items ..).trans hfree
      · exact hfree

@[simp] theorem readLines_items (s : State) (b ln n : Nat) : (readLines s b ln n).2.2.items = s.items := by
  induction n with
  | zero => rfl
  | succ n ih => exact (readLine_items ..).trans ih

@[simp] theorem slotRead_items (s : State) (sl off n : Nat) : (slotRead s sl off n).2.2.items = s.items := readLines_items ..

@[simp] theorem readWritten_items (s : State) (b ln n : Nat) : (readWritten s b ln n).2.items = s.items := by
  induction n with
  | zero => rfl
  | succ n ih =>
    rw [readWritten]
    dsimp only
    split
    · exact (readLine_items ..).trans ih
    · exact ih

theorem writeLine_items (s : State) (b ln : Nat) (data : List Byte) (poison : Bool) : (writeLine s b ln data poison).items = s.items := by
  have htake : (takeFlip s b).2.items = s.items := by
    rw [takeFlip]
    split <;> rfl
  exact htake

@[simp] theorem slotWrite_items (s : State) (sl off : Nat) (data : List Byte) (ps : List Bool) :
    (slotWrite s sl off data ps).items = s.items :=
  forNat_keeps State.items (fun _ _ => writeLine_items ..) _ s

@[simp] theorem engineReads_items (s : State) (sl : Nat) (rs : List (Nat × Nat)) : (engineReads s sl rs).2.items = s.items :=
  foldl_keeps (fun p : List SlotBuf × State => p.2.items) (fun _ _ => readWritten_items ..) rs ([], s)

@[simp] theorem decodeReads_items (s : State) (it : Item) (page : Nat) (rs : List (Nat × Nat)) :
    (decodeReads s it page rs).2.items = s.items := by
  rw [decodeReads]
  split
  · exact engineReads_items ..
  · rfl

theorem softReads_items (s : State) (it : Item) (page : Nat) : (softReads s it page).items = s.items :=
  foldl_keeps State.items (fun _ _ => engineReads_items ..) _ s

/-! ### The pages of an item leave its counts -/

@[simp] theorem decodeCounts_updPage (s : State) (id page : Nat) (f : Page → Page) :
    decodeCounts (updPage s id page f) = decodeCounts s :=
  decodeCounts_updItem s id (fun _ => rfl) (fun _ => rfl) fun _ => rfl

@[simp] theorem decodeCounts_tallyC (s : State) (src cls : Nat) : decodeCounts (tallyC s src cls) = decodeCounts s :=
  decodeCounts_congr (tallyC_items ..)

@[simp] theorem decodeCounts_tallyCW (s : State) (src cls w : Nat) : decodeCounts (tallyCW s src cls w) = decodeCounts s :=
  decodeCounts_congr (tallyCW_items ..)

@[simp] theorem decodeCounts_mark (s : State) (id : Nat) (st : Status) : decodeCounts (mark s id st) = decodeCounts s := by
  refine decodeCounts_updItem s id (fun i => ?_) (fun i => ?_) fun i => ?_ <;> split <;> rfl

@[simp] theorem decodeCounts_segToSlot (s : State) (id page st sl q : Nat) (b : List Byte) :
    decodeCounts (segToSlot s id page st sl q b) = decodeCounts s := by
  rw [segToSlot, parityPut, decodeCounts_updPage]
  exact decodeCounts_congr ((slotWrite_items ..).trans (slotWrite_items ..))

@[simp] theorem decodeCounts_engineWrites (s : State) (id page sl : Nat) (bs : List SlotBuf) (ps : List Nat) :
    decodeCounts (engineWrites s id page sl bs ps) = decodeCounts s := by
  refine foldl_keeps decodeCounts (fun t b => ?_) bs s
  have hlines : decodeCounts (forNat b.n (fun s i => if ps.any (fun p => p / 512 = b.off + i)
      then slotWrite s sl (b.off + i) (slice (b.fixed ps) (64 * i) 64) else s) t) = decodeCounts t := by
    refine forNat_keeps decodeCounts (fun u i => ?_) b.n t
    split
    · exact decodeCounts_congr (slotWrite_items ..)
    · rfl
  dsimp only
  split
  · exact hlines
  · exact (decodeCounts_updPage ..).trans hlines

@[simp] theorem decodeCounts_finalQuarter (s : State) (it : Item) (page q : Nat) (st : QState) (grade corr : Nat) :
    decodeCounts (finalQuarter s it page q st grade corr) = decodeCounts s := by
  rw [finalQuarter]
  split
  · exact decodeCounts_updPage ..
  · exact (decodeCounts_tallyC ..).trans (decodeCounts_updPage ..)

@[simp] theorem decodeCounts_uncQuarter (s : State) (it : Item) (pq : Nat × Nat) : decodeCounts (uncQuarter s it pq) = decodeCounts s := by
  have hpoison (t : State) (sl q : Nat) : decodeCounts (poisonQuarter t sl q) = decodeCounts t := by
    apply decodeCounts_congr
    rw [poisonQuarter, slotWrite_items, slotRead_items]
  have hfinal : decodeCounts (tallyC (finalQuarter s it pq.1 pq.2 .unc 4 255) 0x2b it.cls) = decodeCounts s :=
    (decodeCounts_tallyC ..).trans (decodeCounts_finalQuarter ..)
  rw [uncQuarter]
  split
  · rw [hpoison, decodeCounts_updPage, hfinal]
  · rw [decodeCounts_updPage, hfinal]

/-! ### Results (R106, R107, R112, R119) -/

/-- The items alone decide what the end of a decode counts, whatever its engine has read before. -/
theorem decodeCounts_ended_of_items {s t : State} (h : t.items = s.items) (id n : Nat) :
    decodeCounts (updItem t id (fun i => { i with decoded := true, iters := i.iters + n })) = decodeCounts (decodeEnded s id n) := by
  rw [decodeCounts, decodeCounts, decodeEnded, updItem, updItem, h]

/-- A local decode that has ended changes the counts of its item by its iterations. -/
theorem decodeCounts_localResult (s : State) (it : Item) (page q : Nat) (r : DecodeResult) :
    decodeCounts (localResult s it page q r) = decodeCounts (decodeEnded s it.id r.iters) := by
  rw [localResult]
  generalize hread : decodeReads s it page _ = read
  have hended := decodeCounts_ended_of_items (hread ▸ decodeReads_items s it page _ : read.2.items = s.items) it.id r.iters
  dsimp only
  split
  · split
    · split
      · simpa using hended
      · simpa using hended
    · simpa using hended
    · simpa using hended
  · split
    · exact (decodeCounts_finalQuarter ..).trans hended
    · exact (decodeCounts_updPage ..).trans hended

/-- A page that has passed changes no counts. -/
theorem decodeCounts_pagePassed (s : State) (it : Item) (page : Nat) (soft : Bool) (fix : List Nat) (bs : List SlotBuf) :
    decodeCounts (pagePassed s it page soft fix bs) = decodeCounts s := by
  rw [pagePassed]
  split
  · rfl
  · dsimp only
    generalize hfold : List.foldl _ s _ = t
    have hquarters : decodeCounts t = decodeCounts s := by
      rw [← hfold]
      refine foldl_keeps decodeCounts (fun u q => ?_) _ s
      split
      · split
        · exact (decodeCounts_segToSlot ..).trans (decodeCounts_finalQuarter ..)
        · exact decodeCounts_finalQuarter ..
      · exact decodeCounts_finalQuarter ..
    split
    · exact hquarters
    · exact (decodeCounts_engineWrites ..).trans hquarters
    · exact hquarters

/-- A global or soft decode that has ended changes the counts of its item by its iterations. -/
theorem decodeCounts_pageResult (s : State) (it : Item) (page : Nat) (soft : Bool) (r : DecodeResult) :
    decodeCounts (pageResult s it page soft r) = decodeCounts (decodeEnded s it.id r.iters) := by
  have hsoft : (if soft then softReads s it page else s).items = s.items := by
    split
    · exact softReads_items ..
    · rfl
  rw [pageResult]
  generalize hread : decodeReads _ it page pageLines = read
  have hended := decodeCounts_ended_of_items (hread ▸ (decodeReads_items ..).trans hsoft : read.2.items = s.items) it.id r.iters
  dsimp only
  split
  · exact (decodeCounts_tallyCW ..).trans ((decodeCounts_pagePassed ..).trans hended)
  · split
    · split
      · exact (foldl_keeps decodeCounts (fun _ _ => decodeCounts_uncQuarter ..) _ _).trans ((decodeCounts_mark ..).trans hended)
      · exact hended
    · exact hended

/-! ### The rows (R106, R112, R119) -/

section
variable {e : Fin 40} {r : DecodeResult} {s : State} {j : Job} (hjob : engineJob s e.val = some j) (hrun : parked s = false)
include hjob hrun

/-- The end of a local decode: another result is no command of the row, and the kind's own is taken and the item settled. -/
theorem execLocalDecodeEnd_of_job {q : Nat} (hkind : j.kind = .loc q) :
    (resultOk s j r = false → exec (.localDecodeEnd e r) s = .fault .illFormed)
    ∧ (resultOk s j r = true → ∀ it, findItem (releaseEngine s e.val j r.iters) j.item = some it →
        exec (.localDecodeEnd e r) s
          = .next (settleLocal (localResult (releaseEngine s e.val j r.iters) it j.page q r) it.id)) := by
  show (_ → execLocalDecodeEnd e r s = _) ∧ (_ → ∀ it, _ → execLocalDecodeEnd e r s = _)
  refine ⟨fun hbad => ?_, fun hok it hfind => ?_⟩
  · simp [execLocalDecodeEnd, hjob, hkind, hrun, hbad]
  · simp [execLocalDecodeEnd, hjob, hkind, hrun, hok, hfind]

/-- The end of a global decode. -/
theorem execGlobalDecodeEnd_of_job (hkind : j.kind = .glob) :
    (resultOk s j r = false → exec (.globalDecodeEnd e r) s = .fault .illFormed)
    ∧ (resultOk s j r = true → ∀ it, findItem (releaseEngine s e.val j r.iters) j.item = some it →
        exec (.globalDecodeEnd e r) s
          = .next (settleGlobal (pageResult (releaseEngine s e.val j r.iters) it j.page false r) it.id)) := by
  show (_ → execGlobalDecodeEnd e r s = _) ∧ (_ → ∀ it, _ → execGlobalDecodeEnd e r s = _)
  refine ⟨fun hbad => ?_, fun hok it hfind => ?_⟩
  · simp [execGlobalDecodeEnd, hjob, hkind, hrun, hbad]
  · simp [execGlobalDecodeEnd, hjob, hkind, hrun, hok, hfind]

/-- The end of a soft decode. -/
theorem execSoftDecodeEnd_of_job (hkind : j.kind = .soft) :
    (resultOk s j r = false → exec (.softDecodeEnd e r) s = .fault .illFormed)
    ∧ (resultOk s j r = true → ∀ it, findItem (releaseEngine s e.val j r.iters) j.item = some it →
        exec (.softDecodeEnd e r) s
          = .next (settleSoft (pageResult (releaseEngine s e.val j r.iters) it j.page true r) it.id)) := by
  show (_ → execSoftDecodeEnd e r s = _) ∧ (_ → ∀ it, _ → execSoftDecodeEnd e r s = _)
  refine ⟨fun hbad => ?_, fun hok it hfind => ?_⟩
  · simp [execSoftDecodeEnd, hjob, hkind, hrun, hbad]
  · simp [execSoftDecodeEnd, hjob, hkind, hrun, hok, hfind]

end

/-! ### Settling (R112, R118, R195) -/

section
variable {y : State} {it : Item} (hfind : findItem y it.id = some it)
include hfind

/-- While jobs of the item are open only what CUT_THROUGH lets go moves (R131). -/
theorem settle_of_open (h : jobsOpen y it.id = true) : settleLocal y it.id = (cutDeliver y it).2
    ∧ settleGlobal y it.id = (cutDeliver y it).2 ∧ settleSoft y it.id = (cutDeliver y it).2 := by
  simp [settleLocal, settleGlobal, settleSoft, hfind, h]

theorem settleLocal_of_margin (h : jobsOpen y it.id = false) (hmargin : it.sense = .margin) : settleLocal y it.id = marginEnd y it := by
  simp [settleLocal, hfind, h, hmargin]

theorem settleLocal_of_none_failing (h : jobsOpen y it.id = false) (hsense : it.sense ≠ .margin) (hnone : failingOf it = []) :
    settleLocal y it.id = readPassed y it := by
  simp [settleLocal, hfind, h, hsense, hnone]

theorem settleGlobal_of_none_failing (h : jobsOpen y it.id = false) (hnone : failingOf it = []) :
    settleGlobal y it.id = readPassed y it := by
  simp [settleGlobal, hfind, h, hnone]

end

/-! ### Further senses (R118, R123, R194) -/

/-- Reading the entry of a step makes the step the one in hand, with no soft sense used if it is another (R123). -/
theorem readStep_spec (s : State) (it : Item) (n : Nat) :
    (it.readStep s n).softStep = n ∧ (it.softStep ≠ n → (it.readStep s n).softUsed = 0) := by
  rw [Item.readStep]
  split
  · next h => exact ⟨h, fun hne => absurd h hne⟩
  · exact ⟨rfl, fun _ => rfl⟩

theorem execLadderStepBegin_of_due {id n : Nat} {s : State} {it : Item} (hfind : findItem s id = some it) (hdue : senseDue s it = true)
    (hstep : it.sense = .ladder n 0) :
    exec (.ladderStepBegin id) s = .next (askLaunch (updItem s id (fun _ => it.readStep s n)) (it.readStep s n)) := by
  show execLadderStepBegin id s = _
  simp [execLadderStepBegin, hfind, hstep, hdue]

theorem execMarginReadLaunch_of_due {id : Nat} {s : State} {it : Item} (hfind : findItem s id = some it) (hdue : senseDue s it = true)
    (hmargin : it.sense = .margin) : exec (.marginReadLaunch id) s = .next (askLaunch s it) := by
  show execMarginReadLaunch id s = _
  simp [execMarginReadLaunch, hfind, hmargin, hdue]

/-- Settles O49: the two control registers, the drain and the fault, the claim, the three ends and their settling, and the further
senses. -/
theorem decodeEngineRows : Obligations.DecodeEngineRows := by
  refine ⟨fun a e v s htakes => execDeCtlWrite_spec htakes, fun a v s htakes => execPoolFenceWrite_spec htakes,
    fun e s hup => ⟨fun hdrains hjob => ⟨_, execEngineDrainEnd_of_drained hup hdrains hjob, drainEnds_spec s e.val⟩,
      ⟨_, execDecodeEngineFault_of_up hup, engineFaults_spec s e.val⟩⟩,
    fun e s hrun => ⟨fun hnone => ?_, fun j hclaim => ?_⟩, ?_, fun e r s j hjob hrun hbad => ?_,
    fun y it hfind => ?_, fun id s it hfind hdue => ?_⟩
  · show execDecodeJobClaim e s = _
    rw [execDecodeJobClaim, hnone]
  · refine ⟨claimJob s e.val j, ?_, claimJob_spec s e.val j⟩
    show execDecodeJobClaim e s = _
    rw [execDecodeJobClaim, hclaim, hrun]
    rfl
  · intro e r s j hjob hrun hok y
    refine ⟨engineJob_releaseEngine .., fun it hfind => ?_⟩
    have hitem : findItem y it.id = some it := (id_of_findItem hfind).symm ▸ hfind
    exact ⟨fun q hkind => ⟨(execLocalDecodeEnd_of_job hjob hrun hkind).2 hok it hfind,
        counted_of_decodeEnded hitem (decodeCounts_localResult ..)⟩,
      fun hkind => ⟨(execGlobalDecodeEnd_of_job hjob hrun hkind).2 hok it hfind,
        counted_of_decodeEnded hitem (decodeCounts_pageResult ..)⟩,
      fun hkind => ⟨(execSoftDecodeEnd_of_job hjob hrun hkind).2 hok it hfind,
        counted_of_decodeEnded hitem (decodeCounts_pageResult ..)⟩⟩
  · exact ⟨fun q hkind => (execLocalDecodeEnd_of_job hjob hrun hkind).1 hbad,
      fun hkind => (execGlobalDecodeEnd_of_job hjob hrun hkind).1 hbad,
      fun hkind => (execSoftDecodeEnd_of_job hjob hrun hkind).1 hbad⟩
  · exact ⟨settle_of_open hfind, settleLocal_of_margin hfind, settleLocal_of_none_failing hfind, settleGlobal_of_none_failing hfind⟩
  · exact ⟨fun n hstep => ⟨execLadderStepBegin_of_due hfind hdue hstep, readStep_spec s it n⟩, execMarginReadLaunch_of_due hfind hdue⟩

end Sys2Proof.Machine
end

section
/-! What the bus operations leave: the LUN, the channel and the items after the changes that the LUN and bus rows are made of. -/

namespace Sys2Proof.Machine

/-! ### Time -/

/-- A time that is due is reached (R229). -/
theorem lapse_of_due {s : State} {t : Nat} (h : dueClk s t = true) : lapse s t = some (atClk s t) := if_pos h

/-! ### LUNs, channels and items after a change -/

theorem getLun_updLun_same (s : State) (l : Lun) (f : LunSt → LunSt) : getLun (updLun s l f) l = f (getLun s l) :=
  Tab.get_set_same ..

theorem getLun_updCh (s : State) (ch : Nat) (f : ChanSt → ChanSt) (l : Lun) : getLun (updCh s ch f) l = getLun s l := rfl

theorem getCh_updCh_same (s : State) (ch : Nat) (f : ChanSt → ChanSt) : getCh (updCh s ch f) ch = f (getCh s ch) :=
  Tab.get_set_same ..

/-- What a change gives every item, the changed item has. -/
theorem of_findItem_updItem {s : State} {id : Nat} {f : Item → Item} {P : Item → Prop} (hid : ∀ i, (f i).id = i.id)
    (hP : ∀ i, P (f i)) {i : Item} (hi : findItem (updItem s id f) id = some i) : P i := by
  rw [findItem_updItem_same s id hid] at hi
  obtain ⟨j, _, rfl⟩ := Option.map_eq_some_iff.mp hi
  exact hP j

/-! ### The bus of a channel (R178, R301) -/

/-- The end of a tenure other than a poll counts for the boundary of its group (R448). -/
def tenureCounted (s : State) (ch : Nat) : State :=
  match (getCh s ch).bus with
  | some t => if t.kind = .poll then s else updGroup s (ch / 4) (fun g => { g with freeSince := s.clk })
  | none => s

theorem clearBus_eq (s : State) (ch : Nat) : clearBus s ch =
    updCh (if (getCh s ch).bus.any (fun t => t.kind = .launch && t.item.isSome && t.item = (getCh s ch).out) then
      dropFlashOut (tenureCounted s ch) ch else tenureCounted s ch) ch (fun c => { c with bus := none, wpHeld := none }) := rfl

theorem tenureCounted_frame (s : State) (ch : Nat) : tenureCounted s ch = { s with groups := (tenureCounted s ch).groups } := by
  rw [tenureCounted]
  split
  · split <;> rfl
  · rfl

/-- Freeing the bus changes channels, groups and FIFOs alone. -/
theorem clearBus_frame (s : State) (ch : Nat) : clearBus s ch =
    { s with chans := (clearBus s ch).chans, groups := (clearBus s ch).groups, fifos := (clearBus s ch).fifos } := by
  rw [clearBus_eq, tenureCounted_frame]
  split <;> rfl

theorem clearBus_ledger (s : State) (ch : Nat) : (clearBus s ch).ledger = s.ledger := by rw [clearBus_frame]

theorem bus_clearBus (s : State) (ch : Nat) : (getCh (clearBus s ch) ch).bus = none := by
  rw [clearBus_eq, getCh_updCh_same]

theorem routine_dropFlashOut (s : State) (ch : Nat) : (getCh (dropFlashOut s ch) ch).routine = (getCh s ch).routine := by
  rw [dropFlashOut, getCh_updCh_same]
  rfl

/-- Freeing the bus leaves the routine of the channel. -/
theorem routine_clearBus (s : State) (ch : Nat) : (getCh (clearBus s ch) ch).routine = (getCh s ch).routine := by
  rw [clearBus_eq, getCh_updCh_same, tenureCounted_frame]
  split
  · exact routine_dropFlashOut ..
  · rfl

/-- What comes in over a data-out changes FLASH_IN alone (R302). -/
theorem flashIn_frame (s : State) (ch : Nat) (cut : Bool) (rs : List Range) (b : List Byte) :
    flashIn s ch cut rs b = { s with fifos := (flashIn s ch cut rs b).fifos } := by
  induction rs generalizing s b with
  | nil => rfl
  | cons r q ih =>
    cases q with
    | nil => rfl
    | cons r' q =>
      rw [flashIn, ih]
      · rfl
      · exact List.cons_ne_nil r' q

/-! ### Routines (R355) -/

/-- A channel whose routine is over has none. -/
theorem routine_routineOff (s : State) (ch : Nat) (l : Lun) : (getCh (routineOff s ch l) ch).routine = none := by
  simp only [routineOff]
  split
  · split
    · rw [routine_clearBus, getCh_updCh_same]
    · rw [getCh_updCh_same]
  · rw [getCh_updCh_same]

end Sys2Proof.Machine
end

section
/-! The rows of a LUN's operations and of its bus (R110, R149–R152, R178, R355): polls, timeouts, the ends of tenures and
routines. -/

namespace Sys2Proof.Machine

/-! ### Polls asked for (R150) -/

theorem execPollDue_of_due {l : LunSel} {s : State} {t : Nat} (hpoll : (getLun s (lunOf l)).pollAt = some t)
    (hdue : dueClk s t = true) : exec (.pollDue l) s = .next (askPoll (atClk s t) (lunOf l)) := by
  show execPollDue l s = _
  simp only [execPollDue, hpoll, lapse_of_due hdue]

theorem execRbNRise_of_up {ch : Fin 48} {s : State} (line : Fin 4) (hup : domUp s (dCg (ch.val / 4)) = true) :
    exec (.rbNRise ch line) s = .next ((((lunsOf s ch.val).filter (onLine s line.val)).filter (pollsNow s)).foldl askPoll
      (if ((lunsOf s ch.val).filter (onLine s line.val)).isEmpty then s else raiseSeq s ch.val 5)) :=
  (show exec (.rbNRise ch line) s = execRbNRise ch line s from rfl).trans (if_pos hup)

theorem execRbNRise_of_down {ch : Fin 48} {s : State} (line : Fin 4) (hdown : domUp s (dCg (ch.val / 4)) = false) :
    exec (.rbNRise ch line) s = .next s :=
  (show exec (.rbNRise ch line) s = execRbNRise ch line s from rfl).trans (if_neg (Bool.eq_false_iff.mp hdown))

/-! ### What a poll shows (R149) -/

theorem dieStatus_setDie {s : State} {id : Nat} {st : Byte} {i : Item} (hi : findItem (setDie s (some id) st) id = some i) :
    i.dieStatus = st :=
  of_findItem_updItem (f := fun i => { i with dieStatus := st }) (P := fun i => i.dieStatus = st) (fun _ => rfl) (fun _ => rfl) hi

section
variable {ch : Fin 48} {s : State} {t : Tenure} (st : Byte) (hbus : (getCh s ch.val).bus = some t) (hkind : t.kind = .poll)
include hbus hkind

/-- The poll of a STATUS item ends it (R57, R62). -/
theorem execPollComplete_of_status {it : Item} (hitem : t.item.bind (findItem (clearBus s ch.val)) = some it)
    (hop : it.pkt.op = 9) : exec (.pollComplete ch st) s =
      .next (kickBus (issueOrdered (statusEnds (clearBus s ch.val) it st) ch.val) ch.val) := by
  show execPollComplete ch st s = _
  simp only [execPollComplete, hbus, hkind, hitem, hop, if_true]

/-- Any other poll shows its byte to what runs on the LUN. -/
theorem execPollComplete_of_other (hother : ∀ it, t.item.bind (findItem (clearBus s ch.val)) = some it → it.pkt.op ≠ 9) :
    exec (.pollComplete ch st) s = .next (kickBus (issueOrdered (pollResult (clearBus s ch.val) t.lun st) ch.val) ch.val) := by
  show execPollComplete ch st s = _
  cases hitem : t.item.bind (findItem (clearBus s ch.val)) with
  | none => simp only [execPollComplete, hbus, hkind, hitem, if_true]
  | some it => simp only [execPollComplete, hbus, hkind, hitem, hother it hitem, if_true, if_false]

end

/-- A LUN's state once a poll's byte is stored: coins of items that use the LUN no more are back where it shows ARDY (R152). -/
def polled (y : State) (l : Lun) (st : Byte) : State :=
  setDie (if stArdy st then releaseStale y l else y) (servedBy (getLun y l)) st

section
variable {y : State} {l : Lun} (st : Byte)

theorem pollResult_of_sense (h : (getLun y l).act = .sense) :
    pollResult y l st = if stArdy st then senseEnds (polled y l st) l else pollAgain (polled y l st) l := by
  simp only [pollResult, h, polled]

theorem pollResult_of_program (h : (getLun y l).act = .program) : pollResult y l st = programPoll (polled y l st) l st := by
  simp only [pollResult, h, polled]

theorem pollResult_of_erase (h : (getLun y l).act = .erase) :
    pollResult y l st = if stArdy st then phaseEnds (polled y l st) l (stFail st) else pollAgain (polled y l st) l := by
  simp only [pollResult, h, polled]

theorem pollResult_of_suspending (h : (getLun y l).act = .suspending) :
    pollResult y l st = if stRdy st && stArdy st then suspendEnds (polled y l st) l else pollAgain (polled y l st) l := by
  simp only [pollResult, h, polled, Bool.and_eq_true]

theorem pollResult_of_other (h : (getLun y l).act = .other) :
    pollResult y l st = if stRdy st then otherEnds (polled y l st) l else pollAgain (polled y l st) l := by
  simp only [pollResult, h, polled]

end

/-! ### Die timeouts (R152) -/

theorem execDieTimeoutExpiry_of_due {l : LunSel} {s : State} {t : Nat} (hlimit : timeoutAt s (lunOf l) = some t)
    (hdue : dueClk s t = true) (hup : domUp s (dCg (l.ch.val / 4)) = true) :
    exec (.dieTimeoutExpiry l) s = .next (kickBus (dieTimeout (atClk s t) (lunOf l)) l.ch.val) := by
  show execDieTimeoutExpiry l s = _
  simp only [execDieTimeoutExpiry, hlimit, lapse_of_due hdue]
  exact if_pos hup

/-- A timeout ends the items that it concerns on a LUN that is halted, with no poll due and no cache chain. -/
theorem dieTimeout_halts (s : State) (l : Lun) : ∃ y, dieTimeout s l = endAll y (timedOut (getLun s l)) .dieTimeout
    ∧ (getLun y l).halted = true ∧ (getLun y l).pollAt = none ∧ (getLun y l).chain = none := by
  refine ⟨_, rfl, ?_⟩
  simp only [getLun_updCh, getLun_updLun_same, and_self]

/-! ### Ends of tenures (R178) -/

section
variable {ch : Fin 48} {s : State} {t : Tenure} {data : List Byte} (hbus : (getCh s ch.val).bus = some t)
  (hdata : t.kind ≠ .dataOut) (hpoll : t.kind ≠ .poll)
include hbus hdata hpoll

theorem execBusTenureEnd_of_length (hlen : data.length = (if t.kind = .getData then 4 else 0)) :
    let y := endTenure (clearBus s ch.val) t data
    let z := if warn y ∧ t.kind = .resume then updLun y t.lun (fun st => { st with suspWant := true }) else y
    exec (.busTenureEnd ch data) s = .next (kickBus (issueOrdered
      (issueFirst (if t.kind = .launch ∨ t.kind = .resume then repick z else z) t) ch.val) ch.val) := by
  show execBusTenureEnd ch data s = _
  simp only [execBusTenureEnd, hbus, if_neg (not_or.mpr ⟨hdata, hpoll⟩), if_neg (not_not.mpr hlen)]

theorem execBusTenureEnd_of_bad_length (hlen : data.length ≠ (if t.kind = .getData then 4 else 0)) :
    exec (.busTenureEnd ch data) s = .fault .illFormed := by
  show execBusTenureEnd ch data s = _
  simp only [execBusTenureEnd, hbus, if_neg (not_or.mpr ⟨hdata, hpoll⟩), if_pos hlen]

end

/-- A resume tenure leaves the LUN not suspended (R186). -/
theorem susp_endResume (s : State) (l : Lun) : (getLun (endResume s l) l).susp = 0 := by
  have hsplit : ∀ x : State, (splitCoins x l).luns = x.luns := fun x => by
    rw [splitCoins]
    split <;> rfl
  rw [endResume, setPoll, getLun_updLun_same, getLun, hsplit]
  exact congrArg LunSt.susp (getLun_updLun_same ..)

section
variable (y : State) {t : Tenure} (data : List Byte)

theorem endTenure_suspend (h : t.kind = .suspend) : endTenure y t data = setPoll y t.lun (pollInterval y t.lun) := by
  simp [endTenure, h]

theorem endTenure_resume (h : t.kind = .resume) : endTenure y t data = endResume y t.lun := by
  simp [endTenure, h]

theorem endTenure_routine (h : t.kind = .routine) : endTenure y t data = y := by
  simp [endTenure, h]

/-- A feature access or a reset begins to be watched and polled with the end of its tenure (R150, R152). -/
theorem endTenure_feature_reset (h : t.kind = .feature ∨ t.kind = .reset) : endTenure y t data =
    setPoll (updLun y t.lun (fun st => { st with phaseStart := y.clk, ranBefore := 0 })) t.lun (pollInterval y t.lun) := by
  rcases h with h | h <;> simp [endTenure, h]

variable {y} {it : Item} (hitem : t.item.bind (findItem y) = some it)
include hitem

theorem endTenure_launch (h : t.kind = .launch) : endTenure y t data = endLaunch y it := by
  simp [endTenure, h, hitem]

theorem endTenure_getData (h : t.kind = .getData) : endTenure y t data = endItem (freeLun
    (updItem y it.id (fun i => { i with result := BitVec.ofNat 32 (leNat (data.take 4)) })) it.lun) it.id := by
  simp [endTenure, h, hitem]

end

/-! ### A data-out ends (R30, R302, R305) -/

/-- The data-out tenure of an item is over and its bytes are in FLASH_IN: the LUN holds its page from now. -/
def dataHeld (s : State) (ch : Nat) (it : Item) (data : List Byte) : State :=
  let s1 := flashIn (clearBus (releaseVccq s it.id) ch) ch false ((restParts s it).map (fun x => x.2)) (data.drop (it.xferGot.getD 0))
  let s2 := updItem s1 it.id (fun i => { i with xferDone := true, stage := .decode, xferGot := none })
  updLun s2 it.lun (fun st => { st with act := .hold, holdStart := some s.clk })

/-- The bytes stay in FLASH_IN while its consumer is detached, and land else. -/
theorem dataOutEnds_eq (s : State) (ch : Nat) (it : Item) (data : List Byte) : dataOutEnds s ch it data =
    if bitOf (rd s F.chFifoCtlDbgEn ch) 2 then updFifo (dataHeld s ch it data) ch 2 (fun f => { f with parked :=
      f.parked ++ [{ dma := 0, item := it.id, page := 0, q := 0, data := data, poison := [] }] })
    else landData (dataHeld s ch it data) it data := rfl

section
variable (s : State) (ch : Nat) (it : Item) (data : List Byte)

theorem item_dataHeld (i : Item) (hi : findItem (dataHeld s ch it data) it.id = some i) : i.xferDone = true ∧ i.stage = .decode :=
  of_findItem_updItem (f := fun i => { i with xferDone := true, stage := .decode, xferGot := none })
    (P := fun i => i.xferDone = true ∧ i.stage = .decode) (fun _ => rfl) (fun _ => ⟨rfl, rfl⟩) hi

theorem lun_dataHeld : (getLun (dataHeld s ch it data) it.lun).act = .hold
    ∧ (getLun (dataHeld s ch it data) it.lun).holdStart = some s.clk := by
  simp only [dataHeld, getLun_updLun_same, and_self]

theorem bus_dataHeld : (getCh (dataHeld s ch it data) ch).bus = none := by
  rw [dataHeld, flashIn_frame]
  exact bus_clearBus ..

/-- The VCCQ coins of the tenure are given back (R209). -/
theorem coins_dataHeld : (dataHeld s ch it data).ledger.coins
    = s.ledger.coins.filter (fun c => !(c.item = some it.id && isCharged c && c.q)) := by
  rw [dataHeld, flashIn_frame]
  exact congrArg Ledger.coins (clearBus_ledger ..)

end

section
variable {ch : Fin 48} {s : State} {t : Tenure} {it : Item} {data : List Byte} (hbus : (getCh s ch.val).bus = some t)
  (hkind : t.kind = .dataOut) (hitem : t.item.bind (findItem s) = some it)
include hbus hkind hitem

theorem execTransferEnd_of_length (hlen : data.length = xferLen s it) :
    exec (.transferEnd ch data) s = .next (kickBus (dataOutEnds s ch.val it data) ch.val) := by
  show execTransferEnd ch data s = _
  simp only [execTransferEnd, hbus, hkind, hitem, if_pos hlen]

theorem execTransferEnd_of_bad_length (hlen : data.length ≠ xferLen s it) :
    exec (.transferEnd ch data) s = .fault .illFormed := by
  show execTransferEnd ch data s = _
  simp only [execTransferEnd, hbus, hkind, hitem, if_neg hlen]

end

/-! ### The decode hold (R110) -/

theorem execDecodeHoldExpiry_of_due {l : LunSel} {s : State} {t : Nat} {it : Item} (hact : (getLun s (lunOf l)).act = .hold)
    (hstart : (getLun s (lunOf l)).holdStart = some t) (hitem : (getLun s (lunOf l)).cur.bind (findItem s) = some it)
    (hdue : dueClk s (t + usU * rd s F.classCfg1HoldUs it.cls) = true) :
    exec (.decodeHoldExpiry l) s
      = .next (kickBus (holdExpire (atClk s (t + usU * rd s F.classCfg1HoldUs it.cls)) (lunOf l)) l.ch.val) := by
  show execDecodeHoldExpiry l s = _
  simp only [execDecodeHoldExpiry, hact, hstart, hitem, holdEnds, lapse_of_due hdue]
  rfl

/-- The hold of an item is marked expired, and its LUN is free. -/
def holdOver (s : State) (l : Lun) (it : Item) : State :=
  freeLun (tallyC (updItem s it.id (fun i => { i with holdExpired := true })) 0x2d it.cls) l

section
variable {s : State} {l : Lun} {it : Item} (hitem : (getLun s l).cur.bind (findItem s) = some it)
include hitem

theorem holdExpire_of_settled (h : it.escWant = false ∨ it.escDone = true ∨ it.stage ≠ .needXfer) :
    holdExpire s l = holdOver s l it := by
  have hno : ¬ (it.escWant && !it.escDone && it.stage = .needXfer) = true := by
    rcases h with h | h | h <;> simp [h]
  simp only [holdExpire, hitem, if_neg hno, holdOver]

/-- An escalation that still waits for its transfer senses again (R111): it asks for no tenure of the old sense. -/
theorem holdExpire_of_escalation (hwant : it.escWant = true) (hopen : it.escDone = false) (hstage : it.stage = .needXfer) :
    holdExpire s l = toHead (updCh (returnUnused (holdOver s l it) it.id) l.ch
      (fun c => { c with want := c.want.filter (fun t => t.item ≠ some it.id) })) it .again := by
  simp [holdExpire, hitem, hwant, hopen, hstage, holdOver]

end

/-! ### SEQUENCE routines (R355) -/

/-- A routine has come to ROUTINE_END: its events are counted, and its micro-state stays. -/
def routineStops (s : State) (ch : Nat) (r : RoutineRun) : State :=
  updMicro (tallyEvents (afterRun s r) ch r.evts) (ch / 4) (ch % 4) (fun _ => r.m.unmask)

/-- The LUN of the routine is released, and S0 is the item's result; its DIE_STATUS is a byte that only the ROM release knows. -/
def routineDone (s : State) (ch : Nat) (it : Item) (r : RoutineRun) : State :=
  updItem (routineOff (freeByte (routineStops s ch r)).2 ch it.lun) it.id
    (fun i => { i with result := r.m.sreg 0, dieStatus := (freeByte (routineStops s ch r)).1 })

theorem item_routineDone (s : State) (ch : Nat) (it : Item) (r : RoutineRun) (i : Item)
    (hi : findItem (routineDone s ch it r) it.id = some i) :
    i.result = r.m.sreg 0 ∧ i.dieStatus = (freeByte (routineStops s ch r)).1 :=
  of_findItem_updItem (f := fun i => { i with result := r.m.sreg 0, dieStatus := (freeByte (routineStops s ch r)).1 })
    (P := fun i => i.result = r.m.sreg 0 ∧ i.dieStatus = (freeByte (routineStops s ch r)).1) (fun _ => rfl)
    (fun _ => ⟨rfl, rfl⟩) hi

theorem routine_routineDone (s : State) (ch : Nat) (it : Item) (r : RoutineRun) : (getCh (routineDone s ch it r) ch).routine = none :=
  routine_routineOff ..

section
variable {ch : Fin 48} {s : State} {it : Item} (hitem : (getCh s ch.val).routine.bind (findItem s) = some it)
include hitem

theorem execRoutineEnd_of_ended {r : RoutineRun}
    (hrun : routineRun (microByRom s (ch.val / 4) (ch.val % 4)) it (routineWords s ch.val) = .ended r) :
    exec (.routineEnd ch) s
      = .next (kickBus (endItem (routineDone (microByRom s (ch.val / 4) (ch.val % 4)) ch.val it r) it.id) ch.val) := by
  show execRoutineEnd ch s = _
  simp only [execRoutineEnd, routineOf, hitem, hrun, routineDone, routineStops]

theorem execRoutineEnd_of_fault {cause par : Nat} {r : RoutineRun}
    (hrun : routineRun (microByRom s (ch.val / 4) (ch.val % 4)) it (routineWords s ch.val) = .fault cause par r) :
    exec (.routineEnd ch) s = .next (machineCheckIn
      (tallyEvents (afterRun (microByRom s (ch.val / 4) (ch.val % 4)) r) ch.val r.evts) (ch.val / 4) (ch.val % 4) cause par r.m) := by
  show execRoutineEnd ch s = _
  simp only [execRoutineEnd, routineOf, hitem, hrun]

theorem execRoutineEnd_of_going {r : RoutineRun}
    (hrun : routineRun (microByRom s (ch.val / 4) (ch.val % 4)) it (routineWords s ch.val) = .going r) :
    exec (.routineEnd ch) s = .next s := by
  show execRoutineEnd ch s = _
  simp only [execRoutineEnd, routineOf, hitem, hrun]

/-- A routine past TO_OTHER_US is off the channel, on a LUN that is halted. -/
theorem execRoutineTimeout_of_due
    (hdue : dueClk s ((getLun s it.lun).phaseStart + limitOf (rd s F.chTimeoutToOtherUs ch.val)) = true) :
    exec (.routineTimeout ch) s = .next (kickBus (endWith (updLun (routineOff (raiseSeq
      (atClk s ((getLun s it.lun).phaseStart + limitOf (rd s F.chTimeoutToOtherUs ch.val))) ch.val 3) ch.val it.lun) it.lun
      (fun st => { st with halted := true })) it.id .dieTimeout) ch.val) := by
  show execRoutineTimeout ch s = _
  simp only [execRoutineTimeout, hitem, lapse_of_due hdue]

end

/-- Settles O48: one lemma for each row and outcome, and what each leaves on the LUN, the bus and the item. -/
theorem lunAndBusRows : Obligations.LunAndBusRows := by
  refine ⟨fun l s t hpoll hdue => execPollDue_of_due hpoll hdue, fun ch line s hup => execRbNRise_of_up line hup,
    fun ch line s hdown => execRbNRise_of_down line hdown, bus_clearBus,
    fun ch st s t hbus hkind => ⟨fun it hitem hop => ?status, fun hother => ?shown⟩, fun l s t hlimit hdue hup => ?timeout,
    fun ch data s t hbus hdata hpoll => ?tenureEnd, fun y t data => ?endOfKind,
    fun ch data s t it hbus hkind hitem => ⟨fun hlen => ?transfer, execTransferEnd_of_bad_length hbus hkind hitem⟩,
    fun l s t it hact hstart hitem => ?hold, fun ch s it hitem => ?routine, fun ch s it hitem => ?late⟩
  case status =>
    exact ⟨execPollComplete_of_status st hbus hkind hitem hop, fun i => dieStatus_setDie⟩
  case shown =>
    exact ⟨execPollComplete_of_other st hbus hkind hother, pollResult_of_sense st, pollResult_of_program st,
      pollResult_of_erase st, pollResult_of_suspending st, pollResult_of_other st⟩
  case timeout =>
    obtain ⟨y, hends, hlun⟩ := dieTimeout_halts (atClk s t) (lunOf l)
    exact ⟨y, hends ▸ execDieTimeoutExpiry_of_due hlimit hdue hup, hlun⟩
  case tenureEnd =>
    exact ⟨execBusTenureEnd_of_length hbus hdata hpoll, execBusTenureEnd_of_bad_length hbus hdata hpoll⟩
  case endOfKind =>
    exact ⟨endTenure_suspend y data, fun h => ⟨endTenure_resume y data h, susp_endResume y t.lun⟩, endTenure_routine y data,
      endTenure_feature_reset y data, fun it hitem => endTenure_launch data hitem, fun it hitem => endTenure_getData data hitem⟩
  case transfer =>
    obtain ⟨hact, hstart⟩ := lun_dataHeld s ch.val it data
    refine ⟨dataHeld s ch.val it data, ?_, item_dataHeld s ch.val it data, hact, hstart, bus_dataHeld .., coins_dataHeld ..⟩
    rw [execTransferEnd_of_length hbus hkind hitem hlen, dataOutEnds_eq]
  case hold =>
    intro u s1 hdue
    exact ⟨execDecodeHoldExpiry_of_due hact hstart hitem hdue, holdExpire_of_settled (s := s1) hitem,
      holdExpire_of_escalation (s := s1) hitem⟩
  case routine =>
    exact ⟨fun r hrun => ⟨_, _, execRoutineEnd_of_ended hitem hrun, item_routineDone _ _ _ _, routine_routineDone ..⟩,
      fun _ _ _ hrun => execRoutineEnd_of_fault hitem hrun, fun _ hrun => execRoutineEnd_of_going hitem hrun⟩
  case late =>
    intro u s1 hdue
    refine ⟨_, execRoutineTimeout_of_due hitem hdue, ?_, routine_routineOff .., rfl⟩
    rw [getLun_updLun_same]

end Sys2Proof.Machine
end

section
/-! CHANNEL_CTL: HK0 begins the item, and what an enable, a disable and a group fence do to CH_CTL (R202–R204, R433). -/

namespace Sys2Proof.Machine

/-! ### The rows (R204, R351) -/

/-- HK0 carries out a CHANNEL_CTL that is no LUN action, or, stopped, leaves it waiting (R351). -/
theorem carryOut_of_channelCtl {s : State} {it : Item} (hop : it.pkt.op = 0x17) (hlun : lunAction it.pkt = false) :
    carryOut s it = if engRunning s 14 0 then ctlBegin s it else updItem s it.id (fun i => { i with stage := .waitHk }) := by
  simp [carryOut, Packet.usesQueue, opQueue, hkBegin, hkOf, hop, hlun]

/-- The packets of the five rows of CHANNEL_CTL that HK0 carries out. -/
theorem op_of_channelCtlRow {c : Instr} {k : Fin 256} {p : Packet}
    (h : c ∈ [.channelCtlNone k p, .channelCtlEnable k p, .channelCtlDisable k p, .fenceGroup k p, .unfenceGroup k p])
    (hwf : c.wellFormed = true) : packetOf c = some (k, p) ∧ p.op = 0x17 ∧ lunAction p = false := by
  have hrow {sel : Bool} (hb : (p.has 0x17 && sel) = true) (hact : sel = true → p.selector ≠ 5 ∧ p.selector ≠ 6) :
      p.op = 0x17 ∧ lunAction p = false := by
    obtain ⟨hop, hsel⟩ := Bool.and_eq_true_iff.mp hb
    obtain ⟨hunhalt, hflush⟩ := hact hsel
    rw [Packet.selector_eq_opByte] at hunhalt hflush
    exact ⟨of_decide_eq_true hop, by simp [lunAction, hunhalt, hflush]⟩
  simp only [List.mem_cons, List.not_mem_nil, or_false] at h
  rcases h with rfl | rfl | rfl | rfl | rfl
  · refine ⟨rfl, hrow hwf fun hsel => ?_⟩
    simp only [Bool.or_eq_true, decide_eq_true_eq] at hsel
    omega
  all_goals exact ⟨rfl, hrow hwf fun hsel => by rw [of_decide_eq_true hsel]; decide⟩

/-! ### The actions (R204) -/

/-- A CHANNEL_CTL of an unpowered group ends CHANNEL_FENCED. -/
theorem ctlBegin_of_unpowered {s : State} {it : Item} (h : domUp s (dCg (it.pkt.channel.toNat / 4)) = false) :
    ctlBegin s it = endWith s it.id .channelFenced := by
  rw [ctlBegin, if_pos (by simp [h])]

/-- NONE and an unknown action end the item at once. -/
theorem ctlBegin_of_no_action {s : State} {it : Item} (hup : domUp s (dCg (it.pkt.channel.toNat / 4)) = true)
    (hact : it.pkt.opByte 8 = 0 ∨ 4 < it.pkt.opByte 8) :
    ctlBegin s it = endItem (updItem s it.id (fun i => { i with stage := .group })) it.id := by
  rw [ctlBegin, if_neg (not_not_intro hup)]
  obtain hnone | ⟨n, hn⟩ : it.pkt.opByte 8 = 0 ∨ ∃ n, it.pkt.opByte 8 = n + 5 :=
    hact.imp_right fun h => ⟨it.pkt.opByte 8 - 5, by omega⟩
  · simp only [hnone]
  · simp only [hn]

/-! ### Fields of CH_CTL and CH_BUS_STATUS after a write to one of them -/

theorem rd_wr1_other (s : State) (f g : Fld) (i v : Nat) (h : g.lo + g.len ≤ f.lo ∨ f.lo + f.len ≤ g.lo) :
    rd (wr1 s f i v) g i = rd s g i := rd_wr_fld _ _ _ _ _ _ _ _ _ _ h

theorem rdB_wr1_other (s : State) (f g : Fld) (i v : Nat) (h : g.lo + g.len ≤ f.lo ∨ f.lo + f.len ≤ g.lo) :
    rdB (wr1 s f i v) g i = rdB s g i := by
  rw [rdB, rd_wr1_other _ _ _ _ _ h, rdB]

/-! ### An enable and a disable of one channel (R202, R203, R433) -/

section
variable {s : State} {ch : Nat} (hphase : s.power.phase ≠ some .toReadyDrain)
include hphase

/-- An enable of a READY trained channel of an unfenced group makes it ENABLED. -/
theorem enableCh_of_ready_trained (hstate : rd s F.chCtlState ch = 2) (hfence : cgFenced s (ch / 4) = false)
    (htrained : trained s ch = true) :
    rd (enableCh s ch) F.chCtlState ch = 3 ∧ rdB (enableCh s ch) F.chCtlEnable ch = true := by
  have henable : enableCh s ch = wr1 (wr1 s F.chCtlEnable ch 1) F.chCtlState ch 3 := by
    simp [enableCh, hphase, hstate, hfence, htrained]
  rw [henable, rdB_wr1_other _ _ _ _ _ (by decide)]
  exact ⟨rd_wr_same _ _ _ _ _ _ (by decide), rdB_flag1_same s F.chCtlEnable ch rfl (by decide)⟩

/-- An enable of an untrained one is refused: it stays READY with ENABLE 0 (R165). -/
theorem enableCh_of_ready_untrained (hstate : rd s F.chCtlState ch = 2) (hfence : cgFenced s (ch / 4) = false)
    (htrained : trained s ch = false) :
    rd (enableCh s ch) F.chCtlState ch = 2 ∧ rdB (enableCh s ch) F.chCtlEnable ch = false
      ∧ rdB (enableCh s ch) F.chBusStatusEnRefused ch = true := by
  have henable : enableCh s ch = flag1 (wr1 s F.chCtlEnable ch 0) F.chBusStatusEnRefused ch := by
    simp [enableCh, hphase, hstate, hfence, htrained]
  rw [henable]
  refine ⟨?_, ?_, rdB_flag1_same _ F.chBusStatusEnRefused ch rfl (by decide)⟩
  · rw [flag1, rd_wr1_other _ _ _ _ _ (by decide), rd_wr1_other _ _ _ _ _ (by decide), hstate]
  · rw [flag1, rdB_wr1_other _ _ _ _ _ (by decide), rdB_wr1_zero s F.chCtlEnable ch (by decide)]

/-- While the group is fenced, an enable of a READY or DRAINING channel sets ENABLE only. -/
theorem enableCh_of_fenced (hstate : rd s F.chCtlState ch = 2 ∨ rd s F.chCtlState ch = 1) (hfence : cgFenced s (ch / 4) = true) :
    enableCh s ch = wr1 s F.chCtlEnable ch 1 := by
  rcases hstate with hstate | hstate <;> simp [enableCh, hphase, hstate, hfence]

/-- An enable of a DRAINING channel waits in PENDING. -/
theorem enableCh_of_draining (hstate : rd s F.chCtlState ch = 1) (hfence : cgFenced s (ch / 4) = false) :
    rd (enableCh s ch) F.chCtlState ch = 1 ∧ rdB (enableCh s ch) F.chCtlPending ch = true := by
  have henable : enableCh s ch = wr1 (wr1 s F.chCtlEnable ch 1) F.chCtlPending ch 1 := by
    simp [enableCh, hphase, hstate, hfence]
  rw [henable, rd_wr1_other _ _ _ _ _ (by decide), rd_wr1_other _ _ _ _ _ (by decide)]
  exact ⟨hstate, rdB_flag1_same _ F.chCtlPending ch rfl (by decide)⟩

end

/-- A disable of a DRAINING channel takes a waiting enable back: it goes on draining (R203). -/
theorem disableCh_of_draining {s : State} {ch : Nat} (hstate : rd s F.chCtlState ch = 1) :
    rd (disableCh s ch) F.chCtlState ch = 1 ∧ rdB (disableCh s ch) F.chCtlEnable ch = false
      ∧ rdB (disableCh s ch) F.chCtlPending ch = false := by
  have hdisable : disableCh s ch = wr1 (wr1 s F.chCtlEnable ch 0) F.chCtlPending ch 0 := by simp only [disableCh, hstate]
  rw [hdisable]
  refine ⟨?_, ?_, rdB_wr1_zero _ F.chCtlPending ch (by decide)⟩
  · rw [rd_wr1_other _ _ _ _ _ (by decide), rd_wr1_other _ _ _ _ _ (by decide), hstate]
  · rw [rdB_wr1_other _ _ _ _ _ (by decide), rdB_wr1_zero s F.chCtlEnable ch (by decide)]

/-- Settles O34: the rows, the group's power and the actions one by one, and an enable and a disable by STATE. -/
theorem channelCtlRows : Obligations.ChannelCtlRows := by
  refine ⟨fun c k p s hrow hwf hroutes => ?_, fun s it => ?_, fun s ch _ => ?_⟩
  · obtain ⟨hpacket, hop, hlun⟩ := op_of_channelCtlRow hrow hwf
    have hcarry : carryOut (routed s k.val p) (newItem s k.val p) = _ := carryOut_of_channelCtl hop hlun
    rw [exec_of_routes hwf hpacket hroutes, hcarry]
  · intro g y
    refine ⟨ctlBegin_of_unpowered, fun hup => ⟨fun hact => ?_, fun hact => ?_, fun hact => ?_, fun hact => ?_, ctlBegin_of_no_action hup⟩⟩
    all_goals
      rw [ctlBegin, if_neg (not_not_intro hup)]
      simp only [hact]
      rfl
  · refine ⟨fun hphase => if_pos hphase, fun hphase => ⟨enableCh_of_ready_trained hphase, enableCh_of_ready_untrained hphase,
      fun hstate hfence => ?_, enableCh_of_draining hphase, fun hstate hfence => ?_⟩, fun hstate => ?_, disableCh_of_draining⟩
    · rw [enableCh_of_fenced hphase (.inl hstate) hfence, rd_wr1_other _ _ _ _ _ (by decide)]
      exact ⟨hstate, rdB_flag1_same s F.chCtlEnable ch rfl (by decide)⟩
    · rw [enableCh_of_fenced hphase (.inr hstate) hfence, rd_wr1_other _ _ _ _ _ (by decide), rd_wr1_other _ _ _ _ _ (by decide)]
      exact ⟨hstate, rdB_flag1_same s F.chCtlEnable ch rfl (by decide), rfl⟩
    · simp only [disableCh, fenceCh, hstate, and_self]

end Sys2Proof.Machine
end

section
/-! Sorting by a strict order, and what the ledger's operations leave: the counts of a grant, the coins and the requests
(R206, R212, R468). -/

namespace Sys2Proof.Machine

/-! ### Sorting -/

/-- `insertBy` is Mathlib's insertion by a relation. -/
theorem insertBy_eq_orderedInsert {α : Type} (lt : α → α → Bool) (a : α) (l : List α) :
    insertBy lt a l = l.orderedInsert (fun x y => lt x y = true) a := by
  induction l with
  | nil => rfl
  | cons b r ih => rw [insertBy, List.orderedInsert_cons, ih]

theorem mem_insertBy {α : Type} (lt : α → α → Bool) (a x : α) (l : List α) : x ∈ insertBy lt a l ↔ x = a ∨ x ∈ l := by
  rw [insertBy_eq_orderedInsert, List.mem_orderedInsert]

/-- Sorting keeps the elements. -/
theorem mem_sortBy {α : Type} (lt : α → α → Bool) (x : α) (l : List α) : x ∈ sortBy lt l ↔ x ∈ l := by
  have hfold (acc : List α) : x ∈ l.foldl (fun acc a => insertBy lt a acc) acc ↔ x ∈ l ∨ x ∈ acc := by
    induction l generalizing acc with
    | nil => simp
    | cons b r ih => rw [List.foldl_cons, ih, mem_insertBy, List.mem_cons, or_left_comm, or_assoc]
  rw [sortBy, hfold, or_iff_left List.not_mem_nil]

section
variable {α : Type} {lt : α → α → Bool} (hasymm : ∀ a b, lt a b = true → lt b a = false)
  (htrans : ∀ a b c, lt a b = true → lt b c = true → lt a c = true)
include hasymm htrans

/-- Insertion by a strict order keeps a list in order: no element precedes an earlier one. -/
theorem pairwise_insertBy (a : α) {l : List α} (h : l.Pairwise fun x y => lt y x = false) :
    (insertBy lt a l).Pairwise fun x y => lt y x = false := by
  induction l with
  | nil => exact List.pairwise_singleton _ _
  | cons b r ih =>
    obtain ⟨hb, hr⟩ := List.pairwise_cons.mp h
    rw [insertBy]
    split
    case isTrue hab =>
      refine List.pairwise_cons.mpr ⟨fun y hy => ?_, h⟩
      rcases List.mem_cons.mp hy with rfl | hy
      · exact hasymm _ _ hab
      · exact Bool.eq_false_iff.mpr fun hya => Bool.eq_false_iff.mp (hb y hy) (htrans _ _ _ hya hab)
    case isFalse hab =>
      refine List.pairwise_cons.mpr ⟨fun y hy => ?_, ih hr⟩
      rcases (mem_insertBy lt a y r).mp hy with rfl | hy
      · exact Bool.eq_false_iff.mpr hab
      · exact hb y hy

/-- Sorting by a strict order puts a list in order. -/
theorem pairwise_sortBy (l : List α) : (sortBy lt l).Pairwise fun x y => lt y x = false :=
  List.foldlRecOn (motive := fun acc : List α => acc.Pairwise fun x y => lt y x = false) l _ List.Pairwise.nil
    fun _ hacc a _ => pairwise_insertBy hasymm htrans a hacc

end

end Sys2Proof.Machine
end

section
/-! The ledger and the launch gate: what a grant, a disarming and an opened gate leave (R210, R212, R213, R232). -/

namespace Sys2Proof.Machine

/-! ### Counting a grant (R468) -/

@[simp] theorem tallyQ_ledger (s : State) (src : Nat) (q : Option (Nat × Nat)) (w : Option Nat) :
    (tallyQ s src q w).ledger = s.ledger := by rw [tallyQ_frame]
@[simp] theorem tallyQ_items (s : State) (src : Nat) (q : Option (Nat × Nat)) (w : Option Nat) :
    (tallyQ s src q w).items = s.items := by rw [tallyQ_frame]

/-- The core clock's frequency takes at most a free word (R414). -/
theorem coreMhz_frame (s : State) : (coreMhz s).2 = { s with freeCtr := (coreMhz s).2.freeCtr } := by
  rw [coreMhz]
  split <;> rfl

/-- Counting a grant is three counts, after at most a free word for the core cycles of its wait. -/
theorem tallyGrant_eq (s : State) (a : Ask) (w : Nat) : ∃ n cls cc, tallyGrant s a w
    = tallyCW (tallyW (tally { s with freeCtr := n } (0x30 + (a.cls - 1))) (0x35 + (a.cls - 1)) cc) (0x1c0 + a.lun.ch) cls cc := by
  rw [tallyGrant]
  by_cases hw : w = 0
  · rw [if_pos hw]
    exact ⟨s.freeCtr, _, _, rfl⟩
  · rw [if_neg hw, coreCycles]
    dsimp only
    rw [coreMhz_frame]
    exact ⟨_, _, _, rfl⟩

/-- Counting a grant leaves the ledger and the items. -/
@[simp] theorem tallyGrant_ledger (s : State) (a : Ask) (w : Nat) : (tallyGrant s a w).ledger = s.ledger := by
  obtain ⟨n, cls, cc, h⟩ := tallyGrant_eq s a w
  rw [h, tallyCW, tallyQ_ledger, tallyW, tallyQ_ledger, tally, tallyQ_ledger]

@[simp] theorem tallyGrant_items (s : State) (a : Ask) (w : Nat) : (tallyGrant s a w).items = s.items := by
  obtain ⟨n, cls, cc, h⟩ := tallyGrant_eq s a w
  rw [h, tallyCW, tallyQ_items, tallyW, tallyQ_items, tally, tallyQ_items]

/-! ### A grant (R210, R212) -/

/-- A grant adds the request's coins and takes the request away; the rest of the ledger keeps. -/
theorem grantAsk_ledger (s : State) (a : Ask) : (grantAsk s a).ledger
    = { s.ledger with asks := s.ledger.asks.filter (fun b => !a.same b), coins := s.ledger.coins ++ grantCoins a } := by
  rw [grantAsk]
  split
  · rfl
  · rw [tallyGrant_ledger, addWait, updItem_ledger]

theorem same_of_mem_grantAsk {s : State} {a b : Ask} (h : b ∈ (grantAsk s a).ledger.asks) : a.same b = false := by
  rw [grantAsk_ledger] at h
  simpa using (List.mem_filter.mp h).2

/-! ### One request in a round (R206, R213) -/

theorem roundStep_of_barred {r : Round} {a : Ask} (h : barred r.s a = true) : roundStep r a = r := by rw [roundStep, if_pos h]

section
variable {r : Round} {a : Ask} (hbarred : barred r.s a = false)
include hbarred

/-- A request that fits, and that no earlier one holds back on a ledger that it costs something of, is granted. -/
theorem roundStep_of_fits (hvcc : vccFits r.s (a.vcc.getD 0) = true) (hvccq : vccqFits r.s (a.vccq.getD 0) = true)
    (hholdV : r.holdV = false ∨ a.vcc.getD 0 = 0) (hholdQ : r.holdQ = false ∨ a.vccq.getD 0 = 0) :
    roundStep r a = { r with s := grantAsk r.s a, granted := r.granted ++ [a] } := by
  have hfree {c : Option Nat} {hold : Bool} (h : hold = false ∨ c.getD 0 = 0) : (costs c && hold) = false := by
    cases c with
    | none => rfl
    | some n => rcases h with rfl | (rfl : n = 0) <;> simp [costs]
  simp [roundStep, hbarred, hvcc, hvccq, hfree hholdV, hfree hholdQ]

/-- A request that a ledger does not fit is not granted: it holds back those behind it where the whole budget would fit it. -/
theorem roundStep_of_not_fits (hkind : a.kind ≠ .aside)
    (hfits : (vccFits r.s (a.vcc.getD 0) && vccqFits r.s (a.vccq.getD 0)) = false) :
    roundStep r a = { r with
      holdV := r.holdV || (!vccFits r.s (a.vcc.getD 0) && a.vcc.getD 0 ≤ vccBudget r.s)
      holdQ := r.holdQ || (!vccqFits r.s (a.vccq.getD 0) && a.vccq.getD 0 ≤ vccqBudget r.s) } := by
  simp [roundStep, hbarred, hfits, hkind]

end

/-! ### The order of a round (R212) -/

/-- The order of a round: by class, oldest first within a class. -/
def askBefore (a b : Ask) : Bool := a.cls < b.cls || (a.cls = b.cls && a.since.getD 0 < b.since.getD 0)

theorem askBefore_iff (a b : Ask) : askBefore a b = true ↔ a.cls < b.cls ∨ (a.cls = b.cls ∧ a.since.getD 0 < b.since.getD 0) := by
  simp [askBefore]

theorem mem_roundOrder (as : List Ask) (a : Ask) : a ∈ roundOrder as ↔ a ∈ as ∧ (a.since.isSome = true ∨ a.kind = .aside) := by
  rw [roundOrder, mem_sortBy, List.mem_filter]
  simp

theorem pairwise_roundOrder (as : List Ask) :
    (roundOrder as).Pairwise fun a b => a.cls < b.cls ∨ (a.cls = b.cls ∧ a.since.getD 0 ≤ b.since.getD 0) := by
  have hsorted : (roundOrder as).Pairwise fun a b => askBefore b a = false :=
    pairwise_sortBy (lt := askBefore)
      (fun a b h => by rw [Bool.eq_false_iff, Ne, askBefore_iff]; rw [askBefore_iff] at h; omega)
      (fun a b c hab hbc => by rw [askBefore_iff] at *; omega) _
  refine hsorted.imp fun {a b} h => ?_
  rw [Bool.eq_false_iff, Ne, askBefore_iff] at h
  omega

/-! ### The item in the gate (R232) -/

/-- The order of a gate: by launch tick, ties in order of chip enable, then LUN. -/
def gateBefore (a b : Item) : Bool :=
  a.pkt.launchTick.toNat < b.pkt.launchTick.toNat
    || (a.pkt.launchTick = b.pkt.launchTick && (a.lun.ce < b.lun.ce || (a.lun.ce = b.lun.ce && a.lun.lun < b.lun.lun)))

theorem gateBefore_iff (a b : Item) : gateBefore a b = true ↔ a.pkt.launchTick.toNat < b.pkt.launchTick.toNat
    ∨ (a.pkt.launchTick.toNat = b.pkt.launchTick.toNat
      ∧ (a.lun.ce < b.lun.ce ∨ (a.lun.ce = b.lun.ce ∧ a.lun.lun < b.lun.lun))) := by
  simp [gateBefore, BitVec.toNat_inj]

/-- The armed items of a channel, in the order of its gate. -/
def armedInOrder (s : State) (ch : Nat) : List Item := sortBy gateBefore (s.items.filter (fun i => i.armed && i.lun.ch = ch))

theorem gateOf_eq (s : State) (ch : Nat) : gateOf s ch = (armedInOrder s ch).head?.map (fun i => i.id) := rfl

theorem mem_armedInOrder {s : State} {ch : Nat} {i : Item} :
    i ∈ armedInOrder s ch ↔ i ∈ s.items ∧ i.armed = true ∧ i.lun.ch = ch := by
  rw [armedInOrder, mem_sortBy, List.mem_filter]
  simp

theorem pairwise_armedInOrder (s : State) (ch : Nat) :
    (armedInOrder s ch).Pairwise fun a b => a.pkt.launchTick.toNat ≤ b.pkt.launchTick.toNat := by
  have hsorted : (armedInOrder s ch).Pairwise fun a b => gateBefore b a = false :=
    pairwise_sortBy
      (fun a b h => by rw [Bool.eq_false_iff, Ne, gateBefore_iff]; rw [gateBefore_iff] at h; omega)
      (fun a b c hab hbc => by rw [gateBefore_iff] at *; omega) _
  refine hsorted.imp fun {a b} h => ?_
  rw [Bool.eq_false_iff, Ne, gateBefore_iff] at h
  omega

/-- The gate of a channel with an armed item holds an armed item of the channel, of least tick. -/
theorem gateOf_of_armed {s : State} {i : Item} (hi : i ∈ s.items) (harmed : i.armed = true) :
    ∃ g, gateOf s i.lun.ch = some g ∧ ∃ j ∈ s.items, j.id = g ∧ j.armed = true ∧ j.lun.ch = i.lun.ch
      ∧ ∀ k ∈ s.items, k.armed = true → k.lun.ch = i.lun.ch → j.pkt.launchTick.toNat ≤ k.pkt.launchTick.toNat := by
  have hhere : i ∈ armedInOrder s i.lun.ch := mem_armedInOrder.mpr ⟨hi, harmed, rfl⟩
  have hsorted := pairwise_armedInOrder s i.lun.ch
  rw [gateOf_eq]
  cases hlist : armedInOrder s i.lun.ch with
  | nil => exact absurd hhere (hlist ▸ List.not_mem_nil)
  | cons j r =>
    obtain ⟨hj, hjarmed, hjch⟩ := mem_armedInOrder.mp (hlist ▸ List.mem_cons_self : j ∈ armedInOrder s i.lun.ch)
    refine ⟨j.id, rfl, j, hj, rfl, hjarmed, hjch, fun k hk hkarmed hkch => ?_⟩
    have hkin : k ∈ j :: r := hlist ▸ mem_armedInOrder.mpr ⟨hk, hkarmed, hkch⟩
    rw [hlist] at hsorted
    rcases List.mem_cons.mp hkin with rfl | hlater
    · exact le_rfl
    · exact List.rel_of_pairwise_cons hsorted hlater

theorem gate_setGate (s : State) (ch : Nat) : (getCh (setGate s ch) ch).gate = gateOf s ch :=
  congrArg ChanSt.gate (getCh_updCh_same ..)

/-! ### Set-asides that are given back or used (R232) -/

/-- A request left where an item's set-asides are taken out is for something else. -/
theorem kind_of_mem_without_asides {as : List Ask} {a : Ask} {id : Nat}
    (ha : a ∈ as.filter (fun b => !(b.item = id && b.kind = .aside))) (hitem : a.item = id) : a.kind ≠ .aside := by
  have hkept := (List.mem_filter.mp ha).2
  simpa [hitem] using hkept

/-- What disarming leaves: the item is not armed, and no set-aside of it is held or asked for. -/
theorem disarm_spec (s : State) (it : Item) : (∀ i, findItem (disarm s it) it.id = some i → i.armed = false)
    ∧ (∀ c ∈ (disarm s it).ledger.coins, c.item = some it.id → c.sort ≠ .aside)
    ∧ (∀ a ∈ (disarm s it).ledger.asks, a.item = it.id → a.kind ≠ .aside) := by
  refine ⟨fun i hi => of_findItem_updItem (f := fun i => { i with armed := false }) (P := fun i => i.armed = false)
    (fun _ => rfl) (fun _ => rfl) hi, fun c hc hitem => ?_, fun a => kind_of_mem_without_asides⟩
  have hkept := (List.mem_filter.mp hc).2
  simpa [hitem] using hkept

/-- A grant of the set-aside leaves the items and the requests. -/
theorem grantAside_frame (s : State) (it : Item) :
    (grantAside s it).items = s.items ∧ (grantAside s it).ledger.asks = s.ledger.asks := by
  rw [grantAside]
  split
  · exact ⟨tallyGrant_items .., (congrArg Ledger.asks (tallyGrant_ledger ..)).trans rfl⟩
  · exact ⟨rfl, rfl⟩

/-- Once the set-aside is granted, no coin of the item stands aside. -/
theorem sort_of_grantAside {s : State} {it : Item} {c : Coin} (hc : c ∈ (grantAside s it).ledger.coins)
    (hitem : c.item = some it.id) : c.sort ≠ .aside := by
  rw [grantAside] at hc
  split at hc
  case isTrue hheld =>
    rw [tallyGrant_ledger] at hc
    obtain ⟨d, _, rfl⟩ := List.mem_map.mp hc
    split
    case isTrue haside => split <;> simp
    case isFalse haside => exact fun hsort => haside ⟨by simpa [haside] using hitem, by simpa [haside] using hsort⟩
  case isFalse hnone =>
    intro haside
    exact hnone (List.any_eq_true.mpr ⟨c, hc, by simp [hitem, haside]⟩)

/-- The state in which a gate has opened for an item: armed no more, it holds its set-aside as its own coins. -/
def gateOpened (s : State) (it : Item) : State :=
  let s1 := updItem s it.id (fun i => { i with armed := false, gateOpen := it.phase = .none || hasCoin s it.id .aside })
  grantAside (setGate { s1 with ledger := { s1.ledger with
    asks := s1.ledger.asks.filter (fun a => !(a.item = it.id && a.kind = .aside)) } } it.lun.ch) it

theorem openGate_eq (s : State) (it : Item) : openGate s it =
    let z := startPass (gateOpened s it) it
    if busyWant z it = false ∧ launchFree z it.lun it = true ∧ (it.phase = .none ∨ isGranted z it.id = true)
      then launchItem z it else z := by
  have hlaunches (z : State) :
      ((!busyWant z it && launchFree z it.lun it && (it.phase = .none || isGranted z it.id)) = true)
        = (busyWant z it = false ∧ launchFree z it.lun it = true ∧ (it.phase = .none ∨ isGranted z it.id = true)) := by
    simp [and_assoc]
  exact ite_congr (hlaunches _) (fun _ => rfl) (fun _ => rfl)

theorem gateOpened_spec (s : State) (it : Item) : (∀ i, findItem (gateOpened s it) it.id = some i → i.armed = false)
    ∧ (∀ a ∈ (gateOpened s it).ledger.asks, a.item = it.id → a.kind ≠ .aside)
    ∧ (∀ c ∈ (gateOpened s it).ledger.coins, c.item = some it.id → c.sort ≠ .aside) := by
  refine ⟨fun i hi => ?_, fun a ha hitem => ?_, fun c hc hitem => sort_of_grantAside hc hitem⟩
  · rw [findItem, gateOpened, (grantAside_frame ..).1] at hi
    exact of_findItem_updItem
      (f := fun i => { i with armed := false, gateOpen := it.phase = .none || hasCoin s it.id .aside })
      (P := fun i => i.armed = false) (fun _ => rfl) (fun _ => rfl) hi
  · rw [gateOpened, (grantAside_frame ..).2] at ha
    exact kind_of_mem_without_asides ha hitem

end Sys2Proof.Machine
end

section
/-! The rows that make items candidates, arm and launch them, grant what they need, and ask for suspends and resumes
(R172, R173, R184, R186, R212, R213, R232, R235). -/

namespace Sys2Proof.Machine

/-! ### Candidates (R172, R230) -/

/-- A time that comes by the next AON edge is reached (R229). -/
theorem reach_of_le {s : State} {t : Nat} (h : t ≤ nextEdge s) : reach s t = some (atFine s t) := if_pos h

/-- Once the fine time base has reached a tick it shows that tick or a later one, as long as it does not wrap. -/
theorem le_fineTick_atFine {s : State} {n : Nat} (h : (atFine s (nsU * n)).fine < 2 ^ 80) : n ≤ fineTick (atFine s (nsU * n)) := by
  have hreached : nsU * n ≤ (atFine s (nsU * n)).fine := le_max_right _ _
  simp only [fineTick, nsU] at h hreached ⊢
  rw [Nat.mod_eq_of_lt (by omega)]
  omega

/-- ITEM_BECOMES_CANDIDATE of a queued item with a tick, whose lead begins by the next AON edge. -/
theorem execItemBecomesCandidate_of_due {id : Nat} {s : State} {it : Item} (hfind : findItem s id = some it)
    (hstage : it.stage = .queued) (htick : it.pkt.launchTick ≠ 0)
    (hdue : nsU * (it.pkt.launchTick.toNat - tickLead s it) ≤ nextEdge s) :
    exec (.itemBecomesCandidate id) s = .next (atFine s (nsU * (it.pkt.launchTick.toNat - tickLead s it))) := by
  show execItemBecomesCandidate id s = _
  simp only [execItemBecomesCandidate, hfind, hstage, htick, reach_of_le hdue, ne_eq, not_false_eq_true, and_self, if_true]

/-! ### Arming (R232) -/

/-- Where the write of an armed item's offsets is needed, it is asked for. -/
theorem armOffs_of_armed {s : State} {it : Item} (h : it.armed = true) : armOffs s it
    = if it.phase = .sense ∧ needsOffs s it = true ∧ busyWant s it = false then wantBus s (offsTenure s it) else s := by
  simp [armOffs, h]

/-- ITEM_ARM of the offered item of a free LUN, with its tick ahead within TICK_ARM and in no quiet window. -/
theorem execItemArm_of_due {id : Nat} {s s1 : State} {it o : Item} (hfind : findItem s id = some it) (hstage : it.stage = .queued)
    (htick : it.pkt.launchTick ≠ 0) (harmed : it.armed = false)
    (hreach : reach s (nsU * (it.pkt.launchTick.toNat - tickArm s)) = some s1) (hahead : fineTick s1 < it.pkt.launchTick.toNat)
    (hoffered : offered s1 it.lun = some o) (hid : o.id = id) (hfree : lunFree s1 it.lun it = true)
    (hmay : mayLaunch s1 it.lun.ch = true) (hquiet : tickQuiet s1 it = false) (hbusy : busyWant s1 it = false) :
    exec (.itemArm id) s = .next (armItem s1 it) := by
  have hpos : it.pkt.launchTick.toNat ≠ 0 := fun h => htick (BitVec.eq_of_toNat_eq h)
  show execItemArm id s = _
  simp [execItemArm, hfind, hstage, hpos, harmed, hreach, hahead, hoffered, hid, hfree, hmay, hquiet, hbusy]

/-- Once an item has armed, the gate of its channel holds an armed item of least tick. -/
theorem gate_of_arming {s : State} {it i : Item} (hfind : findItem s it.id = some i) (harmed : i.armed = true) (hch : i.lun.ch = it.lun.ch) :
    ∃ g, (getCh (setGate s it.lun.ch) it.lun.ch).gate = some g ∧ ∃ j ∈ s.items, j.id = g ∧ j.armed = true ∧ j.lun.ch = it.lun.ch
      ∧ ∀ k ∈ s.items, k.armed = true → k.lun.ch = it.lun.ch → j.pkt.launchTick.toNat ≤ k.pkt.launchTick.toNat := by
  rw [gate_setGate, ← hch]
  exact gateOf_of_armed (List.mem_of_find?_eq_some hfind) harmed

/-! ### The gate opens (R232, R235) -/

section
variable {ch : Fin 48} {s s1 : State} {it : Item} (hgate : (getCh s ch.val).gate.bind (findItem s) = some it)
  (hreach : reach s (nsU * it.pkt.launchTick.toNat) = some s1) (htick : it.pkt.launchTick.toNat ≤ fineTick s1)
include hgate hreach htick

/-- LAUNCH_GATE_OPEN of an item that does not stay armed, or in a quiet window. -/
theorem execLaunchGateOpen_of_disarmed (h : staysArmed s1 it = false ∨ quietActive s1 = true) :
    exec (.launchGateOpen ch) s = .next (kickBus (disarm s1 it) it.lun.ch) := by
  have hnot : ¬(staysArmed s1 it && !quietActive s1) = true := by
    rcases h with h | h <;> simp [h]
  show execLaunchGateOpen ch s = _
  simp only [execLaunchGateOpen, hgate, hreach, if_pos htick, if_neg hnot]

/-- LAUNCH_GATE_OPEN of an item that stays armed, outside every quiet window. -/
theorem execLaunchGateOpen_of_armed (harmed : staysArmed s1 it = true) (hquiet : quietActive s1 = false) :
    exec (.launchGateOpen ch) s = .next (openGate s1 it) := by
  show execLaunchGateOpen ch s = _
  simp only [execLaunchGateOpen, hgate, hreach, if_pos htick, harmed, hquiet, Bool.not_false, Bool.and_self, if_true]

end

/-! ### Launches (R173) -/

section
variable {l : LunSel} {s : State} {it : Item} (hoffered : offered s (lunOf l) = some it)
include hoffered

/-- ITEM_LAUNCH of an offered item whose conditions all hold. -/
theorem execItemLaunch_of_ready (hmay : mayLaunchItem s it = true) (hfree : launchFree s (lunOf l) it = true)
    (htick : tickReached s it = true) (harmed : it.armed = false) (hbusy : busyWant s it = false)
    (hcoins : it.phase = .none ∨ isGranted s it.id = true) : exec (.itemLaunch l) s = .next (launchItem s it) := by
  have hgranted : (decide (it.phase = .none) || isGranted s it.id) = true := by simpa using hcoins
  show execItemLaunch l s = _
  simp only [execItemLaunch, hoffered, hmay, hfree, htick, harmed, hbusy, hgranted, Bool.not_false, Bool.and_self, if_true]

/-- ITEM_LAUNCH of an offered item whose tick is ahead, that is armed, or whose coins are not granted. -/
theorem execItemLaunch_of_not_ready
    (h : tickReached s it = false ∨ it.armed = true ∨ (it.phase ≠ .none ∧ isGranted s it.id = false)) :
    exec (.itemLaunch l) s = .next s := by
  show execItemLaunch l s = _
  simp only [execItemLaunch, hoffered]
  refine if_neg fun hready => ?_
  simp only [Bool.and_eq_true, Bool.or_eq_true, Bool.not_eq_true', decide_eq_true_eq] at hready
  obtain ⟨⟨⟨_, htick⟩, harmed⟩, _⟩ := hready.1
  rcases h with h | h | ⟨hphase, hcoins⟩
  · simp [h] at htick
  · simp [h] at harmed
  · simp [hphase, hcoins] at hready

end

/-- What a launch tenure is: the sense or the first cycle of the item, behind the write of its offsets (R118, R124). -/
theorem launchTenure_spec (s : State) (it : Item) : (launchTenure s it).lun = it.lun ∧ (launchTenure s it).item = some it.id
    ∧ (launchTenure s it).kind = (if it.phase = .sense ∧ needsOffs s it = true then .feature else .launch) := by
  rw [launchTenure]
  split <;> exact ⟨rfl, rfl, rfl⟩

/-! ### Suspends and resumes (R184, R186) -/

/-- SUSPEND_ISSUE at the end of RUN_MIN. -/
theorem execSuspendIssue_of_lapse {l : LunSel} {s s1 : State}
    (hlapse : lapse s ((getLun s (lunOf l)).phaseStart + usU * rd s F.chSchedRunMinUs (lunOf l).ch) = some s1) :
    exec (.suspendIssue l) s = .next (if suspendDue s1 (lunOf l)
      then askBus (raiseSeq s1 l.ch.val 4) { kind := .suspend, lun := lunOf l, item := none, cls := 3 } else s) := by
  show execSuspendIssue l s = _
  simp only [execSuspendIssue, hlapse]
  exact (apply_ite Host.Outcome.next _ _ _).symm

/-- RESUME_ISSUE of a phase whose resume is due and whose coins are granted. -/
theorem execResumeIssue_of_due {l : LunSel} {s : State} {it : Item} (hitem : arrayItem s (lunOf l) = some it)
    (hdue : resumeDue s (lunOf l) = true) (hcoins : hasCoin s it.id .granted = true) (hbusy : busyWant s it = false) :
    exec (.resumeIssue l) s = .next (askBus s { kind := .resume, lun := lunOf l, item := some it.id, cls := 6 }) := by
  show execResumeIssue l s = _
  simp only [execResumeIssue, hitem, hdue, hcoins, hbusy, Bool.not_false, Bool.and_self, if_true]

/-- Settles O47, row by row: each row by what it runs, the gate by the order of the armed items, a round by the order of
its requests and what one request does in it. -/
theorem launchRows : Obligations.LaunchRows := by
  refine ⟨fun id s it hfind hstage htick => ?candidate, fun id s it o hfind hstage htick harmed => ?arm,
    fun ch s it hgate => ?gate, fun l s it hoffered hmay hfree htick harmed hbusy hcoins => ?launch, fun s t => rfl,
    fun l s => ⟨fun hnone => ?none, fun it hoffered => execItemLaunch_of_not_ready hoffered⟩, fun s hup => ?round,
    fun as => ⟨mem_roundOrder as, pairwise_roundOrder as⟩,
    fun r a => ⟨roundStep_of_barred, fun hbarred hvcc hvccq hholdV hholdQ => ?grants, fun hbarred hkind hvcc => ?holdsVcc,
      fun hbarred hkind hvccq => ?holdsVccq⟩,
    fun l s => ?suspend, fun l s it => execResumeIssue_of_due⟩
  case candidate =>
    intro t s1 hdue
    refine ⟨execItemBecomesCandidate_of_due hfind hstage htick hdue, fun hwrap => ?_, rfl⟩
    have hreached : it.pkt.launchTick.toNat - tickLead s it ≤ fineTick s1 := le_fineTick_atFine hwrap
    have hlead : tickLead s1 it = tickLead s it := rfl
    omega
  case arm =>
    intro t s1 y i1 hdue hahead hoffered hid hfree hmay hquiet hbusy
    obtain rfl : it.id = id := id_of_findItem hfind
    have hitem : findItem (updItem s1 it.id (fun i => { i with armed := true })) it.id = some i1 :=
      (findItem_updItem_same s1 it.id (f := fun i => { i with armed := true }) fun _ => rfl).trans (congrArg _ hfind)
    refine ⟨?_, hitem, gate_of_arming hitem rfl rfl⟩
    rw [execItemArm_of_due hfind hstage htick harmed (reach_of_le hdue) hahead hoffered hid hfree hmay hquiet hbusy, armItem,
      armOffs_of_armed rfl]
    rfl
  case gate =>
    intro t s1 hdue htick
    obtain ⟨hitem, hasks, hcoins⟩ := gateOpened_spec s1 it
    exact ⟨fun h => ⟨execLaunchGateOpen_of_disarmed hgate (reach_of_le hdue) htick h, disarm_spec s1 it⟩,
      fun harmed hquiet => ⟨execLaunchGateOpen_of_armed hgate (reach_of_le hdue) htick harmed hquiet,
        gateOpened s1 it, hitem, hasks, hcoins, openGate_eq s1 it⟩⟩
  case launch =>
    have hexec := execItemLaunch_of_ready hoffered hmay hfree htick harmed hbusy hcoins
    refine ⟨fun hphase => ⟨hexec.trans (congrArg _ (if_neg hphase)), launchTenure_spec s it⟩,
      fun hphase => ⟨hexec.trans (congrArg _ (if_pos hphase)), fun hop => ?_, fun hop => ?_, fun hop => ?_, fun hop => ?_⟩⟩
    · simp only [launchOther, hop, itemCls]
    · rcases hop with hop | hop <;> simp only [launchOther, hop, askItem]
    · simp only [launchOther, hop, askItem]
    · simp only [launchOther, hop, askItem]
  case none =>
    show execItemLaunch l s = _
    simp only [execItemLaunch, hnone]
  case round =>
    exact ⟨_, rfl, if_pos hup⟩
  case grants =>
    exact ⟨roundStep_of_fits hbarred hvcc hvccq hholdV hholdQ, congrArg Ledger.coins (grantAsk_ledger ..),
      fun b => same_of_mem_grantAsk⟩
  case holdsVcc =>
    rw [roundStep_of_not_fits hbarred hkind (by simp [hvcc])]
    exact ⟨rfl, rfl, fun hbudget => by simp [hvcc, hbudget]⟩
  case holdsVccq =>
    rw [roundStep_of_not_fits hbarred hkind (by simp [hvccq])]
    exact ⟨rfl, rfl, fun hbudget => by simp [hvccq, hbudget]⟩
  case suspend =>
    intro t s1 hdue
    have hexec := execSuspendIssue_of_lapse (l := l) (lapse_of_due (s := s) (t := t) hdue)
    exact ⟨fun h => hexec.trans (congrArg _ (if_pos h)), fun h => hexec.trans (congrArg _ (if_neg (Bool.eq_false_iff.mp h)))⟩

end Sys2Proof.Machine
end

section
/-! The invariant along the steps of the block: every command keeps it, and so does the AON cycle of an empty queue. -/

namespace Sys2Proof.Machine

/-! ### Commands -/

/-- Every command keeps the invariant, and leaves the queue of the commands that wait. -/
theorem exec_inv {wq : List Instr} {s : State} (hs : InvQ wq s) : ∀ c : Instr, OutInv wq (exec c s)
  | .sqTailDoorbell .. => execSqTailDoorbell_inv hs
  | .rqHeadWrite .. => execRqHeadWrite_inv hs
  | .ringEnable .. => execRingEnable_inv hs
  | .ringDisable .. => execRingDisable_inv hs
  | .ringCfgWrite .. => execRingCfgWrite_inv hs
  | .fetchErrClear .. => execFetchErrClear_inv hs
  | .rcptErrClear .. => execRcptErrClear_inv hs
  | .packetFetchError .. => execPacketFetchError_inv hs
  | .routingResume .. => execRoutingResume_inv hs
  | .read .. => execRead_inv hs
  | .readMulti .. => execReadMulti_inv hs
  | .readRaw .. => execReadRaw_inv hs
  | .program .. => execProgram_inv hs
  | .programMulti .. => execProgramMulti_inv hs
  | .erase .. => execErase_inv hs
  | .eraseMulti .. => execEraseMulti_inv hs
  | .copy .. => execCopy_inv hs
  | .status .. => execStatus_inv hs
  | .setFeature .. => execSetFeature_inv hs
  | .getFeature .. => execGetFeature_inv hs
  | .resetLun .. => execResetLun_inv hs
  | .sequence .. => execSequence_inv hs
  | .ledgerSetBudget .. => execLedgerSetBudget_inv hs
  | .ledgerSetCost .. => execLedgerSetCost_inv hs
  | .ledgerSetQuiet .. => execLedgerSetQuiet_inv hs
  | .timeMark .. => execTimeMark_inv hs
  | .fence .. => execFence_inv hs
  | .scrubStart .. => execScrubStart_inv hs
  | .scrubStop .. => execScrubStop_inv hs
  | .scrubClearPool .. => execScrubClearPool_inv hs
  | .calibrateRun .. => execCalibrateRun_inv hs
  | .calibrateRunForced .. => execCalibrateRunForced_inv hs
  | .calibrateRebase .. => execCalibrateRebase_inv hs
  | .calibrateApply .. => execCalibrateApply_inv hs
  | .relocPoolAdd .. => execRelocPoolAdd_inv hs
  | .bootSwap .. => execBootSwap_inv hs
  | .channelCtlNone .. => execChannelCtlNone_inv hs
  | .channelCtlEnable .. => execChannelCtlEnable_inv hs
  | .channelCtlDisable .. => execChannelCtlDisable_inv hs
  | .fenceGroup .. => execFenceGroup_inv hs
  | .unfenceGroup .. => execUnfenceGroup_inv hs
  | .unhaltLun .. => execUnhaltLun_inv hs
  | .flushLun .. => execFlushLun_inv hs
  | .nop .. => execNop_inv hs
  | .itemBecomesCandidate .. => execItemBecomesCandidate_inv hs
  | .itemArm .. => execItemArm_inv hs
  | .launchGateOpen .. => execLaunchGateOpen_inv hs
  | .itemLaunch .. => execItemLaunch_inv hs
  | .tickEffect .. => execTickEffect_inv hs
  | .ledgerGrant => execLedgerGrant_inv hs
  | .slotGrant => execSlotGrant_inv hs
  | .pollDue .. => execPollDue_inv hs
  | .rbNRise .. => execRbNRise_inv hs
  | .pollComplete .. => execPollComplete_inv hs
  | .dieTimeoutExpiry .. => execDieTimeoutExpiry_inv hs
  | .busTenureEnd .. => execBusTenureEnd_inv hs
  | .transferEnd .. => execTransferEnd_inv hs
  | .suspendIssue .. => execSuspendIssue_inv hs
  | .resumeIssue .. => execResumeIssue_inv hs
  | .decodeHoldExpiry .. => execDecodeHoldExpiry_inv hs
  | .decodeJobClaim .. => execDecodeJobClaim_inv hs
  | .localDecodeEnd .. => execLocalDecodeEnd_inv hs
  | .globalDecodeEnd .. => execGlobalDecodeEnd_inv hs
  | .softDecodeEnd .. => execSoftDecodeEnd_inv hs
  | .ladderStepBegin .. => execLadderStepBegin_inv hs
  | .marginReadLaunch .. => execMarginReadLaunch_inv hs
  | .decodeEngineFault .. => execDecodeEngineFault_inv hs
  | .engineDrainEnd .. => execEngineDrainEnd_inv hs
  | .hostInCommit .. => execHostInCommit_inv hs
  | .parityPassEnd .. => execParityPassEnd_inv hs
  | .hostOutThreshold .. => execHostOutThreshold_inv hs
  | .dmaMoveComplete .. => execDmaMoveComplete_inv hs
  | .ringDescFetchReturn .. => execRingDescFetchReturn_inv hs
  | .descListFetchReturn .. => execDescListFetchReturn_inv hs
  | .hiReadDataBeat .. => execHiReadDataBeat_inv hs
  | .hiWriteResponse .. => execHiWriteResponse_inv hs
  | .hiCreditReturn .. => execHiCreditReturn_inv hs
  | .dmaChannelDrainEnd .. => execDmaChannelDrainEnd_inv hs
  | .channelDrainEnd .. => execChannelDrainEnd_inv hs
  | .ledgerCutRise => execLedgerCutRise_inv hs
  | .ledgerCutFall => execLedgerCutFall_inv hs
  | .cutHoldExpiry => execCutHoldExpiry_inv hs
  | .forceAltWrite .. => execForceAltWrite_inv hs
  | .quietWindowStart .. => execQuietWindowStart_inv hs
  | .quietWindowEnd .. => execQuietWindowEnd_inv hs
  | .ledgerExchangeTick => execLedgerExchangeTick_inv hs
  | .pwrWarnRise => execPwrWarnRise_inv hs
  | .pwrWarnFall => execPwrWarnFall_inv hs
  | .enumFrame .. => execEnumFrame_inv hs
  | .presenceFrame .. => execPresenceFrame_inv hs
  | .allotFrame .. => execAllotFrame_inv hs
  | .timeReqFrame .. => execTimeReqFrame_inv hs
  | .timeRspFrame .. => execTimeRspFrame_inv hs
  | .stepFrame .. => execStepFrame_inv hs
  | .bcastFrame .. => execBcastFrame_inv hs
  | .bcastTickApply .. => execBcastTickApply_inv hs
  | .fwdPktFrame .. => execFwdPktFrame_inv hs
  | .intakeToTeller => execIntakeToTeller_inv hs
  | .fwdAckFrame .. => execFwdAckFrame_inv hs
  | .fwdRcptFrame .. => execFwdRcptFrame_inv hs
  | .rcptAckFrame .. => execRcptAckFrame_inv hs
  | .fwdRetransmitExpiry .. => execFwdRetransmitExpiry_inv hs
  | .presenceSendTick => execPresenceSendTick_inv hs
  | .timeExchangeTick => execTimeExchangeTick_inv hs
  | .masterLost => execMasterLost_inv hs
  | .laneDown .. => execLaneDown_inv hs
  | .laneUp .. => execLaneUp_inv hs
  | .healHoldExpiry => execHealHoldExpiry_inv hs
  | .handoverRequest .. => execHandoverRequest_inv hs
  | .handoverInvert => execHandoverInvert_inv hs
  | .frontEndUp .. => execFrontEndUp_inv hs
  | .frontEndStop .. => execFrontEndStop_inv hs
  | .tbSetWrite .. => execTbSetWrite_inv hs
  | .randKeyWrite .. => execRandKeyWrite_inv hs
  | .ringStartWrite .. => execRingStartWrite_inv hs
  | .reenumWrite .. => execReenumWrite_inv hs
  | .ringPortEnable .. => execRingPortEnable_inv hs
  | .initWrite .. => execInitWrite_inv hs
  | .bringupStepEnd .. => execBringupStepEnd_inv hs
  | .inertWrite .. => execInertWrite_inv hs
  | .chEnableWrite .. => execChEnableWrite_inv hs
  | .chDisableWrite .. => execChDisableWrite_inv hs
  | .cgFenceWrite .. => execCgFenceWrite_inv hs
  | .deCtlWrite .. => execDeCtlWrite_inv hs
  | .poolFenceWrite .. => execPoolFenceWrite_inv hs
  | .dcEnableWrite .. => execDcEnableWrite_inv hs
  | .dcDisableWrite .. => execDcDisableWrite_inv hs
  | .dcKickWrite .. => execDcKickWrite_inv hs
  | .fifoFlushWrite .. => execFifoFlushWrite_inv hs
  | .fifoDbgEnableWrite .. => execFifoDbgEnableWrite_inv hs
  | .fifoDbgPop .. => execFifoDbgPop_inv hs
  | .icClaimRead .. => execIcClaimRead_inv hs
  | .icCompleteWrite .. => execIcCompleteWrite_inv hs
  | .icForceWrite .. => execIcForceWrite_inv hs
  | .icSenseWrite .. => execIcSenseWrite_inv hs
  | .interruptInputChange .. => execInterruptInputChange_inv hs
  | .coalTimeExpiry .. => execCoalTimeExpiry_inv hs
  | .snapNowWrite .. => execSnapNowWrite_inv hs
  | .tallyCountWrite .. => execTallyCountWrite_inv hs
  | .smBankFenceWrite .. => execSmBankFenceWrite_inv hs
  | .smRetireWrite .. => execSmRetireWrite_inv hs
  | .itemSlotsWrite .. => execItemSlotsWrite_inv hs
  | .smRemapWrite .. => execSmRemapWrite_inv hs
  | .smFlipArm .. => execSmFlipArm_inv hs
  | .chFlipArm .. => execChFlipArm_inv hs
  | .winEnRelease .. => execWinEnRelease_inv hs
  | .bootReloadWrite .. => execBootReloadWrite_inv hs
  | .bootWindowRead .. => execBootWindowRead_inv hs
  | .bootWindowFetch .. => execBootWindowFetch_inv hs
  | .bootLoadStart => execBootLoadStart_inv hs
  | .bootLoadEnd .. => execBootLoadEnd_inv hs
  | .modeTargetReady .. => execModeTargetReady_inv hs
  | .modeTargetActive .. => execModeTargetActive_inv hs
  | .modeTargetStandby .. => execModeTargetStandby_inv hs
  | .modeTargetOff .. => execModeTargetOff_inv hs
  | .modeTargetTest .. => execModeTargetTest_inv hs
  | .pwrReqWrite .. => execPwrReqWrite_inv hs
  | .ckSrcWrite .. => execCkSrcWrite_inv hs
  | .clockSwitchDone => execClockSwitchDone_inv hs
  | .ckPllWrite .. => execCkPllWrite_inv hs
  | .clockSourceReady .. => execClockSourceReady_inv hs
  | .corePllLockTimeout => execCorePllLockTimeout_inv hs
  | .coreClockTrip => execCoreClockTrip_inv hs
  | .phyPllTrip .. => execPhyPllTrip_inv hs
  | .poresetAssert => execPoresetAssert_inv hs
  | .poresetRelease => execPoresetRelease_inv hs
  | .sysresetAssert => execSysresetAssert_inv hs
  | .sysresetRelease => execSysresetRelease_inv hs
  | .supplyOkRise .. => execSupplyOkRise_inv hs
  | .supplyOkFall .. => execSupplyOkFall_inv hs
  | .vddqLoss .. => execVddqLoss_inv hs
  | .pswAckRise .. => execPswAckRise_inv hs
  | .pswAckUnplannedFall .. => execPswAckUnplannedFall_inv hs
  | .pswHandshakeTimeout .. => execPswHandshakeTimeout_inv hs
  | .strapChange => execStrapChange_inv hs
  | .patchRamClearEnd .. => execPatchRamClearEnd_inv hs
  | .mcWriteEnWrite .. => execMcWriteEnWrite_inv hs
  | .mcPatchEnWrite .. => execMcPatchEnWrite_inv hs
  | .mcRestartWrite .. => execMcRestartWrite_inv hs
  | .machineCheck .. => execMachineCheck_inv hs
  | .microTrapEntry .. => execMicroTrapEntry_inv hs
  | .trapReturn .. => execTrapReturn_inv hs
  | .routineEnd .. => execRoutineEnd_inv hs
  | .routineTimeout .. => execRoutineTimeout_inv hs
  | .svcFeFenceWrite .. => execSvcFeFenceWrite_inv hs
  | .trimWrite .. => execTrimWrite_inv hs
  | .tempUpdate .. => execTempUpdate_inv hs
  | .calRetryExpiry .. => execCalRetryExpiry_inv hs
  | .calForcingTimeout .. => execCalForcingTimeout_inv hs
  | .calBoundary .. => execCalBoundary_inv hs
  | .calRunEnd .. => execCalRunEnd_inv hs
  | .patrolReadLaunch => execPatrolReadLaunch_inv hs
  | .relocationStart .. => execRelocationStart_inv hs
  | .relocReceiptWrite => execRelocReceiptWrite_inv hs
  | .sramScrubVisit => execSramScrubVisit_inv hs
  | .bistStepEnd .. => execBistStepEnd_inv hs
  | .bistBudgetExpiry => execBistBudgetExpiry_inv hs
  | .wsBypass => execWsBypass_inv hs
  | .wsExtest => execWsExtest_inv hs
  | .scanSlice .. => execScanSlice_inv hs
  | .resultRead => execResultRead_inv hs
  | .lcRead => execLcRead_inv hs
  | .halfRead .. => execHalfRead_inv hs
  | .readClearAccess .. => execReadClearAccess_inv hs
  | .registerWrite .. => execRegisterWrite_inv hs
  | .errorResponse .. => execErrorResponse_inv hs
  | .scanShift en bits => execScanShift_inv (x0 := en) (x1 := bits) hs

/-- The next state that a command answers meets the invariant, with the same queue. -/
theorem InvQ.of_exec {wq : List Instr} {c : Instr} {s t : State} (hs : InvQ wq s) (h : exec c s = .next t) : InvQ wq t := by
  have hout := exec_inv hs c
  rwa [h] at hout

/-! ### Steps -/

/-- A step with no command waiting is one AON cycle. -/
theorem step_of_nil {s : State} (h : s.pending = []) : step s = .next (idle s) := by
  rw [step, h]

/-- A step carries out the command at the front, on the state with the queue's rest. -/
theorem step_of_cons {s : State} {c : Instr} {r : List Instr} (h : s.pending = c :: r) :
    step s = exec c { s with pending := r } := by
  rw [step, h]

/-- Settles O4: an AON cycle on an empty queue, else the command at the front; the queue itself is no part of the invariant. -/
theorem stepKeepsInvariant : Obligations.StepKeepsInvariant := by
  intro s t hs hstep
  cases hqueue : s.pending with
  | nil =>
    rw [step_of_nil hqueue] at hstep
    cases hstep
    exact (idle_inv (InvQ.of_inv hs)).inv
  | cons c r =>
    rw [step_of_cons hqueue] at hstep
    have hrest : InvQ r { s with pending := r } := InvQ.of_inv (s := { s with pending := r }) hs
    exact (hrest.of_exec hstep).inv

end Sys2Proof.Machine
end

section
/-! Writes of a 64-bit register at its width (R376, R379), and TB_SET (R231). -/

namespace Sys2Proof.Machine

/-! ### The rows -/

/-- An access to a 64-bit register, made at the register's width, touches that register alone. -/
theorem touched_accessOf_wide (a : Acc) (r : Reg) (write : Bool) (v : W64) (hat : regAt (regAddr r) = some r)
    (hwide : r.name.row.wide = true) (halign : regAddr r % 8 = 0) (hfits : regAddr r < 2 ^ 24) :
    touched (accessOf a r write v) = [(r, .all 0)] := by
  have haddr : (accessOf a r write v).addr.toNat = regAddr r := Nat.mod_eq_of_lt hfits
  have hword : regAddr r / 8 * 8 = regAddr r := Nat.div_mul_cancel (Nat.dvd_of_mod_eq_zero halign)
  simp [touched, haddr, hword, hat, hwide, show (accessOf a r write v).size64 = true from hwide]

/-- A row that writes a 64-bit register, when its access is taken, answers it and makes the write. -/
theorem writeRow_of_takes_wide {a : Acc} {r : Reg} {v : W64} {s : State} (h : Takes s (accessOf a r true v))
    (hat : regAt (regAddr r) = some r) (hwide : r.name.row.wide = true) (halign : regAddr r % 8 = 0)
    (hfits : regAddr r < 2 ^ 24) : writeRow a r v true s = .next (written a (answered s a r v) (whole r v)) := by
  have hparts : writeParts (answered s a r v) (accessOf a r true v) = written a (answered s a r v) (whole r v) := by
    simp only [writeParts, touched_accessOf_wide a r true v hat hwide halign hfits, List.foldl_cons, List.foldl_nil,
      regWrite, partWrite_accessOf a r v halign]
    rfl
  rw [← hparts]
  exact congrArg Host.Outcome.next (hostAccess_of_takes h rfl)

/-! ### A flag without an index -/

/-- A flag of a register that stands once reads 1 when it is set. -/
theorem rdB_flag0_same (s : State) (f : Fld) (hlen : f.len = 1) (hlo : f.lo < 64) : rdB (flag0 s f) f = true :=
  rdB_flag1_same s f 0 hlen hlo

/-- Setting a flag of a register that stands once leaves every other register. -/
theorem getR_flag0_other (s : State) (f : Fld) {n : RegName} {i j l : Nat} (h : ¬(n = f.reg ∧ i = 0 ∧ j = 0 ∧ l = 0)) :
    getR (flag0 s f) n i j l = getR s n i j l :=
  getR_wr1_other s f 0 1 h

/-! ### TB_SET (R231) -/

/-- A write of TB_SET that is taken is answered, and then is the write of R231: TB_SET lies in a shared region. -/
theorem execTbSetWrite_of_takes {a : Acc} {v : W64} {s : State} (h : Takes s (accessOf a (reg0 .tbSet) true v)) :
    exec (.tbSetWrite a v) s = .next (writeTbSet (answered s a (reg0 .tbSet) v) (whole (reg0 .tbSet) v)) :=
  (show exec (.tbSetWrite a v) s = writeRow a (reg0 .tbSet) v true s from rfl).trans
    (writeRow_of_takes_wide h (by decide +kernel) rfl rfl (by decide))

/-- The time master and a unit alone keep the value for the next AON edge. -/
theorem writeTbSet_of_setter {s : State} (w : RegWrite) (h : isMaster s = true ∨ ringAlone s = true) :
    writeTbSet s w = { s with tbNext := some (nsU * w.val.toNat) } :=
  if_pos h

/-- Any other unit refuses the write. -/
theorem writeTbSet_of_follower {s : State} (w : RegWrite) (hmaster : isMaster s = false) (halone : ringAlone s = false) :
    writeTbSet s w = flag0 s F.tbStatusSetRefused :=
  if_neg (by simp [hmaster, halone])

/-- At the AON edge after a write of `v` ns the time base stands at `v` with a zero fraction, and the fine time base with it. -/
theorem aonTick_of_tbNext {s : State} {v : W64} (h : s.tbNext = some (nsU * v.toNat)) :
    (aonTick s).tb = v.toNat * 2 ^ 16 ∧ (aonTick s).fine = v.toNat * 2 ^ 16 ∧ fineTick (aonTick s) = v.toNat := by
  have hv := v.isLt
  have hset : s.tbNext.getD (nextEdge s) % 2 ^ 80 = v.toNat * 2 ^ 16 := by
    simp only [h, Option.getD_some, nsU]
    omega
  have hfine : (aonTick s).fine = v.toNat * 2 ^ 16 := hset
  refine ⟨hset, hfine, ?_⟩
  simp only [fineTick, hfine, nsU]
  omega

/-- Settles O36: by whether the unit sets its own time base, and by what the next AON edge takes. -/
theorem timeBaseSet : Obligations.TimeBaseSet := by
  intro a v s htakes s0
  have hexec := execTbSetWrite_of_takes htakes
  refine ⟨fun hsetter => ?_, fun hmaster halone => ?_⟩
  · exact ⟨{ s0 with tbNext := some (nsU * v.toNat) },
      hexec.trans (congrArg Host.Outcome.next (writeTbSet_of_setter (s := s0) _ hsetter)), rfl, aonTick_of_tbNext rfl⟩
  · exact ⟨flag0 s0 F.tbStatusSetRefused,
      hexec.trans (congrArg Host.Outcome.next (writeTbSet_of_follower (s := s0) _ hmaster halone)),
      rdB_flag0_same s0 F.tbStatusSetRefused rfl (by decide), rfl, rfl, fun n i j l hother => getR_flag0_other s0 _ hother⟩

end Sys2Proof.Machine
end

section
/-! The registers of the Xaram ring port and its lanes: what writing a field and what sending frames leave (R240–R246). -/

namespace Sys2Proof.Machine

/-! ### Fields of registers that stand once -/

/-- `wr0` leaves a field of another register, and a field of the same register that shares no bit with the one written. -/
theorem rd_wr0_apart (s : State) (f g : Fld) (v : Nat)
    (h : g.reg ≠ f.reg ∨ g.lo + g.len ≤ f.lo ∨ f.lo + f.len ≤ g.lo) : rd (wr0 s f v) g = rd s g := by
  rcases h with hreg | hbits
  · exact rd_wr_reg s f g 0 0 0 0 0 0 v (.inl hreg)
  · exact rd_wr0_other s f g v hbits

/-- A one-bit field apart from the one written keeps its value. -/
theorem rdB_wr0_apart (s : State) (f g : Fld) (v : Nat)
    (h : g.reg ≠ f.reg ∨ g.lo + g.len ≤ f.lo ∨ f.lo + f.len ≤ g.lo) : rdB (wr0 s f v) g = rdB s g :=
  congrArg (fun n => decide (n = 1)) (rd_wr0_apart s f g v h)

/-- A flag that 0 is written to reads 0. -/
theorem rdB_wr0_zero (s : State) (f : Fld) (h : f.lo + f.len ≤ 64) : rdB (wr0 s f 0) f = false :=
  rdB_wr1_zero s f 0 h

/-- The ring port's state beside its registers holds no register. -/
@[simp] theorem rd_updPort (s : State) (f : RingPort → RingPort) (g : Fld) (i j k : Nat) :
    rd (updPort s f) g i j k = rd s g i j k := rd_congr rfl g i j k
@[simp] theorem rdB_updPort (s : State) (f : RingPort → RingPort) (g : Fld) (i j k : Nat) :
    rdB (updPort s f) g i j k = rdB s g i j k := congrArg (fun n => decide (n = 1)) (rd_updPort s f g i j k)

/-- An event that is counted leaves a one-bit field outside the registers of tallies. -/
theorem rdB_tally (s : State) (src : Nat) (f : Fld) (hval : f.reg ≠ .tallyVal) (hcfg : f.reg ≠ .tallyCfg) :
    rdB (tally s src) f = rdB s f :=
  congrArg (fun n => decide (n = 1)) (rd_tally s src f 0 0 0 hval hcfg)

@[simp] theorem tally_ring (s : State) (src : Nat) : (tally s src).ring = s.ring := by rw [tally_frame]

/-! ### Frames put on the ring (R244) -/

/-- `t` differs from `s` at most in what the sending of frames changes: the outgoing lanes, the frames that wait for them, the
times of the requests outstanding, the frames sent, and the free values. -/
def SendsOnly (s t : State) : Prop :=
  ∃ c x a b d, t = { s with freeCtr := c, ringTx := x, ring := { s.ring with t1 := a, tx := b, txq := d } }

theorem SendsOnly.refl (s : State) : SendsOnly s s := ⟨_, _, _, _, _, rfl⟩

theorem SendsOnly.trans {s t u : State} (h : SendsOnly s t) (g : SendsOnly t u) : SendsOnly s u := by
  obtain ⟨_, _, _, _, _, rfl⟩ := h
  obtain ⟨_, _, _, _, _, rfl⟩ := g
  exact ⟨_, _, _, _, _, rfl⟩

theorem sendTx_sendsOnly (s : State) (w : TxWait) : SendsOnly s (sendTx s w) := by
  have hstamp (n : Nat) : SendsOnly s (stamped s n w.body).2 := by cases w.body <;> exact ⟨_, _, _, _, _, rfl⟩
  have hscr (t : State) (l n : Nat) : SendsOnly t (scrAt t l n).2 := by
    rw [scrAt]
    split
    · exact .refl t
    · exact ⟨_, _, _, _, _, rfl⟩
  exact ((hstamp _).trans (hscr _ _ _)).trans ⟨_, _, _, _, _, rfl⟩

theorem drainLane_sendsOnly (lane n : Nat) (s : State) : SendsOnly s (drainLane lane n s) := by
  induction n generalizing s with
  | zero => exact .refl s
  | succ n ih =>
    rw [drainLane]
    split
    · split
      · exact (sendTx_sendsOnly s _).trans (ih _)
      · exact .refl s
    · exact .refl s

theorem ringDrain_sendsOnly (s : State) : SendsOnly s (ringDrain s) := by
  simp only [ringDrain]
  split
  · exact (drainLane_sendsOnly ..).trans (drainLane_sendsOnly ..)
  · exact .refl s

theorem ringPut_sendsOnly (s : State) (lane : Nat) (c : TxClass) (h : FrameHdr) (f : TxFrame) :
    SendsOnly s (ringPut s lane c h f) := by
  rw [ringPut]
  split
  · exact ((ringDrain_sendsOnly s).trans ⟨_, _, _, _, _, rfl⟩).trans (ringDrain_sendsOnly _)
  · exact .refl s

/-- A frame that the unit originates. -/
theorem ringSend_sendsOnly (s : State) (f : TxFrame) : SendsOnly s (ringSend s f) := by
  rw [ringSend]
  split
  · exact .refl s
  · exact ringPut_sendsOnly ..

theorem SendsOnly.rd {s t : State} (h : SendsOnly s t) (f : Fld) : rd t f = rd s f := by
  obtain ⟨_, _, _, _, _, rfl⟩ := h
  rfl

theorem SendsOnly.enumAddr {s t : State} (h : SendsOnly s t) : t.ring.enumAddr = s.ring.enumAddr := by
  obtain ⟨_, _, _, _, _, rfl⟩ := h
  rfl

end Sys2Proof.Machine
end

section
/-! XR_CTL and RING_START (R226, R246, R249, R250). -/

namespace Sys2Proof.Machine

/-! ### ENABLE and REENUM (R246) -/

/-- A write of XR_CTL that is taken: answered, the write is made; ENABLE, when it changes, turns the port on or off, and a 1 in
REENUM asks for an enumeration. -/
theorem writeRow_xrCtl {a : Acc} {v : W32} {s : State} (h : Takes s (accessOf a (reg0 .xrCtl) true (v.setWidth 64))) :
    writeRow a (reg0 .xrCtl) (v.setWidth 64) true s =
      .next (let y := (whole (reg0 .xrCtl) (v.setWidth 64)).plain (answered s a (reg0 .xrCtl) (v.setWidth 64))
        let z := if v.getLsbD 0 = rdB s F.xrCtlEnable then y else portEnable y (v.getLsbD 0)
        if v.getLsbD 1 then reenum z else z) := by
  have henable : rdB ((whole (reg0 .xrCtl) (v.setWidth 64)).plain (answered s a (reg0 .xrCtl) (v.setWidth 64))) F.xrCtlEnable
      = v.getLsbD 0 := rdB_plain_whole (reg0 .xrCtl) v _ F.xrCtlEnable rfl rfl (by decide) (by decide) (by decide)
  have hreenum : (whole (reg0 .xrCtl) (v.setWidth 64)).one F.xrCtlReenum = v.getLsbD 1 := one_whole _ v _ (by decide)
  calc writeRow a (reg0 .xrCtl) (v.setWidth 64) true s
      = .next (written a (answered s a (reg0 .xrCtl) (v.setWidth 64)) (whole (reg0 .xrCtl) (v.setWidth 64))) :=
        writeRow_of_takes h (by decide +kernel) rfl rfl (by decide)
    _ = .next (writeXrCtl (answered s a (reg0 .xrCtl) (v.setWidth 64)) (whole (reg0 .xrCtl) (v.setWidth 64))) := rfl
    _ = _ := by rw [writeXrCtl, henable, hreenum]; rfl

/-- An enabled port whose HK3 works leaves OFF for TRAINING. -/
theorem xrState_portEnable_on {s : State} (hup : hk3Up s = true) (hoff : xrState s = 0) : xrState (portEnable s true) = 1 := by
  have hup' : hk3Up (wr0 s F.xrCtlEnable 1) = true := by
    have hruns : engRunning (wr0 s F.xrCtlEnable 1) 14 3 = engRunning s 14 3 :=
      congrArg (fun n => decide (n = 1)) (rd_wr_reg s F.xrCtlEnable F.mcEngState 0 0 0 14 3 0 1 (.inl (by decide)))
    rw [← hup, hk3Up, hk3Up, hruns]
    rfl
  have hoff' : xrState (wr0 s F.xrCtlEnable 1) = 0 := (rd_wr0_apart _ _ _ _ (by decide)).trans hoff
  exact (congrArg xrState (if_pos ⟨hoff', hup'⟩)).trans (rd_wr0_same _ F.xrStatusState 1 (by decide))

/-- A port that stops shows STATE OFF, no lane up, and is neither wrapped nor master (R250). -/
theorem portOff_spec (s : State) : xrState (portOff s) = 0 ∧ rdB (portOff s) F.xrStatusIn0Up = false
    ∧ rdB (portOff s) F.xrStatusIn1Up = false ∧ wrapped (portOff s) = false ∧ isMaster (portOff s) = false := by
  rw [portOff]
  generalize forgetUnits s = x
  simp (disch := decide) only [xrState, wrapped, isMaster, setXr, rdB_wr0_apart, rd_wr0_apart, rdB_wr0_zero, rd_wr0_same, rd_updPort,
    rdB_updPort, Nat.zero_mod, and_self]

/-- The head that begins an enumeration is ENUMERATING with REENUM 1, and is to take address 0 (R246). -/
theorem enumBegin_spec (s : State) : xrState (enumBegin s) = 2 ∧ (enumBegin s).ring.enumAddr = some 0
    ∧ rdB (enumBegin s) F.xrCtlReenum = true := by
  have hsend := ringSend_sendsOnly (updPort (wr0 (setXr (forgetUnits (freeWord s).2) 2) F.xrCtlReenum 1)
    (fun r => { r with nonce := (freeWord s).1.toNat % 65536, enumRun := true, enumAddr := some 0 }))
    (.enum 0 ((freeWord s).1.toNat % 65536) 1)
  refine ⟨(hsend.rd F.xrStatusState).trans ?_, hsend.enumAddr, decide_eq_true ((hsend.rd F.xrCtlReenum).trans ?_)⟩
  · rw [rd_updPort, rd_wr0_apart _ _ _ _ (by decide), setXr, rd_wr0_same _ _ _ (by decide)]
    rfl
  · rw [rd_updPort, rd_wr0_same _ _ _ (by decide)]
    rfl

/-! ### RING_START (R226) -/

/-- A write of 1 to RING_START that is taken while PD_HK works: answered, the write is made, and the start follows. -/
theorem execRingStartWrite_of_takes {a : Acc} {v : W64} {s : State} (h : Takes s (accessOf a (reg0 .lgRingCtl) true v))
    (hone : v.getLsbD 33 = true) (hup : domUp s dHk = true) : exec (.ringStartWrite a v) s =
      .next (ringStart ((whole (reg0 .lgRingCtl) v).plain (answered s a (reg0 .lgRingCtl) v))) := by
  have hstart : (whole (reg0 .lgRingCtl) v).one F.lgRingCtlRingStart = true := by
    have hval : (whole (reg0 .lgRingCtl) v).val &&& (whole (reg0 .lgRingCtl) v).mask = v := by
      exact BitVec.and_allOnes
    rw [RegWrite.one, hval, fget_one, hone]
    rfl
  calc exec (.ringStartWrite a v) s
      = writeRow a (reg0 .lgRingCtl) v (v.getLsbD 33) s := rfl
    _ = .next (written a (answered s a (reg0 .lgRingCtl) v) (whole (reg0 .lgRingCtl) v)) := by
      rw [hone, writeRow_of_takes_wide h (by decide +kernel) rfl rfl (by decide)]
    _ = .next (writeLgRing (answered s a (reg0 .lgRingCtl) v) (whole (reg0 .lgRingCtl) v)) := rfl
    _ = _ := congrArg Host.Outcome.next (if_pos ⟨hstart, hup⟩)

/-- RING_START on a unit that is not ledger master does nothing. -/
theorem ringStart_of_follower {s : State} (h : isMaster s = false) : ringStart s = s := by simp [ringStart, h]

section
variable {s : State} (hmaster : isMaster s = true) (halone : ∀ k, k < 16 → xrPresent s k = true → k = hereAddr s)
  (hen : ringEn s = true)
include hmaster halone hen

/-- The start on a ledger master that no other unit is present with depends on the unit's own FLOOR and coins alone. -/
theorem ringStart_of_alone : ringStart s =
    if rd s F.lgRingCtlRingBudget < rd s F.lgRingCtlFloor ∨ rd s F.lgRingCtlFloor < vccHeld s then
      flag0 s F.lgStatusRingRefused
    else updPort (updLedger (wr0 (wr0 s F.lgRingStatusHolding (rd s F.lgRingCtlFloor)) F.lgRingStatusPool
        (rd s F.lgRingCtlRingBudget - rd s F.lgRingCtlFloor))
      (fun l => { l with ringRun := true, ringIn := true, exch := 0, yieldPool := 0 }))
      (fun r => { r with exchWait := none, startDue := false }) := by
  have hothers : (List.range 16).filter (fun k => xrPresent s k && k ≠ hereAddr s) = [] := by
    simpa [List.filter_eq_nil_iff] using halone
  simp only [ringStart, hothers]
  simp [hmaster, hen]

theorem ringStart_refused (h : rd s F.lgRingCtlRingBudget < rd s F.lgRingCtlFloor ∨ rd s F.lgRingCtlFloor < vccHeld s) :
    ringStart s = flag0 s F.lgStatusRingRefused := by
  rw [ringStart_of_alone hmaster halone hen, if_pos h]

theorem ringStart_taken (hfloor : rd s F.lgRingCtlFloor ≤ rd s F.lgRingCtlRingBudget) (hheld : vccHeld s ≤ rd s F.lgRingCtlFloor) :
    holding (ringStart s) = rd s F.lgRingCtlFloor
      ∧ rd (ringStart s) F.lgRingStatusPool = rd s F.lgRingCtlRingBudget - rd s F.lgRingCtlFloor
      ∧ (ringStart s).ledger.ringRun = true := by
  have hfloorFits : rd s F.lgRingCtlFloor < 2 ^ 16 := fget_lt _ _ _
  have hbudgetFits : rd s F.lgRingCtlRingBudget < 2 ^ 16 := fget_lt _ _ _
  rw [ringStart_of_alone hmaster halone hen, if_neg (by omega)]
  refine ⟨?_, ?_, rfl⟩
  · calc holding _ = rd (wr0 (wr0 s F.lgRingStatusHolding (rd s F.lgRingCtlFloor)) F.lgRingStatusPool
          (rd s F.lgRingCtlRingBudget - rd s F.lgRingCtlFloor)) F.lgRingStatusHolding := rfl
      _ = rd s F.lgRingCtlFloor % 2 ^ 16 := by rw [rd_wr0_apart _ _ _ _ (by decide), rd_wr0_same _ _ _ (by decide)]
      _ = rd s F.lgRingCtlFloor := Nat.mod_eq_of_lt hfloorFits
  · exact (rd_wr0_same _ F.lgRingStatusPool _ (by decide)).trans
      (Nat.mod_eq_of_lt (lt_of_le_of_lt (Nat.sub_le _ _) hbudgetFits))

end

/-- Settles O39: the two rows of XR_CTL make one write, and RING_START goes by mastership and, on a master alone, by FLOOR. -/
theorem ringPortRows : Obligations.RingPortRows := by
  refine ⟨fun a v s htakes => ⟨writeRow_xrCtl htakes, fun hreenum => ?_⟩, fun s => ⟨xrState_portEnable_on, portOff_spec _⟩,
    fun s => ⟨fun hno => ?_, fun hhead hon hstate => ⟨if_pos ⟨hhead, hon, hstate⟩, enumBegin_spec s⟩⟩,
    fun a v s htakes hone hup => execRingStartWrite_of_takes htakes hone hup,
    fun s => ⟨ringStart_of_follower, fun hmaster halone hen =>
      ⟨ringStart_refused hmaster halone hen, ringStart_taken hmaster halone hen⟩⟩⟩
  · calc exec (.reenumWrite a v) s = writeRow a (reg0 .xrCtl) (v.setWidth 64) (v.getLsbD 1) s := rfl
      _ = _ := by rw [hreenum, writeRow_xrCtl htakes, if_pos hreenum]
  · refine if_neg fun ⟨hhead, hon, hstate⟩ => ?_
    rcases hno with h | h | h
    · exact Bool.false_ne_true (h.symm.trans hhead)
    · exact Bool.false_ne_true (h.symm.trans hon)
    · exact hstate h

end Sys2Proof.Machine
end

section
/-! Frames that arrive, and the incoming lanes that deliver them (R240–R243, R251, R252). -/

namespace Sys2Proof.Machine

/-! ### Frames that HK3 hears (R240, R243, R247) -/

/-- A frame that HK3 hears is acted on, once its lane has delivered it. -/
theorem frameIn_of_hears {s : State} {h : FrameHdr} {body : TxFrame} (hears : Hears s h body) (act : State → State) :
    frameIn s h body act = act (frameSeen s h.lane.val) := by
  obtain ⟨hup, ⟨hon, hpass⟩, hlocked, htype, hgood, hsender, hruns⟩ := hears
  simp [frameIn, hup, hon, hlocked, htype, hgood, hsender, hpass, hruns]

section
variable {s : State} {h : FrameHdr} {body : TxFrame} (hears : Hears s h body)
  (hacts : actsOn (frameSeen s h.lane.val) h.lane.val = true)
include hears hacts

/-- A broadcast frame of another unit is acted on and passed on (R243). -/
theorem bcastIn_of_other (hother : sentHere (frameSeen s h.lane.val) h = false) (back act : State → State) :
    bcastIn s h body back act = act (frameSeen s h.lane.val) := by
  rw [bcastIn, frameIn_of_hears hears]
  simp only [hacts, hother, if_true, Bool.false_eq_true, if_false]

/-- A broadcast frame that returns to its source is removed (R243). -/
theorem bcastIn_of_own (hown : sentHere (frameSeen s h.lane.val) h = true) (back act : State → State) :
    bcastIn s h body back act = back (frameSeen s h.lane.val) := by
  rw [bcastIn, frameIn_of_hears hears]
  simp only [hacts, hown, if_true]

end

/-! ### A lane comes up (R241) -/

/-- A lane reads what it was changed to. -/
theorem getRx_updRx_same (s : State) (l : Nat) (f : RxLane → RxLane) : getRx (updRx s l f) l = f (getRx s l) :=
  Tab.get_set_same ..

theorem execLaneUp_of_on {s : State} (l : Fin 2) (hup : domUp s dHk = true) (hon : xrState s ≠ 0) :
    exec (.laneUp l) s
      = .next (portTrained (laneRises (updRx s l.val (fun x => { x with lock := true, hiBer := false })) l.val)) :=
  congrArg Host.Outcome.next (if_pos ⟨hup, hon⟩)

/-- A lane whose bit in XR_STATUS is written 1 is up. -/
theorem laneUp_wr0_one (s : State) (l : Nat) : laneUp (wr0 s (inUp l) 1) l = true := by
  rw [laneUp, inUp]
  split
  · exact rdB_flag0_same s _ rfl (by decide)
  · exact rdB_flag0_same s _ rfl (by decide)

/-- A lane whose bit in XR_STATUS is written 0 is not up. -/
theorem laneUp_wr0_zero (s : State) (l : Nat) : laneUp (wr0 s (inUp l) 0) l = false := by
  rw [laneUp, inUp]
  split
  · exact rdB_wr0_zero s _ (by decide)
  · exact rdB_wr0_zero s _ (by decide)

/-- A locked lane that has delivered a valid frame in the last 4 µs comes up now. -/
theorem laneRises_of_fresh {s : State} {l : Nat} (hlocked : locked s l = true) (hfresh : frameFresh s l = true)
    (hdown : laneUp s l = false) : laneUp (laneRises s l) l = true ∧ Tab.get (laneRises s l).ring.upAt l 0 = s.clk := by
  rw [laneRises, if_pos ⟨hlocked, hfresh, by simp [hdown]⟩]
  exact ⟨laneUp_wr0_one s l, Tab.get_set_same ..⟩

/-- A lane that is up already, or has delivered no valid frame lately, stays as it is. -/
theorem laneRises_of_up_or_stale {s : State} {l : Nat} (h : laneUp s l = true ∨ frameFresh s l = false) : laneRises s l = s := by
  refine if_neg fun ⟨_, hfresh, hdown⟩ => ?_
  rcases h with hup | hstale
  · exact hdown hup
  · exact Bool.false_ne_true (hstale.symm.trans hfresh)

/-! ### A lane goes down (R251) -/

/-- LANE_DOWN for lack of lock or for the monitor. -/
theorem execLaneDown_at_once (s : State) (l : Fin 2) {c : LaneCause} (hc : c ≠ .noFrame) :
    exec (.laneDown ⟨l, c⟩) s = .next (laneFalls (laneLoses s l.val c) l.val) := by
  cases c with
  | noFrame => exact absurd rfl hc
  | noLock => rfl
  | highBer => rfl

/-- LANE_DOWN for lack of frames, 4 µs after the last. -/
theorem execLaneDown_of_silence {s s1 : State} {l : Fin 2} {t : Nat} (hlast : (getRx s l.val).lastFrame = some t)
    (hlapse : lapse s (4 * usU + t) = some s1) :
    exec (.laneDown ⟨l, .noFrame⟩) s = .next (laneFalls (laneLoses s1 l.val .noFrame) l.val) := by
  show execLaneDown ⟨l, .noFrame⟩ s = _
  simp only [execLaneDown, hlast, hlapse]

/-- The unit that has lost a lane and wrapped for it, before it looks again at its training (R251). -/
def laneFallen (s : State) (l : Nat) : State :=
  let s1 := updPort (wr0 s (inUp l) 0) (fun r => { r with lost := if l ∈ r.lost then r.lost else r.lost ++ [l] })
  flag0 (if wrapped s then s1 else tally (wr0 s1 F.xrStatusWrapped 1) 0x42) F.xrStatusBreakSeen

theorem laneFalls_of_on {s : State} (l : Nat) (hup : domUp s dHk = true) (hon : xrState s ≠ 0)
    (hlanes : laneUp s 0 = true ∨ laneUp s 1 = true) : laneFalls s l = portTrained (laneFallen s l) :=
  if_pos ⟨hup, hon, hlanes⟩

/-- Writing a lane's bit leaves WRAPPED. -/
theorem wrapped_wr0_inUp (s : State) (l v : Nat) : wrapped (wr0 s (inUp l) v) = wrapped s := by
  rw [inUp]
  split
  · exact rdB_wr0_apart s _ _ v (by decide)
  · exact rdB_wr0_apart s _ _ v (by decide)

/-- A write to a field apart from the bits of both lanes leaves which lanes are up. -/
theorem laneUp_wr0_apart (s : State) (f : Fld) (v l : Nat) (h : ∀ g ∈ [F.xrStatusIn0Up, F.xrStatusIn1Up],
    g.reg ≠ f.reg ∨ g.lo + g.len ≤ f.lo ∨ f.lo + f.len ≤ g.lo) : laneUp (wr0 s f v) l = laneUp s l := by
  rw [laneUp, laneUp]
  split
  · exact rdB_wr0_apart s f _ v (h _ (by simp))
  · exact rdB_wr0_apart s f _ v (h _ (by simp))

theorem laneUp_tally (s : State) (src l : Nat) : laneUp (tally s src) l = laneUp s l := by
  rw [laneUp, laneUp]
  split
  · exact rdB_tally s src _ (by decide) (by decide)
  · exact rdB_tally s src _ (by decide) (by decide)

/-- A lane that was lost is down, the unit wraps for it, and BREAK_SEEN shows it. -/
theorem laneFallen_spec (s : State) (l : Nat) : laneUp (laneFallen s l) l = false ∧ wrapped (laneFallen s l) = true
    ∧ rdB (laneFallen s l) F.xrStatusBreakSeen = true ∧ l ∈ (laneFallen s l).ring.lost := by
  have hlost (r : List Nat) : l ∈ (if l ∈ r then r else r ++ [l]) := by
    split
    · assumption
    · exact List.mem_append_right _ List.mem_cons_self
  have hdown := laneUp_wr0_zero s l
  refine ⟨?_, ?_, rdB_flag0_same _ _ rfl (by decide), ?_⟩
  · rw [laneFallen, flag0, laneUp_wr0_apart _ _ _ _ (by decide)]
    split
    · exact hdown
    · rw [laneUp_tally, laneUp_wr0_apart _ _ _ _ (by decide)]
      exact hdown
  · rw [laneFallen, wrapped, flag0, rdB_wr0_apart _ _ _ _ (by decide)]
    split
    next hwrapped => exact (wrapped_wr0_inUp s l 0).trans hwrapped
    · rw [rdB_tally _ _ _ (by decide) (by decide)]
      exact rdB_flag0_same _ F.xrStatusWrapped rfl (by decide)
  · rw [laneFallen, flag0_ring]
    split
    · exact hlost _
    · rw [tally_ring]
      exact hlost _

/-! ### The unit unwraps (R252) -/

/-- A time that was reached is the clock's, if it had not passed. -/
theorem atClk_of_lapse {s s1 : State} {t : Nat} (h : lapse s t = some s1) : s1 = atClk s t := by
  rw [lapse] at h
  split at h
  · exact (Option.some.inj h).symm
  · cases h

section
variable {s s1 : State} {l t : Nat} (hlost : s.ring.lost = [l]) (hup : laneUp s l = true)
  (ht : t = healAt s l) (hlapse : lapse s t = some s1)
include hlost hup ht hlapse

/-- HEAL_HOLD_EXPIRY with one lane lost, when it has stayed up long enough. -/
theorem execHealHoldExpiry_of_one (hl : l < 2) (hon : ringOn s = true) (hwrapped : wrapped s = true) :
    exec .healHoldExpiry s = .next (heal s1) := by
  have hhealing : ([0, 1].filter (healing s)).map (healAt s) = [t] := by
    have hheals : ∀ k, healing s k = decide (k = l) := fun k => by
      by_cases hk : k = l
      · simp [healing, hlost, hk, hup]
      · simp [healing, hlost, hk]
    obtain rfl | rfl : l = 0 ∨ l = 1 := by omega
    · simp [List.filter, hheals, ht]
    · simp [List.filter, hheals, ht]
  show execHealHoldExpiry s = _
  simp only [execHealHoldExpiry, hhealing, hon, hwrapped, and_self, if_true, List.foldl_nil, hlapse]

/-- The unit then wraps for no lane. -/
theorem heal_of_one : wrapped (heal s1) = false ∧ rdB (heal s1) F.xrStatusHealSeen = true ∧ (heal s1).ring.lost = [] := by
  obtain rfl : s1 = atClk s t := atClk_of_lapse hlapse
  have hstayed : healAt (atClk s t) l ≤ (atClk s t).clk := ht ▸ le_max_right s.clk t
  have hnone : (atClk s t).ring.lost.filter (fun k => !(laneUp (atClk s t) k && healAt (atClk s t) k ≤ (atClk s t).clk)) = [] := by
    have hup' : laneUp (atClk s t) l = true := hup
    simp [show (atClk s t).ring.lost = [l] from hlost, hup', hstayed]
  simp only [heal, updPort_ring, hnone, List.isEmpty_nil, if_true]
  refine ⟨?_, ?_, by rw [tally_ring]; exact hnone⟩
  · rw [wrapped, rdB_tally _ _ _ (by decide) (by decide), flag0, rdB_wr0_apart _ _ _ _ (by decide), rdB_wr0_zero _ _ (by decide)]
  · rw [rdB_tally _ _ _ (by decide) (by decide), rdB_flag0_same _ _ rfl (by decide)]

end

end Sys2Proof.Machine
end

section
/-! Enumeration, mastership, presence and the ring-wide exchange at one unit (R227, R246–R249, R253, R255, R261). -/

namespace Sys2Proof.Machine

/-! ### Enumeration (R246–R249) -/

/-- ENUM_FRAME, at the head and at any other unit. -/
theorem execEnumFrame_of_hears {h : FrameHdr} {a c : Byte} {n : BitVec 16} {s : State}
    (hears : Hears s h (.enum a.toNat n.toNat c.toNat)) (hacts : actsOn (frameSeen s h.lane.val) h.lane.val = true) :
    exec (.enumFrame h a n c) s = .next (if isHead (frameSeen s h.lane.val) then
        enumHead (trapHk3 (frameSeen s h.lane.val)) a.toNat n.toNat c.toNat
      else enumUnit (trapHk3 (frameSeen s h.lane.val)) h a.toNat n.toNat c.toNat) := by
  show execEnumFrame h a n c s = _
  rw [execEnumFrame, frameIn_of_hears hears]
  simp only [hacts, Bool.not_true, Bool.false_eq_true, if_false]

/-- A unit that is given the next address waits for the end of the enumeration, and is not master. -/
theorem enumUnit_of_address (s : State) (h : FrameHdr) {a : Nat} (n c : Nat) (ha : a < 15) :
    ∃ x, enumUnit s h a n c = ringPass x h (.enum (a + 1) n (c + 1)) ∧ x.ring.enumAddr = some (a + 1) ∧ isMaster x = false
      ∧ xrState x = 2 := by
  refine ⟨_, if_neg (by omega), rfl, ?_, rd_wr0_same _ F.xrStatusState 2 (by decide)⟩
  rw [isMaster, setXr, rdB_wr0_apart _ _ _ _ (by decide), rdB_updPort, rdB_wr0_zero _ _ (by decide)]

/-- A unit for which no address is left is in PASS. -/
theorem enumUnit_of_none_left (s : State) (h : FrameHdr) {a : Nat} (n c : Nat) (ha : 15 ≤ a) :
    ∃ x, enumUnit s h a n c = ringPass x h (.enum a n (c + 1)) ∧ x.ring.enumAddr = none ∧ rdB x F.xrStatusOversize = true
      ∧ xrState x = 4 := by
  refine ⟨_, if_pos (by omega), rfl, rdB_flag0_same _ _ rfl (by decide), ?_⟩
  rw [xrState, flag0, rd_wr0_apart _ _ _ _ (by decide), setXr, rd_wr0_same _ _ _ (by decide)]
  rfl

/-- A unit that takes an address has it (R246). -/
theorem takeAddr_spec (s : State) {a : Nat} (ha : a < 16) : hereAddr (takeAddr s a) = a ∧ rdB (takeAddr s a) F.xrAddrAddrValid = true := by
  have hvalid : rdB (takeAddr s a) F.xrAddrAddrValid = true := rdB_flag0_same _ _ rfl (by decide)
  have haddr : rd (takeAddr s a) F.xrAddrAddr = a := by
    rw [takeAddr, rd_wr0_apart _ _ _ _ (by decide), rd_wr0_same _ _ _ (by decide)]
    exact Nat.mod_eq_of_lt ha
  exact ⟨by rw [hereAddr, if_pos hvalid, haddr], hvalid⟩

/-- The address that the enumeration gave is taken. -/
theorem commitAddr_of_some {s : State} {a : Nat} (h : s.ring.enumAddr = some a) :
    commitAddr s = updPort (takeAddr s a) (fun r => { r with enumAddr := none }) := by
  simp only [commitAddr, h]

/-- A unit that becomes master shows it (R255). -/
theorem isMaster_becomeMaster (s : State) : isMaster (becomeMaster s false) = true := by
  simp (disch := decide) only [becomeMaster, isMaster, Bool.false_eq_true, if_false, rdB_updPort, rdB_wr0_apart]
  exact rdB_flag0_same s _ rfl (by decide)

/-- Becoming master by an enumeration writes TB_STATUS and MASTER_ADDR alone. -/
theorem rd_becomeMaster (s : State) (f : Fld) (htime : f.reg ≠ .tbStatus)
    (haddr : f.reg ≠ .xrStatus ∨ f.lo + f.len ≤ 8 ∨ 12 ≤ f.lo) : rd (becomeMaster s false) f = rd s f := by
  have hmaster : f.reg ≠ F.xrStatusMasterAddr.reg ∨ f.lo + f.len ≤ F.xrStatusMasterAddr.lo
      ∨ F.xrStatusMasterAddr.lo + F.xrStatusMasterAddr.len ≤ f.lo := haddr
  simp only [becomeMaster, Bool.false_eq_true, if_false, rd_updPort]
  rw [rd_wr0_apart _ _ _ _ hmaster]
  iterate 4 rw [rd_wr0_apart _ _ _ _ (.inl htime)]

/-- The enumeration frame returns to its head, with the count of the units: the head is RUNNING and master (R246, R249). -/
theorem enumHead_of_own {s : State} (a : Nat) {n : Nat} (c : Nat) (hrun : s.ring.enumRun = true) (hn : n = s.ring.nonce) :
    xrState (enumHead s a n c) = 3 ∧ rd (enumHead s a n c) F.xrStatusUnitsM1 = min 15 (c - 1)
      ∧ isMaster (enumHead s a n c) = true ∧ rdB (enumHead s a n c) F.xrCtlReenum = false := by
  rw [enumHead, if_pos ⟨hrun, hn⟩]
  generalize commitAddr (if 15 < a ∨ 16 < c then flag0 s F.xrStatusOversize else s) = x
  refine ⟨?_, ?_, isMaster_becomeMaster _, ?_⟩
  · rw [xrState, rd_becomeMaster _ _ (by decide) (by decide), rd_updPort, setXr, rd_wr0_same _ _ _ (by decide)]
    rfl
  · rw [rd_becomeMaster _ _ (by decide) (by decide), rd_updPort, setXr, rd_wr0_apart _ _ _ _ (by decide),
      rd_wr0_apart _ _ _ _ (by decide), rd_wr0_same _ _ _ (by decide)]
    exact Nat.mod_eq_of_lt (lt_of_le_of_lt (min_le_left 15 _) (by decide))
  · rw [rdB, rd_becomeMaster _ _ (by decide) (by decide), rd_updPort, setXr, rd_wr0_apart _ _ _ _ (by decide),
      rd_wr0_same _ _ _ (by decide)]
    rfl

/-! ### Presence (R253, R255) -/

theorem execMasterLost_of_silence {s s1 : State} (hlive : ringLive s = true) (hmaster : isMaster s = false)
    (hclaim : s.ring.claim = false) (hlapse : lapse s (4 * usU + s.ring.lastPres) = some s1) :
    exec .masterLost s = .next { s1 with ring := { s1.ring with claim := true, joining := false } } := by
  show execMasterLost s = _
  simp only [execMasterLost, hlive, hmaster, hclaim, hlapse, Bool.false_eq_true, not_false_eq_true, and_self, if_true]
  rfl

/-- A PRESENCE frame that HK3 hears: removed by its sender, else taken and passed on. -/
theorem execPresenceFrame_of_hears {h : FrameHdr} {p : Presence} {s : State} (hlen : p.slots.length = 16)
    (hears : Hears s h (.presence p)) (hacts : actsOn (foldHeard (frameSeen s h.lane.val) h.lane.val) h.lane.val = true)
    (htrained : xrState (foldHeard (frameSeen s h.lane.val) h.lane.val) ≠ 1) :
    exec (.presenceFrame h p) s = .next (if sentHere (foldHeard (frameSeen s h.lane.val) h.lane.val) h then
        presenceBack (trapHk3 (foldHeard (frameSeen s h.lane.val) h.lane.val)) p
      else presencePass (trapHk3 (foldHeard (frameSeen s h.lane.val) h.lane.val)) h p) := by
  show execPresenceFrame h p s = _
  rw [execPresenceFrame, if_neg (not_not_intro hlen), frameIn_of_hears hears]
  simp only [hacts, htrained, not_true_eq_false, or_self, if_false]

/-! ### The ring-wide exchange (R227, R261) -/

/-- ALLOT_FRAME of another unit: a unit that waits for the exchange takes its entry, and every unit passes the frame on. -/
theorem execAllotFrame_of_hears {h : FrameHdr} {n : BitVec 16} {l : List (BitVec 16)} {s : State} (hlen : l.length = 16)
    (hears : Hears s h (.allot n.toNat (l.map (fun a => a.toNat)))) (hacts : actsOn (frameSeen s h.lane.val) h.lane.val = true)
    (hother : sentHere (frameSeen s h.lane.val) h = false) : exec (.allotFrame h n l) s =
      .next (ringPass (trapHk3 (if (frameSeen s h.lane.val).ring.exchWait = some n.toNat then
          takeAllot (frameSeen s h.lane.val) n.toNat (l.getD (hereAddr (frameSeen s h.lane.val)) 0).toNat
        else frameSeen s h.lane.val)) h (.allot n.toNat (l.map (fun a => a.toNat)))) := by
  show execAllotFrame h n l s = _
  rw [execAllotFrame, if_neg (not_not_intro hlen)]
  exact congrArg Host.Outcome.next (bcastIn_of_other hears hacts hother _ _)

/-- An allotment raises HOLDING, and completes the exchange (R227). -/
theorem takeAllot_spec (s : State) {n : Nat} (c : Nat) (hn : n < 2 ^ 16) : (takeAllot s n c).ring.exchWait = none
    ∧ rd (takeAllot s n c) F.lgRingStatusExchange = n
    ∧ rd (takeAllot s n c) F.lgRingStatusHolding = min 65535 (rd s F.lgRingStatusHolding + c) := by
  refine ⟨rfl, ?_, ?_⟩
  · rw [takeAllot, rd_updPort, rd_wr0_same _ _ _ (by decide), show F.lgRingStatusExchange.len = 16 from rfl]
    omega
  · rw [takeAllot, rd_updPort, rd_wr0_apart _ _ _ _ (by decide), rd_wr0_same _ _ _ (by decide), sat, holding, min_comm,
      show F.lgRingStatusHolding.len = 16 from rfl]
    omega

/-- LEDGER_EXCHANGE_TICK on the master of a running budget, when the next multiple of 1,000 ticks comes (R227, R261). -/
theorem execLedgerExchangeTick_of_reach {s s1 : State} (hsends : ringSends s = true) (hmaster : isMaster s = true)
    (hrun : s.ledger.ringRun = true)
    (hreach : reach s (1000 * nsU * max s.ledger.exchAt (ceilDiv s.fine (1000 * nsU))) = some s1) :
    let s2 := if s1.ring.exchWait.isSome then flag0 s1 F.lgStatusRingStale else s1
    let n := (s1.ledger.exch + 1) % 65536
    let part := exchangePart s2 n
    exec .ledgerExchangeTick s = .next (sendPresence (updPort (updLedger part.2 (fun l =>
        { l with exch := n, exchAt := max s.ledger.exchAt (ceilDiv s.fine (1000 * nsU)) + 1 }))
      (fun p => { p with exchWait := some n })) (some (n, part.1.1, part.1.2))) := by
  intro s2 n part
  have hexch : s2.ledger.exch = s1.ledger.exch := by
    simp only [s2]
    split <;> rfl
  show execLedgerExchangeTick s = _
  simp only [execLedgerExchangeTick, hsends, hmaster, hrun, and_self, if_true, hreach]
  simp only [part, n, ← hexch]
  rfl

end Sys2Proof.Machine
end

section
/-! Time transfer at one unit (R257–R260), and what the rows of the ring port do. -/

namespace Sys2Proof.Machine

/-! ### Time transfer (R257–R260) -/

/-- TIME_REQ_FRAME is answered with the times of its arrival and of the answer's start. -/
theorem execTimeReqFrame_of_hears {h : FrameHdr} {s : State} (hears : Hears s h (.timeReq (hopOf h))) :
    exec (.timeReqFrame h) s = .next (ringSend (trapHk3 (frameSeen s h.lane.val)) (.timeRsp (hopOf h)
      (frameSeen s h.lane.val).fine ((frameSeen s h.lane.val).fine % 2 ^ 40) (sentOffset (frameSeen s h.lane.val))
      (myDist (frameSeen s h.lane.val)))) :=
  congrArg Host.Outcome.next (frameIn_of_hears hears _)

theorem execTimeRspFrame_of_hears {h : FrameHdr} {d : Byte} {o : W64} {t2 : BitVec 80} {t3 : BitVec 40} {s : State}
    (hears : Hears s h (.timeRsp (hopOf h) t2.toNat t3.toNat o.toInt d.toNat)) : exec (.timeRspFrame h t2 t3 o d) s =
      .next (timeRsp (trapHk3 (frameSeen s h.lane.val)) (hopOf h) t2 t3 o.toInt d.toNat) :=
  congrArg Host.Outcome.next (frameIn_of_hears hears _)

/-- What a STEP frame leaves for the next exchange of a unit (R260). -/
def stepNoted (s : State) (d : Int) : State :=
  if isMaster s then s else updPort s (fun r => { r with step := some (d * 65536 + r.step.getD 0) })

theorem execStepFrame_of_hears {h : FrameHdr} {d : W64} {s : State} (hears : Hears s h (.step d.toInt))
    (hacts : actsOn (frameSeen s h.lane.val) h.lane.val = true) (hother : sentHere (frameSeen s h.lane.val) h = false) :
    exec (.stepFrame h d) s
      = .next (ringPass (trapHk3 (stepNoted (frameSeen s h.lane.val) d.toInt)) h (.step d.toInt)) :=
  congrArg Host.Outcome.next (bcastIn_of_other hears hacts hother _ _)

theorem stepNoted_spec (s : State) (d : Int) :
    stepNoted s d = { s with ring := { s.ring with step := (stepNoted s d).ring.step } }
      ∧ (stepNoted s d).ring.step = if isMaster s then s.ring.step else some (d * 65536 + s.ring.step.getD 0) := by
  rw [stepNoted]
  split
  · exact ⟨rfl, rfl⟩
  · exact ⟨rfl, rfl⟩

/-- Settles O58, row by row: each row by what it does to a frame that HK3 hears or at its time, and what that leaves. -/
theorem ringPortAndTimeRows : Obligations.RingPortAndTimeRows := by
  refine ⟨fun l s hup hon => ?lanesUp, fun l s => ?lanesDown, fun l s hup hon hlanes => ?falls,
    fun s s1 l t hon hwrapped hlost hl hup ht hlapse => ?heals,
    fun s s1 hlive hmaster hclaim hlapse => execMasterLost_of_silence hlive hmaster hclaim hlapse,
    fun s hsends hspeaks => ?sends, fun h a c n s hears => execEnumFrame_of_hears hears,
    fun h s a n c ha => enumUnit_of_address s h n c ha, fun h s a n c ha => enumUnit_of_none_left s h n c ha,
    fun s a ha hgiven => ?takes, fun s a n c hrun hn => enumHead_of_own a c hrun hn,
    fun h p s hlen hears => ?presence, fun h s hears => execTimeReqFrame_of_hears hears,
    fun h s d o t2 t3 hears => execTimeRspFrame_of_hears hears, fun s hon hparked => ?exchange,
    fun h d s hears => ?step, fun h n l s hlen hears => ?allot, fun s s1 hsends hmaster hrun hreach => ?ledger⟩
  case lanesUp =>
    intro x
    have hlocked : locked x l.val = true := by
      rw [locked, getRx_updRx_same]
      rfl
    have hfresh : frameFresh x l.val = frameFresh s l.val := by
      rw [frameFresh, getRx_updRx_same]
      rfl
    exact ⟨execLaneUp_of_on l hup hon, hlocked, fun hdown hrecent => laneRises_of_fresh hlocked (hfresh.trans hrecent) hdown,
      fun h => laneRises_of_up_or_stale (h.imp_right hfresh.trans)⟩
  case lanesDown =>
    exact ⟨execLaneDown_at_once s l (by decide), execLaneDown_at_once s l (by decide),
      fun t s1 hlast hlapse => execLaneDown_of_silence hlast hlapse⟩
  case falls => exact ⟨laneFallen s l.val, laneFalls_of_on l.val hup hon hlanes, laneFallen_spec s l.val⟩
  case heals =>
    exact ⟨execHealHoldExpiry_of_one hlost hup ht hlapse hl hon hwrapped, heal_of_one hlost hup ht hlapse⟩
  case sends => exact if_pos (α := Out) ⟨hsends, hspeaks⟩
  case takes =>
    rw [commitAddr_of_some hgiven]
    exact takeAddr_spec s ha
  case presence =>
    intro y hacts htrained
    have hexec := execPresenceFrame_of_hears hlen hears hacts htrained
    exact ⟨fun hown => by rw [hexec, if_pos hown], fun hother => by rw [hexec, if_neg (Bool.eq_false_iff.mp hother)]⟩
  case exchange => exact ⟨_, if_pos (α := Out) ⟨hon, Bool.eq_false_iff.mp hparked⟩, rfl, rfl⟩
  case step =>
    intro z hacts hother
    exact ⟨stepNoted z d.toInt, execStepFrame_of_hears hears hacts hother, stepNoted_spec z d.toInt⟩
  case allot =>
    intro z hacts hother
    refine ⟨_, execAllotFrame_of_hears hlen hears hacts hother, fun hno => if_neg hno, fun hwaits => ?_⟩
    rw [if_pos hwaits]
    exact takeAllot_spec z _ n.isLt
  case ledger => exact ⟨_, _, _, execLedgerExchangeTick_of_reach hsends hmaster hrun hreach, rfl, rfl, rfl⟩

end Sys2Proof.Machine
end

section
/-! Ring-wide items that other units broadcast (R263), and forwarded packets, receipts and their acknowledgements (R264, R265,
R270). -/

namespace Sys2Proof.Machine

/-! ### Ring-wide items (R263) -/

/-- BCAST_FRAME of another unit: a unit in RUNNING takes it, and every unit passes it on. -/
theorem execBcastFrame_of_other {h : FrameHdr} {p : Packet} {s : State} (hears : Hears s h (.bcast p))
    (hacts : actsOn (frameSeen s h.lane.val) h.lane.val = true) (hother : sentHere (frameSeen s h.lane.val) h = false) :
    exec (.bcastFrame h p) s = .next (if xrState (frameSeen s h.lane.val) = 3 then
        ringPass (bcastTake (trapHk3 (frameSeen s h.lane.val)) p) h (.bcast p)
      else ringPass (frameSeen s h.lane.val) h (.bcast p)) :=
  congrArg Host.Outcome.next (bcastIn_of_other hears hacts hother _ _)

/-- The unit's own BCAST frame is removed. -/
theorem execBcastFrame_of_own {h : FrameHdr} {p : Packet} {s : State} (hears : Hears s h (.bcast p))
    (hacts : actsOn (frameSeen s h.lane.val) h.lane.val = true) (hown : sentHere (frameSeen s h.lane.val) h = true) :
    exec (.bcastFrame h p) s = .next (frameSeen s h.lane.val) :=
  congrArg Host.Outcome.next (bcastIn_of_own hears hacts hown _ _)

theorem bcastTake_of_local (s : State) {p : Packet} (h : ringWide p = false) : bcastTake s p = s := by
  simp [bcastTake, h]

/-- A quiet window, or an item whose tick has passed, applies at once. -/
theorem bcastTake_of_due {s : State} {p : Packet} (hwide : ringWide p = true)
    (hdue : isQuiet p = true ∨ p.launchTick.toNat ≤ fineTick s) : bcastTake s p = effectNow s p := by
  rw [bcastTake, if_neg (by simp [hwide]), if_pos hdue]

/-- Any other waits for its tick. -/
theorem bcastTake_of_early {s : State} {p : Packet} (hwide : ringWide p = true) (hquiet : isQuiet p = false)
    (hearly : fineTick s < p.launchTick.toNat) :
    bcastTake s p = { s with ring := { s.ring with bcasts := s.ring.bcasts ++ [p] } } := by
  rw [bcastTake, if_neg (by simp [hwide]), if_neg (by simp [hquiet, hearly])]
  rfl

/-- BCAST_TICK_APPLY when the tick of a waiting item comes. -/
theorem execBcastTickApply_of_reach {i : Nat} {p : Packet} {s s1 : State} (hwaits : s.ring.bcasts[i]? = some p)
    (hreach : reach s (nsU * p.launchTick.toNat) = some s1) : exec (.bcastTickApply i) s =
      .next (effectNow { s1 with ring := { s1.ring with bcasts := s1.ring.bcasts.eraseIdx i } } p) := by
  show execBcastTickApply i s = _
  simp only [execBcastTickApply, hwaits, hreach]
  rfl

/-! ### Addressed frames (R243) -/

/-- An addressed frame that ends here is acted on. -/
theorem addrIn_of_endsHere {s : State} {h : FrameHdr} {body : TxFrame} (hears : Hears s h body) (hends : EndsHere s h)
    (act : State → State) : addrIn s h body act = act (frameSeen s h.lane.val) := by
  obtain ⟨hdst, hlane⟩ := hends
  have hhere : (h.dst.toNat = hereAddr (frameSeen s h.lane.val) && (h.lane = 0 || !folded (frameSeen s h.lane.val))) = true := by
    simpa [hdst] using hlane
  rw [addrIn, frameIn_of_hears hears]
  exact if_pos hhere

/-! ### FWD_PKT (R264, R265) -/

section
variable {h : FrameHdr} {p : Packet} {hd : W32} {lv : BitVec 2} {s t : State}
  (hears : Hears s h (.fwdPkt h.dst.toNat h.seq.toNat h.retry p hd.toNat lv.toNat)) (hends : EndsHere s h)
  (ht : t = trapHk3 (frameSeen s h.lane.val))
include hears hends ht

/-- FWD_PKT_FRAME goes by the place of its SEQ and the room of the intake. -/
theorem execFwdPktFrame_of_hears : exec (.fwdPktFrame h p hd lv) s = .next (match seqPlace t h.src.toNat h.seq.toNat with
    | .next =>
      if t.ring.intake.length < 1024 then updPort (seqTaken t h.src.toNat)
        (fun r => { r with intake := r.intake ++ [⟨h.src.toNat, hd.toNat, lv.toNat, p⟩] })
      else t
    | .old =>
      if t.ring.intake.any (fun e => e.src = h.src.toNat && e.handle = hd.toNat) then t
      else ringSend t (.fwdAck h.src.toNat hd.toNat)
    | .ahead => t) := by
  subst ht
  exact congrArg Host.Outcome.next (addrIn_of_endsHere hears hends _)

/-- The next packet of its source enters an intake with room, and the SEQ expected of the source advances. -/
theorem execFwdPktFrame_of_next (hplace : seqPlace t h.src.toNat h.seq.toNat = .next) (hroom : t.ring.intake.length < 1024) :
    ∃ x, exec (.fwdPktFrame h p hd lv) s = .next x ∧ x.ring.intake = t.ring.intake ++ [⟨h.src.toNat, hd.toNat, lv.toNat, p⟩]
      ∧ x = { t with ring := { t.ring with intake := x.ring.intake, seqRx := x.ring.seqRx } }
      ∧ Tab.get x.ring.seqRx h.src.toNat 0 = (Tab.get t.ring.seqRx h.src.toNat 0 + 1) % 256 := by
  refine ⟨_, execFwdPktFrame_of_hears hears hends ht, ?_⟩
  simp only [hplace, hroom, if_true]
  exact ⟨rfl, rfl, Tab.get_set_same ..⟩

/-- A packet that is ahead, or that the intake has no room for, is dropped. -/
theorem execFwdPktFrame_dropped (hdropped : seqPlace t h.src.toNat h.seq.toNat = .ahead
      ∨ (seqPlace t h.src.toNat h.seq.toNat = .next ∧ 1024 ≤ t.ring.intake.length)) :
    exec (.fwdPktFrame h p hd lv) s = .next t := by
  rw [execFwdPktFrame_of_hears hears hends ht]
  rcases hdropped with hahead | ⟨hnext, hfull⟩
  · simp only [hahead]
  · simp only [hnext, if_neg (not_lt.mpr hfull)]

/-- A packet taken before is acknowledged again, unless it is still in the intake. -/
theorem execFwdPktFrame_of_old (hplace : seqPlace t h.src.toNat h.seq.toNat = .old) : exec (.fwdPktFrame h p hd lv) s =
    .next (if t.ring.intake.any (fun e => e.src = h.src.toNat && e.handle = hd.toNat) then t
      else ringSend t (.fwdAck h.src.toNat hd.toNat)) := by
  rw [execFwdPktFrame_of_hears hears hends ht]
  simp only [hplace]

end

/-! ### INTAKE_TO_TELLER (R264, R270) -/

/-- The first packet of the intake becomes an item of the owner's first teller, is acknowledged and carried out. -/
theorem execIntakeToTeller_of_free {s : State} {e : IntakeEnt} {rest : List IntakeEnt} (hfirst : s.ring.intake = e :: rest)
    (hup : hk3Up s = true) (hmay : tellerMay s (2 * owner s) = true) (hfree : linkHeld s = false)
    (hfence : fenced s (256 + e.src) (2 * owner s) = false) :
    let it := mkItem s (.fwd e.src e.handle) e.level (2 * owner s) e.pkt
    exec .intakeToTeller s = .next (execute (ringSend (tally (addItem { s with ring := { s.ring with intake := rest } } it)
      (3 + 2 * owner s)) (.fwdAck e.src e.handle)) it) := by
  show execIntakeToTeller s = _
  simp only [execIntakeToTeller, hfirst, hup, hmay, hfree, hfence, Bool.false_eq_true, not_false_eq_true, and_self, if_true]
  rfl

/-! ### FWD_ACK (R264) -/

/-- The packet sent to a unit under a handle, whose acknowledgement has not come. -/
def fwdUnacked (s : State) (dst handle : Nat) : Option FwdOut :=
  s.ring.fwd.find? (fun w => handleOf w.item = handle && w.dst = dst && w.sent && !w.acked)

/-- FWD_ACK_FRAME: a packet that waits for it is marked acknowledged, and its credit returns. -/
theorem execFwdAckFrame_of_hears {h : FrameHdr} {hd : W32} {s t : State} (hears : Hears s h (.fwdAck h.dst.toNat hd.toNat))
    (hends : EndsHere s h) (ht : t = trapHk3 (frameSeen s h.lane.val)) : exec (.fwdAckFrame h hd) s =
    .next (match fwdUnacked t h.src.toNat hd.toNat with
      | some w => sendForwards (setCredits (updFwd t w.item (fun w => { w with acked := true })) h.src.toNat
          (min 64 (credits t h.src.toNat + 1))) h.src.toNat
      | none => t) := by
  subst ht
  exact congrArg Host.Outcome.next (addrIn_of_endsHere hears hends _)

/-! ### FWD_RCPT (R78, R265) -/

/-- The packet sent to a unit under a handle. -/
def fwdOf (s : State) (dst handle : Nat) : Option FwdOut :=
  s.ring.fwd.find? (fun w => handleOf w.item = handle && w.dst = dst)

/-- What a receipt next in order does at the origin: it ends its item, or is discarded and counted (R78). -/
def rcptTaken (x : State) (src handle : Nat) (b : List Byte) : State :=
  match fwdOf x src handle, (fwdOf x src handle).bind (fun w => findItem x w.item) with
  | some w, some it => forwardEnds x w it b
  | _, _ => tally x 0x45

theorem rcptTaken_of_item {x : State} {src handle : Nat} (b : List Byte) {w : FwdOut} {it : Item}
    (hw : fwdOf x src handle = some w) (hit : findItem x w.item = some it) : rcptTaken x src handle b = forwardEnds x w it b := by
  simp only [rcptTaken, hw, Option.bind_some, hit]

theorem rcptTaken_of_none {x : State} {src handle : Nat} (b : List Byte)
    (hnone : ∀ w, fwdOf x src handle = some w → findItem x w.item = none) : rcptTaken x src handle b = tally x 0x45 := by
  cases hw : fwdOf x src handle with
  | none => simp only [rcptTaken, hw]
  | some w => simp only [rcptTaken, hw, Option.bind_some, hnone w hw]

section
variable {h : FrameHdr} {hd : W32} {b : List Byte} {s t : State} (hlen : b.length = 32)
  (hears : Hears s h (.fwdRcpt h.dst.toNat h.seq.toNat h.retry hd.toNat b)) (hends : EndsHere s h)
  (ht : t = trapHk3 (frameSeen s h.lane.val))
include hlen hears hends ht

/-- FWD_RCPT_FRAME goes by the place of its SEQ. -/
theorem execFwdRcptFrame_of_hears : exec (.fwdRcptFrame h hd b) s = .next (match seqPlace t h.src.toNat h.seq.toNat with
    | .ahead => t
    | .old => ringSend t (.rcptAck h.src.toNat hd.toNat)
    | .next => ringSend (rcptTaken (seqTaken t h.src.toNat) h.src.toNat hd.toNat b) (.rcptAck h.src.toNat hd.toNat)) := by
  subst ht
  show execFwdRcptFrame h hd b s = _
  rw [execFwdRcptFrame, if_neg (not_not_intro hlen)]
  exact congrArg Host.Outcome.next (addrIn_of_endsHere hears hends _)

end

/-! ### RCPT_ACK (R265) -/

/-- RCPT_ACK_FRAME ends the retransmission of its receipt. -/
theorem execRcptAckFrame_of_hears {h : FrameHdr} {hd : W32} {s : State} (hears : Hears s h (.rcptAck h.dst.toNat hd.toNat))
    (hends : EndsHere s h) : exec (.rcptAckFrame h hd) s = .next (updPort (trapHk3 (frameSeen s h.lane.val))
      (fun r => { r with rcpts := r.rcpts.filter (fun x => !(x.handle = hd.toNat && x.dst = h.src.toNat)) })) :=
  congrArg Host.Outcome.next (addrIn_of_endsHere hears hends _)

/-! ### Frames sent again (R265) -/

/-- The packet that is due to be sent again waits for its acknowledgement, and its destination is present. -/
theorem fwdDue_spec {s : State} {n : Nat} {w : FwdOut} (h : fwdDue s n = some w) : w ∈ s.ring.fwd ∧ w.item % 2 ^ 32 = n
    ∧ w.sent = true ∧ w.acked = false ∧ xrPresent s w.dst = true := by
  have hpred := List.find?_some h
  simp only [Bool.and_eq_true, decide_eq_true_eq, Bool.not_eq_true'] at hpred
  obtain ⟨⟨⟨⟨hhandle, hsent⟩, hacked⟩, hpresent⟩, -⟩ := hpred
  exact ⟨List.mem_of_find?_eq_some h, hhandle, hsent, hacked, hpresent⟩

/-- The receipts with a handle whose destination is present. -/
def rcptsOpen (s : State) (n : Nat) : List RcptOut := s.ring.rcpts.filter (fun x => x.handle = n && xrPresent s x.dst)

theorem mem_rcptsOpen {s : State} {n : Nat} {x : RcptOut} :
    x ∈ rcptsOpen s n ↔ x ∈ s.ring.rcpts ∧ x.handle = n ∧ xrPresent s x.dst = true := by
  simp [rcptsOpen]

/-- The receipt that is due to be sent again is the one sent longest ago. -/
theorem rcptDue_eq_argmin (s : State) (n : Nat) : rcptDue s n = List.argmin RcptOut.at_ (rcptsOpen s n) := by
  rw [rcptDue, List.argmin]
  congr 1
  funext o x
  cases o <;> rfl

theorem rcptDue_spec {s : State} {n : Nat} {x : RcptOut} (h : rcptDue s n = some x) :
    x ∈ s.ring.rcpts ∧ x.handle = n ∧ xrPresent s x.dst = true
      ∧ ∀ y ∈ s.ring.rcpts, y.handle = n → xrPresent s y.dst = true → x.at_ ≤ y.at_ := by
  rw [rcptDue_eq_argmin] at h
  obtain ⟨hmem, hhandle, hpresent⟩ := mem_rcptsOpen.mp (List.argmin_mem h)
  exact ⟨hmem, hhandle, hpresent, fun y hy hn hp => List.le_of_mem_argmin (mem_rcptsOpen.mpr ⟨hy, hn, hp⟩) h⟩

theorem absent_of_no_rcptDue {s : State} {n : Nat} (h : rcptDue s n = none) {y : RcptOut} (hy : y ∈ s.ring.rcpts)
    (hn : y.handle = n) : xrPresent s y.dst = false := by
  rw [rcptDue_eq_argmin, List.argmin_eq_none] at h
  refine Bool.eq_false_iff.mpr fun hp => ?_
  have hmem := mem_rcptsOpen.mpr ⟨hy, hn, hp⟩
  rw [h] at hmem
  cases hmem

section
variable {hd : W32} {s s1 : State} (hsends : ringSends s = true)
include hsends

/-- A packet that no receipt with its handle was sent before is sent again. -/
theorem execFwdRetransmitExpiry_of_packet {w : FwdOut} {it : Item} (hdue : fwdDue s hd.toNat = some w)
    (hfirst : ∀ x, rcptDue s hd.toNat = some x → w.at_ ≤ x.at_) (hfind : findItem s1 w.item = some it)
    (hlapse : lapse s (20 * usU + w.at_) = some s1) : exec (.fwdRetransmitExpiry hd) s = .next (resendFwd s1 w it) := by
  show execFwdRetransmitExpiry hd s = _
  cases hrcpt : rcptDue s hd.toNat with
  | none => simp [execFwdRetransmitExpiry, hsends, hdue, hrcpt, hlapse, hfind]
  | some x => simp [execFwdRetransmitExpiry, hsends, hdue, hrcpt, hlapse, hfind, hfirst x hrcpt]

/-- A receipt that was sent before any packet with its handle is sent again. -/
theorem execFwdRetransmitExpiry_of_receipt {x : RcptOut} (hdue : rcptDue s hd.toNat = some x)
    (hfirst : ∀ w, fwdDue s hd.toNat = some w → x.at_ < w.at_) (hlapse : lapse s (20 * usU + x.at_) = some s1) :
    exec (.fwdRetransmitExpiry hd) s = .next (resendRcpt s1 x) := by
  show execFwdRetransmitExpiry hd s = _
  cases hfwd : fwdDue s hd.toNat with
  | none => simp [execFwdRetransmitExpiry, hsends, hdue, hfwd, hlapse]
  | some w => simp [execFwdRetransmitExpiry, hsends, hdue, hfwd, hlapse, hfirst w hfwd]

end

/-- Settles O59, row by row: a frame by what it meets at this unit, a broadcast item by its tick, and what is sent again by the
time of its last sending. -/
theorem broadcastAndForwardRows : Obligations.BroadcastAndForwardRows := by
  refine ⟨fun h p s hears => ?bcast, fun s p => ⟨bcastTake_of_local s, bcastTake_of_due, bcastTake_of_early⟩,
    fun i p s s1 hwaits hreach => execBcastTickApply_of_reach hwaits hreach,
    fun s p => ⟨fun hfree => if_neg (by simp [hfree]), fun hheld => if_pos hheld⟩,
    fun h p hd lv s hears hends => ⟨execFwdPktFrame_of_next hears hends rfl, execFwdPktFrame_dropped hears hends rfl,
      execFwdPktFrame_of_old hears hends rfl⟩,
    fun s e rest hfirst hup hmay hfree hfence => execIntakeToTeller_of_free hfirst hup hmay hfree hfence,
    fun h hd s hears hends => ?ack,
    fun h hd b s hlen hears hends => ?rcpt, fun h hd s hears hends => ⟨_, execRcptAckFrame_of_hears hears hends, rfl, rfl⟩,
    fun hd s s1 hsends => ⟨fun w it hdue hfirst hfind hlapse => execFwdRetransmitExpiry_of_packet hsends hdue hfirst hfind hlapse,
      fun x hdue hfirst hlapse => execFwdRetransmitExpiry_of_receipt hsends hdue hfirst hlapse⟩,
    fun s n => ⟨fun w => fwdDue_spec, fun x => rcptDue_spec, fun hnone y hy hn => absent_of_no_rcptDue hnone hy hn⟩⟩
  case bcast =>
    intro y hacts
    refine ⟨fun hother hrunning => ?_, fun hother hout => ?_, execBcastFrame_of_own hears hacts⟩
    · rw [execBcastFrame_of_other hears hacts hother, if_pos hrunning]
    · rw [execBcastFrame_of_other hears hacts hother, if_neg hout]
  case ack =>
    intro t o
    have hexec := execFwdAckFrame_of_hears hears hends (t := t) rfl
    refine ⟨fun w hw => ?_, fun hnone => ?_⟩
    · rw [hexec, show fwdUnacked t h.src.toNat hd.toNat = some w from hw]
    · rw [hexec, show fwdUnacked t h.src.toNat hd.toNat = none from hnone]
  case rcpt =>
    intro t
    have hexec := execFwdRcptFrame_of_hears hlen hears hends (t := t) rfl
    refine ⟨fun hahead => ?_, fun hold => ?_, fun hnext => ?_⟩
    · rw [hexec, hahead]
    · rw [hexec, hold]
    · intro x o
      refine ⟨fun w it hw hit => ?_, fun hnone => ?_⟩
      · rw [hexec, hnext]
        exact congrArg (fun y => Host.Outcome.next (ringSend y (.rcptAck h.src.toNat hd.toNat))) (rcptTaken_of_item b hw hit)
      · rw [hexec, hnext]
        exact congrArg (fun y => Host.Outcome.next (ringSend y (.rcptAck h.src.toNat hd.toNat))) (rcptTaken_of_none b hnone)

end Sys2Proof.Machine
end

section
/-! Register writes without their effect on some fields (R7), and reads on H_TGT that are taken (R376, R379). -/

namespace Sys2Proof.Machine

/-! ### The answered state -/

theorem rd_answered (s : State) (a : Acc) (r : Reg) (v : W64) (f : Fld) (i j k : Nat) :
    rd (answered s a r v) f i j k = rd s f i j k := rd_congr rfl f i j k

theorem get_answered (w : RegWrite) (s : State) (a : Acc) (r : Reg) (v : W64) (f : Fld) :
    w.get (answered s a r v) f = w.get s f := rfl

/-! ### Writes that keep a field -/

/-- A write that keeps a field writes the bits of its mask outside the field. -/
theorem RegWrite.getLsbD_mask_keeping (w : RegWrite) (g : Fld) {b : Nat} (hb : b < 64) :
    (w.keeping g).mask.getLsbD b = (w.mask.getLsbD b && !(decide (g.lo ≤ b) && decide (b < g.lo + g.len))) := by
  simp only [RegWrite.keeping, BitVec.getLsbD_and, BitVec.getLsbD_not, getLsbD_fmask, hb, decide_true, Bool.true_and]

/-- A field that a write keeps has its old value. -/
theorem RegWrite.get_keeping_same (w : RegWrite) (s : State) (f : Fld) (hreg : w.reg.name = f.reg) (hfits : f.lo + f.len ≤ 64) :
    (w.keeping f).get s f = rd s f w.reg.i w.reg.j w.reg.k := by
  apply Nat.eq_of_testBit_eq
  intro n
  rw [RegWrite.get, rd, testBit_fget, testBit_fget]
  by_cases hn : n < f.len
  · rw [RegWrite.getLsbD_next _ _ (by omega), RegWrite.getLsbD_mask_keeping _ _ (by omega), ← hreg]
    simp [hn, RegWrite.keeping]
  · simp [hn]

/-- Keeping a field leaves what the write gives any other field. -/
theorem RegWrite.get_keeping_other (w : RegWrite) (s : State) (f g : Fld) (hfits : f.lo + f.len ≤ 64)
    (h : f.lo + f.len ≤ g.lo ∨ g.lo + g.len ≤ f.lo) : (w.keeping g).get s f = w.get s f := by
  apply Nat.eq_of_testBit_eq
  intro n
  rw [RegWrite.get, RegWrite.get, testBit_fget, testBit_fget]
  by_cases hn : n < f.len
  · have hout : (decide (g.lo ≤ f.lo + n) && decide (f.lo + n < g.lo + g.len)) = false := by
      rw [Bool.and_eq_false_iff, decide_eq_false_iff_not, decide_eq_false_iff_not]
      omega
    have hmask : (w.keeping g).mask.getLsbD (f.lo + n) = w.mask.getLsbD (f.lo + n) := by
      rw [RegWrite.getLsbD_mask_keeping _ _ (by omega), hout, Bool.not_false, Bool.and_true]
    rw [RegWrite.getLsbD_next _ _ (by omega), RegWrite.getLsbD_next _ _ (by omega), hmask]
    rfl
  · simp [hn]

/-- A write that does not change a field gives it its old value. -/
theorem RegWrite.get_of_not_changes {w : RegWrite} {s : State} {f : Fld} (h : w.changes s f = false) :
    w.get s f = rd s f w.reg.i w.reg.j w.reg.k :=
  Decidable.not_not.mp (of_decide_eq_false h)

/-- The bits that the write of a 32-bit value to a whole register writes are the value's. -/
theorem fget_written_whole (r : Reg) (v : W32) {lo len : Nat} (hlow : lo + len ≤ 32) :
    fget ((whole r (v.setWidth 64)).val &&& (whole r (v.setWidth 64)).mask) lo len = (v >>> lo).toNat % 2 ^ len := by
  apply Nat.eq_of_testBit_eq
  intro n
  rw [testBit_fget, Nat.testBit_mod_two_pow, BitVec.testBit_toNat, BitVec.getLsbD_ushiftRight]
  by_cases hn : n < len
  · rw [BitVec.getLsbD_and, getLsbD_mask_whole _ _ (by omega), show (whole r (v.setWidth 64)).val = v.setWidth 64 from rfl,
      BitVec.getLsbD_setWidth, decide_eq_true (show lo + n < 64 by omega), Bool.true_and, Bool.and_true]
  · simp [hn]

/-! ### Reads that are taken -/

/-- A read that is taken is made, and answered with its data. -/
theorem hostAccess_read_of_takes {s : State} {q : HostAccess} (h : Takes s q) (hread : q.write = false) :
    hostAccess s q = answer (readAccess s q).2 q .fresh rOkay (readAccess s q).1 := by
  have hmay : (touched q).any (fun t => !ringMay s q t.1) = false := by simpa using fun r p ht => h.may (r, p) ht
  have hgoes : waits s q = false := by
    have hfree : (touched q).any (fun t => waitsOwner s t.1) = false := by simpa using fun r p ht => h.free (r, p) ht
    simp [waits, hfree, h.first]
  simp [hostAccess, h.taken, h.ok, h.outside, hmay, hgoes, applyAccess, hread]

/-- A 32-bit access to the low lanes of a 64-bit register touches its low half alone. -/
theorem touched_accessOf_lowHalf (a : Acc) (r : Reg) (write : Bool) (v : W64) (hat : regAt (regAddr r) = some r)
    (hwide : r.name.row.wide = true) (halign : regAddr r % 8 = 0) (hfits : regAddr r < 2 ^ 24) :
    touched { accessOf a r write v with size64 := false } = [(r, .low)] := by
  have haddr : (accessOf a r write v).addr.toNat = regAddr r := Nat.mod_eq_of_lt hfits
  have hword : regAddr r / 8 * 8 = regAddr r := Nat.div_mul_cancel (Nat.dvd_of_mod_eq_zero halign)
  simp [touched, haddr, hword, hat, hwide]

/-- The read of an access that touches one register is its part. -/
theorem readAccess_of_touched {s : State} {q : HostAccess} {t : Reg × Part} (h : touched q = [t]) :
    readAccess s q = readPart s q t := by
  simp [readAccess, h]

end Sys2Proof.Machine
end

section
/-! DMA channels (R280, R293–R295): writes of DC_CTL and DC_KICK, and the end of a drain. -/

namespace Sys2Proof.Machine

/-! ### The rows -/

/-- DC_CTL and DC_KICK of a channel stand in the low lanes of their groups, outside the shared regions. -/
theorem writeRow_dmaChannel {n : RegName} (hn : n ∈ [RegName.dcCtl, .dcKick]) {a : Acc} {d : Fin 32} {v : W64} {s : State}
    (h : Takes s (accessOf a (reg1 n d.val) true v)) : writeRow a (reg1 n d.val) v true s
      = .next (localWrite (answered s a (reg1 n d.val) v) (whole (reg1 n d.val) v) a.ring.toNat) := by
  have hat : ∀ n ∈ [RegName.dcCtl, .dcKick], ∀ d : Fin 32, regAt (regAddr (reg1 n d.val)) = some (reg1 n d.val)
      ∧ n.row.wide = false ∧ regAddr (reg1 n d.val) % 8 = 0 ∧ regAddr (reg1 n d.val) < 2 ^ 24
      ∧ inShared (regAddr (reg1 n d.val)) = false := by decide +kernel
  obtain ⟨hreg, hnarrow, hlow, hfits, hlocal⟩ := hat n hn d
  exact writeRow_local_of_takes h hreg hnarrow hlow hfits hlocal

/-! ### DC_CTL (R293, R295) -/

/-- A write changes MODE or SERVES of a channel whose configuration may not be written (R295). -/
def dcRefused (s : State) (w : RegWrite) : Bool :=
  (w.changes s F.dcCtlMode || w.changes s F.dcCtlServes) && !dcConfigurable s w.reg.i

/-- What a write of DC_CTL writes: MODE and SERVES are refused alone. -/
def dcTaken (s : State) (w : RegWrite) : RegWrite :=
  if dcRefused s w then (w.keeping F.dcCtlMode).keeping F.dcCtlServes else w

theorem dcTaken_reg (s : State) (w : RegWrite) : (dcTaken s w).reg = w.reg := by
  rw [dcTaken]
  split <;> rfl

/-- The state after a write of DC_CTL, before ENABLE acts. -/
def dcStored (s : State) (w : RegWrite) : State :=
  let s1 := ((dcTaken s w).keeping F.dcCtlEnable).plain s
  if dcRefused s w then flag1 s1 F.dcStatusCfgErr w.reg.i else s1

theorem writeDcCtl_eq (s : State) (w : RegWrite) :
    writeDcCtl s w = dcWriteEnable (dcStored s w) w.reg.i (w.get s F.dcCtlEnable = 1) := rfl

/-- Storing changes registers alone. -/
theorem dcStored_frame (s : State) (w : RegWrite) : dcStored s w = { s with regs := (dcStored s w).regs } := by
  simp only [dcStored]
  split <;> rfl

section
variable (s : State) {w : RegWrite} {d : Nat} (hw : w.reg = reg1 .dcCtl d)

/-- DC_CTL is written plainly; a refusal shows in another register. -/
theorem rd_dcStored_plain (f : Fld) (hf : f.reg = .dcCtl) :
    rd (dcStored s w) f d = rd (((dcTaken s w).keeping F.dcCtlEnable).plain s) f d := by
  simp only [dcStored]
  split
  · exact rd_wr_reg _ _ _ _ _ _ _ _ _ _ (.inl (by rw [hf]; decide))
  · rfl

include hw

/-- A field of DC_CTL holds what the write gives it. -/
theorem rd_dcStored (f : Fld) (hf : f.reg = .dcCtl) :
    rd (dcStored s w) f d = ((dcTaken s w).keeping F.dcCtlEnable).get s f := by
  have hreg : ((dcTaken s w).keeping F.dcCtlEnable).reg = reg1 .dcCtl d := (dcTaken_reg s w).trans hw
  have hrd := rd_plain ((dcTaken s w).keeping F.dcCtlEnable) s f (by rw [hreg, hf]; rfl)
  rw [hreg] at hrd
  exact (rd_dcStored_plain s f hf).trans hrd

/-- STATE and PENDING are not written by the host (R7). -/
theorem rd_dcStored_status (f : Fld) (hf : f ∈ [F.dcCtlState, F.dcCtlPending]) : rd (dcStored s w) f d = rd s f d := by
  have hreg : ((dcTaken s w).keeping F.dcCtlEnable).reg = reg1 .dcCtl d := (dcTaken_reg s w).trans hw
  have hro : ∀ b, b < 12 → 8 ≤ b → (accMask .dcCtl .rw).getLsbD b = false ∧ (accMask .dcCtl .w1c).getLsbD b = false := by
    decide +kernel
  have hbits : f.reg = .dcCtl ∧ 8 ≤ f.lo ∧ f.lo + f.len ≤ 12 := by fin_cases hf <;> decide
  obtain ⟨hname, hlo, hhi⟩ := hbits
  refine (rd_dcStored_plain s f hname).trans (RegWrite.rd_plain_readOnly _ s f d 0 0 (by omega) fun b hb hb' => ?_)
  rw [hreg]
  exact hro b (by omega) (by omega)

/-- ENABLE is not stored with the other fields. -/
theorem rd_dcStored_enable : rd (dcStored s w) F.dcCtlEnable d = rd s F.dcCtlEnable d := by
  rw [rd_dcStored s hw F.dcCtlEnable rfl, RegWrite.get_keeping_same _ s _ (by rw [dcTaken_reg, hw]; rfl) (by decide), dcTaken_reg, hw]
  rfl

/-- A channel that is not disabled and READY keeps MODE and SERVES (R295). -/
theorem rd_dcStored_config (f : Fld) (hf : f ∈ [F.dcCtlMode, F.dcCtlServes]) (hlocked : dcConfigurable s d = false) :
    rd (dcStored s w) f d = rd s f d := by
  have hbits : f.reg = .dcCtl ∧ F.dcCtlEnable.lo + F.dcCtlEnable.len ≤ f.lo ∧ f.lo + f.len ≤ 64 := by
    fin_cases hf <;> decide
  obtain ⟨hreg, hlo, hhi⟩ := hbits
  have hold : rd s f w.reg.i w.reg.j w.reg.k = rd s f d := by rw [hw]; rfl
  rw [rd_dcStored s hw f hreg, RegWrite.get_keeping_other _ _ _ _ hhi (.inr hlo), dcTaken, ← hold]
  cases hrefused : dcRefused s w with
  | false =>
    have hsame : w.changes s F.dcCtlMode = false ∧ w.changes s F.dcCtlServes = false := by
      simpa [dcRefused, hw, reg1, hlocked] using hrefused
    fin_cases hf
    · exact RegWrite.get_of_not_changes hsame.1
    · exact RegWrite.get_of_not_changes hsame.2
  | true =>
    fin_cases hf
    · exact (RegWrite.get_keeping_other _ s F.dcCtlMode F.dcCtlServes (by decide) (by decide)).trans
        (RegWrite.get_keeping_same w s F.dcCtlMode (by rw [hw]; rfl) (by decide))
    · exact RegWrite.get_keeping_same (w.keeping F.dcCtlMode) s F.dcCtlServes (by rw [RegWrite.keeping, hw]; rfl) (by decide)

/-- A write that it refuses sets CFG_ERR (R295). -/
theorem rdB_cfgErr_dcStored (hlocked : dcConfigurable s d = false)
    (hchanges : w.changes s F.dcCtlMode = true ∨ w.changes s F.dcCtlServes = true) :
    rdB (dcStored s w) F.dcStatusCfgErr d = true := by
  have hrefused : dcRefused s w = true := by simpa [dcRefused, hw, reg1, hlocked] using hchanges
  simp only [dcStored, if_pos hrefused, hw]
  exact rdB_flag1_same _ F.dcStatusCfgErr d rfl (by decide)

end

/-- ENABLE of a write of DC_CTL is bit 0 of its value. -/
theorem get_dcCtlEnable (d : Nat) (v : W32) (s : State) :
    decide ((whole (reg1 .dcCtl d) (v.setWidth 64)).get s F.dcCtlEnable = 1) = v.getLsbD 0 := by
  have hbit := rdB_plain_whole (reg1 .dcCtl d) v s F.dcCtlEnable rfl rfl (by decide) (by decide +kernel) (by decide +kernel)
  exact (congrArg (fun n => decide (n = 1)) (rd_plain _ s F.dcCtlEnable rfl).symm).trans hbit

/-- A write of DC_CTL that is taken stores its fields, and then its bit 0 acts. -/
theorem writeRow_dcCtl {a : Acc} {d : Fin 32} {v : W32} {s : State}
    (h : Takes s (accessOf a (reg1 .dcCtl d.val) true (v.setWidth 64))) :
    writeRow a (reg1 .dcCtl d.val) (v.setWidth 64) true s = .next (dcWriteEnable
      (dcStored (answered s a (reg1 .dcCtl d.val) (v.setWidth 64)) (whole (reg1 .dcCtl d.val) (v.setWidth 64))) d.val (v.getLsbD 0)) := by
  have hwrite := writeDcCtl_eq (answered s a (reg1 .dcCtl d.val) (v.setWidth 64)) (whole (reg1 .dcCtl d.val) (v.setWidth 64))
  rw [get_dcCtlEnable] at hwrite
  exact (writeRow_dmaChannel (n := .dcCtl) (by decide) h).trans (congrArg Host.Outcome.next hwrite)

/-- DC_CTL after a write that is taken: what is stored, and how ENABLE then acts (R295). -/
theorem execDcCtlWrite_spec {a : Acc} {d : Fin 32} {v : W32} {s : State}
    (htakes : Takes s (accessOf a (reg1 .dcCtl d.val) true (v.setWidth 64))) :
    let w := whole (reg1 .dcCtl d.val) (v.setWidth 64)
    ∃ y, (y = { answered s a (reg1 .dcCtl d.val) (v.setWidth 64) with regs := y.regs }
        ∧ rd y F.dcCtlState d.val = rd s F.dcCtlState d.val ∧ rd y F.dcCtlEnable d.val = rd s F.dcCtlEnable d.val
        ∧ rd y F.dcCtlPending d.val = rd s F.dcCtlPending d.val)
      ∧ (dcConfigurable s d.val = false → rd y F.dcCtlMode d.val = rd s F.dcCtlMode d.val
          ∧ rd y F.dcCtlServes d.val = rd s F.dcCtlServes d.val
          ∧ (w.changes s F.dcCtlMode = true ∨ w.changes s F.dcCtlServes = true → rdB y F.dcStatusCfgErr d.val = true))
      ∧ (v.getLsbD 0 = true → exec (.dcEnableWrite a d v) s = .next (dcWriteEnable y d.val true))
      ∧ (v.getLsbD 0 = false → exec (.dcDisableWrite a d v) s = .next (dcWriteEnable y d.val false)) := by
  intro w
  have hrow := writeRow_dcCtl htakes
  have hw : w.reg = reg1 .dcCtl d.val := rfl
  let s0 := answered s a (reg1 .dcCtl d.val) (v.setWidth 64)
  have hstatus (f : Fld) (hf : f ∈ [F.dcCtlState, F.dcCtlPending]) : rd (dcStored s0 w) f d.val = rd s f d.val :=
    (rd_dcStored_status s0 hw f hf).trans (rd_answered ..)
  have henable : rd (dcStored s0 w) F.dcCtlEnable d.val = rd s F.dcCtlEnable d.val :=
    (rd_dcStored_enable s0 hw).trans (rd_answered ..)
  have hconfig (hlocked : dcConfigurable s0 d.val = false) (f : Fld) (hf : f ∈ [F.dcCtlMode, F.dcCtlServes]) :
      rd (dcStored s0 w) f d.val = rd s f d.val :=
    (rd_dcStored_config s0 hw f hf hlocked).trans (rd_answered ..)
  refine ⟨dcStored s0 w, ⟨dcStored_frame _ w, hstatus _ (by decide), henable, hstatus _ (by decide)⟩,
    fun hlocked => ⟨hconfig hlocked _ (by decide), hconfig hlocked _ (by decide), fun hchanges => ?_⟩, fun hon => ?_, fun hoff => ?_⟩
  · exact rdB_cfgErr_dcStored s0 hw hlocked hchanges
  · have hexec : exec (.dcEnableWrite a d v) s = writeRow a (reg1 .dcCtl d.val) (v.setWidth 64) (v.getLsbD 0) s := rfl
    rw [hexec, hon, hrow, hon]
  · have hexec : exec (.dcDisableWrite a d v) s = writeRow a (reg1 .dcCtl d.val) (v.setWidth 64) (!v.getLsbD 0) s := rfl
    rw [hexec, hoff, Bool.not_false, hrow, hoff]

/-! ### ENABLE (R293) -/

section
variable {s : State} {d : Nat}

/-- A READY channel with no legal mode, or a ring size out of range, is not enabled (R295). -/
theorem dcWriteEnable_of_bad_config (hready : dcState s d = 2)
    (hbad : dcMode s d = 0 ∨ dcMode s d = 3 ∨ (dcMode s d = 2 ∧ (ringLog2 s d < 4 ∨ 16 < ringLog2 s d))) :
    dcWriteEnable s d true = flag1 s F.dcStatusCfgErr d := by
  simp only [dcWriteEnable, hready]
  rw [if_pos]
  simpa only [Bool.or_eq_true, Bool.and_eq_true, decide_eq_true_eq, or_assoc] using hbad

/-- A READY channel in item mode, or in ring mode with a ring size in range, is enabled. -/
theorem dcWriteEnable_of_good_config (hready : dcState s d = 2)
    (hgood : dcMode s d = 1 ∨ (dcMode s d = 2 ∧ 4 ≤ ringLog2 s d ∧ ringLog2 s d ≤ 16)) :
    dcWriteEnable s d true = dcEnable s d := by
  simp only [dcWriteEnable, hready]
  rw [if_neg]
  simp only [Bool.or_eq_true, Bool.and_eq_true, decide_eq_true_eq]
  omega

/-- An ENABLED channel that is disabled drains. -/
theorem dcWriteEnable_of_enabled (henabled : dcState s d = 3) :
    dcWriteEnable s d false = dcEvict (wr1 (wr1 s F.dcCtlEnable d 0) F.dcCtlState d 1) d := by
  simp only [dcWriteEnable, henabled]

/-- Writing ENABLE of a draining channel sets or clears PENDING, and leaves it draining. -/
theorem dcWriteEnable_of_draining (hdrains : dcState s d = 1) :
    rdB (dcWriteEnable s d true) F.dcCtlPending d = true ∧ rdB (dcWriteEnable s d false) F.dcCtlPending d = false
      ∧ dcState (dcWriteEnable s d true) d = 1 ∧ dcState (dcWriteEnable s d false) d = 1 := by
  have hset : dcWriteEnable s d true = wr1 (wr1 s F.dcCtlEnable d 1) F.dcCtlPending d 1 := by simp only [dcWriteEnable, hdrains]
  have hclear : dcWriteEnable s d false = wr1 (wr1 s F.dcCtlEnable d 0) F.dcCtlPending d 0 := by simp only [dcWriteEnable, hdrains]
  have hstate (m n : Nat) : dcState (wr1 (wr1 s F.dcCtlEnable d m) F.dcCtlPending d n) d = 1 := by
    rw [dcState, rd_wr1_other _ _ _ _ _ (by decide), rd_wr1_other _ _ _ _ _ (by decide)]
    exact hdrains
  rw [hset, hclear]
  exact ⟨rdB_flag1_same _ F.dcCtlPending d rfl (by decide), rdB_wr1_zero _ F.dcCtlPending d (by decide), hstate 1 1, hstate 0 0⟩

end

/-- The end of a drain, by whether the channel drains with nothing in progress. -/
theorem execDmaChannelDrainEnd_of_up {d : Fin 32} {s : State} (hup : dmaUp s d.val = true) :
    exec (.dmaChannelDrainEnd d) s = .next (dcDrained s d.val) :=
  (show exec (.dmaChannelDrainEnd d) s = execDmaChannelDrainEnd d s from rfl).trans (if_pos hup)

/-! ### DC_KICK (R280) -/

/-- A write of DC_KICK that is taken. -/
theorem execDcKickWrite_of_takes {a : Acc} {d : Fin 32} {v : W32} {s : State}
    (h : Takes s (accessOf a (reg1 .dcKick d.val) true (v.setWidth 64))) :
    let s0 := answered s a (reg1 .dcKick d.val) (v.setWidth 64)
    exec (.dcKickWrite a d v) s = .next (if v.getLsbD F.dcKickKick.lo then
        (if descFetching s d.val then updDma s0 d.val (fun x => { x with kicked := true })
          else ringKick (wr1 s0 F.dcStatusIdleOwn d.val 0) d.val)
      else s0) := by
  intro s0
  have hone := one_whole (reg1 .dcKick d.val) v F.dcKickKick (by decide)
  refine (writeRow_dmaChannel (n := .dcKick) (by decide) h).trans (congrArg Host.Outcome.next ?_)
  show writeDcKick s0 (whole (reg1 .dcKick d.val) (v.setWidth 64)) = _
  rw [writeDcKick, hone]
  cases v.getLsbD F.dcKickKick.lo <;> rfl

end Sys2Proof.Machine
end

section
/-! The staging FIFOs' registers (R304, R305): CH_FIFO_CTL with its flushes and debug enables, and the debug port. -/

namespace Sys2Proof.Machine

/-! ### CH_FIFO_CTL (R304, R305) -/

/-- A write of CH_FIFO_CTL that is taken is the write of R304 and R305. -/
theorem writeRow_chFifoCtl {a : Acc} {ch : Fin 48} {v : W64} {s : State}
    (h : Takes s (accessOf a (reg1 .chFifoCtl ch.val) true v)) : writeRow a (reg1 .chFifoCtl ch.val) v true s
      = .next (writeFifoCtl (answered s a (reg1 .chFifoCtl ch.val) v) (whole (reg1 .chFifoCtl ch.val) v)) := by
  have hat : ∀ ch : Fin 48, regAt (regAddr (reg1 .chFifoCtl ch.val)) = some (reg1 .chFifoCtl ch.val)
      ∧ regAddr (reg1 .chFifoCtl ch.val) % 8 = 0 ∧ regAddr (reg1 .chFifoCtl ch.val) < 2 ^ 24
      ∧ inShared (regAddr (reg1 .chFifoCtl ch.val)) = false := by decide +kernel
  obtain ⟨hreg, hlow, hfits, hlocal⟩ := hat ch
  exact writeRow_local_of_takes h hreg rfl hlow hfits hlocal

/-- Both rows that write CH_FIFO_CTL make the same write. -/
theorem exec_of_fifoCtlRow {a : Acc} {ch : Fin 48} {v : W32} {s : State} {c : Instr}
    (hc : c ∈ [Instr.fifoDbgEnableWrite a ch v,
      if (v >>> 8).toNat % 16 ≠ 0 then .fifoFlushWrite a ch v else .fifoDbgEnableWrite a ch v])
    (h : Takes s (accessOf a (reg1 .chFifoCtl ch.val) true (v.setWidth 64))) :
    exec c s = .next (writeFifoCtl (answered s a (reg1 .chFifoCtl ch.val) (v.setWidth 64))
      (whole (reg1 .chFifoCtl ch.val) (v.setWidth 64))) := by
  have hdebug : exec (.fifoDbgEnableWrite a ch v) s = _ := writeRow_chFifoCtl h
  simp only [List.mem_cons, List.not_mem_nil, or_false] at hc
  rcases hc with rfl | rfl
  · exact hdebug
  · split
    · next hflush =>
      have hrow : exec (.fifoFlushWrite a ch v) s = writeRow a (reg1 .chFifoCtl ch.val) (v.setWidth 64) ((v >>> 8).toNat % 16 ≠ 0) s :=
        rfl
      rw [hrow, decide_eq_true hflush, writeRow_chFifoCtl h]
    · exact hdebug

/-- The state after a write of CH_FIFO_CTL has stored its fields, with DBG_EN made `n`. -/
def fifoCtlStored (s : State) (w : RegWrite) (n : Nat) : State :=
  wr1 (((w.keeping F.chFifoCtlDbgEn).keeping F.chFifoCtlFlush).plain s) F.chFifoCtlDbgEn w.reg.i n

/-- The FIFOs whose bits of DBG_EN become 0 go back to their consumers. -/
def reattachCleared (s : State) (ch old new : Nat) : State :=
  forNat 4 (fun x f => if bitOf old f ∧ ¬ bitOf new f then reattach x ch f else x) s

/-- A write to a channel that is not READY: it can clear bits of DBG_EN alone, and anything more sets REFUSED. -/
theorem writeFifoCtl_of_not_ready {s : State} {w : RegWrite} (hstate : rd s F.chCtlState w.reg.i ≠ 2)
    (hmore : fget (w.val &&& w.mask) 8 4 ≠ 0
      ∨ w.get s F.chFifoCtlDbgEn ≠ rd s F.chFifoCtlDbgEn w.reg.i &&& w.get s F.chFifoCtlDbgEn) :
    let new := rd s F.chFifoCtlDbgEn w.reg.i &&& w.get s F.chFifoCtlDbgEn
    writeFifoCtl s w = reattachCleared (flag1 (fifoCtlStored s w new) F.chFifoCtlRefused w.reg.i) w.reg.i
      (rd s F.chFifoCtlDbgEn w.reg.i) new := by
  have hrefused : ¬(fget (w.val &&& w.mask) 8 4 = 0
      ∧ w.get s F.chFifoCtlDbgEn = rd s F.chFifoCtlDbgEn w.reg.i &&& w.get s F.chFifoCtlDbgEn) := by
    rw [not_and_or]
    exact hmore
  simp only [writeFifoCtl, hstate, if_false, false_or, if_neg hrefused]
  rfl

/-- A write to a READY channel: DBG_EN takes its value, and the flushes are asked for. -/
theorem writeFifoCtl_of_ready {s : State} {w : RegWrite} (hstate : rd s F.chCtlState w.reg.i = 2) :
    writeFifoCtl s w = reattachCleared
      (forNat 4 (fun x f => if bitOf (fget (w.val &&& w.mask) 8 4) f then askFlush x w.reg.i f else x)
        (fifoCtlStored s w (w.get s F.chFifoCtlDbgEn)))
      w.reg.i (rd s F.chFifoCtlDbgEn w.reg.i) (w.get s F.chFifoCtlDbgEn) := by
  simp only [writeFifoCtl, hstate, if_true, true_or]
  rfl

/-- DBG_EN holds what was stored. -/
theorem rd_dbgEn_fifoCtlStored (s : State) (w : RegWrite) {n : Nat} (hn : n < 16) :
    rd (fifoCtlStored s w n) F.chFifoCtlDbgEn w.reg.i = n :=
  (rd_wr_same _ _ _ _ _ _ (by decide)).trans (Nat.mod_eq_of_lt hn)

/-- DBG_EN has four bits. -/
theorem get_chFifoCtlDbgEn_lt (w : RegWrite) (s : State) : w.get s F.chFifoCtlDbgEn < 16 := fget_lt _ _ _

/-- What a refused write leaves: REFUSED is set, the bits of DBG_EN that the write clears are 0, and nothing else changes. -/
theorem fifoCtlRefused_spec (s : State) (w : RegWrite) :
    let new := rd s F.chFifoCtlDbgEn w.reg.i &&& w.get s F.chFifoCtlDbgEn
    let y := flag1 (fifoCtlStored s w new) F.chFifoCtlRefused w.reg.i
    rdB y F.chFifoCtlRefused w.reg.i = true ∧ rd y F.chFifoCtlDbgEn w.reg.i = new ∧ y = { s with regs := y.regs } := by
  intro new y
  have hlt : new < 16 := lt_of_le_of_lt Nat.and_le_right (get_chFifoCtlDbgEn_lt w s)
  exact ⟨rdB_flag1_same _ F.chFifoCtlRefused w.reg.i rfl (by decide),
    (rd_wr1_other _ F.chFifoCtlRefused F.chFifoCtlDbgEn _ _ (by decide)).trans (rd_dbgEn_fifoCtlStored s w hlt), rfl⟩

section
variable {a : Acc} {ch : Fin 48} {v : W32} {s : State} {c : Instr}
  (htakes : Takes s (accessOf a (reg1 .chFifoCtl ch.val) true (v.setWidth 64)))
  (hc : c ∈ [Instr.fifoDbgEnableWrite a ch v,
    if (v >>> 8).toNat % 16 ≠ 0 then .fifoFlushWrite a ch v else .fifoDbgEnableWrite a ch v])
include htakes hc

/-- A write of CH_FIFO_CTL of a channel that is not READY, with a flush or a bit of DBG_EN that would become 1. -/
theorem execFifoCtl_of_not_ready (hstate : rd s F.chCtlState ch.val ≠ 2) :
    let want := (whole (reg1 .chFifoCtl ch.val) (v.setWidth 64)).get s F.chFifoCtlDbgEn
    ((v >>> 8).toNat % 16 ≠ 0 ∨ want ≠ rd s F.chFifoCtlDbgEn ch.val &&& want) → ∃ y,
      exec c s = .next (reattachCleared y ch.val (rd s F.chFifoCtlDbgEn ch.val) (rd s F.chFifoCtlDbgEn ch.val &&& want))
      ∧ rdB y F.chFifoCtlRefused ch.val = true ∧ rd y F.chFifoCtlDbgEn ch.val = rd s F.chFifoCtlDbgEn ch.val &&& want
      ∧ y = { answered s a (reg1 .chFifoCtl ch.val) (v.setWidth 64) with regs := y.regs } := by
  intro want hmore
  have hflush := fget_written_whole (reg1 .chFifoCtl ch.val) v (lo := 8) (len := 4) (by decide)
  have hexec := exec_of_fifoCtlRow hc htakes
  have hwrite := writeFifoCtl_of_not_ready (s := answered s a (reg1 .chFifoCtl ch.val) (v.setWidth 64))
    (w := whole (reg1 .chFifoCtl ch.val) (v.setWidth 64))
  have hspec := fifoCtlRefused_spec (answered s a (reg1 .chFifoCtl ch.val) (v.setWidth 64))
    (whole (reg1 .chFifoCtl ch.val) (v.setWidth 64))
  simp only [rd_answered, get_answered, hflush] at hwrite hspec
  exact ⟨_, hexec.trans (congrArg Host.Outcome.next (hwrite hstate hmore)), hspec⟩

/-- A write of CH_FIFO_CTL of a READY channel. -/
theorem execFifoCtl_of_ready (hstate : rd s F.chCtlState ch.val = 2) :
    let want := (whole (reg1 .chFifoCtl ch.val) (v.setWidth 64)).get s F.chFifoCtlDbgEn
    ∃ y, rd y F.chFifoCtlDbgEn ch.val = want
      ∧ y = { answered s a (reg1 .chFifoCtl ch.val) (v.setWidth 64) with regs := y.regs }
      ∧ exec c s = .next (reattachCleared
          (forNat 4 (fun x f => if bitOf ((v >>> 8).toNat % 16) f then askFlush x ch.val f else x) y)
          ch.val (rd s F.chFifoCtlDbgEn ch.val) want) := by
  intro want
  have hflush := fget_written_whole (reg1 .chFifoCtl ch.val) v (lo := 8) (len := 4) (by decide)
  have hexec := exec_of_fifoCtlRow hc htakes
  have hwrite := writeFifoCtl_of_ready (s := answered s a (reg1 .chFifoCtl ch.val) (v.setWidth 64))
    (w := whole (reg1 .chFifoCtl ch.val) (v.setWidth 64))
  simp only [rd_answered, get_answered, hflush] at hwrite
  refine ⟨fifoCtlStored (answered s a (reg1 .chFifoCtl ch.val) (v.setWidth 64)) (whole (reg1 .chFifoCtl ch.val) (v.setWidth 64)) want,
    ?_, rfl, hexec.trans (congrArg Host.Outcome.next (hwrite hstate))⟩
  exact rd_dbgEn_fifoCtlStored _ _ (get_chFifoCtlDbgEn_lt _ s)

end

/-! ### Flushes (R304) -/

/-- A FIFO reads what it was changed to. -/
theorem getFifo_updFifo_same (s : State) (ch f : Nat) (g : Fifo → Fifo) : getFifo (updFifo s ch f g) ch f = g (getFifo s ch f) :=
  Tab.get_set_same s.fifos (ch, f) _ _

/-- A flush of a FIFO without data of items makes its pointers meet at the write pointer, and touches no item. -/
theorem flushFifo_of_no_items {s : State} {ch f : Nat} (h : fifoItems s ch f = []) :
    (getFifo (flushFifo s ch f) ch f).commit = (getFifo s ch f).wr ∧ (getFifo (flushFifo s ch f) ch f).cons = (getFifo s ch f).wr
      ∧ (getFifo (flushFifo s ch f) ch f).wr = (getFifo s ch f).wr ∧ (flushFifo s ch f).items = s.items := by
  have hfifo := getFifo_updFifo_same s ch f (fun x =>
    { x with commit := x.wr, cons := x.wr, word := 0, touched := false, parked := [], pkt := none, holder := none })
  simp only [flushFifo, h, List.isEmpty_nil, if_true]
  exact ⟨congrArg Fifo.commit hfifo, congrArg Fifo.cons hfifo, (congrArg Fifo.wr hfifo :), rfl⟩

/-! ### The debug port (R305) -/

/-- A pop that is taken answers the popped word whole, or its low half with the high half in the requester's shadow (R379). -/
theorem execFifoDbgPop_of_takes {a : Acc} {ch : Fin 48} {f : Fin 4} {s : State} :
    let q := accessOf a ⟨.chFifoDbg, ch.val, f.val, 0⟩ false 0
    let p := fifoPop { s with freeCtr := s.freeCtr + 1 } ch.val f.val
    (Takes s q → exec (.fifoDbgPop a ch f true) s = .next (answer p.2 q .fresh rOkay p.1))
    ∧ (Takes s { q with size64 := false } → exec (.fifoDbgPop a ch f false) s = .next (answer
        { p.2 with host := { p.2.host with shadow := Tab.set p.2.host.shadow a.rid.toNat (q.addr.toNat / 8 * 8, (p.1 >>> 32).setWidth 32) } }
        { q with size64 := false } .fresh rOkay (p.1 &&& 0xffffffff#64))) := by
  have hat : ∀ (ch : Fin 48) (f : Fin 4), regAt (regAddr ⟨.chFifoDbg, ch.val, f.val, 0⟩) = some ⟨.chFifoDbg, ch.val, f.val, 0⟩
      ∧ regAddr ⟨.chFifoDbg, ch.val, f.val, 0⟩ % 8 = 0 ∧ regAddr ⟨.chFifoDbg, ch.val, f.val, 0⟩ < 2 ^ 24 := by decide +kernel
  obtain ⟨hreg, halign, hfits⟩ := hat ch f
  intro q p
  refine ⟨fun htakes => ?_, fun htakes => ?_⟩
  · have hread : readAccess s q = readPart s q (⟨.chFifoDbg, ch.val, f.val, 0⟩, .all 0) :=
      readAccess_of_touched (touched_accessOf_wide a _ false 0 hreg rfl halign hfits)
    have hpop : readAccess s q = p := by
      rw [hread]
      exact Prod.ext (BitVec.shiftLeft_zero _) rfl
    refine congrArg Host.Outcome.next ((hostAccess_read_of_takes (q := q) htakes rfl).trans ?_)
    rw [hpop]
  · have hread : readAccess s { q with size64 := false }
        = readPart s { q with size64 := false } (⟨.chFifoDbg, ch.val, f.val, 0⟩, .low) :=
      readAccess_of_touched (touched_accessOf_lowHalf a _ false 0 hreg rfl halign hfits)
    refine congrArg Host.Outcome.next ((hostAccess_read_of_takes (q := { q with size64 := false }) htakes rfl).trans ?_)
    rw [hread]
    rfl

section
variable {s : State} {ch f : Nat}

/-- A FIFO that is not detached pops 0. -/
theorem fifoPop_of_attached (h : bitOf (rd s F.chFifoCtlDbgEn ch) f = false) : fifoPop s ch f = (0, s) := by
  rw [fifoPop, if_pos (by simp [h])]

/-- An empty one pops the word popped last, and UNDERRUN is set. -/
theorem fifoPop_of_empty (h : bitOf (rd s F.chFifoCtlDbgEn ch) f = true) (hempty : (getFifo s ch f).commit = (getFifo s ch f).cons) :
    fifoPop s ch f = ((getFifo s ch f).popped, wr s F.chFifoStatUnderrun ch f 0 1) := by
  rw [fifoPop, if_neg (not_not_intro h), if_pos]
  simp [Fifo.empty, Fifo.seenProd_eq, hempty]

/-- Any other pops the next word of the line at the consumer's pointer, which moves on with the last word of the line. -/
theorem fifoPop_of_filled (h : bitOf (rd s F.chFifoCtlDbgEn ch) f = true) (hfilled : (getFifo s ch f).commit ≠ (getFifo s ch f).cons) :
    let x := getFifo s ch f
    (fifoPop s ch f).1 = BitVec.ofNat 64 (leNat (slice (padTo 64 (Tab.get x.lines (x.cons.toNat % 512) {}).data) (8 * x.word) 8))
    ∧ (getFifo (fifoPop s ch f).2 ch f).cons = (if x.word = 7 then x.cons + 1 else x.cons)
    ∧ (getFifo (fifoPop s ch f).2 ch f).word = (if x.word = 7 then 0 else x.word + 1) := by
  intro x
  have hfull : (getFifo s ch f).empty = false := by simpa [Fifo.empty, Fifo.seenProd_eq] using hfilled
  simp only [fifoPop, if_neg (not_not_intro h), hfull, Bool.false_eq_true, if_false, getFifo_updFifo_same]
  exact ⟨rfl, rfl, rfl⟩

end

/-- Settles O50: each register's write by what it stores and what then acts, a flush by its FIFO, and a pop by what the FIFO holds. -/
theorem dmaRegisterRows : Obligations.DmaRegisterRows := by
  refine ⟨fun a d v s htakes => execDcCtlWrite_spec htakes, fun s d => ⟨dcWriteEnable_of_bad_config, dcWriteEnable_of_good_config,
    dcWriteEnable_of_enabled, dcWriteEnable_of_draining⟩, fun d s hup => ⟨fun hdrains hidle => ?drained, fun hother => ?drains⟩,
    fun a d v s htakes => ?kick, fun a ch v s htakes => ?fifoCtl,
    fun s ch f => ⟨fun hclosed => ?_, fun hopen => if_pos hopen, flushFifo_of_no_items⟩, fun a ch f s => execFifoDbgPop_of_takes,
    fun s ch f => ⟨fifoPop_of_attached, fifoPop_of_empty, fifoPop_of_filled⟩⟩
  case drained =>
    rw [execDmaChannelDrainEnd_of_up hup, dcDrained, if_pos ⟨hdrains, by simp [hidle]⟩]
  case drains =>
    rw [execDmaChannelDrainEnd_of_up hup, dcDrained, if_neg]
    rintro ⟨hdrains, hidle⟩
    exact hother.elim (· hdrains) hidle
  case kick =>
    intro s0
    have hexec := execDcKickWrite_of_takes htakes
    exact ⟨fun hoff => by rw [hexec, if_neg (Bool.eq_false_iff.mp hoff)], fun hon hfetching => by rw [hexec, if_pos hon, if_pos hfetching],
      fun hon hfree => by rw [hexec, if_pos hon, if_neg (Bool.eq_false_iff.mp hfree)]⟩
  case fifoCtl =>
    intro flush want c hc
    exact ⟨execFifoCtl_of_not_ready htakes hc, execFifoCtl_of_ready htakes hc⟩
  · exact if_neg (by simp [hclosed])

end Sys2Proof.Machine
end

section
/-! What H_INI brings (R364, R367–R373): beats of reads, responses of writes, and credits. -/

namespace Sys2Proof.Machine

/-! ### Free bytes, and reads that a beat of another ID spoils (R373) -/

/-- Taking free bytes changes nothing but the count of free values. -/
theorem freeBytes_spec (s : State) (n : Nat) : ∃ b k, freeBytes s n = (b, { s with freeCtr := k }) ∧ b.length = n := by
  induction n with
  | zero => exact ⟨[], s.freeCtr, rfl, rfl⟩
  | succ n ih =>
    obtain ⟨b, k, hfree, hlen⟩ := ih
    refine ⟨b ++ [Config.freeByte k], k + 1, ?_, by rw [List.length_append, hlen]; rfl⟩
    rw [freeBytes, hfree]
    rfl

/-- What is spoilt of reads is at most their bytes. -/
theorem spoiled_spec (rs : List HiReq) (s : State) : ∃ qs k, spoiled rs s = (qs, { s with freeCtr := k })
    ∧ qs.map (fun r => { r with data := [] }) = rs.map (fun r => { r with data := [] }) := by
  induction rs generalizing s with
  | nil => exact ⟨[], s.freeCtr, rfl, rfl⟩
  | cons r rs ih =>
    obtain ⟨b, m, hfree, -⟩ := freeBytes_spec s r.data.length
    obtain ⟨qs, k, hrest, hreads⟩ := ih { s with freeCtr := m }
    refine ⟨{ r with data := b } :: qs, k, ?_, by rw [List.map_cons, hreads]; rfl⟩
    rw [spoiled, hfree]
    simp only [hrest]

/-- A beat of an unknown ID has no effect, by a free bit. -/
theorem hiSpoil_of_ignored {s : State} (h : Config.freeBit s.freeCtr = false) : hiSpoil s = { s with freeCtr := s.freeCtr + 1 } := by
  simp only [hiSpoil, freeBit, h, Bool.false_eq_true, if_false]

/-- It changes at most bytes of the reads outstanding. -/
theorem hiSpoil_spec (s : State) : ∃ rs n, hiSpoil s = { s with freeCtr := n, hi := { s.hi with reads := rs } }
    ∧ rs.map (fun r => { r with data := [] }) = s.hi.reads.map (fun r => { r with data := [] }) := by
  cases hbit : Config.freeBit s.freeCtr with
  | false => exact ⟨s.hi.reads, s.freeCtr + 1, hiSpoil_of_ignored hbit, rfl⟩
  | true =>
    obtain ⟨rs, n, hspoiled, hreads⟩ := spoiled_spec s.hi.reads { s with freeCtr := s.freeCtr + 1 }
    refine ⟨rs, n, ?_, hreads⟩
    simp only [hiSpoil, freeBit, hbit, if_true, hspoiled]

/-! ### A beat of a read (R367, R368) -/

/-- A read with one beat more. -/
def HiReq.withBeat (r : HiReq) (data : List Byte) (p : BitVec 16) (e : BitVec 2) : HiReq :=
  let x := beatPart r r.beats data p
  { r with data := r.data ++ x.1, poison := r.poison ++ (if e = 0 then x.2 else x.2.map (fun _ => false)),
           beats := r.beats + 1, err := r.err || decide (e ≠ 0) }

/-- The state in which a read has become another. -/
def readBecomes (s : State) (r r1 : HiReq) : State :=
  { s with hi := { s.hi with reads := s.hi.reads.map (fun q => if q = r then r1 else q) } }

/-- The state with a beat of a read taken, and its error logged if it has one. -/
def beatTaken (s : State) (r : HiReq) (id : BitVec 10) (data : List Byte) (p : BitVec 16) (e : BitVec 2) : State :=
  if e ≠ 0 then hiLogErr (readBecomes s r (r.withBeat data p e)) id.toNat e.toNat 0 else readBecomes s r (r.withBeat data p e)

/-- What a read with another count of beats returns is its length of free bytes (R373). -/
theorem wrongBeats_spec (s : State) (r : HiReq) :
    (wrongBeats s r).1 = { r with data := (wrongBeats s r).1.data, poison := (wrongBeats s r).1.poison }
      ∧ (wrongBeats s r).1.data.length = r.len ∧ (wrongBeats s r).2 = { s with freeCtr := (wrongBeats s r).2.freeCtr } := by
  obtain ⟨b, k, hfree, hlen⟩ := freeBytes_spec s r.len
  rw [wrongBeats, hfree]
  exact ⟨rfl, hlen, rfl⟩

section
variable {id : BitVec 10} {data : List Byte} {p : BitVec 16} {e : BitVec 2} {s : State} (hlen : data.length = 128)
include hlen

/-- A beat of an outstanding read is taken; the last one completes the read, with what it brought or with free bytes. -/
theorem execHiReadDataBeat_of_read {r : HiReq} (l : Bool)
    (hread : s.hi.reads.find? (fun r => r.id = id.toNat && !r.done) = some r) :
    let y := beatTaken s r id data p e
    let r1 := r.withBeat data p e
    let z := wrongBeats y r1
    exec (.hiReadDataBeat id data p e l) s = .next (if l then
      (if r.beats + 1 = r.beatCount then readArrived y r1 else readArrived (readBecomes z.2 r1 z.1) z.1) else y) := by
  intro y r1 z
  show execHiReadDataBeat id data p e l s = _
  rw [execHiReadDataBeat, if_neg (not_not_intro hlen), hread]
  cases l with
  | false => rfl
  | true =>
    by_cases hcount : r.beats + 1 = r.beatCount
    · simp only [if_true, if_pos hcount]
      rfl
    · simp only [if_true, if_neg hcount]
      rfl

/-- A beat whose ID has no read outstanding. -/
theorem execHiReadDataBeat_of_unknown (l : Bool) (hnone : s.hi.reads.find? (fun r => r.id = id.toNat && !r.done) = none) :
    exec (.hiReadDataBeat id data p e l) s = .next (hiSpoil s) := by
  show execHiReadDataBeat id data p e l s = _
  rw [execHiReadDataBeat, if_neg (not_not_intro hlen), hnone]

end

/-! ### The response of a write (R368, R373) -/

/-- A response without error. -/
theorem writeResponse_okay (s : State) (r : HiReq) :
    writeResponse s r 0 = writeAnswered { s with hi := { s.hi with writes := s.hi.writes.erase r } } r false := rfl

/-- A response with an error is logged. -/
theorem writeResponse_error (s : State) (r : HiReq) {e : BitVec 2} (h : e ≠ 0) : writeResponse s r e
    = writeAnswered (hiLogErr { s with hi := { s.hi with writes := s.hi.writes.erase r } } r.id e.toNat 1) r true := by
  rw [writeResponse, if_neg h, decide_eq_true h]

section
variable {id : BitVec 10} {e : BitVec 2} {s : State}

theorem execHiWriteResponse_of_write {r : HiReq} (h : s.hi.writes.find? (fun r => r.id = id.toNat) = some r) :
    exec (.hiWriteResponse id e) s = .next (writeResponse s r e) := by
  show execHiWriteResponse id e s = _
  rw [execHiWriteResponse, h]

/-- A response of an unknown ID is ignored without a write outstanding, and else by a free bit. -/
theorem execHiWriteResponse_ignored (hnone : s.hi.writes.find? (fun r => r.id = id.toNat) = none)
    (h : s.hi.writes = [] ∨ Config.freeBit s.freeCtr = false) :
    exec (.hiWriteResponse id e) s = .next { s with freeCtr := s.freeCtr + 1 } := by
  show execHiWriteResponse id e s = _
  rw [execHiWriteResponse, hnone]
  simp only [freeBit]
  rcases h with hempty | hbit
  · rw [hempty]
  · simp only [hbit, Bool.false_eq_true, if_false]
    split <;> rfl

/-- Or it answers the oldest write. -/
theorem execHiWriteResponse_oldest {r : HiReq} {rest : List HiReq} (hnone : s.hi.writes.find? (fun r => r.id = id.toNat) = none)
    (hwrites : s.hi.writes = r :: rest) (hbit : Config.freeBit s.freeCtr = true) :
    exec (.hiWriteResponse id e) s = .next (writeResponse { s with freeCtr := s.freeCtr + 1 } r e) := by
  show execHiWriteResponse id e s = _
  rw [execHiWriteResponse, hnone]
  simp only [freeBit, hwrites, hbit, if_true]

end

/-! ### Credits (R364, R370, R373) -/

/-- A count of credits after a return is the sum where the fabric keeps to the limit, and free, but within it, where not. -/
theorem addCredit_spec (s : State) (old n : Nat) : ∃ m k, addCredit s old n = (m, { s with freeCtr := k }) ∧ m ≤ 255
    ∧ (old + n ≤ 255 → m = old + n ∧ k = s.freeCtr) := by
  by_cases hfits : old + n ≤ 255
  · exact ⟨old + n, s.freeCtr, if_pos hfits, hfits, fun _ => ⟨rfl, rfl⟩⟩
  · exact ⟨(freeWord s).1.toNat % 256, s.freeCtr + 1, if_neg hfits, Nat.le_of_lt_succ (Nat.mod_lt _ (by decide)),
      fun h => absurd h hfits⟩

/-- The state once returned credits are added. -/
def creditsBack (s : State) (x y : BitVec 2) : State :=
  let r := addCredit s s.hi.rdCred x.toNat
  let w := addCredit r.2 r.2.hi.wrCred y.toNat
  { w.2 with hi := { w.2.hi with rdCred := r.1, wrCred := w.1 } }

theorem execHiCreditReturn_of_up {x y : BitVec 2} {s : State} (hup : domUp s dHk = true) :
    exec (.hiCreditReturn x y) s = .next (hiPump (creditsBack s x y)) :=
  (show exec (.hiCreditReturn x y) s = execHiCreditReturn x y s from rfl).trans (if_neg (by simp [hup]))

theorem execHiCreditReturn_of_down {x y : BitVec 2} {s : State} (hdown : domUp s dHk = false) :
    exec (.hiCreditReturn x y) s = .next s :=
  (show exec (.hiCreditReturn x y) s = execHiCreditReturn x y s from rfl).trans (if_pos (by simp [hdown]))

theorem creditsBack_spec (s : State) (x y : BitVec 2) : ∃ r w n, r ≤ 255 ∧ w ≤ 255
    ∧ creditsBack s x y = { s with freeCtr := n, hi := { s.hi with rdCred := r, wrCred := w } }
    ∧ (s.hi.rdCred + x.toNat ≤ 255 → r = s.hi.rdCred + x.toNat) ∧ (s.hi.wrCred + y.toNat ≤ 255 → w = s.hi.wrCred + y.toNat)
    ∧ (s.hi.rdCred + x.toNat ≤ 255 → s.hi.wrCred + y.toNat ≤ 255 → n = s.freeCtr) := by
  obtain ⟨r, m, hread, hr, hreadSum⟩ := addCredit_spec s s.hi.rdCred x.toNat
  obtain ⟨w, n, hwrite, hw, hwriteSum⟩ := addCredit_spec { s with freeCtr := m } s.hi.wrCred y.toNat
  refine ⟨r, w, n, hr, hw, ?_, fun hx => (hreadSum hx).1, fun hy => (hwriteSum hy).1,
    fun hx hy => (hwriteSum hy).2.trans (hreadSum hx).2⟩
  simp only [creditsBack, hread, hwrite]

end Sys2Proof.Machine
end

section
/-! Data movement (R95, R277, R280–R282, R289–R292, R300, R302): packets that commit and move, moves that end, descriptors and
lists that arrive. -/

namespace Sys2Proof.Machine

/-! ### The host ends of the staging FIFOs (R300, R302, R304) -/

/-- A whole quarter in HOST_IN, all of whose reads are done, is committed: its bytes go to the bank, or wait for a bank mover
that is detached, and the entry ends. -/
theorem execHostInCommit_of_whole {ch : Fin 48} {s : State} {d : Nat} {it : Item} {e : Entry}
    (hin : hostInDma s ch.val = some (d, it, e)) (hwhole : ((getFifo s ch.val 0).wr - (getFifo s ch.val 0).commit).toNat = 65)
    (hreads : readsOpen s it.id e = false) (hclock : parked s = false) :
    let x := fifoLines (getFifo s ch.val 0) (getFifo s ch.val 0).commit.toNat 65
    let y := updFifo s ch.val 0 (fun f => { f with commit := f.wr, holder := none })
    exec (.hostInCommit ch) s = .next (flushDue (entryEnds (if detached s ch.val 0 then
        updFifo y ch.val 0 (fun f => { f with parked := f.parked ++ [⟨d, it.id, e.page, e.q, x.1, x.2⟩] })
      else progArrived (updFifo y ch.val 0 Fifo.takeAll) d it e x.1 x.2) d) ch.val) := by
  intro x y
  have hgoes : ¬(((getFifo s ch.val 0).wr - (getFifo s ch.val 0).commit).toNat ≠ 65 ∨ readsOpen s it.id e = true
      ∨ parked s = true) := by simp [hwhole, hreads, hclock]
  refine congrArg Host.Outcome.next (show hostInCommit s ch.val = _ from ?_)
  rw [hostInCommit, hin]
  simp only [if_neg hgoes]
  cases detached s ch.val 0 <;> rfl

/-- Without a flush that waits nothing is flushed. -/
theorem flushDue_of_none {s : State} {ch : Nat} (h : rd s F.chFifoCtlFlush ch = 0) : flushDue s ch = s := by
  refine List.foldlRecOn (motive := (· = s)) _ _ rfl fun t ht f _ => ?_
  rw [ht, if_neg]
  simp [h, bitOf]

/-- The packet of a read entry is in HOST_OUT up to its end; it moves if nothing holds the FIFO, the channel is attached and its
list has given its parts. -/
theorem execHostOutThreshold_of_packet {ch : Fin 48} {s : State} {p : OutPkt} {it : Item} {e : Entry}
    (hout : hostOutDma s ch.val = some (p, it, e)) (hclock : parked s = false) :
    let y := hostOutFill s ch.val (entryLines it e).2
    let g := entrySegs y p.dma it e
    exec (.hostOutThreshold ch) s = .next (
      if hostOutHeld s ch.val ∨ detached s ch.val 3 ∨ (g.2.isSome ∧ (getDma s p.dma).stop.isNone) then flushDue y ch.val
      else hostOutMove y ch.val p it e g.1) := by
  intro y g
  refine congrArg Host.Outcome.next (show hostOutGo s ch.val = _ from ?_)
  rw [hostOutGo, hout]
  simp only [hclock, Bool.false_eq_true, if_false]
  rfl

theorem execHostOutThreshold_of_none {ch : Fin 48} {s : State} (hnone : hostOutDma s ch.val = none) :
    exec (.hostOutThreshold ch) s = .next s := by
  refine congrArg Host.Outcome.next (show hostOutGo s ch.val = _ from ?_)
  rw [hostOutGo, hnone]

/-! ### The parity pass (R95) -/

/-- The parity passes over a program make its data ready, or end it for poison. -/
theorem execParityPassEnd_of_committed {id : Nat} {s : State} {it : Item} (hfind : findItem s id = some it)
    (hdue : it.phase = .program ∧ it.stage = .queued ∧ ¬ it.dataReady = true ∧ dataCommitted it = true ∧ hasSlots it = true
      ∧ ¬ parked s = true ∧ domUp s (dCg (it.lun.ch / 4)) = true) :
    exec (.parityPassEnd id) s = .next (if (parityPasses s it).1 then stopItem (parityPasses s it).2 id .dmaFault
      else updItem (parityPasses s it).2 id (fun i => { i with dataReady := true })) := by
  show execParityPassEnd id s = _
  rw [execParityPassEnd, hfind]
  exact if_pos hdue

/-! ### Moves that end (R277, R281, R290) -/

section
variable {d : Fin 32} {s : State} (hclock : parked s = false) (hup : dmaUp s d.val = true)
include hclock hup

/-- A descriptor whose move is done ends. -/
theorem execDmaMoveComplete_of_desc {r : DescRun} (hdesc : (getDma s d.val).desc = some r) (hdone : descDone s d.val r = true) :
    exec (.dmaMoveComplete d) s = .next (descEnd s d.val r) := by
  show execDmaMoveComplete d s = _
  simp only [execDmaMoveComplete, hclock, hup, hdesc, hdone, Bool.false_eq_true, not_true_eq_false, or_self, if_false, if_true]

/-- An entry none of whose writes waits ends, or ends its item where its list stopped it. -/
theorem execDmaMoveComplete_of_entry {e : Entry} {it : Item} (hdesc : (getDma s d.val).desc = none)
    (hcur : (getDma s d.val).cur = some e) (hfind : findItem s e.item = some it) (hgoing : (getDma s d.val).going = true)
    (hwrites : writesWait s it.id e = false) :
    ((getDma s d.val).stop = none → exec (.dmaMoveComplete d) s = .next (flushDue (readMoved s d.val it e) it.lun.ch))
    ∧ (∀ st, (getDma s d.val).stop = some st → exec (.dmaMoveComplete d) s = .next (flushDue (stopItem s it.id st) it.lun.ch)) := by
  have hends : (getDma s d.val).going = true ∧ ¬ writesWait s it.id e = true := ⟨hgoing, by simp [hwrites]⟩
  refine ⟨fun hstop => ?_, fun st hstop => ?_⟩
  all_goals
    show execDmaMoveComplete d s = _
    simp only [execDmaMoveComplete, hclock, hup, hdesc, hcur, hfind, if_pos hends, hstop, Bool.false_eq_true, not_true_eq_false,
      or_self, if_false]

end

/-! ### Errors of fetches (R368) -/

/-- Logging an error changes registers alone. -/
theorem hiLogErr_frame (s : State) (id code kind : Nat) :
    hiLogErr s id code kind = { s with regs := (hiLogErr s id code kind).regs } := by
  rw [hiLogErr]
  split <;> rfl

/-- The error of a fetch changes registers and the count of free values alone. -/
theorem fetchErr_frame (s : State) (r : HiReq) (err : Bool) : ∃ rs k, fetchErr s r err = { s with regs := rs, freeCtr := k } := by
  rw [fetchErr]
  split
  · exact ⟨_, s.freeCtr + 1, hiLogErr_frame { s with freeCtr := s.freeCtr + 1 } r.id _ 0⟩
  · exact ⟨s.regs, s.freeCtr, rfl⟩

theorem fetchErr_of_okay (s : State) (r : HiReq) : fetchErr s r false = s := rfl

/-- The state in which the fetch of a channel has failed: its error is logged, BUS_ERR_SEEN is set and the event counted. -/
def fetchFailed (s : State) (d : Nat) (r : HiReq) (err : Bool) : State :=
  tally (flag1 (fetchErr (readDone s r) r err) F.dcStatusBusErrSeen d) 0x4e

theorem fetchFailed_spec (s : State) (d : Nat) (r : HiReq) (err : Bool) : rdB (fetchFailed s d r err) F.dcStatusBusErrSeen d = true
    ∧ (fetchFailed s d r err).dma = (readDone s r).dma ∧ (fetchFailed s d r err).items = (readDone s r).items := by
  obtain ⟨rs, k, hlogged⟩ := fetchErr_frame (readDone s r) r err
  refine ⟨?_, ?_, ?_⟩
  · rw [rdB, fetchFailed, rd_tally _ _ _ _ _ _ (by decide) (by decide)]
    exact rdB_flag1_same _ F.dcStatusBusErrSeen d rfl (by decide)
  · rw [fetchFailed, tally_frame, flag1_dma, hlogged]
  · rw [fetchFailed, tally_items, flag1_items, hlogged]

/-! ### Ring descriptors (R280, R282) -/

/-- A channel reads what it was changed to. -/
theorem getDma_updDma_same (s : State) (d : Nat) (f : DmaSt → DmaSt) : getDma (updDma s d f) d = f (getDma s d) :=
  Tab.get_set_same s.dma d _ _

theorem getDma_congr {s t : State} (h : t.dma = s.dma) (d : Nat) : getDma t d = getDma s d := by
  rw [getDma, getDma, h]

section
variable {d : Fin 32} {b : List Byte} {s : State} {r : HiReq} (hlen : b.length = 32)
  (hread : s.hi.reads.find? (fun r => r.use = .descFetch d.val) = some r)
include hlen hread

/-- A descriptor arrives without error: it starts if OWN is 1 and the channel is ENABLED, is left if it is not ENABLED, and stops
the channel if OWN is 0. -/
theorem execRingDescFetchReturn_of_okay (hclean : r.spoilt = false) :
    exec (.ringDescFetchReturn d b false false) s = .next (if (b.getD 31 0).getLsbD 7 then
      (if dcState (readDone s r) d.val = 3 then descStart (readDone s r) d.val b else readDone s r)
      else ringStops (readDone s r) d.val) := by
  show execRingDescFetchReturn d b false false s = _
  simp only [execRingDescFetchReturn, if_neg (not_not_intro hlen), hread, fetchErr_of_okay, hclean, Bool.false_eq_true, or_self, if_false]
  exact (apply_ite Host.Outcome.next ((b.getD 31 0).getLsbD 7 = true) _ _).symm

/-- An error or poison stops the channel. -/
theorem execRingDescFetchReturn_of_bad {err poison : Bool} (hbad : err = true ∨ poison = true ∨ r.spoilt = true) :
    exec (.ringDescFetchReturn d b err poison) s = .next (ringStops (fetchFailed s d.val r err) d.val) := by
  show execRingDescFetchReturn d b err poison s = _
  rw [execRingDescFetchReturn, if_neg (not_not_intro hlen), hread]
  exact if_pos hbad

end

/-- A descriptor whose result is known before any move is kept with it, and a fault of it sets MISALIGNED_SEEN. -/
theorem descStart_of_checked {s : State} {d n : Nat} {b : List Byte} (hcheck : descCheck s b = some n) :
    (getDma (descStart s d b) d).desc = some { bytes := b, result := some n }
      ∧ (n ≠ 0 → rdB (descStart s d b) F.dcStatusMisalignedSeen d = true) := by
  have hdesc := congrArg DmaSt.desc (getDma_updDma_same s d
    (fun x => { x with desc := some { bytes := b, result := descCheck s b }, kicked := false }))
  rw [hcheck] at hdesc
  simp only [descStart, hcheck]
  by_cases hzero : n = 0
  · rw [if_pos hzero]
    exact ⟨hdesc, fun h => absurd hzero h⟩
  · rw [if_neg hzero]
    refine ⟨?_, fun _ => rdB_flag1_same _ F.dcStatusMisalignedSeen d rfl (by decide)⟩
    rw [getDma_congr (flag1_dma ..)]
    split
    · rw [getDma_congr (by rw [tally_frame])]
      exact hdesc
    · exact hdesc

/-- A channel that was not kicked stops with IDLE_OWN set; one that was fetches again with IDLE_OWN clear. -/
theorem ringStops_spec (s : State) (d : Nat) : ((getDma s d).kicked = false → ringStops s d = flag1 s F.dcStatusIdleOwn d)
    ∧ ((getDma s d).kicked = true → ∃ y, ringStops s d = ringKick y d
      ∧ (getDma y d).kicked = false ∧ rdB y F.dcStatusIdleOwn d = false) := by
  refine ⟨fun hnot => ?_, fun hkicked => ⟨wr1 (updDma (flag1 s F.dcStatusIdleOwn d) d (fun x => { x with kicked := false }))
    F.dcStatusIdleOwn d 0, ?_, ?_, rdB_wr1_zero _ F.dcStatusIdleOwn d (by decide)⟩⟩
  · rw [ringStops, hnot]
    rfl
  · rw [ringStops, if_pos hkicked]
  · exact congrArg DmaSt.kicked (getDma_updDma_same (flag1 s F.dcStatusIdleOwn d) d (fun x => { x with kicked := false }))

/-! ### Descriptor lists (R289, R290) -/

/-- The fetch of a channel's descriptor list that is outstanding. -/
def listFetchOut (s : State) (d : Nat) : Option HiReq :=
  s.hi.reads.find? (fun r => match r.use with | .listFetch e _ => e = d | _ => false)

section
variable {d : Fin 32} {es : List (List Byte)} {s : State} {r : HiReq} {it : Item} {e : Entry}
  (hread : listFetchOut s d.val = some r) (hlen : 32 * es.length = r.len) (hentries : ∀ x ∈ es, x.length = 32)
  (hitem : r.use.item.bind (findItem (readDone s r)) = some it) (hcur : (getDma (readDone s r) d.val).cur = some e)
  (he : e.item = it.id)
include hread hlen hentries hitem hcur he

/-- A piece of the list of the entry in progress arrives: the entry runs on, or an error or poison ends its item. -/
theorem execDescListFetchReturn_of_piece (flaw : FetchFlaw) :
    exec (.descListFetchReturn d es flaw) s = .next (
      if flaw.err ∨ flaw.poison ∨ r.spoilt then stopItem (fetchFailed s d.val r flaw.err) it.id .dmaFault
      else
        let y := runEntry (updDma (fetchErr (readDone s r) r flaw.err) d.val (fun x => takeList x (es.map parseListEnt))) d.val it e
        if (getDma y d.val).cur.isNone then dmaKickAll y else y) := by
  have hform : ¬(32 * es.length ≠ r.len ∨ es.any (fun e => e.length ≠ 32) = true) := by simpa [hlen] using hentries
  obtain ⟨rs, k, hlogged⟩ := fetchErr_frame (readDone s r) r flaw.err
  have hdma : (fetchErr (readDone s r) r flaw.err).dma = (readDone s r).dma := by rw [hlogged]
  have hfind : findItem (fetchErr (readDone s r) r flaw.err) = findItem (readDone s r) := by
    rw [hlogged]
    rfl
  show execDescListFetchReturn d es flaw s = _
  unfold execDescListFetchReturn
  split
  · next hnone => exact absurd (hnone.symm.trans hread) nofun
  · next r' hsome =>
    obtain rfl : r' = r := Option.some.inj (hsome.symm.trans hread)
    simp only [if_neg hform, hfind, hitem, getDma_congr hdma, hcur, if_neg (not_not_intro he)]
    exact (apply_ite Host.Outcome.next (flaw.err = true ∨ flaw.poison = true ∨ r'.spoilt = true) _ _).symm

end

/-- Settles O51, row by row: each row by what it carries out in the cases of R373 and outside them, and what that leaves. -/
theorem dataMovementRows : Obligations.DataMovementRows := by
  refine ⟨fun ch s d it e hin hwhole hreads hclock => execHostInCommit_of_whole hin hwhole hreads hclock,
    fun s ch => flushDue_of_none,
    fun id s it hfind hphase hstage hready hcommitted hslots hclock hup =>
      execParityPassEnd_of_committed hfind ⟨hphase, hstage, by simp [hready], hcommitted, hslots, by simp [hclock], hup⟩,
    fun ch s p it e hout hclock => ?hostOut, fun ch s => execHostOutThreshold_of_none,
    fun d s hclock hup => ⟨fun r => execDmaMoveComplete_of_desc hclock hup, fun e it => execDmaMoveComplete_of_entry hclock hup⟩,
    fun d b s r hlen hread => ?ringDesc, fun d es s r it e hread hlen hentries hitem hcur he => ?list,
    fun id data p e s r hlen hread => ?beat,
    fun id data p e l s hlen hnone => ⟨execHiReadDataBeat_of_unknown hlen l hnone, hiSpoil_of_ignored, hiSpoil_spec s⟩,
    fun id e s => ⟨fun r => execHiWriteResponse_of_write, fun r => ⟨writeResponse_okay s r, writeResponse_error s r⟩,
      fun hnone => ⟨execHiWriteResponse_ignored hnone, fun r rest => execHiWriteResponse_oldest hnone⟩⟩,
    fun x y s hup => ?credits, fun x y s => execHiCreditReturn_of_down⟩
  case hostOut =>
    intro y g
    have hexec := execHostOutThreshold_of_packet hout hclock
    refine ⟨fun hwaits => ?_, fun hfree hattached hparts => ?_⟩
    · rw [hexec, if_pos]
      exact hwaits.imp_right (Or.imp_right (And.imp_right Option.isNone_iff_eq_none.mpr))
    · rw [hexec, if_neg]
      rintro (hheld | hdetached | ⟨hfails, hgoes⟩)
      · exact Bool.false_ne_true (hfree.symm.trans hheld)
      · exact Bool.false_ne_true (hattached.symm.trans hdetached)
      · rcases hparts with hall | hstop
        · exact absurd (hall ▸ hfails) (by simp)
        · exact hstop (Option.isNone_iff_eq_none.mp hgoes)
  case ringDesc =>
    intro y
    refine ⟨fun hclean hown hon => ?_, fun hclean hown hoff => ?_, fun hclean hown => ?_,
      fun err poison hbad => ⟨fetchFailed s d.val r err, execRingDescFetchReturn_of_bad hlen hread hbad,
        (fetchFailed_spec s d.val r err).1, (fetchFailed_spec s d.val r err).2.1⟩,
      fun n => descStart_of_checked, fun x => ringStops_spec x d.val⟩
    · rw [execRingDescFetchReturn_of_okay hlen hread hclean, if_pos hown, if_pos hon]
    · rw [execRingDescFetchReturn_of_okay hlen hread hclean, if_pos hown, if_neg hoff]
    · rw [execRingDescFetchReturn_of_okay hlen hread hclean, if_neg (Bool.eq_false_iff.mp hown)]
  case list =>
    intro y
    refine ⟨fun hclean => ?_, fun err poison hbad => ?_⟩
    · rw [execDescListFetchReturn_of_piece hread hlen hentries hitem hcur he, if_neg (by simp [hclean])]
      rfl
    · obtain ⟨hseen, -, hitems⟩ := fetchFailed_spec s d.val r err
      refine ⟨fetchFailed s d.val r err, ?_, hseen, hitems⟩
      rw [execDescListFetchReturn_of_piece hread hlen hentries hitem hcur he, if_pos hbad]
  case beat =>
    intro x r1 y0 y z
    have htaken : beatTaken s r id data p e = y := ite_not (e = 0) _ _
    have hexec (l : Bool) := execHiReadDataBeat_of_read (p := p) (e := e) hlen l hread
    simp only [htaken] at hexec
    refine ⟨hexec false, fun hcount => ?_, fun hcount => ?_, wrongBeats_spec y r1⟩
    · rw [hexec true, if_pos rfl, if_pos hcount]
      rfl
    · rw [hexec true, if_pos rfl, if_neg hcount]
      rfl
  case credits =>
    obtain ⟨r, w, n, hr, hw, hback, hread, hwrite, hfree⟩ := creditsBack_spec s x y
    exact ⟨r, w, n, hr, hw, (execHiCreditReturn_of_up hup).trans (congrArg (fun t => Host.Outcome.next (hiPump t)) hback),
      hread, hwrite, hfree⟩

end Sys2Proof.Machine
end

section
/-! SCRUB_CTL, RELOC_POOL_ADD and BOOT_SWAP (R321, R325, R329, R337): what their items do when they are carried out here. -/

namespace Sys2Proof.Machine

/-! ### Tables without some of their keys -/

/-- A table without the keys of a set reads its default there, and what it held elsewhere. -/
theorem Tab.get_drop {κ α : Type} [DecidableEq κ] (t : Tab κ α) (p : κ → Bool) (k : κ) (d : α) :
    Tab.get (Tab.drop t p) k d = if p k then d else Tab.get t k d := by
  induction t with
  | nil => simp [Tab.drop, Tab.get]
  | cons e r ih =>
    obtain ⟨k', a⟩ := e
    cases hp : p k' with
    | true =>
      rw [show Tab.drop ((k', a) :: r) p = Tab.drop r p from List.filter_cons_of_neg (by simp [hp]), ih]
      by_cases hk : k' = k
      · subst hk
        rw [if_pos hp, if_pos hp]
      · simp only [Tab.get, if_neg hk]
    | false =>
      rw [show Tab.drop ((k', a) :: r) p = (k', a) :: Tab.drop r p from List.filter_cons_of_pos (by simp [hp])]
      by_cases hk : k' = k
      · subst hk
        simp [Tab.get, hp]
      · simp only [Tab.get, if_neg hk, ih]

/-! ### SCRUB_CTL (R321) -/

/-- The packets of the three rows of SCRUB_CTL. -/
theorem op_of_scrubRow {c : Instr} {k : Fin 256} {p : Packet} (h : c ∈ [.scrubStart k p, .scrubStop k p, .scrubClearPool k p])
    (hwf : c.wellFormed = true) : packetOf c = some (k, p) ∧ p.op = 0x13 := by
  have hrow (b : Bool) (hb : (p.has 0x13 && b) = true) : p.op = 0x13 := of_decide_eq_true (Bool.and_eq_true_iff.mp hb).1
  simp only [List.mem_cons, List.not_mem_nil, or_false] at h
  rcases h with rfl | rfl | rfl
  · exact ⟨rfl, hrow _ hwf⟩
  · exact ⟨rfl, hrow (decide (p.selector ≠ 1) && decide (p.selector ≠ 2)) ((Bool.and_assoc ..).symm.trans hwf)⟩
  · exact ⟨rfl, hrow _ hwf⟩

/-- A SCRUB_CTL takes effect unless the half link holds it. -/
theorem carryOut_of_scrub {s : State} {it : Item} (h : it.pkt.op = 0x13) : carryOut s it = effectRun s it := by
  simp [carryOut, Packet.usesQueue, lunAction, opQueue, h]

theorem packetEffect_scrub {s : State} {p : Packet} (h : p.op = 0x13) : packetEffect s p = scrubEffect s p := by
  simp [packetEffect, h]

section
variable {s : State} {p : Packet}

theorem scrubEffect_stop (h : p.opByte 8 = 0) : scrubEffect s p = scrubStop s := by simp only [scrubEffect, h]
theorem scrubEffect_start (h : p.opByte 8 = 1) : scrubEffect s p = scrubStart s p := by simp only [scrubEffect, h]
theorem scrubEffect_clear (h : p.opByte 8 = 2) : scrubEffect s p = scrubClear s (p.opByte 9) := by simp only [scrubEffect, h]

theorem scrubEffect_other (h : 2 < p.opByte 8) : scrubEffect s p = s := by
  obtain ⟨n, hn⟩ : ∃ n, p.opByte 8 = n + 3 := ⟨p.opByte 8 - 3, by omega⟩
  simp only [scrubEffect, hn]

end

/-- CLEAR_POOL empties the pool of the named channel, or with 0xFF every pool. -/
theorem pool_scrubClear (s : State) (c d : Nat) :
    Tab.get (scrubClear s c).patrol.pools d [] = if c = 0xff ∨ d = c then [] else Tab.get s.patrol.pools d [] := by
  simp [scrubClear, Tab.get_drop]

/-- Settles O30: the rows, and the actions one by one. -/
theorem scrubRows : Obligations.ScrubRows := by
  refine ⟨fun c k p s hrow hwf hroutes hfree => ?_, fun s p => ⟨fun hstart => ?_, fun hstop => ?_, fun hclear c => ?_,
    fun hclear => ?_, scrubEffect_other⟩⟩
  · obtain ⟨hpacket, hop⟩ := op_of_scrubRow hrow hwf
    have hcarry : carryOut (routed s k.val p) (newItem s k.val p) = effectRun (routed s k.val p) (newItem s k.val p) :=
      carryOut_of_scrub hop
    have hends : effectRun (routed s k.val p) (newItem s k.val p)
        = endItem (packetEffect (routed s k.val p) p) (newItem s k.val p).id := effectRun_of_free (.inl hfree)
    rw [exec_of_routes hwf hpacket hroutes, hcarry, hends, packetEffect_scrub hop]
  · rw [scrubEffect_start hstart]
    exact ⟨rd_wr0_same s F.psStatusRun 1 (by decide), rfl, rfl, rfl, rfl, rfl, rfl,
      fun n i j l hn => getR_wr s F.psStatusRun n 0 0 0 i j l 1 hn⟩
  · exact ⟨scrubEffect_stop hstop, by rw [scrubEffect_stop hstop]; exact rd_wr0_same s F.psStatusRun 0 (by decide)⟩
  · rw [scrubEffect_clear hclear, pool_scrubClear]
  · rw [scrubEffect_clear hclear]
    rfl

/-! ### RELOC_POOL_ADD (R325) -/

/-- A RELOC_POOL_ADD appends its entries and ends. -/
theorem carryOut_of_poolAdd {s : State} {it : Item} (h : it.pkt.op = 0x15) :
    carryOut s it = endItem (poolAddAll s it.pkt) it.id := by
  simp [carryOut, Packet.usesQueue, lunAction, opQueue, h]

/-- The pools once an entry has gone to the end of the pool of its channel. -/
def poolsWith (s : State) (w : W64) : Tab Nat (List PoolEnt) :=
  Tab.set s.patrol.pools (fget w 48 8)
    (Tab.get s.patrol.pools (fget w 48 8) [] ++ [⟨fget w 0 40, BitVec.ofNat 8 (fget w 40 8)⟩])

section
variable {s : State} {w : W64}

/-- An entry with VALID 0 changes nothing. -/
theorem poolAdd_of_invalid (h : w.getLsbD 56 = false) : poolAdd s w = s := by
  have hvalid : fget w 56 1 = 0 := by rw [fget_one, h]; rfl
  simp [poolAdd, hvalid]

/-- A valid entry that no pool takes is dropped. -/
theorem poolAdd_of_drop (hvalid : w.getLsbD 56 = true)
    (h : 47 < fget w 48 8 ∨ 64 ≤ (Tab.get s.patrol.pools (fget w 48 8) []).length) : poolAdd s w = flag0 s F.psStatusPoolDrop := by
  have hone : fget w 56 1 = 1 := by rw [fget_one, hvalid]; rfl
  simp [poolAdd, hone, h]

/-- A valid entry of a channel whose pool has room goes to the pool's end. -/
theorem poolAdd_of_room (hvalid : w.getLsbD 56 = true) (hch : fget w 48 8 ≤ 47)
    (hroom : (Tab.get s.patrol.pools (fget w 48 8) []).length < 64) :
    poolAdd s w = { s with patrol := { s.patrol with pools := poolsWith s w } } := by
  have hone : fget w 56 1 = 1 := by rw [fget_one, hvalid]; rfl
  simp [poolAdd, poolsWith, hone, Nat.not_lt.mpr hch, Nat.not_le.mpr hroom]

end

/-- Settles O31: the row, and one entry by its VALID bit and the room in its pool. -/
theorem relocPoolAddRow : Obligations.RelocPoolAddRow := by
  refine ⟨fun k p s hwf hroutes => ?_, fun s w => ?_⟩
  · have hop : p.op = 0x15 := of_decide_eq_true hwf
    have hcarry : carryOut (routed s k.val p) (newItem s k.val p)
        = endItem (poolAddAll (routed s k.val p) p) (newItem s k.val p).id := carryOut_of_poolAdd hop
    rw [exec_of_routes hwf rfl hroutes, hcarry]
    rfl
  · intro c pool
    refine ⟨poolAdd_of_invalid, fun hvalid hch hroom => ?_, fun hvalid hdrop => ?_⟩
    · have hadd := poolAdd_of_room hvalid hch hroom
      have hlun : BitVec.ofNat 8 (fget w 40 8) = BitVec.ofNat 8 (w.toNat / 2 ^ 40) := by
        apply BitVec.eq_of_toNat_eq
        simp [fget, Nat.shiftRight_eq_div_pow]
      rw [hadd]
      refine ⟨⟨⟨fget w 0 40, BitVec.ofNat 8 (fget w 40 8)⟩, Tab.get_set_same _ c _ _, ?_, hlun⟩,
        fun d hd => Tab.get_set_other _ c d _ _ hd, rfl⟩
      simp [fget]
    · rw [poolAdd_of_drop hvalid hdrop]
      exact ⟨rfl, rdB_flag0_same s F.psStatusPoolDrop rfl (by decide)⟩

/-! ### BOOT_SWAP (R329, R337) -/

/-- HK0 carries out a BOOT_SWAP, or, stopped, leaves it waiting (R351). -/
theorem carryOut_of_bootSwap {s : State} {it : Item} (h : it.pkt.op = 0x16) :
    carryOut s it = if engRunning s 14 0 then swapBegin s it else updItem s it.id (fun i => { i with stage := .waitHk }) := by
  simp [carryOut, Packet.usesQueue, lunAction, opQueue, hkBegin, hkOf, h]

/-- The bytes of a number one by one (R9). -/
theorem map_byteOf_range (n v : Nat) : (List.range n).map (byteOf v) = leBytes n v := by
  induction n generalizing v with
  | zero => rfl
  | succ n ih =>
    have hnext (j : Nat) : byteOf v (j + 1) = byteOf (v / 256) j := by
      rw [byteOf, byteOf, Nat.shiftRight_eq_div_pow, Nat.shiftRight_eq_div_pow, Nat.div_div_eq_div_mul,
        show 2 ^ (8 * (j + 1)) = 256 * 2 ^ (8 * j) by rw [Nat.mul_add, Nat.pow_add, Nat.mul_comm]]
    rw [List.range_succ_eq_map, List.map_cons, List.map_map, leBytes, ← ih]
    exact congrArg₂ List.cons rfl (List.map_congr_left fun j _ => hnext j)

/-- The operand of a packet is its bytes 8 to 15, least significant first (R9). -/
theorem leNat_opBytes (p : Packet) (i n : Nat) :
    leNat ((List.range n).map (fun j => BitVec.ofNat 8 (p.opByte (8 + i + j)))) = p.row.toNat / 2 ^ (8 * i) % 2 ^ (8 * n) := by
  have hbyte (j : Nat) : BitVec.ofNat 8 (p.opByte (8 + i + j)) = byteOf (p.row.toNat / 2 ^ (8 * i)) j := by
    rw [Packet.opByte, BitVec.ofNat_toNat, BitVec.setWidth_eq, show 8 + i + j - 8 = i + j by omega, byteOf, byteOf,
      Nat.mul_add, Nat.shiftRight_eq_div_pow, Nat.shiftRight_eq_div_pow, Nat.pow_add, Nat.div_div_eq_div_mul]
  rw [← leNat_leBytes, ← map_byteOf_range]
  exact congrArg leNat (List.map_congr_left fun j _ => hbyte j)

/-- The last byte of the operand. -/
theorem opByte_fifteen (p : Packet) : p.opByte 15 = p.row.toNat / 2 ^ 56 := by
  rw [Packet.opByte, byteOf, BitVec.toNat_ofNat, Nat.shiftRight_eq_div_pow]
  exact Nat.mod_eq_of_lt (Nat.div_lt_of_lt_mul p.row.isLt)

/-- What HK0 takes from the packet of a BOOT_SWAP (R337). -/
def swapAsked (it : Item) : Swap :=
  { id := it.id, src := leNat ((List.range 4).map (fun i => BitVec.ofNat 8 (it.pkt.opByte (8 + i)))),
    len := leNat ((List.range 3).map (fun i => BitVec.ofNat 8 (it.pkt.opByte (12 + i)))),
    strength := it.pkt.opByte 15 % 8, reload := 128 ≤ it.pkt.opByte 15 }

/-- Source, length, strength and reload are the bits of the operand. -/
theorem swapAsked_spec (it : Item) : (swapAsked it).id = it.id ∧ (swapAsked it).src = it.pkt.row.toNat % 2 ^ 32
    ∧ (swapAsked it).len = it.pkt.row.toNat / 2 ^ 32 % 2 ^ 24 ∧ (swapAsked it).strength = it.pkt.row.toNat / 2 ^ 56 % 8
    ∧ (swapAsked it).reload = it.pkt.row.getLsbD 63 := by
  refine ⟨rfl, (leNat_opBytes it.pkt 0 4).trans (by simp), leNat_opBytes it.pkt 4 3, ?_, ?_⟩
  · rw [swapAsked, opByte_fifteen]
  · have hrow := it.pkt.row.isLt
    rw [swapAsked, opByte_fifteen, BitVec.getLsbD, Nat.testBit_eq_decide_div_mod_eq, decide_eq_decide]
    omega

section
variable {s : State} {it : Item}

/-- HK0 carries out one BOOT_SWAP at a time. -/
theorem swapBegin_of_busy (h : s.boot.swap.isSome = true) :
    swapBegin s it = updItem s it.id (fun i => { i with stage := .group }) := by
  rw [swapBegin, if_pos h]

/-- Without a boot channel that is ENABLED a BOOT_SWAP ends CHANNEL_FENCED. -/
theorem swapBegin_of_fenced (hfree : s.boot.swap = none) (h : ∀ ch, bootChannel s = some ch → rd s F.chCtlState ch ≠ 3) :
    swapBegin s it = endWith s it.id .channelFenced := by
  rw [swapBegin, if_neg (by simp [hfree])]
  split
  · rfl
  · next ch hch => rw [if_pos (h ch hch)]

/-- With the boot channel ENABLED HK0 takes the operand and issues the first step. -/
theorem swapBegin_of_enabled {ch : Nat} (hfree : s.boot.swap = none) (hch : bootChannel s = some ch) (h : rd s F.chCtlState ch = 3) :
    swapBegin s it = swapIssue (updItem s it.id (fun i => { i with stage := .group })) (swapAsked it) := by
  rw [swapBegin, if_neg (by simp [hfree])]
  simp only [hch]
  rw [if_neg (not_not_intro h)]
  rfl

end

/-- The boot channel is the first of the group that BOOT_SEL names (R329). -/
theorem bootChannel_spec {s : State} {ch : Nat} (h : bootChannel s = some ch) :
    ch + 4 = 4 * ((s.power.straps >>> 1).toNat % 16) ∧ ch ≤ 44 := by
  simp only [bootChannel, Option.ite_none_right_eq_some, Option.some.injEq] at h
  omega

/-- Settles O33: the row, and the beginning by what HK0 does and by the state of the boot channel. -/
theorem bootSwapRow : Obligations.BootSwapRow := by
  refine ⟨fun k p s hwf hroutes => ?_, fun s it => ⟨swapBegin_of_busy, swapBegin_of_fenced,
    fun ch hfree hch hstate => ⟨swapAsked it, swapBegin_of_enabled hfree hch hstate, swapAsked_spec it⟩,
    fun ch => bootChannel_spec⟩⟩
  intro x it
  have hcarry : carryOut x it = _ := carryOut_of_bootSwap (s := x) (it := it) (of_decide_eq_true hwf)
  have hexec := (exec_of_routes hwf rfl hroutes).trans (congrArg (fun t => Host.Outcome.next (kickFetch t k.val)) hcarry)
  refine ⟨hexec, fun ch hrun hfree hch hstate => ⟨swapAsked it, ?_, swapAsked_spec it⟩⟩
  rw [hexec, if_pos hrun, swapBegin_of_enabled hfree hch hstate]

end Sys2Proof.Machine
end

section
/-! Lines of staging memory (R308, R309, R315, R318): a line reads back what was written, and a write leaves every other line. -/

namespace Sys2Proof.Machine

/-! ### Byte memory, several bytes at a time -/

/-- Writing bytes leaves every address outside them. -/
theorem Memory.read_writeList_outside {m : Memory} {a x : Nat} {bs : List Byte} (hwf : m.wf = true)
    (h : x < a ∨ a + bs.length ≤ x) : (m.writeList a bs).read x = m.read x := by
  induction bs generalizing m a with
  | nil => rfl
  | cons b r ih =>
    rw [List.length_cons] at h
    rw [Memory.writeList, ih (Memory.write_wf hwf) (by omega), Memory.read_write hwf, if_neg (by omega)]

/-- Bytes that were written read back. -/
theorem Memory.readList_writeList_same {m : Memory} {a : Nat} {bs : List Byte} (hwf : m.wf = true) :
    (m.writeList a bs).readList a bs.length = bs := by
  induction bs generalizing m a with
  | nil => rfl
  | cons b r ih =>
    have hfirst : (m.writeList a (b :: r)).read a = b := by
      rw [Memory.writeList, Memory.read_writeList_outside (Memory.write_wf hwf) (.inl (Nat.lt_succ_self a)), Memory.read_write hwf,
        if_pos rfl]
    rw [List.length_cons, Memory.readList, hfirst, Memory.writeList, ih (Memory.write_wf hwf)]

/-- Reading bytes outside those written gives what stood there. -/
theorem Memory.readList_writeList_apart {m : Memory} {a c n : Nat} {bs : List Byte} (hwf : m.wf = true)
    (h : c + n ≤ a ∨ a + bs.length ≤ c) : (m.writeList a bs).readList c n = m.readList c n := by
  induction n generalizing c with
  | zero => rfl
  | succ n ih => rw [Memory.readList, Memory.readList, Memory.read_writeList_outside hwf (by omega), ih (by omega)]

/-! ### Lines (R308, R318) -/

/-- Where a line is stored depends on the registers alone. -/
theorem storedLine_congr {s t : State} (h : t.regs = s.regs) (b ln : Nat) : storedLine t b ln = storedLine s b ln := by
  simp only [storedLine, remapFor, rdB, rd_congr h]

theorem lineMeta_setMeta (s : State) (n : Nat) (m : LineMeta) (k : Nat) :
    lineMeta (setMeta s n m) k = if k = n then m else lineMeta s k := Tab.get_set ..

/-- With no flip armed none is taken (R320). -/
theorem takeFlip_of_disarmed {s : State} (b : Nat) (h : rdB s F.smFlipCtlArm = false) : takeFlip s b = ([], s) := by
  simp [takeFlip, h]

/-- With no flip armed a line of 64 bytes is stored as it is given. -/
theorem writeLine_of_disarmed {s : State} (b ln : Nat) {d : List Byte} (p : Bool) (harm : rdB s F.smFlipCtlArm = false)
    (hlen : d.length = 64) : writeLine s b ln d p
      = setMeta { s with staging := { s.staging with mem := s.staging.mem.writeList (64 * storedLine s b ln) d } } (storedLine s b ln)
          { init := true, poison := p, flips := [] } := by
  have hpad : padTo 64 (d.take 64) = d := by simp [padTo, ← hlen]
  simp only [writeLine, takeFlip_of_disarmed b harm, hpad, List.foldl_nil]

/-- A line without errors that has been written reads as it is stored. -/
theorem readLine_of_clean {s : State} {b ln : Nat} {p : Bool} (scrub : Bool)
    (h : lineMeta s (storedLine s b ln) = { init := true, poison := p, flips := [] }) :
    readLine s b ln scrub = { data := lineBytes s (storedLine s b ln), poison := p, st := s } := by
  simp [readLine, h]

/-- Settles O43: the line written, every other line, and the canonical form. -/
theorem stagingMemoryReadsWhatWasWritten : Obligations.StagingMemoryReadsWhatWasWritten := by
  intro s b ln d p hwf harm hlen t
  have ht : t = _ := writeLine_of_disarmed b ln p harm hlen
  have hregs : t.regs = s.regs := by rw [ht]; rfl
  have hmem : t.staging.mem = s.staging.mem.writeList (64 * storedLine s b ln) d := by rw [ht]; rfl
  have hmeta (n : Nat) : lineMeta t n = if n = storedLine s b ln then { init := true, poison := p, flips := [] } else lineMeta s n := by
    rw [ht]
    exact lineMeta_setMeta ..
  have hstored : storedLine t b ln = storedLine s b ln := storedLine_congr hregs b ln
  refine ⟨?_, fun n hn => ⟨?_, (hmeta n).trans (if_neg hn)⟩, ?_, by rw [ht]; rfl⟩
  · rw [readLine_of_clean false ((hmeta _).trans (if_pos hstored)), hstored, lineBytes, hmem, ← hlen,
      Memory.readList_writeList_same hwf]
  · rw [lineBytes, lineBytes, hmem, Memory.readList_writeList_apart hwf (by omega)]
  · rw [hmem]
    exact Memory.writeList_wf hwf

end Sys2Proof.Machine
end

section
/-! The registers of staging memory (R313, R317–R320), ARM of the channels' flip masks (R102), and the scrubber's visits. -/

namespace Sys2Proof.Machine

/-! ### The rows -/

/-- The register is of 32 bits, stands in the low lanes of its group, and lies outside the shared regions (R19, R376). -/
def lowLocal (r : Reg) : Bool :=
  regAt (regAddr r) = some r && !r.name.row.wide && regAddr r % 8 = 0 && regAddr r < 2 ^ 24 && !inShared (regAddr r)

theorem writeRow_of_lowLocal {a : Acc} {r : Reg} {v : W64} {s : State} (hr : lowLocal r = true) (h : Takes s (accessOf a r true v)) :
    writeRow a r v true s = .next (localWrite (answered s a r v) (whole r v) a.ring.toNat) := by
  simp only [lowLocal, Bool.and_eq_true, decide_eq_true_eq, Bool.not_eq_true'] at hr
  obtain ⟨⟨⟨⟨hat, hnarrow⟩, hlow⟩, hfits⟩, hlocal⟩ := hr
  exact writeRow_local_of_takes h hat hnarrow hlow hfits hlocal

theorem lowLocal_smBankCtl : ∀ b : Fin 16, lowLocal (reg1 .smBankCtl b.val) = true := by decide +kernel
theorem lowLocal_smRemap : ∀ (b : Fin 16) (e : Fin 8), lowLocal ⟨.smRemap, b.val, e.val, 0⟩ = true := by decide +kernel
theorem lowLocal_smFlipCtl : lowLocal (reg0 .smFlipCtl) = true := by decide +kernel
theorem lowLocal_chFlipCtl : ∀ ch : Fin 48, lowLocal (reg1 .chFlipCtl ch.val) = true := by decide +kernel

/-! ### SM_BANK_CTL (R317) -/

/-- The three rows of SM_BANK_CTL are one write. -/
theorem exec_of_bankRow {a : Acc} {b : Fin 16} {v : W32} {s : State} {c : Instr}
    (h : Takes s (accessOf a (reg1 .smBankCtl b.val) true (v.setWidth 64)))
    (hc : c ∈ [Instr.smBankFenceWrite a b v, .smRetireWrite a b v, .itemSlotsWrite a b v]) :
    exec c s = .next (writeBank (answered s a (reg1 .smBankCtl b.val) (v.setWidth 64))
      (whole (reg1 .smBankCtl b.val) (v.setWidth 64))) := by
  have hrow : exec c s = writeRow a (reg1 .smBankCtl b.val) (v.setWidth 64) true s := by
    simp only [List.mem_cons, List.not_mem_nil, or_false] at hc
    rcases hc with rfl | rfl | rfl <;> rfl
  exact hrow.trans (writeRow_of_lowLocal (lowLocal_smBankCtl b) h)

/-- A one-bit field is 0 or 1. -/
theorem rd_eq_bit_rdB (s : State) (f : Fld) (i : Nat) (hlen : f.len = 1) : rd s f i = bit (rdB s f i) := by
  have hlt : rd s f i < 2 ^ f.len := fget_lt ..
  rw [hlen] at hlt
  obtain hzero | hone : rd s f i = 0 ∨ rd s f i = 1 := by omega
  · simp [rdB, hzero, bit]
  · simp [rdB, hone, bit]

theorem bankQuiet_iff (s : State) (b : Nat) :
    bankQuiet s b = true ↔ rdB s F.smBankCtlFence b = true ∧ ∀ h ∈ s.staging.held, slotBank h.1 ≠ b := by
  simp only [bankQuiet, drained, slotsUsed, Bool.and_eq_true, decide_eq_true_eq, List.length_eq_zero_iff, List.filter_eq_nil_iff]

/-- A write is refused that asks for a change of ITEM_SLOTS, or of RETIRE from 0, of a bank that is not fenced and empty. -/
theorem bankRefused_iff {s : State} {w : RegWrite} {b : Nat} (hreg : w.reg = reg1 .smBankCtl b) : bankRefused s w = true ↔
    (w.changes s F.smBankCtlItemSlots = true ∨ (w.changes s F.smBankCtlRetire = true ∧ rdB s F.smBankCtlRetire b = false))
      ∧ ¬(rdB s F.smBankCtlFence b = true ∧ ∀ h ∈ s.staging.held, slotBank h.1 ≠ b) := by
  have hretire : (w.changes s F.smBankCtlRetire = true ∧ w.get s F.smBankCtlRetire = 1)
      ↔ (w.changes s F.smBankCtlRetire = true ∧ rdB s F.smBankCtlRetire b = false) := by
    have hnew : w.get s F.smBankCtlRetire < 2 := fget_lt ..
    have hold : rd s F.smBankCtlRetire b < 2 := fget_lt ..
    have hchange : w.changes s F.smBankCtlRetire = true ↔ w.get s F.smBankCtlRetire ≠ rd s F.smBankCtlRetire b := by
      rw [RegWrite.changes, hreg, decide_eq_true_eq]
      rfl
    rw [hchange, rdB, decide_eq_false_iff_not]
    omega
  rw [← bankQuiet_iff, ← hretire]
  simp only [bankRefused, hreg, reg1, Bool.and_eq_true, Bool.or_eq_true, Bool.not_eq_true', decide_eq_true_eq, Bool.not_eq_true]

section
variable {s : State} {w : RegWrite}

theorem writeBank_of_refused (h : bankRefused s w = true) : writeBank s w = flag1 s F.smBankCtlCfgErr w.reg.i := by
  rw [writeBank, if_pos h]

theorem writeBank_of_same_retire (h : bankRefused s w = false) (hsame : w.changes s F.smBankCtlRetire = false) :
    writeBank s w = slotServe (w.plain s) := by
  simp [writeBank, h, hsame]

theorem writeBank_of_retire (h : bankRefused s w = false) (hchange : w.changes s F.smBankCtlRetire = true) :
    writeBank s w = slotServe (wr1 (w.plain s) F.smBankCtlFence w.reg.i (rd s F.smBankCtlRetire w.reg.i)) := by
  simp [writeBank, h, hchange, rd_eq_bit_rdB]

end

/-! ### SM_REMAP (R318) -/

theorem execSmRemapWrite_of_takes {a : Acc} {b : Fin 16} {e : Fin 8} {v : W32} {s : State}
    (h : Takes s (accessOf a ⟨.smRemap, b.val, e.val, 0⟩ true (v.setWidth 64))) : exec (.smRemapWrite a b e v) s
      = .next (writeRemap (answered s a ⟨.smRemap, b.val, e.val, 0⟩ (v.setWidth 64))
        (whole ⟨.smRemap, b.val, e.val, 0⟩ (v.setWidth 64))) :=
  (show exec (.smRemapWrite a b e v) s = writeRow a ⟨.smRemap, b.val, e.val, 0⟩ (v.setWidth 64) true s from rfl).trans
    (writeRow_of_lowLocal (lowLocal_smRemap b e) h)

/-- The first `n` lines of a row cleared, as clearing the row clears them one by one (R318). -/
def clearLines (s : State) (b row n : Nat) : State := forNat n (fun s i => setMeta s (storedLine s b (64 * row + i)) {}) s

theorem clearLines_succ (s : State) (b row n : Nat) : clearLines s b row (n + 1)
    = setMeta (clearLines s b row n) (storedLine (clearLines s b row n) b (64 * row + n)) {} := by
  simp only [clearLines, forNat, List.range_succ, List.foldl_append, List.foldl_cons, List.foldl_nil]

/-- Clearing lines leaves the registers, and so where lines are stored. -/
theorem clearLines_regs (s : State) (b row n : Nat) : (clearLines s b row n).regs = s.regs := by
  induction n with
  | zero => rfl
  | succ n ih => rw [clearLines_succ]; exact ih

/-- A line that has been cleared stays so. -/
theorem lineMeta_clearLines (s : State) (b row : Nat) {i n : Nat} (hi : i < n) :
    lineMeta (clearLines s b row n) (storedLine s b (64 * row + i)) = {} := by
  induction n with
  | zero => exact absurd hi (Nat.not_lt_zero i)
  | succ n ih =>
    rw [clearLines_succ, lineMeta_setMeta, storedLine_congr (clearLines_regs s b row n)]
    rcases Nat.lt_succ_iff_lt_or_eq.mp hi with hlt | rfl
    · rw [ih hlt, ite_self]
    · rw [if_pos rfl]

theorem clearRow_eq_clearLines (s : State) (b row : Nat) : clearRow s b row = clearLines s b row 64 := rfl

theorem clearRow_regs (s : State) (b row : Nat) : (clearRow s b row).regs = s.regs := by
  rw [clearRow_eq_clearLines, clearLines_regs]

/-- Clearing a row clears each of its lines (R318). -/
theorem lineMeta_clearRow (s : State) (b row : Nat) {i : Nat} (hi : i < 64) :
    lineMeta (clearRow s b row) (storedLine s b (64 * row + i)) = {} := by
  rw [clearRow_eq_clearLines, lineMeta_clearLines s b row hi]

section
variable {s : State} {w : RegWrite}

theorem writeRemap_of_refused (hretire : rdB s F.smBankCtlRetire w.reg.i = false) (hquiet : bankQuiet s w.reg.i = false) :
    writeRemap s w = flag1 s F.smBankCtlCfgErr w.reg.i := by
  simp [writeRemap, hretire, hquiet]

theorem writeRemap_of_same (h : rdB s F.smBankCtlRetire w.reg.i = true ∨ bankQuiet s w.reg.i = true)
    (hrow : w.changes s F.smRemapRow = false) (hspare : w.changes s F.smRemapSpare = false)
    (hvalid : w.changes s F.smRemapValid = false) : writeRemap s w = w.plain s := by
  simp [writeRemap, h, hrow, hspare, hvalid]

/-- A change clears the row named before by the map before and after it, and the row named after it. -/
theorem writeRemap_of_change (hk : w.reg.k = 0) (hname : w.reg.name = .smRemap)
    (h : rdB s F.smBankCtlRetire w.reg.i = true ∨ bankQuiet s w.reg.i = true)
    (hchange : w.changes s F.smRemapRow = true ∨ w.changes s F.smRemapSpare = true ∨ w.changes s F.smRemapValid = true) :
    writeRemap s w = clearRow (clearRow (w.plain (clearRow s w.reg.i (rd s F.smRemapRow w.reg.i w.reg.j))) w.reg.i
      (rd s F.smRemapRow w.reg.i w.reg.j)) w.reg.i (w.get s F.smRemapRow) := by
  have hafter (old : Nat) : rd (w.plain (clearRow s w.reg.i old)) F.smRemapRow w.reg.i w.reg.j = w.get s F.smRemapRow := by
    have hget := rd_plain w (clearRow s w.reg.i old) F.smRemapRow hname
    rw [hk] at hget
    rw [hget, RegWrite.get, RegWrite.get, RegWrite.next, RegWrite.next, getR, getR, clearRow_regs]
  rw [writeRemap, if_pos h, if_pos hchange, ← hafter]

end

/-! ### Flip masks (R102, R320) -/

/-- ARM written 1 is 1 after the write, which changes registers alone. -/
theorem writeArm_of_one {s : State} {w : RegWrite} {f : Fld} (hlen : f.len = 1) (hlo : f.lo < 64) (h : w.one f = true) :
    rdB (writeArm s w f) f w.reg.i = true ∧ writeArm s w f = { s with regs := (writeArm s w f).regs } := by
  have harm : writeArm s w f = flag1 (w.plain s) f w.reg.i := by simp [writeArm, h, flag1]
  rw [harm]
  exact ⟨rdB_flag1_same _ f _ hlen hlo, rfl⟩

/-- A row that writes ARM of a flip mask leaves it 1. -/
theorem exec_of_armRow {a : Acc} {r : Reg} {f : Fld} {v : W32} {s : State} {c : Instr} (hr : lowLocal r = true)
    (hwrite : ∀ t, localWrite t (whole r (v.setWidth 64)) a.ring.toNat = writeArm t (whole r (v.setWidth 64)) f)
    (hlen : f.len = 1) (hlo : f.lo < 32) (hexec : exec c s = writeRow32 a r v (v.getLsbD f.lo) s)
    (h : Takes s (accessOf a r true (v.setWidth 64))) (harm : v.getLsbD f.lo = true) :
    ∃ x, exec c s = .next x ∧ rdB x f r.i = true ∧ x = { answered s a r (v.setWidth 64) with regs := x.regs } := by
  obtain ⟨hset, hframe⟩ := writeArm_of_one (s := answered s a r (v.setWidth 64)) hlen (by omega)
    ((one_whole r v f hlo).trans harm)
  refine ⟨_, ?_, hset, hframe⟩
  rw [hexec, harm, writeRow32, writeRow_of_lowLocal hr h, hwrite]

/-! ### The SRAM scrubber (R319) -/

/-- A visit leaves the line after the one it stood at, the last followed by the first. -/
theorem scrubAt_scrubVisit (s : State) : (scrubVisit s).staging.scrubAt = (s.staging.scrubAt + 1) % 524288 := by
  rw [scrubVisit]
  split <;> rfl

/-- The visit of the last line counts a pass. -/
theorem passes_scrubVisit {s : State} (h : s.staging.scrubAt % 524288 = 524287) :
    rd (scrubVisit s) F.smScrubPasses = (rd s F.smScrubPasses + 1) % 65536 := by
  have hlast : (s.staging.scrubAt + 1) % (16 * 32768) = 0 := by omega
  simp only [scrubVisit, hlast, if_true]
  exact (rd_wr0_same _ F.smScrubPasses _ (by decide)).trans (Nat.mod_mod _ _)

/-- Settles O44: the rows of the bank, the remap entries and the flip masks, the slot grants and the scrubber's visits. -/
theorem stagingRegisterRows : Obligations.StagingRegisterRows := by
  refine ⟨fun a b v s htakes => ?_, fun a b e v s htakes => ?_, fun s b row i hi => lineMeta_clearRow s b row hi,
    fun a v s htakes harm => ?_, fun a ch v s htakes harm => ?_, fun s hup => ?_, fun s hon hpark => ?_⟩
  · intro s0 w quiet asks c hc
    have hexec : exec c s = .next (writeBank s0 w) := exec_of_bankRow htakes hc
    have hrefused : bankRefused s0 w = true ↔ asks ∧ ¬ quiet := bankRefused_iff rfl
    have htaken (h : ¬ asks ∨ quiet) : bankRefused s0 w = false :=
      Bool.eq_false_iff.mpr fun hr => h.elim (fun hn => hn (hrefused.mp hr).1) (fun hq => (hrefused.mp hr).2 hq)
    refine ⟨fun hasks hbusy => ?_, fun hfree hsame => ?_, fun hfree hchange => ?_⟩
    · rw [hexec, writeBank_of_refused (hrefused.mpr ⟨hasks, hbusy⟩)]
      rfl
    · rw [hexec, writeBank_of_same_retire (htaken hfree) hsame]
    · rw [hexec, writeBank_of_retire (htaken hfree) hchange]
      rfl
  · intro s0 w
    have hexec : exec (.smRemapWrite a b e v) s = .next (writeRemap s0 w) := execSmRemapWrite_of_takes htakes
    refine ⟨fun hretire hbusy => ?_, fun hfree => ⟨fun hrow hspare hvalid => ?_, fun hchange => ?_⟩⟩
    · exact hexec.trans (congrArg _ (writeRemap_of_refused (s := s0) (w := w) hretire hbusy))
    · exact hexec.trans (congrArg _ (writeRemap_of_same (s := s0) (w := w) hfree hrow hspare hvalid))
    · exact hexec.trans (congrArg _ (writeRemap_of_change (s := s0) (w := w) rfl rfl hfree hchange))
  · exact exec_of_armRow lowLocal_smFlipCtl (fun _ => rfl) rfl (by decide) rfl htakes harm
  · exact exec_of_armRow (lowLocal_chFlipCtl ch) (fun _ => rfl) rfl (by decide) rfl htakes harm
  · show execSlotGrant s = _
    simp [execSlotGrant, hup]
  · refine ⟨?_, scrubAt_scrubVisit s, passes_scrubVisit⟩
    show execSramScrubVisit s = _
    simp [execSramScrubVisit, hon, hpark]

end Sys2Proof.Machine
end

section
/-! The boot window (R333–R336), BOOT_CTL (R339), and the start and the end of a boot load (R331, R332, R436). -/

namespace Sys2Proof.Machine

/-! ### Fields of other registers -/

theorem rd_wr0_reg (s : State) (f g : Fld) (v i : Nat) (h : g.reg ≠ f.reg) : rd (wr0 s f v) g i = rd s g i :=
  rd_wr_reg s f g 0 0 0 i 0 0 v (.inl h)

theorem rd_wr1_reg (s : State) (f g : Fld) (j v i : Nat) (h : g.reg ≠ f.reg) : rd (wr1 s f j v) g i = rd s g i :=
  rd_wr_reg s f g j 0 0 i 0 0 v (.inl h)

theorem rd_wr1_same (s : State) (f : Fld) (i v : Nat) (h : f.lo + f.len ≤ 64) : rd (wr1 s f i v) f i = v % 2 ^ f.len :=
  rd_wr_same s f i 0 0 v h

/-! ### BOOT_CTL (R339) -/

/-- The two rows of BOOT_CTL are one write. -/
theorem exec_of_bootCtlRow {a : Acc} {v : W32} {s : State} {c : Instr} (h : Takes s (accessOf a (reg0 .bootCtl) true (v.setWidth 64)))
    (hc : (c = .winEnRelease a v ∧ v.getLsbD 0 = false) ∨ (c = .bootReloadWrite a v ∧ v.getLsbD 2 = true)) :
    exec c s = .next (writeBootCtl (answered s a (reg0 .bootCtl) (v.setWidth 64)) (whole (reg0 .bootCtl) (v.setWidth 64))) := by
  have hrow : exec c s = writeRow a (reg0 .bootCtl) (v.setWidth 64) true s := by
    rcases hc with ⟨rfl, hbit⟩ | ⟨rfl, hbit⟩
    · show writeRow _ _ _ (!v.getLsbD 0) s = _
      rw [hbit]
      rfl
    · show writeRow _ _ _ (v.getLsbD 2) s = _
      rw [hbit]
  exact hrow.trans (writeRow_of_lowLocal (by decide +kernel) h)

/-- A write of BOOT_CTL gives WIN_EN bit 0 of its value. -/
theorem get_bootCtlWinEn (v : W32) (s : State) :
    (whole (reg0 .bootCtl) (v.setWidth 64)).get s F.bootCtlWinEn = 0 ↔ v.getLsbD 0 = false := by
  have hrw : (accMask .bootCtl .rw).getLsbD 0 = true ∧ (accMask .bootCtl .w1c).getLsbD 0 = false := by decide +kernel
  have hget := get_whole_rw (reg0 .bootCtl) v s F.bootCtlWinEn (by decide) fun b _ hb => by
    obtain rfl : b = 0 := Nat.lt_one_iff.mp hb
    exact hrw
  rw [hget, BitVec.getLsbD, Nat.testBit_zero, decide_eq_false_iff_not, Nat.pow_zero, Nat.div_one, Nat.pow_one]
  exact Nat.mod_two_ne_one.symm

/-- What a write of BOOT_CTL does: RELOAD first, then the release of the shadow. -/
theorem writeBootCtl_whole (v : W32) (s : State) :
    let w := whole (reg0 .bootCtl) (v.setWidth 64)
    let y := (w.keeping F.bootCtlWinEn).plain s
    let z := if v.getLsbD 2 then reloadAsked y else y
    writeBootCtl s w = if rdB s F.bootCtlWinEn && !v.getLsbD 0 then slotServe (releaseShadow z) else z := by
  intro w y z
  have hone : w.one F.bootCtlReload = v.getLsbD 2 := one_whole (reg0 .bootCtl) v F.bootCtlReload (by decide)
  have hrelease : (rdB s F.bootCtlWinEn = true ∧ w.get s F.bootCtlWinEn = 0) ↔ (rdB s F.bootCtlWinEn && !v.getLsbD 0) = true := by
    rw [get_bootCtlWinEn, Bool.and_eq_true, Bool.not_eq_true']
  simp only [writeBootCtl, hone, hrelease]
  rfl

/-- An accepted RELOAD shows in RELOAD, and is on its way. -/
theorem reloadAsked_of_ok {s : State} (h : reloadOk s = true) :
    rdB (reloadAsked s) F.bootCtlReload = true ∧ (reloadAsked s).boot.reload = true := by
  rw [reloadAsked, if_pos h]
  exact ⟨rdB_flag0_same s F.bootCtlReload rfl (by decide), rfl⟩

/-- A RELOAD is refused while SB15 is not fenced, or retired, or a load or a BOOT_SWAP is under way. -/
theorem reloadOk_of_unfit {s : State} (h : rdB s F.smBankCtlFence 15 = false ∨ rdB s F.smBankCtlRetire 15 = true
    ∨ loading s = true ∨ s.boot.swap.isSome = true) : reloadOk s = false := by
  rcases h with h | h | h | h
  · simp [reloadOk, h]
  · simp [reloadOk, h]
  · simp [reloadOk, h]
  · simp [reloadOk, ← Option.not_isSome, h]

/-- The released shadow: WIN_EN and SHADOW 0, STATE RELEASED. -/
theorem releaseShadow_spec (s : State) : rdB (releaseShadow s) F.bootCtlWinEn = false
    ∧ rdB (releaseShadow s) F.smBankCtlShadow 15 = false ∧ rd (releaseShadow s) F.bootStatusState = 4 := by
  simp (disch := decide) only [releaseShadow, rdB, rd_wr0_same, rd_wr1_same, rd_wr0_reg, rd_wr1_reg]
  decide

/-! ### Accesses of the boot window (R333–R336) -/

/-- An offset in the window counts from its first byte. -/
theorem addr_windowAt (a : Acc) (o : BitVec 21) (z f : Bool) : (windowAt a o z f).addr.toNat = 0x800000 + o.toNat := by
  have ho := o.isLt
  simp only [windowAt, BitVec.toNat_add, BitVec.toNat_setWidth, BitVec.toNat_ofNat]
  omega

theorem offset_windowAt (a : Acc) (o : BitVec 21) (z f : Bool) : (windowAt a o z f).addr.toNat - 0x800000 = o.toNat := by
  rw [addr_windowAt, Nat.add_sub_cancel_left]

theorem inWindow_windowAt (a : Acc) (o : BitVec 21) (z f : Bool) : inWindow (windowAt a o z f).addr = true := by
  have ho := o.isLt
  rw [inWindow, addr_windowAt, Bool.and_eq_true, decide_eq_true_eq, decide_eq_true_eq]
  omega

/-- The rows of the boot window reach it when nothing stands before. -/
theorem exec_of_window {a : Acc} {o : BitVec 21} {z f : Bool} {s : State} (htakes : portTakes s = true)
    (hok : accessErr s (windowAt a o z f) = false) (hfirst : behind s s.host.held (windowAt a o z f) = false) :
    exec (if f then Instr.bootWindowFetch a o z else Instr.bootWindowRead a o z) s = .next (windowAccess s (windowAt a o z f)) := by
  have hrow : exec (if f then Instr.bootWindowFetch a o z else Instr.bootWindowRead a o z) s = .next (hostAccess s (windowAt a o z f)) := by
    cases f <;> rfl
  rw [hrow, hostAccess, if_neg (not_not_intro htakes), if_neg (Bool.eq_false_iff.mp hok), if_pos (inWindow_windowAt a o z f),
    if_neg fun h => Bool.eq_false_iff.mp hfirst h.2]

/-- While the shadow loads an access is held, with the next place for its response. -/
theorem windowAccess_of_loading {s : State} (q : HostAccess) (h : rd s F.bootStatusState = 1) :
    windowAccess s q = windowHold (holdRsp s).2 q s.host.rsp.length := by
  rw [windowAccess, if_pos (show loading s = true from decide_eq_true h)]
  rfl

theorem windowAccess_of_loaded {s : State} (q : HostAccess) (h : rd s F.bootStatusState ≠ 1) :
    windowAccess s q = windowAnswer s q .fresh := by
  rw [windowAccess, if_neg (by simpa [loading] using h)]

theorem windowAnswer_of_closed {s : State} (q : HostAccess) (sl : RspSlot) (h : rdB s F.bootCtlWinEn = false) :
    windowAnswer s q sl = answer s q sl rAccess := by
  simp [windowAnswer, h]

/-- The line that an access of the window reads in SB15: a fetch keeps to its latency, if that is promised (R334, R336). -/
def windowLine (s : State) (o : BitVec 21) (f : Bool) : LineRead := readLine (if f then fixedFetch s false else s) 15 (o.toNat / 64)

/-- The 8 bytes of the line that an access addresses. -/
def windowWord (s : State) (o : BitVec 21) (f : Bool) : W64 :=
  BitVec.ofNat 64 (leNat (slice (windowLine s o f).data (o.toNat % 64 / 8 * 8) 8))

section
variable {s : State} (a : Acc) {o : BitVec 21} (z : Bool) {f : Bool} (hopen : rdB s F.bootCtlWinEn = true)
include hopen

/-- A data read of an execute-only page is refused (R335). -/
theorem windowAnswer_of_execOnly (hread : f = false) (hpage : execOnly s (o.toNat / 4096) = true) :
    windowAnswer s (windowAt a o z f) .fresh = answer s (windowAt a o z f) .fresh rProt := by
  have hserved : ¬((windowAt a o z f).write = true ∨ ¬ rdB s F.bootCtlWinEn = true) := by simp [windowAt, hopen]
  rw [windowAnswer, offset_windowAt, if_neg hserved, if_pos ⟨Bool.eq_false_iff.mp hread, hpage⟩]

/-- Any other access reads its line, and a fetch of a poisoned line fails (R334). -/
theorem windowAnswer_of_open (hpage : f = true ∨ execOnly s (o.toNat / 4096) = false) :
    windowAnswer s (windowAt a o z f) .fresh =
      if f = true ∧ (windowLine s o f).poison = true then answer (windowLine s o f).st (windowAt a o z f) .fresh rFetch
      else answer (windowLine s o f).st (windowAt a o z f) .fresh rOkay (laneData (windowAt a o z f) (windowWord s o f))
        (windowLine s o f).poison := by
  have hserved : ¬((windowAt a o z f).write = true ∨ ¬ rdB s F.bootCtlWinEn = true) := by simp [windowAt, hopen]
  have hallowed : ¬(¬ (windowAt a o z f).fetch = true ∧ execOnly s (o.toNat / 4096) = true) := by
    rintro ⟨hread, hexec⟩
    rcases hpage with h | h
    · exact hread h
    · exact Bool.false_ne_true (h.symm.trans hexec)
  rw [windowAnswer, offset_windowAt, if_neg hserved, if_neg hallowed]
  rfl

end

/-! ### Loads (R331, R332, R436) -/

section
variable {s : State} {g : Nat} (hgroup : bootGroupOf s = some g) (hstart : loadMayStart s = true)
include hgroup hstart

/-- The start of a load that may start: of a reload, or of the load of the start-up sequence. -/
theorem execBootLoadStart_of_due : exec .bootLoadStart s = .next (if reloading s then reloadGo s else startUpLoad s g) := by
  show execBootLoadStart s = _
  simp only [execBootLoadStart, hgroup, hstart, if_true]

end

/-- A reload begins, showing LOADING. -/
theorem reloadGo_of_new {s : State} (h : loading s = false) : reloadGo s = loadBegin (wr0 s F.bootStatusState 1) := by
  simp [reloadGo, h]

/-- A reload that paused goes on. -/
theorem reloadGo_of_paused {s : State} {l : Load} (h : loading s = true) (hload : s.boot.load = some l) :
    reloadGo s = loadIssue s l := by
  simp [reloadGo, h, hload]

section
variable {r : BootLoadResult} {s : State} {g : Nat} (hwf : (Instr.bootLoadEnd r).wellFormed = true) (hhand : loadInHand s = some g)
  (hup : hk0Up s = true) (hwarn : warn s = false)
include hwf hhand hup hwarn

/-- A reload whose reads are done ends with what they brought. -/
theorem execBootLoadEnd_of_reload {l : Load} (hreload : reloading s = true) (hload : s.boot.load = some l) (hdone : l.step = .done) :
    exec (.bootLoadEnd r) s = .next (loadEnds s g l) := by
  have hok : (blockOk r.block0 && blockOk r.block1) = true := hwf
  show execBootLoadEnd r s = _
  simp [execBootLoadEnd, hok, hhand, hup, hwarn, hreload, hload, hdone]

/-- The load of the start-up sequence ends with what the command brings. -/
theorem execBootLoadEnd_of_startUp (hfirst : reloading s = false) (hread : loadCanRead s g = true ∨ r.up = false)
    (hfit0 : imageFits (startHeaders s (4 * g) r) r 0 = true) (hfit1 : imageFits (startHeaders s (4 * g) r) r 1 = true) :
    exec (.bootLoadEnd r) s = .next (loadEnds (startImages r 2 s (startHeaders s (4 * g) r)).2 g
      (startImages r 2 s (startHeaders s (4 * g) r)).1) := by
  have hok : (blockOk r.block0 && blockOk r.block1) = true := hwf
  have hends : exec (.bootLoadEnd r) s = startLoadEnds s g r := by
    show execBootLoadEnd r s = _
    simp [execBootLoadEnd, hok, hhand, hup, hwarn, hfirst]
  rw [hends, startLoadEnds]
  simp only [hfit0, hfit1]
  exact if_pos (hread.imp_right fun h => Bool.eq_false_iff.mp h)

end

/-- What a load shows in BOOT_STATUS, BOOT_CTL and SM_BANK_CTL (R332). -/
theorem loadFields_spec (s : State) (l : Load) : let x := loadFields s l
    rd x F.bootStatusHdr0 = l.code0 % 16 ∧ rd x F.bootStatusHdr1 = l.code1 % 16 ∧ rdB x F.bootCtlReload = false
    ∧ rdB x F.bootCtlWinEn = l.loaded.isSome ∧ rdB x F.smBankCtlShadow 15 = l.loaded.isSome
    ∧ rd x F.bootStatusState = (if l.loaded.isSome then 2 else 3)
    ∧ (∀ b h, l.loaded = some (b, h) → rd x F.bootStatusLoadedBlock = b % 2 ∧ rd x F.bootStatusGeneration = h.gen % 2 ^ 32)
    ∧ (l.loaded = none → rdB x F.bootStatusBootFailed = true) := by
  cases hload : l.loaded with
  | none =>
    simp (disch := decide) only [loadFields, hload, flag0, rdB, rd_wr0_same, rd_wr1_same, rd_wr0_apart, rd_wr0_reg, rd_wr1_reg]
    simp
  | some e =>
    obtain ⟨b, h⟩ := e
    simp (disch := decide) only [loadFields, hload, rdB, rd_wr0_same, rd_wr1_same, rd_wr0_apart, rd_wr0_reg, rd_wr1_reg]
    simp

/-- Settles O52: BOOT_CTL, the accesses of the window by STATE and WIN_EN, and the start and the end of a load. -/
theorem bootWindowRows : Obligations.BootWindowRows := by
  refine ⟨fun a v s c htakes hc => ?_, fun s => ⟨fun hrefused => if_neg (Bool.eq_false_iff.mp hrefused), reloadAsked_of_ok,
    reloadOk_of_unfit, releaseShadow_spec s⟩, fun a o z f s htakes hok hfirst => ?_, fun s g hgroup hstart => ?_,
    fun r s g hwf hhand hup hwarn => ⟨fun l => execBootLoadEnd_of_reload hwf hhand hup hwarn,
      fun hnew hread => execBootLoadEnd_of_startUp hwf hhand hup hwarn hnew hread⟩, loadFields_spec⟩
  · exact (exec_of_bootCtlRow htakes hc).trans (congrArg _ (writeBootCtl_whole v _))
  · intro q c r w
    have hexec : exec c s = .next (windowAccess s q) := exec_of_window htakes hok hfirst
    have hloaded (h : rd s F.bootStatusState ≠ 1) : exec c s = .next (windowAnswer s q .fresh) :=
      hexec.trans (congrArg _ (windowAccess_of_loaded q h))
    refine ⟨fun hload => ⟨_, hexec.trans (congrArg _ (windowAccess_of_loading q hload)), rfl, rfl, rfl⟩,
      fun hload hclosed => (hloaded hload).trans (congrArg _ (windowAnswer_of_closed q .fresh hclosed)),
      fun hload hopen => ⟨fun hread hpage => ?_, fun hfetch hpoison => ?_, fun hclean => ?_⟩⟩
    · exact (hloaded hload).trans (congrArg _ (windowAnswer_of_execOnly a z hopen hread hpage))
    · exact (hloaded hload).trans (congrArg _ ((windowAnswer_of_open a z hopen (.inl hfetch)).trans (if_pos ⟨hfetch, hpoison⟩)))
    · have hpage : f = true ∨ execOnly s (o.toNat / 4096) = false := hclean.imp And.left And.right
      refine (hloaded hload).trans (congrArg _ ((windowAnswer_of_open a z hopen hpage).trans (if_neg ?_)))
      rintro ⟨hfetch, hpoison⟩
      rcases hclean with ⟨-, hp⟩ | ⟨hread, -⟩
      · exact Bool.false_ne_true (hp.symm.trans hpoison)
      · exact Bool.false_ne_true (hread.symm.trans hfetch)
  · have hexec := execBootLoadStart_of_due hgroup hstart
    refine ⟨fun hreload hnew => ?_, fun l hreload hload hl => ?_, fun hfirst => ?_⟩
    · rw [hexec, if_pos hreload, reloadGo_of_new hnew]
    · rw [hexec, if_pos hreload, reloadGo_of_paused hload hl]
    · rw [hexec, if_neg (Bool.eq_false_iff.mp hfirst)]

end Sys2Proof.Machine
end

section
/-! The patrol scrub and its relocations (R322–R324, R327): the walk, the read it launches, and the receipts it holds. -/

namespace Sys2Proof.Machine

/-! ### The walk (R322) -/

/-- The place that the walk finds holds a target that is not skipped. -/
theorem patrolNext_eq_some {s : State} {x k n m : Nat} (h : patrolNext s x k n = some m) : n ≤ m ∧ m < n + k
    ∧ patrolTarget s x (patrolLun m) = true ∧ patrolSkips s (patrolLun m) = false := by
  induction k generalizing n with
  | zero => exact absurd h (by simp [patrolNext])
  | succ k ih =>
    rw [patrolNext] at h
    split at h
    · next hfound =>
      obtain rfl := Option.some.inj h
      obtain ⟨htarget, hskip⟩ := Bool.and_eq_true_iff.mp hfound
      exact ⟨Nat.le_refl n, by omega, htarget, by simpa using hskip⟩
    · obtain ⟨hlow, hhigh, hat⟩ := ih h
      exact ⟨by omega, by omega, hat⟩

/-- The walk finds no place only if none holds a target that is not skipped. -/
theorem patrolNext_eq_none {s : State} {x k n m : Nat} (h : patrolNext s x k n = none) (hlow : n ≤ m) (hhigh : m < n + k) :
    patrolTarget s x (patrolLun m) = false ∨ patrolSkips s (patrolLun m) = true := by
  induction k generalizing n with
  | zero => omega
  | succ k ih =>
    rw [patrolNext] at h
    split at h
    · exact absurd h (by simp)
    · next hother =>
      rcases Nat.eq_or_lt_of_le hlow with rfl | hnext
      · simpa only [Bool.and_eq_true, Bool.not_eq_true', not_and_or, Bool.not_eq_true, Bool.not_eq_false] using hother
      · exact ih h hnext (by omega)

/-- The next INDEX, while the walk does not wrap. -/
theorem patrolAdvance_of_below {s : State} (h : rd s F.psCursorIndex + 1 < 2 ^ patrolRows s) :
    rd (patrolAdvance s) F.psCursorIndex = (rd s F.psCursorIndex + 1) % 2 ^ 32
      ∧ rd (patrolAdvance s) F.psCursorPasses = rd s F.psCursorPasses := by
  simp only [patrolAdvance, h, if_true]
  exact ⟨rd_wr0_same _ F.psCursorIndex _ (by decide), rd_wr0_other _ F.psCursorIndex F.psCursorPasses _ (by decide)⟩

/-- The walk wraps, which counts a pass. -/
theorem patrolAdvance_of_wrap {s : State} (h : 2 ^ patrolRows s ≤ rd s F.psCursorIndex + 1) :
    rd (patrolAdvance s) F.psCursorIndex = 0 ∧ rd (patrolAdvance s) F.psCursorPasses = (rd s F.psCursorPasses + 1) % 65536 := by
  simp only [patrolAdvance, Nat.not_lt.mpr h, if_false]
  refine ⟨?_, (rd_wr0_same _ F.psCursorPasses _ (by decide)).trans (Nat.mod_mod _ _)⟩
  rw [rd_wr0_other _ F.psCursorPasses F.psCursorIndex _ (by decide), rd_wr0_same _ F.psCursorIndex _ (by decide), Nat.zero_mod]

/-- The next INDEX begins at its first target. -/
theorem target_patrolAdvance (s : State) : (patrolAdvance s).patrol.target = 0 := by
  simp only [patrolAdvance]
  split <;> rfl

/-! ### The read of a target (R322, R323) -/

/-- The read that is launched stands at the tail of its LUN's queue. -/
theorem queue_patrolIssue (s : State) (n : Nat) :
    (getLun (patrolIssue s n) (patrolLun n)).queue = (getLun s (patrolLun n)).queue ++ [s.nextId] := queue_enqueue ..

section
variable {s s1 : State} (hruns : patrolRuns s = true) (htime : lapse s s.patrol.nextAt = some s1)
include hruns htime

/-- With no target left at this INDEX the walk moves on. -/
theorem execPatrolReadLaunch_of_none
    (h : patrolNext s1 (rd s1 F.psCursorIndex) (48 * 128 - s1.patrol.target) s1.patrol.target = none) :
    exec .patrolReadLaunch s = .next (patrolAdvance s1) := by
  show execPatrolReadLaunch s = _
  simp only [execPatrolReadLaunch, hruns, htime, h, if_true]

/-- A target whose channel has fewer than PER_CH_MAX reads in flight is read. -/
theorem execPatrolReadLaunch_of_target {n : Nat}
    (h : patrolNext s1 (rd s1 F.psCursorIndex) (48 * 128 - s1.patrol.target) s1.patrol.target = some n)
    (hroom : patrolOn s1 (n / 128) < max 1 (rd s1 F.psCfgPerChMax)) : exec .patrolReadLaunch s = .next (patrolIssue s1 n) := by
  show execPatrolReadLaunch s = _
  simp only [execPatrolReadLaunch, hruns, htime, h, hroom, if_true]

end

/-! ### Relocation (R324) -/

section
variable {id : Nat} {s : State} {it : Item} (hfind : findItem s id = some it) (hup : hk0Up s = true) (hpatrol : it.isPatrol = true)
  (hstage : it.stage = .group)
include hfind hup hpatrol hstage

/-- With an empty pool a relocation leaves only its receipt and POOL_EMPTY_SEEN. -/
theorem execRelocationStart_of_empty (h : Tab.get s.patrol.pools it.lun.ch [] = []) :
    exec (.relocationStart id) s = .next (relocWrite
      (dropItem (cleanup (tally (flag1 s F.psPoolEmptySeen it.lun.ch) 0x5d) id) id) it (relocOf it) true) := by
  show execRelocationStart id s = _
  simp [execRelocationStart, hfind, hup, hpatrol, hstage, h]

/-- Else the head of the pool is taken. -/
theorem execRelocationStart_of_entry {e : PoolEnt} {rest : List PoolEnt} (h : Tab.get s.patrol.pools it.lun.ch [] = e :: rest) :
    exec (.relocationStart id) s = .next (relocGo s it e rest) := by
  show execRelocationStart id s = _
  simp [execRelocationStart, hfind, hup, hpatrol, hstage, h]

end

/-- Counting events of a class leaves the patrol and the LUNs. -/
theorem tallyC_tally_keeps (s : State) (src src' cls : Nat) :
    (tallyC (tally s src) src' cls).patrol = s.patrol ∧ (tallyC (tally s src) src' cls).luns = s.luns := by
  rw [tallyC, tallyQ_frame, tally_frame]
  exact ⟨rfl, rfl⟩

/-- The pool loses its head, and the page stands at the tail of the queue of the destination. -/
theorem relocGo_spec (s : State) (it : Item) (e : PoolEnt) (rest : List PoolEnt) :
    let d : Lun := ⟨it.lun.ch, e.ceLun.toNat % 16, e.ceLun.toNat / 16 % 8⟩
    Tab.get (relocGo s it e rest).patrol.pools it.lun.ch [] = rest
      ∧ (getLun (relocGo s it e rest) d).queue = (getLun s d).queue ++ [it.id] := by
  intro d
  have hkeeps := tallyC_tally_keeps
  refine ⟨?_, (queue_enqueue _ it.id d).trans ?_⟩
  · simp only [relocGo, enqueue, updItem, updLun]
    rw [(hkeeps _ _ _ _).1]
    exact Tab.get_set_same ..
  · simp only [getLun, updItem]
    rw [(hkeeps _ _ _ _).2]

/-! ### Relocation receipts (R324, R327) -/

theorem execRelocReceiptWrite_of_slot {s : State} {h : HeldRcpt} {rest : List HeldRcpt} (hheld : s.patrol.receipts = h :: rest)
    (hslot : 0 < freeSlots s h.pair) (hmay : mayWrite s h.pair = true) :
    exec .relocReceiptWrite s = .next (relocNext (writeOne
      { s with patrol := { s.patrol with receipts := rest }, hold := s.hold ++ [h] } h)) := by
  show execRelocReceiptWrite s = _
  simp [execRelocReceiptWrite, hheld, hslot, hmay]

section
variable {s : State} {it : Item} {x : Reloc} {empty : Bool}

/-- A receipt is composed while HK0 holds fewer than 64. -/
theorem relocWrite_of_room (h : s.patrol.receipts.length < 64) : relocWrite s it x empty = relocCompose s it x empty := if_pos h

/-- While HK0 holds 64 receipts another waits. -/
theorem relocWrite_of_full (h : 64 ≤ s.patrol.receipts.length) :
    (relocWrite s it x empty).patrol.waiting = s.patrol.waiting ++ [⟨it, x, empty⟩]
      ∧ (relocWrite s it x empty).patrol.receipts = s.patrol.receipts := by
  rw [relocWrite, if_neg (Nat.not_lt.mpr h)]
  exact ⟨rfl, rfl⟩

theorem relocNext_of_none (h : s.patrol.waiting = []) : relocNext s = s := by simp only [relocNext, h]

/-- The first receipt that waits is composed once there is room. -/
theorem relocNext_of_waiting {w : RelocWait} {q : List RelocWait} (h : s.patrol.waiting = w :: q)
    (hroom : s.patrol.receipts.length < 64) :
    relocNext s = relocCompose { s with patrol := { s.patrol with waiting := q } } w.it w.reloc w.empty := by
  simp only [relocNext, h, hroom, if_true]

end

/-- Settles O57: the launch, the walk, the relocation by its pool, and the receipts that are held and that wait. -/
theorem patrolAndRelocationRows : Obligations.PatrolAndRelocationRows :=
  ⟨fun _ s1 hruns htime => ⟨execPatrolReadLaunch_of_none hruns htime, fun n hnext hroom =>
      ⟨execPatrolReadLaunch_of_target hruns htime hnext hroom, queue_patrolIssue s1 n⟩⟩,
    fun _ _ _ _ => ⟨fun _ => patrolNext_eq_some, fun hnone _ => patrolNext_eq_none hnone⟩,
    fun s => ⟨target_patrolAdvance s, patrolAdvance_of_below, patrolAdvance_of_wrap⟩,
    fun _ _ _ hfind hup hpatrol hstage => ⟨execRelocationStart_of_empty hfind hup hpatrol hstage,
      fun _ _ => execRelocationStart_of_entry hfind hup hpatrol hstage⟩,
    relocGo_spec, fun _ _ _ => execRelocReceiptWrite_of_slot,
    fun _ _ _ _ => ⟨relocWrite_of_room, relocWrite_of_full, relocNext_of_none, fun _ _ => relocNext_of_waiting⟩⟩

end Sys2Proof.Machine
end

section
/-! MC_CTL written from another ring than 0 (R357): the block refuses the write whole and keeps CHECK. -/

namespace Sys2Proof.Machine

/-! ### The row -/

/-- The row of WRITE_EN, when its access is taken, answers it and makes the write of MC_CTL with its ring attribute. -/
theorem execMcWriteEnWrite_of_takes {a : Acc} {j : Fin 15} {v : W64} {s : State}
    (h : Takes s (accessOf a (reg1 .mcCtl j.val) true v)) :
    exec (.mcWriteEnWrite a j v) s
      = .next (writeMcCtl (answered s a (reg1 .mcCtl j.val) v) (whole (reg1 .mcCtl j.val) v) a.ring.toNat) := by
  have hplace : ∀ j : Fin 15, regAt (regAddr (reg1 .mcCtl j.val)) = some (reg1 .mcCtl j.val)
      ∧ regAddr (reg1 .mcCtl j.val) % 8 = 0 ∧ regAddr (reg1 .mcCtl j.val) < 2 ^ 24
      ∧ inShared (regAddr (reg1 .mcCtl j.val)) = false := by decide
  obtain ⟨hat, halign, hfits, hlocal⟩ := hplace j
  have hrow : exec (.mcWriteEnWrite a j v) s = writeRow a (reg1 .mcCtl j.val) v true s := rfl
  rw [hrow, writeRow_of_takes_wide h hat rfl halign hfits]
  exact congrArg Host.Outcome.next (if_neg (Bool.eq_false_iff.mp hlocal))

/-! ### CHECK (R358) -/

/-- A write of MC_CTL from another ring than 0 sets REFUSED and nothing else. -/
theorem writeMcCtl_of_ring {r : Nat} (s : State) (w : RegWrite) (h : r ≠ 0) :
    writeMcCtl s w r = flag1 s F.mcCtlRefused w.reg.i := by
  rw [writeMcCtl, if_pos h]

theorem rd_check_refused (s : State) (j : Nat) : rd (flag1 s F.mcCtlRefused j) F.mcCtlCheck j = rd s F.mcCtlCheck j :=
  rd_wr1_other s F.mcCtlRefused F.mcCtlCheck j 1 (by decide)

/-- PATCH_EN that is written, taken or refused, leaves CHECK. -/
theorem rd_check_setPatchEn (s : State) (j : Nat) (v : Bool) :
    rd (setPatchEn s j v) F.mcCtlCheck j = rd s F.mcCtlCheck j := by
  rw [setPatchEn]
  split_ifs
  · rfl
  · exact rd_wr1_other s F.mcCtlPatchEn F.mcCtlCheck j (bit v) (by decide)
  · exact rd_check_refused s j

/-- WRITE_EN that another ring than 0 sets is refused, or was 1 before, and leaves CHECK. -/
theorem rd_check_setWriteEn_of_ring {r : Nat} (s : State) (j : Nat) (h : r ≠ 0) :
    rd (setWriteEn s j r true) F.mcCtlCheck j = rd s F.mcCtlCheck j := by
  have hbusy : ¬ storeFree s j r = true := by simp [storeFree, h]
  rw [setWriteEn, if_pos rfl, if_neg hbusy]
  split_ifs
  · rfl
  · exact rd_check_refused s j

/-- A write of the whole of MC_CTL without its effect on WRITE_EN and PATCH_EN. -/
def ctlKeeping (j : Nat) (v : W64) : RegWrite :=
  ((whole (reg1 .mcCtl j) v).keeping F.mcCtlWriteEn).keeping F.mcCtlPatchEn

/-- Such a write stores the upper half of its value in CHECK. -/
theorem rd_check_ctlKeeping (s : State) (j : Nat) (v : W64) :
    rd ((ctlKeeping j v).plain s) F.mcCtlCheck j = v.toNat / 2 ^ 32 := by
  have hupper : ∀ b, b < 32 → (accMask .mcCtl .rw).getLsbD (32 + b) = true ∧ (accMask .mcCtl .w1c).getLsbD (32 + b) = false
      ∧ (ctlKeeping 0 0).mask.getLsbD (32 + b) = true := by decide
  refine (rd_plain (ctlKeeping j v) s F.mcCtlCheck rfl).trans (Nat.eq_of_testBit_eq fun b => ?_)
  rw [RegWrite.get, testBit_fget, Nat.testBit_div_two_pow, BitVec.testBit_toNat, Nat.add_comm b]
  by_cases hb : b < 32
  · obtain ⟨hrw, hw1c, hmask⟩ := hupper b hb
    have hbit : ((ctlKeeping j v).next s).getLsbD (32 + b) = v.getLsbD (32 + b) := by
      rw [RegWrite.getLsbD_next _ _ (by omega), show (ctlKeeping j v).reg.name = .mcCtl from rfl,
        show (ctlKeeping j v).mask = (ctlKeeping 0 0).mask from rfl, hrw, hw1c, hmask]
      rfl
    rw [hbit, decide_eq_true hb, Bool.true_and]
  · rw [decide_eq_false hb, Bool.false_and, BitVec.getLsbD_of_ge v _ (by omega)]

/-- Once such a write has been made, another ring's WRITE_EN 1 and then PATCH_EN leave its CHECK. -/
theorem rd_check_ctlKeeping_of_ring {r : Nat} (s : State) (j : Nat) (v : W64) (p : Bool) (h : r ≠ 0) :
    rd (setPatchEn (setWriteEn ((ctlKeeping j v).plain s) j r true) j p) F.mcCtlCheck j = v.toNat / 2 ^ 32 := by
  rw [rd_check_setPatchEn, rd_check_setWriteEn_of_ring _ j h, rd_check_ctlKeeping]

/-! ### A write that the block refuses -/

/-- A unit in ACTIVE with every domain and both front ends up. -/
def activeUnit : State :=
  { State.reset with
    power := { poreset := false, mode := .active, pswEn := ~~~0, pswAck := ~~~0, up := ~~~0, supply := ~~~0 },
    regs := [(reg0 .ownerCtl, 0x600)] }

/-- A requester of ring 1. -/
def ringOne : Acc := ⟨1, 0⟩

/-- WRITE_EN 1, PATCH_EN 0 and CHECK 1. -/
def lockedOut : W64 := 0x100000001

/-- The port passes a write of MC_CTL from ring 1 that sets WRITE_EN, for R357 to refuse it. -/
theorem takes_lockedOut : Takes activeUnit (accessOf ringOne (reg1 .mcCtl 14) true lockedOut) where
  taken := by decide
  ok := by decide
  outside := by decide
  may := by decide
  free := by decide
  first := by decide
  stays := fun _ => by decide

/-- Refutes O56, in its first clause: MC_CTL of store 14 is written from ring 1 with WRITE_EN 1 and CHECK 1. The block refuses the
write and sets REFUSED only (R357), so CHECK stays 0; the clause stores CHECK 1 before it lets WRITE_EN be refused. -/
theorem not_microcodeRows : ¬ Obligations.MicrocodeRows := by
  rintro ⟨hrows, -⟩
  have hring : ringOne.ring.toNat ≠ 0 := by decide
  have hclaim := hrows (.mcWriteEnWrite ringOne 14 lockedOut) ringOne 14 lockedOut activeUnit takes_lockedOut List.mem_cons_self
  have hmodel := execMcWriteEnWrite_of_takes (j := 14) takes_lockedOut
  rw [writeMcCtl_of_ring _ _ hring] at hmodel
  have hstates := Host.Outcome.next.inj (hmodel.symm.trans hclaim)
  rw [if_pos (by decide)] at hstates
  have hcheck := congrArg (fun x => rd x F.mcCtlCheck 14) hstates
  have hkept : rd (flag1 (answered activeUnit ringOne (reg1 .mcCtl 14) lockedOut) F.mcCtlRefused 14) F.mcCtlCheck 14 = 0 :=
    (rd_check_refused _ 14).trans (by decide)
  have hstored : lockedOut.toNat / 2 ^ 32 = 1 := by decide
  have hclaimed := (rd_check_ctlKeeping_of_ring (answered activeUnit ringOne (reg1 .mcCtl 14) lockedOut) 14 lockedOut
    (lockedOut.getLsbD 1) hring).trans hstored
  exact absurd (hkept.symm.trans (hcheck.trans hclaimed)) (by decide)

end Sys2Proof.Machine
end

section
/-! Steps: what waits in the queue, and the AON cycle of an empty queue (R229, R231). -/

namespace Sys2Proof.Machine

/-- Settles O5: the queue is part of what every command keeps. -/
theorem commandsLeaveTheQueue : Obligations.CommandsLeaveTheQueue :=
  fun _ _ _ hs hexec => ((InvQ.of_inv hs).of_exec hexec).kept.queue

/-- Settles O1. -/
theorem stepRunsFrontCommand : Obligations.StepRunsFrontCommand :=
  fun _ _ _ => step_of_cons rfl

/-! ### The AON cycle -/

/-- PD_AON works unless PORESET_N is asserted or the unit is in retention. -/
theorem aonLive_iff (s : State) : aonLive s = true ↔ s.power.poreset = false ∧ s.power.retention = false := by
  simp [aonLive]

/-- The time base of a time master, and of a unit alone, adds TB_INC (R229). -/
theorem nextEdge_of_own {s : State} (h : isMaster s = true ∨ xrState s ≠ 3) : nextEdge s = s.tb + rd s F.tbIncInc := by
  have hown : rdB s F.tbStatusMaster = true ∨ ¬ rd s F.xrStatusState = 3 := h
  simp [nextEdge, tbStep, hown]

/-- The time base of any other unit adds TB_INC and the correction of HK3 (R229). -/
theorem nextEdge_of_follower {s : State} (hmaster : isMaster s = false) (hring : xrState s = 3) :
    nextEdge s = s.tb + ((rd s F.tbIncInc : Int) + s.ring.corr).toNat := by
  have hother : ¬(rdB s F.tbStatusMaster = true ∨ ¬ rd s F.xrStatusState = 3) := by
    rintro (hyes | hno)
    · exact Bool.false_ne_true (hmaster.symm.trans hyes)
    · exact hno hring
  simp [nextEdge, tbStep, hother]

/-- Settles O2: by whether PD_AON works, and by what the time base adds at an edge. -/
theorem emptyQueueIsAonTick : Obligations.EmptyQueueIsAonTick := by
  intro s hqueue
  have hstep : step s = .next (idle s) := step_of_nil hqueue
  refine ⟨fun hdead => ?_, fun hreset hretention => ?_, fun hown => ?_, fun hmaster hring => ?_, rfl, rfl, fun hnone => ?_⟩
  · have hlive : ¬ aonLive s = true := by
      rw [aonLive_iff]
      rintro ⟨hreset, hretention⟩
      simp [hreset, hretention] at hdead
    rw [hstep, idle, if_neg hlive]
  · rw [hstep, idle, if_pos ((aonLive_iff s).mpr ⟨hreset, hretention⟩)]
    rfl
  · rw [← nextEdge_of_own hown]
    rfl
  · rw [← nextEdge_of_follower hmaster hring]
    rfl
  · simp only [takeSet, hnone]

end Sys2Proof.Machine
end

section
/-! Accesses on H_TGT that meet an error (R376–R378, R385). -/

namespace Sys2Proof.Machine

/-! ### The log of HP_TGT_ERR (R385) -/

/-- What the first error since VALID was cleared leaves in HP_TGT_ERR beside COUNT. -/
def tgtFirst (s : State) (q : HostAccess) (code : Nat) : State :=
  [(F.hpTgtErrAddr, q.addr.toNat), (F.hpTgtErrCode, code), (F.hpTgtErrWrite, bit q.write), (F.hpTgtErrFetch, bit q.fetch),
    (F.hpTgtErrRing, q.acc.ring.toNat), (F.hpTgtErrSize64, bit q.size64), (F.hpTgtErrRid, q.acc.rid.toNat)].foldl
    (fun s e => wr0 s e.1 e.2) (flag0 s F.hpTgtErrValid)

/-- The log is that of the first error, and a count. -/
theorem tgtLogErr_eq (s : State) (q : HostAccess) (code : Nat) :
    tgtLogErr s q code = addSat (if rdB s F.hpTgtErrValid then s else tgtFirst s q code) F.hpTgtErrCount 0 1 := rfl

/-- A field that stands once: an error's log writes no other register. -/
theorem getR_tgtFirst_other (s : State) (q : HostAccess) (code : Nat) {n : RegName} {i j k : Nat}
    (h : ¬(n = .hpTgtErr ∧ i = 0 ∧ j = 0 ∧ k = 0)) : getR (tgtFirst s q code) n i j k = getR s n i j k := by
  simp only [tgtFirst, List.foldl_cons, List.foldl_nil, flag0, wr0, wr, getR_setR, if_neg h]

theorem bit_mod_two (b : Bool) : bit b % 2 = bit b := by cases b <;> rfl

/-- HP_TGT_ERR holds an access and its error code. -/
structure TgtLogged (x : State) (q : HostAccess) (code : Nat) : Prop where
  valid : rd x F.hpTgtErrValid = 1
  addr : rd x F.hpTgtErrAddr = q.addr.toNat
  code : rd x F.hpTgtErrCode = code
  write : rd x F.hpTgtErrWrite = bit q.write
  fetch : rd x F.hpTgtErrFetch = bit q.fetch
  ring : rd x F.hpTgtErrRing = q.acc.ring.toNat
  size64 : rd x F.hpTgtErrSize64 = bit q.size64
  rid : rd x F.hpTgtErrRid = q.acc.rid.toNat

/-- The log of the first error holds what the access was. -/
theorem tgtFirst_spec (s : State) (q : HostAccess) {code : Nat} (hcode : code < 4) : TgtLogged (tgtFirst s q code) q code := by
  have hring := q.acc.ring.isLt
  have hrid := q.acc.rid.isLt
  have haddr := q.addr.isLt
  have hcodeFits : code % 2 ^ 2 = code := Nat.mod_eq_of_lt hcode
  simp only [tgtFirst, List.foldl_cons, List.foldl_nil, flag0]
  constructor <;> simp (disch := decide) only [rd_wr0_other, rd_wr0_same, Nat.mod_eq_of_lt haddr, Nat.mod_eq_of_lt hring,
    Nat.mod_eq_of_lt hrid, hcodeFits, bit_mod_two, pow_one]

/-- The first error leaves COUNT to the step that counts it. -/
theorem rd_count_tgtFirst (s : State) (q : HostAccess) (code : Nat) : rd (tgtFirst s q code) F.hpTgtErrCount = rd s F.hpTgtErrCount := by
  simp only [tgtFirst, List.foldl_cons, List.foldl_nil, flag0]
  simp (disch := decide) only [rd_wr0_other]

/-- A count that saturates changes no other field. -/
theorem rd_addSat_other (s : State) (f g : Fld) (n : Nat) (h : g.lo + g.len ≤ f.lo ∨ f.lo + f.len ≤ g.lo) :
    rd (addSat s f 0 n) g = rd s g :=
  rd_wr0_other s f g _ h

/-- An error is logged in HP_TGT_ERR alone. -/
theorem getR_tgtLogErr_other (s : State) (q : HostAccess) (code : Nat) {n : RegName} {i j k : Nat}
    (h : ¬(n = .hpTgtErr ∧ i = 0 ∧ j = 0 ∧ k = 0)) : getR (tgtLogErr s q code) n i j k = getR s n i j k := by
  rw [tgtLogErr_eq, addSat, getR_wr1_other _ _ _ _ h]
  split
  · rfl
  · exact getR_tgtFirst_other s q code h

theorem tgtLogErr_frame (s : State) (q : HostAccess) (code : Nat) :
    tgtLogErr s q code = { s with regs := (tgtLogErr s q code).regs } := by
  rw [tgtLogErr_eq]
  split <;> rfl

/-- COUNT goes up by one, saturating, whether the error is the first or not. -/
theorem rd_count_tgtLogErr (s : State) (q : HostAccess) (code : Nat) :
    rd (tgtLogErr s q code) F.hpTgtErrCount = min 65535 (rd s F.hpTgtErrCount + 1) := by
  have hkept : rd (if rdB s F.hpTgtErrValid then s else tgtFirst s q code) F.hpTgtErrCount = rd s F.hpTgtErrCount := by
    split
    · rfl
    · exact rd_count_tgtFirst s q code
  rw [tgtLogErr_eq, addSat, rd_wr1_same _ _ _ _ (by decide), hkept]
  exact (Nat.mod_eq_of_lt (by simp [sat])).trans (Nat.min_comm ..)

/-! ### Answers with an error (R376, R385) -/

/-- An access answered with an error code has its response and its log, and no other effect. -/
theorem errorAnswered_answer (s : State) (q : HostAccess) {code : Nat} (hpos : code ≠ 0) (hcode : code < 4) :
    ErrorAnswered s (answer s q .fresh code) q code := by
  have heq : answer s q .fresh code = putRsp (tgtLogErr s q code) .fresh ⟨code, 0, false, q.write⟩ := by
    have hslot : ¬(code = rOkay ∨ RspSlot.fresh = .given) := by
      rintro (h | h)
      · exact hpos h
      · cases h
    rw [answer, if_neg hslot, if_neg hpos]
  have hregs (f : Fld) : rd (putRsp (tgtLogErr s q code) .fresh ⟨code, 0, false, q.write⟩) f = rd (tgtLogErr s q code) f := rfl
  rw [heq]
  constructor
  case frame =>
    rw [tgtLogErr_frame]
    rfl
  case others => exact fun n i j k h => getR_tgtLogErr_other s q code h
  case first =>
    intro hfirst
    have hlog (f : Fld) (hf : f.lo + f.len ≤ 40) : rd (tgtLogErr s q code) f = rd (tgtFirst s q code) f := by
      rw [tgtLogErr_eq, hfirst, rd_addSat_other _ _ _ _ (.inl hf)]
      rfl
    obtain ⟨hvalid, haddr, hcodef, hwrite, hfetch, hring, hsize, hrid⟩ := tgtFirst_spec s q hcode
    simp only [rdB, hregs]
    simp (disch := decide) only [hlog, hvalid, haddr, hcodef, hwrite, hfetch, hring, hsize, hrid, decide_true, and_self]
  case later =>
    intro hlater f hf
    have hfits : f.lo + f.len ≤ 40 := by
      have hall : ∀ f ∈ [F.hpTgtErrValid, F.hpTgtErrAddr, F.hpTgtErrCode, F.hpTgtErrWrite, F.hpTgtErrFetch, F.hpTgtErrRing,
        F.hpTgtErrSize64, F.hpTgtErrRid], f.lo + f.len ≤ 40 := by decide
      exact hall f hf
    rw [hregs, tgtLogErr_eq, if_pos hlater, rd_addSat_other _ _ _ _ (.inl hfits)]
  case count => exact rd_count_tgtLogErr s q code

/-- ERROR_RESPONSE is the access as presented. -/
theorem execErrorResponse_eq (q : HostAccess) (s : State) : exec (.errorResponse q) s = .next (hostAccess s q) := rfl

/-- An access is not taken while the port takes no requests (R34, R375). -/
theorem hostAccess_of_closed {s : State} (q : HostAccess) (h : portTakes s = false) : hostAccess s q = s := by
  simp [hostAccess, h]

/-- An access that meets a condition of ACCESS_ERR is answered with it (R376). -/
theorem hostAccess_of_accessErr {s : State} {q : HostAccess} (htakes : portTakes s = true) (herr : accessErr s q = true) :
    hostAccess s q = answer s q .fresh rAccess := by
  simp [hostAccess, htakes, herr]

/-- An access outside the boot window that meets none, from a ring that a register does not permit, is answered with
PROT_ERR (R378). -/
theorem hostAccess_of_protErr {s : State} {q : HostAccess} (htakes : portTakes s = true) (hok : accessErr s q = false)
    (hout : inWindow q.addr = false) (hmay : ∃ x ∈ touched q, ringMay s q x.1 = false) :
    hostAccess s q = answer s q .fresh rProt := by
  have hany : (touched q).any (fun t => !ringMay s q t.1) = true := by
    obtain ⟨x, hx, hno⟩ := hmay
    exact List.any_eq_true.mpr ⟨x, hx, by rw [hno]; rfl⟩
  simp [hostAccess, htakes, hok, hout, hany]

/-- Settles O8: by the condition that the access meets, and by what closes the port. -/
theorem errorAnswersHaveNoEffect : Obligations.ErrorAnswersHaveNoEffect := by
  refine ⟨fun q s hclosed => ?_, fun q s htakes => ⟨fun herr => ?_, fun hok hout hmay => ?_⟩⟩
  · have hport : portTakes s = false := by
      rcases hclosed with h | h | h | h <;> simp [portTakes, aonLive, h, Nat.not_lt.mpr]
    rw [execErrorResponse_eq, hostAccess_of_closed q hport]
  · exact ⟨_, congrArg Host.Outcome.next (hostAccess_of_accessErr htakes herr),
      errorAnswered_answer s q (by decide) (by decide)⟩
  · exact ⟨_, congrArg Host.Outcome.next (hostAccess_of_protErr htakes hok hout hmay),
      errorAnswered_answer s q (by decide) (by decide)⟩

/-- Settles O9: a fetch outside the boot window meets a condition of ACCESS_ERR whatever it touches. -/
theorem fetchOutsideTheBootWindow : Obligations.FetchOutsideTheBootWindow := by
  intro q s htakes hfetch hout
  have herr : accessErr s q = true := by simp [accessErr, hout, hfetch]
  exact errorAnswersHaveNoEffect.2 q s htakes |>.1 herr

end Sys2Proof.Machine
end

section
/-! The register map (R374, R487): the register at a register's address is that register, table by table. -/

namespace Sys2Proof.Machine

/-! ### One table -/

/-- A table's registers lie in the addresses from its base, its span of them. -/
def spanOf (n : RegName) : Nat :=
  match n.row.dims with
  | [] => 1
  | (c, st) :: _ => c * st

/-- No table of the map has a stride of 0. -/
theorem stride_pos (n : RegName) : ∀ d ∈ n.row.dims, 0 < d.2 := by cases n <;> decide

theorem regAtName_bounds {n : RegName} {a : Nat} {r : Reg} (h : regAtName n a = some r) :
    n.row.base ≤ a ∧ a < n.row.base + spanOf n := by
  rw [regAtName] at h
  split at h
  next => cases h
  next hbase =>
    refine ⟨by omega, ?_⟩
    obtain ⟨l, hl, -⟩ := Option.map_eq_some_iff.mp h
    unfold spanOf
    cases hdims : n.row.dims with
    | nil =>
      rw [hdims, indexOf] at hl
      split at hl
      · simp only
        omega
      · cases hl
    | cons d rest =>
      obtain ⟨c, st⟩ := d
      rw [hdims, indexOf] at hl
      split at hl
      next hin =>
        have hspan := Nat.lt_mul_of_div_lt hin (stride_pos n (c, st) (by simp [hdims]))
        simp only
        omega
      next => cases hl

/-- A table of rows `st` apart has no register at the addresses that leave this remainder. -/
def misses (m : RegName) (st ρ : Nat) : Bool :=
  match m.row.dims with
  | [] => m.row.base % st ≠ ρ
  | (_, t) :: rest => t = st && (indexOf rest ((ρ + (st - m.row.base % st)) % st)).isNone

/-- The remainder of an offset from a base, from that of the address. -/
theorem sub_mod_eq {a b st : Nat} (hst : 0 < st) (hab : b ≤ a) : (a - b) % st = (a % st + (st - b % st)) % st := by
  obtain ⟨x, rfl⟩ := Nat.exists_eq_add_of_le hab
  have hlt := Nat.mod_lt b hst
  have hdiv := Nat.div_add_mod b st
  have hsum : b + x + (st - b % st) = x + st * (b / st + 1) := by
    rw [Nat.mul_add]
    omega
  rw [Nat.mod_add_mod, hsum, Nat.add_mul_mod_self_left, Nat.add_sub_cancel_left]

theorem regAtName_of_misses {m : RegName} {st a : Nat} (hst : 0 < st) (h : misses m st (a % st) = true) : regAtName m a = none := by
  rw [misses] at h
  rw [regAtName]
  split
  next => rfl
  next hbase =>
    cases hdims : m.row.dims with
    | nil =>
      simp only [hdims, ne_eq, decide_not, Bool.not_eq_true', decide_eq_false_iff_not] at h
      have hother : a - m.row.base ≠ 0 := fun h0 => h (by rw [show a = m.row.base by omega])
      simp [indexOf, hother]
    | cons d rest =>
      obtain ⟨c, t⟩ := d
      simp only [hdims, Bool.and_eq_true, decide_eq_true_eq, Option.isNone_iff_eq_none] at h
      obtain ⟨rfl, hnone⟩ := h
      rw [indexOf, sub_mod_eq hst (by omega), hnone]
      simp

/-! ### The tables together -/

/-- No other table has a register where table `n` has one at an address with this remainder. -/
def clearAt (n : RegName) (st ρ : Nat) : Bool :=
  RegName.all.contains n && RegName.all.all fun m =>
    m = n || m.row.base + spanOf m ≤ n.row.base || n.row.base + spanOf n ≤ m.row.base || misses m st ρ

theorem regAt_of_clearAt {n : RegName} {a st : Nat} {r : Reg} (hself : regAtName n a = some r) (hst : 0 < st)
    (hclear : clearAt n st (a % st) = true) : regAt a = some r := by
  simp only [clearAt, Bool.and_eq_true, List.contains_iff_mem, List.all_eq_true, Bool.or_eq_true, decide_eq_true_eq] at hclear
  obtain ⟨hmem, hothers⟩ := hclear
  obtain ⟨hlow, hhigh⟩ := regAtName_bounds hself
  have honly : ∀ m ∈ RegName.all, ∀ x, regAtName m a = some x → m = n := by
    intro m hm x hx
    obtain ⟨hlow', hhigh'⟩ := regAtName_bounds hx
    rcases hothers m hm with ((rfl | hbelow) | habove) | hmiss
    · rfl
    · omega
    · omega
    · cases hx.symm.trans (regAtName_of_misses hst hmiss)
  cases hfound : regAt a with
  | none => cases hself.symm.trans (List.findSome?_eq_none_iff.mp hfound n hmem)
  | some x =>
    obtain ⟨m, hm, hx⟩ := List.exists_of_findSome?_eq_some hfound
    rw [← hself, ← hx, honly m hm x hx]

/-- The register at the address of a row of a table of one index. -/
theorem regAt_regAddr_reg1 {n : RegName} {c st : Nat} (hdims : n.row.dims = [(c, st)]) (hst : 0 < st)
    (hclear : clearAt n st (n.row.base % st) = true) {k : Nat} (hk : k < c) : regAt (regAddr (reg1 n k)) = some (reg1 n k) := by
  have haddr : regAddr (reg1 n k) = n.row.base + st * k := by simp [regAddr, reg1, hdims]
  rw [haddr]
  refine regAt_of_clearAt ?_ hst (by rwa [Nat.add_mul_mod_self_left])
  simp [regAtName, hdims, indexOf, Nat.mul_div_cancel_left k hst, hk, reg1]

/-- The register at the address of a row of a table of two indices. -/
theorem regAt_regAddr_pair {n : RegName} {c st d t : Nat} (hdims : n.row.dims = [(c, st), (d, t)]) (ht : 0 < t) (hfit : t * d ≤ st)
    {i j : Nat} (hclear : clearAt n st ((n.row.base + t * j) % st) = true) (hi : i < c) (hj : j < d) :
    regAt (regAddr ⟨n, i, j, 0⟩) = some ⟨n, i, j, 0⟩ := by
  have hinner : t * j < st := Nat.lt_of_lt_of_le (Nat.mul_lt_mul_of_pos_left hj ht) hfit
  have hst : 0 < st := Nat.lt_of_le_of_lt (Nat.zero_le _) hinner
  have haddr : regAddr ⟨n, i, j, 0⟩ = n.row.base + (t * j + st * i) := by simp [regAddr, hdims]; omega
  rw [haddr]
  refine regAt_of_clearAt ?_ hst (by rwa [← Nat.add_assoc, Nat.add_mul_mod_self_left])
  have hquot : (t * j + st * i) / st = i := by
    rw [Nat.add_mul_div_left _ _ hst, Nat.div_eq_of_lt hinner, Nat.zero_add]
  have hrem : (t * j + st * i) % st = t * j := by rw [Nat.add_mul_mod_self_left, Nat.mod_eq_of_lt hinner]
  simp [regAtName, hdims, indexOf, hquot, hrem, hi, hj, Nat.mul_div_cancel_left j ht]

end Sys2Proof.Machine
end

section
/-! Rows that write one register, writes at an address, and reads of a 64-bit register by halves (R28, R376, R379–R381). -/

namespace Sys2Proof.Machine

/-! ### The rows that write one register -/

/-- A row that writes one register is the write of that register, if the value is the row's. -/
theorem exec_eq_writeRow {c : Instr} {a : Acc} {r : Reg} {v : W64} (s : State) (h : rowWrite c = some (a, r, v)) :
    exec c s = writeRow a r v c.wellFormed s := by
  cases c <;> cases h <;> rfl

/-- A register stands alone in the lanes that an access to it uses: it is found at its address inside the port's window, at the
beginning of its 8-byte group, or as a 32-bit register beside another one. -/
def standsAlone (r : Reg) : Bool :=
  regAt (regAddr r) = some r && regAddr r < 2 ^ 24 && (regAddr r % 8 = 0
    || (regAddr r % 8 = 4 && !r.name.row.wide && (regAt (regAddr r - 4)).any (fun l => !l.name.row.wide)))

/-- The value is one that a register's width can take. -/
def fitsWidth (r : Reg) (v : W64) : Prop := regAddr r % 8 = 4 → ∃ x : W32, v = x.setWidth 64

theorem standsAlone_iff (r : Reg) : standsAlone r = true ↔ regAt (regAddr r) = some r ∧ regAddr r < 2 ^ 24 ∧ (regAddr r % 8 = 0
    ∨ (regAddr r % 8 = 4 ∧ r.name.row.wide = false ∧ ∃ l, regAt (regAddr r - 4) = some l ∧ l.name.row.wide = false)) := by
  simp only [standsAlone, Bool.and_eq_true, Bool.or_eq_true, decide_eq_true_eq, Option.any_eq_true, Bool.not_eq_true',
    and_assoc]

/-- The write of such a register touches it alone, and writes the whole of it. -/
theorem writeParts_accessOf {r : Reg} {v : W64} (hr : standsAlone r = true) (hv : fitsWidth r v) (a : Acc) (t : State) :
    writeParts t (accessOf a r true v) = written a t (whole r v) ∧ (touched (accessOf a r true v)).map Prod.fst = [r] := by
  obtain ⟨hat, hfits, hlow | ⟨hhigh, hnarrow, l, hl, hpair⟩⟩ := (standsAlone_iff r).mp hr
  · have htouched : touched (accessOf a r true v) = [(r, .all 0)] := by
      cases hwide : r.name.row.wide with
      | true => exact touched_accessOf_wide a r true v hat hwide hlow hfits
      | false => exact touched_accessOf_narrow a r true v hat hwide hlow hfits
    simp only [writeParts, htouched, List.foldl_cons, List.foldl_nil, regWrite, partWrite_accessOf a r v hlow]
    exact ⟨rfl, rfl⟩
  · obtain ⟨x, rfl⟩ := hv hhigh
    simp only [writeParts, touched_accessOf_high a r l true _ hat hl hnarrow hpair hhigh hfits, List.foldl_cons,
      List.foldl_nil, regWrite, partWrite_accessOf_high a r x hhigh]
    exact ⟨rfl, rfl⟩

theorem mem_trimNames (t : TrimReg) : trimName t ∈ [RegName.calDqRd, .calDqWr, .calDqs, .calDrv] := by cases t <;> decide

/-- The rows of a table of one index that lies in the low lanes stand alone. -/
theorem standsAlone_of_table {n : RegName} (c st : Nat) (hdims : n.row.dims = [(c, st)]) (hplace : n.row.base % 8 = 0 ∧ st % 8 = 0
    ∧ n.row.base + st * c ≤ 2 ^ 24 ∧ 0 < st ∧ clearAt n st (n.row.base % st) = true) {k : Nat} (hk : k < c) :
    standsAlone (reg1 n k) = true := by
  obtain ⟨hbase, hstride, hend, hst, hclear⟩ := hplace
  have haddr : regAddr (reg1 n k) = n.row.base + st * k := by simp [regAddr, reg1, hdims]
  have hmul : st * k < st * c := Nat.mul_lt_mul_of_pos_left hk hst
  refine (standsAlone_iff _).mpr ⟨regAt_regAddr_reg1 hdims hst hclear hk, by omega, .inl ?_⟩
  rw [haddr, Nat.add_mod, hbase, Nat.mul_mod, hstride]
  simp

/-- The rows of a table of two indices that lies in the low lanes stand alone. -/
theorem standsAlone_of_table2 {n : RegName} (c st d t : Nat) (hdims : n.row.dims = [(c, st), (d, t)]) (hplace : n.row.base % 8 = 0
    ∧ st % 8 = 0 ∧ t % 8 = 0 ∧ n.row.base + st * c ≤ 2 ^ 24 ∧ 0 < t ∧ t * d ≤ st
    ∧ ∀ j < d, clearAt n st ((n.row.base + t * j) % st) = true) {i j : Nat} (hi : i < c) (hj : j < d) :
    standsAlone ⟨n, i, j, 0⟩ = true := by
  obtain ⟨hbase, hstride, hinner, hend, ht, hfit, hclear⟩ := hplace
  have haddr : regAddr ⟨n, i, j, 0⟩ = n.row.base + st * i + t * j := by simp [regAddr, hdims]
  have hin : t * j < t * d := Nat.mul_lt_mul_of_pos_left hj ht
  have hmul : st * i + st ≤ st * c := by rw [← Nat.mul_succ]; exact Nat.mul_le_mul_left st hi
  refine (standsAlone_iff _).mpr ⟨regAt_regAddr_pair hdims ht hfit (hclear j hj) hi hj, by omega, .inl ?_⟩
  rw [haddr, Nat.add_mod, Nat.mul_mod t, hinner, Nat.add_mod n.row.base, hbase, Nat.mul_mod, hstride]
  simp

/-- A 32-bit register of the high lanes stands alone when a 32-bit one stands in the low lanes beside it. -/
theorem standsAlone_of_high {r l : Reg} (hat : regAt (regAddr r) = some r) (hl : regAt (regAddr l) = some l)
    (hnext : regAddr r = regAddr l + 4) (hfits : regAddr r < 2 ^ 24) (hlane : regAddr r % 8 = 4) (hr : r.name.row.wide = false)
    (hpair : l.name.row.wide = false) : standsAlone r = true :=
  (standsAlone_iff r).mpr ⟨hat, hfits, .inr ⟨hlane, hr, l, by rwa [hnext, Nat.add_sub_cancel], hpair⟩⟩

/-- RQ_HEAD stands beside RQ_TAIL. -/
theorem standsAlone_rqHead (k : Fin 256) : standsAlone (reg1 .rqHead k.val) = true := by
  have hat : regAt (regAddr (reg1 .rqHead k.val)) = some (reg1 .rqHead k.val) :=
    regAt_regAddr_reg1 rfl (st := 4096) (by decide) (by decide) k.isLt
  have htail : regAt (regAddr (reg1 .rqTail k.val)) = some (reg1 .rqTail k.val) :=
    regAt_regAddr_reg1 rfl (st := 4096) (by decide) (by decide) k.isLt
  have haddr : regAddr (reg1 .rqHead k.val) = 1048612 + 4096 * k.val := rfl
  have hbeside : regAddr (reg1 .rqTail k.val) = 1048608 + 4096 * k.val := rfl
  exact standsAlone_of_high hat htail (by omega) (by omega) (by omega) rfl rfl

/-- IC_COMPLETE stands beside IC_CLAIM. -/
theorem standsAlone_icComplete (t : Fin 8) : standsAlone (reg1 .icComplete t.val) = true := by
  have hat : regAt (regAddr (reg1 .icComplete t.val)) = some (reg1 .icComplete t.val) :=
    regAt_regAddr_reg1 rfl (st := 32) (by decide) (by decide) t.isLt
  have hclaim : regAt (regAddr (reg1 .icClaim t.val)) = some (reg1 .icClaim t.val) :=
    regAt_regAddr_reg1 rfl (st := 32) (by decide) (by decide) t.isLt
  have haddr : regAddr (reg1 .icComplete t.val) = 135172 + 32 * t.val := rfl
  have hbeside : regAddr (reg1 .icClaim t.val) = 135168 + 32 * t.val := rfl
  exact standsAlone_of_high hat hclaim (by omega) (by omega) (by omega) rfl rfl

/-- The registers of the sources stand in the low and the high lanes by turns. -/
theorem standsAlone_icSrc (n : Fin 512) : standsAlone (reg1 .icSrc n.val) = true := by
  have hat {k : Nat} (hk : k < 512) : regAt (regAddr (reg1 .icSrc k)) = some (reg1 .icSrc k) :=
    regAt_regAddr_reg1 rfl (st := 4) (by decide) (by decide) hk
  have haddr (k : Nat) : regAddr (reg1 .icSrc k) = 131072 + 4 * k := rfl
  have hn := n.isLt
  rcases Nat.mod_two_eq_zero_or_one n.val with heven | hodd
  · exact (standsAlone_iff _).mpr ⟨hat hn, by rw [haddr]; omega, .inl (by rw [haddr]; omega)⟩
  · exact standsAlone_of_high (hat hn) (hat (k := n.val - 1) (by omega)) (by rw [haddr, haddr]; omega) (by rw [haddr]; omega)
      (by rw [haddr]; omega) rfl rfl

/-- The trim registers of a channel stand alone. -/
theorem standsAlone_trim (t : TrimReg) (g : Fin 12) (ch : Fin 4) : standsAlone ⟨trimName t, g.val, ch.val, 0⟩ = true := by
  cases t <;> exact standsAlone_of_table2 12 1024 4 64 rfl (by decide) g.isLt ch.isLt

/-- Every register that a row writes stands alone in its lanes. -/
theorem standsAlone_of_rowWrite {c : Instr} {a : Acc} {r : Reg} {v : W64} (h : rowWrite c = some (a, r, v)) :
    standsAlone r = true := by
  have hsingle : ∀ n ∈ [RegName.lgCtl, .ownerCtl, .tbSet, .randKey, .lgRingCtl, .xrCtl, .decCtl, .tallySnapCtl, .smFlipCtl,
      .bootCtl, .modeCtl, .pwrReq, .ckCoreCtl, .svcFeCtl], standsAlone (reg0 n) = true := by decide
  cases c <;> cases h
  case forceAltWrite.refl | handoverRequest.refl | tbSetWrite.refl | randKeyWrite.refl | ringStartWrite.refl | reenumWrite.refl
      | ringPortEnable.refl | poolFenceWrite.refl | snapNowWrite.refl | smFlipArm.refl | winEnRelease.refl | bootReloadWrite.refl
      | modeTargetReady.refl | modeTargetActive.refl | modeTargetStandby.refl | modeTargetOff.refl | modeTargetTest.refl
      | pwrReqWrite.refl | ckSrcWrite.refl | ckPllWrite.refl | svcFeFenceWrite.refl => exact hsingle _ (by decide)
  case rqHeadWrite.refl k _ => exact standsAlone_rqHead k
  case sqTailDoorbell.refl k _ | ringEnable.refl k _ | ringDisable.refl k _ | ringCfgWrite.refl k _ | fetchErrClear.refl k _
      | rcptErrClear.refl k _ => exact standsAlone_of_table 256 4096 rfl (by decide) k.isLt
  case initWrite.refl g | inertWrite.refl g | cgFenceWrite.refl g _ =>
    exact standsAlone_of_table 48 16384 rfl (by decide) (by omega)
  case chEnableWrite.refl ch _ | chDisableWrite.refl ch _ | fifoFlushWrite.refl ch _ | fifoDbgEnableWrite.refl ch _
      | chFlipArm.refl ch _ => exact standsAlone_of_table 48 16384 rfl (by decide) ch.isLt
  case deCtlWrite.refl e _ => exact standsAlone_of_table 40 8 rfl (by decide) e.isLt
  case dcEnableWrite.refl d _ | dcDisableWrite.refl d _ | dcKickWrite.refl d _ =>
    exact standsAlone_of_table 32 4096 rfl (by decide) d.isLt
  case icCompleteWrite.refl t _ => exact standsAlone_icComplete t
  case icForceWrite.refl n _ | icSenseWrite.refl n _ => exact standsAlone_icSrc n
  case tallyCountWrite.refl i => exact standsAlone_of_table 64 16 rfl (by decide) i.isLt
  case smBankFenceWrite.refl b _ | smRetireWrite.refl b _ | itemSlotsWrite.refl b _ =>
    exact standsAlone_of_table 16 8 rfl (by decide) b.isLt
  case smRemapWrite.refl b e _ => exact standsAlone_of_table2 16 64 8 8 rfl (by decide) b.isLt e.isLt
  case mcWriteEnWrite.refl j | mcPatchEnWrite.refl j => exact standsAlone_of_table 15 65536 rfl (by decide) j.isLt
  case mcRestartWrite.refl j e => exact standsAlone_of_table2 15 65536 4 16 rfl (by decide) j.isLt e.isLt
  case trimWrite.refl t => exact standsAlone_trim t.reg t.g t.c

/-- A row with a 64-bit value writes the low lanes, so its value fits whatever it is. -/
theorem fitsWidth_of_low {r : Reg} (v : W64) (h : regAddr r % 8 = 0) : fitsWidth r v := fun hhigh => by omega

/-- The value of every row fits its register. -/
theorem fitsWidth_of_rowWrite {c : Instr} {a : Acc} {r : Reg} {v : W64} (h : rowWrite c = some (a, r, v)) : fitsWidth r v := by
  cases c <;> cases h
  case tbSetWrite.refl | ringStartWrite.refl => exact fitsWidth_of_low _ (by decide)
  case initWrite.refl | inertWrite.refl =>
    have hlow : ∀ g : Fin 12, regAddr (reg1 .cgPhy (4 * g.val)) % 8 = 0 := by decide
    exact fitsWidth_of_low _ (hlow _)
  case tallyCountWrite.refl =>
    have hlow : ∀ i : Fin 64, regAddr (reg1 .tallyVal i.val) % 8 = 0 := by decide
    exact fitsWidth_of_low _ (hlow _)
  case mcWriteEnWrite.refl | mcPatchEnWrite.refl =>
    have hlow : ∀ j : Fin 15, regAddr (reg1 .mcCtl j.val) % 8 = 0 := by decide
    exact fitsWidth_of_low _ (hlow _)
  case mcRestartWrite.refl =>
    have hlow : ∀ (j : Fin 15) (e : Fin 4), regAddr ⟨.mcEng, j.val, e.val, 0⟩ % 8 = 0 := by decide
    exact fitsWidth_of_low _ (hlow _ _)
  case trimWrite.refl =>
    have hlow : ∀ n ∈ [RegName.calDqRd, .calDqWr, .calDqs, .calDrv], ∀ (g : Fin 12) (ch : Fin 4),
        regAddr ⟨n, g.val, ch.val, 0⟩ % 8 = 0 := by decide
    exact fitsWidth_of_low _ (hlow _ (mem_trimNames _) _ _)
  all_goals exact fun _ => ⟨_, rfl⟩

/-! ### Posted writes (R28, R381) -/

/-- A write that passes is answered, and posted. -/
theorem hostAccess_of_passes {s : State} {q : HostAccess} (h : Passes s q) (hwrite : q.write = true) :
    hostAccess s q = postedAccess (answer s q .fresh rOkay) q := by
  have hmay : (touched q).any (fun t => !ringMay s q t.1) = false := by simpa using fun r p ht => h.may (r, p) ht
  have hgoes : waits s q = false := by
    have hfree : (touched q).any (fun t => waitsOwner s t.1) = false := by simpa using fun r p ht => h.free (r, p) ht
    simp [waits, hfree, h.first]
  simp [hostAccess, h.taken, h.ok, h.outside, hmay, hgoes, applyAccess, hwrite]

/-- A write posted to a shared region before the owner's front end stops is applied, or not at all: which is free (R28). -/
theorem postedAccess_of_stop {s : State} {q : HostAccess} (hshared : sharedAcc q = true) (hstop : ownerStopsNext s = true) :
    postedAccess s q = if Config.freeBit s.freeCtr then writeParts { s with freeCtr := s.freeCtr + 1 } q
      else { s with freeCtr := s.freeCtr + 1 } := by
  rw [postedAccess, if_pos ⟨hshared, hstop⟩]
  rfl

/-- Settles O10: every row that writes one register is that write, and its register stands alone in its lanes. -/
theorem registerRowsWriteTheirRegister : Obligations.RegisterRowsWriteTheirRegister := by
  intro c s a r v hwf hrow
  have hexec : exec c s = .next (hostAccess s (accessOf a r true v)) := by
    rw [exec_eq_writeRow s hrow, hwf]
    rfl
  have hparts (t : State) := writeParts_accessOf (standsAlone_of_rowWrite hrow) (fitsWidth_of_rowWrite hrow) a t
  refine ⟨fun htakes => ?_, fun hpasses hstop hin => ?_⟩
  · rw [hexec, hostAccess_of_takes htakes rfl, (hparts _).1]
    rfl
  · have hshared : sharedAcc (accessOf a r true v) = true := by
      have htouched := (hparts s).2
      have hany : (touched (accessOf a r true v)).any (fun t => inShared (regAddr t.1))
          = ((touched (accessOf a r true v)).map Prod.fst).any (fun r => inShared (regAddr r)) := by
        rw [List.any_map]
        rfl
      rw [sharedAcc, hpasses.outside, hany, htouched]
      simpa using hin
    have hposted := postedAccess_of_stop (s := answer s (accessOf a r true v) .fresh rOkay) hshared hstop
    rw [hexec, hostAccess_of_passes hpasses rfl, hposted, (hparts _).1]
    rfl

/-! ### Writes at an address (R376, R380) -/

/-- Settles O12: the write of each part is that of its register, wherever the register lies. -/
theorem registerWriteByAddress : Obligations.RegisterWriteByAddress := by
  intro a addr size64 v s htakes
  refine ⟨?_, fun r _ => rfl, fun r _ => rfl⟩
  have hpart (q : HostAccess) (t : State) (x : Reg × Part) : regWrite q t x = written q.acc t (partWrite q x) := by
    obtain ⟨r, p⟩ := x
    cases p <;> rfl
  calc exec (.registerWrite a addr size64 v) s = .next (hostAccess s _) := rfl
    _ = _ := by
      rw [hostAccess_of_takes htakes rfl, writeParts, funext₂ (hpart _)]

/-! ### Reads by halves (R379) -/

/-- A read of one part is that part's data, and its effect. -/
theorem hostAccess_readPart {s : State} {q : HostAccess} {t : Reg × Part} (h : Takes s q) (hread : q.write = false)
    (ht : touched q = [t]) : hostAccess s q = answer (readPart s q t).2 q .fresh rOkay (readPart s q t).1 := by
  rw [hostAccess_read_of_takes h hread, readAccess_of_touched ht]

/-- The high half of a register that the requester read low last is its shadow. -/
theorem highHalf_of_shadow {s : State} {rid g : Nat} {v : W32}
    (h : s.host.shadow.find? (fun e => e.1 = rid ∧ e.2.1 = g) = some (rid, g, v)) :
    highHalf s rid g = (v.setWidth 64 <<< 32, s) := by
  rw [highHalf]
  split
  next heq =>
    cases heq.symm.trans h
    rfl
  next heq => cases heq.symm.trans h

/-- The high half of any other register is a free word's. -/
theorem highHalf_of_none {s : State} {rid g : Nat} (h : s.host.shadow.find? (fun e => e.1 = rid ∧ e.2.1 = g) = none) :
    highHalf s rid g = (Config.freeWord s.freeCtr &&& 0xffffffff00000000#64, { s with freeCtr := s.freeCtr + 1 }) := by
  rw [highHalf]
  split
  next heq => cases heq.symm.trans h
  next => rfl

/-- Settles O13, part by part: the low half, the high half with and without its shadow, and the whole register. -/
theorem splitReadsUseTheShadow : Obligations.SplitReadsUseTheShadow := by
  intro a addr r s
  refine ⟨fun hlow htakes => ?_, fun hhigh htakes => ⟨fun v hshadow => ?_, fun hnone => ?_⟩, fun hall htakes => ?_⟩
  · calc exec (.halfRead a addr) s = .next (hostAccess s (readAt a addr false)) := rfl
      _ = _ := by
        rw [hostAccess_readPart htakes rfl hlow]
        rfl
  · have hpart : readPart s (readAt a addr false) (r, .high) = (v.setWidth 64 <<< 32, s) := highHalf_of_shadow hshadow
    calc exec (.halfRead a addr) s = .next (hostAccess s (readAt a addr false)) := rfl
      _ = _ := by rw [hostAccess_readPart htakes rfl hhigh, hpart]
  · have hpart : readPart s (readAt a addr false) (r, .high)
        = (Config.freeWord s.freeCtr &&& 0xffffffff00000000#64, { s with freeCtr := s.freeCtr + 1 }) := highHalf_of_none hnone
    calc exec (.halfRead a addr) s = .next (hostAccess s (readAt a addr false)) := rfl
      _ = _ := by rw [hostAccess_readPart htakes rfl hhigh, hpart]
  · have hpart : readPart s (readAt a addr true) (r, .all 0) = readAll s r := by
      simp [readPart]
    calc exec (.readClearAccess a addr true) s = .next (hostAccess s (readAt a addr true)) := rfl
      _ = _ := by rw [hostAccess_readPart htakes rfl hall, hpart]

end Sys2Proof.Machine
end

section
/-! What a command answers: a next state, or a fault of the operands that do not form it. -/

namespace Sys2Proof.Machine

/-! ### Answers -/

/-- A command answers a next state. -/
def Answers (o : Out) : Prop := ∃ t, o = .next t

@[simp] theorem answers_next (t : State) : Answers (.next t) := ⟨t, rfl⟩

/-- A command answers a next state, or faults on its operands. -/
def AnswersOrFaults (o : Out) : Prop := Answers o ∨ o = .fault .illFormed

@[simp] theorem answersOrFaults_next (t : State) : AnswersOrFaults (.next t) := .inl (answers_next t)

@[simp] theorem answersOrFaults_fault : AnswersOrFaults (.fault .illFormed) := .inr rfl

/-- A meaning that checks its operands, and then answers. -/
theorem answers_or_faults_of_check {o x : Out} {p : Prop} [Decidable p] {b : Bool} (ho : o = if p then x else .fault .illFormed)
    (hb : b = decide p) (hx : Answers x) : (b = true → Answers o) ∧ (b = false → o = .fault .illFormed) := by
  subst hb ho
  exact ⟨fun h => (if_pos (of_decide_eq_true h)).symm ▸ hx, fun h => if_neg (of_decide_eq_false h)⟩

/-! ### Kinds of commands -/

/-- The commands whose operands carry data of a length or a form that the state decides. -/
def formByState : Instr → Bool
  | .busTenureEnd .. | .transferEnd .. | .localDecodeEnd .. | .globalDecodeEnd .. | .softDecodeEnd ..
  | .descListFetchReturn .. | .bootLoadEnd .. => true
  | _ => false

/-- The events whose operands are checked: neither the write of one register nor a packet. -/
def checkedEvent : Instr → Bool
  | .ringDescFetchReturn .. | .hiReadDataBeat .. | .presenceFrame .. | .allotFrame .. | .fwdRcptFrame .. | .bringupStepEnd ..
  | .calRunEnd .. | .bistStepEnd .. | .machineCheck .. => true
  | _ => false

theorem exec_rowWrite {c : Instr} {x : Acc × Reg × W64} (s : State) (h : rowWrite c = some x) :
    exec c s = if c.wellFormed then .next (hostAccess s (accessOf x.1 x.2.1 true x.2.2)) else .fault .illFormed :=
  exec_eq_writeRow s h

theorem exec_packetOf {c : Instr} {x : Fin 256 × Packet} (s : State) (h : packetOf c = some x) :
    exec c s = if c.wellFormed then .next (packetArrives s x.1.val x.2) else .fault .illFormed :=
  exec_eq_packetRow s h

/-- The slice exists, the cause is one of R351, and a parity cause names its groups. -/
theorem wellFormed_machineCheck (j : Fin 15) (e : Fin 4) (cause : Fin 16) (par : Byte) :
    (Instr.machineCheck j e cause par).wellFormed
      = decide (e.val < storeEngines j.val ∧ 1 ≤ cause.val ∧ cause.val ≤ 5 ∧ (cause.val ≤ 2 → par ≠ 0)) := by
  have hparity : (2 < cause.val ∨ par ≠ 0) ↔ (cause.val ≤ 2 → par ≠ 0) := by
    rw [← Nat.not_le, ← imp_iff_not_or]
  rw [← decide_eq_true_iff (p := 2 < cause.val ∨ par ≠ 0)] at hparity
  simp only [← hparity, Bool.decide_and, Bool.decide_or, Bool.decide_eq_true, ← Bool.and_assoc]
  rfl

/-- The events that are checked fault where their operands do not form them, and answer a next state where they do. -/
theorem exec_checkedEvent {c : Instr} (s : State) (h : checkedEvent c = true) :
    (c.wellFormed = true → Answers (exec c s)) ∧ (c.wellFormed = false → exec c s = .fault .illFormed) := by
  cases c
  all_goals try cases h
  case ringDescFetchReturn.refl | hiReadDataBeat.refl | presenceFrame.refl | allotFrame.refl | fwdRcptFrame.refl =>
    refine answers_or_faults_of_check (ite_not ..) rfl ?_
    dsimp only
    repeat' split
    all_goals exact answers_next _
  case bringupStepEnd.refl | calRunEnd.refl | bistStepEnd.refl =>
    refine answers_or_faults_of_check rfl ?_ ?_
    · simp only [Bool.decide_and, Bool.decide_eq_true]
      rfl
    repeat' split
    all_goals exact answers_next _
  case machineCheck.refl =>
    refine answers_or_faults_of_check rfl (wellFormed_machineCheck ..) ?_
    split
    all_goals exact answers_next _

/-- An event whose operands are not checked answers a next state: each of its branches does. -/
theorem answers_of_unchecked {c : Instr} (s : State) (hrow : rowWrite c = none) (hpkt : packetOf c = none)
    (hcheck : checkedEvent c = false) (hform : formByState c = false) : Answers (exec c s) := by
  cases c
  all_goals try cases hrow
  all_goals try cases hpkt
  all_goals try cases hcheck
  all_goals try cases hform
  all_goals try exact answers_next _
  all_goals
    dsimp only [exec, execPacketFetchError, execItemBecomesCandidate, execItemArm, execLaunchGateOpen, execItemLaunch,
      execTickEffect, execLedgerGrant, execSlotGrant, execPollDue, execRbNRise, execPollComplete, execDieTimeoutExpiry,
      execSuspendIssue, execResumeIssue, execDecodeHoldExpiry, holdEnds, execDecodeJobClaim, execLadderStepBegin,
      execMarginReadLaunch, execDecodeEngineFault, execEngineDrainEnd, execParityPassEnd, execDmaMoveComplete,
      execHiWriteResponse, execHiCreditReturn, execDmaChannelDrainEnd, execCutHoldExpiry, execQuietWindowStart,
      execQuietWindowEnd, execLedgerExchangeTick, execBcastTickApply, execIntakeToTeller, execPresenceSendTick,
      execTimeExchangeTick, execMasterLost, execLaneDown, execHealHoldExpiry, execCoalTimeExpiry, execBootLoadStart,
      execCorePllLockTimeout, execPoresetRelease, execSysresetRelease, execPswAckRise, execPswHandshakeTimeout,
      execPatchRamClearEnd, execMicroTrapEntry, execTrapReturn, execRoutineEnd, execRoutineTimeout, execTempUpdate,
      execCalRetryExpiry, execCalForcingTimeout, execCalBoundary, execPatrolReadLaunch, execRelocationStart,
      execRelocReceiptWrite, execSramScrubVisit, execBistBudgetExpiry, execScanShift]
    repeat' split
    all_goals exact answers_next _

/-- A command whose form the state decides answers, or faults on its data. -/
theorem answersOrFaults_of_formByState {c : Instr} (s : State) (hform : formByState c = true) : AnswersOrFaults (exec c s) := by
  cases c
  all_goals try cases hform
  all_goals
    dsimp only [exec, execBusTenureEnd, execTransferEnd, execLocalDecodeEnd, execGlobalDecodeEnd, execSoftDecodeEnd,
      execDescListFetchReturn, execBootLoadEnd, startLoadEnds]
    repeat' split
    all_goals simp only [answersOrFaults_next, answersOrFaults_fault]

/-! ### Every command -/

/-- A command that is not well formed faults in every state (log entry 7). -/
theorem exec_of_illFormed {c : Instr} (s : State) (hwf : c.wellFormed = false) : exec c s = .fault .illFormed := by
  have hno : ¬ c.wellFormed = true := by rw [hwf]; exact Bool.false_ne_true
  cases hrow : rowWrite c with
  | some x => exact (exec_rowWrite s hrow).trans (if_neg hno)
  | none =>
    cases hpkt : packetOf c with
    | some x => exact (exec_packetOf s hpkt).trans (if_neg hno)
    | none =>
      cases hcheck : checkedEvent c with
      | true => exact (exec_checkedEvent s hcheck).2 hwf
      | false =>
        cases c
        all_goals try cases hrow
        all_goals try cases hpkt
        all_goals try cases hcheck
        all_goals try cases hwf
        case none.none.false.bootLoadEnd.refl.refl.refl r =>
          have hblocks : (blockOk r.block0 && blockOk r.block1) = false := hwf
          exact if_pos (by rw [hblocks]; rfl)

/-- A well-formed command answers a next state, but for those whose form the state decides (log entries 7 and 8). -/
theorem answers_of_wellFormed {c : Instr} (s : State) (hwf : c.wellFormed = true) (hform : formByState c = false) :
    Answers (exec c s) := by
  cases hrow : rowWrite c with
  | some x => exact ⟨_, (exec_rowWrite s hrow).trans (if_pos hwf)⟩
  | none =>
    cases hpkt : packetOf c with
    | some x => exact ⟨_, (exec_packetOf s hpkt).trans (if_pos hwf)⟩
    | none =>
      cases hcheck : checkedEvent c with
      | true => exact (exec_checkedEvent s hcheck).1 hwf
      | false => exact answers_of_unchecked s hrow hpkt hcheck hform

/-- The commands whose form the state decides are the seven. -/
theorem formByState_iff (c : Instr) : formByState c = true ↔
    (∃ ch d, c = .busTenureEnd ch d) ∨ (∃ ch d, c = .transferEnd ch d) ∨ (∃ e r, c = .localDecodeEnd e r)
      ∨ (∃ e r, c = .globalDecodeEnd e r) ∨ (∃ e r, c = .softDecodeEnd e r) ∨ (∃ d l f, c = .descListFetchReturn d l f)
      ∨ (∃ r, c = .bootLoadEnd r) := by
  constructor
  · intro h
    cases c
    all_goals try cases h
    all_goals simp
  · rintro (⟨_, _, rfl⟩ | ⟨_, _, rfl⟩ | ⟨_, _, rfl⟩ | ⟨_, _, rfl⟩ | ⟨_, _, rfl⟩ | ⟨_, _, _, rfl⟩ | ⟨_, rfl⟩) <;> rfl

/-- Every command answers, or faults on its operands. -/
theorem exec_answersOrFaults (c : Instr) (s : State) : AnswersOrFaults (exec c s) := by
  cases hform : formByState c with
  | true => exact answersOrFaults_of_formByState s hform
  | false =>
    cases hwf : c.wellFormed with
    | true => exact .inl (answers_of_wellFormed s hwf hform)
    | false => exact .inr (exec_of_illFormed s hwf)

/-- Settles O6: a fault is that of operands that do not form the command, or of one of the seven. -/
theorem illFormedCommandsFault : Obligations.IllFormedCommandsFault := by
  refine ⟨fun c s hwf => exec_of_illFormed s hwf, fun c s => ⟨fun r hrefused => ?_, fun f hfault => ?_⟩⟩
  · rcases exec_answersOrFaults c s with ⟨t, h⟩ | h
    · cases h.symm.trans hrefused
    · cases h.symm.trans hrefused
  · rcases exec_answersOrFaults c s with ⟨t, h⟩ | h
    · cases h.symm.trans hfault
    · obtain rfl : Fault.illFormed = f := Host.Outcome.fault.inj (h.symm.trans hfault)
      refine ⟨rfl, ?_⟩
      rw [← formByState_iff]
      cases hwf : c.wellFormed with
      | false => exact .inl rfl
      | true =>
        refine .inr (by_contra fun hform => ?_)
        obtain ⟨t, hnext⟩ := answers_of_wellFormed s hwf (Bool.eq_false_of_not_eq_true hform)
        cases hnext.symm.trans hfault

/-- Settles O7: a command that is none of the seven has a form that its operands alone decide. -/
theorem wellFormedCommandsAnswer : Obligations.WellFormedCommandsAnswer := by
  intro c s hwf hbus htransfer hlocal hglobal hsoft hlist hload
  refine answers_of_wellFormed s hwf (Bool.eq_false_of_not_eq_true fun hform => ?_)
  rcases (formByState_iff c).mp hform with ⟨_, _, h⟩ | ⟨_, _, h⟩ | ⟨_, _, h⟩ | ⟨_, _, h⟩ | ⟨_, _, h⟩ | ⟨_, _, _, h⟩ | ⟨_, h⟩
  · exact hbus _ _ h
  · exact htransfer _ _ h
  · exact hlocal _ _ h
  · exact hglobal _ _ h
  · exact hsoft _ _ h
  · exact hlist _ _ _ h
  · exact hload _ h

end Sys2Proof.Machine
end

section
/-! Reset pins, supplies, power switches and straps (R398–R410, R426, R429, R436, R439). -/

namespace Sys2Proof.Machine

/-! ### PORESET_N and SYSRESET_N (R399, R429, R436) -/

/-- PORESET_N asserted leaves the registers of reset and no item; the pins keep their levels (R429). -/
theorem poreset_spec (s : State) : (poreset s).regs = State.reset.regs ∧ (poreset s).items = [] ∧ (poreset s).power.mode = .off
    ∧ (poreset s).power.poreset = true ∧ (poreset s).power.sysreset = s.power.sysreset
    ∧ (poreset s).power.supply = s.power.supply ∧ (poreset s).power.warn = s.power.warn ∧ (poreset s).tb = 0
    ∧ (poreset s).pending = s.pending :=
  ⟨rfl, rfl, rfl, rfl, rfl, rfl, rfl, rfl, rfl⟩

/-- PORESET_N released: the straps are sampled, and the start-up begins once PSW_ACK[0] is high (R436). -/
theorem execPoresetRelease_of_asserted {s : State} (h : s.power.poreset = true) : exec .poresetRelease s = .next (modeProgress
    (if s.power.pswAck.getLsbD 0 then startUp (updPower s fun p => { p with poreset := false, straps := Config.straps p.strapGen }) false
      else setPhase (updPower s fun p => { p with poreset := false, straps := Config.straps p.strapGen }) (some .step1))) :=
  if_pos h

/-- The fields that a start-up sequence begins with (R436). -/
theorem startUp_spec (s : State) (r : Bool) : (startUp s r).power.mode = .standby ∧ (startUp s r).power.phase = some .step2
    ∧ rdB (startUp s r) F.modeCtlBusy = true ∧ rdB (startUp s r) F.pwrStatusRetained = r := by
  have hregs (f : Fld) : rdB (startUp s r) f = rdB (wr0 (wr0 s F.modeCtlBusy 1) F.pwrStatusRetained (bit r)) f := rfl
  refine ⟨rfl, rfl, ?_, ?_⟩
  · rw [hregs, rdB_wr0_apart _ _ _ _ (by decide)]
    exact rdB_flag0_same s F.modeCtlBusy rfl (by decide)
  · rw [hregs, rdB, rd_wr0_same _ _ _ (by decide)]
    cases r <;> rfl

/-- STANDBY is entered with no transition in progress. -/
theorem goStandby_spec (s : State) : (goStandby s).power.mode = .standby ∧ (goStandby s).power.phase = none
    ∧ rdB (goStandby s) F.modeCtlBusy = false := by
  rw [goStandby]
  generalize unitDown s = x
  refine ⟨rfl, rfl, ?_⟩
  have hregs : (setPhase (setMode (wr0 x F.modeCtlBusy 0) .standby) none).regs = (wr0 x F.modeCtlBusy 0).regs := rfl
  rw [rdB, rd_congr hregs]
  exact rdB_wr0_zero x F.modeCtlBusy (by decide)

/-- SYSRESET_N asserted while PD_AON works: the unit is in STANDBY with no transition, and the register says so (R429). -/
theorem sysresetDown_of_live {s : State} (h : aonLive s = true) :
    (sysresetDown s).power.mode = .standby ∧ (sysresetDown s).power.phase = none
      ∧ rdB (sysresetDown s) F.pwrStatusSysSeen = true ∧ rdB (sysresetDown s) F.modeCtlRefused = false
      ∧ rd (sysresetDown s) F.modeCtlReason = 0 ∧ rdB (sysresetDown s) F.modeCtlBusy = false := by
  rw [sysresetDown, if_pos h, resetDown]
  obtain ⟨hmode, hphase, hbusy⟩ := goStandby_spec (bistAbort (setPhase (updPower s fun p => { p with sysreset := true }) none))
  generalize goStandby _ = x at hmode hphase hbusy ⊢
  refine ⟨hmode, hphase, rdB_flag0_same _ _ rfl (by decide), ?_⟩
  simp (disch := decide) only [flag0, rdB_wr0_apart, rd_wr0_apart, rdB_wr0_zero, rd_wr0_same, hbusy]
  decide

/-- SYSRESET_N released out of PORESET_N: a warm start, from retention with RETAINED 1 (R436). -/
theorem execSysresetRelease_of_asserted {s : State} (hsys : s.power.sysreset = true) (hpor : s.power.poreset = false) :
    exec .sysresetRelease s = if s.power.retention then .next (modeProgress (startUp
        (flag0 (updPower s fun p => { p with sysreset := false, retention := false }) F.pwrStatusSysSeen) true))
      else .next (modeProgress (startUp (updPower s fun p => { p with sysreset := false }) false)) := by
  have hexec : exec .sysresetRelease s = execSysresetRelease s := rfl
  rw [hexec, execSysresetRelease, if_neg (not_not_intro hsys), hpor, if_neg Bool.false_ne_true]
  rfl

/-! ### Supplies (R405, R436, R439) -/

/-- SUPPLY_OK of a supply reads the value that it takes. -/
theorem supply_setSupply (s : State) (j : Fin 17) (v : Bool) : (setSupply s j.val v).power.supply.getLsbD j.val = v := by
  cases v <;> simp [setSupply]

/-- A supply that rises is reported, and what waited goes on while PD_AON works. -/
theorem execSupplyOkRise_spec (j : Fin 17) (s : State) :
    (aonLive s = false → exec (.supplyOkRise j) s =
      .next (if 5 ≤ j.val then bootSupplied (setSupply s j.val true) (j.val - 5) else setSupply s j.val true))
    ∧ (aonLive s = true → exec (.supplyOkRise j) s = .next (modeProgress (powerNext
        (if 5 ≤ j.val then bootSupplied (setSupply s j.val true) (j.val - 5) else setSupply s j.val true)))) :=
  ⟨fun h => congrArg Host.Outcome.next (if_neg (by rw [h]; exact Bool.false_ne_true)), fun h => congrArg Host.Outcome.next (if_pos h)⟩

/-- A VDDQ that falls takes its group (R439). -/
theorem supplyFalls_of_vddq (s : State) {j : Nat} (h : 5 ≤ j) : supplyFalls s j = vddqFalls (setSupply s j false) (j - 5) := by
  obtain ⟨n, rfl⟩ := Nat.exists_eq_add_of_le' h
  rfl

/-- A brown-out leaves the unit in STANDBY, and is reported (R429, R439). -/
theorem brownOut_spec (s : State) : (brownOut s).power.mode = .standby ∧ rdB (brownOut s) F.pwrStatusBrownout = true
    ∧ rdB (brownOut s) F.portStatusSupplyDrop = true := by
  refine ⟨rfl, ?_, rdB_flag0_same _ _ rfl (by decide)⟩
  rw [brownOut, flag0, rdB_wr0_apart _ _ _ _ (by decide)]
  exact rdB_flag0_same _ _ rfl (by decide)

/-! ### Power switches (R404, R426) -/

/-- PSW_ACK that rises after PSW_EN: PD_AON's lets the transition go on, any other brings its domain up (R426). -/
theorem execPswAckRise_of_low {i : Fin 20} {s : State} (hen : s.power.pswEn.getLsbD i.val = true)
    (hack : s.power.pswAck.getLsbD i.val = false) : exec (.pswAckRise i) s =
    .next (if i.val = 0 then (if aonLive s then modeProgress (setAck s i.val true) else setAck s i.val true)
      else if domUp s i.val then setAck s i.val true else comesUp (setAck s i.val true) i.val) :=
  if_pos ⟨hen, by rw [hack]; exact Bool.false_ne_true⟩

/-- PSW_ACK that falls under PSW_EN is a fault, and the domain is lost (R404). -/
theorem execPswAckUnplannedFall_of_enabled {i : Fin 20} {s : State} (hen : s.power.pswEn.getLsbD i.val = true)
    (hack : s.power.pswAck.getLsbD i.val = true) (hlive : aonLive s = true) : exec (.pswAckUnplannedFall i) s =
    .next (loseDomain (setAck (flag0 s F.portStatusPswFault) i.val false) i.val) := by
  have hdrops : pswDrops s i.val = loseDomain (flag0 (setAck s i.val false) F.portStatusPswFault) i.val := by
    rw [pswDrops, if_neg (not_not_intro hack), if_pos ⟨hen, hlive⟩]
  exact congrArg Host.Outcome.next hdrops

/-- PSW_ACK that falls after PSW_EN fell is taken (R404). -/
theorem execPswAckUnplannedFall_of_disabled {i : Fin 20} {s : State} (hen : s.power.pswEn.getLsbD i.val = false)
    (hack : s.power.pswAck.getLsbD i.val = true) : exec (.pswAckUnplannedFall i) s = .next (setAck s i.val false) := by
  have hplanned : ¬(s.power.pswEn.getLsbD i.val = true ∧ aonLive s = true) := fun h => Bool.false_ne_true (hen.symm.trans h.1)
  have hdrops : pswDrops s i.val = setAck s i.val false := by rw [pswDrops, if_neg (not_not_intro hack), if_neg hplanned]
  exact congrArg Host.Outcome.next hdrops

/-- A handshake that is not done 100 µs after PSW_EN changed is a fault (R404). -/
theorem execPswHandshakeTimeout_of_due {i : Fin 20} {s : State} (hlive : aonLive s = true) (hi : i.val ≠ 0)
    (hopen : s.power.pswEn.getLsbD i.val ≠ s.power.pswAck.getLsbD i.val)
    (hdue : dueClk s (100 * usU + Tab.get s.power.pswAt i.val 0) = true) : exec (.pswHandshakeTimeout i) s =
    .next (flag0 (atClk s (100 * usU + Tab.get s.power.pswAt i.val 0)) F.portStatusPswFault) := by
  have hexec : exec (.pswHandshakeTimeout i) s = execPswHandshakeTimeout i s := rfl
  rw [hexec, execPswHandshakeTimeout, if_pos ⟨hopen, hi, hlive⟩, lapse_of_due hdue]

theorem execStrapChange_of_live {s : State} (h : aonLive s = true) : exec .strapChange s =
    .next (flag0 { s with power := { s.power with strapGen := s.power.strapGen + 1 } } F.portStatusStrapChanged) :=
  congrArg Host.Outcome.next (if_pos h)

/-- The rows of SUPPLY_OK that falls, supply by supply (R429, R439). -/
theorem supplyFalls_cases (j : Fin 17) (s : State) :
    (j.val = 0 → supplyFalls s j.val = poreset (setSupply s j.val false))
    ∧ (j.val = 1 ∨ j.val = 2 → supplyFalls s j.val =
        if anyPowered (setSupply s j.val false) (List.range' 1 19) then brownOut (setSupply s j.val false) else setSupply s j.val false)
    ∧ (j.val = 3 → supplyFalls s j.val = pllFalls (setSupply s j.val false))
    ∧ (j.val = 4 → supplyFalls s j.val = ringSupplyFalls (setSupply s j.val false)) := by
  generalize j.val = n
  refine ⟨?_, ?_, ?_, ?_⟩
  · rintro rfl
    rfl
  · rintro (rfl | rfl) <;> rfl
  · rintro rfl
    rfl
  · rintro rfl
    rfl

theorem execSysresetAssert_of_dead {s : State} (h : aonLive s = false) : exec .sysresetAssert s =
    .next { s with power := { s.power with sysreset := true } } :=
  congrArg Host.Outcome.next (if_neg (by rw [h]; exact Bool.false_ne_true))

/-- Settles O54, pin by pin. -/
theorem resetsSuppliesAndSwitches : Obligations.ResetsSuppliesAndSwitches := by
  refine ⟨fun s => ⟨_, rfl, poreset_spec s⟩, ?poresetRelease, startUp_spec, ?sysresetAssert, ?sysresetRelease,
    ?supplyRise, ?supplyFall, brownOut_spec, ?ackRise, fun i s => execPswAckUnplannedFall_of_enabled, fun i s => execPswAckUnplannedFall_of_disabled,
    ?handshake, fun s => execStrapChange_of_live⟩
  case poresetRelease =>
    intro s hasserted s1
    refine ⟨fun hack => (execPoresetRelease_of_asserted hasserted).trans ?_,
      fun hack => (execPoresetRelease_of_asserted hasserted).trans ?_⟩
    · rw [if_pos hack]
      rfl
    · rw [hack, if_neg Bool.false_ne_true]
      rfl
  case sysresetAssert =>
    intro s s1
    exact ⟨execSysresetAssert_of_dead, fun hlive => ⟨sysresetDown s, rfl, sysresetDown_of_live hlive⟩⟩
  case sysresetRelease =>
    intro s hsys hpor s1
    refine ⟨fun hret => (execSysresetRelease_of_asserted hsys hpor).trans ?_,
      fun hret => (execSysresetRelease_of_asserted hsys hpor).trans ?_⟩
    · rw [hret, if_neg Bool.false_ne_true]
      rfl
    · rw [if_pos hret]
      rfl
  case supplyRise =>
    intro j s s1
    obtain ⟨hdead, hlive⟩ := execSupplyOkRise_spec j s
    exact ⟨hdead, hlive, supply_setSupply s j true, supply_setSupply s j false⟩
  case supplyFall =>
    intro j s s1
    obtain ⟨h0, h12, h3, h4⟩ := supplyFalls_cases j s
    exact ⟨fun h => congrArg _ (h0 h), fun h => congrArg _ (h12 h), fun h => congrArg _ (h3 h), fun h => congrArg _ (h4 h),
      fun h => congrArg _ (supplyFalls_of_vddq s h)⟩
  case ackRise =>
    intro i s hen hack s1
    exact ⟨fun hi => (execPswAckRise_of_low hen hack).trans (congrArg _ (if_pos hi)),
      fun hi => (execPswAckRise_of_low hen hack).trans (congrArg _ (if_neg hi))⟩
  case handshake =>
    intro i s t hlive hi hopen hdue
    exact execPswHandshakeTimeout_of_due hlive hi hopen hdue

end Sys2Proof.Machine
end

section
/-! The core clock: writes of CK_CORE_CTL, switches, trips and sources that become READY (R415–R423, R436). -/

namespace Sys2Proof.Machine

/-! ### Fields that a write keeps -/

/-- A field that a write keeps, whatever else it keeps after, reads its old value when the write is plain. -/
theorem rd_plain_keeping (w : RegWrite) (s : State) (f : Fld) (hreg : w.reg.name = f.reg) (hfits : f.lo + f.len ≤ 64) :
    rd ((w.keeping f).plain s) f w.reg.i w.reg.j w.reg.k = rd s f w.reg.i w.reg.j w.reg.k :=
  (rd_plain (w.keeping f) s f hreg).trans (w.get_keeping_same s f hreg hfits)

theorem rd_plain_keeping_other (w : RegWrite) (s : State) (f g : Fld) (hreg : w.reg.name = f.reg) (hfits : f.lo + f.len ≤ 64)
    (hbits : f.lo + f.len ≤ g.lo ∨ g.lo + g.len ≤ f.lo) :
    rd ((w.keeping g).plain s) f w.reg.i w.reg.j w.reg.k = rd (w.plain s) f w.reg.i w.reg.j w.reg.k :=
  ((rd_plain (w.keeping g) s f hreg).trans (w.get_keeping_other s f g hfits hbits)).trans (rd_plain w s f hreg).symm

/-- A value that fits a field is read back whole. -/
theorem rd_wr0_of_lt (s : State) (f : Fld) {v : Nat} (hv : v < 2 ^ f.len) (hfits : f.lo + f.len ≤ 64) : rd (wr0 s f v) f = v := by
  rw [rd_wr0_same s f v hfits, Nat.mod_eq_of_lt hv]

/-- A flag reads the bit that is written to it. -/
theorem rdB_wr0_bit (s : State) (f : Fld) (b : Bool) (hlen : f.len = 1) (hlo : f.lo < 64) : rdB (wr0 s f (bit b)) f = b := by
  cases b with
  | true => exact rdB_flag0_same s f hlen hlo
  | false => exact rdB_wr0_zero s f (by omega)

/-! ### CK_CORE_CTL (R417, R418) -/

/-- What a write of CK_CORE_CTL does beside SRC, MULT and PLL_EN. -/
def corePlain (s : State) (w : RegWrite) : State :=
  (((w.keeping F.ckCoreCtlSrc).keeping F.ckCoreCtlMult).keeping F.ckCoreCtlPllEn).plain s

/-- The fields that the hardware holds, and those that SRC, MULT and PLL_EN hold, stay. -/
theorem rd_corePlain {s : State} {w : RegWrite} (hw : w.reg = reg0 .ckCoreCtl) {f : Fld}
    (hf : f ∈ [F.ckCoreCtlSrc, F.ckCoreCtlMult, F.ckCoreCtlPllEn, F.ckCoreCtlCorePllReady, F.ckCoreCtlFallbackReady,
      F.ckCoreCtlSwitching, F.ckCoreCtlParked]) : rd (corePlain s w) f = rd s f := by
  obtain ⟨r, val, mask⟩ := w
  obtain rfl : r = reg0 .ckCoreCtl := hw
  simp only [List.mem_cons, List.not_mem_nil, or_false] at hf
  rcases hf with rfl | rfl | rfl | hro
  · exact (rd_plain_keeping_other _ s _ F.ckCoreCtlPllEn rfl (by decide) (by decide)).trans
      ((rd_plain_keeping_other _ s _ F.ckCoreCtlMult rfl (by decide) (by decide)).trans (rd_plain_keeping _ s _ rfl (by decide)))
  · exact (rd_plain_keeping_other _ s _ F.ckCoreCtlPllEn rfl (by decide) (by decide)).trans (rd_plain_keeping _ s _ rfl (by decide))
  · exact rd_plain_keeping _ s _ rfl (by decide)
  · have hbits : ∀ f ∈ [F.ckCoreCtlCorePllReady, F.ckCoreCtlFallbackReady, F.ckCoreCtlSwitching, F.ckCoreCtlParked],
        ∀ b, f.lo ≤ b → b < f.lo + f.len →
          (accMask .ckCoreCtl .rw).getLsbD b = false ∧ (accMask .ckCoreCtl .w1c).getLsbD b = false := by decide
    have hfits : ∀ f ∈ [F.ckCoreCtlCorePllReady, F.ckCoreCtlFallbackReady, F.ckCoreCtlSwitching, F.ckCoreCtlParked],
        f.lo + f.len ≤ 64 := by decide
    have hmem : f ∈ [F.ckCoreCtlCorePllReady, F.ckCoreCtlFallbackReady, F.ckCoreCtlSwitching, F.ckCoreCtlParked] := by simpa using hro
    exact RegWrite.rd_plain_readOnly _ s f 0 0 0 (hfits f hmem) (hbits f hmem)

/-- Both rows of CK_CORE_CTL are the write of that register (log entry 79). -/
theorem exec_coreWrite {c : Instr} {a : Acc} {v : W32} {s : State}
    (htakes : Takes s (accessOf a (reg0 .ckCoreCtl) true (v.setWidth 64))) (hc : c ∈ [.ckSrcWrite a v, .ckPllWrite a v]) :
    exec c s = .next (writeCore (answered s a (reg0 .ckCoreCtl) (v.setWidth 64)) (whole (reg0 .ckCoreCtl) (v.setWidth 64))) := by
  have hrow : c.wellFormed = true ∧ rowWrite c = some (a, reg0 .ckCoreCtl, v.setWidth 64) := by
    simp only [List.mem_cons, List.not_mem_nil, or_false] at hc
    rcases hc with rfl | rfl <;> exact ⟨rfl, rfl⟩
  exact (registerRowsWriteTheirRegister c s a _ _ hrow.1 hrow.2).1 htakes

/-- The values of SRC, MULT and PLL_EN that such a write carries. -/
theorem writeCore_whole (s : State) (v : W32) : writeCore s (whole (reg0 .ckCoreCtl) (v.setWidth 64))
    = askSource (askPll (corePlain s (whole (reg0 .ckCoreCtl) (v.setWidth 64))) (v.toNat / 256 % 32) (v.getLsbD 13)) (v.toNat % 4) := by
  have hsrc : (whole (reg0 .ckCoreCtl) (v.setWidth 64)).get s F.ckCoreCtlSrc = v.toNat % 4 := by
    rw [get_whole_rw _ _ _ _ (by decide) (by decide), Nat.pow_zero, Nat.div_one]
    rfl
  have hmult : (whole (reg0 .ckCoreCtl) (v.setWidth 64)).get s F.ckCoreCtlMult = v.toNat / 256 % 32 :=
    get_whole_rw _ _ _ _ (by decide) (by decide)
  have hen : decide ((whole (reg0 .ckCoreCtl) (v.setWidth 64)).get s F.ckCoreCtlPllEn = 1) = v.getLsbD 13 := by
    rw [show (whole (reg0 .ckCoreCtl) (v.setWidth 64)).get s F.ckCoreCtlPllEn = v.toNat / 2 ^ 13 % 2 from
      get_whole_rw _ _ _ _ (by decide) (by decide), BitVec.getLsbD, Nat.testBit_eq_decide_div_mod_eq]
  rw [writeCore, hsrc, hmult, hen]
  rfl

/-- What a write of MULT and PLL_EN comes to (R418). -/
theorem askPll_spec (s : State) (m : Nat) (en : Bool) (hm : m < 32) :
    ((m = rd s F.ckCoreCtlMult ∧ en = rdB s F.ckCoreCtlPllEn) → askPll s m en = s)
    ∧ (¬(m = rd s F.ckCoreCtlMult ∧ en = rdB s F.ckCoreCtlPllEn) →
      (rd s F.ckCoreCtlSrc = 0 → askPll s m en = flag0 s F.ckCoreCtlSwRefused)
      ∧ (rd s F.ckCoreCtlSrc ≠ 0 → rd (askPll s m en) F.ckCoreCtlMult = m ∧ rdB (askPll s m en) F.ckCoreCtlPllEn = en
        ∧ (¬(en = true ∧ m = rd s F.ckCoreCtlMult) → rdB (askPll s m en) F.ckCoreCtlCorePllReady = false))) := by
  refine ⟨fun hsame => if_pos hsame, fun hnew => ⟨fun hpll => ?_, fun hother => ?_⟩⟩
  · rw [askPll, if_neg hnew, if_pos hpll]
  · have hask : askPll s m en = if en ∧ m = rd s F.ckCoreCtlMult then wr0 (wr0 s F.ckCoreCtlMult m) F.ckCoreCtlPllEn (bit en)
        else wr0 (wr0 (wr0 s F.ckCoreCtlMult m) F.ckCoreCtlPllEn (bit en)) F.ckCoreCtlCorePllReady 0 := by
      rw [askPll, if_neg hnew, if_neg hother]
    have hmult : rd (wr0 (wr0 s F.ckCoreCtlMult m) F.ckCoreCtlPllEn (bit en)) F.ckCoreCtlMult = m := by
      rw [rd_wr0_apart _ _ _ _ (by decide), rd_wr0_of_lt _ _ hm (by decide)]
    have hen : rdB (wr0 (wr0 s F.ckCoreCtlMult m) F.ckCoreCtlPllEn (bit en)) F.ckCoreCtlPllEn = en :=
      rdB_wr0_bit _ _ en rfl (by decide)
    rw [hask]
    split
    next hstays => exact ⟨hmult, hen, fun hleaves => absurd hstays hleaves⟩
    next =>
      rw [rd_wr0_apart _ _ _ _ (by decide), rdB_wr0_apart _ _ _ _ (by decide)]
      exact ⟨hmult, hen, fun _ => rdB_wr0_zero _ _ (by decide)⟩

/-- What a write of SRC comes to (R417). -/
theorem askSource_spec (s : State) (src : Nat) (hsrc : src < 4) :
    (src = rd s F.ckCoreCtlSrc → askSource s src = s)
    ∧ (src ≠ rd s F.ckCoreCtlSrc →
      (sourceReady s src = false ∨ switching s = true → askSource s src = flag0 s F.ckCoreCtlSwRefused)
      ∧ (sourceReady s src = true → switching s = false → rd (askSource s src) F.ckCoreCtlSrc = src
        ∧ rdB (askSource s src) F.ckCoreCtlSwitching = true ∧ switching (askSource s src) = true)) := by
  refine ⟨fun hsame => if_pos hsame, fun hnew => ⟨fun hrefuse => ?_, fun hready hidle => ?_⟩⟩
  · rw [askSource, if_neg hnew, if_pos (by simpa using hrefuse)]
  · have hask : askSource s src = updPower (wr0 (wr0 s F.ckCoreCtlSrc src) F.ckCoreCtlSwitching 1)
        (fun p => { p with switchFrom := some (rd s F.ckCoreCtlSrc) }) := by
      rw [askSource, if_neg hnew, if_neg (by simp [hready, hidle])]
    have hregs (f : Fld) : rd (askSource s src) f = rd (wr0 (wr0 s F.ckCoreCtlSrc src) F.ckCoreCtlSwitching 1) f := by
      rw [hask]
      rfl
    refine ⟨?_, ?_, by rw [hask]; rfl⟩
    · rw [hregs, rd_wr0_apart _ _ _ _ (by decide), rd_wr0_of_lt _ _ hsrc (by decide)]
    · rw [rdB, hregs]
      exact rdB_flag0_same _ F.ckCoreCtlSwitching rfl (by decide)

/-! ### Switches and trips (R417, R422, R423) -/

/-- The core clock runs from another source, with no work that waited for it to leave the AON clock. -/
theorem runFrom_of_running {s : State} (h : parked s = false) (src : Nat) :
    runFrom s src = wr0 (wr0 s F.ckCoreCtlSrc src) F.ckCoreCtlParked (bit (src = 2)) := by
  rw [runFrom, h]
  exact if_neg (fun hboth => Bool.false_ne_true hboth.1)

/-- The fields that show the source. -/
theorem runFrom_spec {s : State} (h : parked s = false) {src : Nat} (hsrc : src < 4) :
    rd (runFrom s src) F.ckCoreCtlSrc = src ∧ rdB (runFrom s src) F.ckCoreCtlParked = decide (src = 2) := by
  rw [runFrom_of_running h]
  constructor
  · rw [rd_wr0_apart _ _ _ _ (by decide), rd_wr0_of_lt _ _ hsrc (by decide)]
  · exact rdB_wr0_bit _ _ _ rfl (by decide)

/-- A switch in progress ends refused. -/
def switchRefused (s : State) : State := if switching s then flag0 (endSwitch s) F.ckCoreCtlSwRefused else s

theorem rd_switchRefused {s : State} {f : Fld} (hswitching : f.reg ≠ .ckCoreCtl ∨ f.lo + f.len ≤ 20 ∨ 21 ≤ f.lo)
    (hrefused : f.reg ≠ .ckCoreCtl ∨ f.lo + f.len ≤ 18 ∨ 19 ≤ f.lo) : rd (switchRefused s) f = rd s f := by
  rw [switchRefused]
  split
  next =>
    rw [flag0, rd_wr0_apart _ _ _ _ hrefused, show rd (endSwitch s) f = rd (wr0 s F.ckCoreCtlSwitching 0) f from rfl,
      rd_wr0_apart _ _ _ _ hswitching]
  next => rfl

theorem rdB_switchRefused_switching (s : State) :
    rdB (switchRefused s) F.ckCoreCtlSwitching = (rdB s F.ckCoreCtlSwitching && !switching s) := by
  rw [switchRefused]
  cases switching s with
  | true =>
    rw [if_pos rfl, flag0, rdB_wr0_apart _ _ _ _ (by decide), Bool.not_true, Bool.and_false]
    exact rdB_wr0_zero s F.ckCoreCtlSwitching (by decide)
  | false => rw [if_neg Bool.false_ne_true, Bool.not_false, Bool.and_true]

theorem rdB_switchRefused_refused {s : State} (h : switching s = true) : rdB (switchRefused s) F.ckCoreCtlSwRefused = true := by
  rw [switchRefused, if_pos h]
  exact rdB_flag0_same _ _ rfl (by decide)

/-- The flags that a trip leaves: the source that tripped is not READY. -/
theorem trip_flags_spec (s : State) {f : Fld} (hf : f = F.ckCoreCtlCorePllReady ∨ f = F.ckCoreCtlFallbackReady) :
    let x := flag0 (wr0 (switchRefused s) f 0) F.ckCoreCtlClkFault
    parked x = parked s ∧ rdB x F.ckCoreCtlClkFault = true
    ∧ rdB x F.ckCoreCtlSwitching = (rdB s F.ckCoreCtlSwitching && !switching s)
    ∧ rdB x f = false ∧ (switching s = true → rdB x F.ckCoreCtlSwRefused = true) := by
  have happart (g : Fld) (hfault : g.reg ≠ F.ckCoreCtlClkFault.reg ∨ g.lo + g.len ≤ 19 ∨ 20 ≤ g.lo)
      (hready : g.reg ≠ f.reg ∨ g.lo + g.len ≤ f.lo ∨ f.lo + f.len ≤ g.lo) :
      rdB (flag0 (wr0 (switchRefused s) f 0) F.ckCoreCtlClkFault) g = rdB (switchRefused s) g := by
    rw [flag0, rdB_wr0_apart _ _ _ _ hfault, rdB_wr0_apart _ _ _ _ hready]
  have hclear (hfits : f.lo + f.len ≤ 19) : rdB (flag0 (wr0 (switchRefused s) f 0) F.ckCoreCtlClkFault) f = false := by
    rw [flag0, rdB_wr0_apart _ _ _ _ (.inr (.inl hfits))]
    exact rdB_wr0_zero _ f (by omega)
  have hparked : rdB (switchRefused s) F.ckCoreCtlParked = rdB s F.ckCoreCtlParked :=
    congrArg (fun n => decide (n = 1)) (rd_switchRefused (by decide) (by decide))
  rcases hf with rfl | rfl <;>
  exact ⟨(happart F.ckCoreCtlParked (by decide) (by decide)).trans hparked, rdB_flag0_same _ _ rfl (by decide),
    (happart F.ckCoreCtlSwitching (by decide) (by decide)).trans (rdB_switchRefused_switching s), hclear (by decide),
    fun h => (happart F.ckCoreCtlSwRefused (by decide) (by decide)).trans (rdB_switchRefused_refused h)⟩

/-- What a trip of the core clock leaves (R422). -/
theorem coreTrip_spec {s : State} (h : parked s = false) (src : Nat) :
    rdB (coreTrip s src) F.ckCoreCtlClkFault = true
    ∧ rdB (coreTrip s src) F.ckCoreCtlSwitching = (rdB s F.ckCoreCtlSwitching && !switching s)
    ∧ rd (coreTrip s src) F.ckCoreCtlSrc = (if src = 0 ∧ rdB s F.ckCoreCtlFallbackReady then 1 else 2)
    ∧ rdB (coreTrip s src) (if src = 0 then F.ckCoreCtlCorePllReady else F.ckCoreCtlFallbackReady) = false
    ∧ (switching s = true → rdB (coreTrip s src) F.ckCoreCtlSwRefused = true) := by
  have htrip (f : Fld) (hf : f = if src = 0 then F.ckCoreCtlCorePllReady else F.ckCoreCtlFallbackReady) : coreTrip s src
      = runFrom (flag0 (wr0 (switchRefused s) f 0) F.ckCoreCtlClkFault) (if src = 0 ∧ rdB s F.ckCoreCtlFallbackReady then 1 else 2) := by
    rw [hf]
    rfl
  have hto : (if src = 0 ∧ rdB s F.ckCoreCtlFallbackReady then 1 else 2) < 4 := by split <;> decide
  obtain ⟨f, hf, hsel⟩ : ∃ f, (f = F.ckCoreCtlCorePllReady ∨ f = F.ckCoreCtlFallbackReady)
      ∧ f = if src = 0 then F.ckCoreCtlCorePllReady else F.ckCoreCtlFallbackReady := by
    refine ⟨_, ?_, rfl⟩
    split
    · exact .inl rfl
    · exact .inr rfl
  obtain ⟨hpark, hfault, hswitch, hready, hrefused⟩ := trip_flags_spec s hf
  rw [htrip f hsel, ← hsel]
  generalize (if src = 0 ∧ rdB s F.ckCoreCtlFallbackReady then 1 else 2) = src' at hto ⊢
  generalize flag0 (wr0 (switchRefused s) f 0) F.ckCoreCtlClkFault = x at hpark hfault hswitch hready hrefused ⊢
  have hrun := runFrom_spec (hpark.trans h) hto
  have hkeep (g : Fld) (hsrc : g.reg ≠ .ckCoreCtl ∨ 2 ≤ g.lo) (hparked : g.reg ≠ .ckCoreCtl ∨ g.lo + g.len ≤ 22 ∨ 23 ≤ g.lo) :
      rdB (runFrom x src') g = rdB x g := by
    rw [runFrom_of_running (hpark.trans h), rdB_wr0_apart _ _ _ _ hparked, rdB_wr0_apart _ _ _ _ (hsrc.imp_right .inr)]
  refine ⟨(hkeep _ (by decide) (by decide)).trans hfault, (hkeep _ (by decide) (by decide)).trans hswitch, hrun.1,
    (hkeep f ?_ ?_).trans hready, fun hs => (hkeep _ (by decide) (by decide)).trans (hrefused hs)⟩
  · rcases hf with rfl | rfl <;> decide
  · rcases hf with rfl | rfl <;> decide

/-- The fault of a group's PHY PLL is shown beside those before it (R423). -/
theorem rd_phyTrip (s : State) (g : Fin 12) :
    rd (phyTrip s g.val) F.ckStatusPhyFault = rd s F.ckStatusPhyFault ||| 2 ^ g.val :=
  rd_wr0_of_lt _ _ (Nat.or_lt_two_pow (fget_lt ..) (Nat.pow_lt_pow_right (by decide) g.isLt)) (by decide)

/-! ### Sources that become READY (R415, R436) -/

theorem execClockSourceReady_fallback {s : State} (hrun : s.power.fallbackRun = true) (hsupply : supplyOk s 3 = true) :
    exec (.clockSourceReady .fallback) s = .next (if s.power.phase = some .step3 then startStep4 (wr0 s F.ckCoreCtlFallbackReady 1)
      else wr0 s F.ckCoreCtlFallbackReady 1) :=
  congrArg Host.Outcome.next (if_pos ⟨hrun, hsupply⟩)

theorem execClockSourceReady_corePll {s : State} (hen : rdB s F.ckCoreCtlPllEn = true) (hsupply : supplyOk s 3 = true)
    (hlive : aonLive s = true) : exec (.clockSourceReady .corePll) s =
      .next (if s.power.phase = some .step5 then startStep5 (wr0 s F.ckCoreCtlCorePllReady 1) else wr0 s F.ckCoreCtlCorePllReady 1) :=
  congrArg Host.Outcome.next (if_pos ⟨hen, hsupply, hlive⟩)

theorem execClockSourceReady_phy {s : State} {g : Fin 12} (hrun : phyRuns s g.val = true) (hsupply : supplyOk s 3 = true) :
    exec (.clockSourceReady (.phy g)) s = .next (wr1 s F.cgPhyPllReady (4 * g.val) 1) :=
  congrArg Host.Outcome.next (if_pos ⟨hrun, hsupply⟩)

theorem execCorePllLockTimeout_of_lapse {s s1 : State} (hphase : s.power.phase = some .step5)
    (hlapse : lapse s (100 * usU + s.power.step3At) = some s1) : exec .corePllLockTimeout s = .next (startStep5 s1) := by
  have hexec : exec .corePllLockTimeout s = execCorePllLockTimeout s := rfl
  rw [hexec, execCorePllLockTimeout, if_pos hphase, hlapse]

theorem startStep5_of_locked {s : State} (h : rdB s F.ckCoreCtlCorePllReady = true) : startStep5 s = readyEntered (runFrom s 0) :=
  if_pos h

theorem startStep5_of_timeout {s : State} (h : rdB s F.ckCoreCtlCorePllReady = false) (hdue : 100 * usU + s.power.step3At ≤ s.clk) :
    startStep5 s = readyEntered (flag0 s F.ckCoreCtlPllNolock) := by
  rw [startStep5, if_neg (by rw [h]; exact Bool.false_ne_true), if_pos hdue]

/-- Settles O55: MULT and PLL_EN, then SRC; the end of a switch; trips; sources that become READY. -/
theorem clockRows : Obligations.ClockRows := by
  refine ⟨fun c a v s htakes hc => ?coreWrite, askPll_spec, askSource_spec,
    fun s hswitch => ⟨congrArg Host.Outcome.next (if_pos hswitch), rdB_wr0_zero s F.ckCoreCtlSwitching (by decide)⟩,
    fun s src hsrc hrun => runFrom_spec hrun hsrc, fun s hup hwatched hrun => ?trip,
    fun g s hrun => ⟨_, congrArg Host.Outcome.next (if_pos hrun), rfl, rd_phyTrip s g⟩,
    fun s => ⟨execClockSourceReady_fallback, execClockSourceReady_corePll, fun g => execClockSourceReady_phy⟩,
    fun s s1 => execCorePllLockTimeout_of_lapse, fun s => ⟨startStep5_of_locked, startStep5_of_timeout⟩⟩
  case coreWrite =>
    exact ⟨corePlain (answered s a (reg0 .ckCoreCtl) (v.setWidth 64)) (whole (reg0 .ckCoreCtl) (v.setWidth 64)),
      (exec_coreWrite htakes hc).trans (congrArg _ (writeCore_whole _ v)), rfl, fun f hf => rd_corePlain rfl hf⟩
  case trip =>
    exact ⟨coreTrip s (monitored s), congrArg Host.Outcome.next (if_pos ⟨hup, hwatched⟩), coreTrip_spec hrun (monitored s)⟩

end Sys2Proof.Machine
end

section
/-! MODE_CTL and PWR_REQ (R432–R434, R437, R438). -/

namespace Sys2Proof.Machine

/-! ### MODE_CTL (R433) -/

/-- The rows of MODE_CTL are the write of that register. -/
theorem exec_modeWrite {c : Instr} {a : Acc} {v : W32} {s : State} (htakes : Takes s (accessOf a (reg0 .modeCtl) true (v.setWidth 64)))
    (hc : c ∈ [.modeTargetReady a v, .modeTargetActive a v, .modeTargetStandby a v, .modeTargetOff a v, .modeTargetTest a v])
    (hwf : c.wellFormed = true) :
    exec c s = .next (writeMode (answered s a (reg0 .modeCtl) (v.setWidth 64)) (whole (reg0 .modeCtl) (v.setWidth 64))) := by
  have hrow : rowWrite c = some (a, reg0 .modeCtl, v.setWidth 64) := by
    simp only [List.mem_cons, List.not_mem_nil, or_false] at hc
    rcases hc with rfl | rfl | rfl | rfl | rfl <;> rfl
  exact (registerRowsWriteTheirRegister c s a _ _ hwf hrow).1 htakes

/-- The code that such a write carries. -/
theorem get_modeCtlTarget_whole (s : State) (v : W32) :
    (whole (reg0 .modeCtl) (v.setWidth 64)).get s F.modeCtlTarget = v.toNat % 8 := by
  rw [get_whole_rw _ _ _ _ (by decide) (by decide), Nat.pow_zero, Nat.div_one]
  rfl

theorem setTarget_of_busy {s : State} {t : Nat} (hnew : t ≠ modeCode s) (hbusy : rdB s F.modeCtlBusy = true) :
    setTarget s t = refuseMode s 5 := by
  rw [setTarget.eq_def, if_neg hnew, if_pos hbusy]

section
variable {s : State} {t : Nat} (hfree : ¬ rdB s F.modeCtlBusy = true)
include hfree

/-- From STANDBY the unit starts up, or goes OFF. -/
theorem setTarget_of_standby (hmode : s.power.mode = .standby) : setTarget s 2 = modeProgress (startUp (acceptMode s 2 none) false)
    ∧ setTarget s 0 = enterOff (acceptMode s 0 none) := by
  have hcode : modeCode s = 1 := by rw [modeCode, hmode]
  constructor
  · rw [setTarget.eq_def, if_neg (by omega), if_neg hfree, hmode]
    rfl
  · rw [setTarget.eq_def, if_neg (by omega), if_neg hfree, hmode]
    rfl

/-- From READY the unit goes to ACTIVE, to STANDBY when it is idle, and to TEST where the life cycle and a plan let it. -/
theorem setTarget_of_ready (hnew : t ≠ modeCode s) (hmode : s.power.mode = .ready) :
    (t = 3 → setTarget s t = modeProgress (acceptMode s 3 (some .toActive)))
    ∧ (t = 1 → setTarget s t = if unitIdle s then goStandby (frontEndsDown (acceptMode s 1 none)) else refuseMode s 3)
    ∧ (t = 5 → lcTest s = true → planOf s false ≠ [] → setTarget s t = modeProgress (acceptMode s 5 (some .toTest)))
    ∧ (t = 5 → lcTest s = false ∨ planOf s false = [] → setTarget s t = refuseMode s 4) := by
  refine ⟨?_, ?_, ?_, ?_⟩
  · rintro rfl
    rw [setTarget.eq_def, if_neg hnew, if_neg hfree, hmode]
    rfl
  · rintro rfl
    rw [setTarget.eq_def, if_neg hnew, if_neg hfree, hmode]
    rfl
  · rintro rfl htest hplan
    rw [setTarget.eq_def, if_neg hnew, if_neg hfree, hmode]
    exact if_neg (by simp [htest, hplan])
  · rintro rfl hno
    rw [setTarget.eq_def, if_neg hnew, if_neg hfree, hmode]
    exact if_pos (by simpa using hno)

/-- READY and ACTIVE are left for OFF, and ACTIVE for READY, with every channel quiet. -/
theorem setTarget_of_service (hnew : t ≠ modeCode s) (hmode : s.power.mode = .ready ∨ s.power.mode = .active)
    (ht : t = 0 ∨ (t = 2 ∧ s.power.mode = .active)) :
    (channelsQuiet s = false → setTarget s t = refuseMode s 2)
    ∧ (channelsQuiet s = true → t = 2 → setTarget s t = modeProgress (acceptMode s 2 (some .toReadyDrain)))
    ∧ (channelsQuiet s = true → t = 0 → setTarget s t = if unitIdle s then goOff (acceptMode s 0 none) else refuseMode s 3) := by
  rw [setTarget.eq_def, if_neg hnew, if_neg hfree]
  refine ⟨fun hnoise => ?_, ?_, ?_⟩
  · have hrefuse : ¬ channelsQuiet s = true := by rw [hnoise]; exact Bool.false_ne_true
    rcases ht with rfl | ⟨rfl, hactive⟩
    · rcases hmode with hmode | hmode <;> rw [hmode] <;> exact if_pos hrefuse
    · rw [hactive]
      exact if_pos hrefuse
  · rintro hquiet rfl
    have hactive : s.power.mode = .active := by simpa using ht
    rw [hactive]
    exact if_neg (not_not_intro hquiet)
  · rintro hquiet rfl
    have hoff : (if ¬ channelsQuiet s then refuseMode s 2 else if ¬ unitIdle s then refuseMode s 3 else goOff (acceptMode s 0 none))
        = if unitIdle s then goOff (acceptMode s 0 none) else refuseMode s 3 := by
      rw [if_neg (not_not_intro hquiet), ite_not]
    rw [← hoff]
    rcases hmode with hmode | hmode <;> rw [hmode] <;> rfl

/-- From TEST the unit starts up again, when no plan runs. -/
theorem setTarget_of_test (hnew : t ≠ modeCode s) (hmode : s.power.mode = .test) (ht : t = 2) : setTarget s t =
    if bistRunning s then refuseMode s 3 else modeProgress (startUp (unitDown (acceptMode s 2 none)) false) := by
  subst ht
  rw [setTarget.eq_def, if_neg hnew, if_neg hfree, hmode]
  rfl

/-- Any other code is refused. -/
theorem setTarget_of_other (hnew : t ≠ modeCode s) (hother : t = 4 ∨ 5 < t ∨ (s.power.mode = .active ∧ t ∉ [0, 2])
    ∨ (s.power.mode = .test ∧ t ≠ 2) ∨ (s.power.mode = .standby ∧ t ∉ [0, 2])) : setTarget s t = refuseMode s 1 := by
  have hnone : ∀ m u, (s.power.mode = m ∧ t = u) → (m, u) ∉ [(Mode.standby, 2), (.standby, 0), (.ready, 3), (.ready, 1),
      (.ready, 5), (.ready, 0), (.active, 0), (.active, 2), (.test, 2)] := by
    rintro m u ⟨rfl, rfl⟩ hin
    cases hm : s.power.mode <;> simp [hm] at hin hother <;> omega
  rw [setTarget.eq_def, if_neg hnew, if_neg hfree]
  split
  case h_1 hm | h_2 hm | h_3 hm | h_4 hm | h_5 hm | h_6 hm | h_7 hm | h_8 hm | h_9 hm =>
    exact absurd (by decide) (hnone _ _ ⟨hm, rfl⟩)
  case h_10 => rfl

end

/-- A refusal sets REFUSED and REASON, and nothing else. -/
theorem refuseMode_spec (s : State) (t : Nat) :
    rdB (refuseMode s t) F.modeCtlRefused = true ∧ rd (refuseMode s t) F.modeCtlReason = t % 16
    ∧ rd (refuseMode s t) F.modeCtlTarget = rd s F.modeCtlTarget ∧ refuseMode s t = { s with regs := (refuseMode s t).regs } := by
  refine ⟨?_, rd_wr0_same _ F.modeCtlReason t (by decide), ?_, rfl⟩
  · rw [refuseMode, rdB_wr0_apart _ _ _ _ (by decide)]
    exact rdB_flag0_same s _ rfl (by decide)
  · rw [refuseMode, rd_wr0_apart _ _ _ _ (by decide), flag0, rd_wr0_apart _ _ _ _ (by decide)]

/-- A transition begins with its TARGET, BUSY. -/
theorem acceptMode_spec (s : State) (t : Nat) (ph : Option Phase) :
    rd (acceptMode s t ph) F.modeCtlTarget = t % 8 ∧ rdB (acceptMode s t ph) F.modeCtlBusy = true := by
  have hregs (f : Fld) : rd (acceptMode s t ph) f = rd (wr0 (wr0 s F.modeCtlTarget t) F.modeCtlBusy 1) f := rfl
  constructor
  · rw [hregs, rd_wr0_apart _ _ _ _ (by decide)]
    exact rd_wr0_same s F.modeCtlTarget t (by decide)
  · rw [rdB, hregs]
    exact rdB_flag0_same _ F.modeCtlBusy rfl (by decide)

/-! ### PWR_REQ (R434, R502) -/

/-- A bit of a word's number is the word's bit. -/
theorem bitOf_toNat (w : W64) (i : Nat) : bitOf w.toNat i = w.getLsbD i := by
  rw [bitOf, Nat.shiftRight_eq_div_pow, BitVec.getLsbD, Nat.testBit_eq_decide_div_mod_eq]

/-- The bits of PWR_REQ that a write may change take the value's. -/
theorem bitOf_next_pwrReq (s : State) (v : W32) {d : Nat} (hd : d ∈ reqDomains) :
    bitOf ((whole (reg0 .pwrReq) (v.setWidth 64)).next s).toNat d = v.getLsbD d := by
  have hbits : ∀ d ∈ reqDomains, d < 32 ∧ (accMask .pwrReq .w1c).getLsbD d = false
      ∧ (accMask .pwrReq .rw).getLsbD d = true := by decide
  obtain ⟨hlow, hkeep, hset⟩ := hbits d hd
  have hval : (whole (reg0 .pwrReq) (v.setWidth 64)).val.getLsbD d = v.getLsbD d := by
    rw [whole, BitVec.getLsbD_setWidth, decide_eq_true (by omega), Bool.true_and]
  rw [bitOf_toNat, RegWrite.getLsbD_next _ _ (by omega), getLsbD_mask_whole _ _ hlow, hval,
    show (whole (reg0 .pwrReq) (v.setWidth 64)).reg.name = .pwrReq from rfl, hkeep, hset]
  simp

/-- A write of PWR_REQ clears its bits in descending order, and then sets its bits in ascending order. -/
theorem writePwrReq_whole (s : State) (v : W32) : writePwrReq s (whole (reg0 .pwrReq) (v.setWidth 64)) =
    reqDomains.foldl (fun s d => if v.getLsbD d = true ∧ bitOf (reqBits s) d = false then reqSet s d else s)
      (reqDomains.reverse.foldl (fun s d => if bitOf (reqBits s) d = true ∧ v.getLsbD d = false then reqClear s d else s) s) := by
  have hclear : reqDomains.reverse.foldl (fun x d => if bitOf (reqBits x) d
        ∧ ¬ bitOf ((whole (reg0 .pwrReq) (v.setWidth 64)).next s).toNat d then reqClear x d else x) s
      = reqDomains.reverse.foldl (fun x d => if bitOf (reqBits x) d = true ∧ v.getLsbD d = false then reqClear x d else x) s :=
    List.foldl_ext _ _ _ fun x d hd => by simp only [bitOf_next_pwrReq s v (List.mem_reverse.mp hd), Bool.not_eq_true]
  rw [writePwrReq, hclear]
  exact List.foldl_ext _ _ _ fun x d hd => by simp only [bitOf_next_pwrReq s v hd, Bool.not_eq_true]

theorem exec_pwrReqWrite {a : Acc} {v : W32} {s : State} (htakes : Takes s (accessOf a (reg0 .pwrReq) true (v.setWidth 64))) :
    exec (.pwrReqWrite a v) s
      = .next (writePwrReq (answered s a (reg0 .pwrReq) (v.setWidth 64)) (whole (reg0 .pwrReq) (v.setWidth 64))) :=
  (registerRowsWriteTheirRegister (.pwrReqWrite a v) s a _ _ rfl rfl).1 htakes

/-- A bit that is set powers its domain up in steady service, but for a group that HK0 powers (log entry 26). -/
theorem reqSet_spec (s : State) (d : Nat) :
    (steady s = true → hkOwns s d = false → reqSet s d = powerUpAll (setReq s d true) [d])
    ∧ (steady s = false ∨ hkOwns s d = true → reqSet s d = setReq s d true) :=
  ⟨fun hsteady hown => if_pos ⟨hsteady, by rw [hown]; exact Bool.false_ne_true⟩, fun hno => if_neg fun hboth => by
    rcases hno with hno | hno
    · exact Bool.false_ne_true (hno.symm.trans hboth.1)
    · exact hboth.2 hno⟩

/-- A bit that is cleared powers its domain down where R434 lets it (log entry 26). -/
theorem reqClear_spec (s : State) (d : Nat) :
    (steady s = false → reqClear s d = if d < 4 then flag0 s F.pwrStatusPwrRefused else setReq s d false)
    ∧ (steady s = true → mayClear s d = false → reqClear s d = flag0 s F.pwrStatusPwrRefused)
    ∧ (steady s = true → mayClear s d = true → hkOwns s d = false →
        reqClear s d = powerDown (unqueue (setReq s d false) d) d) := by
  refine ⟨fun hsteady => ?_, fun hsteady hmay => ?_, fun hsteady hmay hown => ?_⟩
  · simp only [reqClear, hsteady, Bool.false_eq_true, not_false_eq_true, if_true]
  · simp only [reqClear, hsteady, hmay, not_true_eq_false, if_false, Bool.false_eq_true, not_false_eq_true, if_true]
  · simp only [reqClear, hsteady, hmay, hown, not_true_eq_false, if_false, Bool.false_eq_true]

/-- Settles O53: TARGET by the mode in force, then PWR_REQ bit by bit. -/
theorem modeAndPowerRequests : Obligations.ModeAndPowerRequests := by
  refine ⟨fun c a v s htakes hc hwf => ?target, fun s t => ?requests, fun a v s htakes => ?pwrReq,
    fun s d _ => ⟨(reqSet_spec s d).1, (reqSet_spec s d).2, reqClear_spec s d⟩⟩
  case target =>
    rw [exec_modeWrite htakes hc hwf, writeMode, get_modeCtlTarget_whole]
  case requests =>
    obtain ⟨hrefused, hreason, htarget, hframe⟩ := refuseMode_spec s t
    refine ⟨fun hsame => by rw [setTarget.eq_def, if_pos hsame], setTarget_of_busy, fun hnew hidle => ?_, hrefused, hreason, htarget,
      hframe, acceptMode_spec s t⟩
    have hfree : ¬ rdB s F.modeCtlBusy = true := by rw [hidle]; exact Bool.false_ne_true
    exact ⟨setTarget_of_standby hfree, setTarget_of_ready hfree hnew, setTarget_of_service hfree hnew,
      setTarget_of_test hfree hnew, setTarget_of_other hfree hnew⟩
  case pwrReq =>
    rw [exec_pwrReqWrite htakes, writePwrReq_whole]
    rfl

end Sys2Proof.Machine
end

section
/-! The interrupt controller and the tallies (R47, R457–R462, R466, R467). -/

namespace Sys2Proof.Machine

/-! ### Fields of a register of a table, after a write of the whole register or of one field -/

/-- A value that fits a field of a table's register is read back whole. -/
theorem rd_wr1_of_lt (s : State) (f : Fld) (i : Nat) {v : Nat} (hv : v < 2 ^ f.len) (hfits : f.lo + f.len ≤ 64) :
    rd (wr1 s f i v) f i = v := by
  rw [rd_wr1_same s f i v hfits, Nat.mod_eq_of_lt hv]

/-- A flag of a table's register reads the bit that is written to it. -/
theorem rdB_wr1_bit (s : State) (f : Fld) (i : Nat) (b : Bool) (hlen : f.len = 1) (hlo : f.lo < 64) :
    rdB (wr1 s f i (bit b)) f i = b := by
  cases b with
  | true => exact rdB_flag1_same s f i hlen hlo
  | false => exact rdB_wr1_zero s f i (by omega)

theorem rdB_wr1_reg (s : State) (f g : Fld) (j v i : Nat) (h : g.reg ≠ f.reg) : rdB (wr1 s f j v) g i = rdB s g i :=
  congrArg (fun n => decide (n = 1)) (rd_wr1_reg s f g j v i h)

/-- An RW field takes the bits that a write has for it. -/
theorem RegWrite.get_rw (w : RegWrite) (s : State) (f : Fld) (hfits : f.lo + f.len ≤ 64)
    (hrw : ∀ b, f.lo ≤ b → b < f.lo + f.len → (accMask w.reg.name .rw).getLsbD b = true
      ∧ (accMask w.reg.name .w1c).getLsbD b = false ∧ w.mask.getLsbD b = true) : w.get s f = fget w.val f.lo f.len := by
  apply Nat.eq_of_testBit_eq
  intro n
  rw [RegWrite.get, testBit_fget, testBit_fget]
  by_cases hn : n < f.len
  · obtain ⟨hset, hkeep, hmask⟩ := hrw (f.lo + n) (by omega) (by omega)
    rw [RegWrite.getLsbD_next _ _ (by omega), hset, hkeep, hmask]
    simp
  · simp [hn]

/-- The bits of a number as a field. -/
theorem fget_setWidth (v : W32) (lo len : Nat) : fget (v.setWidth 64) lo len = v.toNat / 2 ^ lo % 2 ^ len := by
  have hfits : (v.setWidth 64).toNat = v.toNat := by
    rw [BitVec.toNat_setWidth]
    exact Nat.mod_eq_of_lt (Nat.lt_of_lt_of_le v.isLt (by decide))
  rw [fget, BitVec.toNat_ushiftRight, hfits, Nat.shiftRight_eq_div_pow]

/-! ### The lowest source that is pending (R459, R460) -/

/-- The lowest number of a list that passes a test, or the bound. -/
theorem foldl_min_spec (p : Nat → Bool) (l : List Nat) (b : Nat) :
    let m := l.foldl (fun m n => if p n then min m n else m) b
    (m = b ∨ p m = true) ∧ m ≤ b ∧ ∀ n ∈ l, p n = true → m ≤ n := by
  induction l generalizing b with
  | nil => exact ⟨.inl rfl, le_refl b, fun n hn => absurd hn List.not_mem_nil⟩
  | cons x xs ih =>
    rw [List.foldl_cons]
    cases hx : p x with
    | false =>
      rw [if_neg Bool.false_ne_true]
      obtain ⟨hm, hb, hle⟩ := ih b
      refine ⟨hm, hb, fun n hn hp => ?_⟩
      rcases List.mem_cons.mp hn with rfl | hn
      · exact absurd (hx.symm.trans hp) Bool.false_ne_true
      · exact hle n hn hp
    | true =>
      rw [if_pos rfl]
      obtain ⟨hm, hb, hle⟩ := ih (min b x)
      refine ⟨?_, by omega, fun n hn hp => ?_⟩
      · rcases hm with hm | hm
        · rcases Nat.le_total b x with h | h
          · exact .inl (hm.trans (Nat.min_eq_left h))
          · exact .inr (by rw [hm, Nat.min_eq_right h]; exact hx)
        · exact .inr hm
      · rcases List.mem_cons.mp hn with rfl | hn
        · omega
        · exact hle n hn hp

/-- A source that is pending has a register that differs from reset. -/
theorem mem_irqListed_of_pending {s : State} {n : Nat} (h : rdB s F.icSrcPending n = true) : n ∈ irqListed s := by
  by_contra hnone
  have hkey : (⟨.icSrc, n, 0, 0⟩ : Reg) ∉ s.regs.map (fun e => e.1) := by
    intro hin
    obtain ⟨e, he, hkey⟩ := List.mem_map.mp hin
    exact hnone (List.mem_filterMap.mpr ⟨e, he, by rw [hkey]; rfl⟩)
  have hreset : rdB s F.icSrcPending n = false := by
    have hword : (RegName.row .icSrc).resetWord = 0 := by decide
    rw [rdB, rd, getR, Tab.get_of_not_mem hkey, show resetVal ⟨.icSrc, n, 0, 0⟩ = (RegName.row .icSrc).resetWord from rfl, hword]
    decide
  exact Bool.false_ne_true (hreset.symm.trans h)

theorem irqLowest_spec (s : State) (t : Nat) (h : irqLowest s t ≠ 0x3ff) :
    irqPendFor s t (irqLowest s t) = true ∧ irqLowest s t < 0x3ff ∧ ∀ m, irqPendFor s t m = true → irqLowest s t ≤ m := by
  obtain ⟨hpend, hbound, hleast⟩ := foldl_min_spec (irqPendFor s t) (irqListed s) 0x3ff
  refine ⟨hpend.resolve_left h, Nat.lt_of_le_of_ne hbound h, fun m hm => hleast m (mem_irqListed_of_pending ?_) hm⟩
  simp only [irqPendFor, Bool.and_eq_true] at hm
  exact hm.1.1

/-! ### Claims and completions (R460, R461) -/

/-- A claim is answered the lowest source that is pending, with the effect of the claim. -/
theorem exec_icClaimRead {a : Acc} {t : Fin 8} {s : State} (h : Takes s (accessOf a (reg1 .icClaim t.val) false 0)) :
    exec (.icClaimRead a t) s = .next (answer (irqClaim { s with freeCtr := s.freeCtr + 1 } t.val).2
      (accessOf a (reg1 .icClaim t.val) false 0) .fresh rOkay (BitVec.ofNat 64 (irqLowest s t.val))) := by
  have hat : regAt (regAddr (reg1 .icClaim t.val)) = some (reg1 .icClaim t.val) :=
    regAt_regAddr_reg1 rfl (st := 32) (by decide) (by decide) t.isLt
  have haddr : regAddr (reg1 .icClaim t.val) = 135168 + 32 * t.val := rfl
  have htouched := touched_accessOf_narrow a (reg1 .icClaim t.val) false 0 hat rfl (by omega) (by omega)
  have hpart : readPart s (accessOf a (reg1 .icClaim t.val) false 0) (reg1 .icClaim t.val, .all 0)
      = (BitVec.ofNat 64 (irqLowest s t.val), (irqClaim { s with freeCtr := s.freeCtr + 1 } t.val).2) := by
    rw [readPart, readAll]
    simp only [reg1, BitVec.shiftLeft_zero]
    rfl
  calc exec (.icClaimRead a t) s = .next (hostAccess s (accessOf a (reg1 .icClaim t.val) false 0)) := rfl
    _ = _ := by rw [hostAccess_readPart h rfl htouched, hpart]

theorem irqClaim_of_none {s : State} {t : Nat} (h : irqLowest s t = 0x3ff) : (irqClaim s t).2 = s := by
  rw [irqClaim, if_pos h]

/-- A source that is claimed is in service, and no longer pending. -/
theorem irqClaim_of_some {s : State} {t : Nat} (h : irqLowest s t ≠ 0x3ff) (hlt : irqLowest s t < 0x3ff) :
    (irqClaim s t).2 = { s with regs := (irqClaim s t).2.regs }
    ∧ rdB (irqClaim s t).2 F.icSrcPending (irqLowest s t) = false ∧ rdB (irqClaim s t).2 F.icSrcInService (irqLowest s t) = true
    ∧ rd (irqClaim s t).2 F.icTgtStatusInService t = irqLowest s t := by
  rw [irqClaim, if_neg h]
  generalize irqLowest s t = n at hlt
  refine ⟨rfl, ?_, ?_, rd_wr1_of_lt _ F.icTgtStatusInService t (Nat.lt_of_lt_of_le hlt (by decide)) (by decide)⟩
  · rw [rdB_wr1_reg _ _ _ _ _ _ (by decide), rdB_wr1_other _ _ _ _ _ (by decide)]
    exact rdB_wr1_zero s F.icSrcPending n (by decide)
  · rw [rdB_wr1_reg _ _ _ _ _ _ (by decide)]
    exact rdB_flag1_same _ F.icSrcInService n rfl (by decide)

/-- The write of a register of a shared region is the owner half's (R19). -/
theorem written_of_shared {a : Acc} {s : State} {w : RegWrite} (h : inShared (regAddr w.reg) = true) :
    written a s w = sharedWrite s w := if_pos h

theorem written_of_range {a : Acc} {s : State} {n : RegName} {k : Nat} {v : W64} (hlow : 0x20000 ≤ regAddr (reg1 n k))
    (hhigh : regAddr (reg1 n k) < 0x70000) : written a s (whole (reg1 n k) v) = sharedWrite s (whole (reg1 n k) v) :=
  written_of_shared (by simpa [inShared, whole] using ⟨hlow, hhigh⟩)

theorem exec_icCompleteWrite {a : Acc} {t : Fin 8} {v : W32} {s : State}
    (h : Takes s (accessOf a (reg1 .icComplete t.val) true (v.setWidth 64))) : exec (.icCompleteWrite a t v) s =
      .next (irqComplete (answered s a (reg1 .icComplete t.val) (v.setWidth 64)) t.val (v.toNat % 1024)) := by
  have haddr : regAddr (reg1 .icComplete t.val) = 135172 + 32 * t.val := rfl
  have hsource : fget (v.setWidth 64) 0 10 = v.toNat % 1024 := by
    rw [fget_setWidth, Nat.pow_zero, Nat.div_one]
    rfl
  rw [(registerRowsWriteTheirRegister (.icCompleteWrite a t v) s a _ _ rfl rfl).1 h, written_of_range (by omega) (by omega), ← hsource]
  rfl

/-- The source in service ends its service; a level source shows its input again. -/
theorem irqComplete_of_inService {s : State} {t n : Nat} (h : rd s F.icTgtStatusInService t = n) (hn : n ≠ 0x3ff) :
    irqComplete s t n = { s with regs := (irqComplete s t n).regs }
    ∧ rdB (irqComplete s t n) F.icSrcInService n = false ∧ rd (irqComplete s t n) F.icTgtStatusInService t = 0x3ff
    ∧ rd (irqComplete s t n) F.icSrcPending n = (if rd s F.icSrcSense n = 0 then rd s F.icSrcInput n else rd s F.icSrcPending n) := by
  have hinput : rd s F.icSrcInput n < 2 ^ 1 := fget_lt ..
  have hstatus : rd (wr1 (wr1 s F.icSrcInService n 0) F.icTgtStatusInService t 0x3ff) F.icTgtStatusInService t = 0x3ff :=
    rd_wr1_of_lt _ F.icTgtStatusInService t (by decide) (by decide)
  have hservice : rdB (wr1 (wr1 s F.icSrcInService n 0) F.icTgtStatusInService t 0x3ff) F.icSrcInService n = false := by
    rw [rdB_wr1_reg _ _ _ _ _ _ (by decide)]
    exact rdB_wr1_zero s F.icSrcInService n (by decide)
  rw [irqComplete, if_pos ⟨h, hn⟩]
  cases hsense : decide (rd s F.icSrcSense n = 0) with
  | true =>
    have hlevel := of_decide_eq_true hsense
    simp only [hlevel, if_true]
    refine ⟨rfl, ?_, ?_, rd_wr1_of_lt _ F.icSrcPending n hinput (by decide)⟩
    · rw [rdB_wr1_other _ _ _ _ _ (by decide), hservice]
    · rw [rd_wr1_reg _ _ _ _ _ _ (by decide), hstatus]
  | false =>
    simp only [of_decide_eq_false hsense, if_false]
    refine ⟨rfl, hservice, hstatus, ?_⟩
    rw [rd_wr1_reg _ _ _ _ _ _ (by decide), rd_wr1_other _ _ _ _ _ (by decide)]

theorem irqComplete_of_other {s : State} {t n : Nat} (h : rd s F.icTgtStatusInService t ≠ n ∨ n = 0x3ff) :
    irqComplete s t n = flag1 s F.icTgtStatusCompleteErr t :=
  if_neg fun hboth => h.elim (fun hne => hne hboth.1) hboth.2

/-! ### Sources (R458, R462) -/

/-- Both rows of IC_SRC are one write, as the controller takes it (log entry 86). -/
theorem exec_icSrcWrite {a : Acc} {n : Fin 512} {v : W32} {s : State} {c : Instr}
    (h : Takes s (accessOf a (reg1 .icSrc n.val) true (v.setWidth 64)))
    (hc : c ∈ [Instr.icSenseWrite a n v, if v.getLsbD 19 then .icForceWrite a n v else .icSenseWrite a n v]) :
    exec c s = .next (irqSrcWrite (answered s a (reg1 .icSrc n.val) (v.setWidth 64)) n.val (v.setWidth 64)) := by
  have haddr : regAddr (reg1 .icSrc n.val) = 131072 + 4 * n.val := rfl
  have hrow : c.wellFormed = true ∧ rowWrite c = some (a, reg1 .icSrc n.val, v.setWidth 64) := by
    cases hforce : v.getLsbD 19 with
    | true =>
      simp only [hforce, if_true, List.mem_cons, List.not_mem_nil, or_false] at hc
      rcases hc with rfl | rfl
      · exact ⟨rfl, rfl⟩
      · exact ⟨hforce, rfl⟩
    | false =>
      simp only [hforce, Bool.false_eq_true, if_false, List.mem_cons, List.not_mem_nil, or_false, or_self] at hc
      subst hc
      exact ⟨rfl, rfl⟩
  rw [(registerRowsWriteTheirRegister c s a _ _ hrow.1 hrow.2).1 h, written_of_range (by omega) (by omega)]
  rfl

/-- SENSE and TARGETS are taken, and PENDING follows the input of a level source, or FORCE (log entry 86). -/
theorem irqSrcWrite_spec (s : State) (n : Nat) (v : W32) : let x := irqSrcWrite s n (v.setWidth 64)
    x = { s with regs := x.regs } ∧ rd x F.icSrcSense n = v.toNat % 4 ∧ rd x F.icSrcTargets n = v.toNat / 256 % 256
    ∧ rdB x F.icSrcPending n = (if v.toNat % 4 = 0 then rdB s F.icSrcInput n && !rdB s F.icSrcInService n else v.getLsbD 19)
    ∧ rd x F.icSrcInService n = rd s F.icSrcInService n := by
  have hsense : fget (v.setWidth 64) 0 2 = v.toNat % 4 := by
    rw [fget_setWidth, Nat.pow_zero, Nat.div_one]
    rfl
  have htargets : fget (v.setWidth 64) 8 8 = v.toNat / 256 % 256 := fget_setWidth v 8 8
  have hforce : fget (v.setWidth 64) 19 1 = bit (v.getLsbD 19) := by
    rw [fget_one, BitVec.getLsbD_setWidth]
    cases v.getLsbD 19 <;> rfl
  obtain ⟨b, hb, hx⟩ : ∃ b, b = (if v.toNat % 4 = 0 then rdB s F.icSrcInput n && !rdB s F.icSrcInService n else v.getLsbD 19)
      ∧ irqSrcWrite s n (v.setWidth 64)
        = wr1 (wr1 (wr1 s F.icSrcSense n (v.toNat % 4)) F.icSrcTargets n (v.toNat / 256 % 256)) F.icSrcPending n (bit b) := by
    refine ⟨_, rfl, ?_⟩
    rw [irqSrcWrite, hsense, htargets, hforce]
    split <;> rfl
  rw [hx, ← hb]
  refine ⟨rfl, ?_, ?_, rdB_wr1_bit _ F.icSrcPending n b rfl (by decide), ?_⟩
  · rw [rd_wr1_other _ _ _ _ _ (by decide), rd_wr1_other _ _ _ _ _ (by decide)]
    exact rd_wr1_of_lt s F.icSrcSense n (Nat.mod_lt _ (by decide)) (by decide)
  · rw [rd_wr1_other _ _ _ _ _ (by decide)]
    exact rd_wr1_of_lt _ F.icSrcTargets n (Nat.mod_lt _ (by decide)) (by decide)
  · rw [rd_wr1_other _ _ _ _ _ (by decide), rd_wr1_other _ _ _ _ _ (by decide), rd_wr1_other _ _ _ _ _ (by decide)]

/-- The sampled level of an edge source makes the edge that it senses. -/
def edgeSeen (s : State) (n : Nat) (v : Bool) : Prop :=
  (rd s F.icSrcSense n = 1 ∧ rdB s F.icSrcInput n = false ∧ v = true)
    ∨ (rd s F.icSrcSense n = 2 ∧ rdB s F.icSrcInput n = true ∧ v = false)
    ∨ (rd s F.icSrcSense n = 3 ∧ rdB s F.icSrcInput n ≠ v)

theorem irqSample_of_level {s : State} {n : Nat} (v : Bool) (h : rd s F.icSrcSense n = 0) : irqSample s n v =
    wr1 (wr1 s F.icSrcInput n (bit v)) F.icSrcPending n (bit (v && !rdB s F.icSrcInService n)) := by
  simp only [irqSample, h]

theorem irqSample_of_edge {s : State} {n : Nat} {v : Bool} (h : edgeSeen s n v) :
    irqSample s n v = flag1 (wr1 s F.icSrcInput n (bit v)) F.icSrcPending n := by
  rcases h with ⟨hsense, hwas, rfl⟩ | ⟨hsense, hwas, rfl⟩ | ⟨hsense, hne⟩
  · simp [irqSample, hsense, hwas]
  · simp [irqSample, hsense, hwas]
  · simp only [irqSample, hsense]
    exact if_pos hne

theorem irqSample_of_noEdge {s : State} {n : Nat} {v : Bool} (hedge : rd s F.icSrcSense n ≠ 0) (h : ¬ edgeSeen s n v) :
    irqSample s n v = wr1 s F.icSrcInput n (bit v) := by
  have hlt : rd s F.icSrcSense n < 2 ^ 2 := fget_lt ..
  obtain hsense | hsense | hsense : rd s F.icSrcSense n = 1 ∨ rd s F.icSrcSense n = 2 ∨ rd s F.icSrcSense n = 3 := by omega
  all_goals simp only [irqSample, hsense]
  · exact if_neg fun hrise => h (.inl ⟨hsense, by simpa using hrise⟩)
  · exact if_neg fun hfall => h (.inr (.inl ⟨hsense, by simpa using hfall⟩))
  · exact if_neg fun hne => h (.inr (.inr ⟨hsense, hne⟩))

/-- A source is sampled: PENDING of a level source is its input out of service, and that of an edge source sets at its edge
(R458, log entry 85). -/
theorem irqSample_spec (s : State) (n : Nat) (v : Bool) :
    rdB (irqSample s n v) F.icSrcInput n = v ∧ irqSample s n v = { s with regs := (irqSample s n v).regs }
      ∧ (rd s F.icSrcSense n = 0 → rdB (irqSample s n v) F.icSrcPending n = (v && !rdB s F.icSrcInService n))
      ∧ (edgeSeen s n v → rdB (irqSample s n v) F.icSrcPending n = true)
      ∧ (rd s F.icSrcSense n ≠ 0 → ¬ edgeSeen s n v → rdB (irqSample s n v) F.icSrcPending n = rdB s F.icSrcPending n) := by
  have hinput : rdB (wr1 s F.icSrcInput n (bit v)) F.icSrcInput n = v := rdB_wr1_bit s F.icSrcInput n v rfl (by decide)
  have hinput' (b : Nat) : rdB (wr1 (wr1 s F.icSrcInput n (bit v)) F.icSrcPending n b) F.icSrcInput n = v :=
    (rdB_wr1_other _ _ _ _ _ (by decide)).trans hinput
  have hframe : irqSample s n v = { s with regs := (irqSample s n v).regs } ∧ rdB (irqSample s n v) F.icSrcInput n = v := by
    by_cases hlevel : rd s F.icSrcSense n = 0
    · rw [irqSample_of_level v hlevel]
      exact ⟨rfl, hinput' _⟩
    · by_cases hedge : edgeSeen s n v
      · rw [irqSample_of_edge hedge]
        exact ⟨rfl, hinput' 1⟩
      · rw [irqSample_of_noEdge hlevel hedge]
        exact ⟨rfl, hinput⟩
  refine ⟨hframe.2, hframe.1, fun hlevel => ?_, fun hedge => ?_, fun hlevel hnone => ?_⟩
  · rw [irqSample_of_level v hlevel]
    exact rdB_wr1_bit _ F.icSrcPending n _ rfl (by decide)
  · rw [irqSample_of_edge hedge]
    exact rdB_flag1_same _ F.icSrcPending n rfl (by decide)
  · rw [irqSample_of_noEdge hlevel hnone]
    exact rdB_wr1_other _ _ _ _ _ (by decide)

/-- COAL_TIME past the first receipt sets IRQ_PEND of its pair (R47). -/
theorem execCoalTimeExpiry_of_lapse {k : Fin 256} {s s1 : State} {t : Nat} (hfirst : (getRing s k.val).firstAt = some t)
    (hevery : rdB s F.ringCfgIrqEvery k.val = true) (htime : rd s F.irqCoalCoalTime k.val ≠ 0) (hup : domUp s dHk = true)
    (hlapse : lapse s (t + usU * rd s F.irqCoalCoalTime k.val) = some s1) :
    exec (.coalTimeExpiry k) s = .next (flag1 s1 F.ringStatusIrqPend k.val) := by
  have hexec : exec (.coalTimeExpiry k) s = execCoalTimeExpiry k s := rfl
  rw [hexec, execCoalTimeExpiry, hfirst]
  simp only [hlapse]
  exact if_pos ⟨hevery, htime, hup⟩

/-! ### Tallies (R466, R467) -/

/-- COUNT takes the value that is written to it. -/
theorem exec_tallyCountWrite {a : Acc} {i : Fin 64} {v : W64} {s : State} (h : Takes s (accessOf a (reg1 .tallyVal i.val) true v)) :
    exec (.tallyCountWrite a i v) s
      = .next ((whole (reg1 .tallyVal i.val) v).plain (answered s a (reg1 .tallyVal i.val) v)) := by
  have haddr : regAddr (reg1 .tallyVal i.val) = 196616 + 16 * i.val := rfl
  rw [(registerRowsWriteTheirRegister (.tallyCountWrite a i v) s a _ _ rfl rfl).1 h, written_of_range (by omega) (by omega)]
  rfl

theorem rd_tallyVal_plain (s : State) (i : Nat) (v : W64) :
    rd ((whole (reg1 .tallyVal i) v).plain s) F.tallyValCount i = v.toNat % 2 ^ 48 := by
  have hbits : ∀ b, 0 ≤ b → b < 0 + 48 → (accMask .tallyVal .rw).getLsbD b = true ∧ (accMask .tallyVal .w1c).getLsbD b = false
      ∧ (~~~0#64).getLsbD b = true := by decide
  calc rd ((whole (reg1 .tallyVal i) v).plain s) F.tallyValCount i
    _ = (whole (reg1 .tallyVal i) v).get s F.tallyValCount := rd_plain (whole (reg1 .tallyVal i) v) s F.tallyValCount rfl
    _ = fget v 0 48 := RegWrite.get_rw (whole (reg1 .tallyVal i) v) s F.tallyValCount (by decide) hbits
    _ = v.toNat % 2 ^ 48 := by rw [fget, BitVec.ushiftRight_zero]

/-- The counts of the first tallies, copied to their snapshot. -/
def countsCopied (s : State) (n : Nat) : State := forNat n (fun s i => wr1 s F.tallySnapCount i (rd s F.tallyValCount i)) s

theorem countsCopied_succ (s : State) (n : Nat) :
    countsCopied s (n + 1) = wr1 (countsCopied s n) F.tallySnapCount n (rd (countsCopied s n) F.tallyValCount n) := by
  simp [countsCopied, forNat, List.range_succ]

/-- Copying leaves the counts, and what is copied is the counts. -/
theorem countsCopied_spec (s : State) (n : Nat) : (∀ i, rd (countsCopied s n) F.tallyValCount i = rd s F.tallyValCount i)
    ∧ ∀ i < n, rd (countsCopied s n) F.tallySnapCount i = rd s F.tallyValCount i := by
  induction n with
  | zero => exact ⟨fun _ => rfl, fun i hi => absurd hi (Nat.not_lt_zero i)⟩
  | succ n ih =>
    obtain ⟨hcount, hsnap⟩ := ih
    rw [countsCopied_succ]
    refine ⟨fun i => (rd_wr1_reg _ _ _ _ _ _ (by decide)).trans (hcount i), fun i hi => ?_⟩
    rcases Nat.lt_succ_iff_lt_or_eq.mp hi with hlt | rfl
    · exact (rd_wr_reg _ F.tallySnapCount F.tallySnapCount n 0 0 i 0 0 _ (.inr (.inl hlt.ne))).trans (hsnap i hlt)
    · exact (rd_wr1_of_lt _ F.tallySnapCount i (fget_lt _ 0 48) (by decide)).trans (hcount i)

/-- A snapshot copies the counts and the tick, and says so. -/
theorem tallySnapshot_spec (s : State) : rdB (tallySnapshot s) F.tallySnapCtlSnapDone = true
    ∧ rd (tallySnapshot s) F.tallySnapTickTick = fineTick s
    ∧ ∀ i, i < 64 → rd (tallySnapshot s) F.tallySnapCount i = rd s F.tallyValCount i
      ∧ rd (tallySnapshot s) F.tallyValCount i = rd s F.tallyValCount i := by
  have hshot : tallySnapshot s = flag0 (wr0 (countsCopied s 64) F.tallySnapTickTick (fineTick s)) F.tallySnapCtlSnapDone := by
    simp only [tallySnapshot, countsCopied]
  obtain ⟨hcount, hsnap⟩ := countsCopied_spec s 64
  have hkept (f : Fld) (i : Nat) (hctl : f.reg ≠ .tallySnapCtl) (htick : f.reg ≠ .tallySnapTick) :
      rd (tallySnapshot s) f i = rd (countsCopied s 64) f i := by
    rw [hshot, flag0, rd_wr0_reg _ _ _ _ _ hctl, rd_wr0_reg _ _ _ _ _ htick]
  refine ⟨rdB_flag0_same _ F.tallySnapCtlSnapDone rfl (by decide), ?_, fun i hi => ⟨?_, ?_⟩⟩
  · rw [hshot, flag0, rd_wr0_reg _ _ _ _ _ (by decide)]
    exact rd_wr0_of_lt _ F.tallySnapTickTick (Nat.mod_lt _ (by decide)) (by decide)
  · exact (hkept _ _ (by decide) (by decide)).trans (hsnap i hi)
  · exact (hkept _ _ (by decide) (by decide)).trans (hcount i)

/-- SNAP_NOW written 1 takes a snapshot. -/
theorem exec_snapNowWrite {a : Acc} {v : W32} {s : State} (h : Takes s (accessOf a (reg0 .tallySnapCtl) true (v.setWidth 64)))
    (hnow : v.getLsbD 0 = true) : exec (.snapNowWrite a v) s = .next (tallySnapshot
      ((whole (reg0 .tallySnapCtl) (v.setWidth 64)).plain (answered s a (reg0 .tallySnapCtl) (v.setWidth 64)))) := by
  have hshared : inShared (regAddr (reg0 .tallySnapCtl)) = true := by decide
  have hone : (whole (reg0 .tallySnapCtl) (v.setWidth 64)).one F.tallySnapCtlSnapNow = true :=
    (one_whole _ v F.tallySnapCtlSnapNow (by decide)).trans hnow
  rw [(registerRowsWriteTheirRegister (.snapNowWrite a v) s a _ _ hnow rfl).1 h, written_of_shared hshared]
  exact congrArg Host.Outcome.next (if_pos hone)

/-- Settles O42: claims, completions, sources, coalescing, and the tallies. -/
theorem interruptsAndTallies : Obligations.InterruptsAndTallies := by
  refine ⟨fun a t s htakes => ⟨fun hnone => ?_, fun hsome => ?_⟩, fun a t v s htakes => ⟨fun hservice hn => ?_, fun hother => ?_⟩,
    fun a n v s htakes c hc => ?_, fun n v s hup hdrive => ?_, fun k s s1 t => execCoalTimeExpiry_of_lapse,
    fun a i v s htakes => ?_, fun a v s htakes hnow => ?_⟩
  · rw [exec_icClaimRead htakes, hnone, irqClaim_of_none (s := { s with freeCtr := s.freeCtr + 1 }) hnone]
    rfl
  · obtain ⟨hpend, hlt, hleast⟩ := irqLowest_spec s t.val hsome
    obtain ⟨hframe, hcleared, hservice, htarget⟩ := irqClaim_of_some (s := { s with freeCtr := s.freeCtr + 1 }) hsome hlt
    exact ⟨hpend, hleast, _, exec_icClaimRead htakes, hframe, hcleared, hservice, htarget⟩
  · obtain ⟨hframe, hended, hfree, hpending⟩ :=
      irqComplete_of_inService (s := answered s a (reg1 .icComplete t.val) (v.setWidth 64)) hservice hn
    exact ⟨_, exec_icCompleteWrite htakes, hended, hfree, hpending, hframe⟩
  · exact (exec_icCompleteWrite htakes).trans (congrArg _ (irqComplete_of_other hother))
  · obtain ⟨hframe, hsense, htargets, hpending, hservice⟩ :=
      irqSrcWrite_spec (answered s a (reg1 .icSrc n.val) (v.setWidth 64)) n.val v
    exact ⟨_, exec_icSrcWrite htakes hc, hframe, hsense, htargets, hpending, hservice⟩
  · exact ⟨_, congrArg Host.Outcome.next (if_pos ⟨hup, hdrive⟩), irqSample_spec s n.val v⟩
  · refine ⟨_, exec_tallyCountWrite htakes, rd_tallyVal_plain _ i.val v, fun n j l m hother => ?_⟩
    exact RegWrite.getR_plain_other _ _ fun heq => hother (by cases heq; exact ⟨rfl, rfl, rfl, rfl⟩)
  · obtain ⟨hdone, htick, hcounts⟩ := tallySnapshot_spec
      ((whole (reg0 .tallySnapCtl) (v.setWidth 64)).plain (answered s a (reg0 .tallySnapCtl) (v.setWidth 64)))
    have hkept (i : Nat) : rd ((whole (reg0 .tallySnapCtl) (v.setWidth 64)).plain
        (answered s a (reg0 .tallySnapCtl) (v.setWidth 64))) F.tallyValCount i = rd s F.tallyValCount i := by
      rw [rd, RegWrite.getR_plain_other _ _ (by rintro ⟨⟩)]
      rfl
    refine ⟨_, exec_snapNowWrite htakes hnow, hdone, htick, fun i hi => ?_⟩
    rw [← hkept i]
    exact hcounts i hi

end Sys2Proof.Machine
end

section
/-! PHY calibration (R442–R453): temperature, the order, the boundary and the end of a run, and writes of trims. -/

namespace Sys2Proof.Machine

/-! ### Groups -/

theorem getGroup_updGroup_same (s : State) (g : Nat) (f : Group → Group) : getGroup (updGroup s g f) g = f (getGroup s g) := by
  simp [getGroup]

/-- A new STATE of the calibration is shown; the registers, and the groups, are else those before. -/
theorem setCalState_regs (s : State) (g v : Nat) : (setCalState s g v).regs = (wr1 s F.calGrpStatusState g v).regs
    ∧ (setCalState s g v).groups = s.groups := by
  rw [setCalState]
  dsimp only
  split
  next => exact ⟨rfl, rfl⟩
  next =>
    split
    · exact ⟨rfl, rfl⟩
    · exact ⟨rfl, rfl⟩

theorem calState_setCalState (s : State) (g : Nat) {v : Nat} (hv : v < 8) : calState (setCalState s g v) g = v := by
  rw [calState, rd_congr (setCalState_regs s g v).1]
  exact rd_wr1_of_lt s F.calGrpStatusState g hv (by decide)

/-- The state of a group beside its registers shows no STATE. -/
theorem calState_updGroup (s : State) (g h : Nat) (f : Group → Group) : calState (updGroup s g f) h = calState s h := rfl

theorem calState_tally (s : State) (src g : Nat) : calState (tally s src) g = calState s g :=
  rd_tally s src F.calGrpStatusState g 0 0 (by decide) (by decide)

/-! ### Temperature (R444, R446) -/

/-- A reading inside the sensor's range is held whole (log entry 121). -/
theorem rdInt_sensed (s : State) (g : Nat) (t : BitVec 12) :
    rdInt (wr1 s F.calGrpStatusTemp g (sensed t)) F.calGrpStatusTemp g = max (-160) (min 600 t.toInt) := by
  have hfits : sensed t < 2 ^ F.calGrpStatusTemp.len := BitVec.isLt _
  rw [rdInt, rd_wr1_of_lt s F.calGrpStatusTemp g hfits (by decide), sensed]
  have hword (x : BitVec 12) : BitVec.ofNat F.calGrpStatusTemp.len x.toNat = x := BitVec.ofNat_toNat 12 x
  have hrange : Int.bmod (max (-160) (min 600 t.toInt)) 4096 = max (-160) (min 600 t.toInt) :=
    Int.bmod_eq_of_le (by omega) (by omega)
  rw [hword, BitVec.toInt_ofInt]
  exact hrange

/-- The state with a new reading, and OVER_ALERT as it follows. -/
def tempTaken (s : State) (g : Nat) (t : BitVec 12) : State :=
  wr1 (wr1 s F.calGrpStatusTemp g (sensed t)) F.calGrpStatusOverAlert g (bit (overAlert (wr1 s F.calGrpStatusTemp g (sensed t)) g))

theorem execTempUpdate_of_up {g : Fin 12} {t : BitVec 12} {s : State} (hup : domUp s (dCg g.val) = true) (hhk : domUp s dHk = true) :
    exec (.tempUpdate g t) s = .next (calEval (alertUpd (tempTaken s g.val t)) g.val) := by
  have hexec : exec (.tempUpdate g t) s = execTempUpdate g t s := rfl
  rw [hexec, execTempUpdate, if_pos hup]
  simp only [hhk, if_true]
  rfl

theorem tempTaken_spec (s : State) (g : Nat) (t : BitVec 12) : let c : Int := max (-160) (min 600 t.toInt)
    let lim : Int := 4 * (rd s F.calAlertAlertC : Nat)
    rdInt (tempTaken s g t) F.calGrpStatusTemp g = c ∧ rd (tempTaken s g t) F.calAlertAlertC = rd s F.calAlertAlertC
    ∧ rdB (tempTaken s g t) F.calGrpStatusOverAlert g
      = (decide (lim ≤ c) || (rdB s F.calGrpStatusOverAlert g && decide (lim - 8 < c))) := by
  have halert (x : State) (f : Fld) (v : Nat) (h : F.calAlertAlertC.reg ≠ f.reg) :
      rd (wr1 x f g v) F.calAlertAlertC = rd x F.calAlertAlertC := rd_wr1_reg x f F.calAlertAlertC g v 0 h
  refine ⟨?_, ?_, ?_⟩
  · rw [← rdInt_sensed s g t, rdInt, rdInt, tempTaken, rd_wr1_other _ _ _ _ _ (by decide)]
  · rw [tempTaken, halert _ _ _ (by decide), halert _ _ _ (by decide)]
  · rw [tempTaken, rdB_wr1_bit _ _ _ _ rfl (by decide), overAlert]
    simp only [rdInt_sensed, halert _ F.calGrpStatusTemp _ (by decide),
      rdB_wr1_other s F.calGrpStatusTemp F.calGrpStatusOverAlert g _ (by decide)]

/-- TEMP_ALERT_N changes, and nothing else. -/
theorem alertUpd_frame (s : State) : alertUpd s = { s with power := { s.power with alertLow := (alertUpd s).power.alertLow } } := by
  rw [alertUpd]
  dsimp only
  split
  · rfl
  · split
    · rfl
    · split <;> rfl

theorem sensors_alertUpd (s : State) : sensors (alertUpd s) = sensors s := by
  rw [alertUpd_frame]
  rfl

/-- TEMP_ALERT_N falls at a sensor that reads ALERT_C, and rises when every sensor reads 2 °C less (R408). -/
theorem alertUpd_low {s : State} (hhk : domUp s dHk = true) {c : Int} (hc : c ∈ sensors s)
    (h : 4 * (rd s F.calAlertAlertC : Int) ≤ c) : (alertUpd s).power.alertLow = true := by
  have hany : (sensors s).any (fun t => decide (4 * (rd s F.calAlertAlertC : Int) ≤ t)) = true :=
    List.any_eq_true.mpr ⟨c, hc, decide_eq_true h⟩
  rw [alertUpd, if_neg (not_not_intro hhk), if_pos hany]

theorem alertUpd_released {s : State} (hhk : domUp s dHk = true)
    (h : ∀ c ∈ sensors s, c + 8 ≤ 4 * (rd s F.calAlertAlertC : Int)) : (alertUpd s).power.alertLow = false := by
  have hnone : ¬ (sensors s).any (fun t => decide (4 * (rd s F.calAlertAlertC : Int) ≤ t)) = true := by
    rw [List.any_eq_true]
    rintro ⟨c, hc, hle⟩
    have := h c hc
    have := of_decide_eq_true hle
    omega
  have hall : (sensors s).all (fun t => decide (t + 8 ≤ 4 * (rd s F.calAlertAlertC : Int))) = true :=
    List.all_eq_true.mpr fun c hc => decide_eq_true (h c hc)
  rw [alertUpd, if_neg (not_not_intro hhk), if_neg hnone, if_pos hall]

/-! ### Orders, boundaries and runs (R445, R448, R449) -/

theorem calEval_of_steady {s : State} {g : Nat} (h : calWants s g = false) : calEval s g = s := by
  rw [calEval, h]
  simp

theorem calEval_of_wants {s : State} {g : Nat} (hhk : hk1Up s = true) (hwants : calWants s g = true)
    (hpending : (getGroup s g).calPending = false) (hrun : calState s g ≠ 3) (hretry : retryOver s g = true) :
    calEval s g = calOrder (raiseTrap s 14 1 0xa) g := by
  rw [calEval, hhk, hwants, hpending, hretry]
  simp [hrun]

/-- An order is pending; it waits, or goes on waiting FORCING for trims that are staged (R453). -/
theorem calOrder_spec {s : State} {g : Nat} (h : (chansOf g).any (trained s) = true) :
    (getGroup (calOrder s g) g).calPending = true
    ∧ calState (calOrder s g) g = if !(getGroup s g).staged.isEmpty && calState s g = 2 then 2 else 1 := by
  rw [calOrder, if_pos (.inl h)]
  refine ⟨by rw [getGroup_updGroup_same], ?_⟩
  rw [calState_updGroup]
  refine calState_setCalState s g ?_
  split <;> decide

theorem execCalRetryExpiry_of_lapse {g : Fin 12} {s s1 : State} {t : Nat} (huntil : (getGroup s g.val).retryUntil = some t)
    (hlapse : lapse s t = some s1) : exec (.calRetryExpiry g) s =
      .next (calEval (updGroup s1 g.val (fun x => { x with retryUntil := none })) g.val) := by
  have hexec : exec (.calRetryExpiry g) s = execCalRetryExpiry g s := rfl
  rw [hexec, execCalRetryExpiry, huntil]
  simp only [hlapse]

/-- A boundary is waited for, and may come. -/
def boundaryDue (s : State) (g : Nat) : Prop := calWaits s g = true ∧ hk1Up s = true ∧ warn s = false ∧ bringingUp s g = false

theorem execCalForcingTimeout_of_due {g : Fin 12} {s s1 : State} (h : boundaryDue s g.val) (hstate : calState s g.val < 2)
    (hlapse : lapse s (500 * usU + (getGroup s g.val).trigAt) = some s1) : exec (.calForcingTimeout g) s = .next (calForce s1 g.val) := by
  obtain ⟨hwaits, hhk, hwarn, hbring⟩ := h
  have hexec : exec (.calForcingTimeout g) s = execCalForcingTimeout g s := rfl
  rw [hexec, execCalForcingTimeout, if_pos ⟨hwaits, hstate, hhk, by rw [hwarn]; exact Bool.false_ne_true,
    by rw [hbring]; exact Bool.false_ne_true⟩, hlapse]

theorem calState_calForce (s : State) (g : Nat) : calState (calForce s g) g = 2 := by
  rw [calForce, calState_tally, calState_setCalState s g (by decide)]

theorem execCalBoundary_of_due {g : Fin 12} {s s1 : State} (h : boundaryDue s g.val) (hstate : calState s g.val ≠ 3)
    (hfree : boundaryFree s g.val = true) (hlapse : lapse s (usU + (getGroup s g.val).freeSince) = some s1) :
    exec (.calBoundary g) s = .next (atBoundary s1 g.val) := by
  obtain ⟨hwaits, hhk, hwarn, hbring⟩ := h
  have hexec : exec (.calBoundary g) s = execCalBoundary g s := rfl
  rw [hexec, execCalBoundary, if_pos ⟨hwaits, hstate, hhk, by rw [hwarn]; exact Bool.false_ne_true,
    by rw [hbring]; exact Bool.false_ne_true, hfree⟩, hlapse]

/-- At the boundary a run that is pending begins; else the group is IDLE. -/
theorem calState_atBoundary (s : State) (g : Nat) :
    ((getGroup (applyStaged s g) g).calPending = true → calState (atBoundary s g) g = 3)
    ∧ ((getGroup (applyStaged s g) g).calPending = false → calState (atBoundary s g) g = 0) := by
  constructor
  · intro hpending
    rw [atBoundary, if_pos hpending, calState_tally, calState_updGroup, calState_setCalState _ g (by decide)]
  · intro hnone
    rw [atBoundary, if_neg (by rw [hnone]; exact Bool.false_ne_true), calState_updGroup, calState_setCalState _ g (by decide)]

theorem execCalRunEnd_of_lapse {g : Fin 12} {r : List Trims} {s s1 : State} (hwf : (Instr.calRunEnd g r).wellFormed = true)
    (hrun : calState s g.val = 3) (hhk : hk1Up s = true)
    (hlapse : lapse s (24 * usU + (getGroup s g.val).trigAt) = some s1) : exec (.calRunEnd g r) s = .next (calFinish s1 g.val r) := by
  have hform : r.length = 4 ∧ r.all trimsOk = true := by
    have hboth : (decide (r.length = 4) && r.all trimsOk) = true := hwf
    simpa using hboth
  have hexec : exec (.calRunEnd g r) s = execCalRunEnd g r s := rfl
  rw [hexec, execCalRunEnd, if_pos hform, if_pos ⟨hrun, hhk⟩, hlapse]

/-! ### What a run finds on a channel (R451) -/

theorem calChannel_of_pass {s : State} {g c : Nat} {t : Trims} (h : ∀ x ∈ trimCodes s g c t, x.pass = true) :
    calChannel s g c t = putTrims s g c t := by
  have hnone : (trimCodes s g c t).find? (fun x => !x.pass) = none := by
    simpa using h
  rw [calChannel, hnone]

theorem getR_putTrims (s : State) (g c : Nat) (t : Trims) :
    getR (putTrims s g c t) .calDqRd g c = t.dqRd ∧ getR (putTrims s g c t) .calDqWr g c = t.dqWr := by
  simp [putTrims]

theorem calChannel_of_fail {s : State} {g c : Nat} {t : Trims} (h : ∃ x ∈ trimCodes s g c t, x.pass = false) :
    ∃ x, calChannel s g c t = calReject s g c x := by
  obtain ⟨x, hx, hfail⟩ := h
  cases hfound : (trimCodes s g c t).find? (fun x => !x.pass) with
  | none => exact absurd (List.find?_eq_none.mp hfound x hx) (by simp [hfail])
  | some y => exact ⟨y, by rw [calChannel, hfound]⟩

/-- A rejected channel keeps its trims. -/
theorem getR_calReject (s : State) (g c : Nat) (x : TrimCode) {n : RegName} (hstatus : n ≠ .calGrpStatus) (hinfo : n ≠ .calRejInfo)
    (i j : Nat) : getR (calReject s g c x) n i j = getR s n i j := by
  have hother (y : State) (f : Fld) (v : Nat) (hf : f.reg = .calGrpStatus ∨ f.reg = .calRejInfo) :
      getR (wr1 y f g v) n i j = getR y n i j := by
    refine getR_wr1_other y f g v fun heq => ?_
    rcases hf with hf | hf
    · exact hstatus (heq.1.trans hf)
    · exact hinfo (heq.1.trans hf)
  rw [calReject]
  rw [hother _ _ _ (.inl rfl), flag1, hother _ _ _ (.inl rfl)]
  split
  · rfl
  · rw [hother _ _ _ (.inr rfl), hother _ _ _ (.inr rfl), hother _ _ _ (.inr rfl), hother _ _ _ (.inr rfl)]

theorem rdB_calReject (s : State) (g c : Nat) (x : TrimCode) : rdB (calReject s g c x) F.calGrpStatusCalReject g = true := by
  rw [calReject]
  rw [rdB_wr1_other _ _ _ _ _ (by decide)]
  exact rdB_flag1_same _ F.calGrpStatusCalReject g rfl (by decide)

/-! ### Writes of trims (R453) -/

/-- A write of a trim register is the write of one channel's trims. -/
theorem exec_trimWrite {a : Acc} {t : TrimSel} {v : W64} {s : State}
    (h : Takes s (accessOf a ⟨trimName t.reg, t.g.val, t.c.val, 0⟩ true v)) : exec (.trimWrite a t v) s =
      .next (writeTrim (answered s a ⟨trimName t.reg, t.g.val, t.c.val, 0⟩ v) (whole ⟨trimName t.reg, t.g.val, t.c.val, 0⟩ v)) := by
  obtain ⟨g, c, n⟩ := t
  have hlocal : inShared (regAddr ⟨trimName n, g.val, c.val, 0⟩) = false := by
    have hbase : 0x70000 ≤ (trimName n).row.base := by cases n <;> decide
    have haddr : regAddr ⟨trimName n, g.val, c.val, 0⟩ = (trimName n).row.base + 1024 * g.val + 64 * c.val := by cases n <;> rfl
    simp only [inShared, Bool.and_eq_false_imp, decide_eq_true_eq, decide_eq_false_iff_not]
    omega
  have hwritten (x : State) : written a x (whole ⟨trimName n, g.val, c.val, 0⟩ v)
      = writeTrim x (whole ⟨trimName n, g.val, c.val, 0⟩ v) := by
    rw [written, show inShared (regAddr (whole ⟨trimName n, g.val, c.val, 0⟩ v).reg) = false from hlocal, if_neg Bool.false_ne_true]
    cases n <;> rfl
  rw [(registerRowsWriteTheirRegister (.trimWrite a ⟨g, c, n⟩ v) s a _ _ rfl rfl).1 h, hwritten]

/-- A write of a trim register writes its RW bits, over the value that is staged if there is one. -/
theorem writeTrim_whole (s : State) (t : TrimReg) (g c : Nat) (v : W64) : writeTrim s (whole ⟨trimName t, g, c, 0⟩ v)
    = trimPut s g c (trimIndex (trimName t)) (trimName t)
      ((Tab.get (getGroup s g).staged (c, trimIndex (trimName t)) (getR s (trimName t) g c) &&& ~~~(accMask (trimName t) .rw))
        ||| (v &&& accMask (trimName t) .rw)) := by
  have hbits : accMask (trimName t) .rw &&& (if (trimName t).row.wide then ~~~0 else 0xffffffff#64) = accMask (trimName t) .rw := by
    cases t <;> decide
  have hmask : accMask (trimName t) .rw &&& (whole ⟨trimName t, g, c, 0⟩ v).mask = accMask (trimName t) .rw := hbits
  rw [writeTrim]
  simp only [show (whole ⟨trimName t, g, c, 0⟩ v).reg = ⟨trimName t, g, c, 0⟩ from rfl, hmask]
  rfl

/-- A trim is ignored while its channel is brought up. -/
theorem trimPut_of_bringup {s : State} {g c : Nat} (reg : Nat) (n : RegName) (v : W64) (h : busState s (4 * g + c) = 1) :
    trimPut s g c reg n v = flag1 s F.calGrpStatusCalIgnored g := by
  simp only [trimPut, h]

/-- A trim of a channel that is neither brought up nor TRAINED is written. -/
theorem trimPut_of_free {s : State} {g c : Nat} (reg : Nat) (n : RegName) (v : W64) (h1 : busState s (4 * g + c) ≠ 1)
    (h3 : busState s (4 * g + c) ≠ 3) : trimPut s g c reg n v = setR s n g c 0 v := by
  rw [trimPut]
  split
  next h => exact absurd h h3
  next h => exact absurd h h1
  next => rfl

/-- A trim of a TRAINED channel is staged: its register stays, and STAGED shows the channel. -/
theorem trimPut_of_trained {s : State} {g c : Nat} (reg : Nat) {n : RegName} (v : W64) (h : busState s (4 * g + c) = 3) (hc : c < 4)
    (hn : n ≠ .calGrpStatus) : getR (trimPut s g c reg n v) n g c = getR s n g c
      ∧ (rd (trimPut s g c reg n v) F.calGrpStatusStaged g).testBit c = true := by
  have hregs : (trimPut s g c reg n v).regs = (wr1 s F.calGrpStatusStaged g (rd s F.calGrpStatusStaged g ||| 2 ^ c)).regs := by
    simp only [trimPut, h]
    rfl
  have hlt : rd s F.calGrpStatusStaged g ||| 2 ^ c < 2 ^ 4 :=
    Nat.or_lt_two_pow (fget_lt ..) (Nat.pow_lt_pow_right (by decide) hc)
  constructor
  · rw [getR, hregs]
    exact getR_wr1_other s _ g _ fun heq => hn heq.1
  · rw [rd_congr hregs, rd_wr1_of_lt s F.calGrpStatusStaged g hlt (by decide), Nat.testBit_or, Nat.testBit_two_pow_self, Bool.or_true]

/-- Settles O46: temperature, orders, the hold and the boundary, the end of a run, and trims that are written. -/
theorem calibrationEvents : Obligations.CalibrationEvents := by
  refine ⟨fun g t s => ⟨fun hdown => ?_, fun hup hhk => ?_⟩,
    fun s g => ⟨calEval_of_steady, calEval_of_wants, fun htrained => ?_⟩,
    fun g s s1 t => execCalRetryExpiry_of_lapse,
    fun g s s1 hwaits hhk hwarn hbring => ⟨fun hstate hlapse => ?_, fun hstate hfree hlapse => ?_⟩, calState_atBoundary, fun g r s s1 => execCalRunEnd_of_lapse, fun s g c t _ => ⟨fun hpass => ?_, fun hfail => ?_⟩,
    fun a t v s htakes => ?_⟩
  · exact if_neg (by rw [hdown]; exact Bool.false_ne_true)
  · obtain ⟨htemp, hlimit, hover⟩ := tempTaken_spec s g.val t
    have hregs : (alertUpd (tempTaken s g.val t)).regs = (tempTaken s g.val t).regs := by rw [alertUpd_frame]
    have hsensor : max (-160) (min 600 t.toInt) ∈ sensors (tempTaken s g.val t) :=
      List.mem_map.mpr ⟨g.val, List.mem_filter.mpr ⟨List.mem_range.mpr g.isLt, hup⟩, htemp⟩
    refine ⟨alertUpd (tempTaken s g.val t), execTempUpdate_of_up hup hhk, ?_, ?_, ?_, fun hle => ?_, fun hall => ?_⟩
    · rw [rdInt, rd_congr hregs]
      exact htemp
    · rw [hregs]
      exact alertUpd_frame (tempTaken s g.val t)
    · rw [rdB, rd_congr hregs]
      exact hover
    · exact alertUpd_low (s := tempTaken s g.val t) hhk hsensor (by rw [hlimit]; exact hle)
    · refine alertUpd_released (s := tempTaken s g.val t) hhk fun c hc => ?_
      rw [hlimit]
      exact hall c (by rwa [sensors_alertUpd])
  · obtain ⟨hpending, hstate⟩ := calOrder_spec htrained
    refine ⟨hpending, fun hno => hstate.trans (if_neg ?_), fun hforcing hstaged => hstate.trans (if_pos ?_)⟩
    · rcases hno with hno | hno
      · simp [hno]
      · simp [hno]
    · simp [hforcing, hstaged]
  · exact ⟨_, execCalForcingTimeout_of_due ⟨hwaits, hhk, hwarn, hbring⟩ hstate hlapse, calState_calForce s1 g.val⟩
  · exact execCalBoundary_of_due ⟨hwaits, hhk, hwarn, hbring⟩ hstate hfree hlapse
  · rw [calChannel_of_pass hpass]
    exact getR_putTrims s g c t
  · obtain ⟨x, hx⟩ := calChannel_of_fail hfail
    rw [hx]
    exact ⟨rdB_calReject s g c x, getR_calReject s g c x (by decide) (by decide) g c,
      getR_calReject s g c x (by decide) (by decide) g c⟩
  · have hexec := (exec_trimWrite htakes).trans (congrArg _ (writeTrim_whole _ t.reg t.g.val t.c.val v))
    refine ⟨fun hbringup => ?_, fun hnotBringup hnotTrained hnone => ?_, fun htrained => ?_⟩
    · exact hexec.trans (congrArg _ (trimPut_of_bringup _ _ _ hbringup))
    · refine ⟨_, hexec.trans (congrArg _ (trimPut_of_free _ _ _ hnotBringup hnotTrained)), rfl, ?_⟩
      have hstored : Tab.get (getGroup (answered s a ⟨trimName t.reg, t.g.val, t.c.val, 0⟩ v) t.g.val).staged
          (t.c.val, trimIndex (trimName t.reg)) (getR s (trimName t.reg) t.g.val t.c.val) = getR s (trimName t.reg) t.g.val t.c.val := by
        rw [show (getGroup (answered s a ⟨trimName t.reg, t.g.val, t.c.val, 0⟩ v) t.g.val).staged = [] from hnone]
        rfl
      rw [getR_setR, if_pos ⟨rfl, rfl, rfl, rfl⟩, getR_answered, hstored]
    · have hname : trimName t.reg ≠ .calGrpStatus := by cases t.reg <;> decide
      obtain ⟨hkept, hstaged⟩ := trimPut_of_trained (s := answered s a ⟨trimName t.reg, t.g.val, t.c.val, 0⟩ v)
        (trimIndex (trimName t.reg)) _ htrained t.c.isLt hname
      exact ⟨_, hexec, hkept, hstaged⟩

end Sys2Proof.Machine
end
